-- ==== Sys2Proof/Word.lean ====
section
/-!
DEFINITION. The words of the machine (spec R1, R2): bytes, 32-bit instruction words and tokens'
values, 64-bit registers and addresses.
-/

namespace Sys2Proof

/-- A byte of memory. -/
abbrev Byte := BitVec 8

/-- An instruction word, a lane word, or the data word of a token (R75, R288). -/
abbrev W32 := BitVec 32

/-- A general register or an address (R52, R114). -/
abbrev Word := BitVec 64

end Sys2Proof
end

