-- ==== Sys2Proof/Config.lean ====
section
/-!
DEFINITION. What the manual leaves to the implementation or leaves open: constants with no body, so
that nothing in Lean can evaluate them or prove a value of them. `State.free` is the counter that
picks a fresh free value (notes/assumptions/9.md).
-/

namespace Sys2Proof.Config

/-- The outer accumulator of a cell after `mtpst part=f` (R221, R396): undefined until `mzo`.
The first argument is the free-value counter, the second the cell 64·i + j. -/
opaque freeOuter : Nat → Nat → BitVec 32

/-- The poison bit pout of a row after `mtpst part=f` (R396): undefined until `mzo`. -/
opaque freePout : Nat → Nat → Bool

/-- What a port or register whose value the manual does not state holds. -/
opaque freeWord : Nat → BitVec 64

/-- What a memory cell that has no content after a corrupting error reads as (R232). -/
opaque freeByte : Nat → Nat → BitVec 8

/-- The part's private identity key, derived from its physically unclonable function (R256, R258). -/
opaque identitySecret : Nat

/-- The nonces that the part tries for an ECDSA signature (R258, R260): free-value counter and attempt. -/
opaque signNonce : Nat → Nat → Nat

/-- What a byte of a save area that the device has written reads as (R240): save and offset. -/
opaque savedByte : Nat → Nat → BitVec 8

/-- The hash of the firmware signer's public key held in mask ROM (R256). -/
opaque maskRomKeyHash : List (BitVec 8)

/-- How many scratchpad lines per core an expert's weights take (R215): partition and expert. -/
opaque expertLines : Nat → Nat → Nat

/-- The temperature reading of a sensor of a die (R261), in °C. -/
opaque temperature : Nat → Nat → List Int

/-- The session key that an SPDM key exchange or key update yields (R254). -/
opaque sessionKey : Nat → List (BitVec 8)

/-- Where the loader puts a global section: the loader chooses its address (R269, R287). Arguments: load
number and section index. -/
opaque sectionAddress : Nat → Nat → BitVec 64

/-- The number by which a fault record names a structure hit by an uncorrectable error (R227, R246):
0 the instruction store, 1 the task table, 2 the configuration region, 3 the dependence table. -/
opaque structureNumber : Nat → BitVec 64

/-- The public key X ‖ Y and the signature r ‖ s that a firmware image's header holds (R256), where the
header is well formed. -/
opaque imageHeader : List (BitVec 8) → Option (List (BitVec 8) × List (BitVec 8))

/-- The event counter of a source at a Chronograph snapshot (R248): source number and free-value
counter. -/
opaque eventCount : Nat → Nat → Nat

/-- The busy and stall state of a source whose state the manual does not describe (R248). -/
opaque sourceState : Nat → Nat → Bool × Bool

end Sys2Proof.Config
end

