-- ==== Sys2Proof/Syntax.lean ====
section
/-!
DEFINITION. The operations and events of the SW4, one constructor for every row of
spec/opcode_table.json: control words, matrix words, lane operations and events. Register numbers
and coded fields are decoded here once (R289-R303); an event carries what the agent outside the
instruction stream supplies.
-/

namespace Sys2Proof

/-- A general register number, g0-g31 (R52). -/
abbrev Reg := BitVec 5

/-- A predicate number, q0-q7 (R52). -/
abbrev Pred := BitVec 3

/-- The guard of a control word: qp in [25:23], qn in [22] (R289, R291). -/
structure Guard where
  p : Pred
  n : BitVec 1
  deriving DecidableEq, Repr

/-- Kinds of `shi` (R294), in code order. -/
inductive ShiftKind where
  | shl | shr | sra | rot
  deriving DecidableEq, Repr

/-- Compare conditions of `cmp` and `cmpi` (R326), in code order. -/
inductive Cc where
  | eq | ne | lt | ge | ltn | gen
  deriving DecidableEq, Repr

/-- Access sizes of format M (R116): 1, 2, 4 and 8 bytes. -/
inductive Size where
  | b | h | w | d
  deriving DecidableEq, Repr

/-- Operations of `amo` (R138), in code order. -/
inductive AmoOp where
  | add | min | max | minn | maxn | and | or | xor | swap
  deriving DecidableEq, Repr

/-- Sizes of an atomic (R138): 4 and 8 bytes. -/
inductive AmoSize where
  | w | d
  deriving DecidableEq, Repr

/-- Wake codes of `yield` (R63), in code order. -/
inductive WakeCode where
  | imm | cnt | line | chan | bar | rdv
  deriving DecidableEq, Repr

/-- The fields of a lane operation word other than its eop (R78). -/
structure LaneArgs where
  fmt  : BitVec 3
  qa   : BitVec 2
  qb   : BitVec 2
  bimm : Bool
  rate : BitVec 4
  imm  : BitVec 12
  deriving DecidableEq, Repr

/-- A fault queue: a partition's or the firmware's (R228). -/
inductive FqId where
  | part (p : Nat)
  | firmware
  deriving DecidableEq, Repr

/-- What the supervisor sets for a name domain (R160): the HMAC key, the hash key, the physical
address and the size exponent of the table, and the heap's global virtual range. -/
structure DomainCfg where
  key      : List Byte
  hashKey  : BitVec 128
  tbase    : Nat
  t        : Nat
  heapBase : Nat
  heapSize : Nat
  deriving DecidableEq, Repr

/-- An access of the supervisor to a register that has no step of its own (R54, R117, R201, R202,
R214, R228, R243, R248, R249, R259, R285). -/
inductive SupWrite where
  /-- 0x111 of a core: word address of the debug entry (R243). -/
  | debugEntry (c : Nat) (v : Word)
  /-- 0x180-0x19F and 0x1A0 of a core (R243). -/
  | debugReg (c : Nat) (num : BitVec 12) (v : Word)
  /-- The partition's clusters in virtual order (R201). -/
  | clusterMap (p : Nat) (clusters : List Nat)
  /-- The physical address of the partition's level-1 table (R117). -/
  | pageRoot (p pa : Nat)
  /-- The partition's memory-encryption key (R255). -/
  | memoryKey (p : Nat) (key : List Byte)
  /-- The partition's share of memory bandwidth, in 1/1,024 (R202). -/
  | share (p sh : Nat)
  /-- Copy threshold and idle threshold of the replication engine (R214). -/
  | thresholds (p copy idle : Nat)
  /-- The core group and first line that hold replicas on a die (R215). -/
  | replicaReserve (p die vcl core ncore line : Nat)
  /-- An entry of the replica table that names an original (R216). -/
  | original (p expert vcl core ncore line : Nat)
  /-- The page at which a partition's replica entries are published (R216). -/
  | replicaPage (p pa : Nat)
  /-- The record ring of a partition: physical base and size in bytes (R259). -/
  | recordRing (p base size : Nat)
  /-- Accept a signer's public key, and withdraw one (R285). -/
  | acceptKey (p : Nat) (key : List Byte)
  | withdrawKey (p : Nat) (key : List Byte)
  /-- A window of BAR2 onto a partition's global memory (R249): offset, size, first virtual address. -/
  | bar2Window (p off size va : Nat)
  /-- The head register of a fault queue (R228). -/
  | faultHead (fq : FqId) (head : BitVec 32)
  /-- The save area of a partition: physical base (R240). -/
  | saveArea (p base : Nat)
  /-- Arm the Chronograph's trigger on the next fault record of a cause (R248). -/
  | chronographTrigger (cause : Nat)
  /-- Read out the Chronograph's latched snapshots (R248). -/
  | snapshotRead
  /-- Make a core run firmware code at supervisor level, outside every partition (R224). -/
  | firmwareCore (c entry : Nat)
  /-- Set the eight counters of a name domain, in the order of R160, and read them. -/
  | nameCounters (p : Nat) (counts : List Nat)
  | nameCountersRead (p : Nat)
  /-- Read the duplicate-row counter (R313). -/
  | dupsRead (p : Nat)
  /-- The bytes of CXL memory that the firmware has enumerated (R251, R256). -/
  | cxlMemory (bytes : Nat)
  /-- The device's domain number, which the host assigns at boot (R253). -/
  | domainNumber (n : Nat)
  /-- Arm a circuit between a port of a core and a Swihowen Link (R92, R254): from a sink port to the link, or
  from the link to a source port or a virtual channel. -/
  | linkCircuit (c port link : Nat) (out toVc : Bool)
  deriving DecidableEq, Repr

/-- Where an uncorrectable SRAM error strikes (R246). -/
inductive SramWhere where
  | scratchpadLine (c line : Nat)
  | nameCacheEntry (die idx : Nat)
  | instructionWord (c addr : Nat)
  | taskEntry (c idx : Nat)
  | configRegion (c : Nat)
  | dependenceEntry (gr : Nat)
  deriving DecidableEq, Repr

/-- What reaches the device from outside on its ports: a host access through BAR2 (R249), a host write to its
own memory that the device later reads (R250), a host access to BAR0 (R249, R250, R257), the key of the IDE
stream (R249), poison from a CXL port (R251), and a flit on a Swihowen Link (R254). -/
inductive HostAccess where
  | read (off size : Nat)
  | write (off : Nat) (bytes : List Byte) (ep : Bool)
  | hostMemory (addr : Nat) (bytes : List Byte) (ep : Bool)
  | bar0Read (off size : Nat)
  | bar0Write (off : Nat) (bytes : List Byte)
  | ideKey (key : List Byte)
  | cxlPoison (unit : Nat)
  | flit (link : Nat) (poison : Bool) (kind : BitVec 3) (value : BitVec 32)
  deriving DecidableEq, Repr

/-- The operations and events of the machine. -/
inductive Instr where
  -- Control words (R289-R298)
  /-- ADD (R315). Adds ga and gb modulo 2^64 into gd. -/
  | add (g : Guard) (d a b : Reg)
  /-- SUB (R404). Subtracts gb from ga modulo 2^64 into gd. -/
  | sub (g : Guard) (d a b : Reg)
  /-- MUL (R397). Writes the low 64 bits of ga times gb to gd. -/
  | mul (g : Guard) (d a b : Reg)
  /-- MULH (R397). Writes the high 64 bits of the signed product to gd. -/
  | mulh (g : Guard) (d a b : Reg)
  /-- MULHN (R397). Writes the high 64 bits of the natural product to gd. -/
  | mulhn (g : Guard) (d a b : Reg)
  /-- DIV (R315). Signed division truncated toward zero, with fixed results for zero and overflow. -/
  | div (g : Guard) (d a b : Reg)
  /-- DIVN (R315). Natural division, giving all ones for a zero divisor. -/
  | divn (g : Guard) (d a b : Reg)
  /-- REM (R404). Signed remainder with the sign of ga. -/
  | rem (g : Guard) (d a b : Reg)
  /-- REMN (R404). Natural remainder; ga for a zero divisor. -/
  | remn (g : Guard) (d a b : Reg)
  /-- AND (R315). Bitwise AND of ga and gb into gd. -/
  | and (g : Guard) (d a b : Reg)
  /-- OR (R404). Bitwise OR of ga and gb into gd. -/
  | or (g : Guard) (d a b : Reg)
  /-- XOR (R404). Bitwise XOR of ga and gb into gd. -/
  | xor (g : Guard) (d a b : Reg)
  /-- SHL (R404). Shifts ga left by gb[5:0]. -/
  | shl (g : Guard) (d a b : Reg)
  /-- SHR (R404). Shifts ga right logically by gb[5:0]. -/
  | shr (g : Guard) (d a b : Reg)
  /-- SRA (R404). Shifts ga right arithmetically by gb[5:0]. -/
  | sra (g : Guard) (d a b : Reg)
  /-- ROT (R404). Rotates ga left by gb[5:0]. -/
  | rot (g : Guard) (d a b : Reg)
  /-- MIN (R377). Signed minimum of ga and gb. -/
  | min (g : Guard) (d a b : Reg)
  /-- MAX (R377). Signed maximum of ga and gb. -/
  | max (g : Guard) (d a b : Reg)
  /-- MINN (R377). Natural minimum of ga and gb. -/
  | minn (g : Guard) (d a b : Reg)
  /-- MAXN (R377). Natural maximum of ga and gb. -/
  | maxn (g : Guard) (d a b : Reg)
  /-- CLZ (R315). Counts leading zero bits of ga. -/
  | clz (g : Guard) (d a : Reg)
  /-- CTZ (R315). Counts trailing zero bits of ga. -/
  | ctz (g : Guard) (d a : Reg)
  /-- POPC (R404). Counts the set bits of ga. -/
  | popc (g : Guard) (d a : Reg)
  /-- BEXT_Z_REG (R324). Zero-extending bit-field extract with offset and width from gb. -/
  | bextZReg (g : Guard) (d a b : Reg)
  /-- BINS_REG (R324). Bit-field insert with offset and width from gb. -/
  | binsReg (g : Guard) (d a b : Reg)
  /-- BEXT_S_REG (R324). Sign-extending bit-field extract with offset and width from gb. -/
  | bextSReg (g : Guard) (d a b : Reg)
  /-- SEL (R404). Writes ga to gd when predicate qs holds, else gb. -/
  | sel (g : Guard) (qs : Pred) (d a b : Reg)
  /-- ADDI (R316). Adds the sign-extended 12-bit immediate to ga. -/
  | addi (g : Guard) (d a : Reg) (imm : BitVec 12)
  /-- ANDI (R316). ANDs ga with the sign-extended immediate. -/
  | andi (g : Guard) (d a : Reg) (imm : BitVec 12)
  /-- ORI (R405). ORs ga with the sign-extended immediate. -/
  | ori (g : Guard) (d a : Reg) (imm : BitVec 12)
  /-- XORI (R405). XORs ga with the sign-extended immediate. -/
  | xori (g : Guard) (d a : Reg) (imm : BitVec 12)
  /-- SHI (R294). Shifts or rotates ga by an immediate amount of the selected kind. -/
  | shi (g : Guard) (kind : ShiftKind) (d a : Reg) (amt : BitVec 6)
  /-- BEXT_Z (R324). Zero-extending bit-field extract with immediate offset and width. -/
  | bextZ (g : Guard) (d a : Reg) (off wm1 : BitVec 6)
  /-- BEXT_S (R324). Sign-extending bit-field extract with immediate offset and width. -/
  | bextS (g : Guard) (d a : Reg) (off wm1 : BitVec 6)
  /-- BINS (R324). Inserts the low bits of ga into gd at an immediate offset and width. -/
  | bins (g : Guard) (d a : Reg) (off wm1 : BitVec 6)
  /-- LI (R371). Loads a sign-extended 17-bit immediate into gd. -/
  | li (g : Guard) (d : Reg) (imm : BitVec 17)
  /-- LUI (R373). Loads the immediate shifted left by 17 and sign-extended from bit 33. -/
  | lui (g : Guard) (d : Reg) (imm : BitVec 17)
  /-- CMP (R326). Compares ga with gb by condition cc into a predicate. -/
  | cmp (g : Guard) (cc : Cc) (d : Pred) (a b : Reg)
  /-- CMPI (R326). Compares ga with a 9-bit immediate by condition cc into a predicate. -/
  | cmpi (g : Guard) (cc : Cc) (d : Pred) (a : Reg) (imm : BitVec 9)
  /-- PAND (R406). Predicate AND. -/
  | pand (g : Guard) (d a b : Pred)
  /-- POR (R406). Predicate OR. -/
  | por (g : Guard) (d a b : Pred)
  /-- PNOT (R406). Predicate NOT. -/
  | pnot (g : Guard) (d a : Pred)
  /-- LD_Z (R368). Loads a zero-extended scratchpad value, rewinding on an empty line. -/
  | ldZ (g : Guard) (sz : Size) (d a : Reg) (off : BitVec 10)
  /-- LD_S (R368). Loads a sign-extended scratchpad value, rewinding on an empty line. -/
  | ldS (g : Guard) (sz : Size) (d a : Reg) (off : BitVec 10)
  /-- ST (R426). Places a store in the task's write buffer. -/
  | st (g : Guard) (sz : Size) (d a : Reg) (off : BitVec 10)
  /-- FSET_FULL (R364). Sets a scratchpad line full at issue. -/
  | fsetFull (g : Guard) (a : Reg)
  /-- FSET_EMPTY (R364). Sets a scratchpad line empty at issue. -/
  | fsetEmpty (g : Guard) (a : Reg)
  /-- FTEST (R365). Tests whether a line is full into a predicate. -/
  | ftest (g : Guard) (d : Pred) (a : Reg)
  /-- LDG (R370). Empties local lines and starts fetching global lines into them. -/
  | ldg (g : Guard) (a b : Reg) (lines : BitVec 7)
  /-- STG (R427). Records a global line write that the commit issues. -/
  | stg (g : Guard) (a b : Reg) (lines : BitVec 7)
  /-- TLOOK (R123). Looks an address key up in the tag table. -/
  | tlook (g : Guard) (d a : Reg)
  /-- TSET (R123). Writes a key into a tag-table slot. -/
  | tset (g : Guard) (a b : Reg)
  /-- TCLR (R123). Invalidates a tag-table slot. -/
  | tclr (g : Guard) (a : Reg)
  /-- AMO (R317). Issues an atomic read-modify-write to scratchpad or global memory. -/
  | amo (g : Guard) (op : AmoOp) (sz : AmoSize) (dep : Bool) (d a b : Reg)
  /-- AMOCAS (R319). Issues an atomic compare-and-swap. -/
  | amocas (g : Guard) (sz : AmoSize) (dep : Bool) (d a b : Reg)
  /-- B (R320). Branches by a signed word offset. -/
  | b (g : Guard) (off : BitVec 22)
  /-- CALL (R325). Branches and writes the return address to g31. -/
  | call (g : Guard) (off : BitVec 22)
  /-- RET (R412). Continues at the word address in g31. -/
  | ret (g : Guard)
  /-- JT (R366). Jumps through a bounded jump table to a matching landing pad. -/
  | jt (g : Guard) (a b : Reg)
  /-- LPAD (R372). Marks a jump-table target and does nothing. -/
  | lpad (g : Guard) (label : BitVec 16)
  /-- RECV (R411). Consumes the head token of a virtual channel. -/
  | recv (g : Guard) (d : Reg) (vc : BitVec 5) (q : Pred)
  /-- SEND (R422). Reserves a destination slot for a token delivered at commit. -/
  | send (g : Guard) (d : Pred) (a b : Reg)
  /-- SPAWN (R425). Reserves an instance slot for a task created at commit. -/
  | spawn (g : Guard) (a b : Reg)
  /-- END (R353). Ends the task at a safe point and starts its commit. -/
  | endTask (g : Guard)
  /-- END_JOIN (R354). On the stream sequencer, joins the fork and makes the sequencer idle. -/
  | endJoin
  /-- YIELD (R435). Ends the task and places a continuation with a wake condition. -/
  | yield (g : Guard) (wake : WakeCode) (tgt : BitVec 14)
  /-- SAFE (R68). Safe point: resets safecnt and suspends if pre-emption is pending. -/
  | safe (g : Guard) (live : BitVec 17)
  /-- WAITC (R433). Tests the chain's operation counters into a predicate. -/
  | waitc (g : Guard) (d : Pred) (ld st cp mt : BitVec 4)
  /-- FORK_MATRIX (R362). Starts the matrix sequencer if idle. -/
  | forkMatrix (g : Guard) (d : Pred) (tgt : BitVec 14)
  /-- FORK_STREAM (R362). Starts the stream sequencer if idle with a register snapshot. -/
  | forkStream (g : Guard) (d : Pred) (tgt : BitVec 14)
  /-- RDV (R409). Ends the task and places a continuation that waits for the chain's forks. -/
  | rdv (g : Guard) (tgt : BitVec 14)
  /-- SBIND (R415). Binds a stream descriptor to an idle port. -/
  | sbind (g : Guard) (d : Pred) (a b : Reg)
  /-- SCOPY (R416). Queues one pass of the bound descriptor. -/
  | scopy (g : Guard) (d : Pred) (a b : Reg)
  /-- SIM2C (R417). Queues a multi-pass command with stepped origins. -/
  | sim2c (g : Guard) (d : Pred) (a b : Reg)
  /-- SGATH (R418). Queues a gather of passes indexed by a list. -/
  | sgath (g : Guard) (d : Pred) (a b : Reg) (m : BitVec 7)
  /-- SSTOP (R419). Reads port counters and optionally stops the port's commands. -/
  | sstop (g : Guard) (d b : Reg) (keep : Bool)
  /-- FENCE (R180). Holds later operations of after-classes until earlier before-class operations are visible. -/
  | fence (g : Guard) (before after : BitVec 8)
  /-- BAR (R322). Records one arrival at a launch barrier. -/
  | bar (g : Guard) (a : Reg)
  /-- BARTEST (R323). Tests whether the chain's latest barrier round is complete. -/
  | bartest (g : Guard) (d : Pred) (a : Reg)
  /-- SUBS (R429). Creates a subscription and requests a snapshot. -/
  | subs (g : Guard) (d a b : Reg)
  /-- UNSUBS (R430). Removes a subscription entry. -/
  | unsubs (g : Guard) (a : Reg)
  /-- SFLUSH (R431). Closes every open coalescing window of published regions. -/
  | sflush (g : Guard)
  /-- NLOOK (R164). Looks a name up and deposits the entry into a local line. -/
  | nlook (g : Guard) (a b : Reg)
  /-- NINS (R165). Asks the name engine to insert a proposed entry. -/
  | nins (g : Guard) (d a : Reg)
  /-- NEVICT (R165). Asks the name engine to remove an entry. -/
  | nevict (g : Guard) (d a : Reg)
  /-- QPOST (R408). Posts a command to a work queue through the Regulator. -/
  | qpost (g : Guard) (d a b : Reg)
  /-- CNCT (R328). Reads the counter and state of a level. -/
  | cnct (g : Guard) (d a : Reg)
  /-- CNCL (R329). Sends a cancel for a level. -/
  | cncl (g : Guard) (a : Reg)
  /-- MFS (R382). Reads a special register into gd. -/
  | mfs (g : Guard) (d : Reg) (num : BitVec 12)
  /-- MTS (R383). Writes a special register from gs. -/
  | mts (g : Guard) (a : Reg) (num : BitVec 12)
  /-- NOP (R402). Does nothing. -/
  | nop (g : Guard)
  /-- TRAP (R402). Raises the software trap with a code. -/
  | trap (g : Guard) (code : BitVec 12)
  /-- BRK (R402). Debug halt when dbg is set, otherwise the breakpoint trap. -/
  | brk (g : Guard)
  /-- ERET (R356). Ends a debug entry and resumes the halted task. -/
  | eret (g : Guard)
  -- Matrix words (R300, R301)
  /-- MZA (R400). Clears inner accumulators, tags, pin, sat and dirty. -/
  | mza
  /-- MZO (R400). Clears outer accumulators and pout. -/
  | mzo
  /-- MWIN (R398). Sets the window exponent unless the tile is dirty. -/
  | mwin (w : BitVec 8)
  /-- MFMT (R380). Sets the element formats of A and B. -/
  | mfmt (fa fb : BitVec 6)
  /-- MLDA_SCRATCHPAD (R387). Sets A to be read from plane blocks at a line. -/
  | mldaScratchpad (line : BitVec 12)
  /-- MLDA_PORT (R387). Sets A to be read from a source port. -/
  | mldaPort (sp : BitVec 4)
  /-- MLDB (R387). Sets the first line of B's plane blocks. -/
  | mldb (line : BitVec 12)
  /-- MMUL (R388). Issues row firings of A rows into the same result rows. -/
  | mmul (ks : BitVec 7) (rows : BitVec 6)
  /-- MGMUL (R385). Issues row firings by index and scatter lists. -/
  | mgmul (ks : BitVec 7) (list : BitVec 12) (n : BitVec 6)
  /-- MSCALE (R391). Scales inner sums by E8M0 scales from lines and adds them into outer accumulators. -/
  | mscale (sa sb : BitVec 12)
  /-- MSCALE_UNIT (R391). Adds inner sums into outer accumulators with unit scales. -/
  | mscaleUnit
  /-- MRD (R390). Copies tile rows into the output buffer for a sink port. -/
  | mrd (acc drain : Bool) (sk : BitVec 4) (row0 rows : BitVec 6)
  /-- MST (R392). Writes outer-accumulator rows to scratchpad lines. -/
  | mst (bf16 : Bool) (line : BitVec 12) (row0 rows : BitVec 6)
  /-- MXPOSE (R399). Converts element-form vectors into a plane block. -/
  | mxpose (sideB : Bool) (src dst : BitVec 12)
  /-- MTOPK (R394). Selects each row's top k experts and writes records. -/
  | mtopk (rows : BitVec 6) (ne : BitVec 2) (k : BitVec 3)
  /-- MTPLD (R395). Loads a transport tile and its marginals. -/
  | mtpld (line : BitVec 12) (rows cols : BitVec 6)
  /-- MBAL (R378). Runs balancing sweeps on the transport tile. -/
  | mbal (sweeps : BitVec 12) (tol : BitVec 6)
  /-- MTPST_PLAN (R221). Writes the transport plan. -/
  | mtpstPlan (line : BitVec 12)
  /-- MTPST_POTENTIALS (R221). Writes the f and g potentials. -/
  | mtpstPotentials (line : BitVec 12)
  /-- MTPST_RELEASE (R221). Writes f and releases the transport tile. -/
  | mtpstRelease (line : BitVec 12)
  /-- MTDIST (R393). Computes the plan's cost-weighted distance. -/
  | mtdist (cost out : BitVec 12)
  /-- MJOIN (R386). Drains and makes the matrix sequencer idle. -/
  | mjoin
  /-- MCOOP_ON (R379). Joins the cluster's cooperative tile. -/
  | mcoopOn
  /-- MCOOP_OFF (R379). Leaves the cooperative tile. -/
  | mcoopOff
  -- Lane operations (R78, R302)
  /-- EIADD (R348). Lane fires an integer add. -/
  | eiadd (w : LaneArgs)
  /-- EISUB (R348). Lane fires an integer subtract. -/
  | eisub (w : LaneArgs)
  /-- EIMUL (R348). Lane fires an integer multiply. -/
  | eimul (w : LaneArgs)
  /-- EIMAC (R348). Lane fires an integer multiply-add. -/
  | eimac (w : LaneArgs)
  /-- EIMIN (R348). Lane fires an integer minimum. -/
  | eimin (w : LaneArgs)
  /-- EIMAX (R348). Lane fires an integer maximum. -/
  | eimax (w : LaneArgs)
  /-- EIAND (R348). Lane fires a bitwise AND. -/
  | eiand (w : LaneArgs)
  /-- EIOR (R348). Lane fires a bitwise OR. -/
  | eior (w : LaneArgs)
  /-- EIXOR (R348). Lane fires a bitwise XOR. -/
  | eixor (w : LaneArgs)
  /-- EISHL (R348). Lane fires a left shift. -/
  | eishl (w : LaneArgs)
  /-- EISHR (R348). Lane fires a logical right shift. -/
  | eishr (w : LaneArgs)
  /-- EISRA (R348). Lane fires an arithmetic right shift. -/
  | eisra (w : LaneArgs)
  /-- EICMP (R348). Lane fires an integer compare. -/
  | eicmp (w : LaneArgs)
  /-- EFADD (R346). Lane fires a floating-point add. -/
  | efadd (w : LaneArgs)
  /-- EFSUB (R346). Lane fires a floating-point subtract. -/
  | efsub (w : LaneArgs)
  /-- EFMUL (R346). Lane fires a floating-point multiply. -/
  | efmul (w : LaneArgs)
  /-- EFFMA (R346). Lane fires a fused multiply-add. -/
  | effma (w : LaneArgs)
  /-- EFMIN (R346). Lane fires a floating-point minimum. -/
  | efmin (w : LaneArgs)
  /-- EFMAX (R346). Lane fires a floating-point maximum. -/
  | efmax (w : LaneArgs)
  /-- EFCMP (R347). Lane fires a floating-point compare. -/
  | efcmp (w : LaneArgs)
  /-- ECVT (R341). Lane fires a format conversion. -/
  | ecvt (w : LaneArgs)
  /-- EEXP2 (R344). Lane fires a base-2 exponential. -/
  | eexp2 (w : LaneArgs)
  /-- ELOG2 (R344). Lane fires a base-2 logarithm. -/
  | elog2 (w : LaneArgs)
  /-- ERCP (R344). Lane fires a reciprocal. -/
  | ercp (w : LaneArgs)
  /-- ELSE2 (R338). Lane emits the LSE2 of a segment at a marker. -/
  | else2 (w : LaneArgs)
  /-- ESEL (R357). Lane selects A or B by C. -/
  | esel (w : LaneArgs)
  /-- ESTEER (R359). Lane steers A to one of two arms by C. -/
  | esteer (w : LaneArgs)
  /-- EMERGE (R352). Lane merges one of two queues by C. -/
  | emerge (w : LaneArgs)
  /-- EEXIT (R343). Lane sends A to the exit or back edge by C. -/
  | eexit (w : LaneArgs)
  /-- EREP (R355). Lane repeats A B times. -/
  | erep (w : LaneArgs)
  /-- EMARK (R351). Lane passes tokens and inserts markers after a count. -/
  | emark (w : LaneArgs)
  /-- ESTRIP (R342). Lane passes data and drops low-rank markers. -/
  | estrip (w : LaneArgs)
  /-- ECOUNT (R338). Lane emits a segment's token count at a marker. -/
  | ecount (w : LaneArgs)
  /-- ERED (R338). Lane emits a segment's reduction at a marker. -/
  | ered (w : LaneArgs)
  /-- ECONST (R336). Lane emits a constant per A token. -/
  | econst (w : LaneArgs)
  /-- EPASS (R342). Lane passes every token. -/
  | epass (w : LaneArgs)
  /-- EDROP (R342). Lane drops data and passes markers. -/
  | edrop (w : LaneArgs)
  /-- ELD (R350). Memory node loads a word. -/
  | eld (w : LaneArgs)
  /-- EST (R350). Memory node stores a word. -/
  | est (w : LaneArgs)
  /-- ERMW (R350). Memory node performs a read-modify-write. -/
  | ermw (w : LaneArgs)
  /-- EBQ (R87). Lane quantises a buffered block to scale and elements. -/
  | ebq (w : LaneArgs)
  /-- EBDQ (R334). Lane dequantises a buffered block to FP32. -/
  | ebdq (w : LaneArgs)
  -- Events: steps that no instruction word causes (spec/95_what_each_step_holds.md)
  /-- ILLEGAL_INSTRUCTION (R298). A sequencer issues a word that is not legal for it and raises cause 1. -/
  | illegalInstruction (w : BitVec 32)
  /-- MATRIX_PASS (R99). The unit starts a pass of row firings for the lowest pending step. -/
  | matrixPass (c : Nat)
  /-- ROW_FIRING (R100). A row firing accumulates one step into a result row atomically. -/
  | rowFiring (c : Nat)
  /-- MRD_OUTPUT_DRAIN (R390). The output buffer passes one token to the sink port when it has room. -/
  | mrdOutputDrain (c : Nat)
  /-- MATRIX_WORD_COMPLETE (R375). A matrix word completes and cnt.mt falls. -/
  | matrixWordComplete (c : Nat)
  /-- TASK_DISPATCH (R61). The free control sequencer ranks runnable instances and starts one. -/
  | taskDispatch (c : Nat)
  /-- INSTANCE_AGED (R60). An instance runnable for 65,536 cycles without dispatch becomes aged. -/
  | instanceAged (c slot : Nat)
  /-- CONTINUATION_WAKE (R63). A continuation becomes runnable when its wake condition holds after the commit. -/
  | continuationWake (c slot : Nat)
  /-- PREEMPT_FORCED_STOP (R239). A task without a safe point 4,096 cycles after the request is stopped at an instruction boundary. -/
  | preemptForcedStop (c : Nat)
  /-- TASK_COMMIT (R169). The core commits an ended task's write buffer, stg commands, sends and spawns. -/
  | taskCommit (c idx : Nat)
  /-- REGISTER_REPLY_ARRIVAL (R314). A reply arrives and writes an owed register or predicate. -/
  | registerReplyArrival (c idx : Nat)
  /-- UNIT_COMPLETION (R18). A unit completes when its task has ended and its counters are 0. -/
  | unitCompletion (c chain : Nat)
  /-- CANCEL_ARRIVAL (R20). A cancel takes effect at the level's owner. -/
  | cancelArrival (idx : Nat)
  /-- LDG_LINE_ARRIVAL (R125). A fetched global line arrives and becomes full. -/
  | ldgLineArrival (c idx : Nat)
  /-- STG_WRITE_COMPLETE (R126). An stg command's lines are written to global memory and cnt.st falls. -/
  | stgWriteComplete (c idx : Nat)
  /-- DETENT_ATOMIC (R140). The Detent performs a global atomic in arrival order. -/
  | detentAtomic (cl : Nat)
  /-- ATOMIC_DEPOSIT_ARRIVAL (R317). A global atomic result deposits and its line becomes full. -/
  | atomicDepositArrival (c idx : Nat)
  /-- HOME_RECALL (R166). The home slice recalls a line from a Detent for another requester. -/
  | homeRecall (cl line : Nat)
  /-- SCRATCHPAD_ATOMIC_STEP (R139). The target port performs a fused scratchpad read-modify-write. -/
  | scratchpadAtomicStep (c : Nat)
  /-- PAGE_WALK (R118). A translation miss walks the page table and completes. -/
  | pageWalk (p die : Nat) (va : BitVec 64)
  /-- SUPERVISOR_RETRY (R231). The supervisor retries a stalled request. -/
  | supervisorRetry (p idx : Nat)
  /-- TRANSLATION_INVALIDATE (R118). The supervisor invalidates a translation entry. -/
  | translationInvalidate (p : Nat) (va : BitVec 64)
  /-- STREAM_COMMAND_START (R420). A port's dispatcher starts its next queued command. -/
  | streamCommandStart (c port : Nat)
  /-- STREAM_SOURCE_TOKEN (R129). A source port reads elements and delivers a token. -/
  | streamSourceToken (c port : Nat)
  /-- STREAM_SINK_TOKEN (R129). A sink port consumes a token and writes its elements. -/
  | streamSinkToken (c port : Nat)
  /-- STREAM_COMMAND_COMPLETE (R131). A stream command posts its last byte and cnt.cp falls. -/
  | streamCommandComplete (c port : Nat)
  /-- SINK_COMPLETION_SWEEP (R305). When all sink nodes are complete, remaining source and sink commands complete. -/
  | sinkCompletionSweep (launch : Nat)
  /-- SNAPSHOT_REQUEST (R135). The publisher copies the region on arrival of a snapshot request. -/
  | snapshotRequest (c idx : Nat)
  /-- SNAPSHOT_APPLY (R135). The subscriber applies a snapshot and the entry becomes live. -/
  | snapshotApply (c idx : Nat)
  /-- COALESCE_WINDOW_CLOSE (R135). A 64-cycle coalescing window closes and releases its update. -/
  | coalesceWindowClose (c idx : Nat)
  /-- SUBSCRIPTION_UPDATE_APPLY (R135). The subscriber applies an update with poison and optional fill. -/
  | subscriptionUpdateApply (c idx : Nat)
  /-- BACKLOG_WRITE (R137). An update for a pre-empted or halted subscriber goes to the backlog. -/
  | backlogWrite (c idx : Nat)
  /-- UNSUBS_ARRIVAL (R430). A removal reaches the publisher, flushing windows ahead of the mark. -/
  | unsubsArrival (c idx : Nat)
  /-- REMOVAL_MARK_PASS (R430). The removal mark passes a core and frees the entry. -/
  | removalMarkPass (c idx : Nat)
  /-- RING_PACKET_ENTRY (R10). A packet enters a ring stage when two buffers are free. -/
  | ringPacketEntry (c ring freeBuffers : Nat)
  /-- REDUCTION_MERGE (R12). A router merges reduction packets to one address. -/
  | reductionMerge (i1 i2 : Nat)
  /-- CIRCUIT_TOKEN_TRANSFER (R92). A token crosses a latch stage of an elastic circuit. -/
  | circuitTokenTransfer (idx hop : Nat)
  /-- ROW_TAG_ARRIVAL (R212). A rowtags port checks a row's tag token and delivers or drops the row. -/
  | rowTagArrival (c port : Nat)
  /-- MEMORY_NODE_REPLY (R90). A remote memory-node access completes and emits its word and done token: the
  idx-th of the core's accesses in flight. -/
  | memoryNodeReply (c idx : Nat)
  /-- NODE_NAMING (R150). A node computes an output's lineage name once its inputs' names are known. -/
  | nodeNaming (launch node port : Nat)
  /-- NAME_LOOKUP (R150). A memoisable port's name lookup completes as anchor or miss. -/
  | nameLookup (launch node port : Nat)
  /-- CONTROL_NAME_RESOLVE (R153). A control token arrives and names the outputs of an opened node. -/
  | controlNameResolve (launch node : Nat)
  /-- SHAPE_WORD_ARRIVAL (R156). A shape word arrives and closes an open name. -/
  | shapeWordArrival (launch node port : Nat)
  /-- DEMAND_REQUEST (R151). A request reaches a node and makes it requested for segments. -/
  | demandRequest (launch node : Nat)
  /-- ANCHOR_SERVE (R151). A request reaching an anchor makes the stream engine serve the stored object. -/
  | anchorServe (launch node port : Nat)
  /-- RETENTION (R157). A whole missed object is retained into the domain heap and table. -/
  | retention (launch node port : Nat)
  /-- NLOOK_DEPOSIT (R164). The name engine deposits a lookup result and sets the line full. -/
  | nlookDeposit (p idx : Nat)
  /-- NAME_ENGINE_STATUS (R165). The name engine finishes an nins or nevict and returns a status. -/
  | nameEngineStatus (p idx : Nat)
  /-- HOLD_RELEASE (R162). A launch's hold on an entry ends after its last read. -/
  | holdRelease (p idx : Nat)
  /-- QUEUE_NOTIFY (R250). A host doorbell write sets a queue's tail. -/
  | queueNotify (q : Nat) (tail : BitVec 32)
  /-- COMMAND_READ (R250). The Regulator reads the command at head and checks its sequence word. -/
  | commandRead (q : Nat)
  /-- COMMAND_RETRY_TIMEOUT (R250). After 256 ns the sequence check is retried; after 9 attempts the command is torn. -/
  | commandRetryTimeout (q : Nat)
  /-- RUN_JOB (R189). An op 1 command creates a job, binds source names and starts phase 0. -/
  | runJob (q : Nat)
  /-- CANCEL_JOB (R189). An op 2 command cancels the named job. -/
  | cancelJob (q : Nat)
  /-- STRIDE_DISPATCH (R191). The free dispatch port chooses the smallest-pass backlogged queue and dispatches. -/
  | strideDispatch
  /-- LAUNCH_NODE_DISPATCH (R195). A launch node starts a launch and takes a serial. -/
  | launchNodeDispatch (gr node : Nat)
  /-- COPY_NODE_DISPATCH (R195). A copy node starts a global copy on path C. -/
  | copyNodeDispatch (gr node : Nat)
  /-- COPY_NODE_COMPLETE (R195). A copy completes when every byte is visible. -/
  | copyNodeComplete (gr node : Nat)
  /-- COND_NODE_DISPATCH (R195). A cond node reads its predicate and releases one successor list. -/
  | condNodeDispatch (gr node : Nat)
  /-- LOOP_NODE_DISPATCH (R196). A loop node starts its body's first iteration. -/
  | loopNodeDispatch (gr node : Nat)
  /-- LOOP_ITERATION_END (R196). After a body finishes, the predicate is read and the loop repeats or completes. -/
  | loopIterationEnd (gr node : Nat)
  /-- BAR_NODE_DISPATCH (R195). A bar node waits for earlier nodes of its graph. -/
  | barNodeDispatch (gr node : Nat)
  /-- DONE_NODE_DISPATCH (R195). The done node completes its graph. -/
  | doneNodeDispatch (gr node : Nat)
  /-- NODE_FINISH (R194). A node completes or is skipped and decrements its successors. -/
  | nodeFinish (gr node : Nat)
  /-- LAUNCH_COMPLETION (R18). A launch completes, removes subscriptions and writes its record. -/
  | launchCompletion (launch : Nat)
  /-- RECORD_CHECKPOINT (R260). A signed checkpoint is written after every 256th record or on request. -/
  | recordCheckpoint (p : Nat)
  /-- PHASE_BOUNDARY (R199). A phase completes and the next begins after applying pending changes. -/
  | phaseBoundary (job : Nat)
  /-- REPLICA_COPY_COMPLETE (R215). A replica copy completes and the table gains an entry, or reports an error. -/
  | replicaCopyComplete (p : Nat) (ok : Bool)
  /-- JOB_COMPLETION (R190). A job completes and its completion record is written. -/
  | jobCompletion (job : Nat)
  /-- TOKEN_REFILL (R202). Every 1,024 Dial ticks bandwidth tokens are added to core buckets. -/
  | tokenRefill
  /-- QUEUE_DESCRIPTOR_WRITE (R186). The supervisor writes a work-queue descriptor. -/
  | queueDescriptorWrite (q : Nat) (v : BitVec 256)
  /-- FAULT_QUEUE_DESCRIPTOR_WRITE (R228). The supervisor writes a fault-queue descriptor. -/
  | faultQueueDescriptorWrite (fq : FqId) (v : BitVec 128)
  /-- FAULT_RECORD_WRITE (R230). A held report is written 256 ticks after its Dial value, in order. -/
  | faultRecordWrite (fq : FqId)
  /-- MODE_REGISTER_WRITE (R13). The partition mode register's dbg and det bits are written. -/
  | modeRegisterWrite (p : Nat) (v : BitVec 64)
  /-- NAME_DOMAIN_SET (R160). The supervisor sets a name domain's keys, table and heap. -/
  | nameDomainSet (p : Nat) (cfg : DomainCfg)
  /-- SUPERVISOR_REGISTER_WRITE (R54). A write to a base-die or supervisor register without a row of its own. -/
  | supervisorRegisterWrite (r : SupWrite)
  /-- PREEMPT_REQUEST (R237). The Regulator stops dispatch and sends pre-emption to clusters. -/
  | preemptRequest (p : Nat)
  /-- QUIESCENCE (R237). The Regulator declares the partition quiescent. -/
  | quiescence (p : Nat)
  /-- CLUSTER_SAVE (R238). A cluster's state is saved and the cluster released. -/
  | clusterSave (p vcl : Nat)
  /-- RESUME (R241). Saved state is restored and the partition resumes. -/
  | resume (p : Nat)
  /-- DEBUG_HALT_REQUEST (R243). A supervisor-requested halt suspends the task at its next safe point. -/
  | debugHaltRequest (c : Nat)
  /-- SCRUB (R246). Every 4,096 cycles one scratchpad line is scrubbed. -/
  | scrub (c : Nat)
  /-- UNCORRECTABLE_ERROR (R246). An uncorrectable SRAM error poisons or faults per structure. -/
  | uncorrectableError (w : SramWhere)
  /-- LINK_RETRANSMIT (R247). A CRC or tag error causes a flit retransmission. -/
  | linkRetransmit (l : Nat)
  /-- KEY_UPDATE (R254). At 2^40 flits the endpoints run SPDM KEY_UPDATE. -/
  | keyUpdate (l : Nat)
  /-- KEY_EXCHANGE (R254). Endpoints agree a link key by SPDM KEY_EXCHANGE. -/
  | keyExchange (l : Nat)
  /-- CHRONOGRAPH_LATCH (R248). At Dial T every source's snapshot registers are latched. -/
  | chronographLatch
  /-- DEVICE_RESET (R256). Reset: the boot ROM derives the identity key and awaits an image. -/
  | deviceReset
  /-- IMAGE_LENGTH_WRITE (R256). The host's length write in state 1 starts image verification. -/
  | imageLengthWrite (len : BitVec 32)
  /-- BAR2_HOST_ACCESS (R249). A host access through BAR2 reaches the boot window or partition memory. -/
  | bar2HostAccess (acc : HostAccess)
  /-- GET_MEASUREMENTS (R258). SPDM GET_MEASUREMENTS returns the signed measurement. -/
  | getMeasurements (nonce : List (BitVec 8))
  /-- CHALLENGE (R258). SPDM CHALLENGE is answered under the identity key. -/
  | challenge (nonce : List (BitVec 8))
  /-- GET_CERTIFICATE (R258). SPDM GET_CERTIFICATE returns the identity public key. -/
  | getCertificate
  /-- READ_TEMPERATURES (R261). Management command returning die temperatures. -/
  | readTemperatures (die : Nat)
  /-- SET_POWER_LIMIT (R261). Management command setting the package power limit. -/
  | setPowerLimit (watts : Nat)
  /-- SET_DVFS_FLOOR_CEILING (R261). Management command setting a cluster's clock range. -/
  | setDvfsFloorCeiling (cl lo hi : Nat)
  /-- SET_CHRONOGRAPH_T (R261). Management command setting the Chronograph Dial value. -/
  | setChronographT (t : BitVec 64)
  /-- READ_ERROR_COUNTERS (R261). Management command returning error counters. -/
  | readErrorCounters (die : Nat)
  /-- REQUEST_PREEMPTION (R261). Management command requesting pre-emption of a partition. -/
  | requestPreemption (p : Nat)
  /-- REQUEST_RESUME (R261). Management command requesting resume of a partition. -/
  | requestResume (p : Nat) (clusters : List Nat)
  /-- SET_PARTITION_MODE (R261). Management command setting dbg and det. -/
  | setPartitionMode (p : Nat) (dbg det : Bool)
  /-- DVFS_MONITOR_WINDOW (R262). Every 65,536 ticks a cluster adjusts its clock by back-pressure. -/
  | dvfsMonitorWindow (cl pressured total : Nat)
  /-- POWER_LIMIT_STEP (R262). Each millisecond over the limit every cluster steps down 25 MHz. -/
  | powerLimitStep (watts : Nat)
  /-- OBJECT_LOAD (R286). The loader checks, loads and relocates a CLF object. -/
  | objectLoad (p : Nat) (file : List (BitVec 8))
  /-- OBJECT_UNLOAD (R287). The supervisor unloads an object unless a live job names it. -/
  | objectUnload (p obj : Nat)
  /-- CORRECTED_SINGLE_BIT_ERROR (R246). A single-bit SRAM error is corrected by SEC-DED and counted in the per-die counters that management reads. -/
  | correctedSingleBitError (die : Nat)
  /-- HBM_UNCORRECTABLE_ERROR (R232). An uncorrectable HBM error poisons its 64-byte unit. -/
  | hbmUncorrectableError (unit : Nat)
  deriving DecidableEq, Repr

end Sys2Proof
end

