-- ==== Sys2Proof/WellFormed.lean ====
section
/-!
DEFINITION. Which instructions are well formed: the must-be-zero and code-field rules of R292, R295,
R296 and R301 that the constructors' types do not already express, the load checks 1 to 5 of R93 for
a lane word, and the ranges of an event's arguments.
-/

namespace Sys2Proof

/-- The lane operations (R302). -/
inductive LaneOp where
  | eiadd | eisub | eimul | eimac | eimin | eimax | eiand | eior
  | eixor | eishl | eishr | eisra | eicmp | efadd | efsub | efmul
  | effma | efmin | efmax | efcmp | ecvt | eexp2 | elog2 | ercp
  | else2 | esel | esteer | emerge | eexit | erep | emark | estrip
  | ecount | ered | econst | epass | edrop | eld | est | ermw
  | ebq | ebdq
  deriving DecidableEq, Repr

/-- The operation code of a lane operation (R302). -/
def LaneOp.eop : LaneOp → BitVec 8
  | .eiadd => 0x01
  | .eisub => 0x02
  | .eimul => 0x03
  | .eimac => 0x04
  | .eimin => 0x05
  | .eimax => 0x06
  | .eiand => 0x07
  | .eior => 0x08
  | .eixor => 0x09
  | .eishl => 0x0A
  | .eishr => 0x0B
  | .eisra => 0x0C
  | .eicmp => 0x0D
  | .efadd => 0x20
  | .efsub => 0x21
  | .efmul => 0x22
  | .effma => 0x23
  | .efmin => 0x24
  | .efmax => 0x25
  | .efcmp => 0x26
  | .ecvt => 0x27
  | .eexp2 => 0x28
  | .elog2 => 0x29
  | .ercp => 0x2A
  | .else2 => 0x2B
  | .esel => 0x40
  | .esteer => 0x41
  | .emerge => 0x42
  | .eexit => 0x43
  | .erep => 0x44
  | .emark => 0x45
  | .estrip => 0x46
  | .ecount => 0x47
  | .ered => 0x48
  | .econst => 0x49
  | .epass => 0x4A
  | .edrop => 0x4B
  | .eld => 0x60
  | .est => 0x61
  | .ermw => 0x62
  | .ebq => 0x70
  | .ebdq => 0x71

/-- The lane operation of an operation code (R302). -/
def LaneOp.ofEop (c : BitVec 8) : Option LaneOp :=
  match c.toNat with
  | 0x01 => some .eiadd
  | 0x02 => some .eisub
  | 0x03 => some .eimul
  | 0x04 => some .eimac
  | 0x05 => some .eimin
  | 0x06 => some .eimax
  | 0x07 => some .eiand
  | 0x08 => some .eior
  | 0x09 => some .eixor
  | 0x0A => some .eishl
  | 0x0B => some .eishr
  | 0x0C => some .eisra
  | 0x0D => some .eicmp
  | 0x20 => some .efadd
  | 0x21 => some .efsub
  | 0x22 => some .efmul
  | 0x23 => some .effma
  | 0x24 => some .efmin
  | 0x25 => some .efmax
  | 0x26 => some .efcmp
  | 0x27 => some .ecvt
  | 0x28 => some .eexp2
  | 0x29 => some .elog2
  | 0x2A => some .ercp
  | 0x2B => some .else2
  | 0x40 => some .esel
  | 0x41 => some .esteer
  | 0x42 => some .emerge
  | 0x43 => some .eexit
  | 0x44 => some .erep
  | 0x45 => some .emark
  | 0x46 => some .estrip
  | 0x47 => some .ecount
  | 0x48 => some .ered
  | 0x49 => some .econst
  | 0x4A => some .epass
  | 0x4B => some .edrop
  | 0x60 => some .eld
  | 0x61 => some .est
  | 0x62 => some .ermw
  | 0x70 => some .ebq
  | 0x71 => some .ebdq
  | _ => none

/-- The instruction that a lane operation and its fields make. -/
def LaneOp.instr (o : LaneOp) (w : LaneArgs) : Instr :=
  match o with
  | .eiadd => .eiadd w
  | .eisub => .eisub w
  | .eimul => .eimul w
  | .eimac => .eimac w
  | .eimin => .eimin w
  | .eimax => .eimax w
  | .eiand => .eiand w
  | .eior => .eior w
  | .eixor => .eixor w
  | .eishl => .eishl w
  | .eishr => .eishr w
  | .eisra => .eisra w
  | .eicmp => .eicmp w
  | .efadd => .efadd w
  | .efsub => .efsub w
  | .efmul => .efmul w
  | .effma => .effma w
  | .efmin => .efmin w
  | .efmax => .efmax w
  | .efcmp => .efcmp w
  | .ecvt => .ecvt w
  | .eexp2 => .eexp2 w
  | .elog2 => .elog2 w
  | .ercp => .ercp w
  | .else2 => .else2 w
  | .esel => .esel w
  | .esteer => .esteer w
  | .emerge => .emerge w
  | .eexit => .eexit w
  | .erep => .erep w
  | .emark => .emark w
  | .estrip => .estrip w
  | .ecount => .ecount w
  | .ered => .ered w
  | .econst => .econst w
  | .epass => .epass w
  | .edrop => .edrop w
  | .eld => .eld w
  | .est => .est w
  | .ermw => .ermw w
  | .ebq => .ebq w
  | .ebdq => .ebdq w

/-- The lane operation and fields of an instruction, if it is one. -/
def Instr.lane? : Instr → Option (LaneOp × LaneArgs)
  | .eiadd w => some (.eiadd, w)
  | .eisub w => some (.eisub, w)
  | .eimul w => some (.eimul, w)
  | .eimac w => some (.eimac, w)
  | .eimin w => some (.eimin, w)
  | .eimax w => some (.eimax, w)
  | .eiand w => some (.eiand, w)
  | .eior w => some (.eior, w)
  | .eixor w => some (.eixor, w)
  | .eishl w => some (.eishl, w)
  | .eishr w => some (.eishr, w)
  | .eisra w => some (.eisra, w)
  | .eicmp w => some (.eicmp, w)
  | .efadd w => some (.efadd, w)
  | .efsub w => some (.efsub, w)
  | .efmul w => some (.efmul, w)
  | .effma w => some (.effma, w)
  | .efmin w => some (.efmin, w)
  | .efmax w => some (.efmax, w)
  | .efcmp w => some (.efcmp, w)
  | .ecvt w => some (.ecvt, w)
  | .eexp2 w => some (.eexp2, w)
  | .elog2 w => some (.elog2, w)
  | .ercp w => some (.ercp, w)
  | .else2 w => some (.else2, w)
  | .esel w => some (.esel, w)
  | .esteer w => some (.esteer, w)
  | .emerge w => some (.emerge, w)
  | .eexit w => some (.eexit, w)
  | .erep w => some (.erep, w)
  | .emark w => some (.emark, w)
  | .estrip w => some (.estrip, w)
  | .ecount w => some (.ecount, w)
  | .ered w => some (.ered, w)
  | .econst w => some (.econst, w)
  | .epass w => some (.epass, w)
  | .edrop w => some (.edrop, w)
  | .eld w => some (.eld, w)
  | .est w => some (.est, w)
  | .ermw w => some (.ermw, w)
  | .ebq w => some (.ebq, w)
  | .ebdq w => some (.ebdq, w)
  | _ => none

/-- The kinds of word of R288, and events. -/
inductive Kind where
  | control | matrix | lane | event
  deriving DecidableEq, Repr

/-- The kind of each constructor. -/
def Instr.kind : Instr → Kind
  | .add _ _ _ _ => .control
  | .sub _ _ _ _ => .control
  | .mul _ _ _ _ => .control
  | .mulh _ _ _ _ => .control
  | .mulhn _ _ _ _ => .control
  | .div _ _ _ _ => .control
  | .divn _ _ _ _ => .control
  | .rem _ _ _ _ => .control
  | .remn _ _ _ _ => .control
  | .and _ _ _ _ => .control
  | .or _ _ _ _ => .control
  | .xor _ _ _ _ => .control
  | .shl _ _ _ _ => .control
  | .shr _ _ _ _ => .control
  | .sra _ _ _ _ => .control
  | .rot _ _ _ _ => .control
  | .min _ _ _ _ => .control
  | .max _ _ _ _ => .control
  | .minn _ _ _ _ => .control
  | .maxn _ _ _ _ => .control
  | .clz _ _ _ => .control
  | .ctz _ _ _ => .control
  | .popc _ _ _ => .control
  | .bextZReg _ _ _ _ => .control
  | .binsReg _ _ _ _ => .control
  | .bextSReg _ _ _ _ => .control
  | .sel _ _ _ _ _ => .control
  | .addi _ _ _ _ => .control
  | .andi _ _ _ _ => .control
  | .ori _ _ _ _ => .control
  | .xori _ _ _ _ => .control
  | .shi _ _ _ _ _ => .control
  | .bextZ _ _ _ _ _ => .control
  | .bextS _ _ _ _ _ => .control
  | .bins _ _ _ _ _ => .control
  | .li _ _ _ => .control
  | .lui _ _ _ => .control
  | .cmp _ _ _ _ _ => .control
  | .cmpi _ _ _ _ _ => .control
  | .pand _ _ _ _ => .control
  | .por _ _ _ _ => .control
  | .pnot _ _ _ => .control
  | .ldZ _ _ _ _ _ => .control
  | .ldS _ _ _ _ _ => .control
  | .st _ _ _ _ _ => .control
  | .fsetFull _ _ => .control
  | .fsetEmpty _ _ => .control
  | .ftest _ _ _ => .control
  | .ldg _ _ _ _ => .control
  | .stg _ _ _ _ => .control
  | .tlook _ _ _ => .control
  | .tset _ _ _ => .control
  | .tclr _ _ => .control
  | .amo _ _ _ _ _ _ _ => .control
  | .amocas _ _ _ _ _ _ => .control
  | .b _ _ => .control
  | .call _ _ => .control
  | .ret _ => .control
  | .jt _ _ _ => .control
  | .lpad _ _ => .control
  | .recv _ _ _ _ => .control
  | .send _ _ _ _ => .control
  | .spawn _ _ _ => .control
  | .endTask _ => .control
  | .endJoin => .control
  | .yield _ _ _ => .control
  | .safe _ _ => .control
  | .waitc _ _ _ _ _ _ => .control
  | .forkMatrix _ _ _ => .control
  | .forkStream _ _ _ => .control
  | .rdv _ _ => .control
  | .sbind _ _ _ _ => .control
  | .scopy _ _ _ _ => .control
  | .sim2c _ _ _ _ => .control
  | .sgath _ _ _ _ _ => .control
  | .sstop _ _ _ _ => .control
  | .fence _ _ _ => .control
  | .bar _ _ => .control
  | .bartest _ _ _ => .control
  | .subs _ _ _ _ => .control
  | .unsubs _ _ => .control
  | .sflush _ => .control
  | .nlook _ _ _ => .control
  | .nins _ _ _ => .control
  | .nevict _ _ _ => .control
  | .qpost _ _ _ _ => .control
  | .cnct _ _ _ => .control
  | .cncl _ _ => .control
  | .mfs _ _ _ => .control
  | .mts _ _ _ => .control
  | .nop _ => .control
  | .trap _ _ => .control
  | .brk _ => .control
  | .eret _ => .control
  | .mza => .matrix
  | .mzo => .matrix
  | .mwin _ => .matrix
  | .mfmt _ _ => .matrix
  | .mldaScratchpad _ => .matrix
  | .mldaPort _ => .matrix
  | .mldb _ => .matrix
  | .mmul _ _ => .matrix
  | .mgmul _ _ _ => .matrix
  | .mscale _ _ => .matrix
  | .mscaleUnit => .matrix
  | .mrd _ _ _ _ _ => .matrix
  | .mst _ _ _ _ => .matrix
  | .mxpose _ _ _ => .matrix
  | .mtopk _ _ _ => .matrix
  | .mtpld _ _ _ => .matrix
  | .mbal _ _ => .matrix
  | .mtpstPlan _ => .matrix
  | .mtpstPotentials _ => .matrix
  | .mtpstRelease _ => .matrix
  | .mtdist _ _ => .matrix
  | .mjoin => .matrix
  | .mcoopOn => .matrix
  | .mcoopOff => .matrix
  | .eiadd _ => .lane
  | .eisub _ => .lane
  | .eimul _ => .lane
  | .eimac _ => .lane
  | .eimin _ => .lane
  | .eimax _ => .lane
  | .eiand _ => .lane
  | .eior _ => .lane
  | .eixor _ => .lane
  | .eishl _ => .lane
  | .eishr _ => .lane
  | .eisra _ => .lane
  | .eicmp _ => .lane
  | .efadd _ => .lane
  | .efsub _ => .lane
  | .efmul _ => .lane
  | .effma _ => .lane
  | .efmin _ => .lane
  | .efmax _ => .lane
  | .efcmp _ => .lane
  | .ecvt _ => .lane
  | .eexp2 _ => .lane
  | .elog2 _ => .lane
  | .ercp _ => .lane
  | .else2 _ => .lane
  | .esel _ => .lane
  | .esteer _ => .lane
  | .emerge _ => .lane
  | .eexit _ => .lane
  | .erep _ => .lane
  | .emark _ => .lane
  | .estrip _ => .lane
  | .ecount _ => .lane
  | .ered _ => .lane
  | .econst _ => .lane
  | .epass _ => .lane
  | .edrop _ => .lane
  | .eld _ => .lane
  | .est _ => .lane
  | .ermw _ => .lane
  | .ebq _ => .lane
  | .ebdq _ => .lane
  | .illegalInstruction _ => .event
  | .matrixPass _ => .event
  | .rowFiring _ => .event
  | .mrdOutputDrain _ => .event
  | .matrixWordComplete _ => .event
  | .taskDispatch _ => .event
  | .instanceAged _ _ => .event
  | .continuationWake _ _ => .event
  | .preemptForcedStop _ => .event
  | .taskCommit _ _ => .event
  | .registerReplyArrival _ _ => .event
  | .unitCompletion _ _ => .event
  | .cancelArrival _ => .event
  | .ldgLineArrival _ _ => .event
  | .stgWriteComplete _ _ => .event
  | .detentAtomic _ => .event
  | .atomicDepositArrival _ _ => .event
  | .homeRecall _ _ => .event
  | .scratchpadAtomicStep _ => .event
  | .pageWalk _ _ _ => .event
  | .supervisorRetry _ _ => .event
  | .translationInvalidate _ _ => .event
  | .streamCommandStart _ _ => .event
  | .streamSourceToken _ _ => .event
  | .streamSinkToken _ _ => .event
  | .streamCommandComplete _ _ => .event
  | .sinkCompletionSweep _ => .event
  | .snapshotRequest _ _ => .event
  | .snapshotApply _ _ => .event
  | .coalesceWindowClose _ _ => .event
  | .subscriptionUpdateApply _ _ => .event
  | .backlogWrite _ _ => .event
  | .unsubsArrival _ _ => .event
  | .removalMarkPass _ _ => .event
  | .ringPacketEntry _ _ _ => .event
  | .reductionMerge _ _ => .event
  | .circuitTokenTransfer _ _ => .event
  | .rowTagArrival _ _ => .event
  | .memoryNodeReply _ _ => .event
  | .nodeNaming _ _ _ => .event
  | .nameLookup _ _ _ => .event
  | .controlNameResolve _ _ => .event
  | .shapeWordArrival _ _ _ => .event
  | .demandRequest _ _ => .event
  | .anchorServe _ _ _ => .event
  | .retention _ _ _ => .event
  | .nlookDeposit _ _ => .event
  | .nameEngineStatus _ _ => .event
  | .holdRelease _ _ => .event
  | .queueNotify _ _ => .event
  | .commandRead _ => .event
  | .commandRetryTimeout _ => .event
  | .runJob _ => .event
  | .cancelJob _ => .event
  | .strideDispatch => .event
  | .launchNodeDispatch _ _ => .event
  | .copyNodeDispatch _ _ => .event
  | .copyNodeComplete _ _ => .event
  | .condNodeDispatch _ _ => .event
  | .loopNodeDispatch _ _ => .event
  | .loopIterationEnd _ _ => .event
  | .barNodeDispatch _ _ => .event
  | .doneNodeDispatch _ _ => .event
  | .nodeFinish _ _ => .event
  | .launchCompletion _ => .event
  | .recordCheckpoint _ => .event
  | .phaseBoundary _ => .event
  | .replicaCopyComplete _ _ => .event
  | .jobCompletion _ => .event
  | .tokenRefill => .event
  | .queueDescriptorWrite _ _ => .event
  | .faultQueueDescriptorWrite _ _ => .event
  | .faultRecordWrite _ => .event
  | .modeRegisterWrite _ _ => .event
  | .nameDomainSet _ _ => .event
  | .supervisorRegisterWrite _ => .event
  | .preemptRequest _ => .event
  | .quiescence _ => .event
  | .clusterSave _ _ => .event
  | .resume _ => .event
  | .debugHaltRequest _ => .event
  | .scrub _ => .event
  | .uncorrectableError _ => .event
  | .linkRetransmit _ => .event
  | .keyUpdate _ => .event
  | .keyExchange _ => .event
  | .chronographLatch => .event
  | .deviceReset => .event
  | .imageLengthWrite _ => .event
  | .bar2HostAccess _ => .event
  | .getMeasurements _ => .event
  | .challenge _ => .event
  | .getCertificate => .event
  | .readTemperatures _ => .event
  | .setPowerLimit _ => .event
  | .setDvfsFloorCeiling _ _ _ => .event
  | .setChronographT _ => .event
  | .readErrorCounters _ => .event
  | .requestPreemption _ => .event
  | .requestResume _ _ => .event
  | .setPartitionMode _ _ _ => .event
  | .dvfsMonitorWindow _ _ _ => .event
  | .powerLimitStep _ => .event
  | .objectLoad _ _ => .event
  | .objectUnload _ _ => .event
  | .correctedSingleBitError _ => .event
  | .hbmUncorrectableError _ => .event

/-- The guard `(!q0)` is illegal in every major (R291, R297). -/
def Guard.wf (g : Guard) : Bool := !(g.p == 0 && g.n == 1)

/-- The element formats of a lane word that hold integers (R78). -/
def LaneArgs.isInt (w : LaneArgs) : Bool := w.fmt == 0 || w.fmt == 1 || w.fmt == 6 || w.fmt == 7

/-- Elements per token of a lane format (R33, R78). -/
def fmtElems (f : BitVec 3) : Nat :=
  match f.toNat with
  | 0 => 1 | 1 => 1 | 2 => 1 | 3 => 2 | 4 => 2 | _ => 4

/-- Does the operation read operand C from queue 3 (R78)? -/
def LaneOp.readsC : LaneOp → Bool
  | .eimac | .effma | .esel | .esteer | .emerge | .eexit => true
  | _ => false

/-- Does the operation have an operand B (R80)? -/
def LaneOp.hasB : LaneOp → Bool
  | .eiadd | .eisub | .eimul | .eimac | .eimin | .eimax | .eiand | .eior | .eixor | .eishl | .eishr
  | .eisra | .eicmp | .efadd | .efsub | .efmul | .effma | .efmin | .efmax | .efcmp | .esel | .emerge
  | .erep | .est | .ermw => true
  | _ => false

/-- The formats R80 allows the operation (check 2 of R93). -/
def LaneOp.fmtOk (o : LaneOp) (f : BitVec 3) : Bool :=
  match o with
  | .eiadd | .eisub | .eimul | .eimac | .eimin | .eimax | .eiand | .eior | .eixor | .eishl | .eishr
  | .eisra | .eicmp => f == 0 || f == 1 || f == 6 || f == 7
  | .efadd | .efsub | .efmul | .effma | .efmin | .efmax | .efcmp => f == 2 || f == 3 || f == 4 || f == 5
  | .eexp2 | .elog2 | .ercp | .else2 | .ebq | .ebdq => f == 2
  | .ered | .eld | .est | .ermw => f == 0 || f == 1 || f == 2
  | _ => true

/-- May the word take operand B from imm12 (R79, R336, R345, R348, R355, R357)? -/
def LaneOp.bimmOk (o : LaneOp) (f : BitVec 3) : Bool :=
  match o with
  | .eiadd | .eisub | .eimul | .eimac | .eimin | .eimax | .eiand | .eior | .eixor | .eishl | .eishr
  | .eisra | .econst | .esel | .erep => true
  | .efadd | .efsub | .efmul | .effma | .efmin | .efmax => f != 5
  | _ => false

/-- An immediate for 8-bit elements keeps bits [11:8] as copies of bit 7 (R336, R348). -/
def immByteOk (v : BitVec 12) : Bool :=
  v.extractLsb' 8 4 == (if v.getLsbD 7 then 15 else 0)

/-- Is imm12 legal for the operation (check 3 of R93; R79, R90, R336-R351)? -/
def LaneOp.immOk (o : LaneOp) (w : LaneArgs) : Bool :=
  let v := w.imm
  let p := v.extractLsb' 0 3
  let nat := v.getLsbD 3
  let inf := v.getLsbD 4
  if w.bimm && o.bimmOk w.fmt then
    if w.fmt == 5 || w.fmt == 6 || w.fmt == 7 then immByteOk v else true
  else
    match o with
    | .eicmp => v.extractLsb' 2 10 == 0
    | .efcmp =>
      if w.fmt == 5 then
        v.extractLsb' 10 2 == 0 && decide (v.extractLsb' 7 3 ≤ 4) && v.extractLsb' 5 2 == 0 && p != 0
      else v.extractLsb' 3 9 == 0 && decide (p ≤ 4)
    | .efadd | .efsub | .efmul | .effma | .efmin | .efmax =>
      if w.fmt == 5 then v.extractLsb' 5 7 == 0 && p != 0 else v == 0
    | .ecvt =>
      let d := v.extractLsb' 7 3
      v.extractLsb' 10 2 == 0
        && (if w.fmt == 5 || d == 5 then p != 0 else p == 0 && !nat && !inf)
        && decide (fmtElems w.fmt ≤ fmtElems d)
    | .ered => v.extractLsb' 3 9 == 0 && decide (p ≤ 5)
    | .emark => p != 0
    | .estrip => v.extractLsb' 3 9 == 0
    | .eld | .est => v.extractLsb' 6 6 == 0 && v.extractLsb' 0 4 == 0
    | .ermw =>
      v.extractLsb' 6 6 == 0 && decide (v.extractLsb' 0 4 ≤ 9)
        && (v.extractLsb' 0 4 != 9 || w.fmt == 2)
    | .ebq | .ebdq => v.extractLsb' 5 7 == 0 && (p != 0 || (!nat && !inf))
    | .econst => true
    | _ => v == 0

/-- The lowest check of R93 from 2 to 5 that the word fails; 0 when it passes all four. -/
def LaneOp.check (o : LaneOp) (w : LaneArgs) : Nat :=
  if !o.fmtOk w.fmt then 2
  else if !o.immOk w then 3
  else if (w.bimm && (w.qb != 0 || !o.bimmOk w.fmt)) || (o == .econst && !w.bimm) then 4
  else if (o.hasB && !w.bimm && w.qa == w.qb) || (o.readsC && (w.qa == 3 || (o.hasB && !w.bimm && w.qb == 3)))
      || (!o.hasB && w.qb != 0) then 5
  else 0

/-- The format codes of the matrix unit (R95). -/
def matrixFmtOk (c : BitVec 6) : Bool :=
  let kind := (c.extractLsb' 3 3).toNat
  let size := c.extractLsb' 0 3
  match kind with
  | 0 => size != 0
  | 1 => true
  | 2 | 3 | 4 | 5 => size != 0
  | 6 => size == 0
  | _ => false

/-- The special-register numbers that R54 lists: the tenant's, and 0x100-0x1FF. -/
def sregListed (n : BitVec 12) : Bool :=
  let k := n.toNat
  k ≤ 0x007 || (0x010 ≤ k && k ≤ 0x013) || k == 0x020 || k == 0x021 || k == 0x022 || k == 0x030
    || k == 0x040 || k == 0x050 || (0x100 ≤ k && k ≤ 0x1FF)

/-- The number of cores of the package (R16). -/
def numCores : Nat := 3072

/-- Is the instruction well formed? A word is well formed when its sequencer's decoder can answer it
(R297, R301) or, for a lane word, when checks 1 to 5 of R93 pass; an event, when its arguments name
parts that exist (R8, R160, R186). -/
def Instr.wf : Instr → Bool
  | .add g _ _ _ => g.wf
  | .sub g _ _ _ => g.wf
  | .mul g _ _ _ => g.wf
  | .mulh g _ _ _ => g.wf
  | .mulhn g _ _ _ => g.wf
  | .div g _ _ _ => g.wf
  | .divn g _ _ _ => g.wf
  | .rem g _ _ _ => g.wf
  | .remn g _ _ _ => g.wf
  | .and g _ _ _ => g.wf
  | .or g _ _ _ => g.wf
  | .xor g _ _ _ => g.wf
  | .shl g _ _ _ => g.wf
  | .shr g _ _ _ => g.wf
  | .sra g _ _ _ => g.wf
  | .rot g _ _ _ => g.wf
  | .min g _ _ _ => g.wf
  | .max g _ _ _ => g.wf
  | .minn g _ _ _ => g.wf
  | .maxn g _ _ _ => g.wf
  | .clz g _ _ => g.wf
  | .ctz g _ _ => g.wf
  | .popc g _ _ => g.wf
  | .bextZReg g _ _ _ => g.wf
  | .binsReg g _ _ _ => g.wf
  | .bextSReg g _ _ _ => g.wf
  | .sel g _ _ _ _ => g.wf
  | .addi g _ _ _ => g.wf
  | .andi g _ _ _ => g.wf
  | .ori g _ _ _ => g.wf
  | .xori g _ _ _ => g.wf
  | .shi g _ _ _ _ => g.wf
  | .bextZ g _ _ _ _ => g.wf
  | .bextS g _ _ _ _ => g.wf
  | .bins g _ _ _ _ => g.wf
  | .li g _ _ => g.wf
  | .lui g _ _ => g.wf
  | .cmp g _ _ _ _ => g.wf
  | .cmpi g _ _ _ _ => g.wf
  | .pand g _ _ _ => g.wf
  | .por g _ _ _ => g.wf
  | .pnot g _ _ => g.wf
  | .ldZ g _ _ _ _ => g.wf
  | .ldS g _ _ _ _ => g.wf
  | .st g _ _ _ _ => g.wf
  | .fsetFull g _ => g.wf
  | .fsetEmpty g _ => g.wf
  | .ftest g _ _ => g.wf
  | .ldg g _ _ _ => g.wf
  | .stg g _ _ _ => g.wf
  | .tlook g _ _ => g.wf
  | .tset g _ _ => g.wf
  | .tclr g _ => g.wf
  | .amo g _ _ _ _ _ _ => g.wf
  | .amocas g _ _ _ _ rb => g.wf && !rb.getLsbD 0
  | .b g _ => g.wf
  | .call g _ => g.wf
  | .ret g => g.wf
  | .jt g _ _ => g.wf
  | .lpad g _ => g.wf
  | .recv g _ _ _ => g.wf
  | .send g _ _ _ => g.wf
  | .spawn g _ _ => g.wf
  | .endTask g => g.wf
  | .endJoin => true
  | .yield g _ _ => g.wf
  | .safe g _ => g.wf
  | .waitc g _ _ _ _ _ => g.wf
  | .forkMatrix g _ _ => g.wf
  | .forkStream g _ _ => g.wf
  | .rdv g _ => g.wf
  | .sbind g _ _ _ => g.wf
  | .scopy g _ _ _ => g.wf
  | .sim2c g _ _ _ => g.wf
  | .sgath g _ _ _ _ => g.wf
  | .sstop g _ _ _ => g.wf
  | .fence g before after => g.wf && before != 0 && after != 0
  | .bar g _ => g.wf
  | .bartest g _ _ => g.wf
  | .subs g _ _ _ => g.wf
  | .unsubs g _ => g.wf
  | .sflush g => g.wf
  | .nlook g _ _ => g.wf
  | .nins g _ _ => g.wf
  | .nevict g _ _ => g.wf
  | .qpost g _ _ _ => g.wf
  | .cnct g _ _ => g.wf
  | .cncl g _ => g.wf
  | .mfs g _ num => g.wf && sregListed num
  | .mts g _ num => g.wf && sregListed num
  | .nop g => g.wf
  | .trap g _ => g.wf
  | .brk g => g.wf
  | .eret g => g.wf
  | .mza => true
  | .mzo => true
  | .mwin _ => true
  | .mfmt fa fb => matrixFmtOk fa && matrixFmtOk fb
  | .mldaScratchpad _ => true
  | .mldaPort _ => true
  | .mldb _ => true
  | .mmul _ _ => true
  | .mgmul _ _ _ => true
  | .mscale _ _ => true
  | .mscaleUnit => true
  | .mrd _ _ _ row0 rows => decide (row0.toNat + rows.toNat + 1 ≤ 64)
  | .mst _ _ row0 rows => decide (row0.toNat + rows.toNat + 1 ≤ 64)
  | .mxpose _ _ _ => true
  | .mtopk _ _ _ => true
  | .mtpld _ _ _ => true
  | .mbal _ _ => true
  | .mtpstPlan _ => true
  | .mtpstPotentials _ => true
  | .mtpstRelease _ => true
  | .mtdist _ _ => true
  | .mjoin => true
  | .mcoopOn => true
  | .mcoopOff => true
  | .eiadd w => LaneOp.check .eiadd w == 0
  | .eisub w => LaneOp.check .eisub w == 0
  | .eimul w => LaneOp.check .eimul w == 0
  | .eimac w => LaneOp.check .eimac w == 0
  | .eimin w => LaneOp.check .eimin w == 0
  | .eimax w => LaneOp.check .eimax w == 0
  | .eiand w => LaneOp.check .eiand w == 0
  | .eior w => LaneOp.check .eior w == 0
  | .eixor w => LaneOp.check .eixor w == 0
  | .eishl w => LaneOp.check .eishl w == 0
  | .eishr w => LaneOp.check .eishr w == 0
  | .eisra w => LaneOp.check .eisra w == 0
  | .eicmp w => LaneOp.check .eicmp w == 0
  | .efadd w => LaneOp.check .efadd w == 0
  | .efsub w => LaneOp.check .efsub w == 0
  | .efmul w => LaneOp.check .efmul w == 0
  | .effma w => LaneOp.check .effma w == 0
  | .efmin w => LaneOp.check .efmin w == 0
  | .efmax w => LaneOp.check .efmax w == 0
  | .efcmp w => LaneOp.check .efcmp w == 0
  | .ecvt w => LaneOp.check .ecvt w == 0
  | .eexp2 w => LaneOp.check .eexp2 w == 0
  | .elog2 w => LaneOp.check .elog2 w == 0
  | .ercp w => LaneOp.check .ercp w == 0
  | .else2 w => LaneOp.check .else2 w == 0
  | .esel w => LaneOp.check .esel w == 0
  | .esteer w => LaneOp.check .esteer w == 0
  | .emerge w => LaneOp.check .emerge w == 0
  | .eexit w => LaneOp.check .eexit w == 0
  | .erep w => LaneOp.check .erep w == 0
  | .emark w => LaneOp.check .emark w == 0
  | .estrip w => LaneOp.check .estrip w == 0
  | .ecount w => LaneOp.check .ecount w == 0
  | .ered w => LaneOp.check .ered w == 0
  | .econst w => LaneOp.check .econst w == 0
  | .epass w => LaneOp.check .epass w == 0
  | .edrop w => LaneOp.check .edrop w == 0
  | .eld w => LaneOp.check .eld w == 0
  | .est w => LaneOp.check .est w == 0
  | .ermw w => LaneOp.check .ermw w == 0
  | .ebq w => LaneOp.check .ebq w == 0
  | .ebdq w => LaneOp.check .ebdq w == 0
  | .illegalInstruction _ => true
  | .matrixPass c => decide (c < numCores)
  | .rowFiring c => decide (c < numCores)
  | .mrdOutputDrain c => decide (c < numCores)
  | .matrixWordComplete c => decide (c < numCores)
  | .taskDispatch c => decide (c < numCores)
  | .instanceAged c _ => decide (c < numCores)
  | .continuationWake c _ => decide (c < numCores)
  | .preemptForcedStop c => decide (c < numCores)
  | .taskCommit c _ => decide (c < numCores)
  | .registerReplyArrival c _ => decide (c < numCores)
  | .unitCompletion c _ => decide (c < numCores)
  | .cancelArrival _ => true
  | .ldgLineArrival c _ => decide (c < numCores)
  | .stgWriteComplete c _ => decide (c < numCores)
  | .detentAtomic cl => decide (cl < 32)
  | .atomicDepositArrival c _ => decide (c < numCores)
  | .homeRecall cl _ => decide (cl < 32)
  | .scratchpadAtomicStep c => decide (c < numCores)
  | .pageWalk p _ _ => decide (p < 32)
  | .supervisorRetry p _ => decide (p < 32)
  | .translationInvalidate p _ => decide (p < 32)
  | .streamCommandStart c _ => decide (c < numCores)
  | .streamSourceToken c _ => decide (c < numCores)
  | .streamSinkToken c _ => decide (c < numCores)
  | .streamCommandComplete c _ => decide (c < numCores)
  | .sinkCompletionSweep _ => true
  | .snapshotRequest c _ => decide (c < numCores)
  | .snapshotApply c _ => decide (c < numCores)
  | .coalesceWindowClose c _ => decide (c < numCores)
  | .subscriptionUpdateApply c _ => decide (c < numCores)
  | .backlogWrite c _ => decide (c < numCores)
  | .unsubsArrival c _ => decide (c < numCores)
  | .removalMarkPass c _ => decide (c < numCores)
  | .ringPacketEntry c _ _ => decide (c < numCores)
  | .reductionMerge _ _ => true
  | .circuitTokenTransfer _ _ => true
  | .rowTagArrival c _ => decide (c < numCores)
  | .memoryNodeReply c _ => decide (c < numCores)
  | .nodeNaming _ _ _ => true
  | .nameLookup _ _ _ => true
  | .controlNameResolve _ _ => true
  | .shapeWordArrival _ _ _ => true
  | .demandRequest _ _ => true
  | .anchorServe _ _ _ => true
  | .retention _ _ _ => true
  | .nlookDeposit p _ => decide (p < 32)
  | .nameEngineStatus p _ => decide (p < 32)
  | .holdRelease p _ => decide (p < 32)
  | .queueNotify q _ => decide (q < 1024)
  | .commandRead q => decide (q < 1024)
  | .commandRetryTimeout q => decide (q < 1024)
  | .runJob q => decide (q < 1024)
  | .cancelJob q => decide (q < 1024)
  | .strideDispatch => true
  | .launchNodeDispatch _ _ => true
  | .copyNodeDispatch _ _ => true
  | .copyNodeComplete _ _ => true
  | .condNodeDispatch _ _ => true
  | .loopNodeDispatch _ _ => true
  | .loopIterationEnd _ _ => true
  | .barNodeDispatch _ _ => true
  | .doneNodeDispatch _ _ => true
  | .nodeFinish _ _ => true
  | .launchCompletion _ => true
  | .recordCheckpoint p => decide (p < 32)
  | .phaseBoundary _ => true
  | .replicaCopyComplete p _ => decide (p < 32)
  | .jobCompletion _ => true
  | .tokenRefill => true
  | .queueDescriptorWrite q _ => decide (q < 1024)
  | .faultQueueDescriptorWrite _ _ => true
  | .faultRecordWrite _ => true
  | .modeRegisterWrite p _ => decide (p < 32)
  | .nameDomainSet p _ => decide (p < 32)
  | .supervisorRegisterWrite _ => true
  | .preemptRequest p => decide (p < 32)
  | .quiescence p => decide (p < 32)
  | .clusterSave p _ => decide (p < 32)
  | .resume p => decide (p < 32)
  | .debugHaltRequest c => decide (c < numCores)
  | .scrub c => decide (c < numCores)
  | .uncorrectableError _ => true
  | .linkRetransmit l => decide (l < 30)
  | .keyUpdate l => decide (l < 18)
  | .keyExchange l => decide (l < 18)
  | .chronographLatch => true
  | .deviceReset => true
  | .imageLengthWrite _ => true
  | .bar2HostAccess _ => true
  | .getMeasurements _ => true
  | .challenge _ => true
  | .getCertificate => true
  | .readTemperatures die => decide (die < 5)
  | .setPowerLimit w => decide (200 ≤ w) && decide (w ≤ 2400)
  | .setDvfsFloorCeiling cl _ _ => decide (cl < 32)
  | .setChronographT _ => true
  | .readErrorCounters die => decide (die < 5)
  | .requestPreemption p => decide (p < 32)
  | .requestResume p _ => decide (p < 32)
  | .setPartitionMode p _ _ => decide (p < 32)
  | .dvfsMonitorWindow cl _ _ => decide (cl < 32)
  | .powerLimitStep _ => true
  | .objectLoad p _ => decide (p < 32)
  | .objectUnload p _ => decide (p < 32)
  | .correctedSingleBitError die => decide (die < 5)
  | .hbmUncorrectableError _ => true

end Sys2Proof
end

