-- ==== Sys2Proof/Decode.lean ====
section
/-!
DEFINITION. Decoding control words (R289-R298), the stream sequencer's subset (R299), matrix words
(R300, R301) and lane words (R78, R302, R93 checks 1 to 5), each total and rejecting by name; then
the encoder, written from the same tables.
-/

namespace Sys2Proof

/-- Why a word is not legal for the sequencer, or not accepted for a lane. -/
inductive Reject where
  /-- The all-zero or the all-ones word (R288, R297). -/
  | reservedWord
  /-- A dash of R293, or an op R300 does not list. -/
  | illegalMajor
  /-- The guard `(!q0)` (R291). -/
  | guardNotQ0
  /-- A must-be-zero field is nonzero (R295, R296, R301). -/
  | nonzeroField
  /-- A code field holds an illegal value (R295, R296, R301). -/
  | illegalCode
  /-- A legal control word that the stream sequencer does not execute (R299). -/
  | notStream
  /-- A lane word fails this check of R93. -/
  | laneCheck (n : Nat)
  deriving DecidableEq, Repr

/-- The field of `len` bits whose lowest bit is `lo` (R2). -/
def field (w : W32) (lo len : Nat) : BitVec len := w.extractLsb' lo len

def ShiftKind.code : ShiftKind → BitVec 2
  | .shl => 0 | .shr => 1 | .sra => 2 | .rot => 3

def ShiftKind.ofCode (c : BitVec 2) : ShiftKind :=
  if c = 0 then .shl else if c = 1 then .shr else if c = 2 then .sra else .rot

def Cc.code : Cc → BitVec 3
  | .eq => 0 | .ne => 1 | .lt => 2 | .ge => 3 | .ltn => 4 | .gen => 5

def Cc.ofCode (c : BitVec 3) : Option Cc :=
  if c = 0 then some .eq else if c = 1 then some .ne else if c = 2 then some .lt
  else if c = 3 then some .ge else if c = 4 then some .ltn else if c = 5 then some .gen else none

def Size.code : Size → BitVec 2
  | .b => 0 | .h => 1 | .w => 2 | .d => 3

def Size.ofCode (c : BitVec 2) : Size :=
  if c = 0 then .b else if c = 1 then .h else if c = 2 then .w else .d

def AmoOp.code : AmoOp → BitVec 4
  | .add => 0 | .min => 1 | .max => 2 | .minn => 3 | .maxn => 4 | .and => 5 | .or => 6 | .xor => 7
  | .swap => 8

def AmoOp.ofCode (c : BitVec 4) : Option AmoOp :=
  if c = 0 then some .add else if c = 1 then some .min else if c = 2 then some .max
  else if c = 3 then some .minn else if c = 4 then some .maxn else if c = 5 then some .and
  else if c = 6 then some .or else if c = 7 then some .xor else if c = 8 then some .swap else none

def AmoSize.code : AmoSize → BitVec 2
  | .w => 2 | .d => 3

def AmoSize.ofCode (c : BitVec 2) : Option AmoSize :=
  if c = 2 then some .w else if c = 3 then some .d else none

def WakeCode.code : WakeCode → BitVec 3
  | .imm => 0 | .cnt => 1 | .line => 2 | .chan => 3 | .bar => 4 | .rdv => 5

def WakeCode.ofCode (c : BitVec 3) : Option WakeCode :=
  if c = 0 then some .imm else if c = 1 then some .cnt else if c = 2 then some .line
  else if c = 3 then some .chan else if c = 4 then some .bar else if c = 5 then some .rdv else none

/-- The majors that R293 leaves illegal. -/
def illegalMajor (op : BitVec 6) : Bool :=
  let k := op.toNat
  k == 0x00 || k == 0x0F || k == 0x13 || k == 0x1A || k == 0x1B || k == 0x2E || k == 0x2F || k == 0x33
    || k == 0x35 || (0x37 ≤ k && k ≤ 0x3B) || k == 0x3F

/-- An accepted instruction, unless a must-be-zero field is nonzero. -/
def zeroed (ok : Bool) (i : Instr) : Except Reject Instr :=
  if ok then .ok i else .error .nonzeroField

/-- ALU words: major 0x01 by fn (R296). -/
def decodeAlu (g : Guard) (d a b : Reg) (fn : BitVec 7) : Except Reject Instr :=
  match fn.toNat with
  | 0x00 => .ok (.add g d a b)
  | 0x01 => .ok (.sub g d a b)
  | 0x02 => .ok (.mul g d a b)
  | 0x03 => .ok (.mulh g d a b)
  | 0x04 => .ok (.mulhn g d a b)
  | 0x05 => .ok (.div g d a b)
  | 0x06 => .ok (.divn g d a b)
  | 0x07 => .ok (.rem g d a b)
  | 0x08 => .ok (.remn g d a b)
  | 0x09 => .ok (.and g d a b)
  | 0x0A => .ok (.or g d a b)
  | 0x0B => .ok (.xor g d a b)
  | 0x0C => .ok (.shl g d a b)
  | 0x0D => .ok (.shr g d a b)
  | 0x0E => .ok (.sra g d a b)
  | 0x0F => .ok (.rot g d a b)
  | 0x10 => .ok (.min g d a b)
  | 0x11 => .ok (.max g d a b)
  | 0x12 => .ok (.minn g d a b)
  | 0x13 => .ok (.maxn g d a b)
  | 0x14 => zeroed (b == 0) (.clz g d a)
  | 0x15 => zeroed (b == 0) (.ctz g d a)
  | 0x16 => zeroed (b == 0) (.popc g d a)
  | 0x17 => .ok (.bextZReg g d a b)
  | 0x18 => .ok (.binsReg g d a b)
  | 0x1A => .ok (.bextSReg g d a b)
  | _ => if fn.extractLsb' 3 4 = 4 then .ok (.sel g (fn.extractLsb' 0 3) d a b) else .error .illegalCode

/-- The fields of each major (R295), once op and guard are accepted. -/
def decodeMajor (w : W32) : Except Reject Instr :=
  let g : Guard := ⟨field w 23 3, field w 22 1⟩
  let d := field w 17 5
  let a := field w 12 5
  let b := field w 7 5
  let fn := field w 0 7
  let imm12 := field w 0 12
  let imm17 := field w 0 17
  let qd := field w 17 3
  let dHi := field w 20 2
  match (field w 26 6).toNat with
  | 0x01 => decodeAlu g d a b fn
  | 0x02 => .ok (.addi g d a imm12)
  | 0x03 => .ok (.andi g d a imm12)
  | 0x04 => .ok (.ori g d a imm12)
  | 0x05 => .ok (.xori g d a imm12)
  | 0x06 => zeroed (field w 6 4 == 0) (.shi g (ShiftKind.ofCode (field w 10 2)) d a (field w 0 6))
  | 0x07 => .ok (.bextZ g d a (field w 6 6) (field w 0 6))
  | 0x08 => .ok (.bextS g d a (field w 6 6) (field w 0 6))
  | 0x09 => .ok (.bins g d a (field w 6 6) (field w 0 6))
  | 0x0A => .ok (.li g d imm17)
  | 0x0B => .ok (.lui g d imm17)
  | 0x0C =>
    if dHi ≠ 0 then .error .nonzeroField
    else match Cc.ofCode (field w 0 3) with
      | some cc => if field w 3 4 = 0 then .ok (.cmp g cc qd a b) else .error .illegalCode
      | none => .error .illegalCode
  | 0x0D =>
    if dHi ≠ 0 then .error .nonzeroField
    else match Cc.ofCode (field w 9 3) with
      | some cc => .ok (.cmpi g cc qd a (field w 0 9))
      | none => .error .illegalCode
  | 0x0E =>
    if dHi ≠ 0 ∨ field w 15 2 ≠ 0 ∨ field w 10 2 ≠ 0 then .error .nonzeroField
    else match fn.toNat with
      | 0 => .ok (.pand g qd (field w 12 3) (field w 7 3))
      | 1 => .ok (.por g qd (field w 12 3) (field w 7 3))
      | 2 => zeroed (field w 7 3 == 0) (.pnot g qd (field w 12 3))
      | _ => .error .illegalCode
  | 0x10 => .ok (.ldZ g (Size.ofCode (field w 10 2)) d a (field w 0 10))
  | 0x11 => .ok (.ldS g (Size.ofCode (field w 10 2)) d a (field w 0 10))
  | 0x12 => .ok (.st g (Size.ofCode (field w 10 2)) d a (field w 0 10))
  | 0x14 =>
    if b ≠ 0 then .error .nonzeroField
    else match fn.toNat with
      | 0 => zeroed (d == 0) (.fsetFull g a)
      | 1 => zeroed (d == 0) (.fsetEmpty g a)
      | 2 => zeroed (dHi == 0) (.ftest g qd a)
      | _ => .error .illegalCode
  | 0x15 => zeroed (d == 0) (.ldg g a b fn)
  | 0x16 => zeroed (d == 0) (.stg g a b fn)
  | 0x17 =>
    match fn.toNat with
    | 0 => zeroed (b == 0) (.tlook g d a)
    | 1 => zeroed (d == 0) (.tset g a b)
    | 2 => zeroed (d == 0 && b == 0) (.tclr g a)
    | _ => .error .illegalCode
  | 0x18 =>
    match AmoOp.ofCode (field w 0 4), AmoSize.ofCode (field w 4 2) with
    | some o, some z => .ok (.amo g o z (field w 6 1 == 1) d a b)
    | _, _ => .error .illegalCode
  | 0x19 =>
    if field w 0 4 ≠ 0 then .error .nonzeroField
    else match AmoSize.ofCode (field w 4 2) with
      | some z => if field w 7 1 = 1 then .error .illegalCode else .ok (.amocas g z (field w 6 1 == 1) d a b)
      | none => .error .illegalCode
  | 0x1C => .ok (.b g (field w 0 22))
  | 0x1D => .ok (.call g (field w 0 22))
  | 0x1E =>
    match fn.toNat with
    | 0 => zeroed (d == 0 && a == 0 && b == 0) (.ret g)
    | 1 => zeroed (d == 0) (.jt g a b)
    | _ => .error .illegalCode
  | 0x1F => zeroed (d == 0 && field w 16 1 == 0) (.lpad g (field w 0 16))
  | 0x20 => zeroed (field w 10 2 == 0 && fn == 0) (.recv g d (field w 12 5) (field w 7 3))
  | 0x21 => zeroed (dHi == 0 && fn == 0) (.send g qd a b)
  | 0x22 => zeroed (d == 0 && fn == 0) (.spawn g a b)
  | 0x23 => zeroed (field w 0 22 == 0) (.endTask g)
  | 0x24 =>
    if d ≠ 0 then .error .nonzeroField
    else match WakeCode.ofCode (field w 14 3) with
      | some k => .ok (.yield g k (field w 0 14))
      | none => .error .illegalCode
  | 0x25 => zeroed (d == 0) (.safe g imm17)
  | 0x26 =>
    zeroed (dHi == 0 && field w 16 1 == 0)
      (.waitc g qd (field w 12 4) (field w 8 4) (field w 4 4) (field w 0 4))
  | 0x27 =>
    if dHi ≠ 0 ∨ field w 14 1 ≠ 0 then .error .nonzeroField
    else if field w 15 2 = 1 then .ok (.forkMatrix g qd (field w 0 14))
    else if field w 15 2 = 2 then .ok (.forkStream g qd (field w 0 14))
    else .error .illegalCode
  | 0x28 => zeroed (d == 0 && field w 14 3 == 0) (.rdv g (field w 0 14))
  | 0x29 => zeroed (dHi == 0 && fn == 0) (.sbind g qd a b)
  | 0x2A => zeroed (dHi == 0 && fn == 0) (.scopy g qd a b)
  | 0x2B => zeroed (dHi == 0 && fn == 0) (.sim2c g qd a b)
  | 0x2C => zeroed (dHi == 0) (.sgath g qd a b fn)
  | 0x2D =>
    if a ≠ 0 then .error .nonzeroField
    else if field w 1 6 = 0 then .ok (.sstop g d b (field w 0 1 == 1)) else .error .illegalCode
  | 0x30 =>
    if d ≠ 0 ∨ field w 16 1 ≠ 0 then .error .nonzeroField
    else if field w 0 8 = 0 ∨ field w 8 8 = 0 then .error .illegalCode
    else .ok (.fence g (field w 0 8) (field w 8 8))
  | 0x31 =>
    if b ≠ 0 then .error .nonzeroField
    else match fn.toNat with
      | 0 => zeroed (d == 0) (.bar g a)
      | 1 => zeroed (dHi == 0) (.bartest g qd a)
      | _ => .error .illegalCode
  | 0x32 =>
    match fn.toNat with
    | 0 => .ok (.subs g d a b)
    | 1 => zeroed (d == 0 && b == 0) (.unsubs g a)
    | 2 => zeroed (d == 0 && a == 0 && b == 0) (.sflush g)
    | _ => .error .illegalCode
  | 0x34 =>
    match fn.toNat with
    | 0 => zeroed (d == 0) (.nlook g a b)
    | 1 => zeroed (b == 0) (.nins g d a)
    | 2 => zeroed (b == 0) (.nevict g d a)
    | _ => .error .illegalCode
  | 0x36 =>
    match fn.toNat with
    | 0 => .ok (.qpost g d a b)
    | 1 => zeroed (b == 0) (.cnct g d a)
    | 2 => zeroed (d == 0 && b == 0) (.cncl g a)
    | _ => .error .illegalCode
  | 0x3C =>
    if a ≠ 0 then .error .nonzeroField
    else if sregListed imm12 then .ok (.mfs g d imm12) else .error .illegalCode
  | 0x3D =>
    if d ≠ 0 then .error .nonzeroField
    else if sregListed imm12 then .ok (.mts g a imm12) else .error .illegalCode
  | 0x3E =>
    if d ≠ 0 ∨ field w 12 3 ≠ 0 then .error .nonzeroField
    else match (field w 15 2).toNat with
      | 0 => zeroed (imm12 == 0) (.nop g)
      | 1 => .ok (.trap g imm12)
      | 2 => zeroed (imm12 == 0) (.brk g)
      | _ => zeroed (imm12 == 0) (.eret g)
  | _ => .error .illegalMajor

/-- The control sequencer's decoder: LegalControl of R297, in its order. -/
def decodeControl (w : W32) : Except Reject Instr :=
  if w = 0 ∨ w = 0xFFFFFFFF then .error .reservedWord
  else if illegalMajor (field w 26 6) then .error .illegalMajor
  else if field w 22 4 = 1 then .error .guardNotQ0
  else decodeMajor w

/-- The stream sequencer's decoder (R299): a legal control word of its majors, with guard 0 and, for
a stream command, d zero. Its `end` is the join (R354). -/
def decodeStream (w : W32) : Except Reject Instr :=
  match decodeControl w with
  | .error r => .error r
  | .ok i =>
    if field w 22 4 ≠ 0 then .error .notStream
    else match i with
      | .endTask _ => .ok .endJoin
      | .nop g => .ok (.nop g)
      | .sbind g d a b => if d = 0 then .ok (.sbind g d a b) else .error .notStream
      | .scopy g d a b => if d = 0 then .ok (.scopy g d a b) else .error .notStream
      | .sim2c g d a b => if d = 0 then .ok (.sim2c g d a b) else .error .notStream
      | .sgath g d a b m => if d = 0 then .ok (.sgath g d a b m) else .error .notStream
      | .sstop g d b k => if d = 0 then .ok (.sstop g d b k) else .error .notStream
      | _ => .error .notStream

/-- The matrix sequencer's decoder (R300, R301). -/
def decodeMatrix (w : W32) : Except Reject Instr :=
  match (field w 27 5).toNat with
  | 0x01 => zeroed (field w 0 27 == 0) .mza
  | 0x02 => zeroed (field w 0 27 == 0) .mzo
  | 0x03 => zeroed (field w 0 19 == 0) (.mwin (field w 19 8))
  | 0x04 =>
    if field w 0 15 ≠ 0 then .error .nonzeroField
    else if matrixFmtOk (field w 21 6) && matrixFmtOk (field w 15 6) then .ok (.mfmt (field w 21 6) (field w 15 6))
    else .error .illegalCode
  | 0x05 =>
    if field w 0 10 ≠ 0 then .error .nonzeroField
    else if field w 26 1 = 0 then zeroed (field w 10 4 == 0) (.mldaScratchpad (field w 14 12))
    else zeroed (field w 14 12 == 0) (.mldaPort (field w 10 4))
  | 0x06 => zeroed (field w 0 15 == 0) (.mldb (field w 15 12))
  | 0x07 => zeroed (field w 0 14 == 0) (.mmul (field w 20 7) (field w 14 6))
  | 0x08 => zeroed (field w 0 2 == 0) (.mgmul (field w 20 7) (field w 8 12) (field w 2 6))
  | 0x09 =>
    if field w 0 2 ≠ 0 then .error .nonzeroField
    else if field w 2 1 = 0 then .ok (.mscale (field w 15 12) (field w 3 12))
    else zeroed (field w 3 24 == 0) .mscaleUnit
  | 0x0A =>
    if field w 0 9 ≠ 0 then .error .nonzeroField
    else if (field w 15 6).toNat + (field w 9 6).toNat + 1 ≤ 64 then
      .ok (.mrd (field w 26 1 == 1) (field w 25 1 == 1) (field w 21 4) (field w 15 6) (field w 9 6))
    else .error .illegalCode
  | 0x0B =>
    if field w 0 2 ≠ 0 then .error .nonzeroField
    else if (field w 8 6).toNat + (field w 2 6).toNat + 1 ≤ 64 then
      .ok (.mst (field w 26 1 == 1) (field w 14 12) (field w 8 6) (field w 2 6))
    else .error .illegalCode
  | 0x0C => zeroed (field w 0 2 == 0) (.mxpose (field w 26 1 == 1) (field w 14 12) (field w 2 12))
  | 0x0D => zeroed (field w 0 16 == 0) (.mtopk (field w 21 6) (field w 19 2) (field w 16 3))
  | 0x0E => zeroed (field w 0 3 == 0) (.mtpld (field w 15 12) (field w 9 6) (field w 3 6))
  | 0x0F => zeroed (field w 0 9 == 0) (.mbal (field w 15 12) (field w 9 6))
  | 0x10 =>
    if field w 0 13 ≠ 0 then .error .nonzeroField
    else match (field w 13 2).toNat with
      | 0 => .ok (.mtpstPlan (field w 15 12))
      | 1 => .ok (.mtpstPotentials (field w 15 12))
      | 2 => .ok (.mtpstRelease (field w 15 12))
      | _ => .error .illegalCode
  | 0x11 => zeroed (field w 0 3 == 0) (.mtdist (field w 15 12) (field w 3 12))
  | 0x12 => zeroed (field w 0 27 == 0) .mjoin
  | 0x13 =>
    if field w 0 26 ≠ 0 then .error .nonzeroField
    else if field w 26 1 = 1 then .ok .mcoopOn else .ok .mcoopOff
  | _ => .error .illegalMajor

/-- The idle lane word (R78). -/
def idleLaneWord : W32 := 0x0000F000

/-- The fields of a lane word other than its eop (R78). -/
def laneArgs (w : W32) : LaneArgs :=
  ⟨field w 21 3, field w 19 2, field w 17 2, field w 16 1 == 1, field w 12 4, field w 0 12⟩

/-- A lane word as the core reads it at load: `none` for the idle word, an operation, or the lowest
check of R93 from 1 to 5 that it fails. -/
def decodeLane (w : W32) : Except Reject (Option Instr) :=
  if w = idleLaneWord then .ok none
  else if w = 0xFFFFFFFF then .error (.laneCheck 1)
  else match LaneOp.ofEop (field w 24 8) with
    | none => .error (.laneCheck 1)
    | some o =>
      if o.check (laneArgs w) = 0 then .ok (some (o.instr (laneArgs w)))
      else .error (.laneCheck (o.check (laneArgs w)))

/-- How many bits of its word the opcode table fixes for a constructor (spec/opcode_table.json). -/
def Instr.fixedBits : Instr → Nat
  | .add _ _ _ _ => 13
  | .sub _ _ _ _ => 13
  | .mul _ _ _ _ => 13
  | .mulh _ _ _ _ => 13
  | .mulhn _ _ _ _ => 13
  | .div _ _ _ _ => 13
  | .divn _ _ _ _ => 13
  | .rem _ _ _ _ => 13
  | .remn _ _ _ _ => 13
  | .and _ _ _ _ => 13
  | .or _ _ _ _ => 13
  | .xor _ _ _ _ => 13
  | .shl _ _ _ _ => 13
  | .shr _ _ _ _ => 13
  | .sra _ _ _ _ => 13
  | .rot _ _ _ _ => 13
  | .min _ _ _ _ => 13
  | .max _ _ _ _ => 13
  | .minn _ _ _ _ => 13
  | .maxn _ _ _ _ => 13
  | .clz _ _ _ => 18
  | .ctz _ _ _ => 18
  | .popc _ _ _ => 18
  | .bextZReg _ _ _ _ => 13
  | .binsReg _ _ _ _ => 13
  | .bextSReg _ _ _ _ => 13
  | .sel _ _ _ _ _ => 10
  | .addi _ _ _ _ => 6
  | .andi _ _ _ _ => 6
  | .ori _ _ _ _ => 6
  | .xori _ _ _ _ => 6
  | .shi _ _ _ _ _ => 10
  | .bextZ _ _ _ _ _ => 6
  | .bextS _ _ _ _ _ => 6
  | .bins _ _ _ _ _ => 6
  | .li _ _ _ => 6
  | .lui _ _ _ => 6
  | .cmp _ _ _ _ _ => 8
  | .cmpi _ _ _ _ _ => 8
  | .pand _ _ _ _ => 19
  | .por _ _ _ _ => 19
  | .pnot _ _ _ => 22
  | .ldZ _ _ _ _ _ => 6
  | .ldS _ _ _ _ _ => 6
  | .st _ _ _ _ _ => 6
  | .fsetFull _ _ => 23
  | .fsetEmpty _ _ => 23
  | .ftest _ _ _ => 20
  | .ldg _ _ _ _ => 11
  | .stg _ _ _ _ => 11
  | .tlook _ _ _ => 18
  | .tset _ _ _ => 18
  | .tclr _ _ => 23
  | .amo _ _ _ _ _ _ _ => 6
  | .amocas _ _ _ _ _ _ => 10
  | .b _ _ => 6
  | .call _ _ => 6
  | .ret _ => 28
  | .jt _ _ _ => 18
  | .lpad _ _ => 12
  | .recv _ _ _ _ => 15
  | .send _ _ _ _ => 15
  | .spawn _ _ _ => 18
  | .endTask _ => 28
  | .endJoin => 32
  | .yield _ _ _ => 11
  | .safe _ _ => 11
  | .waitc _ _ _ _ _ _ => 9
  | .forkMatrix _ _ _ => 11
  | .forkStream _ _ _ => 11
  | .rdv _ _ => 14
  | .sbind _ _ _ _ => 15
  | .scopy _ _ _ _ => 15
  | .sim2c _ _ _ _ => 15
  | .sgath _ _ _ _ _ => 8
  | .sstop _ _ _ _ => 17
  | .fence _ _ _ => 12
  | .bar _ _ => 23
  | .bartest _ _ _ => 20
  | .subs _ _ _ _ => 13
  | .unsubs _ _ => 23
  | .sflush _ => 28
  | .nlook _ _ _ => 18
  | .nins _ _ _ => 18
  | .nevict _ _ _ => 18
  | .qpost _ _ _ _ => 13
  | .cnct _ _ _ => 18
  | .cncl _ _ => 23
  | .mfs _ _ _ => 11
  | .mts _ _ _ => 11
  | .nop _ => 28
  | .trap _ _ => 16
  | .brk _ => 28
  | .eret _ => 28
  | .mza => 32
  | .mzo => 32
  | .mwin _ => 24
  | .mfmt _ _ => 20
  | .mldaScratchpad _ => 20
  | .mldaPort _ => 28
  | .mldb _ => 20
  | .mmul _ _ => 19
  | .mgmul _ _ _ => 7
  | .mscale _ _ => 8
  | .mscaleUnit => 32
  | .mrd _ _ _ _ _ => 14
  | .mst _ _ _ _ => 7
  | .mxpose _ _ _ => 7
  | .mtopk _ _ _ => 21
  | .mtpld _ _ _ => 8
  | .mbal _ _ => 14
  | .mtpstPlan _ => 20
  | .mtpstPotentials _ => 20
  | .mtpstRelease _ => 20
  | .mtdist _ _ => 8
  | .mjoin => 32
  | .mcoopOn => 32
  | .mcoopOff => 32
  | _ => 0

/-- The better of two readings of one word: the one whose row fixes more of its bits; the first on a
tie (notes/assumptions/6.md). -/
def moreFixed (x y : Option Instr) : Option Instr :=
  match x, y with
  | some i, some j => if i.fixedBits < j.fixedBits then some j else some i
  | some i, none => some i
  | none, y => y

/-- An accepted word, if there is one. -/
def accepted (r : Except Reject Instr) : Option Instr :=
  match r with
  | .ok i => some i
  | .error _ => none

/-- The instruction of an opcode-table word. A word carries no mark of its kind (R288), so it is read
as each sequencer reads it, and the reading whose row fixes more bits is taken. -/
def decodeTableWord (nbits w : Nat) : Option Instr :=
  if nbits = 32 ∧ w < 2 ^ 32 then
    let x := BitVec.ofNat 32 w
    moreFixed (moreFixed (accepted (decodeControl x)) (accepted (decodeStream x))) (accepted (decodeMatrix x))
  else none

/-! ## The encoder -/

/-- Op and guard of a control word (R289). -/
def head (op : BitVec 6) (g : Guard) : BitVec 10 := op ++ g.p ++ g.n

/-- Format R (R289). -/
def fmtR (op : BitVec 6) (g : Guard) (d a b : BitVec 5) (fn : BitVec 7) : W32 := head op g ++ d ++ a ++ b ++ fn

/-- Format I (R289). -/
def fmtI (op : BitVec 6) (g : Guard) (d a : BitVec 5) (imm : BitVec 12) : W32 := head op g ++ d ++ a ++ imm

/-- Format L (R289). -/
def fmtL (op : BitVec 6) (g : Guard) (d : BitVec 5) (imm : BitVec 17) : W32 := head op g ++ d ++ imm

/-- Format J, and `end` (R289). -/
def fmtJ (op : BitVec 6) (g : Guard) (off : BitVec 22) : W32 := head op g ++ off

/-- Format M (R289). -/
def fmtM (op : BitVec 6) (g : Guard) (d a : BitVec 5) (sz : BitVec 2) (off : BitVec 10) : W32 :=
  head op g ++ d ++ a ++ sz ++ off

/-- Format F (R289). -/
def fmtF (op : BitVec 6) (g : Guard) (d a : BitVec 5) (off wm1 : BitVec 6) : W32 :=
  head op g ++ d ++ a ++ off ++ wm1

/-- A predicate in a register field: its high bits are zero (R292). -/
def predField (q : Pred) : BitVec 5 := (0 : BitVec 2) ++ q

/-- One bit. -/
def bit (x : Bool) : BitVec 1 := if x then 1 else 0

/-- A lane word (R78). -/
def encodeLane (o : LaneOp) (w : LaneArgs) : W32 :=
  o.eop ++ w.fmt ++ w.qa ++ w.qb ++ bit w.bimm ++ w.rate ++ w.imm

/-- The word of a control or matrix instruction; `none` for lane operations and events. -/
def encodeWord : Instr → Option W32
  | .add g d a b => some (fmtR 0x01 g d a b 0x00)
  | .sub g d a b => some (fmtR 0x01 g d a b 0x01)
  | .mul g d a b => some (fmtR 0x01 g d a b 0x02)
  | .mulh g d a b => some (fmtR 0x01 g d a b 0x03)
  | .mulhn g d a b => some (fmtR 0x01 g d a b 0x04)
  | .div g d a b => some (fmtR 0x01 g d a b 0x05)
  | .divn g d a b => some (fmtR 0x01 g d a b 0x06)
  | .rem g d a b => some (fmtR 0x01 g d a b 0x07)
  | .remn g d a b => some (fmtR 0x01 g d a b 0x08)
  | .and g d a b => some (fmtR 0x01 g d a b 0x09)
  | .or g d a b => some (fmtR 0x01 g d a b 0x0A)
  | .xor g d a b => some (fmtR 0x01 g d a b 0x0B)
  | .shl g d a b => some (fmtR 0x01 g d a b 0x0C)
  | .shr g d a b => some (fmtR 0x01 g d a b 0x0D)
  | .sra g d a b => some (fmtR 0x01 g d a b 0x0E)
  | .rot g d a b => some (fmtR 0x01 g d a b 0x0F)
  | .min g d a b => some (fmtR 0x01 g d a b 0x10)
  | .max g d a b => some (fmtR 0x01 g d a b 0x11)
  | .minn g d a b => some (fmtR 0x01 g d a b 0x12)
  | .maxn g d a b => some (fmtR 0x01 g d a b 0x13)
  | .clz g d a => some (fmtR 0x01 g d a 0 0x14)
  | .ctz g d a => some (fmtR 0x01 g d a 0 0x15)
  | .popc g d a => some (fmtR 0x01 g d a 0 0x16)
  | .bextZReg g d a b => some (fmtR 0x01 g d a b 0x17)
  | .binsReg g d a b => some (fmtR 0x01 g d a b 0x18)
  | .bextSReg g d a b => some (fmtR 0x01 g d a b 0x1A)
  | .sel g qs d a b => some (fmtR 0x01 g d a b ((4 : BitVec 4) ++ qs))
  | .addi g d a imm => some (fmtI 0x02 g d a imm)
  | .andi g d a imm => some (fmtI 0x03 g d a imm)
  | .ori g d a imm => some (fmtI 0x04 g d a imm)
  | .xori g d a imm => some (fmtI 0x05 g d a imm)
  | .shi g k d a amt => some (fmtI 0x06 g d a (k.code ++ (0 : BitVec 4) ++ amt))
  | .bextZ g d a off wm1 => some (fmtF 0x07 g d a off wm1)
  | .bextS g d a off wm1 => some (fmtF 0x08 g d a off wm1)
  | .bins g d a off wm1 => some (fmtF 0x09 g d a off wm1)
  | .li g d imm => some (fmtL 0x0A g d imm)
  | .lui g d imm => some (fmtL 0x0B g d imm)
  | .cmp g cc d a b => some (fmtR 0x0C g (predField d) a b ((0 : BitVec 4) ++ cc.code))
  | .cmpi g cc d a imm => some (fmtI 0x0D g (predField d) a (cc.code ++ imm))
  | .pand g d a b => some (fmtR 0x0E g (predField d) (predField a) (predField b) 0)
  | .por g d a b => some (fmtR 0x0E g (predField d) (predField a) (predField b) 1)
  | .pnot g d a => some (fmtR 0x0E g (predField d) (predField a) 0 2)
  | .ldZ g sz d a off => some (fmtM 0x10 g d a sz.code off)
  | .ldS g sz d a off => some (fmtM 0x11 g d a sz.code off)
  | .st g sz d a off => some (fmtM 0x12 g d a sz.code off)
  | .fsetFull g a => some (fmtR 0x14 g 0 a 0 0)
  | .fsetEmpty g a => some (fmtR 0x14 g 0 a 0 1)
  | .ftest g d a => some (fmtR 0x14 g (predField d) a 0 2)
  | .ldg g a b lines => some (fmtR 0x15 g 0 a b lines)
  | .stg g a b lines => some (fmtR 0x16 g 0 a b lines)
  | .tlook g d a => some (fmtR 0x17 g d a 0 0)
  | .tset g a b => some (fmtR 0x17 g 0 a b 1)
  | .tclr g a => some (fmtR 0x17 g 0 a 0 2)
  | .amo g o z dep d a b => some (fmtR 0x18 g d a b (bit dep ++ z.code ++ o.code))
  | .amocas g z dep d a b => some (fmtR 0x19 g d a b (bit dep ++ z.code ++ (0 : BitVec 4)))
  | .b g off => some (fmtJ 0x1C g off)
  | .call g off => some (fmtJ 0x1D g off)
  | .ret g => some (fmtR 0x1E g 0 0 0 0)
  | .jt g a b => some (fmtR 0x1E g 0 a b 1)
  | .lpad g label => some (fmtL 0x1F g 0 ((0 : BitVec 1) ++ label))
  | .recv g d vc q => some (fmtR 0x20 g d vc (predField q) 0)
  | .send g d a b => some (fmtR 0x21 g (predField d) a b 0)
  | .spawn g a b => some (fmtR 0x22 g 0 a b 0)
  | .endTask g => some (fmtJ 0x23 g 0)
  | .endJoin => some 0x8C000000
  | .yield g k tgt => some (fmtL 0x24 g 0 (k.code ++ tgt))
  | .safe g live => some (fmtL 0x25 g 0 live)
  | .waitc g d ld st cp mt => some (fmtL 0x26 g (predField d) ((0 : BitVec 1) ++ ld ++ st ++ cp ++ mt))
  | .forkMatrix g d tgt => some (fmtL 0x27 g (predField d) ((1 : BitVec 2) ++ (0 : BitVec 1) ++ tgt))
  | .forkStream g d tgt => some (fmtL 0x27 g (predField d) ((2 : BitVec 2) ++ (0 : BitVec 1) ++ tgt))
  | .rdv g tgt => some (fmtL 0x28 g 0 ((0 : BitVec 3) ++ tgt))
  | .sbind g d a b => some (fmtR 0x29 g (predField d) a b 0)
  | .scopy g d a b => some (fmtR 0x2A g (predField d) a b 0)
  | .sim2c g d a b => some (fmtR 0x2B g (predField d) a b 0)
  | .sgath g d a b m => some (fmtR 0x2C g (predField d) a b m)
  | .sstop g d b keep => some (fmtR 0x2D g d 0 b ((0 : BitVec 6) ++ bit keep))
  | .fence g before after => some (fmtL 0x30 g 0 ((0 : BitVec 1) ++ after ++ before))
  | .bar g a => some (fmtR 0x31 g 0 a 0 0)
  | .bartest g d a => some (fmtR 0x31 g (predField d) a 0 1)
  | .subs g d a b => some (fmtR 0x32 g d a b 0)
  | .unsubs g a => some (fmtR 0x32 g 0 a 0 1)
  | .sflush g => some (fmtR 0x32 g 0 0 0 2)
  | .nlook g a b => some (fmtR 0x34 g 0 a b 0)
  | .nins g d a => some (fmtR 0x34 g d a 0 1)
  | .nevict g d a => some (fmtR 0x34 g d a 0 2)
  | .qpost g d a b => some (fmtR 0x36 g d a b 0)
  | .cnct g d a => some (fmtR 0x36 g d a 0 1)
  | .cncl g a => some (fmtR 0x36 g 0 a 0 2)
  | .mfs g d num => some (fmtI 0x3C g d 0 num)
  | .mts g a num => some (fmtI 0x3D g 0 a num)
  | .nop g => some (fmtL 0x3E g 0 0)
  | .trap g code => some (fmtL 0x3E g 0 ((1 : BitVec 2) ++ (0 : BitVec 3) ++ code))
  | .brk g => some (fmtL 0x3E g 0 0x10000)
  | .eret g => some (fmtL 0x3E g 0 0x18000)
  | .mza => some 0x08000000
  | .mzo => some 0x10000000
  | .mwin w => some ((3 : BitVec 5) ++ w ++ (0 : BitVec 19))
  | .mfmt fa fb => some ((4 : BitVec 5) ++ fa ++ fb ++ (0 : BitVec 15))
  | .mldaScratchpad line => some ((5 : BitVec 5) ++ (0 : BitVec 1) ++ line ++ (0 : BitVec 14))
  | .mldaPort sp => some ((5 : BitVec 5) ++ (1 : BitVec 1) ++ (0 : BitVec 12) ++ sp ++ (0 : BitVec 10))
  | .mldb line => some ((6 : BitVec 5) ++ line ++ (0 : BitVec 15))
  | .mmul ks rows => some ((7 : BitVec 5) ++ ks ++ rows ++ (0 : BitVec 14))
  | .mgmul ks list n => some ((8 : BitVec 5) ++ ks ++ list ++ n ++ (0 : BitVec 2))
  | .mscale sa sb => some ((9 : BitVec 5) ++ sa ++ sb ++ (0 : BitVec 3))
  | .mscaleUnit => some 0x48000004
  | .mrd acc drain sk row0 rows =>
    some ((10 : BitVec 5) ++ bit acc ++ bit drain ++ sk ++ row0 ++ rows ++ (0 : BitVec 9))
  | .mst bf line row0 rows => some ((11 : BitVec 5) ++ bit bf ++ line ++ row0 ++ rows ++ (0 : BitVec 2))
  | .mxpose side src dst => some ((12 : BitVec 5) ++ bit side ++ src ++ dst ++ (0 : BitVec 2))
  | .mtopk rows ne k => some ((13 : BitVec 5) ++ rows ++ ne ++ k ++ (0 : BitVec 16))
  | .mtpld line rows cols => some ((14 : BitVec 5) ++ line ++ rows ++ cols ++ (0 : BitVec 3))
  | .mbal sweeps tol => some ((15 : BitVec 5) ++ sweeps ++ tol ++ (0 : BitVec 9))
  | .mtpstPlan line => some ((16 : BitVec 5) ++ line ++ (0 : BitVec 2) ++ (0 : BitVec 13))
  | .mtpstPotentials line => some ((16 : BitVec 5) ++ line ++ (1 : BitVec 2) ++ (0 : BitVec 13))
  | .mtpstRelease line => some ((16 : BitVec 5) ++ line ++ (2 : BitVec 2) ++ (0 : BitVec 13))
  | .mtdist cost out => some ((17 : BitVec 5) ++ cost ++ out ++ (0 : BitVec 3))
  | .mjoin => some 0x90000000
  | .mcoopOn => some 0x9C000000
  | .mcoopOff => some 0x98000000
  | _ => none

/-- The words of an instruction: its control or matrix word, its lane word, none for an event. -/
def encode (i : Instr) : List W32 :=
  match encodeWord i with
  | some w => [w]
  | none =>
    match i.lane? with
    | some (o, w) => [encodeLane o w]
    | none => []

end Sys2Proof
end

