-- ==== Sys2Proof/Machine/State.lean ====
section
/-!
DEFINITION. The machine's state, all of it plain data (INVENTORY.md lists each piece with its rule),
the reasons a step can stop, and the state after reset. A sparse table lists only the keys whose
value differs from the table's default, which each reader names.
-/

namespace Sys2Proof.Machine

/-- A sparse table: pairs of a key and a value, keys rising. -/
abbrev Tbl (α : Type) := List (Nat × α)

/-- Memory: the listed bytes, addresses rising, none equal to what an unlisted address reads as. -/
abbrev Memory := List Host.Cell

/-- The faults of the model. The spec stops the machine nowhere: a trap, a stall, a stopped sequencer
and a faulted level are next states. -/
inductive Fault where
  /-- Raised by no meaning; the closed type needs a value. Safe: the machine stops. -/
  | unreachable
  deriving DecidableEq, Repr

/-- The refusals of the model. -/
inductive Refusal where
  /-- Raised by an arm of `exec` whose instruction has no meaning yet. Safe: the machine stops. -/
  | notModelled (mnemonic : String)
  deriving DecidableEq, Repr

/-- The three sequencers of a core (R50). -/
inductive Seq where
  | control | matrix | stream
  deriving DecidableEq, Repr

/-- Which core, lane and sequencer the current operation belongs to (notes/assumptions/2.md). -/
structure Seat where
  core : Nat := 0
  lane : Nat := 0
  seq  : Seq := .control
  deriving DecidableEq, Repr

/-- Who moves next (notes/assumptions/1.md). -/
inductive Turn where
  /-- A sequencer of a core fetches and issues one word (R50). -/
  | issue (core : Nat) (seq : Seq)
  /-- A lane of a core fires, or emits a token it owes (R82). -/
  | lane (core k : Nat)
  /-- A step that no instruction word causes. -/
  | event (i : Instr)
  /-- Time passes: cycles of the clusters' clocks, and Dial ticks (R4). -/
  | elapse (cycles ticks : Nat)
  deriving DecidableEq, Repr

/-- A token (R75). -/
structure Token where
  poison : Bool := false
  kind   : BitVec 3 := 0
  value  : W32 := 0
  deriving DecidableEq, Repr

/-! ## Tasks -/

/-- A task-table entry (R56). -/
structure TaskEntry where
  sbase : Word := 0
  sinc  : W32 := 0
  entry : BitVec 14 := 0
  prio  : BitVec 3 := 0
  vc    : BitVec 5 := 0
  ord   : Bool := false
  valid : Bool := false
  deriving DecidableEq, Repr

/-- A buffered `stg` (R126): first local line, global address, lines. -/
structure Stg where
  line  : Nat
  va    : Word
  lines : Nat
  deriving DecidableEq, Repr

/-- What a task delivers at its commit (R422, R425). -/
inductive Out where
  | sendVc (core vc : Nat) (t : Token)
  | sendSink (port : Nat) (t : Token)
  | spawn (slot entryIdx : Nat) (start : BitVec 14) (stamp : Word) (carry : List Word)
  deriving DecidableEq, Repr

/-- A token of a virtual channel: its arrival number on the channel (R57) and the cycle it came. -/
structure VcToken where
  tok : Token
  n   : Nat := 0
  at_ : Nat := 0
  deriving DecidableEq, Repr

/-- A task's work that no one else sees yet (R65, R168, R173). -/
structure Work where
  /-- Buffered scratchpad bytes, by scratchpad address core·2^19 + offset. -/
  wbuf     : Tbl Byte := []
  /-- The write buffer has overflowed (R174, R426). -/
  ovfl     : Bool := false
  stgs     : List Stg := []
  outs     : List Out := []
  consumed : List (Nat × VcToken) := []
  /-- The read set: lines core·4096 + line (R173). -/
  reads    : List Nat := []
  settled  : Bool := false
  irrev    : Bool := false
  deriving DecidableEq, Repr

/-- The control sequencer's registers and the running task (R52, R54, R67). -/
structure Ctl where
  /-- The slot of the running task; `none` when the sequencer is idle. -/
  slot    : Option Nat := none
  /-- Counts dispatches: names the run that a reply belongs to (R314). -/
  run     : Nat := 0
  pc      : Nat := 0
  g       : Tbl Word := []
  q       : Tbl Bool := []
  safecnt : Nat := 0
  task    : Word := 0
  stamp   : Word := 0
  chain   : Nat := 0
  work    : Work := {}
  /-- A cancel of a level that encloses the task: it ends at its next instruction (R200). -/
  killed  : Bool := false
  deriving DecidableEq, Repr

/-- What an instance slot's instance is doing (R58, R59). -/
inductive SlotState where
  | reserved | ready | running | suspended | ended | waitOldest
  | waitLine (line : Nat)
  | waitWake (k : WakeCode)
  deriving DecidableEq, Repr

/-- An instance slot (R59, R60, R63). -/
structure Slot where
  st     : SlotState := .ready
  start  : BitVec 14 := 0
  idx    : Nat := 0
  how    : BitVec 3 := 0
  stamp  : Word := 0
  carry  : List Word := []
  chain  : Nat := 0
  since  : Nat := 0
  aged   : Bool := false
  /-- For an aborted instance that waits to hold the oldest stamp (R174): the cycle since which it does. -/
  oldAt  : Option Nat := none
  /-- Runs as irrevocable from its start (R174). -/
  irrev  : Bool := false
  saved  : Option Ctl := none
  deriving DecidableEq, Repr

/-- The statuses of R19. -/
inductive Status where
  | done | cancelled | faulted
  deriving DecidableEq, Repr

/-- A task chain, which is a unit (R18, R69, R72): its operation counters, its forks, its barrier
arrivals. -/
structure Chain where
  ld     : Nat := 0
  st     : Nat := 0
  cp     : Nat := 0
  mt     : Nat := 0
  forkM  : Bool := false
  forkS  : Bool := false
  /-- Latest arrival number at each barrier (R309). -/
  bars   : Tbl Nat := []
  /-- The task-table entry, and whether a channel word started it (R58). -/
  idx    : Nat := 0
  launch : Nat := 0
  ended  : Bool := false
  status : Status := .done
  posted : Bool := false
  deriving DecidableEq, Repr

/-- Where a commit stands in R169. -/
inductive CommitStage where
  | waiting | scratch | stgs | outs
  deriving DecidableEq, Repr

/-- A commit of an ended task (R169, R170, R172). -/
structure Commit where
  id     : Nat
  chain  : Nat
  /-- The run that ended: what it issued is ordered before its stores (R168, R176). -/
  run    : Nat := 0
  /-- The slot kept until the commit is done: for a continuation, or by an ordered-domain task. -/
  slot   : Option Nat := none
  ord    : Bool := false
  stamp  : Word := 0
  launch : Nat := 0
  work   : Work := {}
  stage  : CommitStage := .waiting
  /-- The continuation that takes the slot when the commit has finished (R170). -/
  cont   : Option Slot := none
  /-- A cancel has reached it: nothing more is committed (R169). -/
  dead   : Bool := false
  seq    : Nat := 0
  deriving DecidableEq, Repr

/-- A virtual channel (R57, R410, R422). -/
structure Vc where
  q       : List VcToken := []
  resv    : Nat := 0
  arrived : Nat := 0
  deriving DecidableEq, Repr

/-- A register or predicate that an outstanding reply will write (R314). -/
inductive Dest where
  | g (r : Reg)
  | q (p : Pred)
  deriving DecidableEq, Repr

/-- An outstanding reply (R239, R314). `unbounded`: a status of the name engine or of `qpost`. -/
structure Owed where
  id        : Nat
  run       : Nat
  dst       : Dest
  val       : Option Word := none
  unbounded : Bool := false
  deriving DecidableEq, Repr

/-- An atomic waiting at a scratchpad port (R139): who gets the old value, the operation and where. -/
structure PortReq where
  core : Nat
  /-- The run that issued it. -/
  run  : Nat := 0
  /-- The reply it will give: an owed reply of that core. -/
  owed : Nat
  op   : BitVec 4
  cas  : Bool := false
  size : Nat
  off  : Nat
  b    : Word
  cmp  : Word := 0
  seq  : Nat := 0
  deriving DecidableEq, Repr

/-! ## The lane row and the stream engine -/

/-- A configuration region (R77). -/
structure Region where
  lops  : Tbl W32 := []
  sw    : List (BitVec 16) := []
  masks : Tbl (BitVec 16) := []
  bases : Tbl Word := []
  deriving DecidableEq, Repr

/-- A token that a lane owes to its outputs: on its own output, on lane k+1's, with the flags that
its emission raises (R48). -/
structure Emit where
  arm0  : Bool := true
  arm1  : Bool := false
  tok   : Token := {}
  flags : BitVec 5 := 0
  deriving DecidableEq, Repr

/-- A memory node's access in flight (R89-R91). -/
structure MemReq where
  lane    : Nat
  op      : LaneOp
  addr    : Word
  amo     : BitVec 4 := 0
  scope   : BitVec 2 := 0
  b       : Token := {}
  /-- The word and poison the access gave, once it has taken place. -/
  res     : Option (W32 × Bool) := none
  /-- It has taken place and given its done token. -/
  seen    : Bool := false
  stalled : Bool := false
  seq     : Nat := 0
  deriving DecidableEq, Repr

/-- A lane's state between firings (R332). -/
structure Lane where
  buf     : List Token := []
  acc     : W32 := 0
  count   : Nat := 0
  bad     : Bool := false
  /-- The flags that the current segment's roundings have raised. -/
  flags   : BitVec 5 := 0
  out     : List Emit := []
  stopped : Bool := false
  /-- The first cycle in which it may fire again (R82). -/
  due     : Nat := 0
  deriving DecidableEq, Repr

/-- Kinds of stream command (R416-R418). -/
inductive CmdKind where
  | copy
  | sim2c (passes : Nat) (off0 : BitVec 16)
  | gath (list : List W32)
  deriving DecidableEq, Repr

/-- A queued stream command (R131): its descriptor as queued and the chain that counts it. -/
structure Cmd where
  kind  : CmdKind
  d     : BitVec 512
  chain : Nat
  seq   : Nat := 0
  deriving DecidableEq, Repr

/-- What a walk still has to do: a token of elements, each with its address, `none` where it lies
outside the tensor, or a marker (R129). -/
inductive Item where
  | data (addrs : List (Option Word))
  | mark (rank : Nat)
  deriving DecidableEq, Repr

/-- A running stream command: the rest of its walk (R129), the bytes of each line or unit that it has
written cleanly (R233), and where it stands. -/
structure Running where
  cmd   : Cmd
  items : List Item := []
  mask  : Tbl Nat := []
  /-- The 128-byte line of the last element it has moved (R237). -/
  last  : Option Nat := none
  deriving DecidableEq, Repr

/-- Row-tag state of a receiving port (R212). -/
structure RowTag where
  expert : Nat := 0
  rows   : List Nat := []
  disp   : Option Nat := none
  /-- 0: a tag token is due; 1: a row is delivered; 2: a row is dropped. -/
  mode   : Nat := 0
  stop   : Bool := false
  deriving DecidableEq, Repr

/-- A stream port (R127-R131). Keys 0-15: source ports; 16-31: sink ports. -/
structure Port where
  desc    : Option (BitVec 512) := none
  q       : List Cmd := []
  run     : Option Running := none
  posted  : W32 := 0
  read    : W32 := 0
  /-- A sink port's tokens (R76); a source port's tokens for the matrix unit (R97). -/
  buf     : List Token := []
  resv    : Nat := 0
  stalled : Bool := false
  circuit : Bool := false
  tag     : Option RowTag := none
  deriving DecidableEq, Repr

/-! ## The matrix unit -/

/-- The special-state tag of a cell (R39). -/
inductive Tag where
  | finite | pinf | ninf | nan
  deriving DecidableEq, Repr

/-- A row firing not yet fired (R99, R104): its word, step, A row, result row and the settings its
word issued under. -/
structure Firing where
  word  : Nat
  s     : Nat
  a     : Nat
  i     : Nat
  fa    : BitVec 6
  fb    : BitVec 6
  win   : BitVec 8
  asrc  : Bool
  aline : Nat
  aport : Nat
  bline : Nat
  /-- A's 32 element bytes and poison, once the pass has read them. -/
  data  : List Byte := []
  bad   : Bool := false
  /-- In a cooperative tile: its product word's number and its place in the word's list, by which the row
  group's cores know an A row (R110). -/
  ord   : Nat := 0
  t     : Nat := 0
  deriving DecidableEq, Repr

/-- An A row on its way between two cores of a row group (R110): product word, step, place in the word's
list, bytes and poison. -/
structure CoopRow where
  ord  : Nat
  s    : Nat
  t    : Nat
  data : List Byte
  bad  : Bool
  deriving DecidableEq, Repr

/-- Rows that an `mrd` still has to copy into the output buffer (R107, R390). -/
structure RowCopy where
  acc  : Bool
  row  : Nat
  left : Nat
  deriving DecidableEq, Repr

/-- A matrix word that has issued and not completed (R102, R375). -/
structure MWord where
  id    : Nat
  /-- Its address: where the sequencer stops when one of its firings faults (R105). -/
  pc    : Nat := 0
  /-- A product word, an `mrd`, or a draining or settings word whose effect has taken place. -/
  kind  : Nat
  flags : BitVec 5 := 0
  chain : Nat := 0
  seq   : Nat := 0
  deriving DecidableEq, Repr

/-- The matrix unit and its sequencer (R94, R111, R218). -/
structure Mx where
  fa     : BitVec 6 := 7
  fb     : BitVec 6 := 7
  win    : BitVec 8 := 0
  asrc   : Bool := false
  aline  : BitVec 12 := 0
  aport  : BitVec 4 := 0
  bline  : BitVec 12 := 0
  coop   : Bool := false
  inner  : Tbl Int := []
  tag    : Tbl Tag := []
  outer  : Tbl W32 := []
  pin    : Tbl Bool := []
  pout   : Tbl Bool := []
  /-- Set by `mtpst part=f`: the outer values and pout are free values until `mzo`. -/
  free   : Option Nat := none
  sat    : Bool := false
  dirty  : Bool := false
  fcode  : BitVec 4 := 0
  tp     : Bool := false
  conv   : Bool := false
  infeas : Bool := false
  sweeps : BitVec 13 := 0
  err    : W32 := 0
  flags  : BitVec 5 := 0
  /-- A product word has issued since the last `mza` or `mscale` (R398). -/
  prod   : Bool := false
  rows   : Nat := 0
  cols   : Nat := 0
  la     : Tbl W32 := []
  lb     : Tbl W32 := []
  f      : Tbl W32 := []
  gp     : Tbl W32 := []
  todo   : List Firing := []
  pass   : List Firing := []
  words  : List MWord := []
  copy   : Option RowCopy := none
  obuf   : List Token := []
  oport  : Nat := 0
  oword  : Nat := 0
  /-- The sequencer: running a forked program, stopped by a fault, at a word, for a chain. -/
  active : Bool := false
  halt   : Bool := false
  pc     : Nat := 0
  chain  : Nat := 0
  /-- Cooperative tile: `mcoop` words waiting for the cluster, product words issued, rows forwarded
  from the previous core (R110). -/
  coopW  : Option Bool := none
  coopLog : List (List Nat) := []
  coopIn : List CoopRow := []
  /-- `mcoop` words issued since arming: the cluster's cores issue as many (R110). -/
  coopN  : Nat := 0
  /-- The word at `pc` has issued, is counted, and waits for a line (R98, R375). -/
  held   : Bool := false
  /-- The word that waits is a draining one (R374). -/
  heldDr : Bool := false
  deriving DecidableEq, Repr

/-- The stream sequencer (R50, R132). -/
structure Ss where
  active : Bool := false
  halt   : Bool := false
  pc     : Nat := 0
  chain  : Nat := 0
  snap   : List Word := []
  deriving DecidableEq, Repr

/-! ## Global memory traffic -/

/-- An `ldg` in flight (R125, R370). -/
structure Ldg where
  id      : Nat
  chain   : Nat
  line    : Nat
  va      : Word
  lines   : Nat
  got     : Nat := 0
  /-- The physical lines, once every page of the range has been translated (R370). -/
  pas     : List Nat := []
  /-- Local lines that a later command has named: this command's data for them is discarded (R370). -/
  named   : List Nat := []
  stalled : Bool := false
  seq     : Nat := 0
  deriving DecidableEq, Repr

/-- An `stg` that a commit has issued (R126): the bytes and poison it read then. -/
structure StgCmd where
  id      : Nat
  chain   : Nat
  va      : Word
  data    : List Byte
  bad     : List Bool
  stalled : Bool := false
  seq     : Nat := 0
  deriving DecidableEq, Repr

/-- A deposit on its way to a core (R140, R317): 8 bytes at a scratchpad offset. -/
structure Deposit where
  id    : Nat
  chain : Nat
  off   : Nat
  val   : Option (Word × Bool) := none
  dead  : Bool := false
  deriving DecidableEq, Repr

/-- A global atomic at a Detent (R140). -/
structure Atomic where
  id      : Nat := 0
  /-- The cycle in which it arrived at the Detent. -/
  at_     : Nat := 0
  core    : Nat
  deposit : Option Nat := none
  lane    : Option Nat := none
  part    : Nat
  op      : BitVec 4
  cas     : Bool := false
  size    : Nat
  va      : Word
  b       : Word
  cmp     : Word := 0
  bad     : Bool := false
  scope   : BitVec 2 := 0
  stalled : Bool := false
  task    : W32 := 0
  seq     : Nat := 0
  deriving DecidableEq, Repr

/-- A hot line of a Detent: its physical line and the bytes its atomics changed (R140, R166). -/
structure Hot where
  line    : Nat
  changed : Tbl Byte := []
  deriving DecidableEq, Repr

/-- A cluster: its Detent and its clock (R140, R262). -/
structure Cluster where
  queue : List Atomic := []
  hot   : List Hot := []
  mhz   : Nat := 800
  lo    : Nat := 800
  hi    : Nat := 3300
  /-- Monitor windows done (R262). -/
  win   : Nat := 0
  deriving DecidableEq, Repr

/-- A cached translation of one of a die's sixteen slices (R118). -/
structure Tlb where
  die  : Nat
  slice : Nat
  part : Nat
  va   : Nat
  size : Nat
  pa   : Nat
  r    : Bool
  w    : Bool
  deriving DecidableEq, Repr

/-- Who waits under R119. -/
inductive Waiter where
  | lane (core k : Nat)
  | ldg (core id : Nat)
  | stg (core id : Nat)
  | port (core p : Nat)
  | detent (cl id : Nat)
  deriving DecidableEq, Repr

/-- A packet waiting to enter a ring (R10): a peer `fset` (R364). -/
inductive Packet where
  | fset (core run line : Nat) (full : Bool) (seq : Nat)
  deriving DecidableEq, Repr

/-- A reduction packet in a router queue (R12). -/
inductive RedKind where
  | int | window | fp32
  deriving DecidableEq, Repr

structure Reduction where
  router : Nat
  addr   : Nat
  kind   : RedKind
  det    : Bool
  value  : Int
  bad    : Bool
  deriving DecidableEq, Repr

/-- What a latch of a circuit holds: a data word or marker (R75), or a token of the wave class, class and
name (R148). -/
inductive Flit where
  | data (t : Token)
  | wave (w : BitVec 131)
  deriving DecidableEq, Repr

/-- An elastic circuit (R92, R311): from a sink port to a source port or a virtual channel, with its latch
stages. One across devices ends or begins at a Swihowen Link (notes/assumptions/85.md). -/
structure Circuit where
  launch : Nat
  /-- The sink node that it begins at. -/
  node   : Nat := 0
  core   : Nat
  sink   : Nat
  core2  : Nat
  src    : Nat
  /-- `src` is a virtual channel of `core2`. -/
  toVc   : Bool := false
  /-- It begins at the link that another device sends on, or ends at the link to it. -/
  comes  : Option Nat := none
  goes   : Option Nat := none
  stages : List (List Flit) := []
  /-- Wave tokens that wait at its beginning, and request tokens on their way back and at its end (R148,
  R149). -/
  names  : List (BitVec 131) := []
  back   : List (List (BitVec 131)) := []
  asks   : List (BitVec 131) := []
  /-- The hops that cross a link or die port, with its number, and whether one has failed (R247). -/
  links  : List (Nat × Nat) := []
  failed : Bool := false
  deriving DecidableEq, Repr

/-! ## Subscriptions -/

/-- An update in a subscription's FIFO (R135): a snapshot, the latest bytes of a line while its
window is open or after it closed, or the removal mark (R430). -/
inductive Update where
  | snapshot (data : List Byte) (bad : List Bool) (seq : Nat)
  | line (k : Nat) (bytes : Tbl Byte) (bad whole : Bool) (opened : Nat) (closed : Bool) (seq : Nat)
  | mark
  deriving DecidableEq, Repr

/-- A subscription (R134-R137): publisher and subscriber core, first lines, number of lines. -/
structure Sub where
  id      : Nat
  pub     : Nat
  pubLine : Nat
  pubIdx  : Nat
  sub     : Nat
  subLine : Nat
  subIdx  : Nat
  lines   : Nat
  fill    : Bool
  launch  : Nat := 0
  state   : BitVec 2 := 1
  /-- The snapshot request has not reached the publisher. -/
  ask     : Bool := true
  fifo    : List Update := []
  backlog : List Update := []
  /-- A removal from the subscriber is on its way to the publisher. -/
  leaving : Bool := false
  /-- The publisher no longer forwards; the mark follows. -/
  closed  : Bool := false
  /-- After a resume: the core's tasks wait until the backlog has been applied or the entry is live
  again (R137). -/
  resync  : Bool := false
  /-- The number of the operation that asked for the snapshot (R180). -/
  seq     : Nat := 0
  /-- Updates that a stale entry has lost: the next snapshot stands for them (R136, R137). -/
  lost    : Nat := 0
  deriving DecidableEq, Repr

/-! ## A core -/

/-- A fence's hold (R180): operations of the after-classes issued after `seq` wait until those of the
before-classes issued before it are visible. -/
structure Hold where
  before : BitVec 8
  after  : BitVec 8
  seq    : Nat
  /-- For before-class U: per subscription, the earlier updates not yet applied. -/
  upd    : Tbl Nat := []
  deriving DecidableEq, Repr

/-- A core (R8). -/
structure Core where
  store    : Tbl W32 := []
  /-- Words and entries hit by an uncorrectable error (R246). -/
  badWords : List Nat := []
  badTasks : List Nat := []
  badCfg   : Bool := false
  tasks    : Tbl TaskEntry := []
  armed    : Bool := false
  rowArmed : Bool := false
  launch   : Nat := 0
  /-- The partition, and whether the firmware keeps the core outside every partition (R224). -/
  part     : Nat := 0
  firmware : Bool := false
  ctl      : Ctl := {}
  slots    : Tbl Slot := []
  chains   : Tbl Chain := []
  commits  : List Commit := []
  vcs      : Tbl Vc := []
  vctags   : Tbl RowTag := []
  /-- Channel-triggered entries that have aged (R60). -/
  agedE    : List Nat := []
  /-- Cycle at which each task-table entry's previous channel-started instance ended (R60). -/
  freed    : Tbl Nat := []
  owed     : List Owed := []
  cause    : Word := 0
  epc      : Word := 0
  evalue   : Word := 0
  /-- The flags of `lstat` up to a cycle, those that lanes have raised in it, and that cycle (R48, R382). -/
  lstat    : BitVec 5 := 0
  raised   : BitVec 5 := 0
  raisedAt : Nat := 0
  tagcfg   : BitVec 64 := 0
  tags     : Tbl Word := []
  /-- Supervisor registers 0x111, 0x180-0x19F, 0x1A0 (R243). -/
  dbgEntry : Word := 0
  dbgG     : Tbl Word := []
  dbgQ     : Word := 0
  /-- The tenant task suspended by a debug halt (R243). -/
  halted   : Option Ctl := none
  dbgReq   : Bool := false
  /-- The cycle of a pending pre-emption request (R237). -/
  preempt  : Option Nat := none
  /-- Lanes, streams and forked sequencers stand still (R237 step 3, R243). -/
  frozen   : Bool := false
  holds    : List Hold := []
  region   : Region := {}
  queues   : Tbl (List Token) := []
  lanes    : Tbl Lane := []
  dones    : Tbl Nat := []
  memreqs  : List MemReq := []
  ports    : Tbl Port := []
  mx       : Mx := {}
  ss       : Ss := {}
  ldgs     : List Ldg := []
  stgs     : List StgCmd := []
  deposits : List Deposit := []
  portq    : List PortReq := []
  ring0    : List Packet := []
  ring1    : List Packet := []
  /-- Tokens of the core's bandwidth bucket (R202). -/
  bucket   : Nat := 0
  /-- Scratchpad lines scrubbed so far; the next is that modulo 4,096 (R246). -/
  scrub    : Nat := 0
  deriving DecidableEq, Repr

/-! ## Names -/

/-- An entry of a domain table (R159). -/
structure Entry where
  name     : BitVec 128
  fp       : BitVec 128 := 0
  va       : Word := 0
  length   : W32 := 0
  shape    : W32 := 0
  format   : Byte := 0
  kind     : BitVec 2 := 1
  retained : Bool := false
  pinned   : Bool := false
  pnev     : Bool := false
  age      : W32 := 0
  deriving DecidableEq, Repr

/-- The counters of a name domain (R160). -/
structure NameCounts where
  hits : Nat := 0
  misses : Nat := 0
  insertions : Nat := 0
  duplicates : Nat := 0
  full : Nat := 0
  aliases : Nat := 0
  collisions : Nat := 0
  skips : Nat := 0
  deriving DecidableEq, Repr

/-- A name domain (R157-R160): what the supervisor set, the heap blocks in use (offset and size) and the
counters. Its table and its fingerprint index lie in memory. -/
structure Domain where
  cfg    : Option DomainCfg := none
  blocks : List (Nat × Nat) := []
  counts : NameCounts := {}
  deriving DecidableEq, Repr

/-- A request of a name instruction at the engine (R164, R165). -/
inductive NameOp where
  | look (off : Nat)
  | ins (block : List Byte)
  | evict
  deriving DecidableEq, Repr

structure NameReq where
  core  : Nat
  op    : NameOp
  name  : BitVec 128
  bad   : Bool := false
  chain : Nat := 0
  owed  : Nat := 0
  seq   : Nat := 0
  deriving DecidableEq, Repr

/-- What an object of an output port is called (R148, R150). -/
inductive Naming where
  | unknown | open_ | named (n : BitVec 128) | void | poison
  deriving DecidableEq, Repr

/-- The wave's state of one object: an output port of a node and a segment, and the iterations of the lane
loops that enclose the node, outermost first (R141, R150-R157). An object of a sink node that begins a
circuit is what has crossed it. -/
structure Obj where
  node     : Nat
  port     : Nat
  seg      : Nat := 0
  iter     : List Nat := []
  name     : Naming := .unknown
  looked   : Bool := false
  /-- The entry that serves it, when the lookup hit. -/
  anchor   : Option Entry := none
  asked    : Bool := false
  served   : Bool := false
  /-- The tokens it has carried, oldest first, and whether its closing marker has passed. -/
  toks     : List Token := []
  closed   : Bool := false
  /-- The shape word with which it was named (R156). -/
  shape    : Option W32 := none
  retained : Bool := false
  deriving DecidableEq, Repr

/-! ## Launches, jobs and queues -/

/-- A launch (R18, R143-R157, R195-R198). -/
structure Launch where
  serial : Nat
  job    : Nat
  gr     : Nat
  node   : Nat
  part   : Nat
  obj    : Nat
  graph  : Nat
  base   : Nat
  det    : Bool := false
  dial0  : Nat := 0
  liter  : List Nat := []
  objs   : List Obj := []
  /-- Barriers: n and arrivals (R309). -/
  bars   : Tbl (Nat × Nat) := []
  /-- Updates that stood before an arrival (R136): barrier, round, subscription, updates still to apply. -/
  pend   : List (Nat × Nat × Nat × Nat) := []
  last   : Option (Nat × Nat × Nat) := none
  cancel : Bool := false
  fault  : Bool := false
  swept  : Bool := false
  status : Option Status := none
  /-- The Dial value at its completion, and whether its record is written (R259). -/
  dial1  : Nat := 0
  noted  : Bool := false
  deriving DecidableEq, Repr

/-- What a dependence-table node is doing (R194). -/
inductive NodeState where
  | waiting | ready | issued | running | ended (st : Status) | skipped
  deriving DecidableEq, Repr

/-- A dependence-table node (R193-R196). -/
structure Node where
  kind  : Nat
  npred : Nat
  succ  : List Nat
  alt   : List Nat
  first : Nat := 0
  last  : Nat := 0
  arg0  : Word := 0
  arg1  : Word := 0
  arg2  : W32 := 0
  encl  : Nat := 0
  count : Nat := 0
  live  : Bool := false
  st    : NodeState := .waiting
  since : Nat := 0
  iter  : Nat := 0
  /-- Finished, and its successors' counts are lowered (R194). -/
  passed : Bool := false
  /-- A `cond` released its false list. -/
  other : Bool := false
  deriving DecidableEq, Repr

/-- A launch graph of a job's phase (R188, R193). -/
structure Graph where
  job    : Nat
  phase  : Nat
  order  : Nat
  obj    : Nat
  lg     : Nat
  die    : Nat := 0
  loaded : Bool := false
  /-- The first of its consecutive entries in the die's dependence table (R193). -/
  first  : Nat := 0
  nodes  : List Node := []
  order2 : List Nat := []
  cancel : Bool := false
  fault  : Bool := false
  status : Option Status := none
  deriving DecidableEq, Repr

/-- A live job (R187-R190). -/
structure Job where
  id     : Nat
  q      : Nat
  part   : Nat
  obj    : Nat
  cpl    : Word
  names  : List (BitVec 128)
  phases : List (List Nat)
  phase  : Nat := 0
  age    : Nat := 0
  cancel : Bool := false
  fault  : Bool := false
  status : Option Status := none
  /-- The boundary of its current phase is not over: no node is dispatched yet (R199). -/
  due    : Bool := false
  /-- A cancel has named its current phase. -/
  pcancel : Bool := false
  deriving DecidableEq, Repr

/-- A command as the Regulator has read it (R187-R189). -/
structure Command where
  op      : Nat
  tickets : Nat
  job     : Nat
  cpl     : Word
  /-- Well formed. -/
  ok      : Bool
  obj     : Nat := 0
  names   : List (BitVec 128) := []
  /-- The launch graphs of each phase, as indices into the object's. -/
  phases  : List (List Nat) := []
  deriving DecidableEq, Repr

/-- A work queue (R186, R191). -/
structure Queue where
  base    : Word := 0
  tail    : W32 := 0
  head    : W32 := 0
  seq     : W32 := 0
  part    : BitVec 5 := 0
  loc     : Bool := false
  lsize   : BitVec 4 := 0
  en      : Bool := false
  pass    : BitVec 64 := 0
  stride  : Nat := 1048576
  /-- Backlogged, and the Dial since when (R204). -/
  active  : Bool := false
  since   : Nat := 0
  /-- The sequence check: attempts made, the Dial at which the next is due, stopped as torn. -/
  tries   : Nat := 0
  due     : Nat := 0
  torn    : Bool := false
  /-- The command that has been read and not yet run. -/
  cmd     : Option Command := none
  /-- The Dial of the last notify, and the tail that a `qpost` of the same tick goes to (R204). -/
  noted   : Option (Nat × W32) := none
  deriving DecidableEq, Repr

/-- What the dispatch port has granted and not yet done (R191). -/
inductive Grant where
  | command (q : Nat)
  | node (q gr node : Nat)
  deriving DecidableEq, Repr

/-- A fault record (R229). -/
structure FRec where
  dial   : Nat
  src    : Nat
  cause  : Nat
  flags  : Nat
  at_    : Nat
  evalue : Word
  task   : W32
  launch : Nat
  deriving DecidableEq, Repr

/-- A fault queue (R228, R230). -/
structure FaultQ where
  base  : Word := 0
  tail  : W32 := 0
  head  : W32 := 0
  msix  : BitVec 16 := 0
  lsize : BitVec 4 := 0
  en    : Bool := false
  held  : List FRec := []
  lost  : Bool := false
  deriving DecidableEq, Repr

/-- Where a partition stands in a pre-emption (R237-R242). -/
inductive PreState where
  | running | stopping | quiet | saving | saved
  deriving DecidableEq, Repr

/-- An entry of the replica table (R216). -/
structure Replica where
  line   : Nat
  expert : Nat
  part   : Nat
  vcl    : Nat
  core   : Nat
  ncore  : Nat
  state  : BitVec 2
  deriving DecidableEq, Repr

/-- A copy the replication engine has started (R215). -/
structure CopyJob where
  part   : Nat
  expert : Nat
  die    : Nat
  load   : Nat
  deriving DecidableEq, Repr

/-- A run of the replication engine (R215): the job whose phase waits for it, the pairs of expert and
die still to consider, the sums of the dies and the experts it has copied. -/
structure RepRun where
  job  : Nat
  todo : List (Nat × Nat)
  sums : Tbl Nat
  did  : List Nat
  deriving DecidableEq, Repr

/-- A partition (R13, R201, R202, R214, R228, R237, R255, R259, R285). -/
structure Part where
  clusters : List Nat := []
  root     : Nat := 0
  key      : List Byte := []
  dbg      : Bool := false
  det      : Bool := false
  detNext  : Option Bool := none
  share    : Nat := 0
  eshare   : Nat := 0
  short    : Bool := false
  used     : Nat := 0
  copyThr  : Nat := 0
  idleThr  : Nat := 0
  loads    : Tbl Nat := []
  skips    : Nat := 0
  reserve  : Tbl (Nat × Nat × Nat × Nat) := []
  /-- Originals that the supervisor has written and that wait for a phase boundary (R199, R215). -/
  pendRep  : List Replica := []
  repPage  : Nat := 0
  rep      : Option RepRun := none
  dups     : BitVec 64 := 0
  fq       : FaultQ := {}
  ring     : Nat := 0
  ringSize : Nat := 0
  ringPos  : Nat := 0
  prev     : List Byte := []
  nrec     : Nat := 0
  lastSer  : Nat := 0
  accept   : List (List Byte) := []
  save     : Nat := 0
  pre      : PreState := .running
  resumeRq : Option (List Nat) := none
  /-- The dies of the virtual clusters in the map that was saved (R201). -/
  shape    : List Nat := []
  dom      : Domain := {}
  nreqs    : List NameReq := []
  windows  : List (Nat × Nat × Nat) := []
  /-- The ranges that loads have given to global sections: address and bytes (R287). -/
  given    : List (Nat × Nat) := []
  deriving DecidableEq, Repr

/-- A loaded object (R277-R287): its sections, graphs and launch graphs as read from the file. -/
structure Section where
  kind  : Nat
  space : Nat
  fill  : Bool
  node  : Nat
  graph : Nat
  org   : Nat
  data  : List Byte
  va    : Word := 0
  deriving DecidableEq, Repr

structure GPort where
  num    : Nat
  out    : Bool
  fmt    : BitVec 3
  b8     : BitVec 5
  rank   : Nat
  retain : Bool
  rowtag : Option Nat
  /-- The input port that carries its shape word: node and number (R156). -/
  shape  : Option (Nat × Nat)
  multi  : Bool
  deriving DecidableEq, Repr

structure GNode where
  id    : List Byte
  kind  : Nat
  /-- Marked volatile, or volatile by what it contains (R146). -/
  vol   : Bool
  vcl   : Nat
  core  : Nat
  lane  : Nat
  ports : List GPort
  base  : Word
  dwait : BitVec 16
  /-- The lane word of a lane node, and the switch words of the node's routes. -/
  word  : W32
  sw    : List (BitVec 16)
  /-- The task-table entries of a task node: slot and entry (R271). -/
  tasks : List (Nat × BitVec 128)
  deriving DecidableEq, Repr

structure GEdge where
  src   : Nat
  sport : Nat
  dst   : Nat
  dport : Nat
  ctl   : Bool
  deriving DecidableEq, Repr

structure GGraph where
  nodes : List GNode
  edges : List GEdge
  deriving DecidableEq, Repr

structure Object where
  id     : Nat
  part   : Nat
  sects  : List Section
  graphs : List GGraph
  /-- Launch graphs: the address of each `.lgraph` section and its nodes. -/
  lgs    : List (Word × List Node)
  /-- Source objects in binding order: graph, node, port (R284). -/
  names  : List (Nat × Nat × Nat)
  /-- The file, and the sections that are not yet written, while its loading has not completed (R287). -/
  file    : List Byte := []
  pending : List Section := []
  deriving DecidableEq, Repr

/-! ## The base die -/

/-- A Swihowen Link or die-link port (R247, R253, R254). -/
structure Link where
  tries   : Nat := 0
  failed  : Bool := false
  session : Nat := 0
  key     : List Byte := []
  /-- Flits of the session: the next one's sequence number. -/
  flits   : Nat := 0
  /-- Tokens that another device has sent and no circuit has taken. -/
  rx      : List Token := []
  deriving DecidableEq, Repr

/-- The per-die error counters that management reads (R230, R246, R261). -/
structure Errors where
  corrected : Nat := 0
  dropped   : Nat := 0
  refused   : Nat := 0
  deriving DecidableEq, Repr

/-- A save area that the device has written (R240): partition, physical base, bytes, the addresses that software has
written since, and whether the partition has not resumed from it. -/
structure SaveArea where
  id      : Nat
  part    : Nat
  base    : Nat
  size    : Nat
  written : List Nat := []
  live    : Bool := true
  deriving DecidableEq, Repr

/-- A Chronograph snapshot of one source (R248). -/
structure Snapshot where
  t     : Nat
  src   : Nat
  busy  : Bool
  stall : Bool
  count : Nat
  deriving DecidableEq, Repr

/-- What the device has sent to the host (R190, R228, R249, R258, R261). -/
inductive HostMsg where
  | msix (vector : Nat)
  | read (bytes : List Byte) (ep : Bool)
  | spdm (bytes : List Byte)
  | temperatures (die : Nat) (t : List Int)
  | errors (die : Nat) (e : Errors)
  | snapshots (l : List Snapshot)
  | refused (what : Nat)
  | loadError (check index : Nat)
  | flit (link : Nat) (bytes : List Byte)
  | nameCounts (part : Nat) (k : NameCounts)
  | dups (part : Nat) (n : Nat)
  deriving DecidableEq, Repr

/-- The whole machine. -/
structure State where
  -- The model's own scheduling data (notes/assumptions/1.md, 2.md, 9.md)
  agenda   : List Turn := []
  seat     : Seat := {}
  opSeq    : Nat := 1
  free     : Nat := 0
  cycle    : Nat := 0
  -- Memory and its line and unit states
  mem      : Memory := []
  empty    : Tbl Bool := []
  badLine  : Tbl Bool := []
  readers  : Tbl Nat := []
  badUnit  : Tbl Bool := []
  badHost  : Tbl Bool := []
  /-- The key under which a unit of memory is encrypted, where a partition's key has been used (R255). -/
  unitKey  : Tbl (List Byte) := []
  saves    : List SaveArea := []
  /-- The lines that the hardware has filled in a cycle, and that cycle (R364). -/
  filled   : List Nat := []
  filledAt : Nat := 0
  -- The compute dies
  cores    : Tbl Core := []
  clusters : Tbl Cluster := []
  tlb      : List Tlb := []
  waiters  : List (Nat × Waiter) := []
  subs     : List Sub := []
  circuits : List Circuit := []
  reds     : List Reduction := []
  caches   : List (Nat × Nat × BitVec 128) := []
  holds    : List (Nat × Nat × BitVec 128) := []
  -- The base die
  dial     : Nat := 0
  queues   : Tbl Queue := []
  grant    : Option Grant := none
  lastPass : Option (BitVec 64) := none
  jobs     : Tbl Job := []
  graphs   : Tbl Graph := []
  launches : Tbl Launch := []
  cancels  : List (Nat × Nat) := []
  serial   : Nat := 1
  fresh    : Nat := 1
  parts    : Tbl Part := []
  objects  : List Object := []
  loads    : Nat := 0
  replicas : Tbl Replica := []
  copies   : List CopyJob := []
  fwq      : FaultQ := {}
  bstate   : BitVec 4 := 0
  berr     : BitVec 8 := 0
  blen     : W32 := 0
  meas     : List Byte := []
  chronT   : Option Nat := none
  chronTrg : Option Nat := none
  snaps    : List Snapshot := []
  power    : Nat := 2400
  overPow  : Bool := false
  /-- Milliseconds over which the power has been averaged (R262). -/
  powerMs  : Nat := 0
  errors   : Tbl Errors := []
  links    : Tbl Link := []
  /-- The device's domain number (R253), the host port's IDE key (R249), and the bytes of CXL memory that the
  firmware has enumerated (R251). -/
  domain   : Nat := 0
  ideKey   : List Byte := []
  cxl      : Nat := 0
  /-- Refills done (R202); the Dial of the last share recomputation, if any (R203). -/
  refill   : Nat := 0
  shareAt  : Option Nat := none
  hostOut  : List HostMsg := []
  deriving DecidableEq, Repr

/-- The machine right after reset: `bstat` state 0, nothing running, every register at the value
the spec gives or that notes/assumptions/4.md names, memory with nothing listed. -/
def State.reset : State := {}

/-- The outcome of a meaning. -/
abbrev Result := Host.Outcome State Fault Refusal

end Sys2Proof.Machine
end

