-- ==== Sys2Proof/Machine/Table.lean ====
section
/-!
DEFINITION. Sparse tables and memory: reading, writing, and the canonical form that every write keeps.
-/

namespace Sys2Proof.Machine

variable {α : Type}

/-- The value at a key, `d` where the table lists none. -/
def Tbl.get (d : α) : Tbl α → Nat → α
  | [], _ => d
  | (j, v) :: r, k => if j = k then v else Tbl.get d r k

/-- List a value at a key, keys kept rising. -/
def Tbl.put : Tbl α → Nat → α → Tbl α
  | [], k, v => [(k, v)]
  | (j, w) :: r, k, v =>
    if k < j then (k, v) :: (j, w) :: r
    else if k = j then (k, v) :: r
    else (j, w) :: Tbl.put r k v

/-- List nothing at a key. -/
def Tbl.drop (t : Tbl α) (k : Nat) : Tbl α := t.filter (fun x => x.1 != k)

/-- Write a key, listing no default value. -/
def Tbl.set [DecidableEq α] (d : α) (t : Tbl α) (k : Nat) (v : α) : Tbl α :=
  if v = d then t.drop k else t.put k v

/-- The canonical form: keys rising, no default value listed. -/
abbrev Tbl.wf [DecidableEq α] (d : α) (t : Tbl α) : Prop :=
  t.Pairwise (fun x y => x.1 < y.1) ∧ ∀ x ∈ t, x.2 ≠ d

/-- The value at a key, if one is listed. -/
def Tbl.find : Tbl α → Nat → Option α
  | [], _ => none
  | (j, v) :: r, k => if j = k then some v else Tbl.find r k

/-- What a byte that memory does not list reads as (notes/assumptions/5.md). -/
def Memory.blank : Byte := 0

/-- One byte of memory. -/
def Memory.read (m : Memory) (a : Nat) : Byte := Tbl.get Memory.blank m a

/-- Write one byte of memory. -/
def Memory.write (m : Memory) (a : Nat) (b : Byte) : Memory := Tbl.set Memory.blank m a b

/-- Write bytes at rising addresses. -/
def Memory.writes (m : Memory) (a : Nat) : List Byte → Memory
  | [] => m
  | b :: r => Memory.writes (m.write a b) (a + 1) r

/-- Read `n` bytes at rising addresses. -/
def Memory.reads (m : Memory) (a : Nat) : Nat → List Byte
  | 0 => []
  | n + 1 => m.read a :: Memory.reads m (a + 1) n

/-- Memory's canonical form. -/
abbrev Memory.wf (m : Memory) : Prop := Tbl.wf Memory.blank m

/-- Little-endian bytes as a number (R2). -/
def leNat : List Byte → Nat
  | [] => 0
  | b :: r => b.toNat + 256 * leNat r

/-- The `n` little-endian bytes of a number (R2). -/
def leBytes (v : Nat) : Nat → List Byte
  | 0 => []
  | n + 1 => BitVec.ofNat 8 v :: leBytes (v / 256) n

/-- Replace the element at an index. -/
def putAt (l : List α) (i : Nat) (v : α) : List α := l.set i v

/-- Remove the element at an index. -/
def dropAt (l : List α) (i : Nat) : List α := l.take i ++ l.drop (i + 1)

/-- Split a list of bytes into pieces of `n`. -/
def chunks (n : Nat) : Nat → List α → List (List α)
  | 0, _ => []
  | f + 1, l => if l.isEmpty then [] else l.take n :: chunks n f (l.drop n)

end Sys2Proof.Machine
end

