-- ==== Sys2Proof/Machine/Crypto.lean ====
section
/-!
DEFINITION. SHA-256 and HMAC (R143, R144, R259), GHASH (R157), AES-256 with XTS and GCM (R254, R255), and
ECDSA P-256 signatures (R256, R258, R260, R285).
-/

namespace Sys2Proof.Machine

/-- Big-endian bytes as a number. -/
def beNat (l : List Byte) : Nat := l.foldl (fun n b => n * 256 + b.toNat) 0

/-- The `n` big-endian bytes of a number. -/
def beBytes (v n : Nat) : List Byte := (leBytes v n).reverse

/-! ## SHA-256 -/

/-- The prime numbers below 312: the first 64. -/
def smallPrimes : List Nat :=
  (List.range 312).filter (fun n => 2 ≤ n && ((List.range n).drop 2).all (fun d => n % d != 0))

/-- The greatest x with x^k ≤ n, bit by bit from bit `b`. -/
def rootFrom (k n : Nat) : Nat → Nat → Nat
  | 0, x => x
  | b + 1, x => rootFrom k n b (if (x + 2 ^ b) ^ k ≤ n then x + 2 ^ b else x)

/-- The first 32 bits of the fractional part of the k-th root of a prime. -/
def rootBits (k p : Nat) : W32 := BitVec.ofNat 32 (rootFrom k (p * 2 ^ (32 * k)) 40 0)

/-- The 64 round constants, from cube roots; the initial digest, from square roots. -/
def roundConst : List W32 := smallPrimes.map (rootBits 3)
def digest0 : List W32 := (smallPrimes.take 8).map (rootBits 2)

/-- The exclusive or of a word turned right by two amounts with a third word. -/
def turns (x : W32) (i j : Nat) (y : W32) : W32 := x.rotateRight i ^^^ x.rotateRight j ^^^ y

/-- The message schedule as a queue of sixteen words: the word that comes next, and the queue after it. -/
def scheduleStep (q : List W32) : List W32 :=
  let at_ (i : Nat) : W32 := (q[i]?).getD 0
  q.tail ++ [at_ 0 + at_ 9 + turns (at_ 1) 7 18 (at_ 1 >>> 3) + turns (at_ 14) 17 19 (at_ 14 >>> 10)]

/-- The working digest after a round with a constant, and the schedule's queue. -/
def digestRound (x : List W32 × List W32) (k : W32) : List W32 × List W32 :=
  let v (i : Nat) : W32 := (x.1[i]?).getD 0
  let choice := v 6 ^^^ (v 4 &&& (v 5 ^^^ v 6))
  let majority := (v 0 &&& (v 1 ||| v 2)) ||| (v 1 &&& v 2)
  let add := v 7 + turns (v 4) 6 11 ((v 4).rotateRight 25) + choice + k + x.2.headD 0
  let top := add + turns (v 0) 2 13 ((v 0).rotateRight 22) + majority
  (top :: (x.1.take 3 ++ [v 3 + add] ++ (x.1.drop 4).take 3), scheduleStep x.2)

/-- The digest after a block of sixteen words. -/
def digestBlock (h : List W32) (block : List Byte) : List W32 :=
  let words := (chunks 4 16 block).map (fun w => BitVec.ofNat 32 (beNat w))
  List.zipWith (· + ·) h (roundConst.foldl digestRound (h, words)).1

/-- A message followed by 0x80, zeros and its length in bits, in whole blocks. -/
def padded (m : List Byte) : List Byte :=
  m ++ 0x80 :: List.replicate ((119 - m.length % 64) % 64) 0 ++ beBytes (8 * m.length) 8

/-- The SHA-256 digest, 32 bytes. -/
def sha256 (m : List Byte) : List Byte :=
  let blocks := chunks 64 ((m.length + 72) / 64) (padded m)
  (blocks.foldl digestBlock digest0).flatMap (fun w => beBytes w.toNat 4)

/-- HMAC-SHA-256. -/
def hmac (key m : List Byte) : List Byte :=
  let k := if 64 < key.length then sha256 key else key
  let k := k ++ List.replicate (64 - k.length) 0
  sha256 (k.map (· ^^^ 0x5c) ++ sha256 (k.map (· ^^^ 0x36) ++ m))

/-! ## GHASH -/

/-- The product of GCM's field; a block's first byte is its most significant. -/
def gfStep (x : BitVec 128) (a : BitVec 128 × BitVec 128) (i : Nat) : BitVec 128 × BitVec 128 :=
  let z := if x.getLsbD (127 - i) then a.1 ^^^ a.2 else a.1
  let v := a.2
  (z, if v.getLsbD 0 then (v >>> 1) ^^^ (0xE1 : BitVec 128) <<< 120 else v >>> 1)

def gfMul (x y : BitVec 128) : BitVec 128 := ((List.range 128).foldl (gfStep x) (0, y)).1

/-- The 16 bytes of a name or fingerprint, byte 0 in [7:0] (R159), and back. -/
def bytes128 (v : BitVec 128) : List Byte := leBytes v.toNat 16
def of128 (l : List Byte) : BitVec 128 := BitVec.ofNat 128 (leNat (l.take 16))

/-- GHASH over whole blocks. -/
def ghashBlocks (h : BitVec 128) (m : List Byte) : BitVec 128 :=
  (chunks 16 (m.length / 16) m).foldl (fun y b => gfMul (y ^^^ BitVec.ofNat 128 (beNat b)) h) 0

/-- The fingerprint of R157 step 3. -/
def fingerprint (key : BitVec 128) (m : List Byte) : BitVec 128 :=
  let h := BitVec.ofNat 128 (beNat (bytes128 key))
  let p := m ++ List.replicate ((16 - m.length % 16) % 16) 0 ++ List.replicate 8 0 ++ beBytes (8 * m.length) 8
  of128 (beBytes (ghashBlocks h p).toNat 16)

/-! ## AES-256, with XTS (R255) and GCM (R254) -/

/-- The product in AES's field. -/
def byteMul (a b : Byte) : Byte :=
  ((List.range 8).foldl (fun (x : Byte × Byte) i =>
    (if b.getLsbD i then x.1 ^^^ x.2 else x.1, (x.2 <<< 1) ^^^ (if x.2.getLsbD 7 then 0x1b else 0))) (0, a)).1

/-- The inverse in AES's field: the 254th power. -/
def byteInv (a : Byte) : Byte :=
  ((List.range 7).foldl (fun (x : Byte × Byte) _ => (byteMul x.1 (byteMul x.2 x.2), byteMul x.2 x.2)) (1, a)).1

/-- The substitution of a byte, as a table. -/
def substTable : List Byte := (List.range 256).map (fun n =>
  let i := byteInv (BitVec.ofNat 8 n)
  (List.range 4).foldl (fun x k => x ^^^ i.rotateLeft (k + 1)) (i ^^^ 0x63))

def substByte (b : Byte) : Byte := (substTable[b.toNat]?).getD 0
def unsubstByte (b : Byte) : Byte := BitVec.ofNat 8 (substTable.idxOf b)

def xorBytes (a b : List Byte) : List Byte := List.zipWith (· ^^^ ·) a b

/-- One more word of the key schedule, eight words to a key. -/
def keyStep (w : List (List Byte)) (i : Nat) : List (List Byte) :=
  let prev := (w[i - 1]?).getD []
  let turned := ((prev.drop 1) ++ prev.take 1).map substByte
  let f := if i % 8 = 0 then xorBytes turned [BitVec.ofNat 8 (2 ^ (i / 8 - 1)), 0, 0, 0]
    else if i % 8 = 4 then prev.map substByte else prev
  w ++ [xorBytes ((w[i - 8]?).getD []) f]

/-- The fifteen round keys of a 32-byte key. -/
def roundKeys (key : List Byte) : List (List Byte) :=
  let w := ((List.range 52).map (· + 8)).foldl keyStep (chunks 4 8 key)
  (chunks 4 15 w).map List.flatten

/-- Turn row r of the state by r columns, to the left or back. -/
def turnRows (back : Bool) (t : List Byte) : List Byte :=
  (List.range 16).map (fun i =>
    let r := i % 4
    (t[r + 4 * ((i / 4 + (if back then 4 - r else r)) % 4)]?).getD 0)

/-- Multiply each column by a circulant matrix. -/
def mixColumns (m : List Byte) (t : List Byte) : List Byte :=
  (List.range 16).map (fun i =>
    (List.range 4).foldl (fun x j =>
      x ^^^ byteMul ((m[(j + 4 - i % 4) % 4]?).getD 0) ((t[i / 4 * 4 + j]?).getD 0)) 0)

/-- Encrypt and decrypt one block under round keys. -/
def aesEnc (ks : List (List Byte)) (b : List Byte) : List Byte :=
  let last := (ks[14]?).getD []
  let x := ((ks.drop 1).take 13).foldl
    (fun t k => xorBytes (mixColumns [2, 3, 1, 1] (turnRows false (t.map substByte))) k) (xorBytes b (ks.headD []))
  xorBytes (turnRows false (x.map substByte)) last

def aesDec (ks : List (List Byte)) (b : List Byte) : List Byte :=
  let x := (turnRows true (xorBytes b ((ks[14]?).getD []))).map unsubstByte
  let y := (((ks.drop 1).take 13).reverse).foldl
    (fun t k => (turnRows true (mixColumns [14, 11, 13, 9] (xorBytes t k))).map unsubstByte) x
  xorBytes y (ks.headD [])

/-- The tweaks of a unit's four blocks: the unit's number encrypted, doubled from block to block. -/
def xtsTweaks (ks : List (List Byte)) (unit : Nat) : List (List Byte) :=
  let t : BitVec 128 := BitVec.ofNat 128 (leNat (aesEnc ks (leBytes unit 16)))
  ((List.range 4).foldl (fun (x : List (List Byte) × BitVec 128) _ =>
    (x.1 ++ [leBytes x.2.toNat 16], (x.2 <<< 1) ^^^ (if x.2.getLsbD 127 then 0x87 else 0))) ([], t)).1

/-- AES-256-XTS on a 64-byte unit: the key's halves encrypt the data and the tweak (R255). -/
def xts (dec : Bool) (key : List Byte) (unit : Nat) (data : List Byte) : List Byte :=
  let ks := roundKeys (key.take 32)
  let tw := xtsTweaks (roundKeys ((key.drop 32).take 32)) unit
  (List.zipWith (fun t b =>
    xorBytes ((if dec then aesDec else aesEnc) ks (xorBytes b t)) t) tw (chunks 16 4 data)).flatten

/-- AES-256-GCM with a 12-byte nonce and no additional data: ciphertext, then the tag (R254). -/
def aesGcm (key nonce data : List Byte) : List Byte :=
  let ks := roundKeys key
  let pad (n : Nat) : List Byte := aesEnc ks (nonce ++ beBytes n 4)
  let c := ((chunks 16 ((data.length + 15) / 16) data).zipIdx.map (fun x => xorBytes x.1 (pad (x.2 + 2)))).flatten
  let h := BitVec.ofNat 128 (beNat (aesEnc ks (List.replicate 16 0)))
  let m := c ++ List.replicate ((16 - c.length % 16) % 16) 0 ++ List.replicate 8 0 ++ beBytes (8 * c.length) 8
  c ++ xorBytes (beBytes (ghashBlocks h m).toNat 16) (pad 1)

/-! ## ECDSA over P-256 -/

def p256 : Nat := 0xffffffff00000001000000000000000000000000ffffffffffffffffffffffff
def p256B : Nat := 0x5ac635d8aa3a93e7b3ebbd55769886bc651d06b0cc53b0f63bce3c3e27d2604b
def p256N : Nat := 0xffffffff00000000ffffffffffffffffbce6faada7179e84f3b9cac2fc632551
def p256G : Nat × Nat :=
  (0x6b17d1f2e12c4247f8bce6e563a440f277037d812deb33a0f4a13945d898c296,
   0x4fe342e2fe1a7f9b8ee7eb4a7c0f9e162bce33576b315ececbb6406837bf51f5)

/-- b^e mod m over the `n` low bits of e. -/
def powMod (m : Nat) : Nat → Nat → Nat → Nat
  | 0, _, _ => 1 % m
  | n + 1, b, e =>
    let r := powMod m n (b * b % m) (e / 2)
    if e % 2 = 1 then r * b % m else r

/-- The inverse modulo a prime. -/
def invMod (m a : Nat) : Nat := powMod m 256 (a % m) (m - 2)

/-- Points of the curve; `none` is the point at infinity. -/
def ecAdd (p q : Option (Nat × Nat)) : Option (Nat × Nat) :=
  match p, q with
  | none, q => q
  | p, none => p
  | some (x1, y1), some (x2, y2) =>
    if x1 = x2 ∧ (y1 + y2) % p256 = 0 then none
    else
      let l := if x1 = x2 then (3 * x1 * x1 + p256 - 3) * invMod p256 (2 * y1) % p256
        else (y2 + p256 - y1) * invMod p256 (x2 + p256 - x1) % p256
      let x := (l * l + 2 * p256 - x1 - x2) % p256
      some (x, (l * (x1 + p256 - x) + p256 - y1) % p256)

/-- k·P over the `n` low bits of k. -/
def ecMul : Nat → Nat → Option (Nat × Nat) → Option (Nat × Nat)
  | 0, _, _ => none
  | n + 1, k, p =>
    let r := ecMul n (k / 2) (ecAdd p p)
    if k % 2 = 1 then ecAdd p r else r

/-- The coordinates of a public key X ‖ Y, on the curve. -/
def keyPoint (key : List Byte) : Option (Nat × Nat) :=
  let x := beNat (key.take 32)
  let y := beNat (key.drop 32)
  if key.length = 64 ∧ x < p256 ∧ y < p256 ∧ (y * y + 3 * x) % p256 = (x * x * x + p256B) % p256 then some (x, y)
  else none

/-- Is r ‖ s a signature, over a 32-byte digest, under the public key X ‖ Y? -/
def ecdsaVerify (key sig digest : List Byte) : Bool :=
  let r := beNat (sig.take 32)
  let s := beNat (sig.drop 32)
  match keyPoint key with
  | none => false
  | some q =>
    if sig.length ≠ 64 ∨ r = 0 ∨ p256N ≤ r ∨ s = 0 ∨ p256N ≤ s then false
    else
      let w := invMod p256N s
      match ecAdd (ecMul 256 (beNat digest * w % p256N) (some p256G)) (ecMul 256 (r * w % p256N) (some q)) with
      | some (qx, _) => qx % p256N == r
      | none => false

/-- The public key of a private one. -/
def publicKey (d : Nat) : List Byte :=
  match ecMul 256 d (some p256G) with
  | some (x, y) => beBytes x 32 ++ beBytes y 32
  | none => []

/-- The signature r ‖ s of a digest under a private key, with the first of some nonces for which neither is
zero. -/
def ecdsaSign (d : Nat) (digest : List Byte) : List Nat → List Byte
  | [] => []
  | k :: ks =>
    let r := match ecMul 256 k (some p256G) with
      | some (x, _) => x % p256N
      | none => 0
    let s := invMod p256N k * (beNat digest + r * d) % p256N
    if r = 0 ∨ s = 0 then ecdsaSign d digest ks else beBytes r 32 ++ beBytes s 32

end Sys2Proof.Machine
end

