-- ==== Sys2Proof/Machine/Flags.lean ====
section
/-!
DEFINITION. Number formats, exact arithmetic and the status flags (R24-R48): every value is exact
until one rounding, and every rounding says which flags it raises.
-/

namespace Sys2Proof.Machine

/-! ## Flags (R47, R48) -/

/-- Status flags: nv in bit 4, dz 3, of 2, uf 1, nx 0 (R48). -/
abbrev Flags := BitVec 5
def flNV : Flags := 0x10
def flDZ : Flags := 0x08
def flOF : Flags := 0x04
def flUF : Flags := 0x02
def flNX : Flags := 0x01
def flagIf (b : Bool) (f : Flags) : Flags := if b then f else 0

/-! ## Values -/

/-- A real, an infinity or a NaN: finite values are ±m·2^e, exactly. -/
inductive Fl where
  | nan (signalling : Bool)
  | inf (neg : Bool)
  | fin (neg : Bool) (m : Nat) (e : Int)
  deriving DecidableEq, Repr

/-- Rounding modes (R46), in code order. -/
inductive Mode where
  | rne | rtz | rdn | rup
  deriving DecidableEq, Repr

def Mode.ofCode (c : BitVec 2) : Mode :=
  if c = 0 then .rne else if c = 1 then .rtz else if c = 2 then .rdn else .rup

/-- The number of bits of m. -/
def bitLen (m : Nat) : Nat := if m = 0 then 0 else Nat.log2 m + 1

/-- Does the exact value ±(q + part of an ulp) round away from q? `lo`, `tie`, `hi` say where the
discarded part lies against half an ulp. -/
def roundUp (mode : Mode) (neg : Bool) (inexact above tie tieUp : Bool) : Bool :=
  match mode with
  | .rne => above || (tie && tieUp)
  | .rtz => false
  | .rdn => inexact && neg
  | .rup => inexact && !neg

/-- A positive number m·2^e, plus something below one unit of m when `sticky`, rounded to `p`
significant bits with no bit below 2^emin: the integer, its exponent, and whether it is inexact.
`p1` is the tie rule of R32 for P = 1. -/
def roundPos (mode : Mode) (neg p1 : Bool) (p : Nat) (emin : Int) (m : Nat) (e : Int) (sticky : Bool) :
    Nat × Int × Bool :=
  let lsb := max (e + bitLen m - p) emin
  let sh := lsb - e
  if sh ≤ 0 then (m * 2 ^ (-sh).toNat, lsb, sticky)
  else
    let k := sh.toNat
    let q := m / 2 ^ k
    let r := m % 2 ^ k
    let half := 2 ^ (k - 1)
    let inexact := r != 0 || sticky
    let above := r > half || (r == half && sticky)
    let tie := r == half && !sticky
    let tieUp := if p1 && q == 1 then (lsb - emin) % 2 == 0 else q % 2 == 1
    (q + (if roundUp mode neg inexact above tie tieUp then 1 else 0), lsb, inexact)

/-! ## IEEE formats (R26) -/

/-- Exponent and fraction widths. -/
structure Fmt where
  eb : Nat
  fb : Nat
  deriving DecidableEq, Repr

def fp32 : Fmt := ⟨8, 23⟩
def fp16 : Fmt := ⟨5, 10⟩
def bf16 : Fmt := ⟨8, 7⟩

def Fmt.bias (f : Fmt) : Nat := 2 ^ (f.eb - 1) - 1
def Fmt.signBit (f : Fmt) (neg : Bool) : Nat := if neg then 2 ^ (f.eb + f.fb) else 0
def Fmt.qnan (f : Fmt) : Nat := (2 ^ f.eb - 1) * 2 ^ f.fb + 2 ^ (f.fb - 1)
def Fmt.infinity (f : Fmt) (neg : Bool) : Nat := f.signBit neg + (2 ^ f.eb - 1) * 2 ^ f.fb

/-- The value of a code. -/
def Fmt.decode (f : Fmt) (code : Nat) : Fl :=
  let neg := code / 2 ^ (f.eb + f.fb) % 2 == 1
  let ex := code / 2 ^ f.fb % 2 ^ f.eb
  let fr := code % 2 ^ f.fb
  if ex == 2 ^ f.eb - 1 then
    if fr == 0 then .inf neg else .nan (fr < 2 ^ (f.fb - 1))
  else if ex == 0 then .fin neg fr (1 - f.bias - f.fb)
  else .fin neg (fr + 2 ^ f.fb) ((ex : Int) - f.bias - f.fb)

/-- The IEEE overflow rule: an infinity or the largest finite value (R46). -/
def overflowsToInf (mode : Mode) (neg : Bool) : Bool :=
  match mode with
  | .rne => true | .rtz => false | .rdn => neg | .rup => !neg

/-- The code nearest ±(m·2^e, sticky), and the flags of the rounding (R45-R47). -/
def Fmt.round (f : Fmt) (mode : Mode) (neg : Bool) (m : Nat) (e : Int) (sticky : Bool) : Nat × Flags :=
  if m == 0 && !sticky then (f.signBit neg, 0)
  else
    let emin : Int := 1 - f.bias - f.fb
    let (q, lsb, inexact) := roundPos mode neg false (f.fb + 1) emin m e sticky
    let tiny := e + bitLen m ≤ 1 - f.bias
    let code := if lsb == emin then q else ((lsb - emin).toNat) * 2 ^ f.fb + q
    if code ≥ (2 ^ f.eb - 1) * 2 ^ f.fb then
      (if overflowsToInf mode neg then f.infinity neg else f.infinity neg - 1, flOF ||| flNX)
    else (f.signBit neg + code, flagIf (inexact && tiny) flUF ||| flagIf inexact flNX)

/-- Encode a value (R27, R45): a NaN is the default quiet NaN. -/
def Fmt.encode (f : Fmt) (mode : Mode) (x : Fl) : Nat × Flags :=
  match x with
  | .nan _ => (f.qnan, 0)
  | .inf n => (f.infinity n, 0)
  | .fin n m e => f.round mode n m e false

/-! ## binary8pP (R28-R32) -/

/-- A b8pP variant: precision, natural, with infinities. -/
structure B8 where
  p   : Nat
  nat : Bool
  inf : Bool
  deriving DecidableEq, Repr

/-- The variant that imm12[4:0] names (R79). -/
def B8.ofImm (v : BitVec 12) : B8 := ⟨(v.extractLsb' 0 3).toNat, v.getLsbD 3, v.getLsbD 4⟩

def B8.bias (f : B8) : Nat := 2 ^ ((if f.nat then 9 - f.p else 8 - f.p) - 1)
def B8.nanCode (f : B8) : Nat := if f.nat then 0xFF else 0x80
def B8.infCode (f : B8) (neg : Bool) : Nat := if f.nat then 0xFE else if neg then 0xFF else 0x7F
/-- The code of the largest finite magnitude (R29). -/
def B8.maxCode (f : B8) : Nat :=
  (if f.nat then 0xFE else 0x7F) - (if f.inf then 1 else 0)
def B8.emin (f : B8) : Int := 1 - f.bias - (f.p - 1)

/-- The value of a code. -/
def B8.decode (f : B8) (code : Nat) : Fl :=
  if code == f.nanCode then .nan false
  else if f.inf && code == f.infCode false then .inf false
  else if f.inf && !f.nat && code == 0xFF then .inf true
  else
    let neg := !f.nat && code / 128 == 1
    let mag := if f.nat then code else code % 128
    let ex := mag / 2 ^ (f.p - 1)
    let t := mag % 2 ^ (f.p - 1)
    if ex == 0 then .fin neg t f.emin
    else .fin neg (t + 2 ^ (f.p - 1)) (f.emin + (ex - 1 : Nat))

/-- Encode a value (R32). `sat`: an overflow takes the largest finite value in `i` variants too
(R36). A result that differs from the exact value sets NX (R47), so an infinity that becomes the largest
finite value and a negative value that becomes 0x00 set it (notes/assumptions/76.md). -/
def B8.encode (f : B8) (mode : Mode) (sat : Bool) (x : Fl) : Nat × Flags :=
  let sgn (neg : Bool) (c : Nat) := if neg && c != 0 then c + 128 else c
  match x with
  | .nan _ => (f.nanCode, 0)
  | .inf neg =>
    if f.nat && neg then (0, flNV ||| flNX)
    else if f.inf then (f.infCode neg, 0)
    else (sgn neg f.maxCode, flNX)
  | .fin neg m e =>
    if m == 0 then (0, 0)
    else
      let (q, lsb, inexact) := roundPos mode neg (f.p == 1) f.p f.emin m e false
      let tiny := e + bitLen m ≤ f.emin + (f.p - 1 : Nat)
      let code := if f.p == 1 then (if q == 0 then 0 else (lsb - f.emin).toNat + q)
        else if lsb == f.emin then q else (lsb - f.emin).toNat * 2 ^ (f.p - 1) + q
      let fl := flagIf (inexact && tiny) flUF ||| flagIf inexact flNX
      if code == 0 then (0, fl)
      else if f.nat && neg then (0, flNV ||| flNX)
      else if code > f.maxCode then
        (if f.inf && !sat && overflowsToInf mode neg then f.infCode neg else sgn neg f.maxCode,
          flOF ||| flNX)
      else (sgn neg code, fl)

/-! ## Exact arithmetic -/

/-- NV for a signalling operand (R27). -/
def Fl.sig : Fl → Flags
  | .nan true => flNV
  | _ => 0

def Fl.isNaN : Fl → Bool
  | .nan _ => true
  | _ => false

def Fl.neg : Fl → Fl
  | .nan s => .nan s
  | .inf n => .inf (!n)
  | .fin n m e => .fin (!n) m e

/-- A signed dyadic number as an integer at exponent `e0`, which is at most `e`. -/
def scaled (neg : Bool) (m : Nat) (e e0 : Int) : Int :=
  let v : Int := m * 2 ^ (e - e0).toNat
  if neg then -v else v

/-- A + B exactly; the sign of a zero as IEEE addition under RNE gives it (R45). -/
def Fl.add (a b : Fl) : Fl × Flags :=
  let s := a.sig ||| b.sig
  match a, b with
  | .nan _, _ => (.nan false, s)
  | _, .nan _ => (.nan false, s)
  | .inf x, .inf y => if x == y then (.inf x, s) else (.nan false, s ||| flNV)
  | .inf x, _ => (.inf x, s)
  | _, .inf y => (.inf y, s)
  | .fin x m e, .fin y n f =>
    if m == 0 && n == 0 then (.fin (x && y) 0 e, s)
    else
      let e0 := min e f
      let v := scaled x m e e0 + scaled y n f e0
      (.fin (v < 0) v.natAbs e0, s)

/-- A · B exactly. -/
def Fl.mul (a b : Fl) : Fl × Flags :=
  let s := a.sig ||| b.sig
  match a, b with
  | .nan _, _ => (.nan false, s)
  | _, .nan _ => (.nan false, s)
  | .inf x, .inf y => (.inf (x != y), s)
  | .inf x, .fin y n _ => if n == 0 then (.nan false, s ||| flNV) else (.inf (x != y), s)
  | .fin x m _, .inf y => if m == 0 then (.nan false, s ||| flNV) else (.inf (x != y), s)
  | .fin x m e, .fin y n f => (.fin (x != y) (m * n) (e + f), s)

/-- A · B + C exactly (R45). -/
def Fl.fma (a b c : Fl) : Fl × Flags :=
  let p := a.mul b
  let r := p.1.add c
  (r.1, p.2 ||| r.2)

/-- −1, 0 or 1: A against B, neither a NaN. `zeros`: −0 lies below +0 (R346). -/
def Fl.cmp (zeros : Bool) (a b : Fl) : Int :=
  match a, b with
  | .inf x, .inf y => if x == y then 0 else if x then -1 else 1
  | .inf x, _ => if x then -1 else 1
  | _, .inf y => if y then 1 else -1
  | .fin x m e, .fin y n f =>
    let e0 := min e f
    let v := scaled x m e e0 - scaled y n f e0
    if v < 0 then -1 else if v > 0 then 1
    else if zeros && x != y then (if x then -1 else 1) else 0
  | _, _ => 0

/-- The lesser or greater operand (R346). -/
def Fl.minmax (max : Bool) (a b : Fl) : Fl × Flags :=
  let s := a.sig ||| b.sig
  match a.isNaN, b.isNaN with
  | true, true => (.nan false, s)
  | true, false => (b, s)
  | false, true => (a, s)
  | false, false => (if (a.cmp true b ≤ 0) == max then b else a, s)

/-- The integer nearest a finite value in a mode, and whether it is inexact (R46). -/
def toInt (mode : Mode) (neg : Bool) (m : Nat) (e : Int) : Int × Bool :=
  let (q, lsb, inexact) := roundPos mode neg false 4096 0 m e false
  let v : Int := q * 2 ^ lsb.toNat
  (if neg then -v else v, inexact)

/-- A value into an integer format of width w (R46). -/
def intOf (mode : Mode) (signed : Bool) (w : Nat) (x : Fl) : Nat × Flags :=
  let lo : Int := if signed then -(2 ^ (w - 1) : Nat) else 0
  let hi : Int := if signed then (2 ^ (w - 1) : Nat) - 1 else (2 ^ w : Nat) - 1
  let code (v : Int) : Nat := (v % (2 ^ w : Nat)).toNat
  match x with
  | .nan _ => (0, flNV)
  | .inf n => (code (if n then lo else hi), flNV)
  | .fin n m e =>
    let (v, inexact) := toInt mode n m e
    if v < lo then (code lo, flNV) else if v > hi then (code hi, flNV)
    else (code v, flagIf inexact flNX)

/-- An integer code read in its format (R24). -/
def intVal (signed : Bool) (w : Nat) (c : Nat) : Int :=
  let v := c % 2 ^ w
  if signed && v ≥ 2 ^ (w - 1) then (v : Int) - (2 ^ w : Nat) else v

def Fl.ofInt (v : Int) : Fl := .fin (v < 0) v.natAbs 0

/-! ## Transcendentals (R43) -/

/-- Fraction bits of the fixed-point work. Every result that is not exact is irrational and lies
further than 2^−200 from a rounding boundary of FP32. -/
def fixW : Nat := 224

/-- Σ z^(2k+1)/(2k+1) for a fixed-point z, `n` terms: the area hyperbolic tangent. -/
def atanhSum (zz : Nat) : Nat → Nat → Nat → Nat
  | 0, _, _ => 0
  | n + 1, t, k => t / (2 * k + 1) + atanhSum zz n (t * zz / 2 ^ fixW) (k + 1)

/-- ln 2 in fixed point. -/
def ln2Fix : Nat :=
  let z := 2 ^ fixW / 3
  2 * atanhSum (z * z / 2 ^ fixW) 80 z 0

/-- Σ y^k/k! for a fixed-point y, `n` terms. -/
def expSum (y : Nat) : Nat → Nat → Nat → Nat
  | 0, _, _ => 0
  | n + 1, t, k => t + expSum y n (t * y / 2 ^ fixW / (k + 1)) (k + 1)

/-- 2^x for a finite x, as m·2^e and sticky; exact for an integer x. -/
def exp2Fix (neg : Bool) (m : Nat) (e : Int) : Nat × Int × Bool :=
  if m == 0 then (1, 0, false)
  else if e + bitLen m > 12 then (1, if neg then -4096 else 4096, true)
  else
    let x : Int := if e ≥ -fixW then m * 2 ^ (e + fixW).toNat else m / 2 ^ (-(e + fixW)).toNat
    let x := if neg then -x else x
    let n := x / (2 ^ fixW : Nat)
    let f := (x % (2 ^ fixW : Nat)).toNat
    if f == 0 then (1, n, false)
    else (expSum (f * ln2Fix / 2 ^ fixW) 64 (2 ^ fixW) 0, n - fixW, true)

/-- 2^x to FP32. -/
def exp2F (x : Fl) : Nat × Flags :=
  match x with
  | .nan s => (fp32.qnan, flagIf s flNV)
  | .inf n => (if n then 0 else fp32.infinity false, 0)
  | .fin n m e =>
    let (q, k, st) := exp2Fix n m e
    fp32.round .rne false q k st

/-- log2 of m·2^e, m > 0, in fixed point; exact when m is a power of two. -/
def log2Fix (m : Nat) (e : Int) : Int × Bool :=
  let l := bitLen m - 1
  let whole : Int := (e + l) * (2 ^ fixW : Nat)
  let t := m * 2 ^ fixW / 2 ^ l
  if m == 2 ^ l then (whole, false)
  else
    let z := (t - 2 ^ fixW) * 2 ^ fixW / (t + 2 ^ fixW)
    let ln := 2 * atanhSum (z * z / 2 ^ fixW) 80 z 0
    (whole + (ln * 2 ^ fixW / ln2Fix : Nat), true)

/-- log2 x to FP32. -/
def log2F (x : Fl) : Nat × Flags :=
  match x with
  | .nan s => (fp32.qnan, flagIf s flNV)
  | .inf n => if n then (fp32.qnan, flNV) else (fp32.infinity false, 0)
  | .fin n m e =>
    if m == 0 then (fp32.infinity true, flDZ)
    else if n then (fp32.qnan, flNV)
    else
      let (v, st) := log2Fix m e
      fp32.round .rne (v < 0) v.natAbs (-fixW) st

/-- 1/x to FP32. -/
def rcpF (x : Fl) : Nat × Flags :=
  match x with
  | .nan s => (fp32.qnan, flagIf s flNV)
  | .inf n => (fp32.signBit n, 0)
  | .fin n m e =>
    if m == 0 then (fp32.infinity n, flDZ)
    else
      let k := bitLen m + 64
      let q := 2 ^ k / m
      fp32.round .rne n q (-(k : Int) - e) (2 ^ k % m != 0)

/-! ## FP32 operations on codes, with their flags -/

def addF (a b : Nat) : Nat × Flags :=
  let r := (fp32.decode a).add (fp32.decode b)
  let c := fp32.encode .rne r.1
  (c.1, r.2 ||| c.2)

def negF (a : Nat) : Nat := if a ≥ 2 ^ 31 then a - 2 ^ 31 else a + 2 ^ 31

def subF (a b : Nat) : Nat × Flags :=
  let r := (fp32.decode a).add (fp32.decode b).neg
  let c := fp32.encode .rne r.1
  (c.1, r.2 ||| c.2)

def mulF (a b : Nat) : Nat × Flags :=
  let r := (fp32.decode a).mul (fp32.decode b)
  let c := fp32.encode .rne r.1
  (c.1, r.2 ||| c.2)

def fmaF (a b d : Nat) : Nat × Flags :=
  let r := (fp32.decode a).fma (fp32.decode b) (fp32.decode d)
  let c := fp32.encode .rne r.1
  (c.1, r.2 ||| c.2)

/-- The terms of LSE2 (R44), added in order. -/
def lseSum (mx : Fl) : List Fl → Nat → Flags → Nat × Flags
  | [], s, fl => (s, fl)
  | x :: r, s, fl =>
    let t := exp2F (x.add mx.neg).1
    let u := addF s t.1
    lseSum mx r u.1 (fl ||| t.2 ||| u.2)

def Fl.isPInf : Fl → Bool
  | .inf false => true
  | _ => false

/-- LSE2 over FP32 codes (R44); −∞ for an empty sequence (R337). -/
def lse2F (xs : List Nat) : Nat × Flags :=
  let v := xs.map fp32.decode
  let sg := v.foldl (fun f x => f ||| x.sig) 0
  if v.any Fl.isNaN then (fp32.qnan, sg)
  else if v.any Fl.isPInf then (fp32.infinity false, 0)
  else
    let mx := v.foldl (fun a x => if a.cmp false x < 0 then x else a) (.inf true)
    match mx with
    | .fin n m e =>
      let (s, fl) := lseSum mx v 0 0
      match fp32.decode s with
      | .fin _ sm se =>
        let (l, st) := log2Fix sm se
        let x : Int := if e ≥ -fixW then m * 2 ^ (e + fixW).toNat else 0
        let y := (if n then -x else x) + l
        let r := fp32.round .rne (y < 0) y.natAbs (-fixW) st
        (r.1, fl ||| r.2)
      | _ => (fp32.infinity false, fl)
    | _ => (fp32.infinity true, 0)

/-- FP32 to BF16, RNE (R108). -/
def bf16OfF (a : Nat) : Nat × Flags :=
  let x := fp32.decode a
  let c := bf16.encode .rne x
  (c.1, x.sig ||| c.2)

/-! ## Block quantise (R36, R37) -/

/-- |v| as m·2^e, with an infinity as the largest finite FP32. -/
def quantMag (x : Fl) : Bool × Nat × Int :=
  match x with
  | .fin n m e => (n, m, e)
  | .inf n => (n, 2 ^ 24 - 1, 104)
  | .nan _ => (false, 0, 0)

/-- One element code under block exponent Xc. `b8`: `none` for MXINT8. -/
def quantElem (b8 : Option B8) (xc : Int) (v : Fl) : Nat × Flags :=
  let (n, m, e) := quantMag v
  match b8 with
  | none =>
    let (k, inexact) := toInt .rne n m (e - xc + 6)
    let c := if k > 127 then 127 else if k < -127 then -127 else k
    ((c % 256).toNat, flagIf (inexact || c != k) flNX ||| flagIf (c != k) flOF)
  | some f =>
    if f.nat && n && m != 0 then (0, flNV)
    else f.encode .rne true (.fin n m (e - xc))

/-- The scale code and the 32 element codes of a block of FP32 codes, and the flags. -/
def quantise (b8 : Option B8) (vs : List Nat) : Nat × List Nat × Flags :=
  let xs := vs.map fp32.decode
  if xs.any Fl.isNaN then (0xFF, xs.map (fun _ => 0), flNV)
  else
    let top := xs.foldl (fun (a : Option Int) x =>
      let (_, m, e) := quantMag x
      if m == 0 then a else
        let l := e + bitLen m - 1
        match a with
        | none => some l
        | some b => some (max b l)) none
    match top with
    | none => (0, xs.map (fun _ => 0), 0)
    | some x =>
      let code := min (max (x + 127) 0) 254
      let es := xs.map (quantElem b8 (code - 127))
      (code.toNat, es.map Prod.fst, es.foldl (fun f y => f ||| y.2) 0)

/-- One element of a block back to FP32 (R334). -/
def dequantElem (b8 : Option B8) (sc code : Nat) : Nat × Flags :=
  if sc == 0xFF then (fp32.qnan, 0)
  else
    let x : Int := (sc : Int) - 127
    match b8 with
    | none =>
      let k := intVal true 8 code
      fp32.encode .rne (.fin (k < 0) k.natAbs (x - 6))
    | some f =>
      match f.decode code with
      | .fin n m e => fp32.encode .rne (.fin n m (e + x))
      | y => fp32.encode .rne y

end Sys2Proof.Machine
end

