-- ==== Sys2Proof/Machine/Ops.lean ====
section
/-!
DEFINITION. Named operations over the state: cores and their registers, scratchpad lines, global
memory through translation, subscriptions' forwarding, fault records, fences, taking an exception
(R226) and returning from one (R245), rewinding and aborting a task (R65, R173).
-/

namespace Sys2Proof.Machine

/-! ## Cores (R8, R22) -/

def State.core (s : State) (c : Nat) : Core := Tbl.get {} s.cores c
def State.setCore (s : State) (c : Nat) (k : Core) : State := { s with cores := s.cores.put c k }
def State.modCore (s : State) (c : Nat) (f : Core → Core) : State := s.setCore c (f (s.core c))
/-- The core of the current operation. -/
def State.here (s : State) : Core := s.core s.seat.core
def State.modHere (s : State) (f : Core → Core) : State := s.modCore s.seat.core f
def State.modCtl (s : State) (c : Nat) (f : Ctl → Ctl) : State :=
  s.modCore c (fun k => { k with ctl := f k.ctl })

def clusterOf (c : Nat) : Nat := c / 96
def dieOf (c : Nat) : Nat := c / 768
/-- The source number of a core's unit u (R22). -/
def srcOf (c u : Nat) : Nat := dieOf c * 8192 + clusterOf c % 8 * 512 + c % 96 * 4 + u

def State.part (s : State) (p : Nat) : Part := Tbl.get {} s.parts p
def State.modPart (s : State) (p : Nat) (f : Part → Part) : State :=
  { s with parts := s.parts.put p (f (s.part p)) }
def State.cluster (s : State) (c : Nat) : Cluster := Tbl.get {} s.clusters c
def State.modCluster (s : State) (c : Nat) (f : Cluster → Cluster) : State :=
  { s with clusters := s.clusters.put c (f (s.cluster c)) }
def State.modLaunch (s : State) (n : Nat) (f : Launch → Launch) : State :=
  match s.launches.find n with
  | some l => { s with launches := s.launches.put n (f l) }
  | none => s
def State.modGraph (s : State) (n : Nat) (f : Graph → Graph) : State :=
  match s.graphs.find n with
  | some l => { s with graphs := s.graphs.put n (f l) }
  | none => s
def State.modJob (s : State) (n : Nat) (f : Job → Job) : State :=
  match s.jobs.find n with
  | some l => { s with jobs := s.jobs.put n (f l) }
  | none => s
def State.countErr (s : State) (die : Nat) (f : Errors → Errors) : State :=
  { s with errors := s.errors.put die (f (Tbl.get {} s.errors die)) }
def Core.chain (k : Core) (n : Nat) : Chain := Tbl.get {} k.chains n
def Core.port (k : Core) (p : Nat) : Port := Tbl.get {} k.ports p
def Core.lane (k : Core) (n : Nat) : Lane := Tbl.get {} k.lanes n
def Core.vc (k : Core) (n : Nat) : Vc := Tbl.get {} k.vcs n
def Core.task (k : Core) (n : Nat) : TaskEntry := Tbl.get {} k.tasks n
def State.modChain (s : State) (c n : Nat) (f : Chain → Chain) : State :=
  s.modCore c (fun k => { k with chains := k.chains.put n (f (k.chain n)) })
def State.modPort (s : State) (c p : Nat) (f : Port → Port) : State :=
  s.modCore c (fun k => { k with ports := k.ports.put p (f (k.port p)) })
def State.modVc (s : State) (c n : Nat) (f : Vc → Vc) : State :=
  s.modCore c (fun k => { k with vcs := k.vcs.put n (f (k.vc n)) })
def State.modMx (s : State) (c : Nat) (f : Mx → Mx) : State :=
  s.modCore c (fun k => { k with mx := f k.mx })
def State.modSlot (s : State) (c n : Nat) (f : Slot → Slot) : State :=
  match (s.core c).slots.find n with
  | some x => s.modCore c (fun k => { k with slots := k.slots.put n (f x) })
  | none => s
def State.modLane (s : State) (c n : Nat) (f : Lane → Lane) : State :=
  s.modCore c (fun k => { k with lanes := k.lanes.put n (f (k.lane n)) })

/-- Does the firmware run, and with it the supervisor's interface (R256, R257)? -/
def State.booted (s : State) : Bool := s.bstate == 3

/-- A step of the firmware: nothing before it runs. -/
def State.fw (s : State) (f : State → State) : State := if s.booted then f s else s

/-- Take the next operation number (R180). -/
def State.bump (s : State) : State := { s with opSeq := s.opSeq + 1 }
/-- Take a fresh identifier. -/
def State.next (s : State) : State := { s with fresh := s.fresh + 1 }

/-! ## Registers (R52) -/

/-- Reads of g0 return 0. -/
def Ctl.reg (k : Ctl) (r : Reg) : Word := if r = 0 then 0 else Tbl.get 0 k.g r.toNat
/-- Writes to g0 are discarded. -/
def Ctl.setReg (k : Ctl) (r : Reg) (v : Word) : Ctl :=
  if r = 0 then k else { k with g := Tbl.set 0 k.g r.toNat v }
/-- Reads of q0 return true. -/
def Ctl.pred (k : Ctl) (p : Pred) : Bool := if p = 0 then true else Tbl.get false k.q p.toNat
/-- Writes to q0 are discarded. -/
def Ctl.setPred (k : Ctl) (p : Pred) (v : Bool) : Ctl :=
  if p = 0 then k else { k with q := Tbl.set false k.q p.toNat v }

/-- A general register of the current operation: the running task's, or, for a stream program, the
snapshot that its fork took (R132). -/
def State.reg (s : State) (r : Reg) : Word :=
  match s.seat.seq with
  | .stream => if r = 0 then 0 else (s.here.ss.snap)[r.toNat]?.getD 0
  | _ => s.here.ctl.reg r
def State.pred (s : State) (p : Pred) : Bool := s.here.ctl.pred p
def State.setReg (s : State) (r : Reg) (v : Word) : State :=
  s.modCtl s.seat.core (fun k => k.setReg r v)
def State.setPred (s : State) (p : Pred) (v : Bool) : State :=
  s.modCtl s.seat.core (fun k => k.setPred p v)

/-- Go on at the next word, counting the instruction (R67). -/
def Ctl.stepPc (k : Ctl) : Ctl := { k with pc := k.pc + 1, safecnt := k.safecnt + 1 }
def State.stepPc (s : State) : State := s.modCtl s.seat.core Ctl.stepPc
/-- Go on at a word, counting the instruction. -/
def Ctl.jump (t : Nat) (k : Ctl) : Ctl := { k with pc := t, safecnt := k.safecnt + 1 }
def State.jump (s : State) (t : Nat) : State := s.modCtl s.seat.core (Ctl.jump t)

/-- Does the core run at supervisor level (R224)? -/
def Core.supervisor (k : Core) : Bool := k.firmware || k.halted.isSome

/-! ## Scratchpad (R114, R120, R233) -/

/-- Where memory keeps a scratchpad byte (notes/assumptions/5.md). -/
def spKey (c off : Nat) : Nat := 2 ^ 60 + c * 2 ^ 19 + off
def bootKey (off : Nat) : Nat := 2 ^ 61 + off
def hostKey (a : Nat) : Nat := 2 ^ 64 + a
def lineKey (c line : Nat) : Nat := c * 4096 + line

def State.spBytes (s : State) (c off n : Nat) : List Byte := s.mem.reads (spKey c off) n
def State.isEmpty (s : State) (l : Nat) : Bool := Tbl.get false s.empty l
def State.isBad (s : State) (l : Nat) : Bool := Tbl.get false s.badLine l
def State.readersOf (s : State) (l : Nat) : Nat := Tbl.get 0 s.readers l
def State.setBad (s : State) (l : Nat) (b : Bool) : State := { s with badLine := Tbl.set false s.badLine l b }
def State.setEmpty (s : State) (l : Nat) : State := { s with empty := Tbl.set false s.empty l true }

/-- A rewound or aborted instance becomes runnable again: an aged one keeps its place (R60, R65, R74). -/
def Slot.ready (x : Slot) (cyc : Nat) : Slot :=
  { x with st := .ready, since := if x.aged then x.since else cyc, saved := none }

/-- A rewound instance that waits for the line becomes runnable (R65, R60). -/
def wakeSlots (line cyc : Nat) (t : Tbl Slot) : Tbl Slot :=
  t.map (fun x => if x.2.st = .waitLine line then (x.1, x.2.ready cyc) else x)

/-- A line becomes full: rewound tasks that wait for it become runnable. -/
def State.setFull (s : State) (l : Nat) : State :=
  { s with
    empty := Tbl.set false s.empty l false
    cores := s.cores.map (fun x => (x.1, { x.2 with slots := wakeSlots l s.cycle x.2.slots })) }

/-- Has a hardware fill reached the line's port in this cycle (R364)? -/
def State.filledNow (s : State) (l : Nat) : Bool := s.filledAt == s.cycle && s.filled.contains l

/-- A hardware fill (a stream sink, an `ldg` arrival, a deposit or an update) makes a line full; the port
applies an `fset` of the same cycle first (R364). -/
def State.fillLine (s : State) (l : Nat) : State :=
  { s.setFull l with filled := l :: (if s.filledAt = s.cycle then s.filled else []), filledAt := s.cycle }

/-- An `fset` sets a line's bit; a fill of the same cycle comes after it (R364). -/
def State.setLine (s : State) (l : Nat) (full : Bool) : State :=
  if full then s.setFull l else if s.filledNow l then s else s.setEmpty l

/-- Does an atomic that has reached the core's scratchpad port hold one of the 8-byte words of `n` bytes
(R139)? Later requests to the word wait until its step is done. -/
def Core.wordHeld (k : Core) (off n : Nat) : Bool :=
  k.portq.any (fun r => off / 8 ≤ r.off / 8 && r.off / 8 ≤ (off + n - 1) / 8)

/-- Does an atomic at the core's port hold a word of the line? -/
def Core.lineHeld (k : Core) (line : Nat) : Bool := k.wordHeld (line * 128) 128

/-- A queued reader has read the line: at reader count 0 the line becomes empty (R133). -/
def State.consumed (s : State) (l : Nat) : State :=
  let n := s.readersOf l - 1
  let s := { s with readers := Tbl.set 0 s.readers l n }
  if n = 0 then s.setEmpty l else s

/-- Merge bytes into a table, the later bytes winning. -/
def mergeBytes (t : Tbl Byte) : Tbl Byte → Tbl Byte
  | [] => t
  | (k, v) :: r => mergeBytes (t.put k v) r

/-- Put a committed write of one line into a subscription's FIFO: into the window that is open on the
line, for 64 cycles from its first store, else as a new window (R135 step 4). A clean write of the whole
line clears the update's poison as it clears the line's (R233). -/
def forwardInto (k cyc seq : Nat) (bytes : Tbl Byte) (bad : Bool) : List Update → List Update
  | [] => [.line k bytes bad (bytes.length == 128) cyc false seq]
  | .line j old b w o false n :: r =>
    if j = k ∧ cyc < o + 64 then
      let m := mergeBytes old bytes
      .line j m (bad || (b && bytes.length != 128)) (m.length == 128) o false n :: r
    else .line j old b w o (o + 64 ≤ cyc) n :: forwardInto k cyc seq bytes bad r
  | u :: r => u :: forwardInto k cyc seq bytes bad r

/-- Forward a committed write to every subscription of a region that holds the line (R135). -/
def forward (cyc seq c line : Nat) (bytes : Tbl Byte) (bad : Bool) (u : Sub) : Sub :=
  if u.pub = c ∧ u.ask = false ∧ u.closed = false ∧ u.pubLine ≤ line ∧ line < u.pubLine + u.lines then
    { u with fifo := forwardInto (line - u.pubLine) cyc seq bytes bad u.fifo }
  else u

/-- One write to a scratchpad line: its bytes by offset, whether they are poisoned (R233), and whether
subscriptions forward it. -/
def State.lineStore (s : State) (c line : Nat) (bytes : Tbl Byte) (bad publish : Bool) : State :=
  let l := lineKey c line
  let m := bytes.foldl (fun m x => Memory.write m (spKey c (line * 128 + x.1)) x.2) s.mem
  let b := bad || (s.isBad l && bytes.length != 128)
  { s with
    mem := m
    badLine := Tbl.set false s.badLine l b
    subs := if publish then s.subs.map (forward s.cycle s.opSeq c line bytes bad) else s.subs }

/-- Number bytes from an offset. -/
def indexBytes (off : Nat) : List Byte → Tbl Byte
  | [] => []
  | b :: r => (off, b) :: indexBytes (off + 1) r

/-- Write contiguous bytes, one write per line they touch. -/
def State.spStore (s : State) (c off : Nat) (bytes : List Byte) (bad publish : Bool) : State :=
  let head := bytes.take (128 - off % 128)
  let rest := bytes.drop (128 - off % 128)
  let s := if head.isEmpty then s else s.lineStore c (off / 128) (indexBytes (off % 128) head) bad publish
  ((chunks 128 rest.length rest).foldl
    (fun (a : State × Nat) ch => (a.1.lineStore c a.2 (indexBytes 0 ch) bad publish, a.2 + 1))
    (s, off / 128 + 1)).1

/-! ## Addresses (R114) -/

/-- Where an address points. -/
inductive Place where
  | global
  | scratch (core off : Nat)
  | bad
  deriving DecidableEq, Repr

/-- The place of an access of `n` bytes by a core: the whole access must lie in one window (R115). -/
def placeOf (c : Nat) (a : Word) (n : Nat) : Place :=
  let sp := (a.extractLsb' 60 4).toNat
  let off := (a.extractLsb' 0 60).toNat
  if sp = 0 then (if off + n ≤ 2 ^ 52 then .global else .bad)
  else if sp = 1 then (if off + n ≤ 0x80000 then .scratch c off else .bad)
  else if sp = 2 then
    if off + n ≤ 96 * 0x80000 ∧ off / 0x80000 = (off + n - 1) / 0x80000 then
      .scratch (clusterOf c * 96 + off / 0x80000) (off % 0x80000)
    else .bad
  else .bad

/-! ## Global memory (R117, R118, R166, R252) -/

/-- Is it a physical address of the map (R252)? Of the 8 TiB for CXL memory, what the firmware has enumerated
from the bottom is there (R251). -/
def State.physical (s : State) (pa : Nat) : Bool :=
  pa < 0x6000000000 || (0x010000000000 ≤ pa && pa < 0x010000000000 + min s.cxl (2 ^ 43))

/-- A byte of physical memory as a request reads it: the Detent that holds its line is recalled first, so
that what its atomics changed is seen (R166). -/
def State.homeByte (s : State) (pa : Nat) : Byte :=
  match s.clusters.findSome? (fun x => (x.2.hot.find? (fun h => h.line == pa / 128)).bind
    (fun h => Tbl.find h.changed (pa % 128))) with
  | some b => b
  | none => s.mem.read pa

/-- A 64-bit word of physical memory. -/
def State.word8 (s : State) (pa : Nat) : Nat := leNat ((List.range 8).map (fun i => s.homeByte (pa + i)))

/-- One level of the walk: `none` for a translation fault, else a leaf or the next table (R117). -/
def walkEntry (s : State) (pa : Nat) (lvl : Nat) : Option (Bool × Nat × Bool × Bool) :=
  let e := BitVec.ofNat 64 (s.word8 pa)
  let leaf := e.getLsbD 1
  let size := if lvl = 2 then 2 ^ 30 else if lvl = 3 then 2 ^ 21 else 2 ^ 16
  let base := (e.extractLsb' 16 36).toNat * 2 ^ 16
  if !e.getLsbD 0 || e.extractLsb' 52 12 != 0 || e.extractLsb' 4 12 != 0 then none
  else if leaf && lvl = 1 then none
  else if !leaf && lvl = 4 then none
  else if leaf && base % size != 0 then none
  else if !s.physical base || (leaf && !s.physical (base + size - 1)) then none
  else some (leaf, base, e.getLsbD 2, e.getLsbD 3)

/-- The index of a level in an address (R117). -/
def walkIndex (va lvl : Nat) : Nat :=
  if lvl = 1 then va / 2 ^ 39 % 8192 else if lvl = 2 then va / 2 ^ 30 % 512
    else if lvl = 3 then va / 2 ^ 21 % 512 else va / 2 ^ 16 % 32

/-- The walk from a level: page base, size and permissions. -/
def walkFrom (s : State) (va : Nat) : Nat → Nat → Nat → Option (Nat × Nat × Bool × Bool)
  | 0, _, _ => none
  | f + 1, lvl, table =>
    let idx := walkIndex va lvl
    let size := if lvl = 2 then 2 ^ 30 else if lvl = 3 then 2 ^ 21 else 2 ^ 16
    match walkEntry s (table + 8 * idx) lvl with
    | none => none
    | some (true, base, r, w) => some (base, size, r, w)
    | some (false, base, _, _) => walkFrom s va f (lvl + 1) base

/-- The slice that VA bits [19:16] select (R118). -/
def sliceOf (va : Nat) : Nat := va / 65536 % 16

/-- A cached translation, if the slice of the die that the address selects holds one (R118). -/
def State.cached (s : State) (die p va : Nat) : Option Tlb :=
  s.tlb.find? (fun t =>
    t.die == die && t.slice == sliceOf va && t.part == p && t.va ≤ va && va < t.va + t.size)

/-- The physical address of a byte for a read or a write; `none` is a translation fault (R117). -/
def State.translate (s : State) (die p va : Nat) (write : Bool) : Option Nat :=
  match s.cached die p va with
  | some t => if (if write then t.w else t.r) then some (t.pa + (va - t.va)) else none
  | none =>
    match walkFrom s va 4 1 (s.part p).root with
    | some (base, size, r, w) => if (if write then w else r) then some (base + va % size) else none
    | none => none

/-- Write a hot line's changed bytes home and let go of it (R140, R166). -/
def State.writeBack (s : State) (cl line : Nat) : State :=
  let k := s.cluster cl
  match k.hot.find? (fun h => h.line == line) with
  | none => s
  | some h =>
    let m := h.changed.foldl (fun (m : Memory) x => m.write (line * 128 + x.1) x.2) s.mem
    State.modCluster { s with mem := m } cl
      (fun k => { k with hot := k.hot.filter (fun h => h.line != line) })

/-- Recall a physical line from every Detent that holds it (R166). -/
def State.recall (s : State) (line : Nat) : State :=
  s.clusters.foldl (fun s x => if x.2.hot.any (fun h => h.line == line) then s.writeBack x.1 line else s) s

/-- Recall the lines of `n` bytes at a physical address. -/
def State.recallRange (s : State) (pa n : Nat) : State :=
  let s := s.recall (pa / 128)
  if (pa + n - 1) / 128 = pa / 128 then s else s.recall ((pa + n - 1) / 128)

/-- The table entries that a walk from a level reads. -/
def walkReads (s : State) (va : Nat) : Nat → Nat → Nat → List Nat
  | 0, _, _ => []
  | f + 1, lvl, table =>
    let pa := table + 8 * walkIndex va lvl
    pa :: (match walkEntry s pa lvl with
      | some (false, base, _, _) => walkReads s va f (lvl + 1) base
      | _ => [])

/-- The walker of a slice that misses reads the table from its home: the lines of its entries are recalled
(R118, R166). -/
def State.walked (s : State) (die p va : Nat) : State :=
  match s.cached die p va with
  | some _ => s
  | none => (walkReads s va 4 1 (s.part p).root).foldl (fun s pa => s.recall (pa / 128)) s

/-! ### Encryption and save areas (R240, R255) -/

/-- A partition's memory key as AES-256-XTS takes it. -/
def xtsKey (key : List Byte) : List Byte := (key ++ List.replicate 64 0).take 64

/-- A unit's bytes as another key reads them: its ciphertext, decrypted under that key (R255). -/
def State.rekeyUnit (s : State) (old key : List Byte) (u : Nat) : State :=
  let s := s.recall (u / 2)
  let plain := xts true (xtsKey key) u (xts false (xtsKey old) u (s.mem.reads (u * 64) 64))
  { s with mem := s.mem.writes (u * 64) plain, unitKey := s.unitKey.put u key }

/-- A partition accesses physical bytes under its key. Memory holds each unit's data as the key reads it under
which the unit is encrypted; a unit that no key has been used for stands as it is (R255,
notes/assumptions/28.md). -/
def State.keyed (s : State) (p : Nat) (pas : List Nat) (write : Bool) : State :=
  let key := (s.part p).key
  ((pas.map (· / 64)).eraseDups).foldl (fun s u =>
    match s.unitKey.find u with
    | some k => if k = key then s else s.rekeyUnit k key u
    | none => if write && !key.isEmpty then { s with unitKey := s.unitKey.put u key } else s) s

/-- Does a byte lie in a save area? -/
def SaveArea.holds (a : SaveArea) (pa : Nat) : Bool := a.base ≤ pa && pa < a.base + a.size

/-- A physical byte: what the device has written into a save area is its own (R240). -/
def State.byteAt (s : State) (pa : Nat) : Byte :=
  match s.saves.find? (·.holds pa) with
  | some a => if a.written.contains pa then s.mem.read pa else Config.savedByte a.id (pa - a.base)
  | none => s.mem.read pa

/-- Software that writes to a save area changes it (R240). -/
def SaveArea.touched (a : SaveArea) (pas : List Nat) : SaveArea := { a with written := pas.filter a.holds ++ a.written }

/-- Translate every byte of an access: all or none (R115). -/
def State.translateAll (s : State) (die p va : Nat) (write : Bool) : Nat → Option (List Nat)
  | 0 => some []
  | n + 1 =>
    match s.translate die p va write, State.translateAll s die p (va + 1) write n with
    | some x, some r => some (x :: r)
    | _, _ => none

/-- Read bytes at physical addresses, with their poison; hot lines are recalled first. -/
def State.physRead (s : State) (pas : List Nat) : State × List Byte × Bool :=
  let s := pas.foldl (fun s a => s.recall (a / 128)) s
  (s, pas.map s.byteAt, pas.any (fun a => Tbl.get false s.badUnit (a / 64)))

/-- Write bytes at physical addresses as one write (R233): poison poisons each unit touched; a clean
write clears a unit it covers whole. -/
def State.physWrite (s : State) (pas : List Nat) (bytes : List Byte) (bad : Bool) : State :=
  let s := pas.foldl (fun s a => s.recall (a / 128)) s
  let m := (pas.zip bytes).foldl (fun m x => Memory.write m x.1 x.2) s.mem
  let units := (pas.map (· / 64)).eraseDups
  let b := units.foldl (fun b u =>
    if bad then Tbl.set false b u true
    else if (pas.filter (fun a => a / 64 == u)).length == 64 then Tbl.set false b u false else b) s.badUnit
  { s with mem := m, badUnit := b, saves := s.saves.map (·.touched pas) }

/-- The walks of an access of `n` bytes, at its first and its last page. -/
def State.walkedRange (s : State) (die p va n : Nat) : State := (s.walked die p va).walked die p (va + n - 1)

/-- Read global bytes of a partition; `none` is a translation fault. -/
def State.gRead (s : State) (die p va n : Nat) : Option (State × List Byte × Bool) :=
  (s.translateAll die p va false n).map (fun pas => ((s.walkedRange die p va n).keyed p pas false).physRead pas)

/-- Write global bytes of a partition; `none` is a translation fault. -/
def State.gWrite (s : State) (die p va : Nat) (bytes : List Byte) (bad : Bool) : Option State :=
  (s.translateAll die p va true bytes.length).map
    (fun pas => ((s.walkedRange die p va bytes.length).keyed p pas true).physWrite pas bytes bad)

/-- Take tokens for a global request of `n` bytes at a core's network port; `none` holds the request
and marks the partition short (R202). -/
def State.takeTokens (s : State) (c n : Nat) : State × Bool :=
  let k := s.core c
  let t := (n + 63) / 64
  if k.bucket = 0 then (s.modPart k.part (fun p => { p with short := true }), false)
  else ((s.modCore c (fun k => { k with bucket := k.bucket - t })).modPart k.part
    (fun p => { p with used := p.used + t }), true)

/-! ## Fault records (R228-R230) -/

/-- Hold a record for a queue; a disabled queue's record is dropped and counted (R230). -/
def FaultQ.hold (q : FaultQ) (r : FRec) : FaultQ :=
  if q.en then { q with held := q.held ++ [r] } else { q with lost := true }

/-- The die of a source number, for the error counters. -/
def srcDie (src : Nat) : Nat := src / 8192

/-- A Chronograph trigger armed on the cause fires at the record's Dial value (R248). -/
def State.trigger (s : State) (cause : Nat) : State :=
  if s.chronTrg = some cause ∧ s.snaps.isEmpty ∧ s.chronT = none then { s with chronT := some s.dial, chronTrg := none } else s

/-- Report to a partition's fault queue. -/
def State.report (s : State) (p src cause flags at_ : Nat) (ev : Word) (task : W32) (launch : Nat) : State :=
  let r : FRec := ⟨s.dial, src, cause, flags, at_, ev, task, launch⟩
  let s := if (s.part p).fq.en then s else s.countErr (srcDie src) (fun e => { e with dropped := e.dropped + 1 })
  (s.modPart p (fun x => { x with fq := x.fq.hold r })).trigger cause

/-- Report to the firmware's fault queue. -/
def State.reportFw (s : State) (src cause flags at_ : Nat) (ev : Word) : State :=
  let r : FRec := ⟨s.dial, src, cause, flags, at_, ev, 0, 0⟩
  if s.fwq.en then { s with fwq := s.fwq.hold r }.trigger cause
  else ({ s with fwq := s.fwq.hold r }.countErr (srcDie src) (fun e => { e with dropped := e.dropped + 1 })).trigger cause

/-- Report from a unit of a core: origin `o` is also the unit's number (R22, R229). -/
def State.reportCore (s : State) (c o cause : Nat) (stall : Bool) (at_ : Nat) (ev : Word) : State :=
  let k := s.core c
  let fl := o + (if stall then 8 else 0)
  if k.supervisor then s.reportFw (srcOf c o) cause fl at_ ev
  else s.report k.part (srcOf c o) cause fl at_ ev (if o = 0 then k.ctl.task.setWidth 32 else 0) k.launch

/-- A request that stalls under R119: reported once, and noted for the supervisor. -/
def State.stall (s : State) (c o at_ : Nat) (cause : Nat) (ev : Word) (w : Waiter) : State :=
  let s := s.reportCore c o cause true at_ ev
  { s with waiters := s.waiters ++ [((s.core c).part, w)] }

/-- A memory node's access that faults stalls its node, which reports the cause once (R90, R119). -/
def State.stallLane (s : State) (c l seq cause : Nat) (ev : Word) : State :=
  (s.modCore c (fun k => { k with memreqs := k.memreqs.map (fun x =>
    if x.lane = l ∧ x.seq = seq then { x with stalled := true } else x) })).stall c 3 l cause ev (.lane c l)

/-- The lane stops with the marker-mismatch fault and keeps its queues (R83); no request waits under R119,
so the record's stall bit is 0 (R231). -/
def State.laneStop (s : State) (c n : Nat) : State :=
  (s.reportCore c 3 15 false n (BitVec.ofNat 64 n)).modLane c n (fun l => { l with stopped := true })

/-- Ask for a cancel of a level (R20): level code and identifier. It takes effect on arrival. -/
def State.askCancel (s : State) (lvl id : Nat) : State := { s with cancels := s.cancels ++ [(lvl, id)] }

/-- The identifier by which a cancel names a unit. -/
def unitId (c chain : Nat) : Nat := c * 2 ^ 32 + chain

/-- A unit is faulted: its launch cancels its other units and completes as faulted (R226, R437). -/
def State.faultUnit (s : State) (c chain : Nat) : State :=
  let ln := ((s.core c).chain chain).launch
  let s := s.modChain c chain (fun x => { x with status := .faulted })
  if ln = 0 then s else (s.modLaunch ln (fun l => { l with fault := true })).askCancel 1 ln

/-! ## Ending, rewinding and aborting a task's work (R65, R173, R226) -/

/-- Release one reservation of a `send` or a `spawn` (R422, R425). -/
def State.release (s : State) (c : Nat) (o : Out) : State :=
  match o with
  | .sendVc c2 v _ => s.modVc c2 v (fun x => { x with resv := x.resv - 1 })
  | .sendSink p _ => s.modPort c (16 + p) (fun x => { x with resv := x.resv - 1 })
  | .spawn n _ _ _ _ => s.modCore c (fun k => { k with slots := k.slots.drop n })

/-- Return consumed tokens to the heads of their channels, latest first, so that the order stands. -/
def State.giveBack (s : State) (c : Nat) (l : List (Nat × VcToken)) : State :=
  l.reverse.foldl (fun s x => s.modVc c x.1 (fun v => { v with q := x.2 :: v.q })) s

/-- Discard a task's work; `back`: return the words it consumed. -/
def State.discard (s : State) (c : Nat) (w : Work) (back : Bool) : State :=
  let s := w.outs.foldl (fun s o => s.release c o) s
  if back then s.giveBack c w.consumed else s

/-- The sequencer is idle: no task runs on it. -/
def Ctl.idle (k : Ctl) : Ctl := { k with slot := none, killed := false, work := {} }

/-- Stop the forks that a chain owns at their next word boundary (R70, R226). -/
def stopForks (chain : Nat) (k : Core) : Core :=
  let k := if k.mx.active && k.mx.chain == chain then { k with mx := { k.mx with active := false } } else k
  let k := if k.ss.active && k.ss.chain == chain then { k with ss := { k.ss with active := false } } else k
  { k with chains := k.chains.put chain { k.chain chain with forkM := false, forkS := false } }

/-- A channel-started instance has ended: its entry may trigger again from now (R58, R60). -/
def freeEntry (cyc n : Nat) (k : Core) : Core :=
  match k.slots.find n with
  | some x => if x.how = 0 then { k with freed := k.freed.put x.idx cyc } else k
  | none => k

/-- Taking an exception: the trap of R226. The core writes `cause`, `epc` and `evalue`, discards the
task's work without returning the words it consumed, frees its slot, stops the chain's forks and
reports; the unit is faulted. -/
def State.trap (s : State) (cause : Nat) (ev : Word) : State :=
  let c := s.seat.core
  let k := s.here
  let s := s.reportCore c 0 cause false k.ctl.pc ev
  let s := s.modCore c (fun k => { k with
    cause := BitVec.ofNat 64 cause, epc := BitVec.ofNat 64 k.ctl.pc, evalue := ev })
  let s := s.discard c k.ctl.work false
  match k.halted with
  | some _ => s.modCtl c Ctl.idle
  | none =>
    let s := match k.ctl.slot with
      | some n => s.modCore c (fun k => let k := freeEntry s.cycle n k; { k with slots := k.slots.drop n })
      | none => s
    let s := s.modCore c (stopForks k.ctl.chain)
    let s := s.modChain c k.ctl.chain (fun x => { x with ended := true })
    (s.modCtl c Ctl.idle).faultUnit c k.ctl.chain

/-- The end of a cancelled task: its work is discarded, its slot freed, with no trap (R200, R329). -/
def State.killTask (s : State) (c : Nat) : State :=
  let k := s.core c
  let s := s.discard c k.ctl.work false
  let s := match k.ctl.slot with
    | some n => s.modCore c (fun k => let k := freeEntry s.cycle n k; { k with slots := k.slots.drop n })
    | none => s
  let s := s.modCore c (stopForks k.ctl.chain)
  (s.modChain c k.ctl.chain (fun x => { x with
    ended := true, status := if x.status = .faulted then .faulted else .cancelled })).modCtl c Ctl.idle

/-- The running task goes back to its start with its work discarded and every consumed word returned,
its slot in a state (R65). A task that has become irrevocable stays so (R174). -/
def State.unwind (s : State) (c : Nat) (st : SlotState) : State :=
  let k := s.core c
  let s := s.discard c k.ctl.work true
  let s := match k.ctl.slot with
    | some n => s.modSlot c n (fun x =>
        { x.ready s.cycle with st := st, oldAt := none, irrev := x.irrev || k.ctl.work.irrev })
    | none => s
  s.modCtl c Ctl.idle

/-- Rewind: the task waits for the line (R65). -/
def State.rewind (s : State) (line : Nat) : State := s.unwind s.seat.core (.waitLine line)

/-! ## The ordered domain (R172-R174) -/

/-- The order of instances of a domain: stamp, source number, slot (R172). -/
def ordLt (a b : Nat × Nat × Nat) : Bool :=
  a.1 < b.1 || (a.1 == b.1 && (a.2.1 < b.2.1 || (a.2.1 == b.2.1 && a.2.2 < b.2.2)))

def ordKey (c : Nat) (slot : Nat) (stamp : Word) : Nat × Nat × Nat := (stamp.toNat, srcOf c 0, slot)

/-- Is the slot's instance one of the launch's ordered domain? -/
def slotOrd (k : Core) (ln : Nat) (x : Slot) : Bool :=
  x.st != .reserved && (k.task x.idx).ord && (k.chain x.chain).launch == ln

/-- Does every existing instance of the domain other than this one come after it? -/
def State.oldest (s : State) (ln c slot : Nat) (stamp : Word) : Bool :=
  s.cores.all (fun y => y.2.slots.all (fun x =>
    !slotOrd y.2 ln x.2 || (y.1 == c && x.1 == slot)
      || ordLt (ordKey c slot stamp) (ordKey y.1 x.1 x.2.stamp)))

/-- Is the running task one of an ordered domain? -/
def Core.taskOrd (k : Core) : Bool :=
  match k.ctl.slot with
  | some n => match k.slots.find n with
    | some x => (k.task x.idx).ord
    | none => false
  | none => false

/-- Become irrevocable before an effect, or be aborted when the task is not the oldest (R174). -/
def State.irrevocable (s : State) (f : State → State) : State :=
  let c := s.seat.core
  let k := s.here
  if k.taskOrd && !k.ctl.work.irrev then
    if s.oldest (k.chain k.ctl.chain).launch c (k.ctl.slot.getD 64) k.ctl.stamp then
      f (s.modCtl c (fun x => { x with work := { x.work with irrev := true } }))
    else s.unwind c .waitOldest
  else f s

/-- A settling instruction (R66): in an ordered domain it is irrevocable first. -/
def State.settling (s : State) (f : State → State) : State :=
  s.irrevocable (fun s => f (s.modCtl s.seat.core (fun x => { x with work := { x.work with settled := true } })))

/-! ## Debug (R243, R245) -/

/-- The registers g0-g31 as a table, and q0-q7 as bits. -/
def predBits (k : Ctl) : Word :=
  (List.range 8).foldl (fun w i => if k.pred (BitVec.ofNat 3 i) then w ||| (1 <<< i : Word) else w) 0

/-- Debug halt: suspend the tenant task at its pc, copy its registers to 0x180-0x1A0, set `epc`, stop
the lanes, streams and forks, and run the debug entry (R243). -/
def State.debugHalt (s : State) (c : Nat) : State :=
  State.next (s.modCore c (fun k => { k with
    halted := some k.ctl, dbgG := k.ctl.g, dbgQ := predBits k.ctl
    epc := BitVec.ofNat 64 k.ctl.pc, frozen := true, dbgReq := false
    ctl := { k.ctl with
      slot := some 64, run := s.fresh, pc := k.dbgEntry.toNat, g := [], q := [], safecnt := 0, work := {} } }))

/-- A subscription whose subscriber goes on (R137): its backlog is applied before later updates, a stale
entry asks for a snapshot, and the core's tasks go on once that is done and the entry is live. -/
def Sub.resume (u : Sub) : Sub :=
  if u.state = 3 then { u with state := 1, ask := true, resync := true }
  else { u with resync := u.state != 2 || !u.backlog.isEmpty }

/-- Do the core's tasks wait for one of its subscriptions (R137)? -/
def State.resyncing (s : State) (c : Nat) : Bool := s.subs.any (fun u => u.sub == c && u.resync)

/-- The suspended task with the registers of 0x180-0x1A0, at `epc` + 1 (R245). -/
def Core.reloaded (k : Core) (t : Ctl) : Ctl :=
  (List.range 8).foldl (fun (t : Ctl) i => t.setPred (BitVec.ofNat 3 i) (k.dbgQ.getLsbD i))
    { t with g := k.dbgG, pc := k.epc.toNat + 1 }

/-- A task waits in its slot, suspended with its registers. -/
def Core.park (k : Core) (t : Ctl) : Core :=
  { k with
    ctl := k.ctl.idle
    slots := k.slots.map (fun x =>
      if some x.1 = t.slot then (x.1, { x.2 with st := .suspended, saved := some t }) else x) }

/-- Returning from an exception: `eret` ends the debug entry, reloads the suspended task's registers
from 0x180-0x1A0 and resumes it at `epc` + 1 (R245), once the core's backlogs are applied and its entries
are live (R137, R244). A task that was aborted in the meantime has nothing to resume. Lanes, streams and
forks stand on while a pre-emption is pending (R237). -/
def State.eret (s : State) (c : Nat) : State :=
  match (s.core c).halted with
  | none => s
  | some t =>
    let s : State := { s with subs := s.subs.map (fun u => if u.sub = c then u.resume else u) }
    let wait := s.resyncing c
    s.modCore c (fun k =>
      let t := if t.slot = none then t else k.reloaded t
      let k := { k with halted := none, frozen := k.preempt.isSome }
      if t.slot = none then { k with ctl := k.ctl.idle }
      else if wait then k.park t
      else { k with ctl := t })

/-! ## Replies (R314) -/

/-- Is a result still owed to the register or predicate? -/
def Core.owes (k : Core) (d : Dest) : Bool := k.owed.any (fun o => o.run == k.ctl.run && o.dst == d)

/-- Owe a reply to a destination; `val` when the answer is known and only its way back is open. -/
def State.owe (s : State) (c : Nat) (d : Dest) (val : Option Word) (unb : Bool) : State :=
  (s.modCore c (fun k => { k with owed := k.owed ++ [⟨s.fresh, k.ctl.run, d, val, unb⟩] })).next

/-- A reply's value becomes known. -/
def State.answer (s : State) (c id : Nat) (v : Word) : State :=
  s.modCore c (fun k => { k with owed := k.owed.map (fun o => if o.id = id then { o with val := some v } else o) })

def Ctl.setDest (k : Ctl) (d : Dest) (v : Word) : Ctl :=
  match d with
  | .g r => k.setReg r v
  | .q p => k.setPred p (v != 0)

/-! ## Fences (R180, R361) -/

/-- Are updates of subscription `u` that the hold counted still unapplied? -/
def Hold.updates (h : Hold) : Bool := h.upd.any (fun x => x.2 != 0)

/-- Is an operation of a class, issued by the core before `seq`, not yet visible? Class bits as R179. -/
def State.inFlight (s : State) (c cls : Nat) (seq : Nat) : Bool :=
  let k := s.core c
  let cmds := k.ports.flatMap (fun x => x.2.q ++ (x.2.run.map (·.cmd)).toList)
  let gath (d : Cmd) : Bool := match d.kind with | .gath _ => true | _ => false
  match cls with
  | 0 => k.commits.any (·.seq < seq) || k.stgs.any (·.seq < seq)
      || (k.ring0 ++ k.ring1).any (fun p => match p with | .fset _ _ _ _ n => n < seq)
  | 1 => k.ldgs.any (·.seq < seq) || cmds.any (fun d => !gath d && d.seq < seq)
      || (s.part k.part).nreqs.any (fun r => r.core == c && r.seq < seq)
  | 2 => k.mx.words.any (·.seq < seq)
  | 3 => cmds.any (fun d => gath d && d.seq < seq) 
      || k.memreqs.any (fun m => !m.seen && m.seq < seq && !(m.op == .ermw && m.addr.extractLsb' 60 4 == 0))
  | 6 => (s.cluster (clusterOf c)).queue.any (fun a => a.core == c && a.seq < seq)
      || s.cores.any (fun y => y.2.portq.any (fun r => r.core == c && r.seq < seq))
  | _ => false

/-- Change the number of updates of some subscriptions that fences and barriers wait for (R136, R180). -/
def State.settleBy (s : State) (p : Nat → Bool) (f : Nat → Nat) : State :=
  { s with
    cores := s.cores.map (fun x => (x.1, { x.2 with holds := x.2.holds.map (fun h =>
      { h with upd := h.upd.map (fun y => if p y.1 then (y.1, f y.2) else y) }) }))
    launches := s.launches.map (fun x => (x.1, { x.2 with pend := x.2.pend.map (fun y =>
      if p y.2.2.1 then (y.1, y.2.1, y.2.2.1, f y.2.2.2) else y) })) }

/-- Updates of a subscription have been applied. -/
def State.settle (s : State) (id n : Nat) : State := s.settleBy (· == id) (· - n)

/-- Subscriptions that are over: nothing waits for them any more. -/
def State.dropSubs (s : State) (p : Sub → Bool) : State :=
  let gone := (s.subs.filter p).map (·.id)
  { s with subs := s.subs.filter (fun u => !p u) }.settleBy gone.contains (fun _ => 0)

/-- Does a fence hold an operation of class `cls` issued as number `seq`? -/
def State.fenced (s : State) (c cls seq : Nat) : Bool :=
  (s.core c).holds.any (fun h => h.after.getLsbD cls && h.seq < seq
    && ((List.range 8).any (fun b => h.before.getLsbD b && s.inFlight c b h.seq)
      || (h.before.getLsbD 5 && h.updates)))

end Sys2Proof.Machine
end

