-- ==== Sys2Proof/Machine/Operands.lean ====
section
/-!
DEFINITION. Operand forms of the control words: the order of tests at issue (R298), the ALU functions
(R315-R326, R377, R397, R404), and the packed operands that registers hold (R131, R200, R309, R421,
R424).
-/

namespace Sys2Proof.Machine

/-! ## Issue of a control word (R67, R291, R298, R314) -/

/-- Is the guard true (R291)? -/
def State.guard (s : State) (g : Guard) : Bool := s.pred g.p != (g.n == 1)

/-- Does a register or predicate that the word reads or writes still await its result (R314)? -/
def State.stalled (s : State) (g : Guard) (uses : List Dest) : Bool :=
  s.here.owes (.q g.p) || uses.any s.here.owes

/-- Issue of a word that is no safe point: a cancelled task ends at it; a result still owed stalls it;
the 2,049th instruction since a safe point traps; a false guard only counts (R67, R291, R298, R314). -/
def control (g : Guard) (uses : List Dest) (s : State) (f : State → State) : Result :=
  if s.seat.seq ≠ .control ∨ s.here.ctl.slot = none then .next s
  else if s.here.ctl.killed then .next (s.killTask s.seat.core)
  else if s.stalled g uses then .next s
  else if 2048 ≤ s.here.ctl.safecnt then .next (s.trap 9 2048)
  else if s.guard g then .next (f s) else .next s.stepPc

/-- Issue of `end`, `yield` or `rdv`: a safe point under a true guard, an ordinary word under a false
one (R67). -/
def controlEnd (g : Guard) (uses : List Dest) (s : State) (f : State → State) : Result :=
  if s.seat.seq ≠ .control ∨ s.here.ctl.slot = none then .next s
  else if s.here.ctl.killed then .next (s.killTask s.seat.core)
  else if s.stalled g uses then .next s
  else if s.guard g then .next (f s)
  else if 2048 ≤ s.here.ctl.safecnt then .next (s.trap 9 2048)
  else .next s.stepPc

/-- Write a general register and go on. -/
def State.result (s : State) (d : Reg) (v : Word) : State := (s.setReg d v).stepPc
/-- Write a predicate and go on. -/
def State.resultQ (s : State) (d : Pred) (v : Bool) : State := (s.setPred d v).stepPc

/-- Three-register ALU words. -/
def alu (g : Guard) (d a b : Reg) (s : State) (op : Word → Word → Word) : Result :=
  control g [.g d, .g a, .g b] s (fun s => s.result d (op (s.reg a) (s.reg b)))

/-- Two-register ALU words, and words with an immediate. -/
def alu1 (g : Guard) (d a : Reg) (s : State) (op : Word → Word) : Result :=
  control g [.g d, .g a] s (fun s => s.result d (op (s.reg a)))

/-! ## ALU functions -/

def allOnes64 : Word := BitVec.allOnes 64

/-- R315. -/
def divS (a b : Word) : Word := if b = 0 then allOnes64 else BitVec.ofInt 64 (a.toInt.tdiv b.toInt)
def divN (a b : Word) : Word := if b = 0 then allOnes64 else BitVec.ofNat 64 (a.toNat / b.toNat)
/-- R404. -/
def remS (a b : Word) : Word := if b = 0 then a else BitVec.ofInt 64 (a.toInt.tmod b.toInt)
def remN (a b : Word) : Word := if b = 0 then a else BitVec.ofNat 64 (a.toNat % b.toNat)
/-- R397. -/
def mulHi (a b : Word) : Word := BitVec.ofInt 64 (a.toInt * b.toInt / (2 ^ 64 : Nat))
def mulHiN (a b : Word) : Word := BitVec.ofNat 64 (a.toNat * b.toNat / 2 ^ 64)
/-- R404, R423. -/
def shiftBy (k : ShiftKind) (a : Word) (n : Nat) : Word :=
  match k with
  | .shl => a <<< n
  | .shr => a >>> n
  | .sra => a.sshiftRight n
  | .rot => if n = 0 then a else (a <<< n) ||| (a >>> (64 - n))
/-- R315. -/
def clz64 (a : Word) : Word := BitVec.ofNat 64 (64 - bitLen a.toNat)
def ctz64 (a : Word) : Word :=
  BitVec.ofNat 64 (((List.range 64).find? (fun i => a.getLsbD i)).getD 64)
/-- R404. -/
def popc64 (a : Word) : Word := BitVec.ofNat 64 ((List.range 64).countP (fun i => a.getLsbD i))
/-- R377. -/
def minS (a b : Word) : Word := if a.toInt ≤ b.toInt then a else b
def maxS (a b : Word) : Word := if a.toInt ≤ b.toInt then b else a
def minN (a b : Word) : Word := if a.toNat ≤ b.toNat then a else b
def maxN (a b : Word) : Word := if a.toNat ≤ b.toNat then b else a
/-- R324: a bit field; bits beyond 63 read as zero. -/
def bitField (x : Word) (off w : Nat) : Nat := x.toNat / 2 ^ off % 2 ^ w
def extZ (x : Word) (off w : Nat) : Word := BitVec.ofNat 64 (bitField x off w)
def extS (x : Word) (off w : Nat) : Word :=
  if w = 0 then 0 else BitVec.ofInt 64 (intVal true w (bitField x off w))
def insertBits (d a : Word) (off w : Nat) : Word :=
  let mask : Word := BitVec.ofNat 64 ((2 ^ w - 1) * 2 ^ off)
  (d &&& ~~~mask) ||| ((a <<< off) &&& mask)
/-- The register form's offset and width (R324). -/
def fieldOff (b : Word) : Nat := (b.extractLsb' 0 6).toNat
def fieldWidth (b : Word) : Nat := (b.extractLsb' 6 7).toNat
/-- R326. -/
def compare (cc : Cc) (a b : Word) : Bool :=
  match cc with
  | .eq => a == b
  | .ne => a != b
  | .lt => a.toInt < b.toInt
  | .ge => a.toInt ≥ b.toInt
  | .ltn => a.toNat < b.toNat
  | .gen => a.toNat ≥ b.toNat

/-- Bit-field words whose width comes from a register: above 64 is an operand fault (R324). -/
def fieldReg (g : Guard) (d a b : Reg) (s : State) (op : Word → Word → Nat → Nat → Word) : Result :=
  control g [.g d, .g a, .g b] s (fun s =>
    let v := s.reg b
    if 64 < fieldWidth v then s.trap 7 v
    else s.result d (op (s.reg d) (s.reg a) (fieldOff v) (fieldWidth v)))

/-! ## Accesses of format M (R116, R368, R426) -/

def sizeBytes : Size → Nat
  | .b => 1 | .h => 2 | .w => 4 | .d => 8

def amoBytes : AmoSize → Nat
  | .w => 4 | .d => 8

/-- (ga + off10 × size) mod 2^64. -/
def memAddr (a : Word) (sz : Size) (off : BitVec 10) : Word :=
  a + BitVec.ofInt 64 (off.toInt * sizeBytes sz)

/-! ## Packed operands -/

/-- A barrier identifier: num and n, refused when n is 0 or above 96 or a reserved bit is set (R309). -/
def barrierId (v : Word) : Option (Nat × Nat) :=
  let n := (v.extractLsb' 8 8).toNat
  if v.extractLsb' 16 48 ≠ 0 ∨ n = 0 ∨ 96 < n then none else some ((v.extractLsb' 0 8).toNat, n)

/-- The levels of a handle (R200). -/
inductive Level where
  | unit | launch | graph | phase | job (id : Nat)
  deriving DecidableEq, Repr

def levelHandle (v : Word) : Option Level :=
  let low := (v.extractLsb' 0 32).toNat
  if v.extractLsb' 32 29 ≠ 0 then none
  else match (v.extractLsb' 61 3).toNat with
    | 0 => if low = 0 then some .unit else none
    | 1 => if low = 0 then some .launch else none
    | 2 => if low = 0 then some .graph else none
    | 3 => if low = 0 then some .phase else none
    | 4 => some (.job low)
    | _ => none

/-- A port code as the key of a core's port: 0-15 source, 16-31 sink (R131). -/
def portCode (v : Word) : Option Nat := if v.extractLsb' 5 59 ≠ 0 then none else some v.toNat

/-- The token that `send` takes from ga (R421). -/
def sendToken (v : Word) : Option Token :=
  if v.extractLsb' 35 29 ≠ 0 then none
  else
    let kind := v.extractLsb' 32 3
    let value := v.extractLsb' 0 32
    if kind ≠ 0 ∧ value ≠ 0 then none else some ⟨false, kind, value⟩

/-- The destination that `send` takes from gb: a core of the cluster and a vc, or a sink port (R421). -/
def sendDest (v : Word) : Option (Sum (Nat × Nat) Nat) :=
  let core := (v.extractLsb' 5 7).toNat
  let port := (v.extractLsb' 0 5).toNat
  if v.extractLsb' 32 32 ≠ 0 ∨ v.extractLsb' 12 18 ≠ 0 then none
  else match (v.extractLsb' 30 2).toNat with
    | 0 => if core ≤ 95 then some (.inl (core, port)) else none
    | 1 => if core = 0 ∧ port ≤ 15 then some (.inr port) else none
    | _ => none

/-- The start address and task-table entry that `spawn` takes from ga (R424). -/
def spawnWord (v : Word) : Option (BitVec 14 × Nat) :=
  if v.extractLsb' 30 34 ≠ 0 ∨ v.extractLsb' 5 11 ≠ 0 then none
  else some (v.extractLsb' 16 14, (v.extractLsb' 0 5).toNat)

/-- The local region that `subs` takes from gb: first line, lines, fill (R134). -/
def subsRegion (v : Word) : Option (Nat × Nat × Bool) :=
  if v.extractLsb' 21 3 ≠ 0 ∨ v.extractLsb' 25 39 ≠ 0 then none
  else some ((v.extractLsb' 0 12).toNat, (v.extractLsb' 12 9).toNat + 1, v.getLsbD 24)

/-! ## Sources of switch words (R81) -/

def swSource (w : BitVec 16) : Nat := (w.extractLsb' 11 5).toNat
def swSink (w : BitVec 16) : Bool := w.getLsbD 10
def swDest (w : BitVec 16) : Nat := (w.extractLsb' 4 6).toNat
def swMarks (w : BitVec 16) : Bool := w.getLsbD 3

/-- Is a sink port the destination of a switch word (R107, R421)? -/
def Core.sinkRouted (k : Core) (p : Nat) : Bool := k.region.sw.any (fun w => swSink w && swDest w % 16 == p)
/-- Is a source port the source of a switch word (R97)? -/
def Core.sourceRouted (k : Core) (p : Nat) : Bool := k.region.sw.any (fun w => swSource w == 16 + p)

/-! ## Atomic operations (R138) -/

/-- op(old, b) on `n` bits: codes 0-8 of R138, 9 fadd of R90. -/
def atomicOp (op : BitVec 4) (n : Nat) (old b : Nat) : Nat :=
  let so := intVal true n old
  let sb := intVal true n b
  match op.toNat with
  | 0 => (old + b) % 2 ^ n
  | 1 => if so ≤ sb then old else b
  | 2 => if so ≤ sb then b else old
  | 3 => if old ≤ b then old else b
  | 4 => if old ≤ b then b else old
  | 5 => Nat.land old b
  | 6 => Nat.lor old b
  | 7 => Nat.xor old b
  | 8 => b
  | _ => (addF old b).1

/-- The value a read-modify-write leaves (R138, R319). -/
def atomicNew (op : BitVec 4) (cas : Bool) (size old b cmp : Nat) : Nat :=
  if cas then (if old = cmp then b else old) else atomicOp op (8 * size) old b

end Sys2Proof.Machine
end

