-- ==== Sys2Proof/Machine/Access.lean ====
section
/-!
DEFINITION. Scratchpad and global accesses of tasks: loads, stores, line words, `ldg`, `stg`, atomics,
and the events by which they complete (R114-R126, R138-R140, R166, R168, R317-R319, R363-R370, R426,
R427).
-/

namespace Sys2Proof.Machine

/-! ## Aborts of an ordered domain (R173) -/

/-- The instance of a slot, aborted: its work is discarded as a rewind discards it, and it is runnable
again at once. -/
def State.abortSlot (s : State) (c n : Nat) : State :=
  let k := s.core c
  if k.ctl.slot = some n ∧ k.halted = none then s.unwind c .ready
  else
    match k.slots.find n with
    | none => s
    | some x =>
      match k.halted.filter (fun t => t.slot == some n) with
      | some t =>
        let s := s.discard c t.work true
        let s := s.modCore c (fun k => { k with halted := some t.idle })
        s.modSlot c n (fun x => x.ready s.cycle)
      | none =>
      match k.commits.find? (fun m => m.slot == some n && m.stage == .waiting) with
      | some m =>
        let s := s.discard c m.work true
        let s := s.modCore c (fun k => { k with commits := k.commits.filter (fun y => y.id != m.id) })
        let s := s.modChain c m.chain (fun y => { y with ended := false })
        s.modSlot c n (fun x => x.ready s.cycle)
      | none =>
        match x.saved with
        | some w =>
          let s := s.discard c w.work true
          s.modSlot c n (fun x => x.ready s.cycle)
        | none => s

/-- The work of a slot's instance, wherever it is held: by the running task, by one that a debug halt
has suspended, by an ended task whose commit waits, or in the slot. -/
def workOf (k : Core) (n : Nat) (x : Slot) : Work :=
  if k.ctl.slot = some n ∧ k.halted = none then k.ctl.work
  else match k.halted.filter (fun t => t.slot == some n) with
    | some t => t.work
    | none => match k.commits.find? (fun m => m.slot == some n && m.stage == .waiting) with
      | some m => m.work
      | none => match x.saved with
        | some w => w.work
        | none => {}

/-- A commit has applied bytes to a line: abort every later instance of the domain that read it and has
not become irrevocable (R173, R174). -/
def State.abortReaders (s : State) (ln line : Nat) (key : Nat × Nat × Nat) : State :=
  let hit := s.cores.flatMap (fun y => y.2.slots.filterMap (fun x =>
    let w := workOf y.2 x.1 x.2
    if slotOrd y.2 ln x.2 && ordLt key (ordKey y.1 x.1 x.2.stamp) && w.reads.contains line && !w.irrev
    then some (y.1, x.1) else none))
  hit.foldl (fun s h => s.abortSlot h.1 h.2) s

/-! ## Loads (R368) -/

/-- A read of a task as `ld` reads: its place, the full/empty bit, the read set, its own buffered bytes,
poison; `k` gets the value and the target core. A word that an atomic holds at the port makes it wait
(R139). -/
def State.taskRead (s : State) (a : Word) (n : Nat) (k : State → Nat → Nat → State) : State :=
  let c := s.seat.core
  match placeOf c a n with
  | .scratch t off =>
    if a.toNat % n ≠ 0 then s.trap 5 a
    else if (s.core t).wordHeld off n then s
    else
      let l := lineKey t (off / 128)
      let w := s.here.ctl.work
      if s.isEmpty l then
        if w.settled then s.trap 8 (a &&& ~~~127) else s.rewind l
      else
        let go (s : State) : State :=
          let w := s.here.ctl.work
          let s := s.modCtl c (fun x =>
            if w.reads.contains l || 128 ≤ w.reads.length then x
            else { x with work := { w with reads := l :: w.reads } })
          let key := t * 2 ^ 19 + off
          let own := (List.range n).map (fun i => Tbl.find w.wbuf (key + i))
          if own.any Option.isNone && s.isBad l then s.trap 21 a
          else
            let v := (List.range n).map (fun i =>
              ((own[i]?).join).getD (s.mem.read (spKey t (off + i))))
            k s (leNat v) t
        if w.reads.contains l || w.reads.length < 128 then go s else s.irrevocable go
  | _ => s.trap 4 a

/-- A loaded value: at once from the core's own scratchpad, as a reply from a peer (R116, R314). -/
def State.loaded (s : State) (d : Reg) (v : Word) (t : Nat) : State :=
  if t = s.seat.core then s.result d v else (s.owe s.seat.core (.g d) (some v) false).stepPc

def execLdZ (g : Guard) (sz : Size) (d a : Reg) (off : BitVec 10) (s : State) : Result :=
  control g [.g d, .g a] s (fun s =>
    s.taskRead (memAddr (s.reg a) sz off) (sizeBytes sz)
      (fun s v t => s.loaded d (BitVec.ofNat 64 v) t))

def execLdS (g : Guard) (sz : Size) (d a : Reg) (off : BitVec 10) (s : State) : Result :=
  control g [.g d, .g a] s (fun s =>
    s.taskRead (memAddr (s.reg a) sz off) (sizeBytes sz)
      (fun s v t => s.loaded d (BitVec.ofInt 64 (intVal true (8 * sizeBytes sz) v)) t))

/-! ## Stores (R426, R168, R174) -/

/-- The lines of a write buffer. -/
def bufLines (w : Tbl Byte) : List Nat := (w.map (fun x => x.1 / 128)).eraseDups

/-- A store that reaches its home at issue, after the write buffer has overflowed (R168); later readers
of an ordered domain are aborted as a commit's bytes abort them (notes/assumptions/77.md). -/
def State.storeHome (s : State) (t off : Nat) (bytes : List Byte) : State :=
  let c := s.seat.core
  let k := s.here
  let s := s.modCtl c (fun x => { x with work := { x.work with
    wbuf := x.work.wbuf.filter (fun y => !(t * 2 ^ 19 + off ≤ y.1 && y.1 < t * 2 ^ 19 + off + bytes.length)) } })
  let s := s.spStore t off bytes false true
  if k.taskOrd then
    s.abortReaders (k.chain k.ctl.chain).launch (lineKey t (off / 128))
      (ordKey c (k.ctl.slot.getD 64) k.ctl.stamp)
  else s

/-- Place bytes in the write buffer. -/
def State.buffer (s : State) (t off : Nat) (bytes : List Byte) : State :=
  s.modCtl s.seat.core (fun x => { x with work := { x.work with
    wbuf := mergeBytes x.work.wbuf (indexBytes (t * 2 ^ 19 + off) bytes) } })

/-- Lines the write buffer would hold with one more, `stg` commands counted in an ordered domain
(R427). -/
def Core.bufferFull (k : Core) (line : Nat) : Bool :=
  let ls := bufLines k.ctl.work.wbuf
  let n := (if ls.contains line then ls.length else ls.length + 1)
    + (if k.taskOrd then k.ctl.work.stgs.length else 0)
  256 < n

def execSt (g : Guard) (sz : Size) (d a : Reg) (off : BitVec 10) (s : State) : Result :=
  control g [.g d, .g a] s (fun s =>
    let addr := memAddr (s.reg a) sz off
    let n := sizeBytes sz
    match placeOf s.seat.core addr n with
    | .scratch t o =>
      if addr.toNat % n ≠ 0 then s.trap 5 addr
      else
        let bytes := leBytes (s.reg d).toNat n
        let home (s : State) : State :=
          if (s.core t).wordHeld o n then s else (s.storeHome t o bytes).stepPc
        let spill (s : State) : State :=
          home (s.modCtl s.seat.core (fun x => { x with work := { x.work with ovfl := true } }))
        if s.here.ctl.work.ovfl then home s
        else if s.here.bufferFull (t * 4096 + o / 128) then
          if s.here.taskOrd then s.irrevocable spill else s.settling spill
        else (s.buffer t o bytes).stepPc
    | _ => s.trap 4 addr)

/-! ## Line words (R121, R363-R365) -/

/-- The ring that a packet takes (R9). -/
def ringOf (src dst : Nat) : Nat := if (dst % 96 + 96 - src % 96) % 96 ≤ 48 then 0 else 1

/-- `fset`: a local line at issue, a peer line through the ring; a fence may hold it (R361, R364). -/
def fset (g : Guard) (a : Reg) (full : Bool) (s : State) : Result :=
  control g [.g a] s (fun s =>
    if s.fenced s.seat.core 0 s.opSeq then s
    else s.settling (fun s =>
      let c := s.seat.core
      match placeOf c (s.reg a) 1 with
      | .scratch t off =>
        let l := lineKey t (off / 128)
        if t = c then (s.setLine l full).stepPc
        else
          let p := Packet.fset t s.here.ctl.run l full s.opSeq
          (s.modHere (fun k => if ringOf c t = 0 then { k with ring0 := k.ring0 ++ [p] }
            else { k with ring1 := k.ring1 ++ [p] })).bump.stepPc
      | _ => s.trap 4 (s.reg a)))

def execFsetFull (g : Guard) (a : Reg) (s : State) : Result := fset g a true s
def execFsetEmpty (g : Guard) (a : Reg) (s : State) : Result := fset g a false s

def execFtest (g : Guard) (d : Pred) (a : Reg) (s : State) : Result :=
  control g [.q d, .g a] s (fun s =>
    if s.fenced s.seat.core 0 s.opSeq then s
    else match placeOf s.seat.core (s.reg a) 1 with
      | .scratch t off =>
        let v := !s.isEmpty (lineKey t (off / 128))
        if t = s.seat.core then s.resultQ d v
        else (s.owe s.seat.core (.q d) (some (if v then 1 else 0)) false).stepPc
      | _ => s.trap 4 (s.reg a))

/-! ## ldg and stg (R124-R126, R369, R370, R427) -/

/-- The address checks that `ldg` and `stg` share, in order: the cause and value of the first failure. -/
def lineCheck (a b : Word) (n : Nat) : Option (Nat × Word) :=
  if a.extractLsb' 60 4 ≠ 1 ∨ 0x80000 < (a.extractLsb' 0 60).toNat + 128 * n then some (4, a)
  else if b.extractLsb' 52 12 ≠ 0 ∨ 2 ^ 52 < b.toNat + 128 * n then some (4, b)
  else if a.toNat % 128 ≠ 0 then some (5, a)
  else if b.toNat % 128 ≠ 0 then some (5, b)
  else none

/-- The first line and the local offset of a local address. -/
def localOff (a : Word) : Nat := (a.extractLsb' 0 60).toNat

/-- A later `ldg` names local lines: an earlier command's data for them will be discarded (R370). -/
def Ldg.cover (x : Ldg) (line n : Nat) : Ldg :=
  { x with named := x.named ++ ((List.range n).map (line + ·)).filter (fun l => x.line ≤ l && l < x.line + x.lines) }

def execLdg (g : Guard) (a b : Reg) (lines : BitVec 7) (s : State) : Result :=
  control g [.g a, .g b] s (fun s => s.settling (fun s =>
    let n := lines.toNat + 1
    let c := s.seat.core
    let ch := s.here.ctl.chain
    match lineCheck (s.reg a) (s.reg b) n with
    | some (cause, v) => s.trap cause v
    | none =>
      if (s.here.chain ch).ld = 65535 then s.trap 11 0
      else
        let line := localOff (s.reg a) / 128
        let r : Ldg := { id := s.fresh, chain := ch, line := line, va := s.reg b, lines := n, seq := s.opSeq }
        let s := s.modCore c (fun k => { k with ldgs := k.ldgs.map (fun x => x.cover line n) })
        let s := (List.range n).foldl (fun s i => s.setEmpty (lineKey c (line + i))) s
        let s := s.modCore c (fun k => { k with ldgs := k.ldgs ++ [r] })
        (s.modChain c ch (fun x => { x with ld := x.ld + 1 })).next.bump.stepPc))

def execStg (g : Guard) (a b : Reg) (lines : BitVec 7) (s : State) : Result :=
  control g [.g a, .g b] s (fun s =>
    let n := lines.toNat + 1
    match lineCheck (s.reg a) (s.reg b) n with
    | some (cause, v) => s.trap cause v
    | none =>
      let w := s.here.ctl.work
      if w.stgs.length = 32 then s.trap 7 (s.reg a)
      else
        let put (s : State) : State :=
          (s.modCtl s.seat.core (fun x => { x with work := { x.work with
            stgs := x.work.stgs ++ [⟨localOff (s.reg a) / 128, s.reg b, n⟩] } })).stepPc
        if 256 < (bufLines w.wbuf).length + w.stgs.length + 1 then s.irrevocable put else put s)

/-- Where a slice's faults come from: the memory slice that serves an address (R22, R118). -/
def sliceSrc (c : Nat) (va : Word) : Nat := dieOf c * 8192 + 4096 + (va.extractLsb' 16 4).toNat

/-- A translation fault of an `ldg` or `stg` command stalls it (R119). -/
def State.stallSlice (s : State) (c : Nat) (va : Word) (w : Waiter) : State :=
  let k := s.core c
  { s.report k.part (sliceSrc c va) 6 (4 + 8) 0 va 0 k.launch with waiters := s.waiters ++ [(k.part, w)] }

/-- The first line address of a command that does not translate. -/
def firstFault (s : State) (die p va : Nat) (write : Bool) (n : Nat) : Option Nat :=
  ((List.range n).map (fun i => va + 128 * i)).find? (fun a => (s.translate die p a write).isNone)

/-- The physical address of each line of a range, where all translate. -/
def lineAddrs (s : State) (die p va : Nat) (write : Bool) (n : Nat) : List Nat :=
  (List.range n).map (fun i => (s.translate die p (va + 128 * i) write).getD 0)

/-- The walks of the lines of a range. -/
def State.walkedLines (s : State) (die p va n : Nat) : State :=
  (List.range n).foldl (fun s i => s.walked die p (va + 128 * i)) s

/-- Change a core's `ldg` in flight. -/
def State.modLdg (s : State) (c id : Nat) (f : Ldg → Ldg) : State :=
  s.modCore c (fun k => { k with ldgs := k.ldgs.map (fun x => if x.id = id then f x else x) })

/-- The next line of an `ldg` arrives: it is written and becomes full, unless a later command has named it
(R125, R364, R370); the last one completes the command. -/
def State.ldgLine (s : State) (c : Nat) (r : Ldg) (pa : Nat) : State :=
  let pas := (List.range 128).map (pa + ·)
  let (s, bytes, bad) := (s.keyed (s.core c).part pas false).physRead pas
  let line := r.line + r.got
  let s := if r.named.contains line then s
    else (s.spStore c (line * 128) bytes bad false).fillLine (lineKey c line)
  if r.got + 1 = r.lines then
    (s.modCore c (fun k => { k with ldgs := k.ldgs.filter (fun x => x.id != r.id) })).modChain
      c r.chain (fun x => { x with ld := x.ld - 1 })
  else s.modLdg c r.id (fun x => { x with got := x.got + 1 })

/-- LDG_LINE_ARRIVAL (R125, R370): every page is translated before a line is read, once; then the lines
arrive in ascending order. -/
def execLdgLineArrival (c idx : Nat) (s : State) : Result :=
  match (s.core c).ldgs[idx]? with
  | none => .next s
  | some r =>
    if r.stalled || s.fenced c 1 r.seq || (s.core c).lineHeld (r.line + r.got) then .next s
    else
      let p := (s.core c).part
      match (if r.pas.isEmpty then firstFault s (dieOf c) p r.va.toNat false r.lines else none) with
      | some va =>
        .next ((s.modLdg c r.id (fun x => { x with stalled := true })).stallSlice c (BitVec.ofNat 64 va) (.ldg c r.id))
      | none =>
        match s.takeTokens c 128 with
        | (s, false) => .next s
        | (s, true) =>
          if r.pas.isEmpty then
            let pas := lineAddrs s (dieOf c) p r.va.toNat false r.lines
            let s := (s.walkedLines (dieOf c) p r.va.toNat r.lines).modLdg c r.id (fun x => { x with pas := pas })
            .next (s.ldgLine c r (pas[r.got]?.getD 0))
          else .next (s.ldgLine c r (r.pas[r.got]?.getD 0))

/-- Write the lines of an `stg`, each a whole line with its poison (R126, R233). -/
def stgWrites (die p : Nat) : Nat → List (List Byte) → List Bool → State → Option State
  | _, [], _, s => some s
  | va, l :: ls, bads, s =>
    match s.gWrite die p va l (bads.headD false) with
    | none => none
    | some s => stgWrites die p (va + 128) ls bads.tail s

/-- STG_WRITE_COMPLETE (R126, R177). -/
def execStgWriteComplete (c idx : Nat) (s : State) : Result :=
  match (s.core c).stgs[idx]? with
  | none => .next s
  | some r =>
    let k := s.core c
    let n := r.data.length / 128
    let clash := (k.stgs.take idx).any (fun x =>
      x.va.toNat < r.va.toNat + r.data.length && r.va.toNat < x.va.toNat + x.data.length)
    if r.stalled || clash || s.fenced c 0 r.seq then .next s
    else
      let halt (s : State) (va : Nat) : State :=
        (s.modCore c (fun k => { k with stgs := k.stgs.map (fun x =>
          if x.id = r.id then { x with stalled := true } else x) })).stallSlice c (BitVec.ofNat 64 va) (.stg c r.id)
      match firstFault s (dieOf c) k.part r.va.toNat true n with
      | some va => .next (halt s va)
      | none =>
        match s.takeTokens c r.data.length with
        | (s, false) => .next s
        | (s, true) =>
          match stgWrites (dieOf c) k.part r.va.toNat (chunks 128 n r.data) r.bad s with
          | none => .next (halt s r.va.toNat)
          | some s =>
            .next ((s.modCore c (fun k => { k with stgs := k.stgs.filter (fun x => x.id != r.id) })).modChain
              c r.chain (fun x => { x with st := x.st - 1 }))

/-! ## Atomics (R138-R140, R317-R319) -/

/-- The code of an `amo` operation (R138). -/
def amoCode (o : AmoOp) : BitVec 4 := o.code

/-- Arrival order at a Detent: by cycle, then by ascending core index (R4, R140). -/
def Atomic.before (a b : Atomic) : Bool := a.at_ < b.at_ || (a.at_ == b.at_ && a.core ≤ b.core)

/-- Put an arrival in its place: behind every request that arrived before it. -/
def arrive (a : Atomic) : List Atomic → List Atomic
  | [] => [a]
  | x :: r => if x.before a then x :: arrive a r else a :: x :: r

/-- A request arrives at its cluster's Detent (R140). -/
def State.toDetent (s : State) (a : Atomic) : State :=
  s.modCluster (clusterOf a.core) (fun x => { x with queue := arrive a x.queue })

/-- `amo` and `amocas` at issue (R318). -/
def atomicIssue (op : BitVec 4) (cas : Bool) (size : Nat) (dep : Bool) (d : Reg) (addr b cmp : Word)
    (s : State) : State :=
  let c := s.seat.core
  match placeOf c addr size with
  | .bad => s.trap 4 addr
  | .scratch t off =>
    if addr.toNat % size ≠ 0 then s.trap 5 addr
    else if dep then s.trap 7 addr
    else if s.isBad (lineKey t (off / 128)) then s.trap 21 addr
    else
      let r : PortReq :=
        { core := c, run := s.here.ctl.run, owed := s.fresh, op := op, cas := cas, size := size, off := off
          b := b, cmp := cmp, seq := s.opSeq }
      let s := s.owe c (.g d) none false
      (s.modCore t (fun k => { k with portq := k.portq ++ [r] })).bump.stepPc
  | .global =>
    if addr.toNat % size ≠ 0 then s.trap 5 addr
    else
      let k := s.here
      let r : Atomic :=
        { id := s.fresh, at_ := s.cycle, core := c, part := k.part, op := op, cas := cas, size := size, va := addr, b := b,
          cmp := cmp, task := k.ctl.task.setWidth 32, seq := s.opSeq }
      if dep then
        let da := s.reg d
        if da.extractLsb' 60 4 ≠ 1 ∨ 0x80000 < localOff da + 8 then s.trap 4 da
        else if da.toNat % 8 ≠ 0 then s.trap 5 da
        else if (k.chain k.ctl.chain).ld = 65535 then s.trap 11 0
        else
          let s := s.setEmpty (lineKey c (localOff da / 128))
          let s := s.modCore c (fun k => { k with
            deposits := k.deposits ++ [⟨s.fresh, k.ctl.chain, localOff da, none, false⟩] })
          let s := s.modChain c k.ctl.chain (fun x => { x with ld := x.ld + 1 })
          (s.toDetent { r with deposit := some s.fresh }).next.bump.stepPc
      else (s.toDetent r).next.bump.stepPc

def execAmo (g : Guard) (op : AmoOp) (sz : AmoSize) (dep : Bool) (d a b : Reg) (s : State) : Result :=
  control g [.g d, .g a, .g b] s (fun s => s.settling (fun s =>
    atomicIssue (amoCode op) false (amoBytes sz) dep d (s.reg a) (s.reg b) 0 s))

def execAmocas (g : Guard) (sz : AmoSize) (dep : Bool) (d a b : Reg) (s : State) : Result :=
  control g [.g d, .g a, .g b, .g (b + 1)] s (fun s => s.settling (fun s =>
    atomicIssue 0 true (amoBytes sz) dep d (s.reg a) (s.reg b) (s.reg (b + 1)) s))

/-- SCRATCHPAD_ATOMIC_STEP (R139): the port performs the request at its head as one fused step. -/
def execScratchpadAtomicStep (c : Nat) (s : State) : Result :=
  match (s.core c).portq with
  | [] => .next s
  | r :: rest =>
    if s.fenced r.core 6 r.seq then .next s
    else
      let old := leNat (s.spBytes c r.off r.size)
      let w := 2 ^ (8 * r.size)
      let new := atomicNew r.op r.cas r.size old (r.b.toNat % w) (r.cmp.toNat % w)
      let s := s.modCore c (fun k => { k with portq := rest })
      let s := if s.isBad (lineKey c (r.off / 128)) then s
        else s.spStore c r.off (leBytes new r.size) false false
      .next (s.answer r.core r.owed (BitVec.ofNat 64 old))

/-- A byte of a physical line as the Detent sees it: its own changed byte, else memory (R166). -/
def hotByte (s : State) (h : Option Hot) (line i : Nat) : Byte :=
  match h with
  | some h => (Tbl.find h.changed i).getD (s.mem.read (line * 128 + i))
  | none => s.mem.read (line * 128 + i)

/-- A Detent takes a line: other Detents give it up, and the oldest hot line makes room (R140, R166). -/
def State.takeLine (s : State) (cl line : Nat) : State :=
  let s := s.clusters.foldl (fun s x => if x.1 != cl then s.writeBack x.1 line else s) s
  if (s.cluster cl).hot.any (fun h => h.line == line) then s
  else
    let s := match (s.cluster cl).hot with
      | h :: r => if r.length = 63 then s.writeBack cl h.line else s
      | [] => s
    s.modCluster cl (fun k => { k with hot := k.hot ++ [⟨line, []⟩] })

/-- The atomic at index i of a Detent's queue, on its physical address (R138, R140, R183, R234). -/
def State.detentAt (s : State) (cl : Nat) (a : Atomic) (pa : Nat) : State :=
  let s := s.takeLine cl (pa / 128)
  let h := (s.cluster cl).hot.find? (fun h => h.line == pa / 128)
  let off := pa % 128
  let old := leNat ((List.range a.size).map (fun i => hotByte s h (pa / 128) (off + i)))
  let poison := Tbl.get false s.badUnit (pa / 64)
  let w := 2 ^ (8 * a.size)
  let new := atomicNew a.op a.cas a.size old (a.b.toNat % w) (a.cmp.toNat % w)
  let s := if poison then s
    else
      let s := s.modCluster cl (fun k => { k with hot := k.hot.map (fun h =>
        if h.line = pa / 128 then { h with changed := mergeBytes h.changed (indexBytes off (leBytes new a.size)) }
        else h) })
      if a.bad then { s with badUnit := Tbl.set false s.badUnit (pa / 64) true } else s
  let s := if (s.core a.core).holds.any (fun h => h.before.getLsbD 6 && a.seq < h.seq) then
    s.writeBack cl (pa / 128) else s
  let v : Word := BitVec.ofNat 64 old
  match a.deposit, a.lane with
  | some d, _ => s.modCore a.core (fun k => { k with deposits := k.deposits.map (fun x =>
      if x.id = d then { x with val := some (v, poison) } else x) })
  | none, some l => s.modCore a.core (fun k => { k with memreqs := k.memreqs.map (fun m =>
      if m.lane = l ∧ m.seq = a.seq then { m with res := some (v.setWidth 32, poison) } else m) })
  | none, none => s

/-- An atomic reads and writes its target: the physical address, where the page allows both (R117, R138). -/
def State.translateRw (s : State) (die p va : Nat) : Option Nat :=
  match s.translate die p va false with
  | some pa => if (s.translate die p va true).isSome then some pa else none
  | none => none

/-- A request of the Detent that does not translate: an `amo` stalls in the Detent's queue, which reports
it (R119, R318); a memory node's `ermw` stalls its node, which reports it (R90). -/
def State.detentFault (s : State) (cl : Nat) (a : Atomic) : State :=
  let s := s.modCluster cl (fun k => { k with queue := k.queue.map (fun x =>
    if x.id = a.id then { x with stalled := true } else x) })
  match a.lane with
  | some l => s.stallLane a.core l a.seq 6 a.va
  | none =>
    let src := cl / 8 * 8192 + cl % 8 * 512 + 384
    let s := s.report a.part src 6 (5 + 8) 0 a.va a.task (s.core a.core).launch
    { s with waiters := s.waiters ++ [(a.part, .detent cl a.id)] }

/-- May the Detent serve a request? It has arrived in an earlier cycle, so that all arrivals of its cycle are
in their order (R140), and neither a fault, nor its stalled node, nor a fence holds it. -/
def State.servable (s : State) (a : Atomic) : Bool :=
  a.at_ < s.cycle && !a.stalled && !s.fenced a.core 6 a.seq
    && !(a.lane.any (fun l => (s.core a.core).memreqs.any (fun m => m.lane == l && m.stalled)))

/-- DETENT_ATOMIC (R140): the first request in arrival order that may be served. -/
def execDetentAtomic (cl : Nat) (s : State) : Result :=
  match (s.cluster cl).queue.find? s.servable with
  | none => .next s
  | some a =>
    match s.translateRw (cl / 8) a.part a.va.toNat with
    | none => .next (s.detentFault cl a)
    | some pa =>
      match s.takeTokens a.core a.size with
      | (s, false) => .next s
      | (s, true) =>
        let s := (s.walked (cl / 8) a.part a.va.toNat).modCluster cl (fun k =>
          { k with queue := k.queue.filter (fun x => x.id != a.id) })
        .next ((s.keyed a.part ((List.range a.size).map (pa + ·)) true).detentAt cl a pa)

/-- ATOMIC_DEPOSIT_ARRIVAL (R317, R329): 8 bytes are written and the line becomes full; a cancelled
level's deposit is discarded. -/
def execAtomicDepositArrival (c idx : Nat) (s : State) : Result :=
  match (s.core c).deposits[idx]? with
  | none => .next s
  | some d =>
    match d.val with
    | none => .next s
    | some (v, bad) =>
      if (s.core c).wordHeld d.off 8 then .next s
      else
      let s := s.modCore c (fun k => { k with deposits := k.deposits.filter (fun x => x.id != d.id) })
      let s := if d.dead then s
        else (s.spStore c d.off (leBytes v.toNat 8) bad false).fillLine (lineKey c (d.off / 128))
      .next (s.modChain c d.chain (fun x => { x with ld := x.ld - 1 }))

/-- HOME_RECALL (R166). -/
def execHomeRecall (cl line : Nat) (s : State) : Result := .next (s.writeBack cl line)

/-! ## Replies, translation and the ring -/

/-- A reply for a halted task is written to the copy of its register (R243, R244). -/
def Core.setCopy (k : Core) (d : Dest) (v : Word) : Core :=
  match d with
  | .g r => if r = 0 then k else { k with dbgG := Tbl.set 0 k.dbgG r.toNat v }
  | .q p =>
    if p = 0 then k
    else
      let bit : Word := 1 <<< p.toNat
      { k with dbgQ := if v != 0 then k.dbgQ ||| bit else k.dbgQ &&& ~~~bit }

/-- REGISTER_REPLY_ARRIVAL (R239, R314): the reply is written to the run that issued the instruction,
running, suspended or halted; a run that has ended takes nothing. A halted task's registers stand in
0x180-0x1A0, from which `eret` reloads them (R244, R245). -/
def execRegisterReplyArrival (c idx : Nat) (s : State) : Result :=
  match (s.core c).owed[idx]? with
  | none => .next s
  | some o =>
    match o.val with
    | none => .next s
    | some v =>
      .next (s.modCore c (fun k =>
        let k := { k with owed := k.owed.filter (fun x => x.id != o.id) }
        if k.ctl.run = o.run then { k with ctl := k.ctl.setDest o.dst v }
        else
          let k := if k.halted.any (fun t => t.run == o.run) then k.setCopy o.dst v else k
          { k with
            halted := k.halted.map (fun t => if t.run = o.run then t.setDest o.dst v else t)
            slots := k.slots.map (fun x =>
              (x.1, { x.2 with saved := x.2.saved.map (fun t => if t.run = o.run then t.setDest o.dst v else t) })) }))

/-- PAGE_WALK (R117, R118, R166): a request that misses in its slice starts the slice's walker, and the
slice keeps the entry, 4,096 at most. -/
def execPageWalk (p die : Nat) (va : BitVec 64) (s : State) : Result :=
  match s.cached die p va.toNat with
  | some _ => .next s
  | none =>
    match walkFrom s va.toNat 4 1 (s.part p).root with
    | none => .next s
    | some (base, size, r, w) =>
      let e : Tlb := ⟨die, sliceOf va.toNat, p, va.toNat / size * size, size, base, r, w⟩
      let slice (t : Tlb) : Bool := t.die == die && t.slice == e.slice
      let s := s.walked die p va.toNat
      let t := if 4096 ≤ (s.tlb.filter slice).length then
        match s.tlb.findIdx? slice with
        | some i => dropAt s.tlb i
        | none => s.tlb
        else s.tlb
      .next { s with tlb := t ++ [e] }

/-- TRANSLATION_INVALIDATE (R118). -/
def execTranslationInvalidate (p : Nat) (va : BitVec 64) (s : State) : Result :=
  .next (s.fw (fun s =>
    { s with tlb := s.tlb.filter (fun t => !(t.part == p && t.va ≤ va.toNat && va.toNat < t.va + t.size)) }))

/-- A stalled request may be tried again (R119, R231). -/
def State.unstall (s : State) (w : Waiter) : State :=
  match w with
  | .ldg c id => s.modCore c (fun k => { k with ldgs := k.ldgs.map (fun x =>
      if x.id = id then { x with stalled := false } else x) })
  | .stg c id => s.modCore c (fun k => { k with stgs := k.stgs.map (fun x =>
      if x.id = id then { x with stalled := false } else x) })
  | .port c p => s.modPort c p (fun x => { x with stalled := false })
  | .lane c l =>
    (s.modCore c (fun k => { k with memreqs := k.memreqs.map (fun m =>
      if m.lane = l then { m with stalled := false } else m) })).modCluster (clusterOf c) (fun k =>
        { k with queue := k.queue.map (fun a =>
          if a.core = c ∧ a.lane = some l then { a with stalled := false } else a) })
  | .detent cl id => s.modCluster cl (fun k => { k with queue := k.queue.map (fun a =>
      if a.id = id then { a with stalled := false } else a) })

/-- SUPERVISOR_RETRY (R231): the idx-th stalled request of the partition. -/
def execSupervisorRetry (p idx : Nat) (s : State) : Result :=
  match (s.waiters.filter (fun w => w.1 == p))[idx]? with
  | none => .next s
  | some w => .next (s.fw (fun s => { s with waiters := s.waiters.erase w }.unstall w.2))

/-- A packet takes effect at its target (R364). -/
def State.deliver (s : State) (p : Packet) : State :=
  match p with
  | .fset _ _ l full _ => s.setLine l full

/-- RING_PACKET_ENTRY (R10): the packet at the head enters while at least two packet buffers are free. -/
def execRingPacketEntry (c ring freeBuffers : Nat) (s : State) : Result :=
  if freeBuffers < 2 then .next s
  else
    let k := s.core c
    match (if ring = 0 then k.ring0 else k.ring1) with
    | [] => .next s
    | p :: r =>
      .next ((s.modCore c (fun k => if ring = 0 then { k with ring0 := r } else { k with ring1 := r })).deliver p)

end Sys2Proof.Machine
end

