-- ==== Sys2Proof/Machine/Alu.lean ====
section
/-!
DEFINITION. The ALU words, immediates, compares, predicate words and the tag table (R122-R123,
R315-R326, R371, R373, R377, R397, R403-R406, R423, R432).
-/

namespace Sys2Proof.Machine

def execAdd (g : Guard) (d a b : Reg) (s : State) : Result := alu g d a b s (fun x y => x + y)
def execSub (g : Guard) (d a b : Reg) (s : State) : Result := alu g d a b s (fun x y => x - y)
def execMul (g : Guard) (d a b : Reg) (s : State) : Result := alu g d a b s (fun x y => x * y)
def execMulh (g : Guard) (d a b : Reg) (s : State) : Result := alu g d a b s mulHi
def execMulhn (g : Guard) (d a b : Reg) (s : State) : Result := alu g d a b s mulHiN
def execDiv (g : Guard) (d a b : Reg) (s : State) : Result := alu g d a b s divS
def execDivn (g : Guard) (d a b : Reg) (s : State) : Result := alu g d a b s divN
def execRem (g : Guard) (d a b : Reg) (s : State) : Result := alu g d a b s remS
def execRemn (g : Guard) (d a b : Reg) (s : State) : Result := alu g d a b s remN
def execAnd (g : Guard) (d a b : Reg) (s : State) : Result := alu g d a b s (fun x y => x &&& y)
def execOr (g : Guard) (d a b : Reg) (s : State) : Result := alu g d a b s (fun x y => x ||| y)
def execXor (g : Guard) (d a b : Reg) (s : State) : Result := alu g d a b s (fun x y => x ^^^ y)
/-- The amount of a register shift is gb[5:0] (R404). -/
def shiftAmt (v : Word) : Nat := (v.extractLsb' 0 6).toNat
def execShl (g : Guard) (d a b : Reg) (s : State) : Result :=
  alu g d a b s (fun x y => shiftBy .shl x (shiftAmt y))
def execShr (g : Guard) (d a b : Reg) (s : State) : Result :=
  alu g d a b s (fun x y => shiftBy .shr x (shiftAmt y))
def execSra (g : Guard) (d a b : Reg) (s : State) : Result :=
  alu g d a b s (fun x y => shiftBy .sra x (shiftAmt y))
def execRot (g : Guard) (d a b : Reg) (s : State) : Result :=
  alu g d a b s (fun x y => shiftBy .rot x (shiftAmt y))
def execMin (g : Guard) (d a b : Reg) (s : State) : Result := alu g d a b s minS
def execMax (g : Guard) (d a b : Reg) (s : State) : Result := alu g d a b s maxS
def execMinn (g : Guard) (d a b : Reg) (s : State) : Result := alu g d a b s minN
def execMaxn (g : Guard) (d a b : Reg) (s : State) : Result := alu g d a b s maxN
def execClz (g : Guard) (d a : Reg) (s : State) : Result := alu1 g d a s clz64
def execCtz (g : Guard) (d a : Reg) (s : State) : Result := alu1 g d a s ctz64
def execPopc (g : Guard) (d a : Reg) (s : State) : Result := alu1 g d a s popc64
def execBextZReg (g : Guard) (d a b : Reg) (s : State) : Result :=
  fieldReg g d a b s (fun _ x off w => extZ x off w)
def execBinsReg (g : Guard) (d a b : Reg) (s : State) : Result :=
  fieldReg g d a b s (fun o x off w => insertBits o x off w)
def execBextSReg (g : Guard) (d a b : Reg) (s : State) : Result :=
  fieldReg g d a b s (fun _ x off w => extS x off w)
def execSel (g : Guard) (qs : Pred) (d a b : Reg) (s : State) : Result :=
  control g [.q qs, .g d, .g a, .g b] s (fun s => s.result d (if s.pred qs then s.reg a else s.reg b))
def execAddi (g : Guard) (d a : Reg) (imm : BitVec 12) (s : State) : Result :=
  alu1 g d a s (fun x => x + imm.signExtend 64)
def execAndi (g : Guard) (d a : Reg) (imm : BitVec 12) (s : State) : Result :=
  alu1 g d a s (fun x => x &&& imm.signExtend 64)
def execOri (g : Guard) (d a : Reg) (imm : BitVec 12) (s : State) : Result :=
  alu1 g d a s (fun x => x ||| imm.signExtend 64)
def execXori (g : Guard) (d a : Reg) (imm : BitVec 12) (s : State) : Result :=
  alu1 g d a s (fun x => x ^^^ imm.signExtend 64)
def execShi (g : Guard) (kind : ShiftKind) (d a : Reg) (amt : BitVec 6) (s : State) : Result :=
  alu1 g d a s (fun x => shiftBy kind x amt.toNat)
def execBextZ (g : Guard) (d a : Reg) (off wm1 : BitVec 6) (s : State) : Result :=
  alu1 g d a s (fun x => extZ x off.toNat (wm1.toNat + 1))
def execBextS (g : Guard) (d a : Reg) (off wm1 : BitVec 6) (s : State) : Result :=
  alu1 g d a s (fun x => extS x off.toNat (wm1.toNat + 1))
def execBins (g : Guard) (d a : Reg) (off wm1 : BitVec 6) (s : State) : Result :=
  control g [.g d, .g a] s (fun s => s.result d (insertBits (s.reg d) (s.reg a) off.toNat (wm1.toNat + 1)))
def execLi (g : Guard) (d : Reg) (imm : BitVec 17) (s : State) : Result :=
  control g [.g d] s (fun s => s.result d (imm.signExtend 64))
/-- n × 2^17, sign-extended from bit 33 (R373). -/
def execLui (g : Guard) (d : Reg) (imm : BitVec 17) (s : State) : Result :=
  control g [.g d] s (fun s => s.result d (imm.signExtend 64 <<< 17))
def execCmp (g : Guard) (cc : Cc) (d : Pred) (a b : Reg) (s : State) : Result :=
  control g [.q d, .g a, .g b] s (fun s => s.resultQ d (compare cc (s.reg a) (s.reg b)))
def execCmpi (g : Guard) (cc : Cc) (d : Pred) (a : Reg) (imm : BitVec 9) (s : State) : Result :=
  control g [.q d, .g a] s (fun s => s.resultQ d (compare cc (s.reg a) (imm.signExtend 64)))
def execPand (g : Guard) (d a b : Pred) (s : State) : Result :=
  control g [.q d, .q a, .q b] s (fun s => s.resultQ d (s.pred a && s.pred b))
def execPor (g : Guard) (d a b : Pred) (s : State) : Result :=
  control g [.q d, .q a, .q b] s (fun s => s.resultQ d (s.pred a || s.pred b))
def execPnot (g : Guard) (d a : Pred) (s : State) : Result :=
  control g [.q d, .q a] s (fun s => s.resultQ d (!s.pred a))

/-! ## The tag table (R122, R123, R432) -/

def tagShift (cfg : BitVec 64) : Nat := (cfg.extractLsb' 8 6).toNat
def tagWays (cfg : BitVec 64) : Nat := 2 ^ (cfg.extractLsb' 0 4).toNat
def tagKey (cfg : BitVec 64) (a : Word) : Word := a >>> tagShift cfg

/-- The lowest valid slot of the key's set that holds the key, else all ones. -/
def tagLook (k : Core) (a : Word) : Word :=
  let key := tagKey k.tagcfg a
  let ways := tagWays k.tagcfg
  let set := key.toNat % (256 / ways)
  match (List.range ways).find? (fun i => Tbl.find k.tags (set * ways + i) == some key) with
  | some i => BitVec.ofNat 64 (set * ways + i)
  | none => allOnes64

def execTlook (g : Guard) (d a : Reg) (s : State) : Result :=
  control g [.g d, .g a] s (fun s => s.result d (tagLook s.here (s.reg a)))
def execTset (g : Guard) (a b : Reg) (s : State) : Result :=
  control g [.g a, .g b] s (fun s => s.settling (fun s =>
    if 255 < (s.reg a).toNat then s.trap 7 (s.reg a)
    else
      let n := (s.reg a).toNat
      let v := s.reg b
      (s.modHere (fun k => { k with tags := k.tags.put n (tagKey k.tagcfg v) })).stepPc))
def execTclr (g : Guard) (a : Reg) (s : State) : Result :=
  control g [.g a] s (fun s => s.settling (fun s =>
    if 255 < (s.reg a).toNat then s.trap 7 (s.reg a)
    else
      let n := (s.reg a).toNat
      (s.modHere (fun k => { k with tags := k.tags.drop n })).stepPc))

end Sys2Proof.Machine
end

