-- ==== Sys2Proof/Machine/Graph.lean ====
section
/-!
DEFINITION. The graph of a launch (R141-R156, R274, R281, R304, R311): which node a lane or port belongs
to, a node's inputs, its loops, the objects of an output, and which of them are asked for.
-/

namespace Sys2Proof.Machine

def State.object (s : State) (id : Nat) : Option Object := s.objects.find? (fun o => o.id == id)

/-- The graph record of a launch. -/
def State.graphOf (s : State) (l : Launch) : Option GGraph :=
  (s.object l.obj).bind (fun o => o.graphs[l.graph]?)

/-- The physical core of a placement: virtual cluster and core index (R201). -/
def State.physCore (s : State) (p vcl core : Nat) : Option Nat :=
  ((s.part p).clusters[vcl]?).map (fun cl => cl * 96 + core)

/-- The physical core of a node of a launch (R195). -/
def State.nodeCore (s : State) (l : Launch) (n : GNode) : Option Nat :=
  s.physCore l.part (l.base + n.vcl) n.core

/-- Numbered list elements. -/
def enum {α : Type} (l : List α) : List (Nat × α) := (List.range l.length).zip l

/-! ## Nodes and edges -/

def GGraph.kind (g : GGraph) (n : Nat) : Nat := ((g.nodes[n]?).map (·.kind)).getD 0

/-- A start node: a source whose only edge goes to a task node (R304). -/
def GGraph.isStart (g : GGraph) (n : Nat) : Bool :=
  g.kind n == 3 &&
    match g.edges.filter (fun e => e.src == n) with
    | [e] => g.kind e.dst == 2
    | _ => false

/-- Is it a circuit edge: from a sink node to a source node (R311), or to a task node's virtual channel
(R92, notes/assumptions/86.md), on another core? -/
def GGraph.circuitEdge (g : GGraph) (e : GEdge) : Bool :=
  match g.nodes[e.src]?, g.nodes[e.dst]? with
  | some a, some b => a.kind == 4 && (b.kind == 3 || b.kind == 2) && (a.vcl != b.vcl || a.core != b.core)
  | _, _ => false

/-- The circuit edge that feeds a source node. -/
def GGraph.crossing (g : GGraph) (n : Nat) : Option GEdge :=
  if g.kind n = 3 then g.edges.find? (fun e => e.dst == n && g.circuitEdge e) else none

/-- Is a sink node the from-end of a circuit edge? -/
def GGraph.fromEnd (g : GGraph) (n : Nat) : Bool := g.edges.any (fun e => e.src == n && g.circuitEdge e)

/-- The launch's outputs: its sink nodes that feed no circuit (R305, R311). -/
def GGraph.sinks (g : GGraph) : List Nat :=
  (List.range g.nodes.length).filter (fun n => g.kind n == 4 && !g.fromEnd n)

/-- The edges into a node. -/
def GGraph.into (g : GGraph) (n : Nat) : List GEdge := g.edges.filter (fun e => e.dst == n)

/-- Nodes reached from a set in some number of edges. -/
def GGraph.reach (g : GGraph) : Nat → List Nat → List Nat
  | 0, l => l
  | f + 1, l =>
    GGraph.reach g f (l ++ ((g.edges.filter (fun e => l.contains e.src && !l.contains e.dst)).map (·.dst)).eraseDups)

/-- Does a path lead from a to b? -/
def GGraph.leads (g : GGraph) (a b : Nat) : Bool :=
  (g.reach g.nodes.length ((g.edges.filter (fun e => e.src == a)).map (·.dst)).eraseDups).contains b

/-- The lane operation of a lane node of a launch. -/
def laneEop (n : GNode) : Nat := n.word.toNat / 2 ^ 24

/-- `esteer`, `emerge` and `eexit` take a control input (R153). -/
def isSteer (n : GNode) : Bool := n.kind == 1 && (laneEop n == 0x41 || laneEop n == 0x42 || laneEop n == 0x43)

/-! ## Lane-level loops (R86, R155) -/

/-- The back edges: those of a loop exit's output on lane k + 1. -/
def GGraph.backEdges (g : GGraph) : List GEdge :=
  g.edges.filter (fun e => e.sport == 1 && ((g.nodes[e.src]?).map (fun n => n.kind == 1 && laneEop n == 0x43)).getD false)

/-- The graph without its back edges. -/
def GGraph.forward (g : GGraph) : GGraph := { g with edges := g.edges.filter (fun e => !g.backEdges.contains e) }

/-- Is a node in the loop that a back edge closes: on a path from the edge's end to its beginning? -/
def GGraph.body (g : GGraph) (e : GEdge) (n : Nat) : Bool :=
  (n == e.dst || g.forward.leads e.dst n) && (n == e.src || g.forward.leads n e.src)

/-- The nodes of a loop. -/
def GGraph.bodySize (g : GGraph) (e : GEdge) : Nat := (List.range g.nodes.length).countP (g.body e)

/-- Insert a loop behind those that have more nodes. -/
def insertLoop (g : GGraph) (e : GEdge) : List GEdge → List GEdge
  | [] => [e]
  | x :: r => if g.bodySize x < g.bodySize e then e :: x :: r else x :: insertLoop g e r

/-- The loops that enclose a node, outermost first, each by its back edge. -/
def GGraph.loopsOf (g : GGraph) (n : Nat) : List GEdge :=
  (g.backEdges.filter (fun e => g.body e n)).foldr (insertLoop g) []

/-- Is the node inside a lane-level loop (R155)? -/
def GGraph.inLoop (g : GGraph) (n : Nat) : Bool := !(g.loopsOf n).isEmpty

/-- The control edge into a node, when the control opens names: a steer, merge or exit whose control port
is not declared multiple (R153). -/
def GGraph.control (g : GGraph) (n : Nat) : Option GEdge :=
  (g.edges.find? (fun e => e.dst == n && e.ctl)).bind (fun e =>
    match g.nodes[n]? with
    | some gn =>
      if isSteer gn && !gn.ports.any (fun p => !p.out && p.num == e.dport && p.multi) then some e else none
    | none => none)

/-! ## Objects -/

/-- The naming rank of a node's output port (R141); a sink node's port stands for what has crossed from it. -/
def rankOf (n : GNode) (port : Nat) : Nat :=
  ((n.ports.find? (fun p => (p.out || n.kind == 4) && p.num == port)).map (·.rank)).getD 0

/-- The objects of an output port, oldest first. -/
def objsOf (l : List Obj) (node port : Nat) : List Obj := l.filter (fun o => o.node == node && o.port == port)

/-- Are two objects of one place? -/
def Obj.same (a b : Obj) : Bool := a.node == b.node && a.port == b.port && a.seg == b.seg && a.iter == b.iter

/-- Put an object in place of the one of its place, or at the end. -/
def putObj (l : List Obj) (o : Obj) : List Obj :=
  match l.findIdx? (·.same o) with
  | some i => l.set i o
  | none => l ++ [o]

/-- Is the object's name settled? -/
def Obj.known (o : Obj) : Bool := o.name != .unknown && o.name != .open_

/-- Is the port memoisable (R147)? -/
def memoisable (gn : GNode) (port : Nat) : Bool :=
  !gn.vol && gn.ports.any (fun p => p.out && p.num == port && p.retain)

/-- Has the object's lookup, if one is due, been made (R150)? -/
def Obj.settled (gn : GNode) (o : Obj) : Bool := o.known && (!memoisable gn o.port || o.looked)

/-- Does a request ask the node to fire for the object (R151, R154)? -/
def Obj.wanted (gn : GNode) (o : Obj) : Bool :=
  o.asked && o.anchor.isNone && o.name != .void && o.settled gn

/-- The object that the next token of an output belongs to: of a rank of 1 or more, the first segment that is
not closed, those asked for first; in a loop, the first iteration that is not void and has none. -/
def openObj (rank : Nat) (loop : Bool) (l : List Obj) : Option Obj :=
  if rank ≠ 0 then
    let l := l.filter (fun o => !o.closed)
    (l.find? (·.asked)).or l.head?
  else if loop then l.find? (fun o => o.toks.all (fun t => t.kind != 0) && o.name != .void)
  else l.head?

/-- Add a token to an output's object, or close it at its closing marker (R141). -/
def addToken (rank : Nat) (loop : Bool) (node port : Nat) (t : Token) (l : List Obj) : List Obj :=
  let mine := objsOf l node port
  let o := (openObj rank loop mine).getD
    { node := node, port := port, seg := if rank = 0 then 0 else mine.length }
  putObj l (if rank ≠ 0 ∧ rank ≤ t.kind.toNat then { o with closed := true } else { o with toks := o.toks ++ [t] })

/-- The launch a core is armed for. -/
def State.launchAt (s : State) (c : Nat) : Option Launch := s.launches.find (s.core c).launch

/-- The nodes of a core's launch that lie on the core, start nodes left out. -/
def State.nodesAt (s : State) (c : Nat) : List (Nat × GNode) :=
  match s.launchAt c with
  | none => []
  | some l => match s.graphOf l with
    | none => []
    | some g => (enum g.nodes).filter (fun x => s.nodeCore l x.2 == some c && !g.isStart x.1)

/-- The node that drives an output: outputs 0-15 of the lanes (lane k+1's is arm 1 of a steer or exit on
lane k), 16-31 the source ports, 32-47 the sink ports that a task feeds. Node index and port number. -/
def State.outNode (s : State) (c out : Nat) : Option (Nat × Nat) :=
  let ns := s.nodesAt c
  if out < 16 then
    match ns.find? (fun x => x.2.kind == 1 && x.2.lane == out) with
    | some x => some (x.1, 0)
    | none => (ns.find? (fun x => x.2.kind == 1 && x.2.lane + 1 == out)).map (fun x => (x.1, 1))
  else if out < 32 then
    (ns.find? (fun x => x.2.kind == 3 && x.2.ports.any (fun p => p.out && p.num == out - 16))).map
      (fun x => (x.1, out - 16))
  else
    (ns.find? (fun x => x.2.kind == 2 && x.2.ports.any (fun p => p.out && p.num == out - 32))).map
      (fun x => (x.1, out - 32))

/-- The launch, graph and node of a core's output, with its number and the output's port. -/
def State.outAt (s : State) (c out : Nat) : Option (Launch × GGraph × GNode × Nat × Nat) :=
  match s.launchAt c, s.outNode c out with
  | some l, some (n, p) => (s.graphOf l).bind (fun g => (g.nodes[n]?).map (fun gn => (l, g, gn, n, p)))
  | _, _ => none

/-- The object that the next token of an output port belongs to. -/
def nextObj (l : Launch) (g : GGraph) (gn : GNode) (n p : Nat) : Option Obj :=
  openObj (rankOf gn p) (g.inLoop n) (objsOf l.objs n p)

/-- Is the object that the output's next token belongs to named, so that its name goes ahead of it (R149)? A
core with no launch runs freely. -/
def State.nameAhead (s : State) (c out : Nat) : Bool :=
  match s.outAt c out with
  | some (l, g, gn, n, p) => (nextObj l g gn n p).any Obj.known
  | none => true

/-- Are two places of one node's outputs the same? A port of rank 0 has one object for every segment. -/
def Obj.beside (gn : GNode) (o x : Obj) : Bool :=
  x.node == o.node && x.iter == o.iter && (x.seg == o.seg || rankOf gn x.port == 0 || rankOf gn o.port == 0)

/-- Are the objects of a place named on every output of the node (R149)? -/
def namedAll (gn : GNode) (objs : List Obj) (o : Obj) : Bool :=
  gn.ports.all (fun p => !p.out || objs.any (fun x => x.port == p.num && x.known && o.beside gn x))

/-- Is the node requested for the place that an output port comes to next, with every output named there
(R149, R151)? -/
def wantedAt (l : Launch) (g : GGraph) (gn : GNode) (n p : Nat) : Bool :=
  (nextObj l g gn n p).any (fun o => l.objs.any (fun x => o.beside gn x && x.wanted gn) && namedAll gn l.objs o)

/-- Does a source port pass over the segment it comes to, since a later one is asked for and this one is not
(R151)? The end of a circuit is sent none that it did not ask for. -/
def State.passes (s : State) (c out : Nat) (l : Launch) (g : GGraph) (gn : GNode) (n p : Nat) : Bool :=
  16 ≤ out && !((s.core c).port (out - 16)).circuit &&
    match (objsOf l.objs n p).find? (fun x => !x.closed), nextObj l g gn n p with
    | some x, some o => !x.asked && x.seg != o.seg
    | _, _ => false

/-- Does the launch ask the node for the segment that its output comes to next (R151)? `none`: not now;
`some false`: the port passes over it. A lane's node is asked through any of its outputs. A core with no
launch runs freely. -/
def State.demand (s : State) (c out : Nat) : Option Bool :=
  match s.outAt c out with
  | none => some true
  | some (l, g, gn, n, p) =>
    if s.passes c out l g gn n p then some false
    else if (if out < 16 then gn.ports.any (fun q => q.out && wantedAt l g gn n q.num) else wantedAt l g gn n p) then
      some true
    else none

/-- Is the node that drives an output requested (R82, R151)? -/
def State.requested (s : State) (c out : Nat) : Bool := (s.demand c out).isSome

/-- The lane of a node that a second data token of its single control object reaches stops (R153). -/
def State.checkControl (s : State) (l : Launch) (g : GGraph) (n p : Nat) : State :=
  g.edges.foldl (fun s e =>
    if e.src = n ∧ e.sport = p ∧ g.control e.dst = some e ∧ g.inLoop e.dst = false
        ∧ (objsOf l.objs n p).any (fun o => 2 ≤ (o.toks.filter (fun t => t.kind == 0)).length) then
      match g.nodes[e.dst]? with
      | some gn => match s.nodeCore l gn with
        | some c => if ((s.core c).lane gn.lane).stopped then s else s.laneStop c gn.lane
        | none => s
      | none => s
    else s) s

/-- Note a token that an output port of the launch has emitted (R157, R439). -/
def State.observe (s : State) (c out : Nat) (t : Token) : State :=
  match s.outAt c out with
  | some (l, g, gn, n, p) =>
    let l' := { l with objs := addToken (rankOf gn p) (g.inLoop n) n p t l.objs }
    (s.modLaunch l.serial (fun _ => l')).checkControl l' g n p
  | none => s

/-- A source port passes over a token of a segment that no one asks for: only its closing marker counts. -/
def State.passOver (s : State) (c out : Nat) (t : Token) : State :=
  match s.outAt c out with
  | some (l, _, gn, n, p) =>
    match (objsOf l.objs n p).find? (fun o => !o.closed) with
    | some o =>
      if rankOf gn p ≠ 0 ∧ rankOf gn p ≤ t.kind.toNat then
        s.modLaunch l.serial (fun l => { l with objs := putObj l.objs { o with closed := true } })
      else s
    | none => s
  | none => s

end Sys2Proof.Machine
end

