-- ==== Sys2Proof/Machine/Queues.lean ====
section
/-!
DEFINITION. Tokens on their way: lane queues, sink ports and virtual channels (R75, R76, R81, R82), and
row tags (R211-R214).
-/

namespace Sys2Proof.Machine

/-! ## Queues (R76, R81, R82) -/

/-- A token enters a queue: adjacent markers merge into the higher rank (R76). -/
def pushTok (q : List Token) (t : Token) : List Token :=
  match q.getLast? with
  | some x =>
    if t.kind ≠ 0 ∧ x.kind ≠ 0 then q.dropLast ++ [{ x with kind := if x.kind ≤ t.kind then t.kind else x.kind }]
    else q ++ [t]
  | none => [t]

/-- Would a token merge with the tail (R76)? -/
def merges (q : List Token) (t : Token) : Bool :=
  match q.getLast? with
  | some x => t.kind != 0 && x.kind != 0
  | none => false

def Core.queue (k : Core) (n : Nat) : List Token := Tbl.get [] k.queues n

/-- Slots of a destination that memory accesses in flight have reserved (R82). -/
def Core.reserved (k : Core) (w : BitVec 16) : Nat :=
  (k.region.sw.filter (fun x => x.extractLsb' 4 7 == w.extractLsb' 4 7 && swSource x < 16)).foldl
    (fun n x => n + (k.memreqs.filter (fun m => m.lane == swSource x && m.op != .est)).length) 0

/-- Has the destination of a switch word room for a token (R76, R81, R82)? -/
def Core.room (k : Core) (t : Token) (w : BitVec 16) : Bool :=
  if t.kind ≠ 0 ∧ !swMarks w then true
  else if swSink w then
    let p := k.port (16 + swDest w % 16)
    merges p.buf t || p.buf.length + p.resv + k.reserved w < 8
  else
    let q := k.queue (swDest w)
    merges q t || q.length + k.reserved w < 8

/-- The switch words of an output: 0-15 lanes, 16-31 source ports. -/
def Core.routes (k : Core) (out : Nat) : List (BitVec 16) := k.region.sw.filter (fun w => swSource w == out)

/-- Has every destination of an output room for a token? -/
def Core.roomAll (k : Core) (out : Nat) (t : Token) : Bool := (k.routes out).all (k.room t)

/-- Put a token at the destination of one switch word. -/
def Core.put (k : Core) (t : Token) (w : BitVec 16) : Core :=
  if t.kind ≠ 0 ∧ !swMarks w then k
  else if swSink w then
    let n := 16 + swDest w % 16
    { k with ports := k.ports.put n { k.port n with buf := pushTok (k.port n).buf t } }
  else { k with queues := k.queues.put (swDest w) (pushTok (k.queue (swDest w)) t) }

/-- Emit a token on an output: to every destination of its switch words; it is discarded when no switch
word names the output. -/
def State.emit (s : State) (c out : Nat) (t : Token) : State :=
  (s.modCore c (fun k => (k.routes out).foldl (fun k w => k.put t w) k)).observe c out t

/-- Have the outputs that a lane's token takes room for it? -/
def Core.ready (k : Core) (n : Nat) (e : Emit) : Bool :=
  (!e.arm0 || k.roomAll n e.tok) && (!e.arm1 || k.roomAll (n + 1) e.tok)

/-- What `lstat` reads as in a cycle: without the flags that lanes raise in that cycle (R382). -/
def Core.flagsAt (k : Core) (cyc : Nat) : BitVec 5 := if k.raisedAt = cyc then k.lstat else k.lstat ||| k.raised

/-- A lane raises flags in a cycle: they come after an `mts` and after an `mfs` of that cycle (R48, R382). -/
def Core.raise (k : Core) (cyc : Nat) (f : BitVec 5) : Core :=
  { k with lstat := k.flagsAt cyc, raised := (if k.raisedAt = cyc then k.raised else 0) ||| f, raisedAt := cyc }

/-- A lane emits a token: its flags show in `lstat` after this cycle (R48, R382). -/
def State.emitLane (s : State) (c n : Nat) (e : Emit) : State :=
  let s := s.modCore c (fun k => k.raise s.cycle e.flags)
  let s := if e.arm0 then s.emit c n e.tok else s
  if e.arm1 then s.emit c (n + 1) e.tok else s

/-- Put a token into a sink port that no switch word names (R107, R422). -/
def State.sinkPut (s : State) (c p : Nat) (t : Token) : State :=
  (s.modPort c (16 + p) (fun x => { x with buf := pushTok x.buf t })).observe c (32 + p) t

/-! ## Row tags (R211-R214) -/

/-- What a port with `rowtags` does with a token. -/
inductive RowAct where
  | deliver (row : Bool) | drop (dup : Bool) | fault
  deriving DecidableEq, Repr

/-- The port's state after a token and what it does with it (R212). -/
def rowTag (t : RowTag) (k : Token) : RowTag × RowAct :=
  let isMark := k.kind != 0
  let ends := t.mode
  if isMark then
    let close (t : RowTag) : RowTag := if 2 ≤ k.kind.toNat then { t with rows := [], disp := none } else t
    if ends = 2 then
      -- a dropped row is consumed through its rank-1 marker; a higher marker still closes the group
      if 2 ≤ k.kind.toNat then (close { t with mode := 0 }, .deliver false) else ({ t with mode := 0 }, .drop false)
    else (close { t with mode := 0 }, .deliver false)
  else if ends = 1 then (t, .deliver false)
  else if ends = 2 then (t, .drop false)
  else if k.poison then ({ t with mode := 1 }, .deliver true)
  else
    let disp := (k.value.extractLsb' 12 20).toNat
    let row := (k.value.extractLsb' 0 12).toNat
    match t.disp with
    | some d =>
      if d ≠ disp then ({ t with stop := true }, .fault)
      else if t.rows.contains row then ({ t with mode := 2 }, .drop true)
      else ({ t with mode := 1, rows := row :: t.rows }, .deliver true)
    | none =>
      if t.rows.contains row then ({ t with mode := 2 }, .drop true)
      else ({ t with mode := 1, rows := row :: t.rows, disp := some disp }, .deliver true)

/-- Count a delivered row for an expert on a die (R214). -/
def State.countRow (s : State) (c : Nat) (t : RowTag) : State :=
  s.modPart (s.core c).part (fun p =>
    let key := t.expert * 8 + dieOf c
    { p with loads := p.loads.put key ((Tbl.get 0 p.loads key + 1) % 2 ^ 32) })

def State.countDup (s : State) (c : Nat) : State :=
  s.modPart (s.core c).part (fun p => { p with dups := p.dups + 1 })

/-! ## Virtual channels (R57, R410) -/

/-- A token arrives on a virtual channel: it takes the channel's next arrival number. -/
def State.vcPut (s : State) (c v : Nat) (t : Token) : State :=
  s.modVc c v (fun x => { x with q := x.q ++ [⟨t, x.arrived, s.cycle⟩], arrived := x.arrived + 1 })

/-- Has the row-tag fault stopped the channel (R212)? Its senders are held. -/
def Core.vcStopped (k : Core) (v : Nat) : Bool := (k.vctags.find v).any (·.stop)

/-- A token reaches a virtual channel; a channel with `rowtags` checks it first (R212). The second
component: the channel takes it; a channel that the row-tag fault stops takes neither that token nor any
later one. -/
def State.vcArrive (s : State) (c v : Nat) (t : Token) : State × Bool :=
  match (s.core c).vctags.find v with
  | none => (s.vcPut c v t, true)
  | some r =>
    if r.stop then (s, false)
    else
      let (r', act) := rowTag r t
      let s := s.modCore c (fun k => { k with vctags := k.vctags.put v r' })
      match act with
      | .deliver row => ((if row then s.countRow c r else s).vcPut c v t, true)
      | .drop dup => (if dup then s.countDup c else s, true)
      | .fault => (s.reportCore c 2 17 false v (t.value.setWidth 64), false)

end Sys2Proof.Machine
end

