-- ==== Sys2Proof/Machine/Names.lean ====
section
/-!
DEFINITION. The Name Store (R157-R165, R401): entries, the heap, lookups, insertion and eviction, the
name instructions and the events that answer them.
-/

namespace Sys2Proof.Machine

/-! ## Entries (R159) -/

/-- The 64 bytes of an entry. -/
def Entry.bytes (e : Entry) : List Byte :=
  let bits := e.kind.toNat + (if e.retained then 4 else 0) + (if e.pinned then 8 else 0) + (if e.pnev then 16 else 0)
  bytes128 e.name ++ bytes128 e.fp ++ leBytes e.va.toNat 8 ++ leBytes e.length.toNat 4 ++ leBytes e.shape.toNat 4
    ++ [e.format, 0, BitVec.ofNat 8 bits, 0] ++ leBytes e.age.toNat 4 ++ List.replicate 8 0

/-- A block of 64 bytes read as an entry, and whether its reserved bits are zero. -/
def Entry.ofBytes (l : List Byte) : Entry × Bool :=
  let num (i n : Nat) : Nat := leNat ((l.drop i).take n)
  let b : Byte := (l[50]?).getD 0
  ({ name := of128 l, fp := of128 (l.drop 16), va := BitVec.ofNat 64 (num 32 8)
     length := BitVec.ofNat 32 (num 40 4), shape := BitVec.ofNat 32 (num 44 4), format := (l[48]?).getD 0
     kind := b.extractLsb' 0 2, retained := b.getLsbD 2, pinned := b.getLsbD 3, pnev := b.getLsbD 4
     age := BitVec.ofNat 32 (num 52 4) },
   num 49 1 == 0 && b.extractLsb' 5 3 == 0 && num 51 1 == 0 && num 56 8 == 0)

/-- Is a proposed entry malformed (R165, status 7)? -/
def Entry.malformed (x : Entry × Bool) : Bool :=
  let e := x.1
  !x.2 || e.kind == 0 || e.kind == 3 || e.retained || e.pnev
    || (e.kind == 1 && (e.fp != 0 || e.length == 0))
    || (e.kind == 2 && (e.length != 0 || e.va != 0 || e.shape != 0 || e.format != 0))

/-! ## The heap (R157 step 2) -/

/-- The smallest block size that holds n bytes. -/
def blockSize : Nat → Nat → Nat → Nat
  | 0, sz, _ => sz
  | f + 1, sz, n => if n ≤ sz then sz else blockSize f (2 * sz) n

/-- The free blocks inside the block of a size at an offset, buddies merged; `heap` is the heap's size. -/
def freeIn (used : List (Nat × Nat)) (heap : Nat) : Nat → Nat → List (Nat × Nat)
  | 0, _ => []
  | f + 1, off =>
    let sz := 4096 * 2 ^ f
    if off + sz ≤ heap ∧ used.all (fun b => off + sz ≤ b.1 || b.1 + b.2 ≤ off) then [(off, sz)]
    else if f = 0 then []
    else freeIn used heap f off ++ freeIn used heap f (off + sz / 2)

/-- The free blocks of a heap. -/
def freeBlocks (used : List (Nat × Nat)) (heap : Nat) : List (Nat × Nat) :=
  (List.range ((heap + 2 ^ 26 - 1) / 2 ^ 26)).flatMap (fun i => freeIn used heap 15 (i * 2 ^ 26))

/-- Where a block of a size is allocated: the lowest free block of the size, else the low end of the
lowest free larger block. -/
def allocAt (used : List (Nat × Nat)) (heap sz : Nat) : Option Nat :=
  let l := freeBlocks used heap
  match l.find? (fun b => b.2 == sz) with
  | some b => some b.1
  | none => (l.find? (fun b => sz < b.2)).map (·.1)

/-! ## The domain table -/

def State.dom (s : State) (p : Nat) : Domain := (s.part p).dom
def State.modDom (s : State) (p : Nat) (f : Domain → Domain) : State :=
  s.modPart p (fun x => { x with dom := f x.dom })
def State.modCounts (s : State) (p : Nat) (f : NameCounts → NameCounts) : State :=
  s.modDom p (fun d => { d with counts := f d.counts })

/-- The bucket of a name, and of a fingerprint: 2^(t−3) of each (R159). -/
def bucket (c : DomainCfg) (n : BitVec 128) : Nat := n.toNat % 2 ^ (c.t - 3)

/-- Bytes of the table and of the index, as they stand in memory. -/
def State.tableBytes (s : State) (a n : Nat) : List Byte := (List.range n).map (fun i => s.homeByte (a + i))

/-- The address of an entry, and of a slot of the fingerprint index behind the table (R159). -/
def entryAddr (c : DomainCfg) (i : Nat) : Nat := c.tbase + 64 * i
def slotAddr (c : DomainCfg) (i : Nat) : Nat := c.tbase + 2 ^ c.t * 64 + 32 * i

def State.entryAt (s : State) (c : DomainCfg) (i : Nat) : Entry := (Entry.ofBytes (s.tableBytes (entryAddr c i) 64)).1

/-- The eight entries of a name's bucket with their numbers. -/
def State.bucketOf (s : State) (c : DomainCfg) (n : BitVec 128) : List (Nat × Entry) :=
  (List.range 8).map (fun i => (8 * bucket c n + i, s.entryAt c (8 * bucket c n + i)))

/-- The entry of a name, with its number. -/
def State.entryOf (s : State) (p : Nat) (n : BitVec 128) : Option (Nat × Entry) :=
  (s.dom p).cfg.bind (fun c => (s.bucketOf c n).find? (fun x => x.2.kind != 0 && x.2.name == n))

def State.entry (s : State) (p : Nat) (n : BitVec 128) : Option Entry := (s.entryOf p n).map (·.2)

/-- A slot of the fingerprint index: a fingerprint and the name of its entry; a free one is zero
(notes/assumptions/87.md). -/
def State.slotAt (s : State) (c : DomainCfg) (i : Nat) : BitVec 128 × BitVec 128 :=
  let b := s.tableBytes (slotAddr c i) 32
  (of128 b, of128 (b.drop 16))

/-- The sixteen slots of a fingerprint's bucket with their numbers. -/
def State.slotsOf (s : State) (c : DomainCfg) (fp : BitVec 128) : List (Nat × BitVec 128 × BitVec 128) :=
  (List.range 16).map (fun i => (16 * bucket c fp + i, s.slotAt c (16 * bucket c fp + i)))

/-- The lowest free entry of a name's bucket, and the lowest free slot of a fingerprint's
(notes/assumptions/87.md). -/
def State.freePlace (s : State) (c : DomainCfg) (n : BitVec 128) : Option Nat :=
  ((s.bucketOf c n).find? (fun x => x.2.kind == 0)).map (·.1)
def State.freeSlotOf (s : State) (c : DomainCfg) (fp : BitVec 128) : Option Nat :=
  ((s.slotsOf c fp).find? (fun x => x.2 == (0, 0))).map (·.1)

/-- Is there room for an entry, and for a data entry's slot in the fingerprint index? A domain that is not set
has none. -/
def State.room (s : State) (p : Nat) (e : Entry) : Bool :=
  match (s.dom p).cfg with
  | none => false
  | some c => (s.freePlace c e.name).isSome && (e.kind != 1 || (s.freeSlotOf c e.fp).isSome)

/-- Bits [51:20] of the Dial (R159). -/
def State.age (s : State) : W32 := BitVec.ofNat 32 (s.dial / 2 ^ 20)

/-- A change of the table invalidates a name in the caches of all dies (R158). -/
def State.uncache (s : State) (p : Nat) (n : BitVec 128) : State :=
  { s with caches := s.caches.filter (fun x => !(x.2.1 == p && x.2.2 == n)) }

/-- Write bytes of the table or of the index. -/
def State.tableWrite (s : State) (a : Nat) (b : List Byte) : State :=
  s.physWrite ((List.range b.length).map (a + ·)) b false

/-- Change the entry of a name in its place. -/
def State.modEntry (s : State) (p : Nat) (n : BitVec 128) (f : Entry → Entry) : State :=
  match (s.dom p).cfg, s.entryOf p n with
  | some c, some (i, e) => s.tableWrite (entryAddr c i) (f e).bytes
  | _, _ => s

/-- Insert an entry that is absent and has room: its index slot, then the entry, then the caches (R158). -/
def State.insertEntry (s : State) (p : Nat) (e : Entry) : State :=
  match (s.dom p).cfg with
  | none => s
  | some c =>
    match s.freePlace c e.name with
    | none => s
    | some i =>
      let s := match (if e.kind = 1 then s.freeSlotOf c e.fp else none) with
        | some j => s.tableWrite (slotAddr c j) (bytes128 e.fp ++ bytes128 e.name)
        | none => s
      (s.tableWrite (entryAddr c i) { e with age := s.age }.bytes).uncache p e.name

/-- Free the heap block at an address. -/
def Domain.freeBlock (d : Domain) (va : Word) : Domain :=
  match d.cfg with
  | some c => { d with blocks := d.blocks.filter (fun b => c.heapBase + b.1 != va.toNat) }
  | none => d

/-- Remove an entry, its index slot, and the heap block of one that the engine retained (R158, R165). -/
def State.removeEntry (s : State) (p : Nat) (e : Entry) : State :=
  match (s.dom p).cfg, s.entryOf p e.name with
  | some c, some (i, _) =>
    let s := (s.uncache p e.name).tableWrite (entryAddr c i) (List.replicate 64 0)
    let s := match (if e.kind = 1 then (s.slotsOf c e.fp).find? (fun x => x.2 == (e.fp, e.name)) else none) with
      | some x => s.tableWrite (slotAddr c x.1) (List.replicate 32 0)
      | none => s
    if e.retained then s.modDom p (fun d => d.freeBlock e.va) else s
  | _, _ => s

/-- The name cache of a die takes an entry and lets go of the least recently used that is not pinned;
65,536 entries, of which at most 16,384 count as pinned: the model keeps the least recently used of them (R161,
notes/assumptions/88.md). -/
def State.cache (s : State) (die p : Nat) (n : BitVec 128) : State :=
  let l := s.caches.filter (fun x => !(x.1 == die && x.2.1 == p && x.2.2 == n)) ++ [(die, p, n)]
  let here := l.filter (fun x => x.1 == die)
  if here.length ≤ 65536 then { s with caches := l }
  else
    let pins := (here.filter (fun x => (s.entry x.2.1 x.2.2).any (·.pinned))).take 16384
    match here.find? (fun x => !pins.contains x) with
    | some x => { s with caches := l.erase x }
    | none => { s with caches := l }

/-- The data entry that a name leads to, and whether the name is an alias (R150, R159). -/
def State.leadsTo (s : State) (p : Nat) (n : BitVec 128) : Option (Entry × Bool) :=
  match s.entry p n with
  | none => none
  | some e =>
    if e.kind = 2 then
      match s.entry p e.fp with
      | some c => if c.kind = 1 ∧ c.pnev = false then some (c, true) else none
      | none => none
    else if e.pnev then none else some (e, false)

/-- An alias whose canonical data entry is absent is deleted when it is looked up (R162). -/
def State.dropDangling (s : State) (p : Nat) (n : BitVec 128) : State :=
  match s.entry p n with
  | some e => if e.kind = 2 ∧ (s.entry p e.fp).all (fun c => c.kind != 1) then s.removeEntry p e else s
  | none => s

/-- A lookup by a die: the data entry, with the ages of what was hit renewed. -/
def State.lookup (s : State) (die p : Nat) (n : BitVec 128) : State × Option Entry :=
  match s.leadsTo p n with
  | none => (s.dropDangling p n, none)
  | some (e, _) =>
    let renew (s : State) (n : BitVec 128) : State := s.modEntry p n (fun x => { x with age := s.age })
    let s' := renew (if e.name = n then s else renew s n) e.name
    (s'.cache die p n, some { e with age := s.age })

/-- Read an entry's content; `none` when it is not mapped. -/
def State.content (s : State) (die p : Nat) (e : Entry) : Option (State × List Byte × Bool) :=
  s.gRead die p e.va.toNat e.length.toNat

/-- An entry whose content was found poisoned never hits again (R159). -/
def State.markPoisoned (s : State) (p : Nat) (n : BitVec 128) : State :=
  (s.modEntry p n (fun x => { x with pnev := true })).uncache p n

/-- Does a launch hold the entry (R162)? -/
def State.held (s : State) (p : Nat) (n : BitVec 128) : Bool := s.holds.any (fun h => h.2.1 == p && h.2.2 == n)

/-! ## Instructions (R163-R165, R401) -/

/-- The address tests of a name word: the cause and value of the first failure, else the offsets. -/
def nameAddrs (l : List (Word × Nat × Nat)) : Sum (Nat × Word) (List Nat) :=
  match l.find? (fun x => x.1.extractLsb' 60 4 != 1 || 0x80000 < localOff x.1 + x.2.1) with
  | some x => .inl (4, x.1)
  | none => match l.find? (fun x => x.1.toNat % x.2.2 != 0) with
    | some x => .inl (5, x.1)
    | none => .inr (l.map (fun x => localOff x.1))

/-- Send a request to the name engine. -/
def State.nameRequest (s : State) (r : NameReq) : State :=
  (s.modPart (s.core r.core).part (fun p => { p with nreqs := p.nreqs ++ [r] })).bump

/-- `nlook` (R164): it reads the name and the line at issue, unless a fence holds its operand reads (R180). -/
def execNlook (g : Guard) (a b : Reg) (s : State) : Result :=
  control g [.g a, .g b] s (fun s =>
    if s.fenced s.seat.core 1 s.opSeq then s
    else
    let c := s.seat.core
    let ch := s.here.ctl.chain
    match nameAddrs [(s.reg a, 16, 16), (s.reg b, 64, 64)] with
    | .inl (cause, v) => s.trap cause v
    | .inr l =>
      let na := (l[0]?).getD 0
      let rb := (l[1]?).getD 0
      if (s.here.chain ch).ld = 65535 then s.trap 11 0
      else
        let r : NameReq :=
          { core := c, op := .look rb, name := of128 (s.spBytes c na 16), bad := s.isBad (lineKey c (na / 128))
            chain := ch, seq := s.opSeq }
        (((s.setEmpty (lineKey c (rb / 128))).modChain c ch (fun x => { x with ld := x.ld + 1 })).nameRequest r).stepPc)

/-- `nins` and `nevict` (R165): a request, and a status owed to gd; a fence may hold the operand reads (R180). -/
def nameStatus (g : Guard) (d a : Reg) (n : Nat) (op : List Byte → NameOp) (s : State) : Result :=
  control g [.g d, .g a] s (fun s =>
    if s.fenced s.seat.core 1 s.opSeq then s
    else s.settling (fun s =>
    let c := s.seat.core
    match nameAddrs [(s.reg a, n, n)] with
    | .inl (cause, v) => s.trap cause v
    | .inr l =>
      let off := l.headD 0
      let bytes := s.spBytes c off n
      let r : NameReq :=
        { core := c, op := op bytes, name := of128 bytes, bad := s.isBad (lineKey c (off / 128)), owed := s.fresh
          chain := s.here.ctl.chain, seq := s.opSeq }
      ((s.owe c (.g d) none true).nameRequest r).stepPc))

def execNins (g : Guard) (d a : Reg) (s : State) : Result := nameStatus g d a 64 .ins s
def execNevict (g : Guard) (d a : Reg) (s : State) : Result := nameStatus g d a 16 (fun _ => .evict) s

/-! ## The engine's answers -/

/-- Remove a request. -/
def State.dropRequest (s : State) (p idx : Nat) : State := s.modPart p (fun x => { x with nreqs := dropAt x.nreqs idx })

/-- NLOOK_DEPOSIT (R164, R401): 64 bytes arrive and the line becomes full; cnt.ld falls. -/
def execNlookDeposit (p idx : Nat) (s : State) : Result :=
  match (s.part p).nreqs[idx]? with
  | none => .next s
  | some r =>
    match r.op with
    | .look off =>
      if s.fenced r.core 1 r.seq || (s.core r.core).wordHeld off 64 then .next s
      else
        let x : State × Option Entry := if r.bad then (s, none) else s.lookup (dieOf r.core) p r.name
        let bytes := match x.2 with
          | some e => e.bytes
          | none => List.replicate 64 0
        let s := (x.1.dropRequest p idx).spStore r.core off bytes r.bad false
        .next ((s.fillLine (lineKey r.core (off / 128))).modChain r.core r.chain (fun x => { x with ld := x.ld - 1 }))
    | _ => .next s

/-- `nins` at the engine: the status and the state (R165). -/
def State.nins (s : State) (die p : Nat) (bad : Bool) (block : List Byte) : State × Nat :=
  let e := (Entry.ofBytes block).1
  if bad then (s, 5)
  else if Entry.malformed (Entry.ofBytes block) then (s, 7)
  else if (s.entry p e.name).isSome then (s, 1)
  else if e.kind = 2 then
    match s.entry p e.fp with
    | some c =>
      if c.kind ≠ 1 then (s, 3)
      else if s.room p e then (s.insertEntry p e, 0) else (s, 2)
    | none => (s, 3)
  else
    match s.content die p e with
    | none => (s, 4)
    | some (s, bytes, poison) =>
      let e := { e with fp := fingerprint (((s.dom p).cfg.map (·.hashKey)).getD 0) bytes }
      if poison then (s, 5) else if s.room p e then (s.insertEntry p e, 0) else (s, 2)

/-- `nevict` at the engine (R162, R165). -/
def State.nevict (s : State) (p : Nat) (bad : Bool) (n : BitVec 128) : State × Nat :=
  if bad then (s, 5)
  else match s.entry p n with
    | none => (s, 1)
    | some e => if s.held p n then (s, 6) else (s.removeEntry p e, 0)

/-- NAME_ENGINE_STATUS (R165): the engine has finished, and the status is on its way to gd. -/
def execNameEngineStatus (p idx : Nat) (s : State) : Result :=
  match (s.part p).nreqs[idx]? with
  | none => .next s
  | some r =>
    if s.fenced r.core 1 r.seq then .next s
    else match r.op with
      | .look _ => .next s
      | .ins block =>
        let x := s.nins (dieOf r.core) p r.bad block
        .next ((x.1.dropRequest p idx).answer r.core r.owed (BitVec.ofNat 64 x.2))
      | .evict =>
        let x := s.nevict p r.bad r.name
        .next ((x.1.dropRequest p idx).answer r.core r.owed (BitVec.ofNat 64 x.2))

/-- HOLD_RELEASE (R162): the idx-th hold of the partition ends once its launch has completed or has read
the entry for the last time. -/
def execHoldRelease (p idx : Nat) (s : State) : Result :=
  match (s.holds.filter (fun h => h.2.1 == p))[idx]? with
  | none => .next s
  | some h =>
    let over_ := match s.launches.find h.1 with
      | some l => l.status.isSome || l.objs.all (fun o => match o.anchor, o.name with
          | some e, .named n => (e.name != h.2.2 && n != h.2.2) || o.served
          | _, _ => true)
      | none => true
    .next (if over_ then { s with holds := s.holds.erase h } else s)

end Sys2Proof.Machine
end

