-- ==== Sys2Proof/Machine/Task.lean ====
section
/-!
DEFINITION. Control flow, channel words, the ends of tasks, forks, fences, barriers, special registers
and system words (R49-R74, R169-R174, R179-R182, R309, R320-R326, R353-R367, R381-R383, R402,
R409-R413, R421-R425, R433-R435), and the scheduler's events.
-/

namespace Sys2Proof.Machine

/-! ## Control transfers (R51, R320, R325, R366, R412) -/

/-- Go on at a target, or raise the instruction-address fault at the transferring word (R51). -/
def State.transfer (s : State) (t : Int) (f : State → State) : State :=
  if t < 0 ∨ 16383 < t then s.trap 3 (BitVec.ofInt 64 t) else (f s).jump t.toNat

def execB (g : Guard) (off : BitVec 22) (s : State) : Result :=
  control g [] s (fun s => s.transfer (s.here.ctl.pc + off.toInt) id)

def execCall (g : Guard) (off : BitVec 22) (s : State) : Result :=
  control g [.g 31] s (fun s =>
    let pc := s.here.ctl.pc
    s.transfer (pc + off.toInt) (fun s => s.setReg 31 (BitVec.ofNat 64 (pc + 1))))

def execRet (g : Guard) (s : State) : Result :=
  control g [.g 31] s (fun s => s.transfer (s.reg 31).toNat id)

/-- Is the word an `lpad` of the label, whatever its guard (R372)? -/
def isLpad (w : W32) (label : Nat) : Bool :=
  match decodeControl w with
  | .ok (.lpad _ l) => l.toNat == label
  | _ => false

/-- `jt` (R366, R367). -/
def execJt (g : Guard) (a b : Reg) (s : State) : Result :=
  control g [.g a, .g b] s (fun s =>
    let gi := s.reg a
    let gt := s.reg b
    s.taskRead gt 8 (fun s h _ =>
      if h / 2 ^ 16 % 2 ^ 16 ≠ 0 then s.trap 7 gt
      else if h / 2 ^ 32 ≤ gi.toNat then s.stepPc
      else s.taskRead (gt + 8 + 4 * gi) 4 (fun s t _ =>
        if 16383 < t then s.trap 3 (BitVec.ofNat 64 t)
        else if s.here.badWords.contains t then s.trap 22 (Config.structureNumber 0)
        else if isLpad (Tbl.get 0 s.here.store t) (h % 2 ^ 16) then s.jump t
        else s.trap 13 (BitVec.ofNat 64 t))))

def execLpad (g : Guard) (_ : BitVec 16) (s : State) : Result := control g [] s State.stepPc

/-! ## Channel words (R410, R411, R421, R422) and spawn (R424, R425) -/

/-- The value of a received token (R411). -/
def tokenWord (t : Token) : Word := (t.kind ++ t.value).setWidth 64

def execRecv (g : Guard) (d : Reg) (vc : BitVec 5) (q : Pred) (s : State) : Result :=
  control g [.g d, .q q] s (fun s =>
    let c := s.seat.core
    let n := vc.toNat
    match (s.here.vc n).q with
    | [] => s.resultQ q false
    | t :: r =>
      let s := s.modVc c n (fun x => { x with q := r })
      let s := s.modCtl c (fun x => { x with work := { x.work with consumed := x.work.consumed ++ [(n, t)] } })
      if t.tok.poison then s.trap 21 (BitVec.ofNat 64 n)
      else (s.setReg d (tokenWord t.tok)).resultQ q true)

/-- Slots that the task's `send` words have reserved. -/
def Work.sends (w : Work) : Nat :=
  w.outs.countP (fun o => match o with | .spawn _ _ _ _ _ => false | _ => true)

/-- Note what the task delivers at its commit. -/
def State.promise (s : State) (o : Out) : State :=
  s.modCtl s.seat.core (fun x => { x with work := { x.work with outs := x.work.outs ++ [o] } })

def execSend (g : Guard) (d : Pred) (a b : Reg) (s : State) : Result :=
  control g [.q d, .g a, .g b] s (fun s =>
    let c := s.seat.core
    let spare := s.here.ctl.work.sends < 16
    match sendToken (s.reg a), sendDest (s.reg b) with
    | none, _ => s.trap 7 (s.reg a)
    | some _, none => s.trap 7 (s.reg b)
    | some t, some (.inr p) =>
      if s.here.sinkRouted p then s.trap 7 (s.reg b)
      else
        let x := s.here.port (16 + p)
        if spare ∧ x.buf.length + x.resv < 8 then
          ((s.modPort c (16 + p) (fun x => { x with resv := x.resv + 1 })).promise (.sendSink p t)).resultQ d true
        else s.resultQ d false
    | some t, some (.inl (k, v)) =>
      let tgt := clusterOf c * 96 + k
      let x := (s.core tgt).vc v
      let ok := decide (spare ∧ x.q.length + x.resv < 32)
      let s := if ok then (s.modVc tgt v (fun x => { x with resv := x.resv + 1 })).promise (.sendVc tgt v t) else s
      if tgt = c then s.resultQ d ok
      else (s.owe c (.q d) (some (if ok then 1 else 0)) false).stepPc)

/-- A free instance slot: the model takes the lowest-numbered (notes/assumptions/80.md; R59). -/
def Core.freeSlot (k : Core) : Option Nat := (List.range 64).find? (fun n => (k.slots.find n).isNone)

/-- g24-g31, which `spawn` and the continuations copy (R63, R425). -/
def carryRegs : List Reg := [24, 25, 26, 27, 28, 29, 30, 31]
def State.carry (s : State) : List Word := carryRegs.map s.reg

def execSpawn (g : Guard) (a b : Reg) (s : State) : Result :=
  control g ([.g a, .g b] ++ carryRegs.map .g) s (fun s =>
    let k := s.here
    let stamp := s.reg b
    match spawnWord (s.reg a) with
    | none => s.trap 7 (s.reg a)
    | some (start, e) =>
      if !(k.task e).valid then s.trap 7 (s.reg a)
      else if k.taskOrd && (k.task e).ord && stamp < k.ctl.stamp then s.trap 12 stamp
      else match k.freeSlot with
        | none => s.trap 10 0
        | some n =>
          let x : Slot := { st := .reserved, start := start, idx := e, how := 1, stamp := stamp, carry := s.carry }
          ((s.modHere (fun k => { k with slots := k.slots.put n x })).promise
            (.spawn n e start stamp s.carry)).stepPc)

/-! ## The end of a task (R169, R170, R353, R409, R434) -/

/-- The task ends and its commit begins. An ordered-domain task and one with a continuation keep their
slot until the commit is done; any other frees it at once (R59, R170, R172). -/
def State.endTask (s : State) (cont : Option Slot) : State :=
  let c := s.seat.core
  let k := s.here
  let keep := k.taskOrd || cont.isSome
  let m : Commit :=
    { id := s.fresh, chain := k.ctl.chain, run := k.ctl.run, slot := if keep then k.ctl.slot else none, ord := k.taskOrd
      stamp := k.ctl.stamp, launch := (k.chain k.ctl.chain).launch, work := k.ctl.work, cont := cont
      seq := s.opSeq }
  let s := s.modCore c (fun k =>
    let n := k.ctl.slot.getD 64
    let k := freeEntry s.cycle n k
    let k := match k.slots.find n with
      | some x => if keep then { k with slots := k.slots.put n { x with st := .ended } }
        else { k with slots := k.slots.drop n }
      | none => k
    { k with commits := k.commits ++ [m], ctl := k.ctl.idle })
  let s := if cont.isSome || k.halted.isSome then s
    else s.modChain c k.ctl.chain (fun x => { x with ended := true })
  s.next.bump

def execEndTask (g : Guard) (s : State) : Result := controlEnd g [] s (fun s => s.endTask none)

/-- The continuation that `yield` and `rdv` place (R63, R71). -/
def State.continuation (s : State) (k : WakeCode) (tgt : BitVec 14) : Slot :=
  let x := (s.here.slots.find (s.here.ctl.slot.getD 64)).getD {}
  { st := .waitWake k, start := tgt, idx := x.idx, how := 2, stamp := s.here.ctl.stamp
    carry := s.carry, chain := s.here.ctl.chain }

def execRdv (g : Guard) (tgt : BitVec 14) (s : State) : Result :=
  controlEnd g (carryRegs.map .g) s (fun s => s.endTask (some (s.continuation .rdv tgt)))

/-- A barrier of a launch: n and arrivals counted so far (R309). -/
def State.barrier (s : State) (ln num : Nat) : Nat × Nat :=
  match s.launches.find ln with
  | some l => Tbl.get (0, 0) l.bars num
  | none => (0, 0)

/-- The identifier's barrier, unless R309 refuses it: number, n and arrivals counted. -/
def State.barrierOf (s : State) (c chain : Nat) (v : Word) : Option (Nat × Nat × Nat) :=
  match barrierId v with
  | none => none
  | some (num, n) =>
    let (m, cnt) := s.barrier ((s.core c).chain chain).launch num
    if cnt ≠ 0 ∧ m ≠ n then none else some (num, n, cnt)

/-- Is the round of the chain's latest arrival complete (R309), with the subscription updates of R136
applied? -/
def State.roundDone (s : State) (c chain : Nat) (v : Word) : Bool :=
  match s.barrierOf c chain v with
  | none => false
  | some (num, n, cnt) =>
    match ((s.core c).chain chain).bars.find num with
    | none => false
    | some j =>
      (j / n + 1) * n ≤ cnt &&
        (match s.launches.find ((s.core c).chain chain).launch with
          | some l => l.pend.all (fun p => p.1 != num || j / n < p.2.1 || p.2.2.2 == 0)
          | none => true)

def execYield (g : Guard) (wake : WakeCode) (tgt : BitVec 14) (s : State) : Result :=
  controlEnd g (carryRegs.map .g) s (fun s =>
    let a := s.reg 24
    let ok := s.endTask (some (s.continuation wake tgt))
    match wake with
    | .line =>
      if a.extractLsb' 60 4 ≠ 1 ∨ 0x80000 ≤ localOff a then s.trap 4 a else ok
    | .bar =>
      if (s.barrierOf s.seat.core s.here.ctl.chain a).isNone then s.trap 7 a else ok
    | _ => ok)

/-! ## Safe points (R67, R68, R413) -/

/-- Keep the registers that a live mask covers (R68). -/
def liveCtl (live : BitVec 17) (k : Ctl) : Ctl :=
  { k with
    g := k.g.filter (fun x => live.getLsbD (x.1 / 2))
    q := if live.getLsbD 16 then k.q else []
    safecnt := 0 }

def liveDest (live : BitVec 17) (d : Dest) : Bool :=
  match d with
  | .g r => live.getLsbD (r.toNat / 2)
  | .q _ => live.getLsbD 16

/-- Suspend the running task with its registers (R68, R239). -/
def State.suspend (s : State) (c : Nat) (k : Ctl) : State :=
  match (s.core c).ctl.slot with
  | none => s
  | some n =>
    (s.modSlot c n (fun x => { x with st := .suspended, saved := some k })).modCtl c Ctl.idle

def execSafe (g : Guard) (live : BitVec 17) (s : State) : Result :=
  if s.seat.seq ≠ .control ∨ s.here.ctl.slot = none then .next s
  else if s.here.ctl.killed then .next (s.killTask s.seat.core)
  else if s.stalled g [] then .next s
  else
    let c := s.seat.core
    let s' := s.modCtl c (fun k => { k with safecnt := 0 })
    let go := s'.modCtl c (fun k => { k with pc := k.pc + 1 })
    if !s.guard g || s.here.halted.isSome then .next go
    else if s.here.dbgReq then .next (s'.debugHalt c)
    else if s.here.preempt.isSome then
      let s'' := go.modHere (fun k =>
        { k with owed := k.owed.filter (fun o => o.run != k.ctl.run || liveDest live o.dst) })
      .next (s''.suspend c (liveCtl live go.here.ctl))
    else .next go

/-! ## waitc, fork, fence, barriers -/

/-- The test of R73 on a chain's counters: nibbles ld, st, cp, mt. -/
def waitTest (x : Chain) (ld st cp mt : BitVec 4) : Bool :=
  let ok (n : BitVec 4) (v : Nat) : Bool := n == 15 || decide (v ≤ n.toNat)
  ok ld x.ld && ok st x.st && ok cp x.cp && ok mt x.mt

def execWaitc (g : Guard) (d : Pred) (ld st cp mt : BitVec 4) (s : State) : Result :=
  control g [.q d] s (fun s => s.resultQ d (waitTest (s.here.chain s.here.ctl.chain) ld st cp mt))

/-- `fork seq=m` (R69, R362); starting the sequencer clears fcode (R374). -/
def execForkMatrix (g : Guard) (d : Pred) (tgt : BitVec 14) (s : State) : Result :=
  control g [.q d] s (fun s => s.settling (fun s =>
    if s.here.mx.active then s.resultQ d false
    else
      let ch := s.here.ctl.chain
      let s := s.modMx s.seat.core (fun x =>
        { x with active := true, halt := false, pc := tgt.toNat, chain := ch, fcode := 0 })
      (s.modChain s.seat.core ch (fun x => { x with forkM := true })).resultQ d true))

/-- Every general register, which a stream fork's snapshot reads (R132). -/
def allRegs : List Reg := (List.range 32).map (BitVec.ofNat 5)

/-- `fork seq=s` (R69, R132, R362). -/
def execForkStream (g : Guard) (d : Pred) (tgt : BitVec 14) (s : State) : Result :=
  control g (.q d :: allRegs.map .g) s (fun s => s.settling (fun s =>
    if s.here.ss.active then s.resultQ d false
    else
      let ch := s.here.ctl.chain
      let snap := allRegs.map s.reg
      let s := s.modHere (fun k => { k with
        ss := { active := true, halt := false, pc := tgt.toNat, chain := ch, snap := snap } })
      (s.modChain s.seat.core ch (fun x => { x with forkS := true })).resultQ d true))

/-- A sequencer's fork of a chain is over: the sequencer is idle (R69). -/
def Core.unfork (chain : Nat) (k : Core) : Core :=
  let k := if k.mx.active && k.mx.halt && k.mx.chain == chain then
    { k with mx := { k.mx with active := false, halt := false } } else k
  if k.ss.active && k.ss.halt && k.ss.chain == chain then
    { k with ss := { k.ss with active := false, halt := false } } else k

/-- Updates of a FIFO up to the last one that is forwarded already: an open window counts only with a
later released update behind it (R135, R180). -/
def released : List Update → Nat
  | [] => 0
  | .line _ _ _ _ _ false _ :: r => if released r = 0 then 0 else released r + 1
  | _ :: r => released r + 1

/-- `fence` (R180, R361): with before-class A the Detent writes back its changed bytes at once. -/
def execFence (g : Guard) (before after : BitVec 8) (s : State) : Result :=
  control g [] s (fun s =>
    let c := s.seat.core
    let upd : Tbl Nat := if before.getLsbD 5 then
      (s.subs.filter (fun u => u.pub == c || u.sub == c)).map (fun u =>
        (u.id, u.lost + u.backlog.length + released u.fifo))
      else []
    let cl := clusterOf c
    let s := if before.getLsbD 6 then
      (s.cluster cl).hot.foldl (fun s h => s.writeBack cl h.line) s else s
    (s.modHere (fun k => { k with holds := k.holds ++ [⟨before, after, s.opSeq, upd⟩] })).bump.stepPc)

/-- `bar` (R309, R322). -/
def execBar (g : Guard) (a : Reg) (s : State) : Result :=
  control g [.g a] s (fun s => s.settling (fun s =>
    let c := s.seat.core
    let ch := s.here.ctl.chain
    match s.barrierOf c ch (s.reg a) with
    | none => s.trap 7 (s.reg a)
    | some (num, n, cnt) =>
      let ln := (s.here.chain ch).launch
      let due := (s.subs.filter (fun u => u.pub == c)).map (fun u =>
        (num, cnt / n, u.id, u.lost + u.backlog.length + u.fifo.length))
      let s := s.modLaunch ln (fun l => { l with
        bars := l.bars.put num (n, cnt + 1), pend := l.pend ++ due.filter (fun p => p.2.2.2 != 0) })
      (s.modChain c ch (fun x => { x with bars := x.bars.put num cnt })).stepPc))

/-- `bartest` (R323). -/
def execBartest (g : Guard) (d : Pred) (a : Reg) (s : State) : Result :=
  control g [.q d, .g a] s (fun s =>
    let c := s.seat.core
    let ch := s.here.ctl.chain
    match s.barrierOf c ch (s.reg a) with
    | none => s.trap 7 (s.reg a)
    | some _ => s.resultQ d (s.roundDone c ch (s.reg a)))

/-! ## Special registers (R54, R381-R383) -/

/-- Kinds of issued matrix words: product, `mrd`, `mrd drain=1`, a draining word whose effect has taken
place, a settings word, `mcoop`. -/
def wProduct : Nat := 0
def wRead : Nat := 1
def wReadDrain : Nat := 2
def wDrain : Nat := 3
def wSetting : Nat := 4
def wCoop : Nat := 5

/-- Is it a draining word (R102)? -/
def MWord.drains (w : MWord) : Bool := w.kind == wReadDrain || w.kind == wDrain || w.kind == wCoop

/-- `mstat`.busy: a firing or a draining word is in progress (R111, R374). -/
def Mx.busy (m : Mx) : Bool := !m.pass.isEmpty || (m.held && m.heldDr) || m.words.any MWord.drains

/-- `mstat` (R111). -/
def Mx.stat (m : Mx) : Word :=
  (m.err ++ m.sweeps ++ (BitVec.ofBool m.conv) ++ (BitVec.ofBool m.infeas) ++ (BitVec.ofBool m.tp) ++ m.win
    ++ (BitVec.ofBool m.busy) ++ (0 : BitVec 1) ++ (BitVec.ofBool m.dirty)
    ++ (BitVec.ofBool m.sat) ++ m.fcode).setWidth 64

/-- `subst` (R137): each core's view of its sixteen entries. -/
def State.subst (s : State) (c : Nat) : Word :=
  s.subs.foldl (fun w u =>
    let v : Word := u.state.setWidth 64
    let w := if u.sub = c then w ||| (v <<< (2 * u.subIdx)) else w
    if u.pub = c ∧ !u.closed then w ||| (v <<< (2 * u.pubIdx)) else w) (0 : Word)

/-- The mode register of a partition (R13): what was last written to it. -/
def Part.mode (p : Part) : Word :=
  BitVec.ofNat 64 ((if p.dbg then 1 else 0) + (if p.detNext.getD p.det then 2 else 0))

/-- A write of the mode register: dbg at once; det at the next phase boundary, or at once with no live
job (R13). -/
def State.setMode (s : State) (p : Nat) (dbg det : Bool) : State :=
  let live := s.jobs.any (fun j => j.2.part == p && j.2.status.isNone)
  s.modPart p (fun x =>
    if live then { x with dbg := dbg, detNext := some det }
    else { x with dbg := dbg, det := det, detNext := none })

/-- `task` as it reads: its src field is fixed per core (R55). -/
def taskReg (c : Nat) (w : Word) : Word :=
  ((BitVec.ofNat 16 (srcOf c 0)) ++ w.extractLsb' 0 32).setWidth 64

/-- The special registers that `mfs` reads (R54, R382); `none` for a number the manual does not list. -/
def State.special (s : State) (num : Nat) : Option Word :=
  let k := s.here
  let x := k.chain k.ctl.chain
  if num = 0 then some (taskReg s.seat.core k.ctl.task)
  else if num = 1 then some k.ctl.stamp
  else if num = 2 then some (BitVec.ofNat 64 s.dial)
  else if num = 3 then some k.cause
  else if num = 4 then some k.epc
  else if num = 5 then some k.evalue
  else if num = 6 ∨ num = 7 then some (BitVec.ofNat 64 k.part)
  else if num = 0x10 then some (BitVec.ofNat 64 x.ld)
  else if num = 0x11 then some (BitVec.ofNat 64 x.st)
  else if num = 0x12 then some (BitVec.ofNat 64 x.cp)
  else if num = 0x13 then some (BitVec.ofNat 64 x.mt)
  else if num = 0x20 then some ((k.flagsAt s.cycle).setWidth 64)
  else if num = 0x21 then some k.mx.stat
  else if num = 0x22 then some (k.mx.flags.setWidth 64)
  else if num = 0x30 then some k.tagcfg
  else if num = 0x40 then some (s.subst s.seat.core)
  else if num = 0x50 then some (BitVec.ofNat 64 k.ctl.safecnt)
  else if num = 0x110 then some (s.part k.part).mode
  else if num = 0x111 then some k.dbgEntry
  else if 0x180 ≤ num ∧ num ≤ 0x19F then some (Tbl.get 0 k.dbgG (num - 0x180))
  else if num = 0x1A0 then some k.dbgQ
  else if 0x100 ≤ num ∧ num ≤ 0x1FF then some 0
  else none

/-- The word that the control sequencer executes. -/
def State.thisWord (s : State) : Word := (Tbl.get 0 s.here.store s.here.ctl.pc).setWidth 64

def execMfs (g : Guard) (d : Reg) (num : BitVec 12) (s : State) : Result :=
  control g [.g d] s (fun s =>
    if 0x100 ≤ num.toNat ∧ num.toNat ≤ 0x1FF ∧ !s.here.supervisor then s.trap 2 (num.setWidth 64)
    else match s.special num.toNat with
      | some v => s.result d v
      | none => s.trap 1 s.thisWord)

/-- `mts` to a register that the running code may write (R383); `none` where it may not. Flags that lanes
raise in the same cycle come after the write of `lstat` (R48). Of 0x1A0 the manual gives bits [7:0] only;
the model keeps all 64 (notes/assumptions/79.md). -/
def State.writeSpecial (s : State) (num : Nat) (v : Word) : Option State :=
  if num = 0x20 then
    some (s.modHere (fun k => { k with
      lstat := v.setWidth 5, raised := if k.raisedAt = s.cycle then k.raised else 0 })).stepPc
  else if num = 0x22 then some (s.modMx s.seat.core (fun m => { m with flags := v.setWidth 5 })).stepPc
  else if num = 0x21 then
    some (s.modMx s.seat.core (fun m => { m with
      err := v.extractLsb' 32 32, sweeps := v.extractLsb' 19 13
      conv := v.getLsbD 18, infeas := v.getLsbD 17 })).stepPc
  else if num = 0x30 then
    if v.extractLsb' 14 50 ≠ 0 ∨ v.extractLsb' 4 4 ≠ 0 ∨ 8 < (v.extractLsb' 0 4).toNat then some (s.trap 7 v)
    else some (s.modHere (fun k => { k with tagcfg := v, tags := [] })).stepPc
  else if 0x100 ≤ num ∧ num ≤ 0x1FF then
    if num = 0x110 then some (s.setMode s.here.part (v.getLsbD 0) (v.getLsbD 1)).stepPc
    else if num = 0x111 then some (s.modHere (fun k => { k with dbgEntry := v })).stepPc
    else if 0x180 ≤ num ∧ num ≤ 0x19F then
      some (s.modHere (fun k => { k with dbgG := Tbl.set 0 k.dbgG (num - 0x180) v })).stepPc
    else if num = 0x1A0 then some (s.modHere (fun k => { k with dbgQ := v })).stepPc
    else some s.stepPc
  else none

def execMts (g : Guard) (a : Reg) (num : BitVec 12) (s : State) : Result :=
  control g [.g a] s (fun s =>
    if 0x100 ≤ num.toNat ∧ num.toNat ≤ 0x1FF ∧ !s.here.supervisor then s.trap 2 (num.setWidth 64)
    else s.settling (fun s =>
      match s.writeSpecial num.toNat (s.reg a) with
      | some s => s
      | none => s.trap 1 s.thisWord))

/-! ## System words (R225, R245, R356, R402) -/

/-- The stream sequencer goes on at the next word. -/
def State.ssNext (s : State) : State := s.modHere (fun k => { k with ss := { k.ss with pc := k.ss.pc + 1 } })

/-- `nop`, on the control and on the stream sequencer. -/
def execNop (g : Guard) (s : State) : Result :=
  if s.seat.seq = .stream then
    (if s.here.ss.active ∧ !s.here.ss.halt ∧ !s.here.frozen then .next s.ssNext else .next s)
  else control g [] s State.stepPc

def execTrap (g : Guard) (code : BitVec 12) (s : State) : Result :=
  control g [] s (fun s => s.trap 20 (code.setWidth 64))

def execBrk (g : Guard) (s : State) : Result :=
  control g [] s (fun s =>
    let k := s.here
    if (s.part k.part).dbg && !k.supervisor then
      (s.modCtl s.seat.core (fun x => { x with safecnt := x.safecnt + 1 })).debugHalt s.seat.core
    else s.trap 19 (BitVec.ofNat 64 k.ctl.pc))

def execEret (g : Guard) (s : State) : Result :=
  control g [] s (fun s =>
    if s.here.halted.isSome then s.eret s.seat.core
    else if s.here.firmware then s.trap 1 s.thisWord
    else s.trap 2 0)

/-- `end` on the stream sequencer, its join (R354, R50): idle, its chain's fork is done. -/
def execEndJoin (s : State) : Result :=
  let k := s.here
  if s.seat.seq ≠ .stream ∨ !k.ss.active ∨ k.ss.halt ∨ k.frozen then .next s
  else
    let s := s.modHere (fun k => { k with ss := { k.ss with active := false, pc := k.ss.pc + 1 } })
    .next (s.modChain s.seat.core k.ss.chain (fun x => { x with forkS := false }))

/-- The matrix sequencer stops at its word with a cause and fcode (R113, R227). -/
def State.matrixStop (s : State) (cause : Nat) (ev : Word) (fcode : BitVec 4) : State :=
  let c := s.seat.core
  let k := s.here
  let s := s.reportCore c 1 cause false k.mx.pc ev
  let s := s.modMx c (fun m => { m with halt := true, fcode := fcode })
  s.faultUnit c k.mx.chain

/-- The stream sequencer stops at its word (R299, R414): its record names the word's port, `none` where the
word has none and the manual states no value (R229, notes/assumptions/9.md). The chain's unit completes as
faulted once its other counted operations have completed, and no continuation of it runs. -/
def State.streamStop (s : State) (cause : Nat) (ev : Word) (port : Option Nat) : State :=
  let c := s.seat.core
  let k := s.here
  let at_ := port.getD ((Config.freeWord s.free).toNat % 2 ^ 14)
  let s := { s with free := s.free + 1 }
  let s := s.reportCore c 2 cause false at_ ev
  let s := s.modHere (fun k => { k with ss := { k.ss with halt := true } })
  s.modChain c k.ss.chain (fun x => { x with status := .faulted })

/-- ILLEGAL_INSTRUCTION (R3, R50, R113, R298, R299): the sequencer of the seat issues an illegal word; a
matrix word, only after an earlier draining word has completed (R102). -/
def execIllegalInstruction (w : BitVec 32) (s : State) : Result :=
  let k := s.here
  match s.seat.seq with
  | .control =>
    if k.ctl.slot = none then .next s
    else if k.ctl.killed then .next (s.killTask s.seat.core)
    else .next (s.trap 1 (w.setWidth 64))
  | .matrix =>
    if !k.mx.active || k.mx.halt || k.frozen || k.mx.words.any MWord.drains then .next s
    else .next (s.matrixStop 1 (w.setWidth 64) 0)
  | .stream =>
    if !k.ss.active || k.ss.halt || k.frozen then .next s else .next (s.streamStop 1 (w.setWidth 64) none)

/-! ## The scheduler (R57-R61) -/

/-- Sit at a core's sequencer. -/
def State.sit (s : State) (c : Nat) (q : Seq) : State := { s with seat := { core := c, lane := 0, seq := q } }

/-- Smaller keys first. -/
def keyLt : List Nat → List Nat → Bool
  | [], _ => false
  | _, [] => false
  | a :: r, b :: t => a < b || (a == b && keyLt r t)

/-- The rank of an instance (R60): level, aged, its moment when aged, vc, its moment, slots before
entries, index. -/
def rankKey (e : TaskEntry) (aged : Bool) (since kind idx : Nat) : List Nat :=
  [7 - (if aged then 7 else e.prio.toNat), if aged then 0 else 1, if aged then since else 0,
    e.vc.toNat, since, kind, idx]

/-- Who may be dispatched: a slot, or a channel-triggered entry (R58). -/
inductive Cand where
  | slot (n : Nat)
  | entry (e : Nat)
  deriving DecidableEq, Repr

/-- Is an entry channel-triggered (R58)? The moment since which it is runnable (R60). -/
def Core.triggered (k : Core) (e : Nat) : Option Nat :=
  let t := k.task e
  match (k.vc t.vc.toNat).q with
  | [] => none
  | x :: _ =>
    if t.valid && k.armed && !k.slots.any (fun y => y.2.idx == e && y.2.how == 0 && y.2.st != .ended) then
      some (max x.at_ (Tbl.get 0 k.freed e))
    else none

/-- The moment since which a slot's instance may be dispatched (R60): for one that waits to hold the oldest
stamp, the moment at which it came to (R174), unless it had aged before. -/
def Slot.readyAt (x : Slot) (cyc : Nat) : Nat :=
  if x.st == .waitOldest && !x.aged then x.oldAt.getD cyc else x.since

/-- The runnable instances of a core with their ranks. -/
def State.runnable (s : State) (c : Nat) : List (List Nat × Cand) :=
  let k := s.core c
  let slots := k.slots.filterMap (fun x =>
    let go := some (rankKey (k.task x.2.idx) x.2.aged (x.2.readyAt s.cycle) 0 x.1, Cand.slot x.1)
    match x.2.st with
    | .ready => go
    | .waitOldest => if s.oldest (k.chain x.2.chain).launch c x.1 x.2.stamp then go else none
    | _ => none)
  let entries := if k.freeSlot.isNone then [] else
    (List.range 32).filterMap (fun e =>
      (k.triggered e).map (fun since => (rankKey (k.task e) (k.agedE.contains e) since 1 e, Cand.entry e)))
  slots ++ entries

/-- The least of a list of ranked candidates. -/
def least : List (List Nat × Cand) → Option (List Nat × Cand)
  | [] => none
  | x :: r =>
    match least r with
    | none => some x
    | some y => if keyLt y.1 x.1 then some y else some x

/-- The `task` register (R55). -/
def taskWord (c : Nat) (start : BitVec 14) (e : TaskEntry) (how : BitVec 3) (idx : Nat) : Word :=
  ((BitVec.ofNat 16 (srcOf c 0)) ++ (0 : BitVec 2) ++ start ++ e.prio ++ e.vc ++ how ++ BitVec.ofNat 5 idx).setWidth 64

/-- Registers of a task at its start (R53): the carry values in g24-g31. -/
def startRegs (carry : List Word) : Tbl Word :=
  ((enum carry).map (fun x => (24 + x.1, x.2))).filter (fun x => x.2 != 0)

/-- A core starts the instance of a slot (R53, R61, R174): a late instance of the ordered domain and one
of an entry hit by an uncorrectable error trap (R172, R246). -/
def State.startSlot (s : State) (c n : Nat) (x : Slot) : State :=
  let k := s.core c
  let e := k.task x.idx
  let s := s.sit c .control
  let irrev := x.irrev || x.st == .waitOldest
  let s := s.modCore c (fun k => { k with
    slots := k.slots.put n { x with st := .running, irrev := irrev, oldAt := none }
    ctl :=
      { slot := some n, run := s.fresh, pc := x.start.toNat, g := startRegs x.carry
        task := taskWord c x.start e x.how x.idx, stamp := x.stamp, chain := x.chain
        work := { irrev := irrev } } })
  let s := s.next
  if k.badTasks.contains x.idx then s.trap 22 (Config.structureNumber 1)
  else if e.ord then
    match s.launches.find (k.chain x.chain).launch with
    | some l => match l.last with
      | some y => if x.stamp.toNat < y.1 then s.trap 12 x.stamp else s
      | none => s
    | none => s
  else s

/-- A suspended task goes on with the registers that were saved (R68, R239, R241). -/
def State.reinstall (s : State) (c n : Nat) (t : Ctl) : State :=
  s.modCore c (fun k => { k with
    slots := k.slots.map (fun x => if x.1 = n then (n, { x.2 with st := .running, saved := none }) else x)
    ctl := t })

/-- TASK_DISPATCH (R60, R61): after a resume, first the suspended task goes on; no task of a subscriber
before its entries are live again (R137). -/
def execTaskDispatch (c : Nat) (s : State) : Result :=
  let k := s.core c
  if k.ctl.slot.isSome || k.preempt.isSome || k.frozen || (s.part k.part).pre != .running
      || s.resyncing c then .next s
  else
    match k.slots.findSome? (fun x => x.2.saved.map (fun t => (x.1, t))) with
    | some (n, t) => .next (s.reinstall c n t)
    | none => match least (s.runnable c) with
    | none => .next s
    | some (_, .slot n) =>
      match k.slots.find n with
      | some x => .next (s.startSlot c n x)
      | none => .next s
    | some (_, .entry e) =>
      match k.freeSlot, (k.vc (k.task e).vc.toNat).q with
      | some n, t :: _ =>
        let ent := k.task e
        let x : Slot :=
          { start := ent.entry, idx := e, how := 0, stamp := ent.sbase + BitVec.ofNat 64 (t.n * ent.sinc.toNat)
            chain := s.fresh, since := (k.triggered e).getD 0, aged := k.agedE.contains e }
        let s := s.modCore c (fun k => { k with
          chains := k.chains.put s.fresh { idx := e, launch := k.launch }
          agedE := k.agedE.filter (· != e) })
        .next (s.next.startSlot c n x)
      | _, _ => .next s

/-- INSTANCE_AGED (R60): a slot's instance, or as 64 + e a channel-triggered entry, that has been
runnable for 65,536 cycles. An entry that has aged stays aged until it is dispatched, also when another
task takes its channel's head word (notes/assumptions/81.md). -/
def execInstanceAged (c slot : Nat) (s : State) : Result :=
  let k := s.core c
  if slot < 64 then
    match k.slots.find slot with
    | some x =>
      let able := x.st == .ready
        || (x.st == .waitOldest && s.oldest (k.chain x.chain).launch c slot x.stamp)
      if able ∧ !x.aged ∧ x.readyAt s.cycle + 65536 ≤ s.cycle then
        .next (s.modSlot c slot (fun y => { y with aged := true, since := x.readyAt s.cycle }))
      else .next s
    | none => .next s
  else
    match k.triggered (slot - 64) with
    | some t =>
      if t + 65536 ≤ s.cycle ∧ !k.agedE.contains (slot - 64) then
        .next (s.modCore c (fun k => { k with agedE := (slot - 64) :: k.agedE }))
      else .next s
    | none => .next s

/-- Does a continuation's wake condition hold (R63)? -/
def State.wakes (s : State) (c : Nat) (x : Slot) (k : WakeCode) : Bool :=
  let a := x.carry.headD 0
  let ch := (s.core c).chain x.chain
  match k with
  | .imm => true
  | .cnt => waitTest ch (a.extractLsb' 12 4) (a.extractLsb' 8 4) (a.extractLsb' 4 4) (a.extractLsb' 0 4)
  | .line => !s.isEmpty (lineKey c (localOff a / 128))
  | .chan => !((s.core c).vc (a.extractLsb' 0 5).toNat).q.isEmpty
  | .bar => s.roundDone c x.chain a
  | .rdv => !ch.forkM && !ch.forkS

/-- CONTINUATION_WAKE (R63, R71, R435): the continuation has its slot once its task's commit is done. -/
def execContinuationWake (c slot : Nat) (s : State) : Result :=
  match (s.core c).slots.find slot with
  | some x =>
    match x.st with
    | .waitWake k =>
      if s.wakes c x k then .next (s.modSlot c slot (fun x => { x with st := .ready, since := s.cycle }))
      else .next s
    | _ => .next s
  | none => .next s

/-- PREEMPT_FORCED_STOP (R237 step 2, R239): 4,096 cycles after the request an unsettled task is rolled
back, a settled one is suspended with every register. -/
def execPreemptForcedStop (c : Nat) (s : State) : Result :=
  let k := s.core c
  match k.preempt with
  | none => .next s
  | some t =>
    if s.cycle < t + 4096 || k.ctl.slot.isNone || k.halted.isSome then .next s
    else if k.ctl.work.settled then .next (s.suspend c k.ctl)
    else .next (s.unwind c .ready)

/-! ## Commits (R168-R172) -/

/-- Change a commit of a core. -/
def State.modCommit (s : State) (c id : Nat) (f : Commit → Commit) : State :=
  s.modCore c (fun k => { k with commits := k.commits.map (fun m => if m.id = id then f m else m) })

/-- Apply all of a task's bytes for one target core in one step (R169), and abort the later readers of
the ordered domain (R173). -/
def State.applyTo (s : State) (c tgt : Nat) (m : Commit) : State :=
  let mine := m.work.wbuf.filter (fun x => x.1 / 2 ^ 19 == tgt)
  let lines := (mine.map (fun x => x.1 / 128)).eraseDups
  lines.foldl (fun s l =>
    let bytes : Tbl Byte := (mine.filter (fun x => x.1 / 128 == l)).map (fun x => (x.1 % 128, x.2))
    let s := s.lineStore tgt (l % 4096) bytes false true
    if m.ord then s.abortReaders m.launch l (ordKey c (m.slot.getD 64) m.stamp) else s) s

/-- An ordered commit starts: instances that precede it are late from now on (R172). -/
def State.commitBegins (s : State) (c : Nat) (m : Commit) : State :=
  if m.ord then
    s.modLaunch m.launch (fun l =>
      let key := ordKey c (m.slot.getD 64) m.stamp
      { l with last := match l.last with
        | some y => if ordLt y key then some key else some y
        | none => some key })
  else s

/-- Is another commit of the ordered domain under way (R172)? They commit one at a time. -/
def State.domainBusy (s : State) (m : Commit) : Bool :=
  s.cores.any (fun y => y.2.commits.any (fun x =>
    x.ord && x.launch == m.launch && x.id != m.id && x.stage != .waiting))

/-- Has the ended run an atomic at a scratchpad port, or a peer `fset` on a ring, that has not taken
effect? They act ahead of the task's own stores (R168, R176). -/
def State.actsDue (s : State) (c run : Nat) : Bool :=
  s.cores.any (fun y => y.2.portq.any (fun r => r.core == c && r.run == run))
    || ((s.core c).ring0 ++ (s.core c).ring1).any (fun p => match p with | .fset _ r _ _ _ => r == run)

/-- Does an atomic at the target's port hold a word that the commit writes there (R139)? -/
def Core.commitHeld (k : Core) (tgt : Nat) (w : Tbl Byte) : Bool :=
  w.any (fun x => x.1 / 2 ^ 19 == tgt && k.wordHeld (x.1 % 2 ^ 19) 1)

/-- The commit is finished: the continuation takes its slot, or the slot is free (R170, R172). -/
def State.finishCommit (s : State) (c : Nat) (m : Commit) : State :=
  let s := s.modCore c (fun k => { k with commits := k.commits.filter (fun x => x.id != m.id) })
  match m.slot with
  | none => s
  | some n =>
    match m.cont with
    | some x =>
      if m.dead then s.modCore c (fun k => { k with slots := k.slots.drop n })
      else
        let k := match x.st with
          | .waitWake k => s.wakes c x k
          | _ => false
        let x := if k then { x with st := .ready, since := s.cycle } else x
        s.modCore c (fun y => { y with slots := y.slots.put n x })
    | none => s.modCore c (fun k => { k with slots := k.slots.drop n })

/-- Deliver one `send` or create one `spawn` instance (R169, R422, R425). The second component: it has been
taken; a channel that the row-tag fault stops holds its sender (R212), and an object's name goes ahead of its
tokens (R149). -/
def State.deliverOut (s : State) (c : Nat) (launch : Nat) (o : Out) : State × Bool :=
  match o with
  | .sendVc tgt v t =>
    match s.vcArrive tgt v t with
    | (s, true) => (s.modVc tgt v (fun x => { x with resv := x.resv - 1 }), true)
    | (s, false) => (s, false)
  | .sendSink p t =>
    if s.nameAhead c (32 + p) then
      ((s.modPort c (16 + p) (fun x => { x with resv := x.resv - 1 })).sinkPut c p t, true)
    else (s, false)
  | .spawn n e start stamp carry =>
    let x : Slot :=
      { st := .ready, start := start, idx := e, how := 1, stamp := stamp, carry := carry
        chain := s.fresh, since := s.cycle }
    (State.next (s.modCore c (fun k => { k with
      slots := k.slots.put n x, chains := k.chains.put s.fresh { idx := e, launch := launch } })), true)

/-- TASK_COMMIT (R169): one step of the commit at an index. -/
def execTaskCommit (c idx : Nat) (s : State) : Result :=
  match (s.core c).commits[idx]? with
  | none => .next s
  | some m =>
    if m.dead then .next ((m.work.outs.foldl (fun s o => s.release c o) s).finishCommit c m)
    else match m.stage with
      | .waiting =>
        if s.fenced c 0 m.seq || s.actsDue c m.run
            || (m.ord && (!s.oldest m.launch c (m.slot.getD 64) m.stamp || s.domainBusy m)) then .next s
        else .next ((s.commitBegins c m).modCommit c m.id (fun m => { m with stage := .scratch }))
      | .scratch =>
        match m.work.wbuf with
        | [] => .next (s.modCommit c m.id (fun m => { m with stage := .stgs }))
        | x :: _ =>
          let tgt := x.1 / 2 ^ 19
          if (s.core tgt).commitHeld tgt m.work.wbuf then .next s
          else
          let s := s.applyTo c tgt m
          .next (s.modCommit c m.id (fun m =>
            { m with work := { m.work with wbuf := m.work.wbuf.filter (fun x => x.1 / 2 ^ 19 != tgt) } }))
      | .stgs =>
        match m.work.stgs with
        | [] => .next (s.modCommit c m.id (fun m => { m with stage := .outs }))
        | g :: rest =>
          if ((s.core c).chain m.chain).st = 65535
              || (List.range g.lines).any (fun i => (s.core c).lineHeld (g.line + i)) then .next s
          else
            let r : StgCmd :=
              { id := s.fresh, chain := m.chain, va := g.va, data := s.spBytes c (g.line * 128) (g.lines * 128)
                bad := (List.range g.lines).map (fun i => s.isBad (lineKey c (g.line + i))), seq := m.seq }
            let s := s.modCore c (fun k => { k with stgs := k.stgs ++ [r] })
            let s := s.modChain c m.chain (fun x => { x with st := x.st + 1 })
            .next (s.next.modCommit c m.id (fun m => { m with work := { m.work with stgs := rest } }))
      | .outs =>
        match m.work.outs with
        | [] => .next (s.finishCommit c m)
        | o :: rest =>
          match s.deliverOut c m.launch o with
          | (s, true) => .next (s.modCommit c m.id (fun m => { m with work := { m.work with outs := rest } }))
          | (s, false) => .next s

/-- The `rdv` continuations of a chain are given up. -/
def Core.dropRdv (chain : Nat) (k : Core) : Core :=
  { k with slots := k.slots.filter (fun y => !(y.2.chain == chain && y.2.st == .waitWake .rdv)) }

/-- UNIT_COMPLETION (R18, R19, R437): the task has ended, its commits are done, its forks have joined or
stopped, and every counter is 0. A sequencer that a fault has stopped in the chain's fork is idle then, so
that a later task can fork it (R69); an `rdv` continuation that waits for it never becomes runnable
(R299). -/
def execUnitCompletion (c chain : Nat) (s : State) : Result :=
  let k := s.core c
  match k.chains.find chain with
  | none => .next s
  | some x =>
    let running := k.ctl.slot.isSome && k.ctl.chain == chain
    let stuck := x.status == .faulted && k.slots.any (fun y => y.2.chain == chain && y.2.st == .waitWake .rdv)
    let forks := (k.mx.active && !k.mx.halt && k.mx.chain == chain)
      || (k.ss.active && !k.ss.halt && k.ss.chain == chain)
    if x.posted || running || forks || x.ld != 0 || x.st != 0 || x.cp != 0 || x.mt != 0
        || k.commits.any (fun m => m.chain == chain) || !(x.ended || stuck) then .next s
    else
      let s := s.modChain c chain (fun x => { x with posted := true })
      let s := s.modCore c (fun k => (k.unfork chain).dropRdv chain)
      if x.status = .faulted ∧ x.launch ≠ 0 then
        .next ((s.modLaunch x.launch (fun l => { l with fault := true })).askCancel 1 x.launch)
      else .next s

end Sys2Proof.Machine
end

