-- ==== Sys2Proof/Machine/Stream.lean ====
section
/-!
DEFINITION. The stream engine: descriptors and walks (R127-R130), stream words on the control and on the
stream sequencer (R131-R133, R414-R420), and ports (R129, R130, R212).
-/

namespace Sys2Proof.Machine

/-! ## Descriptors (R127, R128) -/

abbrev Desc := BitVec 512

def Desc.base (d : Desc) : Word := d.extractLsb' 0 64
def Desc.cnt (d : Desc) (i : Nat) : Nat := (d.extractLsb' (64 + 16 * i) 16).toNat
def Desc.stride (d : Desc) (i : Nat) : Int := (d.extractLsb' (128 + 32 * i) 32).toInt
def Desc.ext (d : Desc) (i : Nat) : Nat := (d.extractLsb' (256 + 16 * i) 16).toNat
def Desc.org (d : Desc) (i : Nat) : BitVec 16 := d.extractLsb' (320 + 16 * i) 16
def Desc.pad (d : Desc) : Nat := (d.extractLsb' 384 32).toNat
def Desc.rank (d : Desc) (i : Nat) : Nat := (d.extractLsb' (424 + 3 * i) 3).toNat
def Desc.esz (d : Desc) : Nat := (d.extractLsb' 416 2).toNat
def Desc.size (d : Desc) : Nat := 2 ^ d.esz
def Desc.drain (d : Desc) : Bool := d.getLsbD 438
def Desc.fill (d : Desc) : Bool := d.getLsbD 437

/-- May the descriptor be bound to a source or a sink port (R415)? -/
def Desc.ok (d : Desc) (sink : Bool) : Bool :=
  d.extractLsb' 448 64 == 0 && d.extractLsb' 439 9 == 0 && !d.getLsbD 436 && d.extractLsb' 418 3 == 0
    && d.esz != 3 && !(sink && d.drain) && !(!sink && d.fill)

/-- A descriptor with an amount added to each origin, modulo 2^16 (R416). -/
def Desc.shift (d : Desc) (ga : Word) : Desc :=
  (List.range 4).foldl (fun x i =>
    let o := d.org i + ga.extractLsb' (16 * i) 16
    let clear : Desc := ~~~((BitVec.allOnes 16).setWidth 512 <<< (320 + 16 * i))
    (x &&& clear) ||| (o.setWidth 512 <<< (320 + 16 * i))) d

/-! ## Walks (R129) -/

/-- The address of the element at a position, `none` outside the tensor. -/
def Desc.elem (d : Desc) (x0 x1 x2 x3 : Int) : Option Word :=
  let inside (x : Int) (i : Nat) : Bool := 0 ≤ x && x < d.ext i
  if inside x0 0 && inside x1 1 && inside x2 2 && inside x3 3 then
    some (d.base + BitVec.ofInt 64
      (x0 * d.stride 0 + x1 * d.stride 1 + x2 * d.stride 2 + x3 * d.stride 3))
  else none

/-- The rank that ends a run of dim 0: the runs of higher dims that end with it merge into the highest
rank (R76, R129). -/
def Desc.endRank (d : Desc) (last1 last2 last3 : Bool) : Nat :=
  max (d.rank 0) (if last1 then max (d.rank 1) (if last2 then max (d.rank 2) (if last3 then d.rank 3 else 0)
    else 0) else 0)

/-- Dims 0-2 of a walk at one x3. -/
def Desc.walk2 (d : Desc) (o0 o1 : BitVec 16) (x3 : Int) (last3 : Bool) : List Item :=
  (List.range (d.cnt 2 + 1)).flatMap (fun (i2 : Nat) =>
    (List.range (d.cnt 1 + 1)).flatMap (fun (i1 : Nat) =>
      let run := (List.range (d.cnt 0 + 1)).map (fun (i0 : Nat) =>
        d.elem (o0.toInt + i0) (o1.toInt + i1) ((d.org 2).toInt + i2) x3)
      let r := d.endRank (i1 == d.cnt 1) (i2 == d.cnt 2) last3
      (chunks (4 / d.size) run.length run).map Item.data ++ (if r = 0 then [] else [.mark r])))

/-- One walk of a descriptor with its two lowest origins. -/
def Desc.walk (d : Desc) (o0 o1 : BitVec 16) : List Item :=
  (List.range (d.cnt 3 + 1)).flatMap (fun (i3 : Nat) => d.walk2 o0 o1 ((d.org 3).toInt + i3) (i3 == d.cnt 3))

/-- The walk of a command (R129, R417, R418). The passes of a gather take the place of dim 3. -/
def Cmd.items (m : Cmd) : List Item :=
  match m.kind with
  | .copy => Desc.walk m.d (Desc.org m.d 0) (Desc.org m.d 1)
  | .sim2c passes off0 =>
    (List.range passes).flatMap (fun p =>
      Desc.walk m.d (Desc.org m.d 0 + off0) (Desc.org m.d 1 + BitVec.ofNat 16 p))
  | .gath l =>
    (enum l).flatMap (fun x =>
      Desc.walk2 m.d (Desc.org m.d 0) (Desc.org m.d 1) x.2.toNat (x.1 + 1 == l.length))

/-- The scratchpad lines of an access. -/
def linesOf (c : Nat) (a : Word) (n : Nat) : List Nat :=
  match placeOf c a n with
  | .scratch t off =>
    if off / 128 = (off + n - 1) / 128 then [lineKey t (off / 128)]
    else [lineKey t (off / 128), lineKey t (off / 128 + 1)]
  | _ => []

/-- The scratchpad lines that an item touches. -/
def Item.lines (c n : Nat) (i : Item) : List Nat :=
  match i with
  | .data l => l.flatMap (fun a => match a with
    | some a => linesOf c a n
    | none => [])
  | .mark _ => []

def itemsLines (c n : Nat) (l : List Item) : List Nat := (l.flatMap (Item.lines c n)).eraseDups

/-- Lines that are touched now and by nothing that follows. -/
def finished (c n : Nat) (i : Item) (rest : List Item) : List Nat :=
  ((i.lines c n).eraseDups).filter (fun l => rest.all (fun j => !(j.lines c n).contains l))

/-! ## Stream words (R131, R132, R414-R419) -/

/-- What a stream word comes to at issue: a fault, a refusal without effect, or its effect. -/
inductive Sres where
  | fault (cause : Nat) (ev : Word)
  | no
  | yes (s : State)
  deriving DecidableEq, Repr

/-- The chain of the sequencer that issues a stream word. -/
def State.streamChain (s : State) : Nat :=
  match s.seat.seq with
  | .stream => s.here.ss.chain
  | _ => s.here.ctl.chain

/-- A stream word on the stream sequencer (R132, R299, R414): a refusal stalls it; a fault's record names
the port of `gp`, where it is one (R229). -/
def onStream (gp : Word) (s : State) (f : State → Sres) : Result :=
  if !s.here.ss.active || s.here.ss.halt || s.here.frozen then .next s
  else match f s with
    | .fault c v => .next (s.streamStop c v ((portCode gp).map (· % 16)))
    | .no => .next s
    | .yes s => .next s.ssNext

/-- A stream word with a predicate result, on the port code in `b`. Operand reads of an after-class that a
fence holds wait at issue (R180, notes/assumptions/21.md). -/
def streamWord (g : Guard) (d : Pred) (b : Reg) (uses : List Dest) (held : State → Bool) (s : State)
    (f : State → Sres) : Result :=
  if s.seat.seq = .stream then onStream (s.reg b) s (fun s => if held s then .no else f s)
  else control g (.q d :: .g b :: uses) s (fun s =>
    if held s then s
    else s.settling (fun s =>
      match f s with
      | .fault c v => s.trap c v
      | .no => s.resultQ d false
      | .yes s => s.resultQ d true))

/-- Does a fence hold an operation of a class that the core would issue now? -/
def State.holdsNow (s : State) (cls : Nat) : Bool := s.fenced s.seat.core cls s.opSeq

/-- No fence holds the word at issue. -/
def notHeld (_ : State) : Bool := false

/-- The checks of a local operand block: cause 4 outside the local space or window, cause 5 misaligned. -/
def localBlock (a : Word) (n align : Nat) : Option (Nat × Word) :=
  if a.extractLsb' 60 4 ≠ 1 ∨ 0x80000 < localOff a + n then some (4, a)
  else if a.toNat % align ≠ 0 then some (5, a)
  else none

/-- The lines that `n` bytes of the core's scratchpad touch. -/
def spLines (c off n : Nat) : List Nat :=
  (List.range ((off + n - 1) / 128 - off / 128 + 1)).map (fun i => lineKey c (off / 128 + i))

/-- A number's bytes as a bit vector. -/
def bytesVec (w : Nat) (l : List Byte) : BitVec w := BitVec.ofNat w (leNat l)

/-- `sbind` (R415). -/
def bindPort (s : State) (a gp : Word) : Sres :=
  let c := s.seat.core
  match portCode gp with
  | none => .fault 7 gp
  | some p =>
    match localBlock a 64 64 with
    | some (cause, v) => .fault cause v
    | none =>
      let x := s.here.port p
      let l := lineKey c (localOff a / 128)
      if !x.q.isEmpty || x.run.isSome || x.circuit || s.isEmpty l then .no
      else
        let d : Desc := bytesVec 512 (s.spBytes c (localOff a) 64)
        if !d.ok (16 ≤ p) || s.isBad l then .fault 7 a
        else .yes (s.modPort c p (fun x => { x with desc := some d, posted := 0, read := 0 }))

def execSbind (g : Guard) (d : Pred) (a b : Reg) (s : State) : Result :=
  streamWord g d b [.g a] (fun s => s.holdsNow 1) s (fun s => bindPort s (s.reg a) (s.reg b))

/-- Queue a command, unless the queue is full, the reader count of a line it drains would pass 15, or the
chain's cnt.cp is full (R133, R416). -/
def queueCmd (s : State) (p : Nat) (kind : CmdKind) (d : Desc) : Sres :=
  let c := s.seat.core
  let ch := s.streamChain
  let m : Cmd := ⟨kind, d, ch, s.opSeq⟩
  let lines := if d.drain then itemsLines c d.size m.items else []
  if 8 ≤ (s.here.port p).q.length || lines.any (fun l => 15 ≤ s.readersOf l) then .no
  else if (s.here.chain ch).cp = 65535 then .fault 11 2
  else
    let s := { s with readers := lines.foldl (fun t l => Tbl.set 0 t l (Tbl.get 0 t l + 1)) s.readers }
    let s := s.modPort c p (fun x => { x with q := x.q ++ [m] })
    .yes (s.modChain c ch (fun x => { x with cp := x.cp + 1 })).bump

def execScopy (g : Guard) (d : Pred) (a b : Reg) (s : State) : Result :=
  streamWord g d b [.g a] notHeld s (fun s =>
    match portCode (s.reg b) with
    | none => .fault 7 (s.reg b)
    | some p => match (s.here.port p).desc with
      | none => .no
      | some x => queueCmd s p .copy (Desc.shift x (s.reg a)))

/-- The source port of a word that takes no sink port (R414). -/
def sourceCode (v : Word) : Option Nat := (portCode v).bind (fun p => if p < 16 then some p else none)

def execSim2c (g : Guard) (d : Pred) (a b : Reg) (s : State) : Result :=
  streamWord g d b [.g a] notHeld s (fun s =>
    let ga := s.reg a
    match sourceCode (s.reg b) with
    | none => .fault 7 (s.reg b)
    | some p =>
      if ga.extractLsb' 32 32 ≠ 0 then .fault 7 ga
      else match (s.here.port p).desc with
        | none => .no
        | some x => queueCmd s p (.sim2c ((ga.extractLsb' 0 16).toNat + 1) (ga.extractLsb' 16 16)) x)

def execSgath (g : Guard) (d : Pred) (a b : Reg) (m : BitVec 7) (s : State) : Result :=
  streamWord g d b [.g a] (fun s => s.holdsNow 3) s (fun s =>
    let ga := s.reg a
    let n := m.toNat + 1
    let c := s.seat.core
    match sourceCode (s.reg b) with
    | none => .fault 7 (s.reg b)
    | some p =>
      match localBlock ga (4 * n) 4 with
      | some (cause, v) => .fault cause v
      | none =>
        let lines := spLines c (localOff ga) (4 * n)
        match (s.here.port p).desc with
        | none => .no
        | some x =>
          if lines.any s.isEmpty then .no
          else if lines.any s.isBad then .fault 7 ga
          else
            let l := (chunks 4 n (s.spBytes c (localOff ga) (4 * n))).map (bytesVec 32)
            queueCmd s p (.gath l) x)

/-- A command completes without its remaining work: the lines whose reader count it still held count as
read by it, and its chain's cnt.cp falls (R133, R419). -/
def State.dropCmd (s : State) (c : Nat) (m : Cmd) (rest : List Item) : State :=
  let s := if Desc.drain m.d then (itemsLines c (Desc.size m.d) rest).foldl State.consumed s else s
  s.modChain c m.chain (fun x => { x with cp := x.cp - 1 })

/-- Complete at once the commands of a port that a test picks. -/
def State.dropCmds (s : State) (c p : Nat) (pick : Cmd → Bool) : State :=
  let x := (s.core c).port p
  let s := match x.run with
    | some r => if pick r.cmd then
        (s.dropCmd c r.cmd r.items).modPort c p (fun x => { x with run := none, stalled := false })
      else s
    | none => s
  let s := (x.q.filter pick).foldl (fun s m => s.dropCmd c m m.items) s
  s.modPort c p (fun x => { x with q := x.q.filter (fun m => !pick m) })

/-- The effect of `sstop` and the value it gives (R419). -/
def State.stopPort (s : State) (p : Nat) (keep : Bool) : State × Word :=
  let x := s.here.port p
  let v : Word := (x.read ++ x.posted).setWidth 64
  (if keep then s else s.dropCmds s.seat.core p (fun _ => true), v)

def execSstop (g : Guard) (d b : Reg) (keep : Bool) (s : State) : Result :=
  if s.seat.seq = .stream then
    onStream (s.reg b) s (fun s => match portCode (s.reg b) with
      | none => .fault 7 (s.reg b)
      | some p => .yes (s.stopPort p keep).1)
  else control g [.g d, .g b] s (fun s => s.settling (fun s =>
    match portCode (s.reg b) with
    | none => s.trap 7 (s.reg b)
    | some p => (s.stopPort p keep).1.result d (s.stopPort p keep).2))

/-! ## Ports at work (R129, R130, R420) -/

/-- STREAM_COMMAND_START (R420): the next command of an idle port, unless a fence holds it. -/
def execStreamCommandStart (c port : Nat) (s : State) : Result :=
  let x := (s.core c).port port
  match x.run, x.q with
  | none, m :: r =>
    let cls := match m.kind with | .gath _ => 3 | _ => 1
    if (s.core c).frozen || s.fenced c cls m.seq then .next s
    else
      let items := if port < 16 then m.items
        else m.items.filter (fun i => match i with | .data _ => true | .mark _ => false)
      .next (s.modPort c port (fun x => { x with q := r, run := some { cmd := m, items := items } }))
  | _, _ => .next s

/-- Why an element cannot be reached, with its address (R115, R119). -/
def State.elemFault (s : State) (c : Nat) (write : Bool) (n : Nat) (a : Word) : Option (Nat × Word) :=
  match placeOf c a n with
  | .bad => some (4, a)
  | .scratch _ _ => none
  | .global => if (s.translateAll (dieOf c) (s.core c).part a.toNat write n).isNone then some (6, a) else none

/-- The addresses of an item that lie inside the tensor. -/
def Item.inside (i : Item) : List Word :=
  match i with
  | .data l => l.filterMap id
  | .mark _ => []

/-- The 128-byte line of an address. -/
def lineOf (a : Word) : Nat := a.toNat / 128

/-- The command stands inside a line: its next element lies in the line of the last one (R237). -/
def Running.midLine (r : Running) : Bool :=
  match r.last, r.items.findSome? (fun i => i.inside.head?) with
  | some l, some a => l == lineOf a
  | _, _ => false

/-- A stream that must stop goes on to its next line boundary (R237 step 3, R243). -/
def Core.portStands (k : Core) (r : Running) : Bool := k.frozen && !r.midLine

/-- The rest of a walk after an item. -/
def Running.after (r : Running) (i : Item) (rest : List Item) : Running :=
  { r with items := rest, last := (i.inside.getLast?.map lineOf).or r.last }

/-- Does an atomic at a scratchpad port hold a word of an element (R139)? -/
def State.elemHeld (s : State) (c n : Nat) (a : Word) : Bool :=
  match placeOf c a n with
  | .scratch t off => (s.core t).wordHeld off n
  | _ => false

/-- Bytes of global memory that an item moves. -/
def globalBytes (n : Nat) (l : List Word) : Nat := n * (l.filter (fun a => a.extractLsb' 60 4 == 0)).length

/-- Read one element: its value and poison. -/
def State.readElem (s : State) (c n : Nat) (a : Word) : State × Nat × Bool :=
  match placeOf c a n with
  | .scratch t off => (s, leNat (s.spBytes t off n), (linesOf c a n).any s.isBad)
  | .global => match s.gRead (dieOf c) (s.core c).part a.toNat n with
    | some (s, bytes, bad) => (s, leNat bytes, bad)
    | none => (s, 0, false)
  | .bad => (s, 0, false)

/-- Read the elements of a token; pad stands for those outside. -/
def State.readElems (c n pad : Nat) : State → List (Option Word) → State × List Nat × Bool
  | s, [] => (s, [], false)
  | s, a :: r =>
    let (s, v, bad) := match a with
      | some a => s.readElem c n a
      | none => (s, pad % 2 ^ (8 * n), false)
    let (s, vs, b) := State.readElems c n pad s r
    (s, v :: vs, bad || b)

/-- Pack elements into a token's word, element i at byte i·n (R33). -/
def packElems (n : Nat) (l : List Nat) : W32 :=
  BitVec.ofNat 32 ((enum l).foldl (fun v x => v + x.2 * 2 ^ (8 * n * x.1)) 0)

/-- Room for a source port's next token: in its switch words' queues, or in the port for the matrix
unit (R76, R97). -/
def Core.srcRoom (k : Core) (p : Nat) (t : Token) : Bool :=
  if k.sourceRouted p then k.roomAll (16 + p) t else (k.port p).buf.length < 512

/-- Deliver a source port's token, or pass over it (R151). -/
def State.srcPut (s : State) (c p : Nat) (t : Token) : State :=
  if s.demand c (16 + p) = some false then s.passOver c (16 + p) t
  else if (s.core c).sourceRouted p then s.emit c (16 + p) t
  else (s.modPort c p (fun x => { x with buf := pushTok x.buf t })).observe c (16 + p) t

/-- Deliver through a port with `rowtags`, if it has one (R212-R214); `none` when the port stops. -/
def State.srcDeliver (s : State) (c p : Nat) (t : Token) : Option State :=
  match ((s.core c).port p).tag with
  | none => some (s.srcPut c p t)
  | some r =>
    let (r', act) := rowTag r t
    let s := s.modPort c p (fun x => { x with tag := some r' })
    match act with
    | .deliver row => some ((if row then s.countRow c r else s).srcPut c p t)
    | .drop dup => some (if dup then s.countDup c else s)
    | .fault => none

/-- The port stops with the row-tag fault (R212). -/
def State.tagStop (s : State) (c p : Nat) (t : Token) : State :=
  (s.modPort c p (fun x => { x with tag := x.tag.map (fun r => { r with stop := true }) })).reportCore
    c 2 17 false p (t.value.setWidth 64)

/-- Has the port stopped at a row tag? -/
def Port.tagStopped (x : Port) : Bool := match x.tag with | some r => r.stop | none => false

/-- A source port's walk goes on and its token is delivered; the row-tag fault stops the port at that token,
whose lines have been read (R133, R212). -/
def State.srcAdvance (s : State) (c p : Nat) (t : Token) (r : Running) : State :=
  let s := s.modPort c p (fun x => { x with run := some r })
  match s.srcDeliver c p t with
  | none => s.tagStop c p t
  | some s => s

/-- STREAM_SOURCE_TOKEN (R129, R130, R133, R234, R305, R98). -/
def execStreamSourceToken (c port : Nat) (s : State) : Result :=
  let k := s.core c
  let x := k.port port
  match x.run with
  | none => .next s
  | some r =>
    if 16 ≤ port || k.portStands r || x.stalled || x.tagStopped || !s.requested c (16 + port) then .next s
    else match r.items with
      | [] => .next s
      | .mark n :: rest =>
        let t : Token := { kind := BitVec.ofNat 3 n }
        if k.srcRoom port t then .next (s.srcAdvance c port t { r with items := rest }) else .next s
      | .data l :: rest =>
        let n := Desc.size r.cmd.d
        let ins := Item.inside (.data l)
        match ins.findSome? (s.elemFault c false n) with
        | some (cause, v) => .next ((s.modPort c port (fun x => { x with stalled := true })).stall c 2 port cause v
            (.port c port))
        | none =>
          if !k.srcRoom port {} || (Item.lines c n (.data l)).any s.isEmpty || ins.any (s.elemHeld c n) then .next s
          else
            let g := globalBytes n ins
            match (if g = 0 then (s, true) else s.takeTokens c g) with
            | (s, false) => .next s
            | (s, true) =>
              let (s, vs, bad) := State.readElems c n (Desc.pad r.cmd.d) s l
              let t : Token := ⟨bad, 0, packElems n vs⟩
              let s := s.modPort c port (fun x => { x with
                posted := x.posted + BitVec.ofNat 32 (n * l.length), read := x.read + BitVec.ofNat 32 (n * ins.length) })
              let s := if Desc.drain r.cmd.d then (finished c n (.data l) rest).foldl State.consumed s else s
              .next (s.srcAdvance c port t (r.after (.data l) rest))

/-- Bits `off` to `off + n - 1` set. -/
def spanMask (off n : Nat) : Nat := (2 ^ n - 1) * 2 ^ off

/-- Note the bytes that a command has written into units of `w` bytes: a poisoned write clears the note,
and a unit written whole with clean data loses its poison (R233). The keys of `us` are those that lose it. -/
def noteBytes (w : Nat) (bad : Bool) : List (Nat × Nat × Nat) → Tbl Nat → Tbl Nat × List Nat
  | [], m => (m, [])
  | (key, off, n) :: r, m =>
    let v := if bad then 0 else Nat.lor (Tbl.get 0 m key) (spanMask off n)
    let (m, l) := noteBytes w bad r (Tbl.set 0 m key v)
    (m, if v = 2 ^ w - 1 then key :: l else l)

/-- The spans of `n` bytes from `a` in units of `w` bytes: unit, offset, bytes. -/
def spans (a n w : Nat) : List (Nat × Nat × Nat) :=
  let h := min n (w - a % w)
  (a / w, a % w, h) :: (if h < n then [(a / w + 1, 0, n - h)] else [])

/-- A sink port writes one element (R129, R135, R233); the running command's clean bytes are noted. -/
def State.writeElem (s : State) (c n : Nat) (a : Word) (v : Nat) (bad : Bool) (m : Tbl Nat) : State × Tbl Nat :=
  match placeOf c a n with
  | .scratch t off =>
    let s := s.spStore t off (leBytes v n) bad true
    let (m, l) := noteBytes 128 bad ((spans off n 128).map (fun x => (lineKey t x.1, x.2))) m
    (l.foldl (fun s l => s.setBad l false) s, m)
  | .global =>
    let p := (s.core c).part
    match s.translateAll (dieOf c) p a.toNat true n with
    | none => (s, m)
    | some pas =>
      let s := s.physWrite pas (leBytes v n) bad
      let (m, l) := noteBytes 64 bad ((pas.map (fun x => (2 ^ 40 + x / 64, x % 64, 1)))) m
      ({ s with badUnit := l.foldl (fun b u => Tbl.set false b (u - 2 ^ 40) false) s.badUnit }, m)
  | .bad => (s, m)

/-- Write the elements of a token. -/
def State.writeElems (c n : Nat) (w : Nat) (bad : Bool) :
    State × Tbl Nat → List (Option Word) → State × Tbl Nat
  | x, [] => x
  | (s, m), a :: r =>
    let x := match a with
      | some a => s.writeElem c n a (w % 2 ^ (8 * n)) bad m
      | none => (s, m)
    State.writeElems c n (w / 2 ^ (8 * n)) bad x r

/-- STREAM_SINK_TOKEN (R129, R130, R120): markers are discarded; a data token's elements are written. -/
def execStreamSinkToken (c port : Nat) (s : State) : Result :=
  let k := s.core c
  let p := 16 + port
  let x := k.port p
  match x.run, x.buf with
  | some r, t :: more =>
    if 16 ≤ port || k.portStands r || x.stalled then .next s
    else if t.kind ≠ 0 then .next (s.modPort c p (fun x => { x with buf := more }))
    else match r.items with
      | .data l :: rest =>
        let n := Desc.size r.cmd.d
        let ins := Item.inside (.data l)
        match ins.findSome? (s.elemFault c true n) with
        | some (cause, v) => .next ((s.modPort c p (fun x => { x with stalled := true })).stall c 2 port cause v
            (.port c p))
        | none =>
          let g := globalBytes n ins
          if ins.any (s.elemHeld c n) then .next s
          else match (if g = 0 then (s, true) else s.takeTokens c g) with
          | (s, false) => .next s
          | (s, true) =>
            let (s, m) := State.writeElems c n t.value.toNat t.poison (s, r.mask) l
            let s := if Desc.fill r.cmd.d then (finished c n (.data l) rest).foldl State.fillLine s else s
            .next (s.modPort c p (fun x => { x with
              buf := more, posted := x.posted + BitVec.ofNat 32 (n * l.length)
              run := some { r.after (.data l) rest with mask := m } }))
      | _ => .next s
  | _, _ => .next s

/-- STREAM_COMMAND_COMPLETE (R72, R131): the walk is done; cnt.cp falls. -/
def execStreamCommandComplete (c port : Nat) (s : State) : Result :=
  match ((s.core c).port port).run with
  | some r =>
    if r.items.isEmpty then
      .next ((s.modPort c port (fun x => { x with run := none })).modChain c r.cmd.chain
        (fun x => { x with cp := x.cp - 1 }))
    else .next s
  | none => .next s

end Sys2Proof.Machine
end

