-- ==== Sys2Proof/Machine/Wave.lean ====
section
/-!
DEFINITION. The name wave of a launch (R141-R157, R305, R439): naming, lookup, open names, demand,
serving from the store, retention, and the completion of sinks.
-/

namespace Sys2Proof.Machine

/-! ## Inputs -/

/-- The edges that carry shape words into a node (R156). -/
def GGraph.isShape (g : GGraph) (e : GEdge) : Bool :=
  g.nodes.any (fun n => n.ports.any (fun p => p.shape == some (e.dst, e.dport)))

/-- The edge that carries a port's shape word. -/
def GGraph.shapeEdge (g : GGraph) (n port : Nat) : Option GEdge :=
  (g.nodes[n]?).bind (fun gn =>
    ((gn.ports.find? (fun p => p.out && p.num == port)).bind (·.shape)).bind (fun sh =>
      g.edges.find? (fun e => e.dst == sh.1 && e.dport == sh.2)))

/-- Insert an edge by its port number at the destination. -/
def insertEdge (e : GEdge) : List GEdge → List GEdge
  | [] => [e]
  | x :: r => if e.dport < x.dport then e :: x :: r else x :: insertEdge e r

/-- The data inputs of a node in input-port order (R143). -/
def GGraph.dataInputs (g : GGraph) (n : Nat) : List GEdge :=
  ((g.into n).filter (fun e => !e.ctl && !g.isShape e)).foldr insertEdge []

/-- The naming rank of an edge's producer. -/
def GGraph.edgeRank (g : GGraph) (e : GEdge) : Nat := ((g.nodes[e.src]?).map (fun gn => rankOf gn e.sport)).getD 0

/-- How many loops enclose both ends of an edge. -/
def GGraph.shared (g : GGraph) (e : GEdge) : Nat :=
  ((g.loopsOf e.src).filter (fun x => (g.loopsOf e.dst).contains x)).length

/-- The iterations of the loops around both ends that a node's iterations take an edge's object from: the same, or
on a loop's back edge the one before; `none`: the loop has just been entered (R155). -/
def GGraph.iterFrom (g : GGraph) (e : GEdge) (iter : List Nat) : Option (List Nat) :=
  let d := g.shared e
  if g.backEdges.contains e then
    match iter[d - 1]? with
    | some (i + 1) => some (iter.take (d - 1) ++ [i])
    | _ => none
  else some (iter.take d)

/-- Does an edge bring an object to a place of its end: the segment of the same number, every segment to an output
of rank 0, or the whole object of rank 0 (R142); inside loops the object of the iterations that `iterFrom`
gives (R155)? -/
def GGraph.brings (g : GGraph) (e : GEdge) (rank seg : Nat) (iter : List Nat) (o : Obj) : Bool :=
  o.node == e.src && o.port == e.sport &&
    if g.edgeRank e ≠ 0 then o.seg == seg || rank == 0
    else match g.iterFrom e iter with
      | some i => o.iter.take i.length == i
      | none => false

/-- Has a loop been left, at some iterations of the loops down to it: is its back edge's object there void, or
poison (R153, R154)? -/
def backAt (l : List Obj) (e : GEdge) (iter : List Nat) : Option Naming :=
  ((objsOf l e.src e.sport).find? (fun o => o.known && o.iter.take iter.length == iter)).map (·.name)

/-- Do a loop's iterations go on after one? -/
def Naming.goesOn (n : Naming) : Bool :=
  match n with
  | .named _ => true
  | _ => false

/-- The iterations that come after some, where the loops down to depth `d` go on; those of the loops inside
start again from 0 (R155). -/
def nextIter (l : List Obj) (loops : List GEdge) (iter : List Nat) : Nat → Option (List Nat)
  | 0 => none
  | d + 1 =>
    match (loops[d]?).bind (fun e => backAt l e (iter.take (d + 1))) with
    | none => none
    | some b =>
      if b.goesOn then some (iter.take d ++ [iter[d]?.getD 0 + 1] ++ List.replicate (loops.length - d - 1) 0)
      else nextIter l loops iter d

/-- Have the loops from depth `d` inwards been left after some iterations? -/
def loopsLeft (l : List Obj) (loops : List GEdge) (iter : List Nat) (d : Nat) : Bool :=
  (List.range loops.length).all (fun i =>
    i < d || ((loops[i]?).bind (fun e => backAt l e (iter.take (i + 1)))).any (fun b => !b.goesOn))

/-- The object that an edge brings to a segment and iteration of its end (R142, R155): the segment of the same
number, of which an output of rank 0 takes the first (notes/assumptions/89.md), or the object of rank 0. A back
edge brings a void object to a loop that has just been entered; from inside a loop comes what leaves it, or a void
object when nothing has. -/
def inputObj (g : GGraph) (l : List Obj) (e : GEdge) (seg : Nat) (iter : List Nat) : Option Obj :=
  let void : Obj := { node := e.src, port := e.sport, name := .void }
  if g.edgeRank e ≠ 0 then (objsOf l e.src e.sport).find? (fun o => o.seg == seg)
  else match g.iterFrom e iter with
    | none => some void
    | some i =>
      let mine := (objsOf l e.src e.sport).filter (g.brings e 0 0 iter)
      let loops := g.loopsOf e.src
      if loops.length = i.length then mine.head?
      else (mine.find? (fun o => o.known && o.name != .void)).or
        (if mine.getLast?.any (fun o => o.known && loopsLeft l loops o.iter i.length) then some void else none)

/-- The name field of an input (R154). -/
def nameBits (n : Naming) : BitVec 128 :=
  match n with
  | .named b => b
  | _ => 0

/-- Which data token of an input's object a place of a node takes: the first, or, where the object stays the same
over a loop's iterations, as many on as the node has had iterations that were not void. -/
def GGraph.turnOf (g : GGraph) (l : List Obj) (e : GEdge) (port : Nat) (iter : List Nat) : Nat :=
  if g.edgeRank e ≠ 0 then 0
  else
    let d := g.shared e
    (((objsOf l e.dst port).takeWhile (fun o => o.iter != iter)).filter (fun o =>
      o.name != .void && o.iter.take d == iter.take d)).length

/-- The k-th data token of a control or shape object: read from the store, or taken when it has come (R153,
R156). -/
def State.ctlToken (s : State) (p die k : Nat) (o : Obj) : Option Token :=
  match o.anchor with
  | some e => if k ≠ 0 then none else match s.content die p { e with length := 4 } with
      | some (_, bytes, bad) => some { poison := bad, value := BitVec.ofNat 32 (leNat bytes) }
      | none => none
  | none => (o.toks.filter (fun t => t.kind == 0))[k]?

/-- A stored control object found poisoned never hits again (R159). -/
def State.noteControl (s : State) (p die : Nat) (o : Option Obj) : State :=
  match o with
  | some o => match o.anchor, s.ctlToken p die 0 o with
    | some e, some t => if t.poison then s.markPoisoned p e.name else s
    | _, _ => s
  | none => s

/-- Does a stored control object break its declaration (R153)? -/
def badControl (o : Obj) : Bool :=
  match o.anchor with
  | some e => e.length != 4
  | none => false

/-! ## Names (R143, R146) -/

def State.domKey (s : State) (p : Nat) : List Byte := ((s.dom p).cfg.map (·.key)).getD []

/-- The first 16 bytes of the HMAC. -/
def State.hashName (s : State) (p : Nat) (m : List Byte) : Naming := .named (of128 (hmac (s.domKey p) m))

/-- The message of R143; `iter` is the innermost loop's iteration. -/
def nameMsg (gn : GNode) (port seg iter : Nat) (liter : List Nat) (prev : BitVec 128)
    (ins : List (BitVec 128)) (ctl shp : List W32) : List Byte :=
  gn.id ++ leBytes port 1 ++ leBytes (rankOf gn port) 1 ++ leBytes seg 4 ++ leBytes iter 4
    ++ ((liter ++ [0, 0, 0, 0]).take 4).flatMap (fun i => leBytes i 2)
    ++ bytes128 prev
    ++ leBytes ins.length 1 ++ ins.flatMap bytes128
    ++ leBytes ctl.length 1 ++ ctl.flatMap (fun v => leBytes v.toNat 4)
    ++ leBytes shp.length 1 ++ shp.flatMap (fun v => leBytes v.toNat 4)

/-- The message of R146. -/
def volatileMsg (gn : GNode) (port : Nat) (l : Launch) : List Byte :=
  gn.id ++ leBytes port 1 ++ leBytes l.serial 8 ++ leBytes l.dial0 8

/-- The name bound to a segment of a source port: the entries of `.names` that list the port, in order
(R145, R189, R284); segments past them take the last. -/
def State.sourceName (s : State) (l : Launch) (n port seg : Nat) : Naming :=
  match s.object l.obj, s.jobs.find l.job with
  | some o, some j =>
    let mine := (o.names.zip j.names).filter (fun x => x.1 == (l.graph, n, port))
    match mine[seg]?.or mine.getLast? with
    | some x => .named x.2
    | none => .named 0
  | _, _ => .named 0

/-- The shape token of a place of an output: `none` without a shape edge, `some none` until it comes (R156). -/
def State.shapeTok (s : State) (l : Launch) (g : GGraph) (n : Nat) (gn : GNode) (port seg : Nat) (iter : List Nat) :
    Option (Option Token) :=
  (g.shapeEdge n port).map (fun e => (inputObj g l.objs e seg iter).bind (fun o =>
    s.ctlToken l.part (dieOf ((s.nodeCore l gn).getD 0)) (g.turnOf l.objs e port iter) o))

/-- The name of segment seg - 1 of an output, 0 for the first; `none` until it is settled (R143). -/
def prevName (l : List Obj) (n port seg : Nat) : Option (BitVec 128) :=
  if seg = 0 then some 0
  else ((objsOf l n port).find? (fun o => o.seg + 1 == seg && o.known)).map (fun o => nameBits o.name)

/-- What some input names come to, where nothing else decides: wait, poison, or go on (R150, R154). -/
def inputsGive (l : List Naming) (next : Naming) : Naming :=
  if l.any (fun x => x == .unknown || x == .open_) then .unknown
  else if l.contains .poison then .poison else next

/-- The name of an output that its inputs and its control settle: a volatile node's by R146, else by R143, once its
shape word has come. -/
def State.madeName (s : State) (l : Launch) (g : GGraph) (n : Nat) (gn : GNode) (port seg : Nat) (iter : List Nat)
    (prev : BitVec 128) (names : List Naming) (ctl : List W32) : Naming :=
  let make (shp : List W32) : Naming :=
    s.hashName l.part (if gn.vol then volatileMsg gn port l
      else nameMsg gn port seg (iter.getLast?.getD 0) l.liter prev (names.map nameBits) ctl shp)
  match s.shapeTok l g n gn port seg iter with
  | none => make []
  | some none => .open_
  | some (some t) => if t.poison then .poison else make [t.value]

/-- The name of a source node's object: what its circuit brings, or the one that the launch binds to it (R145, R146,
R311). -/
def State.sourceNaming (s : State) (l : Launch) (g : GGraph) (n : Nat) (gn : GNode) (port seg : Nat)
    (iter : List Nat) : Naming :=
  let own (x : Naming) : Naming := if gn.vol then s.hashName l.part (volatileMsg gn port l) else x
  match g.crossing n with
  | none => own (s.sourceName l n port seg)
  | some e => match ((inputObj g l.objs e seg iter).map (·.name)).getD .unknown with
    | .named b => own (.named b)
    | x => x

/-- The name that a steer, merge or exit gives an output for the value of its single control (R153). -/
def State.steered (s : State) (l : Launch) (g : GGraph) (n : Nat) (gn : GNode) (port seg : Nat) (iter : List Nat)
    (prev : BitVec 128) (ins : List (GEdge × Naming)) (v : W32) : Naming :=
  let merge := laneEop gn == 0x42
  let pick := if v = 0 then (gn.word.extractLsb' 19 2).toNat else (gn.word.extractLsb' 17 2).toNat
  let names := (if merge then ins.filter (fun x => x.1.dport == pick) else ins).map (·.2)
  inputsGive names
    (if !merge && (v == 0) != (port == 0) then .void else s.madeName l g n gn port seg iter prev names [v])

/-- The name of an output from its inputs, its control value and its shape word: `unknown` while something that the
node needs is not named or not looked up, `open_` while the control or shape word has not come (R150,
R153-R156). -/
def State.nameOf (s : State) (l : Launch) (g : GGraph) (n : Nat) (gn : GNode) (port seg : Nat) (iter : List Nat) :
    Naming :=
  match prevName l.objs n port seg with
  | none => .unknown
  | some prev =>
    if gn.kind = 3 then s.sourceNaming l g n gn port seg iter
    else
      let ins := (g.dataInputs n).map (fun e => (e, ((inputObj g l.objs e seg iter).map (·.name)).getD .unknown))
      let names := ins.map (·.2)
      let merge := isSteer gn && laneEop gn == 0x42
      match (g.edges.find? (fun e => e.dst == n && e.ctl)).map (fun e => (e, inputObj g l.objs e seg iter)) with
      | none =>
        if !names.isEmpty && names.all (· == .void) then .void
        else inputsGive names (s.madeName l g n gn port seg iter prev names [])
      | some (e, c) =>
        let cname := (c.map (·.name)).getD .unknown
        if !merge && !names.isEmpty && names.all (· == .void) then .void
        else if g.control n = none then
          inputsGive (names ++ [cname])
            (if cname = .void then .void else s.madeName l g n gn port seg iter prev (names ++ [cname]) [])
        else if !merge && names.contains .unknown then .unknown
        else match c, g.nodes[e.src]? with
          | some c, some pn =>
            if !c.settled pn then .unknown
            else if cname = .void then .void
            else if cname = .poison then .poison
            else match s.ctlToken l.part (dieOf ((s.nodeCore l gn).getD 0)) (g.turnOf l.objs e port iter) c with
              | none => .open_
              | some t => if t.poison then .poison else s.steered l g n gn port seg iter prev ins t.value
          | _, _ => .unknown

/-! ## The wave's events -/

/-- A launch that is still running in a partition that no pre-emption holds, its graph and a node of it. -/
def State.waveAt (s : State) (ln n : Nat) : Option (Launch × GGraph × GNode) :=
  (s.launches.find ln).bind (fun l =>
    if l.status.isSome || (s.part l.part).pre != .running then none
    else (s.graphOf l).bind (fun g => (g.nodes[n]?).map (fun gn => (l, g, gn))))

/-- Put an object of a launch. -/
def State.setObj (s : State) (ln : Nat) (o : Obj) : State := s.modLaunch ln (fun l => { l with objs := putObj l.objs o })

/-- A token of the wave class: the class and the field below it (R148). -/
def waveWord (cls : Nat) (v : BitVec 128) : BitVec 131 := BitVec.ofNat 3 cls ++ v

/-- The wave token that carries a name (R148). -/
def Naming.word (n : Naming) : BitVec 131 :=
  match n with
  | .named b => waveWord 1 b
  | .open_ => waveWord 2 0
  | .void => waveWord 3 0
  | .poison => waveWord 5 0
  | .unknown => 0

/-- What a wave token says of its object. -/
def namingOf (w : BitVec 131) : Naming :=
  match (w.extractLsb' 128 3).toNat with
  | 1 => .named (w.extractLsb' 0 128)
  | 2 => .open_
  | 3 => .void
  | _ => .poison

/-- A request token for objects of a channel, by the order of their names on it (R148). -/
def requestWord (first last : Nat) : BitVec 131 := waveWord 4 (BitVec.ofNat 128 (first + 2 ^ 32 * last))

/-- Change the circuit of a launch that begins at a sink node's port. -/
def State.modBegin (s : State) (ln n port : Nat) (f : Circuit → Circuit) : State :=
  { s with circuits := s.circuits.map (fun x =>
      if x.launch = ln ∧ x.comes = none ∧ x.node = n ∧ x.sink = port then f x else x) }

/-- The objects of a launch as they stand. -/
def State.objs (s : State) (ln : Nat) : List Obj := ((s.launches.find ln).map (·.objs)).getD []

/-- An object is named, or opened: the token goes onto the circuits that its output feeds (R148-R150). On an edge
inside a core the name is there at once (notes/assumptions/9.md). -/
def State.nameObj (s : State) (ln : Nat) (g : GGraph) (o : Obj) : State :=
  let fed := (g.edges.filter (fun e => e.src == o.node && e.sport == o.port && g.fromEnd e.dst))
  fed.foldl (fun s e => s.modBegin ln e.dst e.dport (fun x => { x with names := x.names ++ [o.name.word] }))
    (s.setObj ln o)

/-- A request reaches an object: it goes back over the circuit that has brought it, or is noted at its output
(R149, R151). -/
def State.request (s : State) (ln : Nat) (g : GGraph) (o : Obj) : State :=
  if o.asked || o.name == .unknown || o.name == .void then s
  else
    let k := ((objsOf (s.objs ln) o.node o.port).takeWhile (fun x => !x.same o)).length
    let s := s.setObj ln { o with asked := true }
    if g.kind o.node = 4 then s.modBegin ln o.node o.port (fun x => { x with asks := x.asks ++ [requestWord k k] })
    else s

/-- A request goes up an edge from a place of its end, to every object that the edge brings there. -/
def State.askFor (s : State) (ln : Nat) (g : GGraph) (rank seg : Nat) (iter : List Nat) (e : GEdge) : State :=
  ((s.objs ln).filter (g.brings e rank seg iter)).foldl (fun s o => s.request ln g o) s

/-- An open name sends a request into the control cone and the shape cone at once (R153, R156). -/
def State.askCones (s : State) (ln : Nat) (g : GGraph) (n : Nat) (gn : GNode) (o : Obj) : State :=
  let ask (s : State) (e : Option GEdge) : State :=
    match e with
    | some e => s.askFor ln g (rankOf gn o.port) o.seg o.iter e
    | none => s
  ask (ask s (g.control n)) (g.shapeEdge n o.port)

/-- The place of the next object that an output names: segment and iterations. A segment waits for the one before
it (R143), an iteration for the exit of the one before (R155). -/
def nextPlace (g : GGraph) (n : Nat) (gn : GNode) (port : Nat) (l : List Obj) : Option (Nat × List Nat) :=
  let mine := (objsOf l n port).filter (fun o => o.name != .unknown)
  let loops := g.loopsOf n
  if rankOf gn port ≠ 0 then some (mine.length, [])
  else match mine.getLast? with
    | none => some (0, List.replicate loops.length 0)
    | some o => if o.known then (nextIter l loops o.iter loops.length).map (fun i => (0, i)) else none

/-- The control object of a place of a node, when its control opens names. -/
def controlObj (g : GGraph) (l : Launch) (n seg : Nat) (iter : List Nat) : Option Obj :=
  (g.control n).bind (fun e => inputObj g l.objs e seg iter)

/-- A stored control object that is not 4 bytes long stops the lane (R153). -/
def State.stopBadControl (s : State) (l : Launch) (gn : GNode) : State :=
  match s.nodeCore l gn with
  | some c => if ((s.core c).lane gn.lane).stopped then s else s.laneStop c gn.lane
  | none => s

/-- Name a place of an output, where something is known of it; an open name asks its cones. -/
def State.nameAt (s : State) (l : Launch) (g : GGraph) (n : Nat) (gn : GNode) (port seg : Nat) (iter : List Nat) :
    State :=
  let v := s.nameOf l g n gn port seg iter
  let old := (objsOf l.objs n port).find? (fun o => o.seg == seg && o.iter == iter)
  let o : Obj := old.getD { node := n, port := port, seg := seg, iter := iter }
  if v = .unknown ∨ v = o.name then s
  else
    let o := { o with name := v, shape := ((s.shapeTok l g n gn port seg iter).bind id).map (·.value) }
    let s := (s.nameObj l.serial g o).noteControl l.part (dieOf ((s.nodeCore l gn).getD 0)) (controlObj g l n seg iter)
    if v = .open_ then s.askCones l.serial g n gn o else s

/-- NODE_NAMING (R143-R146, R150, R153-R156). -/
def execNodeNaming (launch node port : Nat) (s : State) : Result :=
  match s.waveAt launch node with
  | none => .next s
  | some (l, g, gn) =>
    if g.kind node = 4 ∨ !gn.ports.any (fun p => p.out && p.num == port) then .next s
    else match nextPlace g node gn port l.objs with
      | none => .next s
      | some (seg, iter) =>
        if (controlObj g l node seg iter).any badControl then .next (s.stopBadControl l gn)
        else .next (s.nameAt l g node gn port seg iter)

/-- Name the open objects of some outputs of a node, where what they waited for has come. -/
def State.resolve (s : State) (ln n : Nat) (g : GGraph) (gn : GNode) (pick : Nat → Bool) : State :=
  (s.objs ln).foldl (fun s o =>
    if o.node = n ∧ pick o.port ∧ o.name = .open_ then
      match s.launches.find ln with
      | some l => s.nameAt l g n gn o.port o.seg o.iter
      | none => s
    else s) s

/-- CONTROL_NAME_RESOLVE (R153-R155). -/
def execControlNameResolve (launch node : Nat) (s : State) : Result :=
  match s.waveAt launch node with
  | some (_, g, gn) => .next (s.resolve launch node g gn (fun _ => true))
  | none => .next s

/-- SHAPE_WORD_ARRIVAL (R156): the word enters the name and describes the object's markers. -/
def execShapeWordArrival (launch node port : Nat) (s : State) : Result :=
  match s.waveAt launch node with
  | none => .next s
  | some (_, g, gn) => .next (s.resolve launch node g gn (fun p => p == port))

/-- NAME_LOOKUP (R150, R160): hit or miss of the first named object of the port not yet looked up. -/
def execNameLookup (launch node port : Nat) (s : State) : Result :=
  match s.waveAt launch node with
  | none => .next s
  | some (l, _, gn) =>
    match (objsOf l.objs node port).find? (fun o => !o.looked && o.known) with
    | none => .next s
    | some o =>
      match memoisable gn port, o.name with
      | true, .named n =>
        let die := dieOf ((s.nodeCore l gn).getD 0)
        let alias_ := (s.entry l.part n).any (fun e => e.kind == 2)
        match s.lookup die l.part n with
        | (s, some e) =>
          let s := s.modCounts l.part (fun k => { k with hits := k.hits + 1 })
          let s := { s with holds := s.holds ++ (launch, l.part, n) :: (if alias_ then [(launch, l.part, e.name)] else []) }
          .next (s.setObj launch { o with looked := true, anchor := some e })
        | (s, none) =>
          .next ((s.modCounts l.part (fun k => { k with misses := k.misses + 1 })).setObj launch { o with looked := true })
      | _, _ => .next (s.setObj launch { o with looked := true })

/-- DEMAND_REQUEST (R151, R152, R154): a sink asks for its objects once they are named and looked up; a node that is
requested for an object asks for its inputs, and an open name for its cones. The end of a circuit asks what comes
back over it. -/
def execDemandRequest (launch node : Nat) (s : State) : Result :=
  match s.waveAt launch node with
  | none => .next s
  | some (l, g, gn) =>
    if gn.kind = 4 then
      if g.fromEnd node then .next s
      else .next (l.objs.foldl (fun s o =>
        if (g.into node).any (fun e => e.src == o.node && e.sport == o.port)
            && (g.nodes[o.node]?).any (fun pn => o.settled pn) then s.request launch g o else s) s)
    else
      .next (l.objs.foldl (fun s o =>
        if o.node ≠ node then s
        else if o.name = .open_ then s.askCones launch g node gn o
        else if o.wanted gn then
          (g.into node).foldl (fun s e => s.askFor launch g (rankOf gn o.port) o.seg o.iter e) s
        else s) s)

/-! ## Serving from the store (R151, R156) -/

/-- The interior marker that follows the i-th data token of an object under its shape word; 0 for none. -/
def markerAfter (shape : W32) (i : Nat) : Nat :=
  let run := (shape.extractLsb' 0 16).toNat
  let grp := (shape.extractLsb' 16 16).toNat
  if run = 0 ∨ (i + 1) % run ≠ 0 then 0
  else if grp ≠ 0 ∧ (i + 1) / run % grp = 0 then 2 else 1

/-- The kinds of the tokens of n data tokens and the markers inside: `none` for a data token. -/
def shapeKinds (shape : W32) (n : Nat) : List (Option Nat) :=
  (List.range n).flatMap (fun i => none :: (if markerAfter shape i = 0 then [] else [some (markerAfter shape i)]))

/-- The output of a node as a core's output number (see `State.outNode`). -/
def outOf (gn : GNode) (port : Nat) : Nat :=
  if gn.kind = 1 then gn.lane + port else if gn.kind = 3 then 16 + port else 32 + port

/-- Room for a token of an output, and its delivery. -/
def Core.outRoom (k : Core) (out : Nat) (t : Token) : Bool :=
  if out < 32 then k.roomAll out t
  else merges (k.port (out - 16)).buf t || (k.port (out - 16)).buf.length + (k.port (out - 16)).resv < 8

def State.outPut (s : State) (c out : Nat) (t : Token) : State :=
  if out < 32 then s.emit c out t else s.sinkPut c (out - 32) t

/-- ANCHOR_SERVE (R151, R159): the stream engine delivers the next token of the stored object. -/
def execAnchorServe (launch node port : Nat) (s : State) : Result :=
  match s.waveAt launch node with
  | none => .next s
  | some (l, g, gn) =>
    match openObj (rankOf gn port) (g.inLoop node) ((objsOf l.objs node port).filter (fun o => !o.served)),
        s.nodeCore l gn with
    | some o, some c =>
      match o.anchor with
      | none => .next s
      | some e =>
        let fired := l.objs.any (fun x => o.beside gn x && x.wanted gn)
        if !o.asked || fired then .next s
        else
          let out := outOf gn port
          let n := e.length.toNat / 4
          let kinds := shapeKinds e.shape n
          let i := o.toks.length
          let j := ((kinds.take i).filter Option.isNone).length
          let close (s : State) : State := s.modLaunch launch (fun l => { l with objs := l.objs.map (fun x =>
            if x.same o then { x with served := true } else x) })
          match kinds[i]? with
          | some (some r) =>
            let t : Token := { kind := BitVec.ofNat 3 r }
            if !(s.core c).outRoom out t then .next s
            else
              let s := s.outPut c out t
              .next (if i + 1 = kinds.length ∧ rankOf gn port = 0 then close s else s)
          | some none =>
            if !(s.core c).outRoom out {} then .next s
            else match s.gRead (dieOf c) l.part (e.va.toNat + 4 * j) 4 with
              | none => .next s
              | some (s, bytes, bad) =>
                let s := if bad then s.markPoisoned l.part e.name else s
                let s := s.outPut c out { poison := bad, value := BitVec.ofNat 32 (leNat bytes) }
                .next (if i + 1 = kinds.length ∧ rankOf gn port = 0 then close s else s)
          | none =>
            let t : Token := { kind := BitVec.ofNat 3 (rankOf gn port) }
            if rankOf gn port = 0 then .next (close s)
            else if !(s.core c).outRoom out t then .next s
            else .next (close (s.outPut c out t))
    | _, _ => .next s

/-! ## Whole objects (R439) -/

/-- Have the launch's task chains on a core ended, with no commit and no fork running and no word that would start
another? -/
def State.tasksEnded (s : State) (ln c : Nat) : Bool :=
  let k := s.core c
  k.chains.all (fun x => x.2.launch != ln || (x.2.ended && !x.2.forkM && !x.2.forkS))
    && k.commits.all (fun m => m.launch != ln)
    && k.tasks.all (fun t => !t.2.valid || (k.vc t.2.vc.toNat).q.isEmpty)

/-- Is nothing left of a circuit's tokens? -/
def State.circuitEmpty (s : State) (c p : Nat) : Bool :=
  s.circuits.all (fun x => !(x.core2 == c && x.src == p)
    || (x.stages.all List.isEmpty && ((s.core x.core).port (16 + x.sink)).buf.isEmpty))

/-- Is an object dealt with: void, closed or served? -/
def Obj.over (o : Obj) : Bool := o.name == .void || o.closed || o.served

/-- The number of segments of a port that its command has still to close. -/
def Port.closings (x : Port) (rank : Nat) : Nat :=
  ((x.run.map (·.items)).getD [] ++ x.q.flatMap Cmd.items).countP (fun i => match i with
    | .mark n => decide (rank ≤ n)
    | .data _ => false)

/-- How many segments an output of rank 1 or more has in the launch, where that is settled: a source's commands say
it once no more can be queued, a task's sends once its chains have ended, and a lane has those of its inputs
(R142). -/
def State.segments (s : State) (l : Launch) (g : GGraph) : Nat → Nat → Nat → Option Nat
  | 0, _, _ => none
  | f + 1, n, port =>
    match g.nodes[n]? with
    | none => none
    | some gn =>
      let ups := (g.into n).filterMap (fun e =>
        if g.edgeRank e = 0 then none else State.segments s l g f e.src e.sport)
      if gn.kind = 1 ∨ gn.kind = 4 ∨ (g.crossing n).isSome then ups.min?
      else match s.nodeCore l gn with
        | none => none
        | some c =>
          let done := ((objsOf l.objs n port).filter (·.closed)).length
          if !s.tasksEnded l.serial c then none
          else if gn.kind = 3 then some (done + ((s.core c).port port).closings (rankOf gn port))
          else some done

/-- Are all segments of an output dealt with (R439)? -/
def State.segmentsOver (s : State) (l : Launch) (g : GGraph) (n port : Nat) : Bool :=
  match s.segments l g (g.nodes.length + 1) n port with
  | some k =>
    let mine := objsOf l.objs n port
    k ≤ mine.length && (mine.take k).all Obj.over
  | none => false

/-- Are all iterations of an output in a loop dealt with: the loop has been left, and what is not void has come
(R155, R439)? -/
def iterationsOver (l : Launch) (g : GGraph) (n port : Nat) : Bool :=
  let mine := objsOf l.objs n port
  mine.getLast?.any (fun o => o.known && loopsLeft l.objs (g.loopsOf n) o.iter 0)
    && mine.all (fun o => o.over || !o.toks.isEmpty)

/-- Can the producer of an output emit nothing more in the launch? `seen` cuts loops. -/
def State.spent (s : State) (l : Launch) (g : GGraph) : Nat → List Nat → Nat → Nat → Bool
  | 0, _, _, _ => true
  | f + 1, seen, n, port =>
    match g.nodes[n]? with
    | none => true
    | some gn =>
      let mine := objsOf l.objs n port
      let fired := l.objs.any (fun o => o.node == n && o.wanted gn)
      let loop := g.inLoop n
      if seen.contains n || g.isStart n then true
      else if rankOf gn port = 0 && !loop && !mine.isEmpty && mine.all (·.name == .void) then true
      else if mine.any (·.anchor.isSome) && !fired then
        if rankOf gn port ≠ 0 then s.segmentsOver l g n port
        else if loop then iterationsOver l g n port
        else mine.all Obj.over
      else match s.nodeCore l gn with
        | none => true
        | some c =>
          let k := s.core c
          let ins := (g.into n).all (fun e => State.spent s l g f (n :: seen) e.src e.sport)
          if gn.kind = 1 then
            let x := k.lane gn.lane
            ins && (List.range 4).all (fun q => (k.queue (4 * gn.lane + q)).isEmpty)
              && x.out.isEmpty && !(laneEop gn == 0x44 && !x.buf.isEmpty)
              && !k.memreqs.any (fun m => m.lane == gn.lane)
          else if gn.kind = 2 then s.tasksEnded l.serial c
          else if gn.kind = 4 then ins
          else if (g.crossing n).isSome then ins && s.circuitEmpty c port && (k.port port).buf.isEmpty
          else (k.port port).q.isEmpty && (k.port port).run.isNone && s.tasksEnded l.serial c

/-- Is an object whole (R439)? -/
def State.whole (s : State) (l : Launch) (g : GGraph) (gn : GNode) (o : Obj) : Bool :=
  if rankOf gn o.port ≠ 0 then o.closed
  else (g.inLoop o.node && !o.toks.isEmpty) || o.served || s.spent l g (g.nodes.length + 1) [] o.node o.port

/-- Are the objects of an output that a sink takes all whole or void? -/
def State.outputOver (s : State) (l : Launch) (g : GGraph) (gn : GNode) (n port : Nat) : Bool :=
  let mine := objsOf l.objs n port
  !mine.isEmpty &&
    ((if rankOf gn port ≠ 0 then s.segmentsOver l g n port
      else if g.inLoop n then iterationsOver l g n port
      else mine.all (fun o => o.name == .void || o.served))
    || s.spent l g (g.nodes.length + 1) [] n port)

/-- Is a sink node complete (R305): its objects are whole and written, or void? -/
def State.sinkDone (s : State) (l : Launch) (g : GGraph) (n : Nat) : Bool :=
  match g.nodes[n]? with
  | none => true
  | some gn =>
    (g.into n).all (fun e =>
      match g.nodes[e.src]? with
      | none => true
      | some pn =>
        s.outputOver l g pn e.src e.sport
          && ((s.nodeCore l gn).map (fun c =>
            let x := (s.core c).port (16 + e.dport)
            x.buf.isEmpty && x.resv == 0)).getD true)

/-- SINK_COMPLETION_SWEEP (R305): while every sink node is complete, the commands on the ports of the
launch's source and sink nodes complete. -/
def execSinkCompletionSweep (launch : Nat) (s : State) : Result :=
  match s.launches.find launch with
  | none => .next s
  | some l => match s.graphOf l with
    | none => .next s
    | some g =>
      if !g.sinks.all (s.sinkDone l g) then .next s
      else
        let s := (enum g.nodes).foldl (fun s x =>
          if (x.2.kind = 3 ∧ g.isStart x.1 = false ∧ (g.crossing x.1).isNone) ∨ g.sinks.contains x.1 then
            match s.nodeCore l x.2 with
            | none => s
            | some c => x.2.ports.foldl (fun s p =>
                s.dropCmds c (if x.2.kind = 3 then p.num else 16 + p.num) (fun _ => true)) s
          else s) s
        .next (s.modLaunch launch (fun l => { l with swept := true }))

/-! ## Retention (R157) -/

/-- Markers of one object with adjacent ones merged, trailing ones dropped when the closing marker
follows. -/
def mergeKinds (l : List (Option Nat)) : List (Option Nat) :=
  l.foldr (fun x acc => match x, acc with
    | some a, some b :: r => some (max a b) :: r
    | x, r => x :: r) []

def dropTail (l : List (Option Nat)) : List (Option Nat) :=
  match l.getLast? with
  | some (some _) => l.dropLast
  | _ => l

/-- Do the interior markers follow the shape word? -/
def followsShape (rank : Nat) (shape : W32) (toks : List Token) : Bool :=
  let have_ := mergeKinds (toks.map (fun t => if t.kind = 0 then none else some t.kind.toNat))
  let want := shapeKinds shape ((toks.filter (fun t => t.kind == 0)).length)
  if rank = 0 then have_ == want else dropTail have_ == dropTail want

/-- Allocate a block and write an object's words to it; `none` when the heap has no room. -/
def State.heapWrite (s : State) (die p : Nat) (bytes : List Byte) : Option (State × Nat) :=
  match (s.dom p).cfg with
  | none => none
  | some c =>
    let sz := blockSize 15 4096 bytes.length
    match allocAt (s.dom p).blocks c.heapSize sz with
    | none => none
    | some off =>
      (s.translateAll die p (c.heapBase + off) false bytes.length).map (fun pas =>
        ((s.physWrite pas bytes false).modDom p (fun d => { d with blocks := d.blocks ++ [(off, sz)] }),
          c.heapBase + off))

/-- Retain the words of an object under a name (R157 steps 2-5). -/
def State.retain (s : State) (die p : Nat) (n : BitVec 128) (bytes : List Byte) (shape : W32) (fmt : Byte) : State :=
  let s0 := s
  match s.heapWrite die p bytes with
  | none => s.modCounts p (fun k => { k with full := k.full + 1 })
  | some (s, va) =>
    let drop (s : State) : State := s.modDom p (fun d => d.freeBlock (BitVec.ofNat 64 va))
    let e : Entry :=
      { name := n, fp := fingerprint (((s.dom p).cfg.map (·.hashKey)).getD 0) bytes, va := BitVec.ofNat 64 va
        length := BitVec.ofNat 32 bytes.length, shape := shape, format := fmt, kind := 1, retained := true }
    if (s0.entry p n).isSome then drop (s.modCounts p (fun k => { k with duplicates := k.duplicates + 1 }))
    else
      let twin := (s.dom p).cfg.bind (fun c => (s.slotsOf c e.fp).findSome? (fun x =>
        (s.entry p x.2.2).bind (fun y => if x.2.1 == e.fp && y.kind == 1 && y.fp == e.fp && y.name != n then some y else none)))
      let same (x : Entry) : Bool :=
        match s.content die p x with
        | some (_, b, bad) => b == bytes && !bad
        | none => false
      let plain (s : State) : State :=
        if s.room p e then (s.insertEntry p e).modCounts p (fun k => { k with insertions := k.insertions + 1 })
        else drop (s.modCounts p (fun k => { k with full := k.full + 1 }))
      match twin with
      | none => plain s
      | some x =>
        if same x then
          let a : Entry := { name := n, fp := x.name, kind := 2 }
          if s.room p a then drop ((s.insertEntry p a).modCounts p (fun k => { k with aliases := k.aliases + 1 }))
          else drop (s.modCounts p (fun k => { k with full := k.full + 1 }))
        else plain (s.modCounts p (fun k => { k with collisions := k.collisions + 1 }))

/-- Is an object due for retention: memoisable, missed, asked for and whole? -/
def State.due (s : State) (l : Launch) (g : GGraph) (gn : GNode) (o : Obj) : Bool :=
  memoisable gn o.port && o.looked && o.anchor.isNone && !o.retained
    && l.objs.any (fun x => o.beside gn x && x.wanted gn) && s.whole l g gn o

/-- RETENTION (R157). -/
def execRetention (launch node port : Nat) (s : State) : Result :=
  match s.waveAt launch node with
  | none => .next s
  | some (l, g, gn) =>
    match (objsOf l.objs node port).find? (s.due l g gn) with
    | none => .next s
    | some o =>
      let s := s.setObj launch { o with retained := true }
      match o.name, gn.ports.find? (fun p => p.out && p.num == port) with
      | .named n, some gp =>
        let bytes := (o.toks.filter (fun t => t.kind == 0)).flatMap (fun t => leBytes t.value.toNat 4)
        let shape := o.shape.getD 0
        if o.toks.any (fun t => t.kind == 0 && t.poison) || l.cancel || l.fault || 2 ^ 26 < bytes.length
            || !followsShape gp.rank shape o.toks then
          .next (s.modCounts l.part (fun k => { k with skips := k.skips + 1 }))
        else
          .next (s.retain (dieOf ((s.nodeCore l gn).getD 0)) l.part n bytes shape (gp.b8 ++ gp.fmt))
      | _, _ => .next s

end Sys2Proof.Machine
end

