-- ==== Sys2Proof/Machine/Circuit.lean ====
section
/-!
DEFINITION. Elastic circuits (R92, R311): what waits at a circuit's beginning, its latch stages, links and
ends; the tokens of the wave class that it carries, with requests going back (R148, R149); row-tag ports
(R212).
-/

namespace Sys2Proof.Machine

def State.modCircuit (s : State) (i : Nat) (f : Circuit → Circuit) : State :=
  match s.circuits[i]? with
  | some x => { s with circuits := s.circuits.set i (f x) }
  | none => s

/-! ## Latch stages: each holds 2 tokens (R92) -/

/-- The head of a latch stage. -/
def stageHead {α : Type} (i : Nat) (l : List (List α)) : Option α := (l[i]?.getD []).head?
/-- Has a latch stage room? -/
def stageRoom {α : Type} (i : Nat) (l : List (List α)) : Bool := i < l.length && (l[i]?.getD []).length < 2
/-- Take the head of a latch stage. -/
def takeStage {α : Type} (i : Nat) (l : List (List α)) : List (List α) := l.set i ((l[i]?.getD []).drop 1)
/-- Put into a latch stage. -/
def putStage {α : Type} (i : Nat) (t : α) (l : List (List α)) : List (List α) := l.set i (l[i]?.getD [] ++ [t])

/-! ## Links (R247, R254) -/

/-- A flit has crossed a link: no retransmission of it is left, and it counts in the link's session. -/
def State.flit (s : State) (l : Nat) : State :=
  let x := Tbl.get {} s.links l
  { s with links := s.links.put l { x with tries := 0, flits := x.flits + 1 } }

/-- Does a Swihowen Link wait for its key update (R254)? -/
def State.rekeying (s : State) (l : Nat) : Bool :=
  l < 18 && decide (2 ^ 40 ≤ (Tbl.get {} s.links l).flits)

/-- The link that a hop of a circuit crosses: a hop back crosses that of the hop that it answers. -/
def Circuit.link (x : Circuit) (hop : Nat) : Option Nat :=
  let n := x.stages.length
  let fwd := if hop ≤ n then hop else 2 * n + 1 - hop
  (x.links.find? (fun y => y.1 == fwd)).map (·.2)

/-- A hop takes place: the flit of a hop over a link crosses it. -/
def State.crossed (s : State) (x : Circuit) (hop : Nat) : State :=
  match x.link hop with
  | some l => s.flit l
  | none => s

/-- A flit leaves for the other device: the nonce is the session's identifier and the flit's sequence
number, and the payload is encrypted under the link's key (R254). -/
def State.sendFlit (s : State) (l : Nat) (t : Token) : State :=
  let x := Tbl.get {} s.links l
  let nonce := beBytes x.session 4 ++ beBytes x.flits 8
  let data := leBytes ((if t.poison then 1 else 0) + 2 * t.kind.toNat + 16 * t.value.toNat) 5
  { s with hostOut := s.hostOut ++ [.flit l (aesGcm x.key nonce (data ++ List.replicate 251 0))] }

/-! ## The beginning -/

/-- What a circuit takes next: a wave token ahead of the data behind it (R149), or a token of its sink port or of
the link that it comes from. -/
def State.circuitIn (s : State) (x : Circuit) : Option Flit :=
  match x.names with
  | w :: _ => some (.wave w)
  | [] => match x.comes with
    | some l => (Tbl.get {} s.links l).rx.head?.map Flit.data
    | none => ((s.core x.core).port (16 + x.sink)).buf.head?.map Flit.data

/-- Take it. -/
def State.circuitTake (s : State) (idx : Nat) (x : Circuit) : State :=
  match x.names with
  | _ :: r => s.modCircuit idx (fun x => { x with names := r })
  | [] => match x.comes with
    | some l => { s with links := s.links.put l { Tbl.get {} s.links l with rx := (Tbl.get {} s.links l).rx.drop 1 } }
    | none => s.modPort x.core (16 + x.sink) (fun p => { p with buf := p.buf.drop 1 })

/-! ## The end -/

/-- Has the end of a circuit room for a token (R92), and is the token's object named there (R149)? A port with
`rowtags` takes its tokens by ROW_TAG_ARRIVAL. -/
def State.endRoom (s : State) (x : Circuit) (t : Token) : Bool :=
  let k := s.core x.core2
  if x.goes.isSome then true
  else if x.toVc then !k.vcStopped x.src && (k.vc x.src).q.length + (k.vc x.src).resv < 32
  else (k.port x.src).tag.isNone && k.srcRoom x.src t && s.nameAhead x.core2 (16 + x.src)

/-- Note a token that a circuit has brought to a virtual channel (R156, R439). -/
def State.noteArrival (s : State) (x : Circuit) (t : Token) : State :=
  match s.waveAt x.launch x.node with
  | some (l, g, gn) => s.modLaunch l.serial (fun l =>
      { l with objs := addToken (rankOf gn x.sink) (g.inLoop x.node) x.node x.sink t l.objs })
  | none => s

/-- Deliver a token at the end of a circuit; the second component: it has been taken (R212). -/
def State.endPut (s : State) (x : Circuit) (t : Token) : State × Bool :=
  match x.goes with
  | some l => (s.sendFlit l t, true)
  | none => if x.toVc then (s.noteArrival x t).vcArrive x.core2 x.src t else (s.srcPut x.core2 x.src t, true)

/-- A wave token arrives: it names the object that is open, or opens or names the next one; `none`: it waits for
the place of that object. -/
def State.waveArrive (s : State) (x : Circuit) (w : BitVec 131) : Option State :=
  (s.waveAt x.launch x.node).bind (fun y =>
    let v := namingOf w
    match (if v = .open_ then none else (objsOf y.1.objs x.node x.sink).find? (fun o => o.name == .open_)) with
    | some o => some (s.setObj x.launch { o with name := v })
    | none => (nextPlace y.2.1 x.node y.2.2 x.sink y.1.objs).map (fun p =>
        s.setObj x.launch { node := x.node, port := x.sink, seg := p.1, iter := p.2, name := v }))

/-- Deliver at the end; `none`: it waits; the second component: it has been taken. -/
def State.deliverEnd (s : State) (x : Circuit) (f : Flit) : Option (State × Bool) :=
  match f with
  | .wave w => (s.waveArrive x w).map (fun s => (s, true))
  | .data t => if s.endRoom x t then some (s.endPut x t) else none

/-! ## Requests (R148, R151) -/

/-- A request token arrives where the circuit begins: it asks for the objects of its range, in the order in which
their names have gone onto the circuit. -/
def State.requestArrive (s : State) (x : Circuit) (w : BitVec 131) : Option State :=
  (s.waveAt x.launch x.node).map (fun y =>
    let first := (w.extractLsb' 0 32).toNat
    let last := (w.extractLsb' 32 32).toNat
    ((y.2.1.into x.node).filter (fun e => e.dport == x.sink)).foldl (fun s e =>
      (((objsOf y.1.objs e.src e.sport).take (last + 1)).drop first).foldl (fun s o => s.request x.launch y.2.1 o) s) s)

/-- Hop i of a request's way back: 0 takes it where the circuit ends, the last delivers it. -/
def State.requestHop (s : State) (idx i : Nat) (x : Circuit) : Option State :=
  let n := x.back.length
  if i = 0 then
    match x.asks with
    | w :: r => if stageRoom 0 x.back then
        some (s.modCircuit idx (fun x => { x with asks := r, back := putStage 0 w x.back })) else none
    | [] => none
  else (stageHead (i - 1) x.back).bind (fun w =>
    if i < n then
      if stageRoom i x.back then
        some (s.modCircuit idx (fun x => { x with back := putStage i w (takeStage (i - 1) x.back) }))
      else none
    else if i = n then
      (s.requestArrive x w).map (fun s => s.modCircuit idx (fun x => { x with back := takeStage (i - 1) x.back }))
    else none)

/-- Hop i of the way forward. -/
def State.dataHop (s : State) (idx i : Nat) (x : Circuit) : Option State :=
  let n := x.stages.length
  if i = 0 then (s.circuitIn x).bind (fun f =>
    if stageRoom 0 x.stages then
      some ((s.circuitTake idx x).modCircuit idx (fun x => { x with stages := putStage 0 f x.stages }))
    else none)
  else (stageHead (i - 1) x.stages).bind (fun f =>
    if i < n then
      if stageRoom i x.stages then
        some (s.modCircuit idx (fun x => { x with stages := putStage i f (takeStage (i - 1) x.stages) }))
      else none
    else (s.deliverEnd x f).map (fun y =>
      if y.2 then y.1.modCircuit idx (fun x => { x with stages := takeStage (i - 1) x.stages }) else y.1))

/-- CIRCUIT_TOKEN_TRANSFER (R92): hop 0 takes a token at the circuit's beginning, hop i moves one from
stage i - 1 to stage i, and the hop past the last stage delivers it; the hops after those carry requests back. A hop
over a link waits while the link's key is being updated. -/
def execCircuitTokenTransfer (idx hop : Nat) (s : State) : Result :=
  match s.circuits[idx]? with
  | none => .next s
  | some x =>
    let n := x.stages.length
    if x.failed || (x.link hop).any s.rekeying then .next s
    else match (if hop ≤ n then s.dataHop idx hop x else s.requestHop idx (hop - n - 1) x) with
      | some s => .next (s.crossed x hop)
      | none => .next s

/-- ROW_TAG_ARRIVAL (R212): the next token of the circuit that ends at a source port with `rowtags`. -/
def execRowTagArrival (c port : Nat) (s : State) : Result :=
  match s.circuits.findIdx? (fun x => x.core2 == c && x.src == port && !x.toVc && x.goes.isNone && !x.failed) with
  | none => .next s
  | some i =>
    match s.circuits[i]? with
    | none => .next s
    | some x =>
      let k := s.core c
      let n := x.stages.length
      match stageHead (n - 1) x.stages with
      | some (.data t) =>
        if (k.port port).tag.isNone || (k.port port).tagStopped || !k.srcRoom port t || !s.nameAhead c (16 + port)
            || (x.link n).any s.rekeying then .next s
        else match s.srcDeliver c port t with
          | none => .next (s.tagStop c port t)
          | some s => .next ((s.crossed x n).modCircuit i (fun x => { x with stages := takeStage (n - 1) x.stages }))
      | _ => .next s

end Sys2Proof.Machine
end

