-- ==== Sys2Proof/Machine/Regulator.lean ====
section
/-!
DEFINITION. The Regulator (R186-R204, R214-R217, R250): work queues, stride arbitration, commands, jobs and
phases, launch graphs but for their launches, bandwidth shares and the replication engine.
-/

namespace Sys2Proof.Machine

/-- The Regulator's source number (R22). -/
def regSrc : Nat := 4 * 8192

/-- A little-endian field of some bytes. -/
def field (b : List Byte) (off n : Nat) : Nat := leNat ((b.drop off).take n)

/-- A global read of the Regulator, on path C: `none` where it is not mapped readable. -/
def State.regRead (s : State) (p va n : Nat) : Option (State × List Byte × Bool) :=
  if va + n ≤ 2 ^ 52 then s.gRead 4 p va n else none

/-- A global write of the Regulator. -/
def State.regWrite (s : State) (p va : Nat) (bytes : List Byte) (bad : Bool) : Option State :=
  if va + bytes.length ≤ 2 ^ 52 then s.gWrite 4 p va bytes bad else none

/-- A record of the Regulator on a partition's fault queue (origin 6). -/
def State.regReport (s : State) (p cause : Nat) (ev : Word) : State := s.report p regSrc cause 6 0 ev 0 0

/-- Is any byte of host memory in the range poisoned (R232)? -/
def State.hostBad (s : State) (a n : Nat) : Bool :=
  (List.range n).any (fun i => Tbl.get false s.badHost ((a + i) / 64))

/-! ## Jobs, graphs and nodes -/

/-- The live job of a partition with an identifier. -/
def State.liveJob (s : State) (p id : Nat) : Option (Nat × Job) :=
  s.jobs.find? (fun x => x.2.part == p && x.2.id == id && x.2.status.isNone)

/-- The graphs of a job's current phase. -/
def State.phaseGraphs (s : State) (j : Nat) : List (Nat × Graph) :=
  match s.jobs.find j with
  | some x => s.graphs.filter (fun g => g.2.job == j && g.2.phase == x.phase)
  | none => []

/-- Has the job's current phase completed (R18)? -/
def State.phaseEnded (s : State) (j : Nat) : Bool := (s.phaseGraphs j).all (fun g => g.2.status.isSome)

def State.modNode (s : State) (gr n : Nat) (f : Node → Node) : State :=
  s.modGraph gr (fun g => { g with nodes := g.nodes.modify n f })

def Node.busy (n : Node) : Bool := n.st == .issued || n.st == .running

/-- Is the node still to dispatch, running, or ended and its successors not told? -/
def Node.finished (n : Node) : Bool := n.passed

/-- A graph's node completes with a status; NODE_FINISH passes it on. -/
def State.endNode (s : State) (gr n : Nat) (st : Status) : State :=
  s.modNode gr n (fun x => { x with st := .ended st })

/-- A node faults: a record, and it completes as faulted (R195). -/
def State.faultNode (s : State) (gr n cause : Nat) (ev : Word) : State :=
  match s.graphs.find gr with
  | some g => match s.jobs.find g.job with
    | some j => (s.regReport j.part cause ev).endNode gr n .faulted
    | none => s
  | none => s

/-- A graph that a fault or a cancel has reached completes once none of its nodes runs (R195, R437). A
faulted graph faults its phase and its job, whose other graphs are cancelled. -/
def State.settleGraph (s : State) (gr : Nat) : State :=
  match s.graphs.find gr with
  | none => s
  | some g =>
    if g.status.isNone && (g.fault || g.cancel) && !g.nodes.any Node.busy then
      if g.fault then
        let s := s.modGraph gr (fun g => { g with status := some .faulted })
        let s := s.modJob g.job (fun j => { j with fault := true })
        (s.phaseGraphs g.job).foldl (fun s x => if x.2.status.isNone then s.askCancel 2 x.1 else s) s
      else s.modGraph gr (fun g => { g with status := some .cancelled })
    else s

/-- Predecessor edges of a node from nodes of the same body (R196). -/
def bodyPreds (nodes : List Node) (n : Nat) : Nat :=
  match nodes[n]? with
  | none => 0
  | some x => nodes.foldl (fun k y => if y.encl = x.encl then k + (y.succ ++ y.alt).count n else k) 0

/-- Start an iteration: the body's counts and live flags are set anew (R196). -/
def startBody (dial loop : Nat) (nodes : List Node) : List Node :=
  (enum nodes).map (fun x =>
    if x.2.encl = loop + 1 then
      let n := bodyPreds nodes x.1
      { x.2 with count := n, live := n == 0, st := if n = 0 then .ready else .waiting, since := dial,
                 passed := false, other := false }
    else x.2)

/-- The nodes of a graph as it is opened (R194). -/
def openNodes (dial : Nat) (nodes : List Node) : List Node :=
  nodes.map (fun n =>
    let free := n.encl == 0 && n.npred == 0
    { n with count := n.npred, live := free, st := if free then .ready else .waiting, since := dial })

/-- Lower a successor's count: it becomes dispatchable or is skipped at 0 (R194). -/
def lowerNode (dial : Nat) (release : Bool) (n : Node) : Node :=
  let c := n.count - 1
  let l := n.live || release
  if c = 0 && n.st == .waiting then
    { n with count := c, live := l, st := if l then .ready else .skipped, since := dial }
  else { n with count := c, live := l }

/-- Pass a finished node on to its successors in the same body (R194). -/
def passNode (dial idx : Nat) (done : Bool) (nodes : List Node) : List Node :=
  match nodes[idx]? with
  | none => nodes
  | some n =>
    let lower (rel : Bool) (l : List Nat) (nodes : List Node) : List Node :=
      l.foldl (fun ns i => ns.modify i (fun x => if x.encl = n.encl then lowerNode dial rel x else x)) nodes
    lower (done && n.other) n.alt (lower (done && !n.other) n.succ nodes)

/-- Barriers whose earlier nodes have all completed, complete (R195). -/
def passBars (g : Graph) : Graph :=
  { g with nodes := (enum g.nodes).map (fun x =>
      if x.2.kind = 5 && x.2.st == .issued
          && (g.order2.takeWhile (· != x.1)).all (fun i => ((g.nodes[i]?).map (!·.busy)).getD true)
      then { x.2 with st := .ended .done } else x.2) }

/-! ## Arbitration (R191, R193, R204) -/

/-- The physical cores of a launch graph node's launch, `none` when a sum lies outside the map (R195). -/
def State.launchCores (s : State) (g : Graph) (p : Nat) (n : Node) : Option (List Nat) :=
  match (s.object g.obj).bind (fun o => o.graphs[n.arg0.toNat]?) with
  | none => none
  | some gr => (gr.nodes.mapM (fun x => s.physCore p (n.arg1.toNat + x.vcl) x.core)).map List.eraseDups

/-- The die whose dependence table takes a graph (R193). -/
def State.graphDie (s : State) (g : Graph) (p : Nat) : Nat :=
  let v := ((g.nodes.find? (fun n => n.kind == 1)).map (fun n => n.arg1.toNat)).getD 0
  let cl := ((s.part p).clusters[v]?).getD (((s.part p).clusters[0]?).getD 0)
  cl / 8

/-- The least of a list of keyed values. -/
def leastBy {α : Type} (lt : α → α → Bool) : List α → Option α
  | [] => none
  | a :: r => match leastBy lt r with
    | none => some a
    | some b => if lt b a then some b else some a

/-- The entries of a die's dependence table in use: first entry and length of each graph in it. -/
def State.tableUse (s : State) (die : Nat) : List (Nat × Nat) :=
  (s.graphs.filter (fun g => g.2.loaded && g.2.status.isNone && g.2.die == die)).map
    (fun g => (g.2.first, g.2.nodes.length))

/-- Where a table takes n consecutive entries: the lowest place that is free (R193, notes/assumptions/90.md). -/
def tablePlace (used : List (Nat × Nat)) (n : Nat) : Option Nat :=
  leastBy (fun (a b : Nat) => a < b) ((0 :: used.map (fun x => x.1 + x.2)).filter (fun i =>
    i + n ≤ 4096 && used.all (fun x => i + n ≤ x.1 || x.1 + x.2 ≤ i)))

/-- May a ready node be dispatched now? A launch waits until no other launch holds its cores. -/
def State.canRun (s : State) (g : Graph) (n : Node) : Bool :=
  match s.jobs.find g.job with
  | none => false
  | some j =>
    n.st == .ready && g.status.isNone && !g.cancel && !g.fault && j.status.isNone && !j.cancel && !j.fault
      && !j.due && g.phase == j.phase && (s.part j.part).pre == .running
      && (g.loaded || (tablePlace (s.tableUse (s.graphDie g j.part)) g.nodes.length).isSome)
      && (n.kind != 1 || match s.launchCores g j.part n with
        | none => true
        | some cs => cs.all (fun c => !(s.core c).armed))

/-- The node that a job dispatches next: the first that became dispatchable, then graph order, then index. -/
def State.jobNode (s : State) (j : Nat) : Option (Nat × Nat) :=
  let cand := (s.phaseGraphs j).flatMap (fun g =>
    (enum g.2.nodes).filterMap (fun x =>
      if s.canRun g.2 x.2 then some (x.2.since, g.2.order, x.1, g.1) else none))
  let lt (a b : Nat × Nat × Nat × Nat) : Bool :=
    a.1 < b.1 || (a.1 == b.1 && (a.2.1 < b.2.1 || (a.2.1 == b.2.1 && a.2.2.1 < b.2.2.1)))
  (leastBy lt cand).map (fun x => (x.2.2.2, x.2.2.1))

/-- The node that a queue dispatches: of its oldest live job that has one. -/
def State.queueNode (s : State) (q : Nat) : Option (Nat × Nat) :=
  let js := s.jobs.filter (fun j => j.2.q == q && j.2.status.isNone && (s.jobNode j.1).isSome)
  (leastBy (fun (a b : Nat × Job) => a.2.age < b.2.age) js).bind (fun j => s.jobNode j.1)

/-- Has the queue a command that the Regulator may read? -/
def State.commandable (s : State) (q : Queue) : Bool :=
  q.en && q.head != q.tail && !q.torn && q.tries == 0 && q.cmd.isNone && (s.part q.part.toNat).pre == .running

/-- Is a queue backlogged (R191): an unread command, or a live job with a dispatchable node? -/
def State.backlogged (s : State) (q : Nat) : Bool :=
  let x := Tbl.get {} s.queues q
  (x.en && x.head != x.tail) || (s.queueNode q).isSome

/-- Has a queue something that the port can dispatch now? A command that is being read again, is torn, or has been
read and not yet run is none (R250). -/
def State.dispatchable (s : State) (q : Nat) : Bool :=
  s.commandable (Tbl.get {} s.queues q) || (s.queueNode q).isSome

/-- The least pass value among backlogged queues. -/
def minPass (qs : Tbl Queue) : Option (BitVec 64) :=
  (leastBy (fun (a b : BitVec 64) => a < b) ((qs.filter (·.2.active)).map (·.2.pass)))

/-- Note which queues are backlogged: one that becomes so takes its pass value by R191. -/
def State.refresh (s : State) : State :=
  let qs := s.queues.map (fun x => (x.1, if x.2.active && !s.backlogged x.1 then { x.2 with active := false } else x.2))
  let p := ((minPass qs).orElse (fun _ => s.lastPass)).getD 0
  { s with queues := qs.map (fun x => (x.1,
      if !x.2.active && s.backlogged x.1 then { x.2 with active := true, since := s.dial, pass := p } else x.2)) }

/-- Step 3 of R191: the queue's stride is added to its pass value. -/
def State.addStride (s : State) (q : Nat) : State :=
  let x := Tbl.get {} s.queues q
  let p := x.pass + BitVec.ofNat 64 x.stride
  { s with queues := s.queues.put q { x with pass := p }, lastPass := some p }

/-- Load a graph's nodes into its die's table (R193). -/
def State.loadGraph (s : State) (gr : Nat) : State :=
  match s.graphs.find gr with
  | none => s
  | some g =>
    if g.loaded then s
    else match s.jobs.find g.job with
      | none => s
      | some j =>
        let die := s.graphDie g j.part
        match tablePlace (s.tableUse die) g.nodes.length with
        | some i => s.modGraph gr (fun x => { x with loaded := true, die := die, first := i })
        | none => s

/-- The queue that wins an arbitration: among those backlogged before this Dial tick that have something to
dispatch, the smallest pass, then the lower number (R191, R204). -/
def State.winner (s : State) : Option Nat :=
  let c := s.queues.filter (fun x => x.2.active && x.2.since < s.dial && s.dispatchable x.1)
  (leastBy (fun (a b : Nat × Queue) => a.2.pass < b.2.pass || (a.2.pass == b.2.pass && a.1 < b.1)) c).map (·.1)

/-- STRIDE_DISPATCH (R191): the free port grants one dispatch. -/
def execStrideDispatch (s : State) : Result :=
  if s.grant.isSome then .next s
  else match s.winner with
    | none => .next s
    | some q => match s.queueNode q with
      | some (gr, n) => .next { (s.loadGraph gr).addStride q with grant := some (.node q gr n) }
      | none => .next { s with grant := some (.command q) }

/-! ## Queues (R186, R250) -/

def queueReserved (v : BitVec 256) : Bool := v.extractLsb' 16 80 == 0 && v.extractLsb' 1 5 == 0

/-- QUEUE_DESCRIPTOR_WRITE (R186). -/
def execQueueDescriptorWrite (q : Nat) (v : BitVec 256) (s : State) : Result :=
  if !s.booted || 1024 ≤ q then .next s
  else if 12 < (v.extractLsb' 6 4).toNat || !queueReserved v then
    .next (s.reportFw regSrc 14 6 0 (BitVec.ofNat 64 q))
  else
    let x := Tbl.get {} s.queues q
    let y : Queue := { x with base := v.extractLsb' 192 64, part := v.extractLsb' 11 5, loc := v.getLsbD 10,
                              lsize := v.extractLsb' 6 4, en := v.getLsbD 0 }
    let y : Queue := if !x.en && y.en then
      { y with head := 0, tail := 0, seq := 0, stride := 1048576, torn := false, tries := 0, cmd := none, noted := none } else y
    .next (State.refresh { s with queues := s.queues.put q y })

def Queue.capacity (q : Queue) : Nat := 2 ^ (q.lsize.toNat + 4)

/-- A new tail for a queue (R250): dropped when the queue is disabled or the tail is too far; a torn command is read
again. -/
def State.notify (s : State) (q : Nat) (tail : W32) : State :=
  let x := Tbl.get {} s.queues q
  if !x.en || x.capacity < (tail - x.head).toNat then s
  else
    let y : Queue := if x.torn then { x with tail := tail, torn := false, tries := 0 } else { x with tail := tail }
    State.refresh { s with queues := s.queues.put q { y with noted := some (s.dial, x.tail) } }

/-- QUEUE_NOTIFY (R250). -/
def execQueueNotify (q : Nat) (tail : BitVec 32) (s : State) : Result := .next (s.notify q tail)

/-- Where command i of a ring lies (R186). -/
def Queue.slotAt (q : Queue) (i : BitVec 32) : Nat := q.base.toNat + 64 * (i.toNat % q.capacity)

/-- Read a command of a ring, with its poison; an unmapped ring reads as poisoned. -/
def State.readRing (s : State) (q : Queue) (i : BitVec 32) : State × List Byte × Bool :=
  let a := q.slotAt i
  if q.loc then (s.regRead q.part.toNat a 64).getD (s, List.replicate 64 0, true)
  else (s, s.mem.reads (hostKey a) 64, s.hostBad a 64)

/-! ## Commands (R187-R189) -/

/-- The graph list of a phase: each address names a loaded `.lgraph` section (R188). -/
def State.graphRefs (s : State) (p : Nat) (b : List Byte) : List (Option (Nat × Nat)) :=
  (chunks 8 256 b).map (fun x =>
    let va := leNat x
    (s.objects.filter (fun o => o.part == p)).findSome? (fun o =>
      (o.lgs.findIdx? (fun l => l.1.toNat == va)).map (fun i => (o.id, i))))

/-- Read a job table of n phases: the objects and launch graphs it names, `none` when R188 fails. -/
def readTable (p : Nat) : Nat → Nat → State → State × Option (List (List (Nat × Nat)))
  | _, 0, s => (s, some [])
  | va, n + 1, s =>
    match s.regRead p va 16 with
    | none => (s, none)
    | some (s, e, bad) =>
      let gl := field e 0 8
      let ng := field e 8 2
      if bad || ng = 0 || field e 10 6 != 0 || gl % 8 != 0 then (s, none)
      else match s.regRead p gl (8 * ng) with
        | none => (s, none)
        | some (s, l, bad) =>
          if bad || 255 < ng then (s, none)
          else
            let rs := (chunks 8 256 l).map (fun x => s.graphRefs p x)
            match (rs.flatten).mapM id with
            | none => (s, none)
            | some g =>
              match readTable p (va + 16) n s with
              | (s, some r) => (s, some (g :: r))
              | (s, none) => (s, none)

/-- Check a command of a partition's queue as R189 gives. -/
def State.parseCommand (s : State) (p : Nat) (b : List Byte) (bad : Bool) : State × Command :=
  let c : Command :=
    { op := field b 4 2, tickets := field b 6 2, job := field b 8 4, cpl := BitVec.ofNat 64 (field b 24 8),
      ok := false }
  let nph := field b 13 1
  let nn := field b 40 4
  let nva := field b 32 8
  let lva := field b 16 8
  if bad || !(c.op == 1 || c.op == 2) || c.tickets = 0 || field b 12 1 != p || field b 14 2 != 0
      || field b 44 20 != 0 then (s, c)
  else if c.op = 2 then (s, { c with ok := true })
  else if nph = 0 || (s.liveJob p c.job).isSome || lva % 8 != 0 then (s, c)
  else
    match readTable p lva nph s with
    | (s, none) => (s, c)
    | (s, some ph) =>
      match ph.flatten.map (·.1) with
      | [] => (s, c)
      | o :: r =>
        match s.object o with
        | none => (s, c)
        | some ob =>
          if r.any (· != o) || nn != ob.names.length then (s, c)
          else
            let c := { c with obj := o, phases := ph.map (fun l => l.map (·.2)) }
            if nn = 0 then (s, { c with ok := true })
            else if nva % 16 != 0 then (s, c)
            else match s.regRead p nva (16 * nn) with
              | none => (s, c)
              | some (s, t, bad) =>
                if bad then (s, c)
                else (s, { c with ok := true, names := (chunks 16 nn t).map (fun x => BitVec.ofNat 128 (leNat x)) })

/-- One attempt of CheckCommand (R250): a valid command waits to be run; its tickets set the stride. -/
def State.checkCommand (s : State) (q : Nat) : State :=
  let x := Tbl.get {} s.queues q
  let (s, b, bad) := s.readRing x x.head
  if bad || field b 0 4 == x.seq.toNat then
    let (s, c) := s.parseCommand x.part.toNat b bad
    { s with queues := s.queues.put q { x with
        tries := 0, cmd := some c, stride := if c.ok then 1048576 / c.tickets else x.stride } }
  else { s with queues := s.queues.put q { x with tries := x.tries + 1, due := s.dial + 256 } }

/-- COMMAND_READ (R250): the dispatch that was granted. -/
def execCommandRead (q : Nat) (s : State) : Result :=
  if s.grant = some (.command q) then
    .next (State.refresh { (s.checkCommand q).addStride q with grant := none })
  else .next s

/-- COMMAND_RETRY_TIMEOUT (R250): the next attempt, or the torn-command record after the ninth. -/
def execCommandRetryTimeout (q : Nat) (s : State) : Result :=
  let x := Tbl.get {} s.queues q
  if x.tries = 0 || x.torn || s.dial < x.due || (s.part x.part.toNat).pre != .running then .next s
  else if x.tries < 9 then .next (s.checkCommand q).refresh
  else
    .next (State.refresh { s.regReport x.part.toNat 24 (BitVec.ofNat 64 q) with
      queues := s.queues.put q { x with torn := true, tries := 0 } })

/-- A completion record (R190): to host memory, or to the partition's global space; one that cannot be
written is dropped with a record. -/
def State.complete (s : State) (p : Nat) (cpl : Word) (job st phase : Nat) : State :=
  let rec16 := leBytes job 4 ++ [BitVec.ofNat 8 st, BitVec.ofNat 8 phase, 0, 0] ++ leBytes s.dial 8
  if cpl.getLsbD 63 then { s with mem := s.mem.writes (hostKey (cpl.toNat % 2 ^ 63)) rec16 }
  else match s.regWrite p cpl.toNat rec16 false with
    | some s => s
    | none => s.regReport p 6 cpl

/-- Consume the command that has been read; a malformed one writes a record with status 3 (R189). -/
def State.consume (s : State) (q : Nat) (c : Command) (ok : Bool) : State :=
  let x := Tbl.get {} s.queues q
  let s := { s with queues := s.queues.put q { x with head := x.head + 1, seq := x.seq + 1, cmd := none } }
  if ok then s else s.complete x.part.toNat c.cpl c.job 3 0

/-! ## Phase boundaries (R13, R199, R203, R215, R216) -/

/-- Apply the pending deterministic mode of a partition (R13). -/
def applyDet (p : Part) : Part :=
  match p.detNext with
  | some d => { p with det := d, detNext := none }
  | none => p

/-- Apply the backlogs of a partition's subscriptions that neither a halt nor a pre-emption holds. -/
def State.applyBacklogs (s : State) (p : Nat) : State :=
  { s with subs := s.subs.map (fun u =>
      let k := s.core u.sub
      if k.part = p && k.halted.isNone && k.preempt.isNone && !k.firmware then
        u.resume else u) }

/-- The measured use of a partition in 1/1,024 of the bandwidth, rounded up (R203). -/
def measured (used ticks : Nat) : Nat :=
  if ticks = 0 then (if used = 0 then 0 else 1024) else (used * 1024 + (500 * ticks - 1)) / (500 * ticks)

/-- Recompute every effective share (R203). -/
def State.recompute (s : State) : State :=
  let ticks := s.dial - s.shareAt.getD 0
  let free : Int := 1024 - s.parts.foldl (fun n x => n + (x.2.share : Int)) 0
  let idle : Int := s.parts.foldl (fun n x =>
    if x.2.short then n else n + (x.2.share : Int) - (measured x.2.used ticks : Int)) 0
  let spare := (free + idle).toNat
  let sum := s.parts.foldl (fun n x => if x.2.short then n + x.2.share else n) 0
  { s with
    shareAt := some s.dial
    parts := s.parts.map (fun x => (x.1, { x.2 with
      eshare := if x.2.short then x.2.share + spare * x.2.share / sum else x.2.share
      used := 0, short := false })) }

/-- The dies that hold a copy of an expert (R215). -/
def State.holders (s : State) (p x : Nat) : List Nat :=
  (s.replicas.filter (fun r => r.2.part == p && r.2.expert == x && r.2.state != 0)).filterMap
    (fun r => ((s.part p).clusters[r.2.vcl]?).map (· / 8))

/-- The die that a copy of an expert goes to: the lowest sum among the dies with a reserve and no copy. -/
def State.copyDie (s : State) (p x : Nat) (sums : Tbl Nat) : Option Nat :=
  let ds := [0, 1, 2, 3].filter (fun d => ((s.part p).reserve.find d).isSome && !(s.holders p x).contains d)
  leastBy (fun (a b : Nat) => Tbl.get 0 sums a < Tbl.get 0 sums b
    || (Tbl.get 0 sums a == Tbl.get 0 sums b && a < b)) ds

/-- A free entry of the replica table. -/
def State.freeReplica (s : State) : Option Nat :=
  (List.range 64).find? (fun i => match s.replicas.find i with | none => true | some r => r.state == 0)

/-- At a phase boundary the originals that the supervisor has written enter the table (R199, R215); one that finds no
free entry waits for the next. -/
def State.applyReplicas (s : State) (p : Nat) : State :=
  (s.part p).pendRep.foldl (fun s r =>
    match s.freeReplica with
    | some i => { s with replicas := s.replicas.put i r }.modPart p (fun x => { x with pendRep := x.pendRep.drop 1 })
    | none => s) s

/-- The 16 bytes of a replica-table entry (R216). -/
def Replica.bytes (r : Replica) : List Byte :=
  leBytes (r.state.toNat + r.ncore % 128 * 2 ^ 32 + r.core % 128 * 2 ^ 39 + r.vcl % 32 * 2 ^ 46
    + r.part % 32 * 2 ^ 51 + r.expert % 256 * 2 ^ 56) 8 ++ leBytes (r.line * 2 ^ 32) 8

/-- Publish a partition's entries at its replica page: in table order, originals first (R216). -/
def State.publish (s : State) (p : Nat) : State :=
  let x := s.part p
  if x.repPage = 0 then s
  else
    let es := (s.replicas.filter (fun r => r.2.part == p && r.2.state != 0)).map (·.2)
    let l := es.filter (fun r => r.state == 1) ++ es.filter (fun r => r.state != 1)
    let b := (l.flatMap Replica.bytes) ++ List.replicate (1024 - 16 * l.length) 0
    s.physWrite ((List.range b.length).map (x.repPage + ·)) b false

/-- The replication engine's procedure goes on (R215) until a copy is started or none is left; then the
counters are cleared, the entries published and the phase opened. -/
def repGo (p : Nat) (r : RepRun) : List (Nat × Nat) → State → State
  | [], s =>
    let s := s.modPart p (fun x => { x with loads := [], rep := none })
    (s.publish p).modJob r.job (fun j => { j with due := false })
  | (x, d) :: l, s =>
    if r.did.contains x then repGo p r l s
    else
      let skip (s : State) : State := s.modPart p (fun y => { y with skips := y.skips + 1 })
      match s.copyDie p x r.sums with
      | none => repGo p r l (skip s)
      | some t =>
        if (s.part p).idleThr ≤ Tbl.get 0 r.sums t || s.freeReplica.isNone then repGo p r l (skip s)
        else
          { s.modPart p (fun y => { y with rep := some { r with todo := l, did := x :: r.did } }) with
            copies := s.copies ++ [⟨p, x, t, Tbl.get 0 (s.part p).loads (x * 8 + d)⟩] }

/-- Start the engine at a boundary (R215). -/
def State.replicate (s : State) (p job : Nat) : State :=
  let x := s.part p
  let sums : Tbl Nat := [0, 1, 2, 3].map (fun d =>
    (d, x.loads.foldl (fun n y => if y.1 % 8 = d then n + y.2 else n) 0))
  let todo := (x.loads.filter (fun y => x.copyThr < y.2)).map (fun y => (y.1 / 8, y.1 % 8))
  repGo p ⟨job, todo, sums, []⟩ todo s

/-- Create the graphs of a job's current phase (R188, R193, R194). -/
def State.openGraphs (s : State) (jk : Nat) (j : Job) : State :=
  match s.object j.obj with
  | none => s
  | some o =>
    (enum ((j.phases[j.phase]?).getD [])).foldl (fun s x =>
      let g : Graph := { job := jk, phase := j.phase, order := x.1, obj := j.obj, lg := x.2,
                         nodes := openNodes s.dial (((o.lgs[x.2]?).map (·.2)).getD []) }
      State.next { s with graphs := s.graphs.put s.fresh g }) s

/-- A phase begins: the boundary's work, then its nodes may be dispatched (R199). -/
def State.beginPhase (s : State) (jk : Nat) : State :=
  match s.jobs.find jk with
  | none => s
  | some j =>
    let s := s.modJob jk (fun x => { x with due := true, pcancel := false })
    (((((s.openGraphs jk j).applyReplicas j.part).applyBacklogs j.part).recompute).replicate j.part jk)

/-- A job for an object whose loading has not completed completes as faulted, with cause 14 (R287); the record's
`evalue` is open. -/
def State.earlyJob (s : State) (p q : Nat) (c : Command) : State :=
  let s := s.consume q c true
  ({ s with free := s.free + 1 }.regReport p 14 (Config.freeWord s.free)).complete p c.cpl c.job 2 0

/-- RUN_JOB (R189): the command read is consumed; when well formed its job is created, its source names
bound, and phase 0 begins. -/
def execRunJob (q : Nat) (s : State) : Result :=
  let x := Tbl.get {} s.queues q
  match x.cmd with
  | none => .next s
  | some c =>
    let p := x.part.toNat
    if c.op = 2 || (s.part p).pre != .running || (s.part p).rep.isSome then .next s
    else if c.ok && (s.object c.obj).any (fun o => !o.pending.isEmpty) then .next (s.earlyJob p q c).refresh
    else if c.ok && (s.liveJob p c.job).isNone && (s.object c.obj).isSome then
      let s := s.consume q c true
      let j : Job := { id := c.job, q := q, part := p, obj := c.obj, cpl := c.cpl, names := c.names,
                       phases := c.phases, age := s.fresh }
      let k := s.fresh
      .next ((State.next { s with jobs := s.jobs.put k j }).beginPhase k).refresh
    else .next (s.consume q c false).refresh

/-- CANCEL_JOB (R189): an op 2 command cancels a live job; one that names no live job is ignored. -/
def execCancelJob (q : Nat) (s : State) : Result :=
  let x := Tbl.get {} s.queues q
  match x.cmd with
  | none => .next s
  | some c =>
    if c.op != 2 then .next s
    else if c.ok then
      let s := s.consume q c true
      match s.liveJob x.part.toNat c.job with
      | some j => .next (s.askCancel 4 j.1).refresh
      | none => .next s.refresh
    else .next (s.consume q c false).refresh

/-- PHASE_BOUNDARY (R199): the current phase has completed as done or cancelled, and the next begins. -/
def execPhaseBoundary (job : Nat) (s : State) : Result :=
  match s.jobs.find job with
  | none => .next s
  | some j =>
    if j.status.isSome || j.fault || j.cancel || j.phases.length ≤ j.phase + 1 || !s.phaseEnded job
        || (s.part j.part).rep.isSome || (s.part j.part).pre != .running then .next s
    else
      let s := s.modPart j.part applyDet
      .next ((s.modJob job (fun x => { x with phase := x.phase + 1 })).beginPhase job).refresh

/-- The first replica line free in a die's reserve, and the lines that a copy takes (R215). -/
def State.replicaLine (s : State) (p die first : Nat) : Nat :=
  (s.replicas.filter (fun r => r.2.part == p && r.2.state == 2
    && ((s.part p).clusters[r.2.vcl]?).map (· / 8) == some die)).foldl
    (fun n r => max n (r.2.line + Config.expertLines p r.2.expert)) first

/-- Copy an expert's lines from its original's cores to a replica's (R215, R217). -/
def State.copyExpert (s : State) (p n line : Nat) (o : Replica) (vcl core : Nat) : State :=
  (List.range (o.ncore + 1)).foldl (fun s i =>
    match s.physCore p o.vcl (o.core + i), s.physCore p vcl (core + i) with
    | some a, some b =>
      (List.range n).foldl (fun s k =>
        let l := lineKey a (o.line + k)
        (s.spStore b ((line + k) * 128) (s.spBytes a ((o.line + k) * 128) 128) (s.isBad l) false).setFull
          (lineKey b (line + k))) s
    | _, _ => s) s

/-- REPLICA_COPY_COMPLETE (R215): the partition's copy ends, its table entry is added or the error
reported, and the procedure goes on. -/
def execReplicaCopyComplete (p : Nat) (ok : Bool) (s : State) : Result :=
  match s.copies.find? (fun c => c.part == p), (s.part p).rep with
  | some c, some r =>
    let s := { s with copies := s.copies.filter (fun x => x.part != p) }
    let fail (s : State) : State := repGo p r r.todo (s.regReport p 18 (BitVec.ofNat 64 c.expert))
    let orig := s.replicas.find? (fun x => x.2.part == p && x.2.expert == c.expert && x.2.state == 1)
    match ok, orig, (s.part p).reserve.find c.die, s.freeReplica with
    | true, some (_, o), some (vcl, core, ncore, first), some i =>
      let n := Config.expertLines p c.expert
      let line := s.replicaLine p c.die first
      if ncore < o.ncore || 4096 < line + n || 4096 < o.line + n then .next (fail s).refresh
      else
        let s := s.copyExpert p n line o vcl core
        let s := { s with replicas := s.replicas.put i ⟨line, c.expert, p, vcl, core, o.ncore, 2⟩ }
        let sums : Tbl Nat := r.sums.put c.die (Tbl.get 0 r.sums c.die + c.load)
        .next (repGo p { r with sums := sums } r.todo s).refresh
    | _, _, _, _ => .next (fail s).refresh
  | _, _ => .next s

/-- JOB_COMPLETION (R190): every phase that starts has completed; the record is written. -/
def execJobCompletion (job : Nat) (s : State) : Result :=
  match s.jobs.find job with
  | none => .next s
  | some j =>
    if j.status.isSome || !s.phaseEnded job
        || !(j.fault || j.cancel || j.phases.length ≤ j.phase + 1) then .next s
    else
      let st : Status := if j.fault then .faulted else if j.cancel then .cancelled else .done
      let code := match st with | .done => 0 | .cancelled => 1 | .faulted => 2
      .next ((s.complete j.part j.cpl j.id code j.phase).modJob job (fun x => { x with status := some st })).refresh

/-- TOKEN_REFILL (R202): the pool of every partition whose clusters are on the device. -/
def execTokenRefill (s : State) : Result :=
  if s.dial < (s.refill + 1) * 1024 then .next s
  else
    let share (k : Core) : Nat :=
      let p := s.part k.part
      if k.firmware || p.clusters.isEmpty then 0 else p.eshare * 500 / (96 * p.clusters.length)
    let cs := s.parts.flatMap (fun x => (x.2.clusters.filter (· < 32)).flatMap (fun cl =>
      (List.range 96).map (cl * 96 + ·)))
    let s := { s with refill := s.refill + 1 }
    .next (cs.foldl (fun s c => s.modCore c (fun k =>
      { k with bucket := min (k.bucket + share k) (2 * share k) })) s)

/-! ## Nodes (R194-R196) -/

/-- Dispatch of a node that the port has granted; a graph that a fault or cancel has reached dispatches
none (R195). -/
def State.dispatch (s : State) (kind gr n : Nat) (f : Graph → Job → Node → State → State) : Result :=
  match s.grant, s.graphs.find gr with
  | some (.node _ a b), some g =>
    match g.nodes[n]?, s.jobs.find g.job with
    | some x, some j =>
      if a ≠ gr ∨ b ≠ n ∨ x.kind ≠ kind then .next s
      else
        let s := { s with grant := none }
        if g.cancel || g.fault || g.status.isSome || x.st != .ready then .next s.refresh
        else
          let s := s.modGraph gr (fun g => { g with
            nodes := g.nodes.modify n (fun y => { y with st := .issued })
            order2 := g.order2.filter (· != n) ++ [n] })
          .next (f g j x s).refresh
    | _, _ => .next s
  | _, _ => .next s

/-- COPY_NODE_DISPATCH (R195). -/
def execCopyNodeDispatch (gr node : Nat) (s : State) : Result :=
  s.dispatch 2 gr node (fun _ _ _ s => s.modNode gr node (fun x => { x with st := .running }))

/-- The first address of a range that does not translate. -/
def State.firstBad (s : State) (p va n : Nat) (write : Bool) : Option Nat :=
  if 2 ^ 52 < va + n then some va
  else ((List.range n).map (va + ·)).find? (fun a => (s.translate 4 p a write).isNone)

/-- COPY_NODE_COMPLETE (R195): the bytes move in pieces of 64, each with its poison; a region that is not
mapped with its permission faults the node. -/
def execCopyNodeComplete (gr node : Nat) (s : State) : Result :=
  match s.graphs.find gr with
  | none => .next s
  | some g => match g.nodes[node]?, s.jobs.find g.job with
    | some x, some j =>
      if x.kind ≠ 2 ∨ x.st ≠ .running then .next s
      else
        let n := x.arg2.toNat
        let src := x.arg0.toNat
        let dst := x.arg1.toNat
        match (s.firstBad j.part src n false).orElse (fun _ => s.firstBad j.part dst n true) with
        | some va => .next (s.faultNode gr node 6 (BitVec.ofNat 64 va)).refresh
        | none =>
          let offs := (List.range ((n + 63) / 64)).map (· * 64)
          let rd := offs.foldl (fun (a : State × List (Nat × List Byte × Bool)) o =>
            match a.1.regRead j.part (src + o) (min 64 (n - o)) with
            | some (s, b, bad) => (s, a.2 ++ [(o, b, bad)])
            | none => a) (s, [])
          let s := rd.2.foldl (fun s y => (s.regWrite j.part (dst + y.1) y.2.1 y.2.2).getD s) rd.1
          .next (s.endNode gr node .done).refresh
    | _, _ => .next s

/-- Read a predicate word: its value, or the cause of the node's fault (R195, R196, R234). -/
def State.predicate (s : State) (p : Nat) (a : Word) : State × (Nat ⊕ Nat) :=
  if a.toNat % 8 ≠ 0 then (s, .inl 5)
  else match s.regRead p a.toNat 8 with
    | none => (s, .inl 6)
    | some (s, b, bad) => (s, if bad then .inl 21 else .inr (leNat b))

/-- COND_NODE_DISPATCH (R195): the predicate is read and the node completes at once. -/
def execCondNodeDispatch (gr node : Nat) (s : State) : Result :=
  s.dispatch 3 gr node (fun _ j x s =>
    match s.predicate j.part x.arg0 with
    | (s, .inl cause) => s.faultNode gr node cause x.arg0
    | (s, .inr v) => s.modNode gr node (fun y => { y with st := .ended .done, other := v == 0 }))

/-- LOOP_NODE_DISPATCH (R196). -/
def execLoopNodeDispatch (gr node : Nat) (s : State) : Result :=
  s.dispatch 4 gr node (fun _ _ _ s => s.modGraph gr (fun g => { g with
    nodes := startBody s.dial node (g.nodes.modify node (fun x => { x with st := .running, iter := 0 })) }))

/-- LOOP_ITERATION_END (R196): every body node has finished; the predicate decides. -/
def execLoopIterationEnd (gr node : Nat) (s : State) : Result :=
  match s.graphs.find gr with
  | none => .next s
  | some g => match g.nodes[node]?, s.jobs.find g.job with
    | some x, some j =>
      if x.kind ≠ 4 ∨ x.st ≠ .running ∨ g.cancel ∨ g.fault ∨ g.status.isSome
          ∨ !(g.nodes.all (fun y => y.encl != node + 1 || y.passed)) then .next s
      else
        match s.predicate j.part x.arg0 with
        | (s, .inl cause) => .next (s.faultNode gr node cause x.arg0).refresh
        | (s, .inr v) =>
          let s := s.modNode gr node (fun y => { y with iter := y.iter + 1 })
          if v = 0 || x.arg2.toNat ≤ x.iter + 1 then .next (s.endNode gr node .done).refresh
          else .next (s.modGraph gr (fun g => { g with nodes := startBody s.dial node g.nodes })).refresh
    | _, _ => .next s

/-- BAR_NODE_DISPATCH (R195): it completes when every node of the graph dispatched before it has. -/
def execBarNodeDispatch (gr node : Nat) (s : State) : Result :=
  s.dispatch 5 gr node (fun _ _ _ s => s.modGraph gr passBars)

/-- DONE_NODE_DISPATCH (R195): the graph completes as done. -/
def execDoneNodeDispatch (gr node : Nat) (s : State) : Result :=
  s.dispatch 6 gr node (fun _ _ _ s => s.modGraph gr (fun g => { g with
    nodes := g.nodes.modify node (fun x => { x with st := .ended .done, passed := true })
    status := some .done }))

/-- NODE_FINISH (R194, R195, R437): a node that has completed or been skipped is passed on to its
successors; one that faulted or was cancelled ends its graph so. -/
def execNodeFinish (gr node : Nat) (s : State) : Result :=
  match s.graphs.find gr with
  | none => .next s
  | some g => match g.nodes[node]? with
    | none => .next s
    | some x =>
      let mark (s : State) : State := s.modNode gr node (fun y => { y with passed := true })
      if x.passed then .next s
      else match x.st with
        | .ended .done =>
          .next (((mark s).modGraph gr (fun g =>
            passBars { g with nodes := passNode s.dial node true g.nodes })).settleGraph gr).refresh
        | .ended .faulted =>
          .next ((((mark s).modGraph gr (fun g => passBars { g with fault := true })).askCancel 2 gr).settleGraph
            gr).refresh
        | .ended .cancelled =>
          .next ((((mark s).modGraph gr (fun g => passBars { g with cancel := true })).askCancel 2 gr).settleGraph
            gr).refresh
        | .skipped =>
          .next (((mark s).modGraph gr (fun g =>
            { g with nodes := passNode s.dial node false g.nodes })).settleGraph gr).refresh
        | _ => .next s

end Sys2Proof.Machine
end

