-- ==== Sys2Proof/Machine/Level.lean ====
section
/-!
DEFINITION. The levels as tasks see them (R18-R21, R200, R327-R329, R407, R408, R437): counters, cancels
and posted commands, and the arrival of a cancel at a level's owner.
-/

namespace Sys2Proof.Machine

/-- The cores that a launch has armed. -/
def State.coresOf (s : State) (ln : Nat) : List Nat :=
  (s.cores.filter (fun x => x.2.launch == ln && x.2.armed)).map (·.1)

/-- The firings of a core that have not emitted their tokens: of its lanes, its memory nodes and its matrix unit
(R18). -/
def Core.firings (k : Core) : Nat :=
  k.lanes.countP (fun x => !x.2.out.isEmpty) + k.memreqs.length + k.mx.pass.length

/-- The live units of a launch (R18): task chains not completed, and firings. -/
def State.liveUnits (s : State) (ln : Nat) : Nat :=
  s.cores.foldl (fun n x => n + x.2.chains.countP (fun y => y.2.launch == ln && !y.2.posted)
    + (if x.2.launch = ln ∧ x.2.armed then x.2.firings else 0)) 0

/-- Wave, demand and retention of a launch are finished, and no unit lives or will start (R18). -/
def State.launchDone (s : State) (l : Launch) : Bool :=
  match s.graphOf l with
  | none => s.liveUnits l.serial == 0
  | some g =>
    l.swept && s.liveUnits l.serial == 0
      && (s.coresOf l.serial).all (s.tasksEnded l.serial)
      && l.objs.all (fun o => match g.nodes[o.node]? with
        | some gn => !s.due l g gn o
        | none => true)

/-! ## Counters (R200, R328) -/

def statusCode : Option Status → Nat
  | none => 0
  | some .done => 1
  | some .cancelled => 2
  | some .faulted => 3

/-- The word that `cnct` gives for a level above the unit: state and counter. -/
def levelWord (st : Option Status) (n : Nat) : Word :=
  BitVec.ofNat 64 (statusCode st * 2 ^ 62 + (if st.isSome then 0 else n % 2 ^ 32))

/-- The launch that encloses the running task. -/
def State.ownLaunch (s : State) : Option Launch :=
  s.launches.find (s.here.chain s.here.ctl.chain).launch

def Node.unfinished (n : Node) : Bool :=
  match n.st with
  | .ended _ | .skipped => false
  | _ => true

/-- The status of a phase of a job, once it has completed. -/
def State.phaseStatus (s : State) (jk : Nat) (j : Job) (ph : Nat) : Option Status :=
  let gs := s.graphs.filter (fun g => g.2.job == jk && g.2.phase == ph)
  if gs.any (fun g => g.2.status.isNone) then none
  else if gs.any (fun g => g.2.status == some .faulted) then some .faulted
  else if j.pcancel && j.phase == ph then some .cancelled
  else some .done

/-- The counter and state of a level (R200). -/
def State.counter (s : State) (lv : Level) : Word :=
  let x := s.here.chain s.here.ctl.chain
  match lv with
  | .unit => BitVec.ofNat 64 (x.ld % 65536 * 2 ^ 48 + x.st % 65536 * 2 ^ 32 + x.cp % 65536 * 2 ^ 16 + x.mt % 65536)
  | .job id =>
    match s.liveJob s.here.part id with
    | some (k, j) => levelWord none (j.phases.length - (if s.phaseEnded k then j.phase + 1 else j.phase))
    | none => 0
  | .launch =>
    match s.ownLaunch with
    | some l => levelWord l.status (s.liveUnits l.serial)
    | none => 0
  | .graph =>
    match s.ownLaunch.bind (fun l => s.graphs.find l.gr) with
    | some g => levelWord g.status (g.nodes.countP Node.unfinished)
    | none => 0
  | .phase =>
    match s.ownLaunch.bind (fun l => s.graphs.find l.gr) with
    | some g => match s.jobs.find g.job with
      | some j => levelWord (s.phaseStatus g.job j g.phase)
          ((s.phaseGraphs g.job).countP (fun x => x.2.status.isNone))
      | none => 0
    | none => 0

def execCnct (g : Guard) (d a : Reg) (s : State) : Result :=
  control g [.g d, .g a] s (fun s =>
    match levelHandle (s.reg a) with
    | none => s.trap 7 (s.reg a)
    | some lv => (s.owe s.seat.core (.g d) (some (s.counter lv)) false).stepPc)

/-! ## Cancels (R20, R21, R200, R329) -/

/-- The running task ends at its next instruction (R200). -/
def State.killSelf (s : State) : State := s.modCtl s.seat.core (fun k => { k with killed := true })

/-- Is the job not completed, and its counter not at zero (R21)? -/
def State.jobOpen (s : State) (jk : Nat) (j : Job) : Bool :=
  j.status.isNone && !(s.phaseEnded jk && (j.fault || decide (j.phases.length ≤ j.phase + 1)))

/-- Is the phase the job's current one, and not completed? -/
def State.phaseOpen (s : State) (jk ph : Nat) (j : Job) : Bool :=
  j.status.isNone && j.phase == ph && !s.phaseEnded jk

/-- What a `cncl` names: the level code and identifier of its cancel, and whether the level encloses the issuing task
and has not completed. `none`: a job that is not live, or a level that encloses no task. -/
def State.cancelTarget (s : State) (lv : Level) : Option (Nat × Nat × Bool) :=
  let k := s.here
  let gr := s.ownLaunch.bind (fun l => (s.graphs.find l.gr).map (fun g => (l.gr, g)))
  match lv with
  | .unit => some (0, unitId s.seat.core k.ctl.chain, true)
  | .launch => s.ownLaunch.map (fun l => (1, l.serial, l.status.isNone))
  | .graph => gr.map (fun g => (2, g.1, g.2.status.isNone))
  | .phase => gr.bind (fun g => (s.jobs.find g.2.job).map (fun j =>
      (3, g.2.job * 256 + g.2.phase, s.phaseOpen g.2.job g.2.phase j)))
  | .job id => (s.liveJob k.part id).map (fun j =>
      (4, j.1, (gr.map (fun g => g.2.job == j.1)).getD false && s.jobOpen j.1 j.2))

/-- `cncl` (R200, R329): the cancel is sent; a task that the level encloses ends at its next instruction, unless the
level has completed. -/
def execCncl (g : Guard) (a : Reg) (s : State) : Result :=
  control g [.g a] s (fun s => s.settling (fun s =>
    match levelHandle (s.reg a) with
    | none => s.trap 7 (s.reg a)
    | some lv =>
      match s.cancelTarget lv with
      | none => s.stepPc
      | some (code, id, mine) => ((if mine then s.killSelf else s).askCancel code id).stepPc))

/-- Nothing waits for the supervisor any more: the waiter's request is gone (R231). -/
def State.unwait (s : State) (pick : Waiter → Bool) : State :=
  { s with waiters := s.waiters.filter (fun w => !pick w.2) }

/-- Drop the slot of a cancelled instance; a suspended one's work is discarded. -/
def State.dropSlot (s : State) (c n : Nat) (x : Slot) : State :=
  match x.st with
  | .running | .ended | .reserved => s
  | _ =>
    let s := match x.saved with
      | some w => s.discard c w.work false
      | none => s
    s.modCore c (fun k => let k := freeEntry s.cycle n k; { k with slots := k.slots.drop n })

/-- Drop a chain's loads, stalled `stg` commands, lookups and stalled atomics; deposits under way will be
discarded (R329). -/
def State.dropLoads (s : State) (c ch : Nat) : State :=
  let k := s.core c
  let ldgs := k.ldgs.filter (fun r => r.chain == ch)
  let stgs := k.stgs.filter (fun r => r.chain == ch && r.stalled)
  let nreqs := (s.part k.part).nreqs
  let isLook (r : NameReq) : Bool :=
    r.core == c && r.chain == ch && (match r.op with | .look _ => true | _ => false)
  let deps := (k.deposits.filter (fun d => d.chain == ch)).map (·.id)
  let gone (a : Atomic) : Bool :=
    a.stalled && a.core == c && (match a.deposit with | some d => deps.contains d | none => false)
  let lost := ((s.cluster (clusterOf c)).queue.filter gone).filterMap (·.deposit)
  let s := s.modCore c (fun k => { k with
    ldgs := k.ldgs.filter (fun r => r.chain != ch)
    stgs := k.stgs.filter (fun r => !(r.chain == ch && r.stalled))
    deposits := (k.deposits.filter (fun d => !lost.contains d.id)).map
      (fun d => if d.chain = ch then { d with dead := true } else d) })
  let s := s.modCluster (clusterOf c) (fun x => { x with queue := x.queue.filter (fun a => !gone a) })
  let s := s.modPart k.part (fun p => { p with nreqs := p.nreqs.filter (fun r => !isLook r) })
  let s := s.unwait (fun w => match w with
    | .ldg c' id => c' == c && ldgs.any (fun r => r.id == id)
    | .stg c' id => c' == c && stgs.any (fun r => r.id == id)
    | _ => false)
  s.modChain c ch (fun x => { x with
    ld := x.ld - (ldgs.length + (nreqs.filter isLook).length + lost.length), st := x.st - stgs.length })

/-- Drop a chain's matrix words and their firings; what they have written stays. -/
def State.dropMatrix (s : State) (c ch : Nat) : State :=
  let ids := (((s.core c).mx.words.filter (fun w => w.chain == ch)).map (·.id))
  let s := s.modMx c (fun m => { m with
    words := m.words.filter (fun w => w.chain != ch)
    todo := m.todo.filter (fun f => !ids.contains f.word)
    pass := m.pass.filter (fun f => !ids.contains f.word)
    obuf := if ids.contains m.oword then [] else m.obuf
    copy := if ids.contains m.oword then none else m.copy
    held := m.held && m.chain != ch })
  s.modChain c ch (fun x => { x with mt := 0 })

/-- Are a chain's task, commits, forks and counters all finished (R18, R21)? -/
def Core.unitOver (k : Core) (ch : Nat) : Bool :=
  let x := k.chain ch
  x.posted || (x.ended && x.ld == 0 && x.st == 0 && x.cp == 0 && x.mt == 0 && !x.forkM && !x.forkS
    && !k.commits.any (fun m => m.chain == ch) && !(k.ctl.slot.isSome && k.ctl.chain == ch))

/-- A unit is cancelled (R20, R70, R329): a running task ends at its next instruction; its other
instances, its uncommitted work, its forks and its counted operations are dropped. -/
def State.cancelUnit (s : State) (c ch : Nat) : State :=
  let k := s.core c
  if k.unitOver ch then s
  else
    let runs := k.ctl.slot.isSome && k.ctl.chain == ch
    let s := if runs then s.modCtl c (fun x => { x with killed := true }) else s
    let s := s.modCore c (fun k => { k with
      halted := k.halted.map (fun t => if t.chain = ch then { t with killed := true } else t)
      commits := k.commits.map (fun m => if m.chain = ch then { m with dead := true } else m) })
    let s := (k.slots.filter (fun x => x.2.chain == ch)).foldl (fun s x => s.dropSlot c x.1 x.2) s
    let s := s.modCore c (stopForks ch)
    let s := (List.range 32).foldl (fun s p => s.dropCmds c p (fun m => m.chain == ch)) s
    let s := (s.dropLoads c ch).dropMatrix c ch
    s.modChain c ch (fun x => { x with
      ended := x.ended || (!runs && (k.halted.map (fun t => t.chain != ch)).getD true)
      status := if x.status = .faulted then .faulted else .cancelled })

/-- A core of a cancelled launch: its lanes, queues, channels and ports hold nothing, and no channel word
starts a task (R20). -/
def clearCore (k : Core) : Core :=
  { k with
    tasks := [], queues := [], lanes := [], memreqs := [], dones := [], agedE := []
    vcs := k.vcs.map (fun x => (x.1, { x.2 with q := [] }))
    ports := k.ports.map (fun x => (x.1, { x.2 with buf := [], stalled := false })) }

/-- A launch is cancelled with every unit of it. -/
def State.cancelLaunch (s : State) (ln : Nat) : State :=
  match s.launches.find ln with
  | none => s
  | some l =>
    if l.status.isSome || (!l.cancel && !l.fault && s.launchDone l) then s
    else
      let s := s.modLaunch ln (fun l => { l with cancel := true })
      let units := s.cores.flatMap (fun x => (x.2.chains.filter (fun y => y.2.launch == ln && !y.2.posted)).map
        (fun y => (x.1, y.1)))
      let s := units.foldl (fun s u => s.cancelUnit u.1 u.2) s
      let cs := s.coresOf ln
      let s := cs.foldl (fun s c => s.modCore c clearCore) s
      let s := { s with circuits := s.circuits.filter (fun x => x.launch != ln) }
      let s := s.clusters.foldl (fun s x => s.modCluster x.1 (fun y => { y with
        queue := y.queue.filter (fun a => !(a.stalled && cs.contains a.core)) })) s
      s.unwait (fun w => match w with
        | .lane c _ | .port c _ => cs.contains c
        | _ => false)

/-- A graph is cancelled: its other nodes end, and its running launches are cancelled (R195). -/
def State.cancelGraph (s : State) (gr : Nat) : State :=
  match s.graphs.find gr with
  | none => s
  | some g =>
    if g.status.isSome then s
    else
      let s := s.modGraph gr (fun g => { g with
        cancel := g.cancel || !g.fault
        nodes := g.nodes.map (fun n =>
          if n.busy && n.kind != 1 then { n with st := .ended .cancelled, passed := true } else n) })
      let s := (s.launches.filter (fun l => l.2.gr == gr && l.2.status.isNone)).foldl
        (fun s l => s.cancelLaunch l.1) s
      s.settleGraph gr

/-- Every graph of a job's current phase is cancelled. -/
def State.cancelPhase (s : State) (jk : Nat) : State :=
  (s.phaseGraphs jk).foldl (fun s g => s.cancelGraph g.1) s

/-- A cancel of the only live job of a partition ends a pre-emption that has not begun to save (R242). -/
def State.endPreempt (s : State) (p : Nat) : State :=
  let others := s.jobs.any (fun j => j.2.part == p && j.2.status.isNone && !j.2.cancel)
  if others || !((s.part p).pre == .stopping || (s.part p).pre == .quiet) then s
  else
    let s := s.modPart p (fun x => { x with pre := .running })
    { s with
      subs := s.subs.map (fun u => if (s.core u.sub).part = p then u.resume else u)
      cores := s.cores.map (fun x =>
        if x.2.part = p ∧ x.2.preempt.isSome then (x.1, { x.2 with preempt := none, frozen := false }) else x) }

/-- A cancel takes effect at its level's owner. -/
def State.cancelLevel (s : State) (lvl id : Nat) : State :=
  match lvl with
  | 0 => s.cancelUnit (id / 2 ^ 32) (id % 2 ^ 32)
  | 1 => s.cancelLaunch id
  | 2 => s.cancelGraph id
  | 3 =>
    match s.jobs.find (id / 256) with
    | some j =>
      if s.phaseOpen (id / 256) (id % 256) j then
        (s.modJob (id / 256) (fun j => { j with pcancel := true })).cancelPhase (id / 256)
      else s
    | none => s
  | _ =>
    match s.jobs.find id with
    | some j =>
      if s.jobOpen id j then
        let hit := !s.phaseEnded id
        ((s.modJob id (fun j => { j with cancel := true, pcancel := j.pcancel || hit })).cancelPhase id).endPreempt
          j.part
      else s
    | none => s

/-- The partition that a cancel concerns. -/
def State.cancelPart (s : State) (lvl id : Nat) : Nat :=
  let ofJob (k : Nat) : Nat := ((s.jobs.find k).map (·.part)).getD 32
  match lvl with
  | 0 => (s.core (id / 2 ^ 32)).part
  | 1 => ((s.launches.find id).map (·.part)).getD 32
  | 2 => ((s.graphs.find id).map (fun g => ofJob g.job)).getD 32
  | 3 => ofJob (id / 256)
  | _ => ofJob id

/-- CANCEL_ARRIVAL (R20, R21, R231, R329): a cancel under way reaches the owner; a level that has
completed, or whose counter has reached zero, is not affected. A partition that is being saved or is
saved takes its cancels when it has resumed. -/
def execCancelArrival (idx : Nat) (s : State) : Result :=
  match s.cancels[idx]? with
  | none => .next s
  | some (lvl, id) =>
    let p := (s.part (s.cancelPart lvl id)).pre
    if p == .saving || p == .saved then .next s
    else .next (State.cancelLevel { s with cancels := dropAt s.cancels idx } lvl id).refresh

/-! ## Posted commands (R200, R407, R408) -/

/-- The tail that a `qpost` goes to: a notify of the same tick comes after it (R204). -/
def Queue.postTail (x : Queue) (dial : Nat) : W32 :=
  match x.noted with
  | some (t, old) => if t = dial then old else x.tail
  | none => x.tail

/-- The tail goes on by one, unless a notify of the same tick sets it afterwards (R204). -/
def Queue.advance (x : Queue) (dial : Nat) : Queue :=
  match x.noted with
  | some (t, old) => if t = dial then { x with noted := some (t, old + 1) } else { x with tail := x.tail + 1 }
  | none => { x with tail := x.tail + 1 }

/-- The Regulator takes a posted command: its status, and the command in the ring with its sequence word. -/
def State.post (s : State) (p q : Nat) (b : List Byte) (bad : Bool) : State × Word :=
  let x := Tbl.get {} s.queues q
  let tail := x.postTail s.dial
  if !x.en || x.part.toNat != p then (s, 2)
  else if x.capacity ≤ (tail - x.head).toNat then (s, 1)
  else
    let (s, c) := s.parseCommand p b bad
    if !c.ok then (s, 3)
    else
      let bytes := leBytes (x.seq + (tail - x.head)).toNat 4 ++ b.drop 4
      let a := x.slotAt tail
      let put (s : State) : State := State.refresh { s with queues := s.queues.put q (x.advance s.dial) }
      if x.loc then
        match s.regWrite p a bytes false with
        | some s => (put s, 0)
        | none => (s, 2)
      else (put { s with mem := s.mem.writes (hostKey a) bytes }, 0)

def execQpost (g : Guard) (d a b : Reg) (s : State) : Result :=
  control g [.g d, .g a, .g b] s (fun s => s.settling (fun s =>
    let ga := s.reg a
    let gb := s.reg b
    if ga.extractLsb' 60 4 ≠ 1 ∨ 0x80000 < localOff ga + 64 then s.trap 4 ga
    else if ga.toNat % 64 ≠ 0 then s.trap 5 ga
    else if gb.extractLsb' 10 54 ≠ 0 then s.trap 7 gb
    else
      let c := s.seat.core
      let off := localOff ga
      let (s, v) := s.post s.here.part gb.toNat (s.spBytes c off 64) (s.isBad (lineKey c (off / 128)))
      (s.owe c (.g d) (some v) true).stepPc))

end Sys2Proof.Machine
end

