-- ==== Sys2Proof/Machine/Subs.lean ====
section
/-!
DEFINITION. Subscriptions (R134-R137, R428-R431) and reduction packets (R12).
-/

namespace Sys2Proof.Machine

/-- The entry indices of a core's table in use: an entry at each end of a subscription, until the
removal mark has passed that end (R134, R430). -/
def State.entries (s : State) (c : Nat) : List Nat :=
  s.subs.flatMap (fun u => (if u.sub = c then [u.subIdx] else []) ++ (if u.pub = c ∧ !u.closed then [u.pubIdx] else []))

def State.freeEntryAt (s : State) (c : Nat) : Option Nat :=
  (List.range 16).find? (fun i => !(s.entries c).contains i)

/-- Does a local region overlap one that the core subscribes already? -/
def State.overlaps (s : State) (c line n : Nat) : Bool :=
  s.subs.any (fun u => u.sub == c && u.subLine < line + n && line < u.subLine + u.lines)

/-- Change the subscriptions that a test picks. -/
def State.modSubs (s : State) (p : Sub → Bool) (f : Sub → Sub) : State :=
  { s with subs := s.subs.map (fun u => if p u then f u else u) }

def execSubs (g : Guard) (d a b : Reg) (s : State) : Result :=
  control g [.g d, .g a, .g b] s (fun s => s.settling (fun s =>
    let c := s.seat.core
    let ga := s.reg a
    if ga.extractLsb' 60 4 ≠ 2 then s.trap 4 ga
    else match placeOf c ga 1 with
      | .scratch t off =>
        if ga.toNat % 128 ≠ 0 then s.trap 5 ga
        else match subsRegion (s.reg b) with
          | none => s.trap 7 (s.reg b)
          | some (line, n, fill) =>
            match s.freeEntryAt c, s.freeEntryAt t with
            | some i, some j =>
              if t = c ∨ s.overlaps c line n ∨ 4096 < line + n ∨ 4096 < off / 128 + n then
                s.result d (BitVec.allOnes 64)
              else
                let u : Sub :=
                  { id := s.fresh, pub := t, pubLine := off / 128, pubIdx := j, sub := c, subLine := line
                    subIdx := i, lines := n, fill := fill, launch := (s.here.chain s.here.ctl.chain).launch
                    seq := s.opSeq }
                let s := { s with subs := s.subs ++ [u] }.next.bump
                (s.owe c (.g d) (some (BitVec.ofNat 64 i)) false).stepPc
            | _, _ => s.result d (BitVec.allOnes 64)
      | _ => s.trap 4 ga))

/-- Close every open window (R135, R431). -/
def closeAll (l : List Update) : List Update :=
  l.map (fun u => match u with
    | .line k b bad w o _ n => .line k b bad w o true n
    | u => u)

/-- The removal reaches the publisher: its windows close, their updates go ahead, the mark follows and
nothing more is forwarded (R135 step 5, R430). -/
def Sub.remove (u : Sub) : Sub := { u with fifo := closeAll u.fifo ++ [.mark], closed := true, leaving := true }

def execUnsubs (g : Guard) (a : Reg) (s : State) : Result :=
  control g [.g a] s (fun s => s.settling (fun s =>
    let c := s.seat.core
    let gi := s.reg a
    if gi.extractLsb' 4 60 ≠ 0 then s.trap 7 gi
    else
      let i := gi.toNat
      let s := s.modSubs (fun u => !u.closed && u.sub == c && u.subIdx == i) (fun u => { u with leaving := true })
      (s.modSubs (fun u => !u.closed && u.pub == c && u.pubIdx == i) Sub.remove).stepPc))

def execSflush (g : Guard) (s : State) : Result :=
  control g [] s (fun s => s.settling (fun s =>
    (s.modSubs (fun u => u.pub == s.seat.core) (fun u => { u with fifo := closeAll u.fifo })).stepPc))

/-! ## The subscription's course (R135, R137) -/

/-- The publisher's copy of the region: committed contents and poison. -/
def State.regionCopy (s : State) (u : Sub) : Update :=
  .snapshot (s.spBytes u.pub (u.pubLine * 128) (u.lines * 128))
    ((List.range u.lines).map (fun i => s.isBad (lineKey u.pub (u.pubLine + i)))) s.opSeq

/-- SNAPSHOT_REQUEST (R135 step 1): the publisher copies the region at the moment the request arrives. A fence of the
subscriber may hold the request back (R180). -/
def execSnapshotRequest (c idx : Nat) (s : State) : Result :=
  .next (s.modSubs (fun u => u.pub == c && u.pubIdx == idx && u.ask && !u.closed && !s.fenced u.sub 5 u.seq) (fun u =>
    { u with ask := false, fifo := u.fifo ++ [s.regionCopy u] }))

/-- The subscription at an entry of its subscriber. -/
def State.subAt (s : State) (c idx : Nat) : Option Sub := s.subs.find? (fun u => u.sub == c && u.subIdx == idx)

/-- Does the subscriber take updates in its scratchpad (R137, R244)? -/
def State.takesUpdates (s : State) (c : Nat) : Bool :=
  let k := s.core c
  let p := (s.part k.part).pre
  k.halted.isNone && (p == .running || p == .stopping)

/-- The update that the subscriber applies next: its backlog goes ahead of its FIFO (R137). -/
def Sub.head (u : Sub) : Option Update := (u.backlog ++ u.fifo).head?

/-- It has been applied; once the backlog is empty and the entry live, the subscriber's tasks go on (R137). -/
def Sub.applied (u : Sub) : Sub :=
  let u := match u.backlog with
    | _ :: r => { u with backlog := r }
    | [] => { u with fifo := u.fifo.drop 1 }
  { u with resync := u.resync && !(u.state == 2 && u.backlog.isEmpty) }

/-- May an update with that operation number be applied to the lines now: no fence of the publisher holds it (R180),
and no atomic at the subscriber's port holds a word of them (R139)? -/
def State.updateFree (s : State) (u : Sub) (first n seq : Nat) : Bool :=
  s.takesUpdates u.sub && !s.fenced u.pub 5 seq && !(s.core u.sub).wordHeld (first * 128) (n * 128)

/-- An update's line is full, where the entry says so (R135). -/
def State.fillEntry (s : State) (u : Sub) (k : Nat) : State :=
  if u.fill then s.fillLine (lineKey u.sub (u.subLine + k)) else s

/-- Write a snapshot's lines. -/
def State.applySnapshot (s : State) (u : Sub) (data : List Byte) (bad : List Bool) : State :=
  (enum (chunks 128 u.lines data)).foldl (fun s x =>
    (s.lineStore u.sub (u.subLine + x.1) (indexBytes 0 x.2) (bad[x.1]?.getD false) false).fillEntry u x.1) s

/-- SNAPSHOT_APPLY (R135 step 1, R137): the entry becomes live. The snapshot stands for the updates that the entry
lost while it was stale (R136). -/
def execSnapshotApply (c idx : Nat) (s : State) : Result :=
  match s.subAt c idx with
  | none => .next s
  | some u =>
    match u.head with
    | some (.snapshot data bad seq) =>
      if !s.updateFree u u.subLine u.lines seq then .next s
      else .next (((s.applySnapshot u data bad).modSubs (fun v => v.id == u.id)
        (fun v => Sub.applied { v with state := 2, lost := 0 })).settle u.id (u.lost + 1))
    | _ => .next s

/-- Close the windows that have run their 64 cycles. -/
def closeDue (cyc : Nat) (l : List Update) : List Update :=
  l.map (fun u => match u with
    | .line k b bad w o false n => .line k b bad w o (o + 64 ≤ cyc) n
    | u => u)

/-- COALESCE_WINDOW_CLOSE (R135 step 4). -/
def execCoalesceWindowClose (c idx : Nat) (s : State) : Result :=
  .next (s.modSubs (fun u => u.pub == c && u.pubIdx == idx && !u.closed)
    (fun u => { u with fifo := closeDue s.cycle u.fifo }))

/-- SUBSCRIPTION_UPDATE_APPLY (R135 step 2): the update at the head, once its window has closed. -/
def execSubscriptionUpdateApply (c idx : Nat) (s : State) : Result :=
  match s.subAt c idx with
  | none => .next s
  | some u =>
    match u.head with
    | some (.line k bytes bad _ _ true seq) =>
      if !s.updateFree u (u.subLine + k) 1 seq then .next s
      else .next ((((s.lineStore c (u.subLine + k) bytes bad false).fillEntry u k).modSubs (fun v => v.id == u.id)
        Sub.applied).settle u.id 1)
    | _ => .next s

/-- Bytes that updates take in a backlog. -/
def backlogSize (l : List Update) : Nat :=
  l.foldl (fun n u => match u with
    | .snapshot d _ _ => n + d.length
    | .line _ _ _ _ _ _ _ => n + 128
    | .mark => n) 0

/-- A subscription whose subscriber takes no update puts one into its backlog; a stale entry, and one that this makes
stale, has lost it (R137). -/
def Sub.keep (u : Sub) (x : Update) : Sub :=
  if u.state = 3 then { u with lost := u.lost + 1 }
  else if 65536 < backlogSize (u.backlog ++ [x]) then
    { u with lost := u.lost + u.backlog.length + 1, backlog := [], state := 3 }
  else { u with backlog := u.backlog ++ [x] }

/-- BACKLOG_WRITE (R137, R244): an update for a pre-empted or halted subscriber goes to the backlog; one
that passes 64 KiB makes the entry stale and discards the backlog. -/
def execBacklogWrite (c idx : Nat) (s : State) : Result :=
  match s.subAt c idx with
  | none => .next s
  | some u =>
    let k := s.core c
    match u.fifo with
    | .line _ _ _ _ _ false _ :: _ => .next s
    | .mark :: _ => .next s
    | x :: _ =>
      if k.halted.isNone && (s.part k.part).pre == .running then .next s
      else .next (s.modSubs (fun v => v.id == u.id) (fun v => { v with fifo := v.fifo.drop 1 }.keep x))
    | [] => .next s

/-- UNSUBS_ARRIVAL (R135 step 5, R430). -/
def execUnsubsArrival (c idx : Nat) (s : State) : Result :=
  .next (s.modSubs (fun u => u.pub == c && u.pubIdx == idx && u.leaving && !u.ask && !u.closed) Sub.remove)

/-- REMOVAL_MARK_PASS (R430): the mark passes the subscriber, whose entry is free; nothing waits for it any more
(R136, R180). -/
def execRemovalMarkPass (c idx : Nat) (s : State) : Result :=
  match s.subAt c idx with
  | none => .next s
  | some u =>
    match u.fifo, u.backlog with
    | .mark :: _, [] => .next (s.dropSubs (fun v => v.id == u.id))
    | _, _ => .next s

/-! ## Reductions (R12, R233) -/

/-- The sum of two merged packets: FP32 sums are rounded once. -/
def mergeSum (k : RedKind) (a b : Int) : Int :=
  match k with
  | .fp32 => ((addF a.toNat b.toNat).1 : Nat)
  | _ => a + b

/-- REDUCTION_MERGE (R12): two packets to one address in one router queue merge, FP32 ones only in a
partition whose launch took det = 0. -/
def execReductionMerge (i1 i2 : Nat) (s : State) : Result :=
  match s.reds[i1]?, s.reds[i2]? with
  | some a, some b =>
    if i1 = i2 ∨ a.router ≠ b.router ∨ a.addr ≠ b.addr ∨ a.kind ≠ b.kind
        ∨ (a.kind = .fp32 ∧ (a.det ∨ b.det)) then .next s
    else
      let m := { a with value := mergeSum a.kind a.value b.value, bad := a.bad || b.bad }
      .next { s with reds := dropAt (s.reds.set i1 m) i2 }
  | _, _ => .next s

end Sys2Proof.Machine
end

