-- ==== Sys2Proof/Machine/Launch.lean ====
section
/-!
DEFINITION. Launches: arming with the checks of R57 and R93, the start of a launch (R195, R197, R198, R304,
R308, R311), its completion (R18, R308), launch records and checkpoints (R259, R260).
-/

namespace Sys2Proof.Machine

/-! ## The checks at arming (R57, R93) -/

/-- Fields of a task-table entry (R56). -/
def taskEntry (v : BitVec 128) : TaskEntry :=
  { sbase := v.extractLsb' 64 64, sinc := v.extractLsb' 32 32, entry := v.extractLsb' 16 14
    prio := v.extractLsb' 13 3, vc := v.extractLsb' 8 5, ord := v.getLsbD 1, valid := v.getLsbD 0 }

def taskReserved (v : BitVec 128) : Bool := v.extractLsb' 30 2 == 0 && v.extractLsb' 2 6 == 0

/-- The first entry of a task table that R57 refuses, entries in ascending index. -/
def taskFault (t : List (Nat × BitVec 128)) : Option Nat :=
  let bad (x : Nat × BitVec 128) : Bool :=
    let e := taskEntry x.2
    !taskReserved x.2 || (e.valid && t.any (fun y => decide (y.1 < x.1) && (taskEntry y.2).valid && (taskEntry y.2).vc == e.vc))
  leastBy (fun (a b : Nat) => a < b) ((t.filter bad).map (·.1))

/-- The operation and arguments of a lane word; `none` for the idle word and for a word that fails. -/
def laneOf (w : W32) : Option (LaneOp × LaneArgs) :=
  if w = idleLaneWord then none else (LaneOp.ofEop (w.extractLsb' 24 8)).map (fun o => (o, laneArgs w))

/-- Does a lane read its queue q (R78, R80)? -/
def laneReads (w : W32) (q : Nat) : Bool :=
  match laneOf w with
  | none => false
  | some (o, a) => a.qa.toNat == q || (o.hasB && !a.bimm && a.qb.toNat == q) || (o.readsC && q == 3)

def laneIs (w : W32) (f : LaneOp → Bool) : Bool := ((laneOf w).map (fun x => f x.1)).getD false

/-- The check of R93 from 1 to 5 that a lane word fails. -/
def laneFault (w : W32) : Nat :=
  match decodeLane w with
  | .ok _ => 0
  | .error (.laneCheck n) => n
  | .error _ => 1

/-- Does a lane or switch word of a region fail check n of R93, at an index? A failure that concerns two lane words or
two switch words stands at the higher index. -/
def checkAt (r : Region) (n i : Nat) : Bool :=
  let lane (k : Nat) : W32 := Tbl.get idleLaneWord r.lops k
  let fork_ (k : Nat) : Bool := laneIs (lane k) (fun o => o == .esteer || o == .eexit)
  let memory (k : Nat) : Bool := laneIs (lane k) (fun o => o == .eld || o == .est || o == .ermw)
  match n, r.sw[i]? with
  | 6, _ => (i == 15 && fork_ 15) || (0 < i && i < 16 && fork_ (i - 1) && lane i != idleLaneWord)
  | 7, some w => w == 0 || w == 0xFFFF || w.extractLsb' 0 3 != 0 || (swSink w && w.extractLsb' 8 2 != 0)
  | 8, some w =>
    (r.sw.take i).any (fun x => x.extractLsb' 4 7 == w.extractLsb' 4 7)
      || (!swSink w && !laneReads (lane (swDest w / 4)) (swDest w % 4))
  | 9, some w => swSource w < 16 && lane (swSource w) == idleLaneWord
      && !(swSource w != 0 && fork_ (swSource w - 1))
  | 10, _ =>
    let mask (k : Nat) : BitVec 16 := Tbl.get 0 r.masks k
    let names (k j : Nat) : Bool := (mask k).getLsbD j && !memory j
    i < 16 && ((mask i != 0 && !memory i)
      || (List.range (i + 1)).any (fun j => names i j || names j i))
  | k, _ => k < 6 && i < 16 && laneFault (lane i) == k

/-- The lowest check that a region fails, and the lowest index that fails it (R93). -/
def regionFault (r : Region) : Option (Nat × Nat) :=
  (List.range 10).findSome? (fun k =>
    ((List.range 80).find? (fun i => checkAt r (k + 1) i)).map (fun i => (k + 1, i)))

/-! ## Arming (R49, R77, R93, R308) -/

/-- The region of a launch's nodes on one core (R77). -/
def regionOf (ns : List GNode) : Region :=
  let lanes := ns.filter (fun n => n.kind == 1)
  { lops := lanes.foldl (fun t n => t.put n.lane n.word) []
    sw := ns.flatMap (·.sw)
    masks := lanes.foldl (fun t n => Tbl.set 0 t n.lane n.dwait) []
    bases := lanes.foldl (fun t n => Tbl.set 0 t n.lane n.base) [] }

/-- The 32-bit words of some bytes. -/
def words32 (b : List Byte) : List W32 := (chunks 4 b.length b).map (fun x => BitVec.ofNat 32 (leNat x))

/-- Write a section into its core: instruction words, or local bytes with the full/empty state of their
lines; every other line of the core is full already (R49, R120, R308). -/
def State.writeSection (s : State) (c : Nat) (x : Section) : State :=
  if x.space = 0 then
    let ws := enum (words32 x.data)
    s.modCore c (fun k => { k with
      store := ws.foldl (fun t w => Tbl.set 0 t (x.org + w.1) w.2) k.store
      badWords := k.badWords.filter (fun a => !(x.org ≤ a && a < x.org + ws.length)) })
  else if x.space = 1 then
    let s := s.spStore c x.org x.data false false
    let lines := (List.range ((x.data.length + 127) / 128)).map (x.org / 128 + ·)
    lines.foldl (fun s l => if x.fill then s.setEmpty (lineKey c l) else s.setFull (lineKey c l)) s
  else s

/-- Ports and channels with `rowtags` of the nodes on a core, at arming (R212). -/
def tagPorts (ns : List GNode) : Tbl Port :=
  ns.foldl (fun t n =>
    if n.kind = 3 then
      n.ports.foldl (fun t p => match p.rowtag with
        | some e => if p.out then t.put p.num { tag := some { expert := e } } else t
        | none => t) t
    else t) []

def tagVcs (ns : List GNode) : Tbl RowTag :=
  ns.foldl (fun t n =>
    if n.kind = 2 then
      n.ports.foldl (fun t p => match p.rowtag with
        | some e => if p.out then t else t.put p.num { expert := e }
        | none => t) t
    else t) []

/-- Arm a core for a launch: region and task table as a whole, every lane, channel, port and forked sequencer fresh,
`lstat` and `mflag` cleared (R48, R69, R93, R110, R112, R332). -/
def armed (ln : Nat) (ns : List GNode) (k : Core) : Core :=
  { k with
    launch := ln, armed := true, rowArmed := true
    tasks := (ns.flatMap (·.tasks)).foldl (fun t x => t.put x.1 (taskEntry x.2)) []
    region := regionOf ns, queues := [], lanes := [], dones := [], memreqs := []
    ports := tagPorts ns, vctags := tagVcs ns
    vcs := k.vcs.map (fun x => (x.1, { x.2 with q := [], arrived := 0 }))
    agedE := [], freed := [], badTasks := [], badCfg := false, lstat := 0, raised := 0
    mx := { k.mx with flags := 0, active := false, halt := false, held := false, coopW := none, coopLog := [],
                      coopIn := [], coopN := 0 }
    ss := { k.ss with active := false, halt := false } }

/-- Every line of a core becomes full (R120). -/
def State.fillCore (s : State) (c : Nat) : State :=
  (s.empty.filter (fun x => x.1 / 4096 == c)).foldl (fun s x => s.setFull x.1) s

/-- Arm the nodes of a launch that lie on a core; `false` when the core refuses (R57, R93). -/
def State.armCore (s : State) (l : Launch) (o : Object) (c : Nat) (ns : List (Nat × GNode)) : State × Bool :=
  let gs := ns.map (·.2)
  let refuse (o : Nat) (v : Nat) : State × Bool :=
    (s.report l.part (srcOf c o) 14 o 0 (BitVec.ofNat 64 v) 0 l.serial, false)
  match taskFault (gs.flatMap (·.tasks)) with
  | some i => refuse 0 i
  | none =>
    match regionFault (regionOf gs) with
    | some (k, i) => refuse 3 (k * 256 + i)
    | none =>
      let s := (s.modCore c (armed l.serial gs)).fillCore c
      let secs := o.sects.filter (fun x => x.graph == l.graph && ns.any (fun n => n.1 == x.node))
      (secs.foldl (fun s x => s.writeSection c x) s, true)

/-! ## Circuits and start nodes (R304, R311) -/

/-- The die-link port that leads from one die to another, numbered after the 18 links: the spec gives each die three
ports, one to each other die, and not which is which; the model takes the other dies in ascending order (R7, R22,
notes/assumptions/23.md). -/
def diePort (a b : Nat) : Nat := 18 + 3 * a + (if b < a then b else b - 1)

/-- Ring stages between two positions of a cluster's rings: the shorter way round (R9). -/
def ringStages (a b : Nat) : Nat :=
  let d := (b + 96 - a) % 96
  min d (96 - d)

/-- The switches of a die's folded Clos network on a path up and down its three stages (R11). -/
def closSwitches : Nat := 5

/-- The latch stages of a circuit between two cores, and the hop that crosses a die link (R92): ring stages inside one
cluster; else the ring stages to the gateway, the switches of each die, and the ring stages of the other cluster
(notes/assumptions/23.md). -/
def circuitPath (a b : Nat) : Nat × Option Nat :=
  if clusterOf a = clusterOf b then (max 1 (ringStages (a % 96) (b % 96)), none)
  else
    let up := ringStages (a % 96) 0 + closSwitches
    let down := ringStages 0 (b % 96)
    if dieOf a = dieOf b then (up + down, none) else (up + closSwitches + down, some up)

/-- Arm a circuit edge: to a source port (R311), or to a task's virtual channel (R92, notes/assumptions/86.md). -/
def State.armCircuit (s : State) (l : Launch) (g : GGraph) (e : GEdge) : State :=
  match (g.nodes[e.src]?).bind (s.nodeCore l), (g.nodes[e.dst]?).bind (s.nodeCore l) with
  | some a, some b =>
    let vc := g.kind e.dst == 2
    let p := circuitPath a b
    let x : Circuit :=
      { launch := l.serial, node := e.src, core := a, sink := e.sport, core2 := b, src := e.dport, toVc := vc
        stages := List.replicate p.1 [], back := List.replicate p.1 []
        links := (p.2.map (fun h => (h, diePort (dieOf a) (dieOf b)))).toList }
    let s := { s with circuits := s.circuits ++ [x] }
    let s := s.modPort a (16 + e.sport) (fun p => { p with circuit := true })
    if vc then s else s.modPort b e.dport (fun p => { p with circuit := true })
  | _, _ => s

/-- Write the start token of a start node into its task's channel: the token is the node's whole object (R304). -/
def State.startToken (s : State) (l : Launch) (g : GGraph) (n : Nat) : State :=
  match g.edges.find? (fun e => e.src == n) with
  | some e => match (g.nodes[e.dst]?).bind (s.nodeCore l) with
    | some c => (s.vcPut c e.sport {}).modLaunch l.serial (fun l =>
        { l with objs := addToken 0 false n e.sport {} l.objs })
    | none => s
  | none => s

/-! ## The start of a launch (R195, R197, R198) -/

/-- The iteration numbers of the loops that enclose a node, outermost first (R196). -/
def loopIters (nodes : List Node) : Nat → Nat → List Nat
  | 0, _ => []
  | f + 1, n =>
    match nodes[n]? with
    | none => []
    | some x =>
      if x.encl = 0 then []
      else loopIters nodes f (x.encl - 1) ++ [((nodes[x.encl - 1]?).map (·.iter)).getD 0]

/-- Arm a new launch on all its cores; a refusal faults it. -/
def State.arm (s : State) (l : Launch) (o : Object) (g : GGraph) : State :=
  let at_ := (enum g.nodes).filterMap (fun x => (s.nodeCore l x.2).map (fun c => (c, x)))
  let cs := (at_.map (·.1)).eraseDups
  let r := cs.foldl (fun (a : State × Bool) c =>
    let (s, ok) := a.1.armCore l o c ((at_.filter (fun y => y.1 == c)).map (·.2))
    (s, a.2 && ok)) (s, true)
  if r.2 then
    let s := (g.edges.filter g.circuitEdge).foldl (fun s e => s.armCircuit l g e) r.1
    ((List.range g.nodes.length).filter g.isStart).foldl (fun s n => s.startToken l g n) s
  else (r.1.modLaunch l.serial (fun l => { l with fault := true })).cancelLaunch l.serial

/-- LAUNCH_NODE_DISPATCH (R195): a base outside the map faults the node; otherwise the launch takes the
next serial and the partition's deterministic mode, and is armed. -/
def execLaunchNodeDispatch (gr node : Nat) (s : State) : Result :=
  s.dispatch 1 gr node (fun g j x s =>
    match s.launchCores g j.part x, s.object g.obj with
    | some _, some o =>
      match o.graphs[x.arg0.toNat]? with
      | none => s.endNode gr node .faulted
      | some gg =>
        let l : Launch :=
          { serial := s.serial, job := g.job, gr := gr, node := node, part := j.part, obj := g.obj
            graph := x.arg0.toNat, base := x.arg1.toNat, det := (s.part j.part).det, dial0 := s.dial
            liter := loopIters g.nodes 5 node }
        let s := { s with serial := s.serial + 1, launches := s.launches.put s.serial l }
        (s.modNode gr node (fun y => { y with st := .running })).arm l o gg
    | _, _ => s.faultNode gr node 14 (BitVec.ofNat 64 node))

/-! ## Records (R259, R260) -/

/-- Bytes cut or padded with zeros to a length. -/
def fit (n : Nat) (b : List Byte) : List Byte := (b ++ List.replicate n 0).take n

/-- Append bytes to a partition's record ring; the ring wraps at its end. -/
def State.toRing (s : State) (p : Nat) (b : List Byte) : State :=
  let x := s.part p
  if x.ringSize = 0 then s
  else
    let s := s.physWrite ((List.range b.length).map (fun i => x.ring + (x.ringPos + i) % x.ringSize)) b false
    s.modPart p (fun y => { y with ringPos := (y.ringPos + b.length) % y.ringSize })

/-- The part's private identity key: the number that its secret gives, from 1 to the curve's order less 1 (R256). -/
def identityKey : Nat := 1 + Config.identitySecret % (p256N - 1)

/-- An ECDSA P-256 signature under the identity key over the SHA-256 of some bytes; the secret and the nonces are free
values (R258, R260). -/
def State.sign (s : State) (b : List Byte) : State × List Byte :=
  ({ s with free := s.free + 1 },
    ecdsaSign identityKey (sha256 b) ((List.range 4).map (fun i => 1 + Config.signNonce s.free i % (p256N - 1))))

/-- The checkpoint of a partition's last record (R260). -/
def State.checkpoint (s : State) (p : Nat) : State :=
  let x := s.part p
  let head := leBytes x.lastSer 8 ++ fit 32 x.prev ++ leBytes s.dial 8
  let (s, sig) := s.sign head
  s.toRing p (head ++ sig ++ List.replicate 16 0)

/-- RECORD_CHECKPOINT (R260): at the supervisor's request. -/
def execRecordCheckpoint (p : Nat) (s : State) : Result := .next (s.checkpoint p)

/-- The names of a launch's source objects, in binding order (R259, R284). -/
def State.sourceNames (s : State) (l : Launch) : List (BitVec 128) :=
  match s.object l.obj, s.jobs.find l.job with
  | some o, some j => ((o.names.zip j.names).filter (fun x => x.1.1 == l.graph)).map (·.2)
  | _, _ => []

/-- The names of its sink objects, in sink order; a void one is named with zeros. -/
def State.sinkNames (s : State) (l : Launch) : List (BitVec 128) :=
  match s.graphOf l with
  | none => []
  | some g => g.sinks.flatMap (fun n =>
      (g.into n).flatMap (fun e => (objsOf l.objs e.src e.sport).map (fun o => nameBits o.name)))

/-- Append the record of a completed launch; every 256th is followed by a checkpoint. -/
def State.record (s : State) (l : Launch) (st : Status) : State :=
  let x := s.part l.part
  let ins := s.sourceNames l
  let outs := s.sinkNames l
  let jid := ((s.jobs.find l.job).map (·.id)).getD 0
  let code := match st with | .done => 0 | .cancelled => 1 | .faulted => 2
  let b := fit 32 x.prev ++ fit 32 s.meas ++ leBytes l.serial 8 ++ leBytes l.dial0 8 ++ leBytes l.dial1 8
    ++ leBytes jid 4 ++ leBytes l.part 1 ++ leBytes code 1 ++ leBytes ins.length 2 ++ leBytes outs.length 2
    ++ List.replicate 30 0 ++ (ins ++ outs).flatMap bytes128
  let s := (s.toRing l.part b).modPart l.part (fun y => { y with
    prev := sha256 b, nrec := y.nrec + 1, lastSer := l.serial })
  if (x.nrec + 1) % 256 = 0 then s.checkpoint l.part else s

/-! ## The end of a launch (R18, R19, R308) -/

/-- May the launch complete now? -/
def State.launchOver (s : State) (l : Launch) : Bool :=
  l.status.isNone && (if l.cancel then s.liveUnits l.serial == 0 else s.launchDone l)

/-- Do subscriptions that the launch's tasks created still stand (R308)? -/
def State.subsStand (s : State) (l : Launch) : Bool := s.subs.any (fun u => u.launch == l.serial)

/-- The source number of the ring gateway of a launch's home cluster (R22, R198). -/
def State.homeSrc (s : State) (l : Launch) : Nat :=
  let cl := ((s.part l.part).clusters[l.base]?).getD 0
  cl / 8 * 8192 + cl % 8 * 512 + 385

/-- A core after its launch: nothing of it is armed. -/
def disarmed (ln : Nat) (k : Core) : Core :=
  { k with armed := false, rowArmed := false, launch := 0, tasks := [], region := {},
           chains := k.chains.filter (fun x => x.2.launch != ln) }

/-- The launch completes: its subscriptions and circuits are gone, its cores disarmed, its status and Dial value
noted (R18, R19, R308). -/
def State.closeLaunch (s : State) (l : Launch) : State :=
  let st : Status := if l.fault then .faulted else if l.cancel then .cancelled else .done
  let s := s.dropSubs (fun u => u.launch == l.serial)
  let s := { s with circuits := s.circuits.filter (fun x => x.launch != l.serial) }
  let s := (s.coresOf l.serial).foldl (fun s c => s.modCore c (disarmed l.serial)) s
  s.modLaunch l.serial (fun l => { l with status := some st, dial1 := s.dial })

/-- Does a completed launch's record go ahead of another's of the partition: an earlier Dial value, or the same and the
lower home source (R259)? -/
def State.recordsFirst (s : State) (y l : Launch) : Bool :=
  y.part == l.part && y.status.isSome && !y.noted
    && decide (y.dial1 < l.dial1 ∨ y.dial1 = l.dial1 ∧ s.homeSrc y < s.homeSrc l)

/-- LAUNCH_COMPLETION (R18, R19, R259, R308): the subscriptions that still stand are removed, their updates
applied ahead of the removal mark unless a cancel drops them; then the launch completes. Once its Dial value is past,
so that no other launch of the partition can complete at it, its record is written in the order of R259, and the
launch's node completes. -/
def execLaunchCompletion (launch : Nat) (s : State) : Result :=
  match s.launches.find launch with
  | none => .next s
  | some l =>
    match l.status with
    | none =>
      if !s.launchOver l then .next s
      else if !l.cancel && s.subsStand l then
        .next (s.modSubs (fun u => u.launch == launch && !u.closed) Sub.remove)
      else .next (s.closeLaunch l).refresh
    | some st =>
      if l.noted || s.dial ≤ l.dial1 || s.launches.any (fun x => s.recordsFirst x.2 l) then .next s
      else .next ((((s.record l st).modLaunch launch (fun l => { l with noted := true })).endNode l.gr l.node
        st).refresh)

end Sys2Proof.Machine
end

