-- ==== Sys2Proof/Machine/Preempt.lean ====
section
/-!
DEFINITION. Pre-emption and resume of a partition (R201, R237-R242), and the debug halt that the supervisor
requests (R243). A saved cluster's state stands under core numbers of its own, which no core of the
package has (notes/assumptions/16.md).
-/

namespace Sys2Proof.Machine

/-! ## Renumbering cores -/

/-- A table with its keys renumbered. -/
def renTbl {α : Type} (f : Nat → Nat) (t : Tbl α) : Tbl α := t.foldl (fun t x => t.put (f x.1) x.2) []

def renLine (f : Nat → Nat) (l : Nat) : Nat := lineKey (f (l / 4096)) (l % 4096)
def renByte (f : Nat → Nat) (a : Nat) : Nat := f (a / 2 ^ 19) * 2 ^ 19 + a % 2 ^ 19

def renOut (f : Nat → Nat) (o : Out) : Out :=
  match o with
  | .sendVc c v t => .sendVc (f c) v t
  | o => o

def renWork (f : Nat → Nat) (w : Work) : Work :=
  { w with wbuf := renTbl (renByte f) w.wbuf, outs := w.outs.map (renOut f), reads := w.reads.map (renLine f) }

/-- A task register names the core it runs on (R55). -/
def taskOn (c : Nat) (t : Word) : Word :=
  (t &&& ~~~(0xFFFF00000000 : Word)) ||| BitVec.ofNat 64 (srcOf c 0 * 2 ^ 32)

def renCtl (f : Nat → Nat) (c : Nat) (k : Ctl) : Ctl :=
  { k with work := renWork f k.work, task := if c < numCores ∧ k.task ≠ 0 then taskOn c k.task else k.task }

def renPacket (f : Nat → Nat) (p : Packet) : Packet :=
  match p with
  | .fset c r l b n => .fset (f c) r (renLine f l) b n

/-- A core's record under its new number. -/
def renCore (f : Nat → Nat) (c : Nat) (k : Core) : Core :=
  { k with
    ctl := renCtl f c k.ctl
    halted := k.halted.map (renCtl f c)
    slots := k.slots.map (fun x => (x.1, { x.2 with saved := x.2.saved.map (renCtl f c) }))
    commits := k.commits.map (fun m => { m with work := renWork f m.work })
    portq := k.portq.map (fun r => { r with core := f r.core })
    ring0 := k.ring0.map (renPacket f), ring1 := k.ring1.map (renPacket f) }

def renWaiter (f : Nat → Nat) (w : Waiter) : Waiter :=
  match w with
  | .lane c k => .lane (f c) k
  | .ldg c i => .ldg (f c) i
  | .stg c i => .stg (f c) i
  | .port c p => .port (f c) p
  | .detent cl id => .detent (f (cl * 96) / 96) id

/-- A scratchpad byte's place in memory, renumbered; every other place stands. -/
def renKey (f : Nat → Nat) (a : Nat) : Nat :=
  if 2 ^ 60 ≤ a ∧ a < 2 ^ 61 then 2 ^ 60 + renByte f (a - 2 ^ 60) else a

/-- Give cores new numbers, wherever the machine names a core. -/
def State.renumber (s : State) (f : Nat → Nat) : State :=
  let atoms := s.clusters.flatMap (fun x => x.2.queue)
  let cls : Tbl Cluster := s.clusters.map (fun x => (x.1, { x.2 with queue := x.2.queue.filter (fun a => f a.core == a.core) }))
  let s1 : State := { s with
    cores := renTbl f (s.cores.map (fun x => (x.1, renCore f (f x.1) x.2)))
    mem := s.mem.foldl (fun m x => Memory.write m (renKey f x.1) x.2) []
    empty := renTbl (renLine f) s.empty
    badLine := renTbl (renLine f) s.badLine
    readers := renTbl (renLine f) s.readers
    clusters := cls
    waiters := s.waiters.map (fun w => (w.1, renWaiter f w.2))
    subs := s.subs.map (fun u => { u with pub := f u.pub, sub := f u.sub })
    circuits := s.circuits.map (fun x => { x with core := f x.core, core2 := f x.core2 })
    parts := s.parts.map (fun x => (x.1, { x.2 with nreqs := x.2.nreqs.map (fun r => { r with core := f r.core }) }))
    cancels := s.cancels.map (fun x =>
      if x.1 = 0 then (0, unitId (f (x.2 / 2 ^ 32)) (x.2 % 2 ^ 32)) else x) }
  (atoms.filter (fun a => f a.core != a.core)).foldl (fun s a =>
    s.modCluster (clusterOf (f a.core)) (fun k => { k with queue := k.queue ++ [{ a with core := f a.core }] })) s1

/-! ## Stopping (R237) -/

/-- The cores of a partition. -/
def State.partCores (s : State) (p : Nat) : List Nat :=
  (s.part p).clusters.flatMap (fun cl => (List.range 96).map (cl * 96 + ·))

/-- PREEMPT_REQUEST (R237 steps 1 and 3, R242): no node or command of the partition is dispatched any
more, its cores get the request, and its lanes, streams and forks stand still between firings. A second
request is ignored. -/
def State.requestPreempt (s : State) (p : Nat) : State :=
  if (s.part p).pre != .running then s
  else
    let mine (g : Grant) : Bool := match g with
      | .command q => (Tbl.get {} s.queues q).part.toNat == p
      | .node _ gr _ => ((s.graphs.find gr).bind (fun g => s.jobs.find g.job)).any (fun j => j.part == p)
    let s : State := { s with grant := if (s.grant.map mine).getD false then none else s.grant }
    let s := (s.partCores p).foldl (fun s c => s.modCore c (fun k =>
      if k.firmware then k else { k with preempt := some s.cycle, frozen := true })) s
    (s.modPart p (fun x => { x with pre := .stopping })).refresh

def execPreemptRequest (p : Nat) (s : State) : Result := .next (s.requestPreempt p)

/-- Does a port's command stand inside a line and can go on to the line's end (R237 step 3)? -/
def State.midLine (s : State) (c p : Nat) (x : Port) : Bool :=
  match x.run with
  | none => false
  | some r =>
    let n := Desc.size r.cmd.d
    r.midLine && !x.stalled && !x.tagStopped &&
      match r.items with
      | .data l :: _ =>
        let ins := Item.inside (.data l)
        !ins.any (s.elemHeld c n) &&
          if p < 16 then s.requested c (16 + p) && (s.core c).srcRoom p {} && !(Item.lines c n (.data l)).any s.isEmpty
          else !x.buf.isEmpty
      | _ => false

/-- Is a core still: no task runs, no row firing has started, no stream can go on to its line's end, every reply,
deposit and memory access is done or stalled, and every commit but those of an ordered domain (R237 steps 2-4)? -/
def State.coreQuiet (s : State) (c : Nat) : Bool :=
  let k := s.core c
  k.firmware || (
    k.ctl.slot.isNone && k.halted.isNone && k.mx.pass.isEmpty
      && k.ports.all (fun x => !s.midLine c x.1 x.2)
      && k.owed.all (fun o => o.unbounded) && k.portq.isEmpty && k.ring0.isEmpty && k.ring1.isEmpty
      && k.ldgs.all (·.stalled) && k.stgs.all (·.stalled) && k.memreqs.all (·.stalled)
      && k.commits.all (fun m => m.ord && m.stage == .waiting && !m.dead)
      && (s.cluster (clusterOf c)).queue.all (fun a => a.core != c || a.stalled)
      && k.deposits.all (fun d => d.val.isNone)
      && s.subs.all (fun u => u.sub != c || u.fifo.isEmpty)
      && (s.part k.part).nreqs.all (fun r => r.core != c || (match r.op with | .look _ => false | _ => true)))

/-- QUIESCENCE (R237 step 5, R238): the partition's cores are still. -/
def execQuiescence (p : Nat) (s : State) : Result :=
  if (s.part p).pre != .stopping || !(s.partCores p).all s.coreQuiet then .next s
  else .next (s.modPart p (fun x => { x with pre := .quiet, shape := x.clusters.map (· / 8) }))

/-! ## Saving (R238, R240) -/

/-- The number under which a saved cluster stands. -/
def parkedCluster (p v : Nat) : Nat := 32768 + 32 * p + v

/-- What a core keeps when its tenant's state leaves it: the supervisor's own registers. -/
def Core.bare (k : Core) : Core := { dbgEntry := k.dbgEntry, scrub := k.scrub }

/-- Bytes of a save area for n virtual clusters: header, core records, backlogs (R240). -/
def saveSize (n : Nat) : Nat := 65536 + n * 96 * (2 ^ 20 + 16 * 65536)

/-- The device writes the partition's save area (R240). -/
def State.openSave (s : State) (p n : Nat) : State :=
  if s.saves.any (fun a => a.part == p && a.live) then s
  else State.next { s with saves := ⟨s.fresh, p, (s.part p).save, saveSize n, [], true⟩ :: s.saves }

/-- CLUSTER_SAVE (R238, R240): the cluster's state leaves its cores for the save area, and the cluster is free for
other work. When every cluster is saved, the partition is pre-empted. -/
def execClusterSave (p vcl : Nat) (s : State) : Result :=
  let x := s.part p
  match x.clusters[vcl]? with
  | none => .next s
  | some cl =>
    if !(x.pre == .quiet || x.pre == .saving) || 32 ≤ cl then .next s
    else
      let new := parkedCluster p vcl
      let s := s.openSave p x.clusters.length
      let s := (s.cluster cl).hot.foldl (fun s h => s.writeBack cl h.line) s
      let old := (List.range 96).map (fun k => (cl * 96 + k, (s.core (cl * 96 + k)).bare))
      let s := s.renumber (fun c => if clusterOf c = cl then new * 96 + c % 96 else c)
      let s := old.foldl (fun s y => s.setCore y.1 y.2) s
      let cls := x.clusters.set vcl new
      .next (s.modPart p (fun y => { y with
        clusters := cls, pre := if cls.all (32 ≤ ·) then .saved else .saving }))

/-! ## Resume (R201, R241) -/

/-- Has a map the shape of the saved one: as many clusters, and the same grouping by die (R201)? -/
def sameShape (old new : List Nat) : Bool :=
  old.length == new.length &&
    (List.range old.length).all (fun i => (List.range old.length).all (fun j =>
      (old[i]? == old[j]?) == ((new[i]?.map (· / 8)) == (new[j]?.map (· / 8)))))

/-- Has every status without a bound been written into the saved records (R239)? -/
def State.allStatuses (s : State) (p : Nat) : Bool := (s.partCores p).all (fun c => (s.core c).owed.isEmpty)

/-- The partition's graphs move to the dependence tables of the dies that now hold their home clusters; one that finds
no room there is loaded when it is next dispatched from (R193, R201). -/
def State.moveGraphs (s : State) (p : Nat) : State :=
  let mine (g : Graph) : Bool := g.loaded && g.status.isNone && (s.jobs.find g.job).any (fun j => j.part == p)
  let ids := (s.graphs.filter (fun g => mine g.2)).map (·.1)
  let s : State := { s with graphs := s.graphs.map (fun g => if mine g.2 then (g.1, { g.2 with loaded := false }) else g) }
  ids.foldl State.loadGraph s

/-- A save area that has been changed restores as faulted (R240): every live job of the partition, with its running
graphs and launches. -/
def State.faultPart (s : State) (p : Nat) : State :=
  let live (j : Job) : Bool := j.part == p && j.status.isNone
  let js := (s.jobs.filter (fun j => live j.2)).map (·.1)
  let gs := (s.graphs.filter (fun g => js.contains g.2.job && g.2.status.isNone)).map (·.1)
  let ls := (s.launches.filter (fun l => l.2.part == p && l.2.status.isNone)).map (·.1)
  let s : State := { s with jobs := s.jobs.map (fun j => (j.1, { j.2 with fault := j.2.fault || live j.2 })) }
  let s := gs.foldl (fun s g => (s.modGraph g (fun x => { x with fault := true })).askCancel 2 g) s
  ls.foldl (fun s l => (s.modLaunch l (fun x => { x with fault := true })).askCancel 1 l) s

/-- The partition resumes from its save area. -/
def State.closeSave (s : State) (p : Nat) : State :=
  let bad := s.saves.any (fun a => a.part == p && a.live && !a.written.isEmpty)
  let s : State := { s with saves := s.saves.map (fun a => if a.part = p then { a with live := false } else a) }
  if bad then s.faultPart p else s

/-- Restore a partition on a map: its state under the new core numbers, its subscriptions resynchronised,
its cores free to go on (R137, R201, R241). -/
def State.restore (s : State) (p : Nat) (new : List Nat) : State :=
  let sup := new.flatMap (fun cl => (List.range 96).map (fun k => (cl * 96 + k, s.core (cl * 96 + k))))
  let f (c : Nat) : Nat :=
    match (enum new).find? (fun x => parkedCluster p x.1 == clusterOf c) with
    | some x => x.2 * 96 + c % 96
    | none => c
  let s := s.renumber f
  let s := sup.foldl (fun s y => s.modCore y.1 (fun k => { k with
    dbgEntry := y.2.dbgEntry, scrub := y.2.scrub, preempt := none, frozen := false, part := p })) s
  let s : State := { s with subs := s.subs.map (fun u => if new.contains (clusterOf u.sub) then u.resume else u) }
  let s := s.modPart p (fun x => { x with clusters := new, pre := .running, shape := [], resumeRq := none })
  (s.moveGraphs p).refresh

/-- RESUME (R201, R239-R242): once saving has ended and every owed status is written. A map of
another shape is refused, and the partition stays suspended. -/
def execResume (p : Nat) (s : State) : Result :=
  match (s.part p).resumeRq with
  | none => .next s
  | some new =>
    if (s.part p).pre != .saved then .next s
    else if !sameShape (s.part p).shape new || !new.all (· < 32) || !new.Nodup then
      .next (s.modPart p (fun x => { x with resumeRq := none }))
    else if !s.allStatuses p then .next s
    else .next ((s.restore p new).closeSave p).refresh

/-- REQUEST_PREEMPTION (R242, R261). -/
def execRequestPreemption (p : Nat) (s : State) : Result := .next (s.requestPreempt p)

/-- REQUEST_RESUME (R242, R261): the map to resume on; a partition that was not pre-empted ignores it. -/
def execRequestResume (p : Nat) (clusters : List Nat) (s : State) : Result :=
  if (s.part p).pre == .running then .next s
  else .next (s.modPart p (fun x => { x with resumeRq := some clusters }))

/-- DEBUG_HALT_REQUEST (R243): the running task is halted at its next safe point. -/
def execDebugHaltRequest (c : Nat) (s : State) : Result :=
  if (s.core c).supervisor then .next s else .next (s.modCore c (fun k => { k with dbgReq := true }))

end Sys2Proof.Machine
end

