-- ==== Sys2Proof/Machine/Device.lean ====
section
/-!
DEFINITION. The base die but for the Regulator: fault queues, supervisor registers, soft errors, links, the
Chronograph, bring-up, the host's windows, management and clocks (R13, R22, R54, R160, R202, R214, R228-R230,
R232, R235, R243, R246-R262).
-/

namespace Sys2Proof.Machine

/-! ## Fault queues (R228-R230) -/

def State.faultQ (s : State) (q : FqId) : FaultQ :=
  match q with
  | .part p => (s.part p).fq
  | .firmware => s.fwq

def State.setFaultQ (s : State) (q : FqId) (x : FaultQ) : State :=
  match q with
  | .part p => s.modPart p (fun y => { y with fq := x })
  | .firmware => { s with fwq := x }

/-- A fault queue that is not enabled holds no record: those held are dropped and counted (R230). -/
def State.dropHeld (s : State) (fq : FqId) : State :=
  let q := s.faultQ fq
  if q.en || q.held.isEmpty then s
  else q.held.foldl (fun s r => s.countErr (srcDie r.src) (fun e => { e with dropped := e.dropped + 1 }))
    (s.setFaultQ fq { q with held := [], lost := true })

/-- FAULT_QUEUE_DESCRIPTOR_WRITE (R228, R230). -/
def execFaultQueueDescriptorWrite (fq : FqId) (v : BitVec 128) (s : State) : Result :=
  let lsize := v.extractLsb' 8 4
  if !s.booted then .next s
  else if 10 < lsize.toNat || v.extractLsb' 12 4 != 0 || v.extractLsb' 1 7 != 0 then
    let ev : Word := match fq with
      | .part p => BitVec.ofNat 64 p
      | .firmware => 0xFFFF
    .next (s.reportFw regSrc 14 6 0 ev)
  else
    .next (s.setFaultQ fq { s.faultQ fq with
      base := v.extractLsb' 64 64, tail := v.extractLsb' 32 32, msix := v.extractLsb' 16 16
      lsize := lsize, en := v.getLsbD 0 } |>.dropHeld fq)

/-- The 32 bytes of a fault record (R229). -/
def FRec.bytes (r : FRec) (lost : Bool) : List Byte :=
  leBytes r.dial 8 ++ leBytes r.src 2 ++ leBytes r.cause 1 ++ leBytes (r.flags + (if lost then 16 else 0)) 1
    ++ leBytes (r.at_ % 2 ^ 14) 4 ++ leBytes r.evalue.toNat 8 ++ leBytes r.task.toNat 4 ++ leBytes r.launch 4

/-- The held report to write next: the least (dial, src) (R230). -/
def FaultQ.first (q : FaultQ) : Option FRec :=
  leastBy (fun (a b : FRec) => a.dial < b.dial || (a.dial == b.dial && a.src < b.src)) q.held

/-- Write a record into its ring: a partition's through its own translation, the firmware's at the
physical address; `none` where it is not mapped. -/
def State.writeRec (s : State) (fq : FqId) (a : Nat) (b : List Byte) : Option State :=
  match fq with
  | .part p => s.regWrite p a b false
  | .firmware => some (s.physWrite ((List.range b.length).map (a + ·)) b false)

/-- FAULT_RECORD_WRITE (R230): the first held report, 256 ticks after its Dial value. A full ring or a
disabled queue drops and counts it. -/
def execFaultRecordWrite (fq : FqId) (s : State) : Result :=
  let q := s.faultQ fq
  match q.first with
  | none => .next s
  | some r =>
    if s.dial < r.dial + 256 then .next s
    else
      let q := { q with held := q.held.erase r }
      let drop : State :=
        (s.setFaultQ fq { q with lost := true }).countErr (srcDie r.src) (fun e => { e with dropped := e.dropped + 1 })
      let cap := 2 ^ (q.lsize.toNat + 6)
      if !q.en || cap ≤ (q.tail - q.head).toNat then .next drop
      else
        match s.writeRec fq (q.base.toNat + 32 * (q.tail.toNat % cap)) (r.bytes q.lost) with
        | none => .next drop
        | some s' =>
          let s' := s'.setFaultQ fq { q with tail := q.tail + 1, lost := false }
          .next (if q.tail = q.head then { s' with hostOut := s'.hostOut ++ [.msix q.msix.toNat] } else s')

/-! ## Supervisor registers -/

/-- MODE_REGISTER_WRITE (R13). -/
def execModeRegisterWrite (p : Nat) (v : BitVec 64) (s : State) : Result :=
  .next (s.fw (fun s => s.setMode p (v.getLsbD 0) (v.getLsbD 1)))

/-- SET_PARTITION_MODE (R13, R261). -/
def execSetPartitionMode (p : Nat) (dbg det : Bool) (s : State) : Result := .next (s.setMode p dbg det)

/-- NAME_DOMAIN_SET (R159, R160): keys, table, heap; the table is what memory holds at tbase. A t outside 3-26 is
refused. A heap of another range has no block in use. -/
def execNameDomainSet (p : Nat) (cfg : DomainCfg) (s : State) : Result :=
  if !s.booted then .next s
  else if cfg.t < 3 || 26 < cfg.t then .next { s with hostOut := s.hostOut ++ [.refused 4] }
  else
    let same (c : DomainCfg) : Bool := c.heapBase == cfg.heapBase && c.heapSize == cfg.heapSize
    .next { s.modDom p (fun d => { d with cfg := some cfg, blocks := if d.cfg.any same then d.blocks else [] }) with
      caches := s.caches.filter (fun x => x.2.1 != p) }

/-- The eight counters in the order of R160. -/
def countsOf (l : List Nat) : NameCounts :=
  let at_ (i : Nat) : Nat := l[i]?.getD 0
  ⟨at_ 0, at_ 1, at_ 2, at_ 3, at_ 4, at_ 5, at_ 6, at_ 7⟩

/-- Configure a partition on clusters: its cores read its number, and its mode bits are 0 (R13, R54,
R201). -/
def State.setMap (s : State) (p : Nat) (cls : List Nat) : State :=
  let s := s.modPart p (fun x => { x with clusters := cls, dbg := false, det := false, detNext := none })
  (s.partCores p).foldl (fun s c => s.modCore c (fun k => { k with part := p, firmware := false })) s

/-- A firmware core runs from an address at supervisor level (R224). -/
def State.bootCore (s : State) (c entry : Nat) : State :=
  State.next (s.modCore c (fun k => { k with
    firmware := true, ctl := { slot := some 64, run := s.fresh, pc := entry } }))

/-- An original's entry, which enters the replica table at the partition's next phase boundary (R199, R215). -/
def State.addOriginal (s : State) (r : Replica) : State := s.modPart r.part (fun x => { x with pendRep := x.pendRep ++ [r] })

/-- Arm a circuit between a core and a Swihowen Link, once a session has a key for the link (R92, R253, R254,
notes/assumptions/85.md). -/
def State.linkCircuit (s : State) (c port link : Nat) (out toVc : Bool) : State :=
  let y := Tbl.get {} s.links link
  if 18 ≤ link || y.session = 0 || y.failed then s
  else
    let n := ringStages (c % 96) 0 + closSwitches
    let x : Circuit :=
      { launch := (s.core c).launch, core := c, sink := port, core2 := c, src := port, toVc := !out && toVc
        comes := if out then none else some link, goes := if out then some link else none
        stages := List.replicate n [], links := [(if out then n else 0, link)] }
    let s := { s with circuits := s.circuits ++ [x] }
    if x.toVc then s else s.modPort c (if out then 16 + port else port) (fun p => { p with circuit := true })

/-- The effect of a supervisor's access to a register that has no step of its own. -/
def State.superWrite (s : State) (r : SupWrite) : State :=
  match r with
  | .debugEntry c v => s.modCore c (fun k => { k with dbgEntry := v })
  | .debugReg c num v =>
    if 0x180 ≤ num.toNat ∧ num.toNat ≤ 0x19F then
      s.modCore c (fun k => { k with dbgG := Tbl.set 0 k.dbgG (num.toNat - 0x180) v })
    else if num = 0x1A0 then s.modCore c (fun k => { k with dbgQ := v })
    else s
  | .clusterMap p cls => (s.setMap p cls).refresh
  | .pageRoot p pa => s.modPart p (fun x => { x with root := pa })
  | .memoryKey p key => s.modPart p (fun x => { x with key := key })
  | .share p sh => s.modPart p (fun x => { x with share := sh, eshare := if s.shareAt.isNone then sh else x.eshare })
  | .thresholds p a b => s.modPart p (fun x => { x with copyThr := a, idleThr := b })
  | .replicaReserve p die vcl core ncore line =>
    s.modPart p (fun x => { x with reserve := x.reserve.put die (vcl, core, ncore, line) })
  | .original p x vcl core ncore line => s.addOriginal ⟨line, x, p, vcl, core, ncore, 1⟩
  | .replicaPage p pa => s.modPart p (fun x => { x with repPage := pa })
  | .recordRing p base size => s.modPart p (fun x => { x with ring := base, ringSize := size, ringPos := 0 })
  | .acceptKey p key => s.modPart p (fun x => { x with accept := x.accept ++ [key] })
  | .withdrawKey p key => s.modPart p (fun x => { x with accept := x.accept.filter (· != key) })
  | .bar2Window p off size va => s.modPart p (fun x => { x with windows := x.windows ++ [(off, size, va)] })
  | .faultHead fq head => s.setFaultQ fq { s.faultQ fq with head := head }
  | .saveArea p base => s.modPart p (fun x => { x with save := base })
  | .chronographTrigger cause => { s with chronTrg := some cause }
  | .snapshotRead => { s with hostOut := s.hostOut ++ [.snapshots s.snaps], snaps := [] }
  | .firmwareCore c entry => s.bootCore c entry
  | .nameCounters p l => s.modCounts p (fun _ => countsOf l)
  | .nameCountersRead p => { s with hostOut := s.hostOut ++ [.nameCounts p (s.dom p).counts] }
  | .dupsRead p => { s with hostOut := s.hostOut ++ [.dups p (s.part p).dups.toNat] }
  | .cxlMemory bytes => { s with cxl := bytes }
  | .domainNumber n => if n < 256 then { s with domain := n } else s
  | .linkCircuit c port link out toVc => s.linkCircuit c port link out toVc

/-- SUPERVISOR_REGISTER_WRITE: the firmware's interface (R256). -/
def execSupervisorRegisterWrite (r : SupWrite) (s : State) : Result := .next (s.fw (fun s => s.superWrite r))

/-! ## Soft errors (R232, R246) -/

/-- SCRUB (R246): one scratchpad line every 4,096 cycles. -/
def execScrub (c : Nat) (s : State) : Result :=
  if s.cycle < 4096 * ((s.core c).scrub + 1) then .next s
  else .next (s.modCore c (fun k => { k with scrub := k.scrub + 1 }))

/-- CORRECTED_SINGLE_BIT_ERROR (R246). -/
def execCorrectedSingleBitError (die : Nat) (s : State) : Result :=
  .next (s.countErr die (fun e => { e with corrected := e.corrected + 1 }))

/-- Bytes whose content an error has destroyed: free values. -/
def State.lose (s : State) (a n : Nat) : State :=
  { s with
    mem := (List.range n).foldl (fun m i => Memory.write m (a + i) (Config.freeByte s.free i)) s.mem
    free := s.free + 1 }

/-- HBM_UNCORRECTABLE_ERROR (R232): the 64-byte unit is poisoned. -/
def execHbmUncorrectableError (unit : Nat) (s : State) : Result :=
  if !s.physical (unit * 64) then .next s
  else .next { s.lose (unit * 64) 64 with badUnit := Tbl.set false s.badUnit unit true }

/-- UNCORRECTABLE_ERROR (R232, R246). -/
def execUncorrectableError (w : SramWhere) (s : State) : Result :=
  .next (match w with
  | .scratchpadLine c line =>
    if numCores ≤ c ∨ 4096 ≤ line then s else (s.lose (spKey c (line * 128)) 128).setBad (lineKey c line) true
  | .nameCacheEntry die idx =>
    match (s.caches.filter (fun x => x.1 == die))[idx]? with
    | some x => { s with caches := s.caches.erase x }
    | none => s
  | .instructionWord c a => s.modCore c (fun k => { k with badWords := a :: k.badWords })
  | .taskEntry c i => s.modCore c (fun k => { k with badTasks := i :: k.badTasks })
  | .configRegion c => s.modCore c (fun k => { k with badCfg := true })
  | .dependenceEntry gr =>
    match s.graphs.find gr with
    | none => s
    | some g =>
      if g.status.isSome || !g.loaded then s
      else
        let p := ((s.jobs.find g.job).map (·.part)).getD 0
        (((s.regReport p 22 (Config.structureNumber 3)).modGraph gr (fun g => { g with fault := true })).askCancel
          2 gr).refresh)

/-! ## Links (R247, R254) -/

/-- The source number and fault-record number of a link or die-link port (R22, R247). -/
def linkSrc (l : Nat) : Nat := if l < 18 then regSrc + 5 + l else (l - 18) / 3 * 8192 + 4113 + (l - 18) % 3
def linkNum (l : Nat) : Nat := if l < 18 then l else (l - 18) % 3

/-- Does a circuit run over a link? -/
def Circuit.over (x : Circuit) (l : Nat) : Bool := x.links.any (fun y => y.2 == l)

/-- A link has failed: every circuit over it stalls and reports (R247). -/
def State.failLink (s : State) (l : Nat) : State :=
  let hit := s.circuits.filter (fun x => x.over l && !x.failed)
  let s := hit.foldl (fun s x =>
    s.report (s.core x.core).part (linkSrc l) 23 7 0 (BitVec.ofNat 64 (linkNum l)) 0 x.launch) s
  { s with circuits := s.circuits.map (fun x => if x.over l then { x with failed := true } else x) }

/-- LINK_RETRANSMIT (R247, R254): a flit failed its CRC or tag check and is sent again; when the flit and 16
retransmissions of it in a row have failed the link is declared failed. -/
def execLinkRetransmit (l : Nat) (s : State) : Result :=
  let x := Tbl.get {} s.links l
  if x.failed then .next s
  else
    let y : Link := { x with tries := x.tries + 1, failed := decide (16 < x.tries + 1) }
    let s := { s with links := s.links.put l y }
    .next (if y.failed then s.failLink l else s)

/-- KEY_EXCHANGE (R254): a new session before any circuit over the link is armed. -/
def execKeyExchange (l : Nat) (s : State) : Result :=
  if s.circuits.any (fun x => x.over l) then .next s
  else
    let x := Tbl.get {} s.links l
    .next { s with
      links := s.links.put l { x with session := s.fresh, key := Config.sessionKey s.free, flits := 0 }
      free := s.free + 1, fresh := s.fresh + 1 }

/-- KEY_UPDATE (R254): at 2^40 flits the session takes a new key; no token is lost or repeated. -/
def execKeyUpdate (l : Nat) (s : State) : Result :=
  let x := Tbl.get {} s.links l
  if x.flits < 2 ^ 40 then .next s
  else .next { s with
    links := s.links.put l { x with key := Config.sessionKey s.free, flits := 0 }, free := s.free + 1 }

/-! ## The Chronograph (R22, R248) -/

/-- Every source of R22. -/
def sources : List Nat :=
  (List.range 4).flatMap (fun d =>
    (List.range 8).flatMap (fun c =>
      (List.range 96).flatMap (fun k => (List.range 4).map (fun u => d * 8192 + c * 512 + k * 4 + u))
        ++ [d * 8192 + c * 512 + 384, d * 8192 + c * 512 + 385])
      ++ (List.range 21).map (fun i => d * 8192 + 4096 + i))
    ++ (List.range 24).map (fun i => 4 * 8192 + i)

/-- Busy and stall of a source, where the machine's state says it. -/
def State.sourceBusy (s : State) (src : Nat) : Bool × Bool :=
  let die := src / 8192
  let loc := src % 8192
  let cl := die * 8 + loc / 512
  let c := cl * 96 + loc % 512 / 4
  let k := s.core c
  if die < 4 ∧ loc < 4096 ∧ loc % 512 < 384 then
    match loc % 4 with
    | 0 => (k.ctl.slot.isSome, k.ctl.slot.isSome && k.owed.any (fun o => o.run == k.ctl.run))
    | 1 => (k.mx.active || !k.mx.words.isEmpty, k.mx.halt)
    | 2 => (k.ports.any (fun p => p.2.run.isSome), k.ports.any (fun p => p.2.stalled))
    | _ => (k.rowArmed && k.queues.any (fun q => !q.2.isEmpty), k.lanes.any (fun l => l.2.stopped))
  else if die < 4 ∧ loc % 512 = 384 ∧ loc < 4096 then
    (!(s.cluster cl).queue.isEmpty, (s.cluster cl).queue.any (·.stalled))
  else Config.sourceState src s.free

/-- CHRONOGRAPH_LATCH (R248): at Dial T every source's snapshot is latched. -/
def execChronographLatch (s : State) : Result :=
  match s.chronT with
  | none => .next s
  | some t =>
    if s.dial ≠ t || !s.snaps.isEmpty then .next s
    else
      let snaps := sources.map (fun src => (⟨t, src, (s.sourceBusy src).1, (s.sourceBusy src).2,
        Config.eventCount src s.free⟩ : Snapshot))
      .next { s with snaps := snaps, chronT := none, free := s.free + 1 }

/-- SET_CHRONOGRAPH_T (R248, R261): accepted only after the previous snapshot has been latched and read out; a Dial
value that is past is refused (notes/assumptions/91.md). -/
def execSetChronographT (t : BitVec 64) (s : State) : Result :=
  if s.snaps.isEmpty && s.chronT.isNone && decide (s.dial ≤ t.toNat) then .next { s with chronT := some t.toNat }
  else .next { s with hostOut := s.hostOut ++ [.refused 0] }

/-! ## Bring-up (R256-R258) -/

/-- Host memory, which is not the device's: what a reset leaves alone. -/
def hostPart (m : Memory) : Memory := m.filter (fun x => 2 ^ 64 ≤ x.1)

/-- DEVICE_RESET (R256, R313): every register and memory as reset leaves it; the boot ROM derives the
identity key pair and awaits an image. The host's memory and what was sent to it stand. -/
def execDeviceReset (s : State) : Result :=
  .next { State.reset with
    bstate := 1, mem := hostPart s.mem, badHost := s.badHost, hostOut := s.hostOut
    agenda := s.agenda, seat := s.seat, free := s.free }

/-- The boot SRAM's first bytes. -/
def State.image (s : State) (n : Nat) : List Byte := s.mem.reads (bootKey 0) n

/-- Step 3 of R256: the error code, 0 when the image is good. -/
def checkImage (img : List Byte) : Nat :=
  match Config.imageHeader img with
  | none => 4
  | some (pub, sig) =>
    if sha256 pub ≠ Config.maskRomKeyHash then 2
    else if ecdsaVerify pub sig (sha256 img) then 0 else 3

/-- The host writes the image's length (R256, R257): in state 1 it is taken, state 2 is entered and the image
verified: the firmware runs in state 3, or state 4 holds the error. -/
def State.imageLength (s : State) (len : W32) : State :=
  if s.bstate ≠ 1 then s
  else
    let n := len.toNat
    let fail (e : Nat) : State := { s with blen := len, bstate := 4, berr := BitVec.ofNat 8 e }
    if n = 0 || 4 * 2 ^ 20 < n then fail 1
    else
      let img := s.image n
      match checkImage img with
      | 0 => { s with blen := len, bstate := 3, berr := 0, meas := sha256 img }
      | e => fail e

/-- IMAGE_LENGTH_WRITE (R256, R257). -/
def execImageLengthWrite (len : BitVec 32) (s : State) : Result := .next (s.imageLength len)

/-- The `bstat` word (R257). -/
def State.bstat (s : State) : Word := (s.blen ++ (0 : BitVec 16) ++ s.berr ++ (0 : BitVec 4) ++ s.bstate).setWidth 64

/-- A SPDM answer: the measurement register, signed under the identity key together with the nonce. -/
def State.attest (s : State) (nonce : List Byte) : State :=
  let m := fit 32 s.meas
  let (s, sig) := s.sign (m ++ nonce)
  { s with hostOut := s.hostOut ++ [.spdm (m ++ sig)] }

/-- GET_MEASUREMENTS (R258). -/
def execGetMeasurements (nonce : List (BitVec 8)) (s : State) : Result := .next (s.attest nonce)

/-- CHALLENGE (R258). -/
def execChallenge (nonce : List (BitVec 8)) (s : State) : Result := .next (s.attest nonce)

/-- GET_CERTIFICATE (R258). -/
def execGetCertificate (s : State) : Result :=
  .next { s with hostOut := s.hostOut ++ [.spdm (publicKey identityKey)] }

/-! ## The host's windows (R232, R235, R249) -/

/-- Is the boot window open (R249)? -/
def State.bootOpen (s : State) : Bool := s.bstate != 3

/-- Where a byte of BAR2 lies: boot SRAM, or a partition's memory through a window on path H, with the partition. -/
def State.bar2 (s : State) (off : Nat) (write : Bool) : Option (Nat × Option Nat) :=
  if s.bootOpen then (if off < 4 * 2 ^ 20 then some (bootKey off, none) else none)
  else s.parts.findSome? (fun x => (x.2.windows.find? (fun w => w.1 ≤ off && off < w.1 + w.2.1)).bind
    (fun w => (s.translate 4 x.1 (w.2.2 + (off - w.1)) write).map (fun a => (a, some x.1))))

/-- Bytes of a partition's memory are accessed under its key (R255). -/
def State.barKeyed (s : State) (l : List (Nat × Option Nat)) (write : Bool) : State :=
  l.foldl (fun s a => match a.2 with | some p => s.keyed p [a.1] write | none => s) s

/-- A host read: what nothing maps reads as ones; poison is sent as EP (R235). -/
def State.hostRead (s : State) (off n : Nat) : State :=
  let at_ := (List.range n).map (fun i => s.bar2 (off + i) false)
  let pas := at_.filterMap id
  let s := if s.bootOpen then s else (s.barKeyed pas false).physRead (pas.map (·.1)) |>.1
  let bytes := at_.map (fun a => match a with
    | some a => if s.bootOpen then s.mem.read a.1 else s.byteAt a.1
    | none => 255)
  let ep := !s.bootOpen && pas.any (fun a => Tbl.get false s.badUnit (a.1 / 64))
  { s with hostOut := s.hostOut ++ [.read bytes ep] }

/-- A host write: dropped where nothing maps, and in the boot window in state 2; EP poisons every unit it
touches (R232, R249, R256). -/
def State.hostWrite (s : State) (off : Nat) (bytes : List Byte) (ep : Bool) : State :=
  let ws := (enum bytes).filterMap (fun x => (s.bar2 (off + x.1) true).map (fun a => (a, x.2)))
  if s.bootOpen then
    (if s.bstate = 2 then s else { s with mem := ws.foldl (fun m x => Memory.write m x.1.1 x.2) s.mem })
  else if ws.isEmpty then s
  else (s.barKeyed (ws.map (·.1)) true).physWrite (ws.map (·.1.1)) (ws.map (·.2)) ep

/-- A byte of BAR0: of the boot-status page, or zero in the reserved pages; what a doorbell page reads as is open
(R249, R257). -/
def State.bar0Byte (s : State) (off : Nat) : Byte :=
  if off < 0x400000 then Config.freeByte s.free off
  else if off < 0x400008 then BitVec.ofNat 8 (s.bstat.toNat / 2 ^ (8 * (off - 0x400000)))
  else 0

/-- A host read of BAR0. -/
def State.bar0Read (s : State) (off n : Nat) : State :=
  { s with hostOut := s.hostOut ++ [.read ((List.range n).map (fun i => s.bar0Byte (off + i))) false], free := s.free + 1 }

/-- A host write to BAR0 (R249, R250, R257): 4 bytes at offset 0 of a doorbell page are the queue's new tail, a write
that covers `bstat` [63:32] is the image length, and any other is dropped. -/
def State.bar0Write (s : State) (off : Nat) (bytes : List Byte) : State :=
  if off < 0x400000 then
    (if off % 0x1000 = 0 ∧ bytes.length = 4 then s.notify (off / 0x1000) (BitVec.ofNat 32 (leNat bytes)) else s)
  else if off ≤ 0x400004 ∧ 0x400008 ≤ off + bytes.length then
    s.imageLength (BitVec.ofNat 32 (leNat ((bytes.drop (0x400004 - off)).take 4)))
  else s

/-- A unit of CXL memory that a port returns with poison (R251): its bytes stand. -/
def State.cxlPoison (s : State) (unit : Nat) : State :=
  if s.physical (unit * 64) && decide (0x010000000000 ≤ unit * 64) then
    { s with badUnit := Tbl.set false s.badUnit unit true }
  else s

/-- A flit of another device arrives on a Swihowen Link that works (R253, R254). -/
def State.flitIn (s : State) (l : Nat) (t : Token) : State :=
  let x := Tbl.get {} s.links l
  if 18 ≤ l || x.failed then s else { s with links := s.links.put l { x with rx := x.rx ++ [t] } }

/-- BAR2_HOST_ACCESS: what reaches the device from outside on its ports (R232, R249-R251, R254). -/
def execBar2HostAccess (acc : HostAccess) (s : State) : Result :=
  .next (match acc with
  | .read off size => s.hostRead off size
  | .write off bytes ep => s.hostWrite off bytes ep
  | .bar0Read off size => s.bar0Read off size
  | .bar0Write off bytes => s.bar0Write off bytes
  | .ideKey key => { s with ideKey := key }
  | .cxlPoison unit => s.cxlPoison unit
  | .flit l poison kind value => s.flitIn l ⟨poison, kind, value⟩
  | .hostMemory addr bytes ep =>
    { s with
      mem := s.mem.writes (hostKey addr) bytes
      badHost := (((List.range bytes.length).map (fun i => (addr + i) / 64)).eraseDups).foldl
        (fun b u => Tbl.set false b u ep) s.badHost })

/-! ## Management and clocks (R261, R262) -/

/-- READ_TEMPERATURES. -/
def execReadTemperatures (die : Nat) (s : State) : Result :=
  .next { s with hostOut := s.hostOut ++ [.temperatures die (Config.temperature die s.free)], free := s.free + 1 }

/-- READ_ERROR_COUNTERS. -/
def execReadErrorCounters (die : Nat) (s : State) : Result :=
  .next { s with hostOut := s.hostOut ++ [.errors die (Tbl.get {} s.errors die)] }

/-- SET_POWER_LIMIT: a limit outside 200-2,400 W is refused. -/
def execSetPowerLimit (watts : Nat) (s : State) : Result :=
  if 200 ≤ watts ∧ watts ≤ 2400 then .next { s with power := watts }
  else .next { s with hostOut := s.hostOut ++ [.refused 1] }

/-- A frequency of the clock: 800-3,300 MHz in steps of 25. -/
def clockOk (f : Nat) : Bool := 800 ≤ f && f ≤ 3300 && f % 25 == 0

/-- SET_DVFS_FLOOR_CEILING: a floor above the ceiling is refused and changes nothing. -/
def execSetDvfsFloorCeiling (cl lo hi : Nat) (s : State) : Result :=
  if clockOk lo && clockOk hi && lo ≤ hi then
    .next (s.modCluster cl (fun x => { x with lo := lo, hi := hi, mhz := max lo (min hi x.mhz) }))
  else .next { s with hostOut := s.hostOut ++ [.refused 2] }

/-- DVFS_MONITOR_WINDOW (R262): the back-pressured share of a window of 65,536 ticks moves the clock. -/
def execDvfsMonitorWindow (cl pressured total : Nat) (s : State) : Result :=
  if s.dial < 65536 * ((s.cluster cl).win + 1) then .next s
  else .next (s.modCluster cl (fun x =>
    let y := { x with win := x.win + 1 }
    if total < 4 * pressured then { y with mhz := max x.lo (x.mhz - 25) }
    else if 20 * pressured < total ∧ s.overPow = false then { y with mhz := min x.hi (x.mhz + 25) }
    else y))

/-- POWER_LIMIT_STEP (R262): once the power has exceeded the limit every cluster steps down by 25 MHz each millisecond
until the power falls below the limit. -/
def execPowerLimitStep (watts : Nat) (s : State) : Result :=
  if s.dial < 1000000 * (s.powerMs + 1) then .next s
  else
    let s := { s with powerMs := s.powerMs + 1, overPow := decide (s.power < watts ∨ s.overPow = true ∧ s.power ≤ watts) }
    if s.overPow then
      .next ((List.range 32).foldl (fun s cl => s.modCluster cl (fun x => { x with mhz := max x.lo (x.mhz - 25) })) s)
    else .next s

end Sys2Proof.Machine
end

