-- ==== Sys2Proof/Machine/Fetch.lean ====
section
/-!
DEFINITION. What moves next, and which instruction a sequencer or a lane then executes (R49-R51, R78,
R82, R246, R288, notes/assumptions/1.md, 2.md, 7.md).
-/

namespace Sys2Proof.Machine

/-- What a turn comes to: an instruction to execute, or a state that it leaves at once. -/
inductive Issue where
  | run (i : Instr)
  | done (s : State)
  deriving DecidableEq, Repr

/-- The instruction of a decoded word: a word that the sequencer does not execute is an illegal
instruction (R50, R298). -/
def legal (w : W32) (r : Except Reject Instr) : Instr :=
  match r with
  | .ok i => i
  | .error _ => .illegalInstruction w

/-- The word of a core's instruction store. -/
def Core.word (k : Core) (pc : Nat) : W32 := Tbl.get 0 k.store pc

/-- The control sequencer of the seat's core issues the word at its pc (R50, R51, R246). -/
def State.issueControl (s : State) : Issue :=
  let k := s.here
  let pc := k.ctl.pc
  if k.ctl.slot.isNone then .done s
  else if k.ctl.killed then .done (s.killTask s.seat.core)
  else if 16383 < pc then .done (s.trap 3 (BitVec.ofNat 64 pc))
  else if k.badWords.contains pc then .done (s.trap 22 (Config.structureNumber 0))
  else .run (legal (k.word pc) (decodeControl (k.word pc)))

/-- The matrix sequencer issues the word at its pc. -/
def State.issueMatrix (s : State) : Issue :=
  let k := s.here
  let pc := k.mx.pc
  if !k.mx.active || k.mx.halt || k.frozen then .done s
  else if 16383 < pc then .done (s.matrixStop 3 (BitVec.ofNat 64 pc) 0)
  else if k.badWords.contains pc then .done (s.matrixStop 22 (Config.structureNumber 0) 0)
  else .run (legal (k.word pc) (decodeMatrix (k.word pc)))

/-- The stream sequencer issues the word at its pc. -/
def State.issueStream (s : State) : Issue :=
  let k := s.here
  let pc := k.ss.pc
  if !k.ss.active || k.ss.halt || k.frozen then .done s
  else if 16383 < pc then .done (s.streamStop 3 (BitVec.ofNat 64 pc) none)
  else if k.badWords.contains pc then .done (s.streamStop 22 (Config.structureNumber 0) none)
  else .run (legal (k.word pc) (decodeStream (k.word pc)))

/-- The sequencer of the seat issues its next word. -/
def State.issue (s : State) : Issue :=
  match s.seat.seq with
  | .control => s.issueControl
  | .matrix => s.issueMatrix
  | .stream => s.issueStream

/-- The lane of the seat emits a token it owes, or fires its configured operation (R78, R82); a region
hit by an uncorrectable error faults the launch when it is used (R246). -/
def State.laneIssue (s : State) : Issue :=
  let c := s.seat.core
  let n := s.seat.lane
  let k := s.here
  let l := k.lane n
  if !k.rowArmed || k.frozen || l.stopped then .done s
  else if k.badCfg then
    let s := s.reportCore c 3 22 false n (Config.structureNumber 2)
    let s := s.modLane c n (fun l => { l with stopped := true })
    .done ((s.modLaunch k.launch (fun l => { l with fault := true })).askCancel 1 k.launch)
  else match l.out with
    | e :: r =>
      if k.ready n e then .done ((s.modLane c n (fun l => { l with out := r })).emitLane c n e)
      else .done s
    | [] =>
      if !s.requested c n then .done s
      else match decodeLane (Tbl.get idleLaneWord k.region.lops n) with
        | .ok (some i) => .run i
        | _ => .done s

/-- Sit at a lane of a core. -/
def State.sitLane (s : State) (c n : Nat) : State := { s with seat := { core := c, lane := n, seq := .control } }

/-- An aborted instance of an ordered domain that waits for the oldest stamp becomes runnable in the first
cycle in which it holds it (R60, R174). -/
def Core.noteOldest (s : State) (c : Nat) (k : Core) : Core :=
  { k with slots := k.slots.map (fun x =>
      if x.2.st = .waitOldest then
        (x.1, { x.2 with
          oldAt := if s.oldest (k.chain x.2.chain).launch c x.1 x.2.stamp then some (x.2.oldAt.getD s.cycle) else none })
      else x) }

/-- The ticks that pass: none past the Dial value at which the Chronograph still has to latch (R248). -/
def State.ticksTo (s : State) (ticks : Nat) : Nat :=
  match s.chronT with
  | some t => if s.dial ≤ t then min ticks (t - s.dial) else ticks
  | none => ticks

/-- Time passes (R4, R262): cycles and Dial ticks. Every die and source reads one Dial
(notes/assumptions/82.md). -/
def State.elapse (s : State) (cycles ticks : Nat) : State :=
  { s with
    cycle := s.cycle + cycles, dial := s.dial + s.ticksTo ticks
    cores := s.cores.map (fun x => (x.1, x.2.noteOldest s x.1)) }

/-- The turn that moves when the agenda names none: the seat's core goes on, first with what it owes,
then with its sequencers, commits and scheduler (notes/assumptions/2.md). -/
def State.defaultTurn (s : State) : Turn :=
  let c := s.seat.core
  let k := s.here
  match k.owed.findIdx? (fun o => o.val.isSome) with
  | some i => .event (.registerReplyArrival c i)
  | none =>
    if k.ctl.slot.isSome then .issue c .control
    else if !k.mx.pass.isEmpty then .event (.rowFiring c)
    else if !k.mx.todo.isEmpty then .event (.matrixPass c)
    else if k.mx.active && !k.mx.halt then .issue c .matrix
    else if k.ss.active && !k.ss.halt then .issue c .stream
    else if !k.commits.isEmpty then .event (.taskCommit c 0)
    else .event (.taskDispatch c)

/-- The next turn, and the state with it taken from the agenda. -/
def State.nextTurn (s : State) : Turn × State :=
  match s.agenda with
  | t :: r => (t, { s with agenda := r })
  | [] => (s.defaultTurn, s)

/-- What a turn comes to, and the state in which its instruction executes; a turn that names no core of
the package, or no part of the device, changes nothing. -/
def State.turn (s : State) : Turn → Issue × State
  | .issue c q => (if c < numCores then (s.sit c q).issue else .done s, s.sit c q)
  | .lane c n => (if c < numCores then (s.sitLane c n).laneIssue else .done s, s.sitLane c n)
  | .event i => (if i.kind = .event ∧ i.wf then .run i else .done s, s)
  | .elapse cycles ticks => (.done (s.elapse cycles ticks), s)

/-- The sequencer that a table word's instruction runs on. -/
def fetchSeq (i : Instr) : Seq :=
  match i with
  | .endJoin => .stream
  | i => if i.kind = .matrix then .matrix else .control

/-- A sequencer of a core that runs at word 0 (`withFetchWord`). -/
def Core.runAt0 (k : Core) (q : Seq) : Core :=
  match q with
  | .control => { k with ctl := { k.ctl with slot := some (k.ctl.slot.getD 0), pc := 0, killed := false } }
  | .matrix => { k with frozen := false, mx := { k.mx with active := true, halt := false, pc := 0 } }
  | .stream => { k with frozen := false, ss := { k.ss with active := true, halt := false, pc := 0 } }

/-- Word 0 of core 0 holds a word, and the next turn is that sequencer's issue of it. -/
def State.placeWord (s : State) (w : W32) (q : Seq) : State :=
  let s := s.modCore 0 (fun k =>
    { (k.runAt0 q) with store := k.store.put 0 w, badWords := k.badWords.filter (fun a => a != 0) })
  { s with agenda := [.issue 0 q] }

end Sys2Proof.Machine
end

