-- ==== Sys2Proof/Machine/Lane.lean ====
section
/-!
DEFINITION. The lane row: what each configured operation does when its lane fires (R75-R91, R330-R359),
and the accesses of the memory nodes.
-/

namespace Sys2Proof.Machine

/-! ## Firing (R82, R83, R331) -/

/-- What a lane may do now: nothing yet; stop on a marker mismatch; or consume the heads of queues,
emit tokens one after another, and keep a state. -/
inductive Shot where
  | wait
  | mismatch
  | go (takes : List Nat) (emits : List Emit) (lane : Lane)
  deriving DecidableEq, Repr

/-- The head of a lane's queue. -/
def Core.head (k : Core) (n q : Nat) : Option Token := (k.queue (4 * n + q)).head?

/-- A token on the lane's own output. -/
def own (t : Token) : Emit := { tok := t }
def dataTok (v : Nat) : Token := { value := BitVec.ofNat 32 v }
def markTok (r : BitVec 3) : Token := { kind := r }
/-- A poisoned output carries the value 0 (R83). -/
def poisonTok : Token := { poison := true }

/-- Consume the head of each queue. -/
def Core.takeHeads (k : Core) (n : Nat) (qs : List Nat) : Core :=
  qs.foldl (fun k q => { k with queues := Tbl.set [] k.queues (4 * n + q) (k.queue (4 * n + q)).tail }) k

/-- The lane consumes its operands and keeps a state; the next firing comes at least the interval
later. -/
def State.takeShot (s : State) (c n : Nat) (w : LaneArgs) (takes : List Nat) (l : Lane) : State :=
  let due := if takes.isEmpty then l.due else s.cycle + w.rate.toNat + 1
  s.modCore c (fun k =>
    let k := k.takeHeads n takes
    { k with lanes := k.lanes.put n { l with due := due } })

/-- The lane of the seat fires: it waits for its interval and for room for the first token it emits,
and owes the tokens after that one (R82, R331). A firing that emits no token asks for no room
(notes/assumptions/78.md). -/
def shoot (w : LaneArgs) (f : Core → Nat → Lane → Shot) (s : State) : Result :=
  let c := s.seat.core
  let n := s.seat.lane
  match f s.here n (s.here.lane n) with
  | .wait => .next s
  | .mismatch => .next (s.laneStop c n)
  | .go takes emits l =>
    if !takes.isEmpty && s.cycle < (s.here.lane n).due then .next s
    else match emits with
      | [] => .next (s.takeShot c n w takes l)
      | e :: r =>
        if s.here.ready n e then .next ((s.takeShot c n w takes { l with out := r }).emitLane c n e)
        else .next s

/-! ## Elements (R33, R79) -/

def laneA (w : LaneArgs) : Nat := w.qa.toNat
def laneB (w : LaneArgs) : Nat := w.qb.toNat

/-- The element width of a format code. -/
def fmtWidth (f : BitVec 3) : Nat := if f.toNat ≤ 2 then 32 else if f.toNat ≤ 4 then 16 else 8
/-- Is it a format of signed integers? -/
def fmtSigned (f : BitVec 3) : Bool := f == 0 || f == 6
/-- Is it a format of integers? -/
def fmtInt (f : BitVec 3) : Bool := f == 0 || f == 1 || f == 6 || f == 7

/-- Element i of a token's value. -/
def elemAt (wd v i : Nat) : Nat := v / 2 ^ (wd * i) % 2 ^ wd

/-- Place elements from the lowest bits up, with their flags. -/
def joinElems (wd : Nat) : List (Nat × Flags) → Nat × Flags
  | [] => (0, 0)
  | (v, f) :: r =>
    let (x, g) := joinElems wd r
    (v % 2 ^ wd + 2 ^ wd * x, f ||| g)

/-- Apply an operation to each element of three operands. -/
def mapElems (wd : Nat) (op : Nat → Nat → Nat → Nat × Flags) (a b d : Nat) : Nat × Flags :=
  joinElems wd ((List.range (32 / wd)).map (fun i => op (elemAt wd a i) (elemAt wd b i) (elemAt wd d i)))

/-- The value of a floating-point element. -/
def fmtDecode (f : BitVec 3) (imm : BitVec 12) (v : Nat) : Fl :=
  if f = 2 then fp32.decode v
  else if f = 3 then bf16.decode v
  else if f = 4 then fp16.decode v
  else (B8.ofImm imm).decode v

/-- A value in a floating-point format, under a rounding mode. -/
def fmtEncode (f : BitVec 3) (imm : BitVec 12) (mode : Mode) (x : Fl) : Nat × Flags :=
  if f = 2 then fp32.encode mode x
  else if f = 3 then bf16.encode mode x
  else if f = 4 then fp16.encode mode x
  else (B8.ofImm imm).encode mode false x

/-- One element of the immediate operand (R79, R336, R348). -/
def immElem (f : BitVec 3) (imm : BitVec 12) : Nat :=
  if f = 0 ∨ f = 1 then (imm.signExtend 32).toNat
  else if f = 2 then imm.toNat * 2 ^ 20
  else if f = 3 then (bf16.encode .rne (fp32.decode (imm.toNat * 2 ^ 20))).1
  else if f = 4 then (fp16.encode .rne (fp32.decode (imm.toNat * 2 ^ 20))).1
  else (imm.extractLsb' 0 8).toNat

/-- The immediate operand: every element holds the constant. -/
def immWord (f : BitVec 3) (imm : BitVec 12) : Nat :=
  (joinElems (fmtWidth f) ((List.range (32 / fmtWidth f)).map (fun _ => (immElem f imm, 0)))).1

/-! ## Element operations (R83) -/

/-- The heads of several queues, when each has one. -/
def heads (k : Core) (n : Nat) : List Nat → Option (List Token)
  | [] => some []
  | q :: r =>
    match k.head n q, heads k n r with
    | some t, some l => some (t :: l)
    | _, _ => none

/-- The highest rank among markers. -/
def topRank (l : List Token) : BitVec 3 := l.foldl (fun r t => if r ≤ t.kind then t.kind else r) 0

/-- The shared rule of operations that read several queues: all heads are markers, or all are data. -/
def together (qs : List Nat) (l : Lane) (hs : List Token) (f : Shot) : Shot :=
  if hs.all (fun t => t.kind != 0) then .go qs [own (markTok (topRank hs))] l
  else if hs.all (fun t => t.kind == 0) then f
  else .mismatch

/-- An element operation that reads A, and B and C as `useB` and `useC` say. -/
def elementShot (w : LaneArgs) (useB useC : Bool) (op : Nat → Nat → Nat → Nat × Flags)
    (k : Core) (n : Nat) (l : Lane) : Shot :=
  let qs := [laneA w] ++ (if useB && !w.bimm then [laneB w] else []) ++ (if useC then [3] else [])
  match heads k n qs with
  | none => .wait
  | some hs =>
    together qs l hs
      (if hs.any (·.poison) then .go qs [own poisonTok] l
      else
        let v (i : Nat) : Nat := ((hs[i]?).map (fun t => t.value.toNat)).getD 0
        let b := if w.bimm then immWord w.fmt w.imm else v 1
        let c := if w.bimm || !useB then v 1 else v 2
        let (r, fl) := mapElems (fmtWidth w.fmt) op (v 0) b c
        .go qs [{ own (dataTok r) with flags := fl }] l)

def elementOp (w : LaneArgs) (useB useC : Bool) (op : Nat → Nat → Nat → Nat × Flags) (s : State) : Result :=
  shoot w (elementShot w useB useC op) s

/-- An integer operation on A, B and C (R348). -/
def intOp (w : LaneArgs) (useC : Bool) (op : Nat → Nat → Nat → Nat → Nat) (s : State) : Result :=
  elementOp w true useC (fun a b c => (op (fmtWidth w.fmt) a b c, 0)) s

/-- The comparison of two integer elements under the format's signedness. -/
def intLe (f : BitVec 3) (a b : Nat) : Bool :=
  decide (intVal (fmtSigned f) (fmtWidth f) a ≤ intVal (fmtSigned f) (fmtWidth f) b)

def execEiadd (w : LaneArgs) (s : State) : Result := intOp w false (fun _ a b _ => a + b) s
def execEisub (w : LaneArgs) (s : State) : Result := intOp w false (fun n a b _ => a + 2 ^ n - b) s
def execEimul (w : LaneArgs) (s : State) : Result := intOp w false (fun _ a b _ => a * b) s
def execEimac (w : LaneArgs) (s : State) : Result := intOp w true (fun _ a b c => a * b + c) s
def execEimin (w : LaneArgs) (s : State) : Result :=
  intOp w false (fun _ a b _ => if intLe w.fmt a b then a else b) s
def execEimax (w : LaneArgs) (s : State) : Result :=
  intOp w false (fun _ a b _ => if intLe w.fmt a b then b else a) s
def execEiand (w : LaneArgs) (s : State) : Result := intOp w false (fun _ a b _ => Nat.land a b) s
def execEior (w : LaneArgs) (s : State) : Result := intOp w false (fun _ a b _ => Nat.lor a b) s
def execEixor (w : LaneArgs) (s : State) : Result := intOp w false (fun _ a b _ => Nat.xor a b) s
def execEishl (w : LaneArgs) (s : State) : Result := intOp w false (fun n a b _ => a * 2 ^ (b % n)) s
def execEishr (w : LaneArgs) (s : State) : Result := intOp w false (fun n a b _ => a / 2 ^ (b % n)) s
/-- An arithmetic right shift of an n-bit element. -/
def sraElem (n a b : Nat) : Nat := (intVal true n a / (2 ^ (b % n) : Nat) % (2 ^ n : Nat)).toNat
def execEisra (w : LaneArgs) (s : State) : Result := intOp w false (fun n a b _ => sraElem n a b) s

/-- `eicmp`'s condition (R80). -/
def intCond (f : BitVec 3) (cc : BitVec 2) (a b : Nat) : Bool :=
  if cc = 0 then a == b else if cc = 1 then a != b
  else if cc = 2 then !intLe f b a else intLe f b a

def execEicmp (w : LaneArgs) (s : State) : Result :=
  intOp w false (fun _ a b _ => if intCond w.fmt (w.imm.extractLsb' 0 2) a b then 1 else 0) s

/-- A floating-point operation on the values of A, B and C, rounded once (R346). -/
def floatOp (w : LaneArgs) (useC : Bool) (op : Fl → Fl → Fl → Fl × Flags) (s : State) : Result :=
  elementOp w true useC (fun a b c =>
    let r := op (fmtDecode w.fmt w.imm a) (fmtDecode w.fmt w.imm b) (fmtDecode w.fmt w.imm c)
    let e := fmtEncode w.fmt w.imm .rne r.1
    (e.1, r.2 ||| e.2)) s

def execEfadd (w : LaneArgs) (s : State) : Result := floatOp w false (fun a b _ => a.add b) s
def execEfsub (w : LaneArgs) (s : State) : Result := floatOp w false (fun a b _ => a.add b.neg) s
def execEfmul (w : LaneArgs) (s : State) : Result := floatOp w false (fun a b _ => a.mul b) s
def execEffma (w : LaneArgs) (s : State) : Result := floatOp w true (fun a b c => a.fma b c) s
def execEfmin (w : LaneArgs) (s : State) : Result := floatOp w false (fun a b _ => Fl.minmax false a b) s
def execEfmax (w : LaneArgs) (s : State) : Result := floatOp w false (fun a b _ => Fl.minmax true a b) s

/-- `efcmp`'s condition and flag (R347). -/
def floatCond (cc : BitVec 3) (a b : Fl) : Bool × Flags :=
  let sg := a.sig ||| b.sig
  if a.isNaN || b.isNaN then
    (cc == 1 || cc == 4, sg ||| flagIf (cc == 2 || cc == 3) flNV)
  else
    let v := a.cmp false b
    (if cc = 0 then v == 0 else if cc = 1 then v != 0 else if cc = 2 then decide (v < 0)
      else if cc = 3 then decide (v ≤ 0) else false, sg)

/-- The compare condition's place depends on the format (R79). -/
def laneCc (w : LaneArgs) : BitVec 3 :=
  if w.fmt = 5 then w.imm.extractLsb' 7 3 else w.imm.extractLsb' 0 3

def execEfcmp (w : LaneArgs) (s : State) : Result :=
  elementOp w true false (fun a b _ =>
    let r := floatCond (laneCc w) (fmtDecode w.fmt w.imm a) (fmtDecode w.fmt w.imm b)
    (if r.1 then 1 else 0, r.2)) s

/-- One element converted (R341, R46). -/
def convert (src dst : BitVec 3) (imm : BitVec 12) (mode : Mode) (v : Nat) : Nat × Flags :=
  let x := if fmtInt src then Fl.ofInt (intVal (fmtSigned src) (fmtWidth src) v) else fmtDecode src imm v
  if src = dst ∧ x.isNaN = false then (v, 0)
  else if fmtInt dst then intOf mode (fmtSigned dst) (fmtWidth dst) x
  else
    let e := fmtEncode dst imm mode x
    (e.1, x.sig ||| e.2)

/-- Every element of a token converted; elements beyond the source's are zero. -/
def convertWord (w : LaneArgs) (v : Nat) : Nat × Flags :=
  let dst := w.imm.extractLsb' 7 3
  let mode := Mode.ofCode (w.imm.extractLsb' 5 2)
  let sw := fmtWidth w.fmt
  joinElems (fmtWidth dst) ((List.range (32 / fmtWidth dst)).map (fun i =>
    if i < 32 / sw then convert w.fmt dst w.imm mode (elemAt sw v i) else (0, 0)))

/-- An operation on A as a whole word. -/
def wordShot (w : LaneArgs) (op : Nat → Nat × Flags) (k : Core) (n : Nat) (l : Lane) : Shot :=
  match k.head n (laneA w) with
  | none => .wait
  | some t =>
    if t.kind ≠ 0 then .go [laneA w] [own (markTok t.kind)] l
    else if t.poison then .go [laneA w] [own poisonTok] l
    else .go [laneA w] [{ own (dataTok (op t.value.toNat).1) with flags := (op t.value.toNat).2 }] l

def execEcvt (w : LaneArgs) (s : State) : Result := shoot w (wordShot w (convertWord w)) s
def execEexp2 (w : LaneArgs) (s : State) : Result := shoot w (wordShot w (fun v => exp2F (fp32.decode v))) s
def execElog2 (w : LaneArgs) (s : State) : Result := shoot w (wordShot w (fun v => log2F (fp32.decode v))) s
def execErcp (w : LaneArgs) (s : State) : Result := shoot w (wordShot w (fun v => rcpF (fp32.decode v))) s
/-- Is it one of the formats whose NaN results are the default quiet NaN (R27)? -/
def fmtIeee (f : BitVec 3) : Bool := f == 2 || f == 3 || f == 4

/-- An element as a result: a NaN is the format's default quiet NaN (R27). -/
def quiet (f : BitVec 3) (v : Nat) : Nat :=
  if fmtIeee f && (fmtDecode f 0 v).isNaN then (fmtEncode f 0 .rne (.nan false)).1 else v

/-- The flag that a signalling NaN operand sets (R27). -/
def sigOf (f : BitVec 3) (v : Nat) : Flags := if fmtIeee f then (fmtDecode f 0 v).sig else 0

/-- Every element of a word as a result. -/
def quietWord (f : BitVec 3) (v : Nat) : Nat := (mapElems (fmtWidth f) (fun a _ _ => (quiet f a, 0)) v 0 0).1

def execEconst (w : LaneArgs) (s : State) : Result :=
  shoot w (wordShot w (fun _ => (quietWord w.fmt (immWord w.fmt w.imm), 0))) s
/-- C's element selects (R357); a NaN that is selected leaves as the default one (R27). -/
def execEsel (w : LaneArgs) (s : State) : Result :=
  elementOp w true true
    (fun a b c => (quiet w.fmt (if c != 0 then a else b), sigOf w.fmt a ||| sigOf w.fmt b)) s

/-! ## Steering (R84-R86) -/

/-- `esteer` and `eexit`: where a poisoned C sends A (R343, R359). -/
def steerShot (w : LaneArgs) (both : Bool) (k : Core) (n : Nat) (l : Lane) : Shot :=
  let qs := [laneA w, 3]
  match k.head n (laneA w), k.head n 3 with
  | some a, some c =>
    if a.kind ≠ 0 ∧ c.kind ≠ 0 then .go qs [{ arm1 := true, tok := markTok (topRank [a, c]) }] l
    else if a.kind ≠ 0 ∨ c.kind ≠ 0 then .mismatch
    else if c.poison then .go qs [{ arm1 := both, tok := { a with poison := true } }] l
    else if c.value = 0 then .go qs [own a] l
    else .go qs [{ arm0 := false, arm1 := true, tok := a }] l
  | _, _ => .wait

def execEsteer (w : LaneArgs) (s : State) : Result := shoot w (steerShot w true) s
def execEexit (w : LaneArgs) (s : State) : Result := shoot w (steerShot w false) s

/-- `emerge` (R352). -/
def mergeShot (w : LaneArgs) (k : Core) (n : Nat) (l : Lane) : Shot :=
  match k.head n 3 with
  | none => .wait
  | some c =>
    if c.kind ≠ 0 then .go [3] [own (markTok c.kind)] l
    else if c.poison then .go [3] [own poisonTok] l
    else
      let q := if c.value = 0 then laneA w else laneB w
      match k.head n q with
      | none => .wait
      | some d =>
        if d.kind ≠ 0 then .go [q] [own (markTok d.kind)] l
        else .go [3, q] [own d] l

def execEmerge (w : LaneArgs) (s : State) : Result := shoot w (mergeShot w) s

/-! ## Control operations (R342, R351, R355) -/

/-- Repeat a token n times: the first copy now, the rest owed (R355). -/
def repeatShot (qs : List Nat) (a : Token) (m : Nat) (l : Lane) : Shot :=
  if m = 0 then .go qs [] l
  else .go qs [own a] { l with count := m - 1, buf := if m = 1 then [] else [a] }

/-- `erep`: while copies are owed, one of them; else a firing. -/
def repShot (w : LaneArgs) (k : Core) (n : Nat) (l : Lane) : Shot :=
  match l.buf with
  | a :: _ => .go [] [own a] { l with count := l.count - 1, buf := if l.count ≤ 1 then [] else l.buf }
  | [] =>
    if w.bimm then
      match k.head n (laneA w) with
      | none => .wait
      | some a =>
        if a.kind ≠ 0 then .go [laneA w] [own (markTok a.kind)] l
        else repeatShot [laneA w] a (immWord w.fmt w.imm) l
    else
      match k.head n (laneA w), k.head n (laneB w) with
      | some a, some b =>
        together [laneA w, laneB w] l [a, b]
          (if b.poison then .go [laneA w, laneB w] [own poisonTok] l
          else repeatShot [laneA w, laneB w] a b.value.toNat l)
      | _, _ => .wait

def execErep (w : LaneArgs) (s : State) : Result := shoot w (repShot w) s

/-- Operations that read A only: `d` for data, `m` for markers (R342). -/
def passShot (w : LaneArgs) (data : Bool) (least : BitVec 3) (k : Core) (n : Nat) (l : Lane) : Shot :=
  match k.head n (laneA w) with
  | none => .wait
  | some t =>
    if t.kind ≠ 0 then .go [laneA w] (if least < t.kind then [own (markTok t.kind)] else []) l
    else .go [laneA w] (if data then [own t] else []) l

def execEstrip (w : LaneArgs) (s : State) : Result :=
  shoot w (passShot w true (w.imm.extractLsb' 0 3)) s
def execEpass (w : LaneArgs) (s : State) : Result := shoot w (passShot w true 0) s
def execEdrop (w : LaneArgs) (s : State) : Result := shoot w (passShot w false 0) s

/-- `emark` (R351). -/
def markShot (w : LaneArgs) (k : Core) (n : Nat) (l : Lane) : Shot :=
  match k.head n (laneA w) with
  | none => .wait
  | some t =>
    if t.kind ≠ 0 then .go [laneA w] [own (markTok t.kind)] { l with count := 0 }
    else if (w.imm.extractLsb' 3 9).toNat ≤ l.count then
      .go [laneA w] [own t, own (markTok (w.imm.extractLsb' 0 3))] { l with count := 0 }
    else .go [laneA w] [own t] { l with count := l.count + 1 }

def execEmark (w : LaneArgs) (s : State) : Result := shoot w (markShot w) s

/-! ## Segments (R337-R339) -/

/-- A segment's state cleared. -/
def Lane.fresh (l : Lane) : Lane := { l with acc := 0, count := 0, bad := false, buf := [], flags := 0 }

/-- The result of a segment and then its marker. -/
def closeSegment (w : LaneArgs) (l : Lane) (mark : BitVec 3) (r : Nat) (fl : Flags) : Shot :=
  .go [laneA w]
    [if l.bad then own poisonTok else { own (dataTok r) with flags := fl }, own (markTok mark)] l.fresh

/-- `ecount`. -/
def countShot (w : LaneArgs) (k : Core) (n : Nat) (l : Lane) : Shot :=
  match k.head n (laneA w) with
  | none => .wait
  | some t =>
    if t.kind ≠ 0 then closeSegment w l t.kind l.count 0
    else .go [laneA w] [] { l with count := l.count + 1, bad := l.bad || t.poison }

def execEcount (w : LaneArgs) (s : State) : Result := shoot w (countShot w) s

/-- What an empty segment's reduction gives (R337). -/
def redEmpty (f o : BitVec 3) : Nat :=
  if o = 1 then (if f = 0 then 0x7FFFFFFF else if f = 1 then 0xFFFFFFFF else 0x7F800000)
  else if o = 2 then (if f = 0 then 0x80000000 else if f = 1 then 0 else 0xFF800000)
  else if o = 3 then 0xFFFFFFFF else 0

/-- One step of a reduction (R338). -/
def redStep (f o : BitVec 3) (a b : Nat) : Nat × Flags :=
  if o = 3 then (Nat.land a b, 0)
  else if o = 4 then (Nat.lor a b, 0)
  else if o = 5 then (Nat.xor a b, 0)
  else if f = 2 then
    if o = 0 then addF a b
    else
      let r := Fl.minmax (o == 2) (fp32.decode a) (fp32.decode b)
      ((fp32.encode .rne r.1).1, r.2)
  else if o = 0 then (a + b, 0)
  else (if intLe f a b == (o == 1) then a else b, 0)

/-- The result of a reduction and its flags (R27, R337, R338): one element alone is a result too, so a NaN
leaves as the default one; and, or and xor work on the bits. -/
def redResult (f o : BitVec 3) (l : Lane) : Nat × Flags :=
  if l.count = 0 then (redEmpty f o, l.flags)
  else if l.count = 1 ∧ f = 2 ∧ o.toNat < 3 then (quiet f l.acc.toNat, sigOf f l.acc.toNat)
  else (l.acc.toNat, l.flags)

/-- `ered`. -/
def redShot (w : LaneArgs) (k : Core) (n : Nat) (l : Lane) : Shot :=
  let o := w.imm.extractLsb' 0 3
  match k.head n (laneA w) with
  | none => .wait
  | some t =>
    if t.kind ≠ 0 then
      closeSegment w l t.kind (redResult w.fmt o l).1 (redResult w.fmt o l).2
    else if l.count = 0 then
      .go [laneA w] [] { l with acc := t.value, count := 1, bad := l.bad || t.poison }
    else
      let r := redStep w.fmt o l.acc.toNat t.value.toNat
      .go [laneA w] [] { l with
        acc := BitVec.ofNat 32 r.1, count := l.count + 1, bad := l.bad || t.poison, flags := l.flags ||| r.2 }

def execEred (w : LaneArgs) (s : State) : Result := shoot w (redShot w) s

/-- `else2`: it holds 256 tokens; one more stops the lane (R339). -/
def lseShot (w : LaneArgs) (k : Core) (n : Nat) (l : Lane) : Shot :=
  match k.head n (laneA w) with
  | none => .wait
  | some t =>
    if t.kind ≠ 0 then
      let l := { l with bad := l.buf.any (·.poison) }
      let r := lse2F (l.buf.map (fun t => t.value.toNat))
      closeSegment w l t.kind r.1 r.2
    else if 256 ≤ l.buf.length then .mismatch
    else .go [laneA w] [] { l with buf := l.buf ++ [t] }

def execElse2 (w : LaneArgs) (s : State) : Result := shoot w (lseShot w) s

/-! ## Blocks (R87, R333-R335) -/

/-- The element format of a block: MXINT8 or a b8pP variant. -/
def laneBlock (w : LaneArgs) : Option B8 :=
  if w.imm.extractLsb' 0 3 = 0 then none else some (B8.ofImm w.imm)

/-- Data tokens with a firing's flags on the last of them, and then a closing marker, if any. -/
def blockOut (l : List Token) (fl : Flags) (mark : BitVec 3) : List Emit :=
  (l.dropLast.map own) ++ (l.getLast?.map (fun t => { own t with flags := fl })).toList
    ++ (if mark = 0 then [] else [own (markTok mark)])

/-- The 33 tokens of a quantised block. -/
def quantBlock (w : LaneArgs) (l : List Token) : List Token × Flags :=
  if l.any (·.poison) then (List.replicate 33 poisonTok, 0)
  else
    let vs := l.map (fun t => t.value.toNat) ++ List.replicate (32 - l.length) 0
    let (sc, es, fl) := quantise (laneBlock w) vs
    ((sc :: es).map dataTok, fl)

/-- `ebq`. -/
def quantShot (w : LaneArgs) (k : Core) (n : Nat) (l : Lane) : Shot :=
  match k.head n (laneA w) with
  | none => .wait
  | some t =>
    if t.kind ≠ 0 then
      .go [laneA w] (blockOut (quantBlock w l.buf).1 (quantBlock w l.buf).2 t.kind) l.fresh
    else if 31 ≤ l.buf.length then
      .go [laneA w] (blockOut (quantBlock w (l.buf ++ [t])).1 (quantBlock w (l.buf ++ [t])).2 0) l.fresh
    else .go [laneA w] [] { l with buf := l.buf ++ [t] }

def execEbq (w : LaneArgs) (s : State) : Result := shoot w (quantShot w) s

/-- The 32 tokens of a dequantised block: a scale token and its elements, zero codes to the end. -/
def dequantBlock (w : LaneArgs) (sc : Token) (es : List Token) : List Token × Flags :=
  let l := es ++ List.replicate (32 - es.length) (dataTok 0)
  let out := l.map (fun e =>
    if sc.poison || e.poison then (poisonTok, (0 : Flags))
    else
      let r := dequantElem (laneBlock w) (sc.value.extractLsb' 0 8).toNat (e.value.extractLsb' 0 8).toNat
      (dataTok r.1, r.2))
  (out.map Prod.fst, out.foldl (fun f x => f ||| x.2) 0)

/-- `ebdq` (R334). -/
def dequantShot (w : LaneArgs) (k : Core) (n : Nat) (l : Lane) : Shot :=
  match k.head n (laneA w), l.buf with
  | none, _ => .wait
  | some t, [] => if t.kind ≠ 0 then .go [laneA w] [own (markTok t.kind)] l else .go [laneA w] [] { l with buf := [t] }
  | some t, sc :: es =>
    if t.kind ≠ 0 then
      .go [laneA w] (blockOut (dequantBlock w sc es).1 (dequantBlock w sc es).2 t.kind) l.fresh
    else if 31 ≤ es.length then
      .go [laneA w] (blockOut (dequantBlock w sc (es ++ [t])).1 (dequantBlock w sc (es ++ [t])).2 0) l.fresh
    else .go [laneA w] [] { l with buf := sc :: es ++ [t] }

def execEbdq (w : LaneArgs) (s : State) : Result := shoot w (dequantShot w) s

/-! ## Memory nodes (R89-R91, R349, R350) -/

/-- The done tokens that lane `dst` holds from lane `src`. -/
def Core.dones' (k : Core) (src dst : Nat) : Nat := Tbl.get 0 k.dones (src * 16 + dst)

/-- Does lane `dst` wait for the done tokens of lane `src`? -/
def Core.waitsFor (k : Core) (src dst : Nat) : Bool := (Tbl.get 0 k.region.masks dst).getLsbD src

/-- May lane n fire: would none of the lanes that wait on it hold more than 255 of its done tokens (R91)? -/
def Core.mayGive (k : Core) (n : Nat) (scope : BitVec 2) : Bool :=
  let busy := (k.memreqs.filter (fun m => m.lane == n && !m.seen)).length
  scope == 0 || (List.range 16).all (fun j => !k.waitsFor n j || k.dones' n j + busy < 255)

/-- May lane n access: it has a done token from every lane of its mask (R91)? -/
def Core.mayAccess (k : Core) (n : Nat) : Bool :=
  (List.range 16).all (fun j => !k.waitsFor j n || k.dones' j n != 0)

/-- Consume a done token from every lane of the mask. -/
def Core.takeDones (k : Core) (n : Nat) : Core :=
  (List.range 16).foldl (fun k j =>
    if k.waitsFor j n then { k with dones := Tbl.set 0 k.dones (j * 16 + n) (k.dones' j n - 1) } else k) k

/-- Give a done token to every lane that waits on lane n; scope 0 gives none. -/
def Core.giveDones (k : Core) (n : Nat) (scope : BitVec 2) : Core :=
  if scope = 0 then k
  else (List.range 16).foldl (fun k j =>
    if k.waitsFor n j then { k with dones := Tbl.set 0 k.dones (n * 16 + j) (k.dones' n j + 1) } else k) k

/-- A memory node's access stalls, reported once (R90, R119). -/
def State.stallNode (s : State) (c : Nat) (m : MemReq) (cause : Nat) : State :=
  s.stallLane c m.lane m.seq cause m.addr

/-- The accesses of a lane that have not left it, in firing order. -/
def Core.reqsOf (k : Core) (n : Nat) : List MemReq := k.memreqs.filter (fun m => m.lane == n)

/-- The words of the lane's leading accesses that have taken place leave on its output, in firing order
(R82); `est` emits nothing. -/
def State.nodeFlush (s : State) (c n : Nat) : State :=
  let out := ((s.core c).reqsOf n).takeWhile (·.seen)
  let s := s.modCore c (fun k => { k with memreqs := k.memreqs.filter (fun m => !(out.any (fun x => x.lane == m.lane && x.seq == m.seq))) })
  out.foldl (fun s m =>
    match m.op, m.res with
    | .est, _ => s
    | _, some (v, bad) => s.emit c n { poison := bad, value := v }
    | _, none => s) s

/-- An access has taken place: its done token is given, and its word leaves the lane when those of the
earlier firings have left (R82, R91). -/
def State.nodeDone (s : State) (c : Nat) (m : MemReq) (v : Nat) (bad : Bool) : State :=
  let s := s.modCore c (fun k =>
    ({ k with memreqs := k.memreqs.map (fun x =>
      if x.lane = m.lane ∧ x.seq = m.seq then { x with seen := true, res := some (BitVec.ofNat 32 v, bad) } else x) }
      : Core).giveDones m.lane m.scope)
  s.nodeFlush c m.lane

/-- An access to a scratchpad, at the target's port (R139, R233, R234). -/
def State.nodeScratch (s : State) (c t off : Nat) (m : MemReq) : State :=
  let old := leNat (s.spBytes t off 4)
  let bad := s.isBad (lineKey t (off / 128))
  match m.op with
  | .eld => s.nodeDone c m old bad
  | .est => (s.spStore t off (leBytes m.b.value.toNat 4) m.b.poison true).nodeDone c m 0 false
  | _ =>
    let s := if bad then s
      else s.spStore t off (leBytes (atomicOp m.amo 32 old m.b.value.toNat) 4) m.b.poison false
    s.nodeDone c m old bad

/-- May a lane's access take place that follows these: no earlier one of the lane has stalled, and none to the
same 4-byte word is to come before it (R119, R177, R350)? -/
def mayGo (l : List MemReq) (m : MemReq) : Bool :=
  l.all (fun x => x.lane != m.lane || (!x.stalled && (x.seen || x.addr / 4 != m.addr / 4)))

/-- The access at an index takes place, or stalls its node. Accesses to different words take place in any
order (R177). -/
def State.nodeReply (s : State) (c i : Nat) : State :=
  match (s.core c).memreqs[i]? with
  | none => s
  | some m =>
    if m.stalled || m.seen || !mayGo ((s.core c).memreqs.take i) m then s
    else match placeOf c m.addr 4 with
      | .bad => s.stallNode c m 4
      | .scratch t off =>
        if m.addr.toNat % 4 ≠ 0 then s.stallNode c m 5
        else if s.fenced c 3 m.seq || (s.core t).wordHeld off 4 then s
        else s.nodeScratch c t off m
      | .global =>
        if m.addr.toNat % 4 ≠ 0 then s.stallNode c m 5
        else match m.op with
          | .ermw => match m.res with
            | some (v, bad) => s.nodeDone c m v.toNat bad
            | none => s
          | op =>
            let p := (s.core c).part
            let write := op == .est
            if s.fenced c 3 m.seq then s
            else if (s.translateAll (dieOf c) p m.addr.toNat write 4).isNone then s.stallNode c m 6
            else match s.takeTokens c 4 with
              | (s, false) => s
              | (s, true) =>
                if write then
                  match s.gWrite (dieOf c) p m.addr.toNat (leBytes m.b.value.toNat 4) m.b.poison with
                  | some s => s.nodeDone c m 0 false
                  | none => s
                else match s.gRead (dieOf c) p m.addr.toNat 4 with
                  | some (s, bytes, bad) => s.nodeDone c m (leNat bytes) bad
                  | none => s

/-- MEMORY_NODE_REPLY (R90, R91, R350): the idx-th of a core's accesses in flight. -/
def execMemoryNodeReply (c idx : Nat) (s : State) : Result := .next (s.nodeReply c idx)

/-- Begin an access: the request leaves the lane; a global `ermw` goes to the Detent; a local scratchpad
access takes place at once when it may. -/
def State.nodeAccess (s : State) (c n : Nat) (m : MemReq) : State :=
  let i := (s.core c).memreqs.length
  let s := (s.modCore c (fun k => { k.takeDones n with memreqs := k.memreqs ++ [m] })).bump
  match placeOf c m.addr 4 with
  | .global =>
    if m.op = .ermw ∧ m.addr.toNat % 4 = 0 then
      State.next (s.toDetent
        { id := s.fresh, at_ := s.cycle, core := c, lane := some n, part := (s.core c).part, op := m.amo, size := 4
          va := m.addr, b := m.b.value.setWidth 64, bad := m.b.poison, scope := m.scope, seq := m.seq })
    else s
  | .scratch t _ => if t = c then s.nodeReply c i else s
  | .bad => s.nodeReply c i

/-- A firing on a poisoned offset accesses nothing and gives its done token at once (R90, R91); its
poisoned 0 leaves in firing order. -/
def State.nodePoison (s : State) (c : Nat) (m : MemReq) : State :=
  ((s.modCore c (fun k => { k with memreqs := k.memreqs ++ [m] })).bump).nodeDone c m 0 true

/-- A memory node fires: markers pass once the node's earlier words have left, a poisoned offset accesses
nothing, and an access that would follow a stalled one waits (R90, R91). -/
def memoryNode (op : LaneOp) (w : LaneArgs) (s : State) : Result :=
  let c := s.seat.core
  let n := s.seat.lane
  let k := s.here
  let qs := if op = .eld then [laneA w] else [laneA w, laneB w]
  let scope := w.imm.extractLsb' 4 2
  let busy := !(k.reqsOf n).isEmpty
  match heads k n qs with
  | none => .next s
  | some hs =>
    let a := hs.headD {}
    if hs.all (fun t => t.kind != 0) then
      if busy then .next s else shoot w (fun _ _ l => .go qs [own (markTok (topRank hs))] l) s
    else if !hs.all (fun t => t.kind == 0) then .next (s.laneStop c n)
    else if s.cycle < (k.lane n).due || !k.mayGive n scope || (k.reqsOf n).any (·.stalled) then .next s
    else if op ≠ .est ∧ k.ready n (own poisonTok) = false then .next s
    else
      let m : MemReq :=
        { lane := n, op := op, addr := Tbl.get 0 k.region.bases n + a.value.setWidth 64,
          amo := w.imm.extractLsb' 0 4, scope := scope, b := hs[1]?.getD {}, seq := s.opSeq }
      if a.poison then .next ((s.takeShot c n w qs (k.lane n)).nodePoison c m)
      else if !k.mayAccess n then .next s
      else .next ((s.takeShot c n w qs (k.lane n)).nodeAccess c n m)

def execEld (w : LaneArgs) (s : State) : Result := memoryNode .eld w s
def execEst (w : LaneArgs) (s : State) : Result := memoryNode .est w s
def execErmw (w : LaneArgs) (s : State) : Result := memoryNode .ermw w s

end Sys2Proof.Machine
end

