-- ==== Sys2Proof/Machine/Loader.lean ====
section
/-!
DEFINITION. The loader: the CLF object (R277-R285), the eight checks of a load (R286), placement of global
sections and relocation (R280), and unloading (R287). Which parts of the file hold what the rules do not
place is in notes/assumptions/64.md.
-/

namespace Sys2Proof.Machine

/-! ## The file (R277-R281) -/

/-- The header of an object file (R277). -/
structure Clf where
  nsect   : Nat
  sectoff : Nat
  symoff  : Nat
  nsym    : Nat
  reloff  : Nat
  nrel    : Nat
  stroff  : Nat
  strsize : Nat
  sigoff  : Nat
  deriving DecidableEq, Repr

/-- Are all bytes of a range of the file zero? -/
def zeros (b : List Byte) (off n : Nat) : Bool := ((b.drop off).take n).all (· == 0)

def clfHeader (f : List Byte) : Clf :=
  { nsect := field f 8 4, sectoff := field f 12 4, symoff := field f 16 4, nsym := field f 20 4
    reloff := field f 24 4, nrel := field f 28 4, stroff := field f 32 4, strsize := field f 36 4
    sigoff := field f 40 4 }

/-- A part of the file. -/
def slice (b : List Byte) (off n : Nat) : List Byte := (b.drop off).take n

/-- The entries of a table of the file. -/
def entries (f : List Byte) (off n size : Nat) : List (List Byte) := chunks size n (slice f off (n * size))

/-- The section that an entry describes (R278). -/
def clfSection (f e : List Byte) : Section :=
  { kind := field e 4 1, space := field e 5 1, fill := field e 6 1 == 1, node := field e 8 4
    graph := field e 12 4, org := field e 16 8, data := slice f (field e 24 4) (field e 28 4) }

def clfSections (f : List Byte) : List Section :=
  let h := clfHeader f
  (entries f h.sectoff h.nsect 32).map (clfSection f)

/-- The sections of one kind, in table order. -/
def ofKind (l : List Section) (k : Nat) : List Section := l.filter (fun x => x.kind == k)

/-! ## Graphs (R281, R282) -/

/-- The port records of a graph section. -/
def graphPorts (b : List Byte) : List (List Byte) :=
  entries b (16 + 64 * field b 4 2) (field b 6 2) 16

def graphNodes (b : List Byte) : List (List Byte) := entries b 16 (field b 4 2) 64

def graphEdges (b : List Byte) : List GEdge :=
  (entries b (16 + 64 * field b 4 2 + 16 * field b 6 2) (field b 8 2) 8).map (fun e =>
    { src := field e 0 2, sport := field e 2 1, dst := field e 4 2, dport := field e 6 1
      ctl := field e 7 1 == 1 })

/-- The port records of a node. -/
def nodePorts (ports : List (List Byte)) (n : List Byte) : List (List Byte) :=
  (ports.drop (field n 42 2)).take (field n 41 1)

/-- The node that owns a port record, and the record's port number: where a shape word arrives (R156). -/
def portOwner (nodes ports : List (List Byte)) (i : Nat) : Option (Nat × Nat) :=
  match (enum nodes).find? (fun n => field n.2 42 2 ≤ i && decide (i < field n.2 42 2 + field n.2 41 1)), ports[i]? with
  | some n, some p => some (n.1, field p 0 1)
  | _, _ => none

/-- A port (R274, R281). -/
def clfPort (nodes ports : List (List Byte)) (p : List Byte) : GPort :=
  let fl : BitVec 8 := BitVec.ofNat 8 (field p 5 1)
  { num := field p 0 1, out := field p 1 1 == 1, fmt := BitVec.ofNat 3 (field p 2 1)
    b8 := BitVec.ofNat 5 (field p 3 1), rank := field p 4 1, retain := fl.getLsbD 0
    rowtag := if fl.getLsbD 1 then some (field p 6 1) else none
    shape := if fl.getLsbD 2 then portOwner nodes ports (field p 8 2) else none
    multi := fl.getLsbD 3 }

/-- A node's local and `.text` sections, in table order (R282). -/
def nodeSections (l : List Section) (g n : Nat) : List Section :=
  l.filter (fun x => x.graph == g && x.node == n && (x.space == 0 || x.space == 1))

/-- How many switch words a node has: what its configuration record's length leaves for them (R282). -/
def switchCount (l : List Section) (g n : Nat) (rec : List Byte) : Nat :=
  let fixed := (if field rec 36 1 = 1 then 4 else 0) + 16 * field rec 41 1
    + ((nodeSections l g n).map (fun x => 12 + x.data.length)).sum
  (field rec 60 4 - fixed) / 2

/-- Share a list out in runs of the given lengths. -/
def deal {α : Type} : List Nat → List α → List (List α)
  | [], _ => []
  | n :: r, l => l.take n :: deal r (l.drop n)

/-- The bytes of the sections of a kind of one graph, one after the other. -/
def graphBytes (l : List Section) (k g : Nat) : List Byte :=
  ((ofKind l k).filter (fun x => x.graph == g)).flatMap (·.data)

/-- Does a task program hold a word that makes its node volatile (R146)? -/
def volatileWord (w : W32) : Bool :=
  match decodeControl w with
  | .ok (.ldg _ _ _ _) => true
  | .ok (.amo _ _ _ _ _ _ _) => true
  | .ok (.amocas _ _ _ _ _ _) => true
  | .ok (.mfs _ _ n) => n == 2
  | _ => false

/-- The task-table entries of a task node (R56, R271). -/
def nodeTasks (l : List Section) (g n : Nat) : List (Nat × BitVec 128) :=
  ((ofKind l 4).filter (fun x => x.space == 3 && x.graph == g && x.node == n)).flatMap (fun x =>
    (chunks 20 x.data.length x.data).map (fun e => (field e 0 4, BitVec.ofNat 128 (field e 4 16))))

/-- The nodes of graph g, whose section holds the bytes b. -/
def clfNodes (l : List Section) (g : Nat) (b : List Byte) : List GNode :=
  let recs := graphNodes b
  let ports := graphPorts b
  let sws := deal ((enum recs).map (fun x => switchCount l g x.1 x.2))
    ((chunks 2 (graphBytes l 3 g).length (graphBytes l 3 g)).map (fun x => BitVec.ofNat 16 (leNat x)))
  let lanes := deal (recs.map (fun r => if field r 36 1 = 1 then 1 else 0)) (words32 (graphBytes l 2 g))
  (enum recs).map (fun x =>
    let r := x.2
    let word : W32 := ((lanes[x.1]?).bind List.head?).getD 0
    let text := (nodeSections l g x.1).filter (fun y => y.space == 0)
    let eop := word.toNat / 2 ^ 24
    { id := slice r 0 32, kind := field r 36 1
      vol := field r 37 1 % 2 == 1 || (field r 36 1 == 1 && 0x60 ≤ eop && eop ≤ 0x62)
        || text.any (fun y => (words32 y.data).any volatileWord)
      vcl := field r 38 1, core := field r 39 1, lane := field r 40 1
      ports := (nodePorts ports r).map (clfPort recs ports)
      base := BitVec.ofNat 64 (field r 44 8), dwait := BitVec.ofNat 16 (field r 52 2)
      word := word, sw := (sws[x.1]?).getD [], tasks := nodeTasks l g x.1 })

def clfGraphs (l : List Section) : List GGraph :=
  (enum (ofKind l 6)).map (fun x => { nodes := clfNodes l x.1 x.2.data, edges := graphEdges x.2.data })

/-- Put a switch word in its place by destination (R282). -/
def bySwDest (w : BitVec 16) : List (BitVec 16) → List (BitVec 16)
  | [] => [w]
  | x :: r => if (w.extractLsb' 4 7).toNat < (x.extractLsb' 4 7).toNat then w :: x :: r else x :: bySwDest w r

/-- A node's configuration record (R282). -/
def configRecord (l : List Section) (g n : Nat) (node : GNode) (ports : List (List Byte)) : List Byte :=
  (if node.kind = 1 then leBytes node.word.toNat 4 else [])
    ++ (node.sw.foldl (fun a w => bySwDest w a) []).flatMap (fun w => leBytes w.toNat 2)
    ++ ports.flatMap (fun p => slice p 0 12 ++ List.replicate 4 0)
    ++ (nodeSections l g n).flatMap (fun x => leBytes x.org 8 ++ leBytes x.data.length 4 ++ x.data)

/-! ## Launch graphs and names (R283, R284) -/

/-- A list of node indices with 0xFFFF for an unused place. -/
def indices (b : List Byte) (n : Nat) : List Nat := (chunks 2 8 b).take n |>.map leNat

def clfLNode (b : List Byte) : Node :=
  { kind := field b 0 1, npred := field b 1 1, succ := indices (slice b 8 16) (field b 2 1)
    alt := indices (slice b 24 16) (field b 3 1), first := field b 4 2, last := field b 6 2
    arg0 := BitVec.ofNat 64 (field b 40 8), arg1 := BitVec.ofNat 64 (field b 48 8)
    arg2 := BitVec.ofNat 32 (field b 56 4), encl := field b 60 2 }

def clfLGraph (b : List Byte) : List Node := (entries b 16 (field b 4 2) 64).map clfLNode

def clfNames (l : List Section) : List (Nat × Nat × Nat) :=
  (ofKind l 8).flatMap (fun x =>
    (chunks 8 x.data.length x.data).map (fun e => (field e 0 2, field e 2 2, field e 4 1)))

/-! ## The checks of R286 -/

/-- The index of the first entry that fails a test. -/
def firstBad {α : Type} (l : List α) (bad : Nat → α → Bool) : Option Nat :=
  ((enum l).find? (fun x => bad x.1 x.2)).map (·.1)

/-- Check 1: the signature, and a key that the partition accepts (R285). -/
def check1 (accept : List (List Byte)) (f : List Byte) : Option Nat :=
  let off := (clfHeader f).sigoff
  let key := slice f (off + 64) 64
  if f.length < 64 || f.length < off + 128 || !accept.contains key then some 0
  else if ecdsaVerify key (slice f off 64) (sha256 (f.take off)) then none else some 0

/-- A graph section that does not hold what its header says, or holds a nonzero reserved byte (R281). -/
def badGraph (b : List Byte) : Bool :=
  let recs := graphNodes b
  let np := field b 6 2
  b.length < 16 || b.length < 16 + 64 * field b 4 2 + 16 * np + 8 * field b 8 2 || !zeros b 10 6
    || recs.any (fun r => field r 36 1 == 0 || 4 < field r 36 1 || 1 < field r 37 1 || !zeros r 54 2
        || np < field r 42 2 + field r 41 1)
    || (graphPorts b).any (fun p => 15 < field p 5 1 || !zeros p 7 1 || !zeros p 10 2 || 1 < field p 1 1)
    || (entries b (16 + 64 * field b 4 2 + 16 * np) (field b 8 2) 8).any (fun e =>
        !zeros e 3 1 || field b 4 2 ≤ field e 0 2 || field b 4 2 ≤ field e 4 2 || 1 < field e 7 1)

/-- A launch-graph section that does not hold what its header says, or a nonzero reserved byte (R283). -/
def badLGraph (b : List Byte) : Bool :=
  b.length < 16 || b.length < 16 + 64 * field b 4 2 || !zeros b 6 10
    || (entries b 16 (field b 4 2) 64).any (fun n => !zeros n 62 2 || (field n 0 1 != 4 && !zeros n 4 4))

/-- Check 2: magic, version, length, tables and sections inside the file, reserved bytes (R277-R284). -/
def check2 (f : List Byte) : Option Nat :=
  let h := clfHeader f
  let inside (off n : Nat) : Bool := off + n ≤ f.length
  if slice f 0 4 != [0x43, 0x4C, 0x46, 0x01] || field f 4 2 != 1 || field f 44 4 != f.length
      || !zeros f 6 2 || !zeros f 48 16
      || !inside h.sectoff (32 * h.nsect) || !inside h.symoff (16 * h.nsym) || !inside h.reloff (24 * h.nrel)
      || !inside h.stroff h.strsize || !inside h.sigoff 128
      || (entries f h.reloff h.nrel 24).any (fun r => !zeros r 9 3) then some 0
  else firstBad (entries f h.sectoff h.nsect 32) (fun _ e =>
    let x := clfSection f e
    !inside (field e 24 4) (field e 28 4) || x.kind == 0 || 8 < x.kind || 3 < x.space || 1 < field e 6 1
      || (x.kind == 6 && badGraph x.data) || (x.kind == 7 && badLGraph x.data)
      || (x.kind == 8 && (x.data.length % 8 != 0 || (chunks 8 x.data.length x.data).any (fun e => !zeros e 5 3))))

/-- The parts of an `li` word: guard, destination, immediate. -/
def liParts (w : W32) : Option (Guard × Reg × BitVec 17) :=
  match decodeControl w with
  | .ok (.li g d imm) => some (g, d, imm)
  | _ => none

/-- The parts of a `bins` word that inserts 16 bits: guard, destination, source, offset. -/
def binsParts (w : W32) : Option (Guard × Reg × Reg × Nat) :=
  match decodeControl w with
  | .ok (.bins g d a off wm1) => if wm1 = 15 then some (g, d, a, off.toNat) else none
  | _ => none

/-- Do 7 words form an `la` (R268): one guard, two different registers that are not g0, and immediates with bit 16
clear? -/
def isLa (w : List W32) : Bool :=
  match w with
  | [w0, w1, w2, w3, w4, w5, w6] =>
    match liParts w0, liParts w1 with
    | some (g, d, i0), some (g1, t, i1) =>
      let li (w : W32) : Bool := (liParts w).any (fun x => x.1 == g && x.2.1 == t && !x.2.2.getLsbD 16)
      let bins (w : W32) (off : Nat) : Bool := binsParts w == some (g, d, t, off)
      g1 == g && d != t && d != 0 && t != 0 && !i0.getLsbD 16 && !i1.getLsbD 16
        && bins w2 16 && li w3 && bins w4 32 && li w5 && bins w6 48
    | _, _ => false
  | _ => false

/-- Check 3: relocation types and targets (R280). -/
def check3 (f : List Byte) (l : List Section) : Option Nat :=
  let h := clfHeader f
  firstBad (entries f h.reloff h.nrel 24) (fun _ r =>
    match l[field r 0 4]? with
    | none => true
    | some x =>
      let off := field r 4 4
      h.nsym ≤ field r 12 4
        || (match field r 8 1 with
            | 1 => x.data.length < off + 8
            | 2 => x.kind != 1 || off % 4 != 0 || x.data.length < off + 28 || !isLa (words32 (slice x.data off 28))
            | _ => true))

/-- Number the nodes of all graphs: graph, node index and node. -/
def allNodes (gs : List GGraph) : List (Nat × Nat × GNode) :=
  (enum gs).flatMap (fun g => (enum g.2.nodes).map (fun n => (g.1, n.1, n.2)))

/-- Check 4: stored node identities (R144, R282). -/
def check4 (l : List Section) (gs : List GGraph) : Option Nat :=
  firstBad (allNodes gs) (fun _ x =>
    let b := (((ofKind l 6)[x.1]?).map (·.data)).getD []
    let ports := (((graphNodes b)[x.2.1]?).map (nodePorts (graphPorts b))).getD []
    sha256 (configRecord l x.1 x.2.1 x.2.2 ports) != x.2.2.id)

/-- Check 5: placement in the partition's map, lanes and task slots (R201, R274). -/
def check5 (nvcl : Nat) (gs : List GGraph) : Option Nat :=
  let ns := allNodes gs
  firstBad ns (fun i x =>
    let n := x.2.2
    let peer (y : Nat × Nat × GNode) : Bool := y.1 == x.1 && y.2.2.vcl == n.vcl && y.2.2.core == n.core
    let before := (ns.take i).filter peer
    let slots := n.tasks.map (·.1)
    nvcl ≤ n.vcl || 95 < n.core || (n.kind == 1 && 15 < n.lane)
      || (n.kind == 1 && before.any (fun y => y.2.2.kind == 1 && y.2.2.lane == n.lane))
      || slots.any (fun t => 31 < t || before.any (fun y => y.2.2.tasks.any (fun z => z.1 == t)))
      || slots.eraseDups.length != slots.length)

/-- The length of a section in its own units: words of `.text`, bytes of a local section. -/
def Section.extent (x : Section) : Nat := if x.space = 0 then x.data.length / 4 else x.data.length

/-- Check 6: sections that overlap on one core or leave its store or scratchpad (R269). -/
def check6 (l : List Section) (gs : List GGraph) : Option Nat :=
  let place (x : Section) : Option (Nat × Nat) :=
    ((gs[x.graph]?).bind (fun g => g.nodes[x.node]?)).map (fun n => (n.vcl, n.core))
  firstBad l (fun i x =>
    (x.space == 0 && (16384 < x.org + x.extent || x.data.length % 4 != 0))
      || (x.space == 1 && 0x80000 < x.org + x.extent)
      || (x.space < 2 && (l.take i).any (fun y =>
          y.space == x.space && y.graph == x.graph && place x == place y && (place x).isSome
            && x.org < y.org + y.extent && y.org < x.org + x.extent)))

/-- The simple paths of lanes from a node to a lane: the nodes between the two. -/
def lanePaths (g : GGraph) (goal : Nat) : Nat → List Nat → Nat → List (List Nat)
  | 0, _, _ => []
  | f + 1, seen, v =>
    if v = goal then [[]]
    else if g.kind v ≠ 1 ∨ seen.contains v then []
    else ((g.edges.filter (fun e => e.src == v)).flatMap (fun e => lanePaths g goal f (v :: seen) e.dst)).map (v :: ·)

/-- The latency of a path (R88). -/
def pathLatency (g : GGraph) (p : List Nat) : Nat :=
  (p.map (fun n => match g.nodes[n]? with
    | some x => if laneEop x = 0x70 ∨ laneEop x = 0x71 then 33 else 1
    | none => 1)).sum

/-- Do two paths that leave one source and rejoin at one lane fail R88? -/
def unbalanced (g : GGraph) (a b : List Nat) : Bool := 8 * (b.length + 1) < pathLatency g a - pathLatency g b

/-- Does some pair of paths that rejoins at a lane fail R88? -/
def unbalancedAt (g : GGraph) (v : Nat) : Bool :=
  g.kind v == 1 && (List.range g.nodes.length).any (fun o =>
    let ps := (enum (g.edges.filter (fun e => e.src == o))).flatMap (fun e =>
      (lanePaths g v (g.nodes.length + 1) [o] e.2.dst).map (fun p => (e.1, p)))
    (g.kind o == 1 || g.kind o == 3) && ps.any (fun a => ps.any (fun b => a.1 != b.1 && unbalanced g a.2 b.2)))

/-- The rank rule of R142: every input of a node with an output of rank k has rank k or 0. -/
def badRank (n : GNode) : Bool :=
  n.ports.any (fun p => p.out && p.rank != 0 && n.ports.any (fun q => !q.out && q.rank != 0 && q.rank != p.rank))

def check7rank (gs : List GGraph) : Option Nat := firstBad (allNodes gs) (fun _ x => badRank x.2.2)

/-- Check 7 but for the rank rule: `retain` on a volatile node, path balance (R146, R88). -/
def check7 (gs : List GGraph) : Option Nat :=
  (firstBad (allNodes gs) (fun _ x => x.2.2.vol && x.2.2.ports.any (·.retain))).orElse (fun _ =>
    firstBad (allNodes gs) (fun _ x => ((gs[x.1]?).map (fun g => unbalancedAt g x.2.1)).getD false))

/-- The successors of a launch-graph node, on either arm. -/
def Node.next (n : Node) : List Nat := n.succ ++ n.alt

/-- The depth of loop nesting of a node, up to a bound. -/
def loopDepth (l : List Node) : Nat → Nat → Nat
  | 0, _ => 0
  | f + 1, e =>
    match e with
    | 0 => 0
    | k + 1 => 1 + loopDepth l f (((l[k]?).map (·.encl)).getD 0)

/-- Launch-graph nodes reached from a set in some number of edges of a successor function. -/
def reachNodes (next : Nat → List Nat) : Nat → List Nat → List Nat
  | 0, l => l
  | f + 1, l => reachNodes next f (l ++ ((l.flatMap next).eraseDups.filter (fun x => !l.contains x)))

/-- Does a launch graph break a rule of R193 or R196? -/
def badLaunchGraph (l : List Node) : Bool :=
  let n := l.length
  let next (i : Nat) : List Nat := ((l[i]?).map Node.next).getD []
  let encl (i : Nat) : Nat := ((l[i]?).map (·.encl)).getD 0
  let outer (i : Nat) : List Nat := (next i).filter (fun j => encl j == 0)
  let up (i : Nat) : List Nat := next i ++ (if encl i = 0 then [] else [encl i - 1])
  n == 0 || 4096 < n || (l.filter (fun x => x.kind == 6)).length != 1
    || (enum l).any (fun x =>
      let i := x.1
      let y := x.2
      y.kind == 0 || 6 < y.kind || y.next.any (fun j => n ≤ j || encl j != y.encl)
        || (y.encl != 0 && ((l[y.encl - 1]?).map (·.kind)) != some 4)
        || 4 < loopDepth l 6 y.encl
        || (y.kind == 4 && (y.arg2 == 0 || 65536 < y.arg2.toNat || n ≤ y.first || n ≤ y.last
              || encl y.first != i + 1 || encl y.last != i + 1))
        || (y.encl == 0 && (reachNodes outer n (outer i)).contains i)
        || !(reachNodes up n [i]).any (fun j => ((l[j]?).map (·.kind)) == some 6))

/-- Does a launch-graph node have more than 8 successors on an arm, or a false arm without being a `cond` (R193,
R283)? -/
def badArms (b : List Byte) : Bool :=
  8 < field b 2 1 || 8 < field b 3 1 || (field b 0 1 != 3 && field b 3 1 != 0)

/-- Check 8: the launch-graph rules (R193, R196). -/
def check8 (l : List Section) : Option Nat :=
  firstBad (ofKind l 7) (fun _ x =>
    (entries x.data 16 (field x.data 4 2) 64).any badArms || badLaunchGraph (clfLGraph x.data))

/-- The first check of R286 that an object fails, and the index that failed it. -/
def loadFault (nvcl : Nat) (accept : List (List Byte)) (f : List Byte) : Option (Nat × Nat) :=
  let l := clfSections f
  let gs := clfGraphs l
  let tag (n : Nat) (x : Option Nat) : Option (Nat × Nat) := x.map (fun i => (n, i))
  (tag 1 (check1 accept f)).orElse (fun _ =>
  (tag 2 (check2 f)).orElse (fun _ =>
  (tag 3 (check3 f l)).orElse (fun _ =>
  (tag 4 (check4 l gs)).orElse (fun _ =>
  (tag 5 (check5 nvcl gs)).orElse (fun _ =>
  (tag 6 (check6 l gs)).orElse (fun _ =>
  (tag 7 (check7rank gs)).orElse (fun _ =>
  (tag 7 (check7 gs)).orElse (fun _ => tag 8 (check8 l)))))))))

/-! ## Loading (R280, R287) -/

/-- Has the section a global virtual address: a global section, or a launch graph, which a job table names
by its address (R188)? -/
def Section.isGlobal (x : Section) : Bool := x.space == 2 || x.kind == 7

/-- Where the loader would put a section: the loader's own choice, within the global space and aligned (R114, R269). -/
def globalAddr (loads i align : Nat) : Nat :=
  let a := (Config.sectionAddress loads i).toNat % 2 ^ 52
  a - a % 2 ^ max align 3

/-- Does a range touch one that has been given? -/
def taken (used : List (Nat × Nat)) (a n : Nat) : Bool := used.any (fun x => a < x.1 + x.2 && x.1 < a + n)

/-- The address that a section gets: the loader's choice where it is new, else one past all that have been given
(R287). -/
def newAddr (used : List (Nat × Nat)) (a align n : Nat) : Nat :=
  if a + n ≤ 2 ^ 52 ∧ taken used a n = false then a
  else
    let top := used.foldl (fun m x => max m (x.1 + x.2)) 0
    let k := 2 ^ max align 3
    (top + k - 1) / k * k

/-- Give the global sections their addresses, one after the other. -/
def giveAddrs (loads : Nat) : List (Nat × Nat × Section) → List (Nat × Nat) → List Section
  | [], _ => []
  | (i, align, x) :: r, used =>
    if x.isGlobal then
      let a := newAddr used (globalAddr loads i align) align x.data.length
      { x with va := BitVec.ofNat 64 a } :: giveAddrs loads r ((a, max 1 x.data.length) :: used)
    else x :: giveAddrs loads r used

/-- The value of a symbol: a global section's label counts from the section's address (R266, R279). -/
def symbolValue (f : List Byte) (l : List Section) (i : Nat) : Nat :=
  let e := slice f ((clfHeader f).symoff + 16 * i) 16
  let v := field e 8 8
  match field e 5 1, l[field e 6 2]? with
  | 1, some x => if x.isGlobal then x.va.toNat + v else v
  | _, _ => v

/-- Replace the bytes at an offset. -/
def overlay (b : List Byte) (off : Nat) (v : List Byte) : List Byte := b.take off ++ v ++ b.drop (off + v.length)

/-- Patch the imm field of an `li` word with 16 bits of a value (R268, R280). -/
def patchLi (b : List Byte) (off v : Nat) : List Byte :=
  let w : W32 := BitVec.ofNat 32 (field b off 4)
  overlay b off (leBytes ((w &&& 0xFFFE0000) ||| BitVec.ofNat 32 (v % 65536)).toNat 4)

/-- Apply a relocation to its section (R280). -/
def relocate (f : List Byte) (l : List Section) (r : List Byte) : List Section :=
  let v := (symbolValue f l (field r 12 4) + field r 16 8) % 2 ^ 64
  let off := field r 4 4
  match l[field r 0 4]? with
  | none => l
  | some x =>
    let d := if field r 8 1 = 1 then overlay x.data off (leBytes v 8)
      else patchLi (patchLi (patchLi (patchLi x.data off v) (off + 4) (v / 2 ^ 16)) (off + 12) (v / 2 ^ 32))
        (off + 20) (v / 2 ^ 48)
    l.set (field r 0 4) { x with data := d }

/-- The sections of a loaded object: addresses given, relocations applied. -/
def loadedSections (loads : Nat) (used : List (Nat × Nat)) (f : List Byte) : List Section :=
  let h := clfHeader f
  let es := entries f h.sectoff h.nsect 32
  let l := giveAddrs loads ((enum es).map (fun x => (x.1, field x.2 7 1 % 64, clfSection f x.2))) used
  (entries f h.reloff h.nrel 24).foldl (relocate f) l

/-- Write a global section into the partition's memory; `none` where its pages are not mapped. -/
def State.placeSection (s : State) (p : Nat) (x : Section) : Option State :=
  ((s.translateAll 4 p x.va.toNat false x.data.length).orElse
      (fun _ => s.translateAll 4 p x.va.toNat true x.data.length)).map
    (fun pas => (s.keyed p pas true).physWrite pas x.data false)

/-- Write sections; those whose pages are not mapped are left. -/
def State.placeSections (s : State) (p : Nat) (l : List Section) : State × List Section :=
  l.foldl (fun a x => match a.1.placeSection p x with
    | some s => (s, a.2)
    | none => (a.1, a.2 ++ [x])) (s, [])

/-- Add a checked object to a partition (R286, R287). -/
def State.addObject (s : State) (p : Nat) (f : List Byte) : State :=
  let l := loadedSections s.loads (s.part p).given f
  let y := s.placeSections p (l.filter (·.isGlobal))
  let o : Object :=
    { id := s.fresh, part := p, sects := l, graphs := clfGraphs l
      lgs := (ofKind l 7).map (fun x => (x.va, clfLGraph x.data)), names := clfNames l
      file := if y.2.isEmpty then [] else f, pending := y.2 }
  let s := y.1.modPart p (fun x => { x with
    given := (l.filter (·.isGlobal)).map (fun y => (y.va.toNat, max 1 y.data.length)) ++ x.given })
  { s with objects := s.objects ++ [o], loads := s.loads + 1, fresh := s.fresh + 1 }

/-- A load that waits for pages goes on (R287, notes/assumptions/64.md). -/
def State.continueLoad (s : State) (p : Nat) (o : Object) : State :=
  let y := s.placeSections p o.pending
  let o' := { o with pending := y.2, file := if y.2.isEmpty then [] else o.file }
  { y.1 with objects := y.1.objects.map (fun x => if x.id = o.id then o' else x) }

/-- OBJECT_LOAD (R286): the first failing check refuses the object and is reported with the index that
failed; a rank-rule failure is also a configuration error (R142). A load of the file whose loading has not completed
goes on with it. -/
def execObjectLoad (p : Nat) (file : List (BitVec 8)) (s : State) : Result :=
  if !s.booted then .next s
  else match s.objects.find? (fun o => o.part == p && !o.pending.isEmpty && o.file == file) with
  | some o => .next (s.continueLoad p o)
  | none =>
    match loadFault (s.part p).clusters.length (s.part p).accept file with
    | none => .next (s.addObject p file)
    | some (k, i) =>
      let s := { s with hostOut := s.hostOut ++ [.loadError k i] }
      if k = 7 ∧ (check7rank (clfGraphs (clfSections file))).isSome then
        .next ({ s with free := s.free + 1 }.report p regSrc 14 6 0 (Config.freeWord s.free) 0 0)
      else .next s

/-- OBJECT_UNLOAD (R287): refused while a live job names the object. -/
def execObjectUnload (p obj : Nat) (s : State) : Result :=
  if !s.booted then .next s
  else if s.jobs.any (fun j => j.2.obj == obj && j.2.status.isNone) then
    .next { s with hostOut := s.hostOut ++ [.refused 3] }
  else .next { s with objects := s.objects.filter (fun o => !(o.id == obj && o.part == p)) }

end Sys2Proof.Machine
end

