-- ==== Sys2Proof/Machine/Matrix.lean ====
section
/-!
DEFINITION. The matrix unit: settings, row firings and passes, draining words, the output buffer and the
cooperative tile (R38-R42, R94-R113, R374-R376, R379-R392, R398-R400).
-/

namespace Sys2Proof.Machine

/-! ## Formats (R95) -/

def mKind (f : BitVec 6) : Nat := (f.extractLsb' 3 3).toNat
def mSize (f : BitVec 6) : Nat := (f.extractLsb' 0 3).toNat
/-- Planes stored per step. -/
def mPlanes (f : BitVec 6) : Nat := if mKind f ≤ 1 then mSize f + 1 else 8
/-- The b8pP variant of kinds 2-5. -/
def mB8 (f : BitVec 6) : B8 := ⟨mSize f, 4 ≤ mKind f, mKind f == 3 || mKind f == 5⟩

/-- The value of an element code. -/
def mValue (f : BitVec 6) (code : Nat) : Fl :=
  match mKind f with
  | 0 => Fl.ofInt (intVal true (mSize f + 1) code)
  | 1 => Fl.ofInt (intVal false (mSize f + 1) code)
  | 6 =>
    let k := intVal true 8 code
    .fin (k < 0) k.natAbs (-6)
  | _ => (mB8 f).decode code

/-! ## Cells (R38-R40) -/

def Mx.innerAt (m : Mx) (i j : Nat) : Int := Tbl.get 0 m.inner (64 * i + j)
def Mx.tagAt (m : Mx) (i j : Nat) : Tag := Tbl.get .finite m.tag (64 * i + j)
/-- An outer value; after `mtpst part=f` it is a free value (R221, R396). -/
def Mx.outerAt (m : Mx) (i j : Nat) : Nat :=
  match m.free with
  | some n => (Config.freeOuter n (64 * i + j)).toNat
  | none => (Tbl.get 0 m.outer (64 * i + j)).toNat
def Mx.poutAt (m : Mx) (i : Nat) : Bool :=
  match m.free with
  | some n => Config.freePout n i
  | none => Tbl.get false m.pout i
def Mx.pinAt (m : Mx) (i : Nat) : Bool := Tbl.get false m.pin i

/-- A table of the 4,096 cells. -/
def cells {α : Type} [DecidableEq α] (d : α) (v : Nat → Nat → α) : Tbl α :=
  ((List.range 4096).map (fun x => (x, v (x / 64) (x % 64)))).filter (fun x => decide (x.2 ≠ d))
/-- A table of the 64 rows. -/
def rowTable (v : Nat → Bool) : Tbl Bool := ((List.range 64).map (fun i => (i, v i))).filter (fun x => x.2)

/-- Tags combine: NaN absorbs, opposite infinities give NaN (R39). -/
def Tag.combine (a b : Tag) : Tag :=
  match a, b with
  | .finite, t => t
  | t, .finite => t
  | .pinf, .pinf => .pinf
  | .ninf, .ninf => .ninf
  | _, _ => .nan

/-- Sat36 (R40), and whether it clamped. -/
def sat36 (v : Int) : Int × Bool :=
  if v < -(2 ^ 35 : Nat) then (-(2 ^ 35 : Nat), true)
  else if (2 ^ 35 : Nat) - 1 < v then ((2 ^ 35 : Nat) - 1, true) else (v, false)

/-- FloorToWindow(p, W) ÷ 2^W (R38). -/
def floorWin (neg : Bool) (m : Nat) (e win : Int) : Int :=
  let k := e - win
  let v : Int := if neg then -(m : Int) else m
  if 0 ≤ k then v * (2 ^ k.toNat : Nat) else v / (2 ^ (-k).toNat : Nat)

/-- The windowed sum and the combined tag of 32 products (R38-R40). -/
def dot (win : Int) : List Fl → List Fl → Int × Tag
  | a :: r, b :: t =>
    let (v, g) := dot win r t
    match (a.mul b).1 with
    | .fin n m e => (v + floorWin n m e win, g)
    | .inf n => (v, (if n then Tag.ninf else .pinf).combine g)
    | .nan _ => (v, Tag.nan.combine g)
  | _, _ => (0, .finite)

/-- The whole of Fire(s, a, i) (R104): row i takes one step. -/
def Mx.fire (m : Mx) (i : Nat) (win : Int) (av : List Fl) (bv : List (List Fl)) (bad : Bool) : Mx :=
  let sums := bv.map (fun col => dot win av col)
  let upd := (enum sums).map (fun x => (x.1, sat36 (m.innerAt i x.1 + x.2.1), (m.tagAt i x.1).combine x.2.2))
  { m with
    inner := upd.foldl (fun t x => Tbl.set 0 t (64 * i + x.1) x.2.1.1) m.inner
    tag := upd.foldl (fun t x => Tbl.set .finite t (64 * i + x.1) x.2.2) m.tag
    sat := m.sat || upd.any (fun x => x.2.1.2)
    pin := Tbl.set false m.pin i (m.pinAt i || bad)
    dirty := true }

/-! ## Plane blocks (R96) -/

/-- The 32 codes of vector x of the plane block at a line. -/
def State.planeCodes (s : State) (c line planes x : Nat) : List Nat :=
  let words := (List.range planes).map (fun b => leNat (s.spBytes c (line * 128 + 256 * b + 4 * x) 4))
  (List.range 32).map (fun k => (enum words).foldl (fun v w => v + w.2 / 2 ^ k % 2 * 2 ^ w.1) 0)

/-- The lines that hold vector x of a plane block. -/
def rowLines (c line planes x : Nat) : List Nat :=
  (List.range planes).map (fun b => lineKey c (line + 2 * b + x / 32))
/-- The lines of a plane block. -/
def blockLines (c line planes : Nat) : List Nat := (List.range (2 * planes)).map (fun i => lineKey c (line + i))

/-- The lines of a region. -/
def regionLines (c line n : Nat) : List Nat := (List.range n).map (fun i => lineKey c (line + i))

/-! ## Issue (R102, R374-R376) -/

/-- What a matrix word comes to at issue. -/
inductive Mres where
  | fault (fcode : BitVec 4)
  | wait
  | ok (s : State) (kind : Nat) (flags : Flags)
  deriving DecidableEq, Repr

/-- A word that waits for a line has issued and is counted (R72, R98, R375). -/
def State.holdWord (s : State) (drain : Bool) : State :=
  let c := s.seat.core
  if s.here.mx.held then s
  else (s.modMx c (fun m => { m with held := true, heldDr := drain })).modChain c s.here.mx.chain (fun x => { x with mt := x.mt + 1 })

/-- The word at the sequencer is no longer one that waits. -/
def State.unholdWord (s : State) : State :=
  let c := s.seat.core
  if s.here.mx.held then
    (s.modMx c (fun m => { m with held := false })).modChain c s.here.mx.chain (fun x => { x with mt := x.mt - 1 })
  else s

/-- Issue of a matrix word: a later word waits for an earlier draining word and for the copy of an earlier
`mrd`, a draining word for every earlier word; a fence may hold it; its fault stops the sequencer (R102,
R107, R113, R180, R375). -/
def matrixWord (drain : Bool) (s : State) (f : State → Mres) : Result :=
  let c := s.seat.core
  let m := s.here.mx
  if s.seat.seq ≠ .matrix ∨ !m.active ∨ m.halt ∨ s.here.frozen then .next s
  else if m.words.any MWord.drains ∨ m.copy.isSome ∨ (drain ∧ !m.words.isEmpty) ∨ s.fenced c 2 s.opSeq then .next s
  else if (s.here.chain m.chain).mt = 65535 ∧ !m.held then .next (s.matrixStop 11 3 0)
  else match f s with
    | .fault fc => .next (s.unholdWord.matrixStop 16 (fc.setWidth 64) fc)
    | .wait => .next (s.holdWord drain)
    | .ok s kind flags =>
      let s := s.unholdWord
      let s := s.modMx c (fun x => { x with
        pc := x.pc + 1, words := x.words ++ [⟨s.fresh, x.pc, kind, flags, m.chain, s.opSeq⟩] })
      .next (s.modChain c m.chain (fun x => { x with mt := x.mt + 1 })).next.bump

/-- A word that only changes the unit. -/
def setMx (s : State) (kind : Nat) (f : Mx → Mx) : Mres := .ok (s.modMx s.seat.core f) kind 0

def execMza (s : State) : Result :=
  matrixWord true s (fun s => setMx s wDrain (fun m =>
    { m with inner := [], tag := [], pin := [], sat := false, dirty := false, prod := false }))

def execMzo (s : State) : Result :=
  matrixWord true s (fun s =>
    if s.here.mx.tp then .fault 3
    else setMx s wDrain (fun m => { m with outer := [], pout := [], free := none }))

def execMwin (w : BitVec 8) (s : State) : Result :=
  matrixWord false s (fun s =>
    if s.here.mx.dirty || s.here.mx.prod then .fault 3
    else setMx s wSetting (fun m => { m with win := w }))

def execMfmt (fa fb : BitVec 6) (s : State) : Result :=
  matrixWord false s (fun s => setMx s wSetting (fun m => { m with fa := fa, fb := fb }))

def execMldaScratchpad (line : BitVec 12) (s : State) : Result :=
  matrixWord false s (fun s => setMx s wSetting (fun m => { m with asrc := false, aline := line }))

def execMldaPort (sp : BitVec 4) (s : State) : Result :=
  matrixWord false s (fun s => setMx s wSetting (fun m => { m with asrc := true, aport := sp }))

def execMldb (line : BitVec 12) (s : State) : Result :=
  matrixWord false s (fun s => setMx s wSetting (fun m => { m with bline := line }))

/-- `mjoin` (R386): the sequencer is idle and the chain's fork has joined. -/
def execMjoin (s : State) : Result :=
  matrixWord true s (fun s =>
    let ch := s.here.mx.chain
    let s := s.modMx s.seat.core (fun m => { m with active := false })
    .ok (s.modChain s.seat.core ch (fun x => { x with forkM := false })) wDrain 0)

/-! ## Product words (R104, R110, R385, R388) -/

/-- The place of a core in its row group of the cooperative tile: h = c mod 12 (R110). -/
def coopCol (c : Nat) : Nat := c % 96 % 12
/-- The cores of its row group. -/
def coopGroup (c : Nat) : List Nat := (List.range 12).map (fun h => c - coopCol c + h)

/-- Does the unit take its A rows from the previous core of its row group? -/
def State.follows (s : State) (c : Nat) : Bool := (s.core c).mx.coop && coopCol c != 0

/-- Has another core of the row group issued a different product word in the same place (R110)? -/
def State.coopClash (s : State) (c : Nat) (sig : List Nat) : Bool :=
  let n := (s.core c).mx.coopLog.length
  (s.core c).mx.coop && (coopGroup c).any (fun d =>
    d != c && (match (s.core d).mx.coopLog[n]? with
      | some x => x != sig
      | none => false))

/-- The coop-mismatch fault on every other core of the group (R379). -/
def State.coopFault (s : State) (c : Nat) : State :=
  ((coopGroup c).filter (· != c)).foldl (fun s d =>
    let s := s.reportCore d 1 16 false (s.core d).mx.pc 4
    let ch := (s.core d).mx.chain
    (s.modMx d (fun m => { m with halt := true, fcode := 4 })).faultUnit d ch) s

/-- Issue a product word's firings, step-major: `list` gives the A row and the result row of each. -/
def issueFirings (s : State) (ks : Nat) (list : List (Nat × Nat)) (sig : List Nat) : Mres :=
  let c := s.seat.core
  let m := s.here.mx
  let fs := (List.range ks).flatMap (fun st => (enum list).map (fun x =>
    ({ word := s.fresh, s := st, a := x.2.1, i := x.2.2, fa := m.fa, fb := m.fb, win := m.win, asrc := m.asrc
       aline := m.aline.toNat, aport := m.aport.toNat, bline := m.bline.toNat
       ord := m.coopLog.length, t := x.1 } : Firing)))
  .ok (s.modMx c (fun m => { m with
    todo := m.todo ++ fs, prod := true, coopLog := if m.coop then m.coopLog ++ [sig] else m.coopLog })) wProduct 0

/-- The state conditions of a product word (R376). -/
def productFault (s : State) : Bool :=
  let m := s.here.mx
  m.tp || (m.asrc && !s.follows s.seat.core && s.here.sourceRouted m.aport.toNat)

/-- Issue a product word: on a row-group difference every core of the group faults. -/
def productWord (s : State) (sig : List Nat) (f : State → Mres) : Result :=
  let m := s.here.mx
  if s.seat.seq = .matrix ∧ m.active ∧ !m.halt ∧ !s.here.frozen ∧ !m.words.any MWord.drains
      ∧ m.copy.isNone ∧ s.coopClash s.seat.core sig then
    .next ((s.coopFault s.seat.core).matrixStop 16 4 4)
  else matrixWord false s f

def execMmul (ks : BitVec 7) (rows : BitVec 6) (s : State) : Result :=
  productWord s [7, ks.toNat, rows.toNat] (fun s =>
    if productFault s then .fault 3
    else issueFirings s (ks.toNat + 1) ((List.range (rows.toNat + 1)).map (fun t => (t, t)))
      [7, ks.toNat, rows.toNat])

def execMgmul (ks : BitVec 7) (list : BitVec 12) (n : BitVec 6) (s : State) : Result :=
  let c := s.seat.core
  let bytes := (s.spBytes c (list.toNat * 128) 128).map BitVec.toNat
  let k := n.toNat + 1
  let idx := bytes.take k
  let sca := (bytes.drop 64).take k
  let sig := [8, ks.toNat, n.toNat] ++ idx ++ sca
  let l := lineKey c list.toNat
  let full := !s.isEmpty l
  let run (s : State) : Mres :=
    if productFault s then .fault 3
    else if !full then .wait
    else if s.isBad l || sca.any (fun x => 63 < x) || (!s.here.mx.asrc && idx.any (fun x => 63 < x)) then .fault 2
    else issueFirings s (ks.toNat + 1) (idx.zip sca) sig
  if full then productWord s sig run else matrixWord false s run

/-! ## Passes and firings (R99, R100, R104) -/

/-- How a firing stands at the start of a pass. -/
inductive Ready where
  | fault | no | yes (data : List Byte) (bad : Bool)
  deriving DecidableEq, Repr

/-- The next `n` data tokens of a port, markers discarded (R97), and what stays. -/
def takeRow : Nat → List Token → Option (List Token × List Token)
  | 0, l => some ([], l)
  | _ + 1, [] => none
  | n + 1, t :: r =>
    if t.kind = 0 then (takeRow n r).map (fun x => (t :: x.1, x.2)) else takeRow (n + 1) r

/-- A port's queue after a row has been taken from it. -/
def dropRow (l : List Token) : List Token := ((takeRow 8 l).map Prod.snd).getD l

/-- Does an A row in the link belong to the firing (R110)? -/
def CoopRow.isFor (x : CoopRow) (f : Firing) : Bool := x.ord == f.ord && x.s == f.s && x.t == f.t

/-- The last line that the firing's A row takes (R96, R104). -/
def Firing.lastLine (f : Firing) : Nat := f.aline + 2 * mPlanes f.fa * f.s + 2 * (mPlanes f.fa - 1) + f.a / 32

/-- Is the firing's data there (R98, R99, R104, R110)? A line outside 0-4,095 faults the first firing that
needs it. The link to the next core of the row group holds two rows (notes/assumptions/83.md). -/
def State.ready (s : State) (c : Nat) (f : Firing) : Ready :=
  let k := s.core c
  let bl := f.bline + 2 * mPlanes f.fb * f.s
  let al := f.aline + 2 * mPlanes f.fa * f.s
  let port := f.asrc && !s.follows c
  if 4096 < bl + 2 * mPlanes f.fb || (!f.asrc && !s.follows c && 4095 < f.lastLine) then .fault
  else if (blockLines c bl (mPlanes f.fb)).any s.isEmpty then .no
  else if k.mx.coop && coopCol c != 11 && 2 ≤ (s.core (c + 1)).mx.coopIn.length then .no
  else if s.follows c then
    match k.mx.coopIn.find? (·.isFor f) with
    | some x => .yes x.data x.bad
    | none => .no
  else if port then
    match takeRow 8 (k.port f.aport).buf with
    | some (ts, _) => .yes (ts.flatMap (fun t => leBytes t.value.toNat 4)) (ts.any (·.poison))
    | none => .no
  else if (rowLines c al (mPlanes f.fa) f.a).any s.isEmpty then .no
  else .yes ((s.planeCodes c al (mPlanes f.fa) f.a).map (BitVec.ofNat 8))
    ((rowLines c al (mPlanes f.fa) f.a).any s.isBad)

/-- Take the A row that a started firing reads, and forward it in a cooperative tile. -/
def State.takeA (s : State) (c : Nat) (f : Firing) (data : List Byte) (bad : Bool) : State :=
  let k := s.core c
  let s := if s.follows c then s.modMx c (fun m => { m with coopIn := m.coopIn.filter (fun x => !x.isFor f) })
    else if f.asrc then s.modPort c f.aport (fun x => { x with buf := dropRow x.buf })
    else s
  if k.mx.coop && coopCol c != 11 then s.modMx (c + 1) (fun m => { m with coopIn := m.coopIn ++ [⟨f.ord, f.s, f.t, data, bad⟩] })
  else s

/-- Start what can start of the firings not yet fired, in issue order: `rows` have started or met a
firing that waits, `hold` is set once an earlier firing waits for a row of the same A stream. -/
def startAll (c st : Nat) : List Firing → List Nat → Bool → List Firing → List Firing → State →
    State × List Firing × List Firing × Option Firing
  | [], _, _, kept, run, s => (s, kept, run, none)
  | f :: r, rows, hold, kept, run, s =>
    let stream := f.asrc || s.follows c
    let skip := startAll c st r (f.i :: rows) (hold || stream) (kept ++ [f]) run s
    if f.s ≠ st ∨ rows.contains f.i ∨ (hold ∧ stream) then skip
    else match s.ready c f with
      | .fault => (s, kept ++ (f :: r), run, some f)
      | .no => skip
      | .yes data bad =>
        startAll c st r (f.i :: rows) hold kept (run ++ [{ f with data := data, bad := bad }]) (s.takeA c f data bad)

/-- The firings that come next at their result rows, in issue order (R99). -/
def nextFirings : List Firing → List Nat → List Firing
  | [], _ => []
  | f :: r, rows => if rows.contains f.i then nextFirings r rows else f :: nextFirings r (f.i :: rows)

/-- MATRIX_PASS (R99): a pass serves the lowest step with firings not yet fired. Of two product words on
one row the later word's lower step cannot come first: the step is taken among the firings that come next
at their rows (notes/assumptions/84.md). -/
def execMatrixPass (c : Nat) (s : State) : Result :=
  let m := (s.core c).mx
  if !m.pass.isEmpty || m.todo.isEmpty || (s.core c).frozen then .next s
  else
    let st := (nextFirings m.todo []).foldl (fun n f => min n f.s) 4096
    match startAll c st m.todo [] false [] [] s with
    | (s, kept, run, none) => .next (s.modMx c (fun m => { m with todo := kept, pass := run }))
    | (s, kept, run, some f) =>
      let at_ := ((m.words.find? (fun w => w.id == f.word)).map (·.pc)).getD m.pc
      let s := s.modMx c (fun m => { m with
        todo := kept.filter (fun x => x.word < f.word), pass := run, pc := at_ })
      .next ((s.sit c .matrix).matrixStop 16 1 1)

/-- ROW_FIRING (R40, R100, R104): the firing at the head of the pass takes effect. -/
def execRowFiring (c : Nat) (s : State) : Result :=
  match (s.core c).mx.pass with
  | [] => .next s
  | f :: r =>
    let bl := f.bline + 2 * mPlanes f.fb * f.s
    let av := f.data.map (fun b => mValue f.fa b.toNat)
    let bv := (List.range 64).map (fun j => (s.planeCodes c bl (mPlanes f.fb) j).map (mValue f.fb))
    let bad := f.bad || (blockLines c bl (mPlanes f.fb)).any s.isBad
    .next (s.modMx c (fun m => { m.fire f.i f.win.toInt av bv bad with pass := r }))

/-- MATRIX_WORD_COMPLETE (R102, R112, R375, R390): the first issued word whose effect is complete. -/
def execMatrixWordComplete (c : Nat) (s : State) : Result :=
  let m := (s.core c).mx
  let cl := clusterOf c * 96
  let busy (w : MWord) : Bool := (m.todo ++ m.pass).any (fun f => f.word == w.id)
  let joined : Bool := (List.range 96).all (fun k => m.coopN ≤ (s.core (cl + k)).mx.coopN)
  let done (w : MWord) : Bool :=
    if w.kind = wProduct then !busy w
    else if w.kind = wRead ∨ w.kind = wReadDrain then m.oword != w.id || (m.obuf.isEmpty && m.copy.isNone)
    else if w.kind = wCoop then m.coopW.isNone || joined
    else true
  match m.words.find? done with
  | none => .next s
  | some w =>
    let s := s.modMx c (fun m =>
      let m := { m with words := m.words.filter (fun x => x.id != w.id), flags := m.flags ||| w.flags }
      if w.kind = wCoop then
        match m.coopW with
        | some on => { m with coop := on, coopW := none }
        | none => m
      else m)
    .next (s.modChain c w.chain (fun x => { x with mt := x.mt - 1 }))

/-! ## mscale (R42, R105, R391) -/

/-- One cell of `mscale`: the new outer value and its flags. Scales are E8M0 codes. -/
def scaleCell (win : Int) (inner : Int) (tag : Tag) (outer sa sb : Nat) : Nat × Flags :=
  let add (x : Fl) : Nat × Flags :=
    let r := (fp32.decode outer).add x
    let c := fp32.encode .rne r.1
    (c.1, r.2 ||| c.2)
  if sa = 255 ∨ sb = 255 then (fp32.qnan, 0)
  else match tag with
    | .nan => (fp32.qnan, 0)
    | .pinf => add (.inf false)
    | .ninf => add (.inf true)
    | .finite => add (.fin (inner < 0) inner.natAbs (win + (sa : Int) - 127 + (sb : Int) - 127))

/-- `mscale` over the tile: `q` poisons every row. -/
def Mx.scale (m : Mx) (sa sb : Nat → Nat) (q : Bool) : Mx × Flags :=
  let v (i j : Nat) : Nat × Flags :=
    scaleCell m.win.toInt (m.innerAt i j) (m.tagAt i j) (m.outerAt i j) (sa i) (sb j)
  let fl := (List.range 4096).foldl (fun f x => f ||| (v (x / 64) (x % 64)).2) 0
  ({ m with
      outer := cells 0 (fun i j => BitVec.ofNat 32 (v i j).1)
      pout := rowTable (fun i => m.poutAt i || m.pinAt i || q)
      free := none, inner := [], tag := [], pin := [], dirty := false, prod := false }, fl)

def execMscale (sa sb : BitVec 12) (s : State) : Result :=
  matrixWord true s (fun s =>
    let c := s.seat.core
    let la := lineKey c sa.toNat
    let lb := lineKey c sb.toNat
    if s.here.mx.tp then .fault 3
    else if s.isEmpty la || s.isEmpty lb then .wait
    else
      let at_ (l : BitVec 12) (i : Nat) : Nat := (s.mem.read (spKey c (l.toNat * 128 + i))).toNat
      let (m, fl) := s.here.mx.scale (at_ sa) (at_ sb) (s.isBad la || s.isBad lb)
      .ok (s.modMx c (fun _ => m)) wDrain fl)

def execMscaleUnit (s : State) : Result :=
  matrixWord true s (fun s =>
    if s.here.mx.tp then .fault 3
    else
      let (m, fl) := s.here.mx.scale (fun _ => 127) (fun _ => 127) false
      .ok (s.modMx s.seat.core (fun _ => m)) wDrain fl)

/-! ## mrd (R107, R109, R390) -/

/-- The tokens of a row. -/
def Mx.rowTokens (m : Mx) (acc : Bool) (i : Nat) : List Token :=
  if acc then (List.range 64).map (fun j => ⟨m.poutAt i, 0, BitVec.ofNat 32 (m.outerAt i j)⟩)
  else (List.range 64).flatMap (fun j =>
    let v : BitVec 36 := BitVec.ofInt 36 (m.innerAt i j)
    let t : BitVec 2 := match m.tagAt i j with | .finite => 0 | .pinf => 1 | .ninf => 2 | .nan => 3
    let hi : BitVec 32 := t ++ (if v.getLsbD 35 then BitVec.allOnes 26 else (0 : BitVec 26)) ++ v.extractLsb' 32 4
    [⟨m.pinAt i, 0, v.extractLsb' 0 32⟩, ⟨m.pinAt i, 0, hi⟩])

/-- `mrd` copies its next row into the output buffer: the row's tokens and a rank-1 marker, rank 2 after the
last row (R107, R390). Firings go on between the copies of two rows (R109). -/
def Mx.copyRow (m : Mx) (y : RowCopy) : Mx :=
  { m with
    obuf := m.obuf ++ m.rowTokens y.acc y.row ++ [{ kind := if y.left ≤ 1 then 2 else 1 }]
    copy := if y.left ≤ 1 then none else some { y with row := y.row + 1, left := y.left - 1 } }

def execMrd (acc drain : Bool) (sk : BitVec 4) (row0 rows : BitVec 6) (s : State) : Result :=
  matrixWord drain s (fun s =>
    let m := s.here.mx
    if (acc && m.tp) || s.here.sinkRouted sk.toNat then .fault 3
    else if !m.obuf.isEmpty then .wait
    else .ok (s.modMx s.seat.core (fun m => { m with
      copy := some ⟨acc, row0.toNat, rows.toNat + 1⟩, oport := sk.toNat, oword := s.fresh }))
      (if drain then wReadDrain else wRead) 0)

/-- MRD_OUTPUT_DRAIN (R390): the output buffer takes the next row of the `mrd`, or, with every row copied,
one token enters the sink port. -/
def execMrdOutputDrain (c : Nat) (s : State) : Result :=
  let k := s.core c
  match k.mx.copy, k.mx.obuf with
  | some y, _ => if k.frozen then .next s else .next (s.modMx c (fun m => m.copyRow y))
  | none, [] => .next s
  | none, t :: r =>
    let x := k.port (16 + k.mx.oport)
    if k.frozen || !(merges x.buf t || x.buf.length + x.resv < 8) || !s.nameAhead c (32 + k.mx.oport) then .next s
    else .next ((s.modMx c (fun m => { m with obuf := r })).sinkPut c k.mx.oport t)

/-! ## Writes of the unit to scratchpad (R106, R108, R392, R399) -/

/-- Write whole lines of the seat's core, each with its poison, and set them full. -/
def State.lineWrites (s : State) (publish : Bool) : Nat → List (List Byte × Bool) → State
  | _, [] => s
  | line, (b, bad) :: r =>
    let c := s.seat.core
    State.lineWrites ((s.lineStore c line (indexBytes 0 b) bad publish).setFull (lineKey c line)) publish (line + 1) r

/-- Does an atomic at the port hold a word of one of the lines (R139)? -/
def State.linesHeld (s : State) (line n : Nat) : Bool := (List.range n).any (fun i => s.here.lineHeld (line + i))

/-- FP32 codes as the bytes of whole lines. -/
def f32Lines (n : Nat) (l : List Nat) : List (List Byte) :=
  chunks 128 n ((l.flatMap (fun v => leBytes v 4)) ++ List.replicate (128 * n) 0) |>.take n

def execMst (bf : Bool) (line : BitVec 12) (row0 rows : BitVec 6) (s : State) : Result :=
  matrixWord true s (fun s =>
    let m := s.here.mx
    let n := rows.toNat + 1
    let per := if bf then 1 else 2
    if m.tp then .fault 3
    else if 4096 < line.toNat + n * per then .fault 1
    else if s.linesHeld line.toNat (n * per) then .wait
    else
      let vals (r : Nat) : List Nat := (List.range 64).map (fun j => m.outerAt (row0.toNat + r) j)
      let body := (List.range n).flatMap (fun r =>
        (if bf then [(vals r).flatMap (fun v => leBytes (bf16OfF v).1 2)] else f32Lines 2 (vals r)).map
          (fun b => (b, m.poutAt (row0.toNat + r))))
      let fl := if bf then (List.range n).foldl (fun f r =>
        (vals r).foldl (fun f v => f ||| (bf16OfF v).2) f) 0 else 0
      .ok (s.lineWrites true line.toNat body) wDrain fl)

/-- The plane block of 64 vectors of 32 codes: the lines in order (R96). -/
def planeBlock (planes : Nat) (code : Nat → Nat → Nat) : List (List Byte) :=
  (List.range (2 * planes)).map (fun l =>
    (List.range 32).flatMap (fun w =>
      let x := l % 2 * 32 + w
      leBytes ((List.range 32).foldl (fun v k => v + code x k / 2 ^ (l / 2) % 2 * 2 ^ k) 0) 4))

def execMxpose (sideB : Bool) (src dst : BitVec 12) (s : State) : Result :=
  matrixWord true s (fun s =>
    let c := s.seat.core
    let planes := mPlanes (if sideB then s.here.mx.fb else s.here.mx.fa)
    let a := src.toNat
    let b := dst.toNat
    if 4096 < a + 16 ∨ 4096 < b + 2 * planes ∨ (a < b + 2 * planes ∧ b < a + 16) then .fault 1
    else if (regionLines c a 16).any s.isEmpty || s.linesHeld b (2 * planes) then .wait
    else
      let bad := (regionLines c a 16).any s.isBad
      let code (x k : Nat) : Nat := (s.mem.read (spKey c (a * 128 + 32 * x + k))).toNat
      .ok (s.lineWrites false b ((planeBlock planes code).map (fun l => (l, bad)))) wDrain 0)

/-! ## The cooperative tile (R110, R379) -/

def execMcoopOn (s : State) : Result :=
  matrixWord true s (fun s =>
    if s.here.mx.coop || s.here.mx.tp then .fault 3
    else setMx s wCoop (fun m => { m with coopW := some true, coopN := m.coopN + 1, coopLog := [], coopIn := [] }))

def execMcoopOff (s : State) : Result :=
  matrixWord true s (fun s =>
    if !s.here.mx.coop then .fault 3 else setMx s wCoop (fun m => { m with coopW := some false, coopN := m.coopN + 1 }))

end Sys2Proof.Machine
end

