-- ==== Sys2Proof/Machine/Transport.lean ====
section
/-!
DEFINITION. The gate search (R205-R209, R394) and the transport-plan tile (R218-R223, R378, R393, R395,
R396) of the matrix unit.
-/

namespace Sys2Proof.Machine

/-! ## mtopk (R205-R209) -/

/-- The key of a logit (R205). -/
def logitKey (v : Nat) : Nat := if v < 2 ^ 31 then v + 2 ^ 31 else 2 ^ 32 - 1 - v

/-- The bit-serial search over the key planes from bit b − 1 down (R206): what is selected and the
candidates left. -/
def searchKeys (need : Nat) : Nat → List (Nat × Nat) → List (Nat × Nat) → List (Nat × Nat) × List (Nat × Nat)
  | 0, sel, cand => (sel, cand)
  | b + 1, sel, cand =>
    let ones := cand.filter (fun x => x.2 / 2 ^ b % 2 == 1)
    if need ≤ sel.length + ones.length then searchKeys need b sel ones
    else searchKeys need b (sel ++ ones) (cand.filter (fun x => x.2 / 2 ^ b % 2 == 0))

/-- Place an entry by key descending, equal keys by ascending index. -/
def placeKey (x : Nat × Nat) : List (Nat × Nat) → List (Nat × Nat)
  | [] => [x]
  | y :: r => if y.2 < x.2 || (y.2 == x.2 && x.1 < y.1) then x :: y :: r else y :: placeKey x r

/-- Select(E, k) (R206): index and key of each selected expert, in slot order. -/
def selectTop (e : List (Nat × Nat)) (k : Nat) : List (Nat × Nat) :=
  let need := min k e.length
  let (sel, cand) := searchKeys need 32 [] e
  (sel ++ cand.take (need - sel.length)).foldl (fun l x => placeKey x l) []

def negInf : Nat := 0xFF800000
def posInf : Nat := 0x7F800000

/-- The record of a row (R208, R209): its line, the flags of the relative logits, and whether no expert is
eligible. -/
def topkRecord (logits : List Nat) (k : Nat) : List Byte × Flags × Bool :=
  let e := (enum logits).filter (fun x => !(fp32.decode x.2).isNaN)
  let sel := (selectTop (e.map (fun x => (x.1, logitKey x.2))) k).map (fun x => (x.1, logits[x.1]?.getD 0))
  let anyInf := sel.any (fun x => x.2 == posInf)
  let x0 := (sel.map Prod.snd).headD negInf
  let rel (v : Nat) : Nat × Flags :=
    if anyInf then (if v = posInf then 0 else negInf, 0)
    else if x0 = negInf then (0, 0)
    else subF v x0
  let slot (n : Nat) : Option (Nat × Nat) := sel[n]?
  let flag := (if e.length < k then 1 else 0) + (if anyInf then 2 else 0)
  let flag := if e.isEmpty then 4 else flag
  let per (f : Nat × Nat → Nat) (d w : Nat) : List Byte :=
    (List.range 8).flatMap (fun n => leBytes (((slot n).map f).getD d) w)
  let body := per Prod.fst 0xFFFF 2 ++ leBytes flag 16 ++ per Prod.snd negInf 4
    ++ per (fun x => (rel x.2).1) negInf 4 ++ List.replicate 32 0
  (body, sel.foldl (fun f x => f ||| (rel x.2).2) 0, e.isEmpty)

/-- FP32 codes of the scratchpad. -/
def State.spWords (s : State) (c off n : Nat) : List Nat := (chunks 4 n (s.spBytes c off (4 * n))).map leNat

def execMtopk (rows : BitVec 6) (ne : BitVec 2) (k : BitVec 3) (s : State) : Result :=
  matrixWord true s (fun s =>
    let c := s.seat.core
    let m := s.here.mx
    let n := rows.toNat + 1
    let per := 2 * (ne.toNat + 1)
    let a := m.aline.toNat
    let b := m.bline.toNat
    if m.coop || m.asrc then .fault 3
    else if 4096 < a + per * n ∨ 4096 < b + n ∨ (a < b + n ∧ b < a + per * n) then .fault 1
    else if (regionLines c a (per * n)).any s.isEmpty || s.linesHeld b n then .wait
    else
      let recs := (List.range n).map (fun r =>
        let line := a + per * r
        let (body, fl, none_) := topkRecord (s.spWords c (line * 128) (64 * (ne.toNat + 1))) (k.toNat + 1)
        (body, none_ || (regionLines c line per).any s.isBad, fl))
      .ok (s.lineWrites false b (recs.map (fun x => (x.1, x.2.1)))) wDrain
        (recs.foldl (fun f x => f ||| x.2.2) 0))

/-! ## The transport tile (R218) -/

/-- A table of 64 FP32 registers from a list. -/
def regTable (l : List Nat) : Tbl W32 :=
  ((enum l).map (fun x => (x.1, BitVec.ofNat 32 x.2))).filter (fun x => x.2 != 0)
/-- The first `n` registers of a table. -/
def regList (t : Tbl W32) (n : Nat) : List Nat := (List.range n).map (fun i => (Tbl.get 0 t i).toNat)

def execMtpld (line : BitVec 12) (rows cols : BitVec 6) (s : State) : Result :=
  matrixWord true s (fun s =>
    let c := s.seat.core
    let l := line.toNat
    let r := rows.toNat + 1
    let n := cols.toNat + 1
    let region := regionLines c l (2 * r + 4)
    if s.here.mx.coop then .fault 3
    else if 4096 < l + 2 * r + 4 then .fault 1
    else if region.any s.isEmpty then .wait
    else if region.any s.isBad then .fault 3
    else
      let word (i j : Nat) : W32 := BitVec.ofNat 32 (leNat (s.spBytes c ((l + 2 * i) * 128 + 4 * j) 4))
      .ok (s.modMx c (fun m => { m with
        outer := cells 0 (fun i j => if i < r ∧ j < n then word i j else 0), pout := [], free := none
        rows := r, cols := n
        la := regTable (s.spWords c ((l + 2 * r) * 128) r), lb := regTable (s.spWords c ((l + 2 * r + 2) * 128) n)
        f := [], gp := [], tp := true, sweeps := 0, conv := false, infeas := false, err := 0 })) wDrain 0)

/-- logK of the tile. -/
def Mx.logK (m : Mx) (i j : Nat) : Nat := (Tbl.get 0 m.outer (64 * i + j)).toNat

/-- What a half sweep gives: a potential, whether the infeasible branch set it, and flags (R220). -/
def potential (marg : Nat) (terms : List (Nat × Flags)) : Nat × Bool × Flags :=
  let ts := terms.map Prod.fst
  let fl := terms.foldl (fun f x => f ||| x.2) 0
  if ts.all (fun v => v == negInf) then
    if marg = negInf then (negInf, false, fl) else (0, true, fl)
  else
    let l := lse2F ts
    let d := subF marg l.1
    (d.1, false, fl ||| l.2 ||| d.2)

/-- The greater of two error magnitudes; a NaN stays. -/
def maxErr (a b : Nat) : Nat :=
  if (fp32.decode a).isNaN ∨ (fp32.decode b).isNaN then fp32.qnan else max a b

/-- x_ij = RNE(RNE(logK + f) + g) (R220). -/
def Mx.xij (m : Mx) (f g : List Nat) (i j : Nat) : Nat × Flags :=
  let a := addF (m.logK i j) (f[i]?.getD 0)
  let b := addF a.1 (g[j]?.getD 0)
  (b.1, a.2 ||| b.2)

/-- The potentials while `mbal` runs. -/
structure Balance where
  f      : List Nat
  g      : List Nat
  infeas : Bool := false
  err    : Nat := 0
  flags  : Flags := 0
  deriving DecidableEq, Repr

/-- Is a code an infinity? -/
def isInfF (v : Nat) : Bool := v == posInf || v == negInf

/-- One sweep (R220). -/
def Mx.sweep (m : Mx) (b : Balance) : Balance :=
  let la := regList m.la m.rows
  let lb := regList m.lb m.cols
  let rows := (enum la).map (fun x => potential x.2 ((List.range m.cols).map (fun j =>
    addF (m.logK x.1 j) (b.g[j]?.getD 0))))
  let f := rows.map Prod.fst
  let cols := (enum lb).map (fun x => potential x.2 ((List.range m.rows).map (fun i =>
    addF (m.logK i x.1) (f[i]?.getD 0))))
  let g := cols.map Prod.fst
  let errs := ((enum la).zip rows).filterMap (fun (x : (Nat × Nat) × (Nat × Bool × Flags)) =>
    if x.2.2.1 || isInfF x.1.2 then none
    else
      let xs := (List.range m.cols).map (m.xij f g x.1.1)
      let l := lse2F (xs.map Prod.fst)
      let d := subF l.1 x.1.2
      some (if (fp32.decode d.1).isNaN then fp32.qnan else d.1 % 2 ^ 31,
        xs.foldl (fun f y => f ||| y.2) (l.2 ||| d.2)))
  { f := f, g := g
    infeas := b.infeas || (rows ++ cols).any (fun x => x.2.1)
    err := errs.foldl (fun e x => maxErr e x.1) 0
    flags := errs.foldl (fun f x => f ||| x.2) ((rows ++ cols).foldl (fun f x => f ||| x.2.2) b.flags) }

/-- The sweeps of `mbal`: `n` at most, stopping once err is below 2^−tol. -/
def Mx.balance (m : Mx) (tol : Nat) : Nat → Nat → Balance → Balance × Nat × Bool
  | 0, done, b => (b, done, false)
  | n + 1, done, b =>
    let b := m.sweep b
    let e := fp32.decode b.err
    if !e.isNaN && e.cmp false (.fin false 1 (-(tol : Int))) < 0 then (b, done + 1, true)
    else m.balance tol n (done + 1) b

def execMbal (sweeps : BitVec 12) (tol : BitVec 6) (s : State) : Result :=
  matrixWord true s (fun s =>
    let m := s.here.mx
    if m.coop || !m.tp then .fault 3
    else
      let (b, n, conv) := m.balance tol.toNat (sweeps.toNat + 1) 0
        { f := regList m.f m.rows, g := regList m.gp m.cols, infeas := m.infeas }
      .ok (s.modMx s.seat.core (fun m => { m with
        f := regTable b.f, gp := regTable b.g, infeas := b.infeas, err := BitVec.ofNat 32 b.err
        sweeps := BitVec.ofNat 13 n, conv := conv })) wDrain b.flags)

/-- P_ij = RNE(2^x_ij) (R221). -/
def Mx.plan (m : Mx) (i j : Nat) : Nat × Flags :=
  let x := m.xij (regList m.f m.rows) (regList m.gp m.cols) i j
  let p := exp2F (fp32.decode x.1)
  (p.1, x.2 ||| p.2)

/-- Faults that `mtpst` shares, with the lines it writes. -/
def storeTile (s : State) (line : BitVec 12) (n : Nat) (f : Unit → Mres) : Mres :=
  if s.here.mx.coop || !s.here.mx.tp then .fault 3
  else if 4096 < line.toNat + n then .fault 1
  else if s.linesHeld line.toNat n then .wait
  else f ()

def clean (l : List (List Byte)) : List (List Byte × Bool) := l.map (fun b => (b, false))

def execMtpstPlan (line : BitVec 12) (s : State) : Result :=
  matrixWord true s (fun s =>
    let m := s.here.mx
    storeTile s line (2 * m.rows) (fun _ =>
      let row (i : Nat) : List (Nat × Flags) := (List.range m.cols).map (m.plan i)
      let body := (List.range m.rows).flatMap (fun i => f32Lines 2 ((row i).map Prod.fst))
      let fl := (List.range m.rows).foldl (fun f i => (row i).foldl (fun f x => f ||| x.2) f) 0
      .ok (s.lineWrites false line.toNat (clean body)) wDrain fl))

def execMtpstPotentials (line : BitVec 12) (s : State) : Result :=
  matrixWord true s (fun s =>
    let m := s.here.mx
    storeTile s line 4 (fun _ =>
      .ok (s.lineWrites false line.toNat (clean (f32Lines 2 (regList m.f 64) ++ f32Lines 2 (regList m.gp 64))))
        wDrain 0))

def execMtpstRelease (line : BitVec 12) (s : State) : Result :=
  matrixWord true s (fun s =>
    let m := s.here.mx
    storeTile s line 2 (fun _ =>
      let s := s.lineWrites false line.toNat (clean (f32Lines 2 (regList m.f 64)))
      let n := s.free
      .ok ({ s with free := n + 1 }.modMx s.seat.core (fun m => { m with tp := false, free := some n })) wDrain 0))

/-- The plan's cost-weighted distance (R222): terms in order, each an `effma`. -/
def Mx.distance (m : Mx) (cost : Nat → Nat → Nat) : Nat × Flags :=
  (List.range (m.rows * m.cols)).foldl (fun (a : Nat × Flags) x =>
    let i := x / m.cols
    let j := x % m.cols
    let p := m.plan i j
    let d := fmaF p.1 (cost i j) a.1
    (d.1, a.2 ||| p.2 ||| d.2)) (0, 0)

def execMtdist (cost out : BitVec 12) (s : State) : Result :=
  matrixWord true s (fun s =>
    let c := s.seat.core
    let m := s.here.mx
    let a := cost.toNat
    let region := regionLines c a (2 * m.rows)
    if m.coop || !m.tp then .fault 3
    else if 4096 < a + 2 * m.rows ∨ (a ≤ out.toNat ∧ out.toNat < a + 2 * m.rows) then .fault 1
    else if region.any s.isEmpty || s.linesHeld out.toNat 1 then .wait
    else
      let d := m.distance (fun i j => leNat (s.spBytes c ((a + 2 * i) * 128 + 4 * j) 4))
      .ok (s.lineWrites false out.toNat ((f32Lines 1 [d.1]).map (fun b => (b, region.any s.isBad)))) wDrain d.2)

end Sys2Proof.Machine
end

