-- ==== Sys2Proof/Machine/Dispatch.lean ====
section
/-!
DEFINITION. One arm per constructor of `Instr`, each a call of its meaning.
-/

namespace Sys2Proof.Machine

def exec (i : Instr) (s : State) : Host.Outcome State Fault Refusal :=
  match i with
  | .add g d a b => Sys2Proof.Machine.execAdd g d a b s
  | .sub g d a b => Sys2Proof.Machine.execSub g d a b s
  | .mul g d a b => Sys2Proof.Machine.execMul g d a b s
  | .mulh g d a b => Sys2Proof.Machine.execMulh g d a b s
  | .mulhn g d a b => Sys2Proof.Machine.execMulhn g d a b s
  | .div g d a b => Sys2Proof.Machine.execDiv g d a b s
  | .divn g d a b => Sys2Proof.Machine.execDivn g d a b s
  | .rem g d a b => Sys2Proof.Machine.execRem g d a b s
  | .remn g d a b => Sys2Proof.Machine.execRemn g d a b s
  | .and g d a b => Sys2Proof.Machine.execAnd g d a b s
  | .or g d a b => Sys2Proof.Machine.execOr g d a b s
  | .xor g d a b => Sys2Proof.Machine.execXor g d a b s
  | .shl g d a b => Sys2Proof.Machine.execShl g d a b s
  | .shr g d a b => Sys2Proof.Machine.execShr g d a b s
  | .sra g d a b => Sys2Proof.Machine.execSra g d a b s
  | .rot g d a b => Sys2Proof.Machine.execRot g d a b s
  | .min g d a b => Sys2Proof.Machine.execMin g d a b s
  | .max g d a b => Sys2Proof.Machine.execMax g d a b s
  | .minn g d a b => Sys2Proof.Machine.execMinn g d a b s
  | .maxn g d a b => Sys2Proof.Machine.execMaxn g d a b s
  | .clz g d a => Sys2Proof.Machine.execClz g d a s
  | .ctz g d a => Sys2Proof.Machine.execCtz g d a s
  | .popc g d a => Sys2Proof.Machine.execPopc g d a s
  | .bextZReg g d a b => Sys2Proof.Machine.execBextZReg g d a b s
  | .binsReg g d a b => Sys2Proof.Machine.execBinsReg g d a b s
  | .bextSReg g d a b => Sys2Proof.Machine.execBextSReg g d a b s
  | .sel g qs d a b => Sys2Proof.Machine.execSel g qs d a b s
  | .addi g d a imm => Sys2Proof.Machine.execAddi g d a imm s
  | .andi g d a imm => Sys2Proof.Machine.execAndi g d a imm s
  | .ori g d a imm => Sys2Proof.Machine.execOri g d a imm s
  | .xori g d a imm => Sys2Proof.Machine.execXori g d a imm s
  | .shi g kind d a amt => Sys2Proof.Machine.execShi g kind d a amt s
  | .bextZ g d a off wm1 => Sys2Proof.Machine.execBextZ g d a off wm1 s
  | .bextS g d a off wm1 => Sys2Proof.Machine.execBextS g d a off wm1 s
  | .bins g d a off wm1 => Sys2Proof.Machine.execBins g d a off wm1 s
  | .li g d imm => Sys2Proof.Machine.execLi g d imm s
  | .lui g d imm => Sys2Proof.Machine.execLui g d imm s
  | .cmp g cc d a b => Sys2Proof.Machine.execCmp g cc d a b s
  | .cmpi g cc d a imm => Sys2Proof.Machine.execCmpi g cc d a imm s
  | .pand g d a b => Sys2Proof.Machine.execPand g d a b s
  | .por g d a b => Sys2Proof.Machine.execPor g d a b s
  | .pnot g d a => Sys2Proof.Machine.execPnot g d a s
  | .ldZ g sz d a off => Sys2Proof.Machine.execLdZ g sz d a off s
  | .ldS g sz d a off => Sys2Proof.Machine.execLdS g sz d a off s
  | .st g sz d a off => Sys2Proof.Machine.execSt g sz d a off s
  | .fsetFull g a => Sys2Proof.Machine.execFsetFull g a s
  | .fsetEmpty g a => Sys2Proof.Machine.execFsetEmpty g a s
  | .ftest g d a => Sys2Proof.Machine.execFtest g d a s
  | .ldg g a b lines => Sys2Proof.Machine.execLdg g a b lines s
  | .stg g a b lines => Sys2Proof.Machine.execStg g a b lines s
  | .tlook g d a => Sys2Proof.Machine.execTlook g d a s
  | .tset g a b => Sys2Proof.Machine.execTset g a b s
  | .tclr g a => Sys2Proof.Machine.execTclr g a s
  | .amo g op sz dep d a b => Sys2Proof.Machine.execAmo g op sz dep d a b s
  | .amocas g sz dep d a b => Sys2Proof.Machine.execAmocas g sz dep d a b s
  | .b g off => Sys2Proof.Machine.execB g off s
  | .call g off => Sys2Proof.Machine.execCall g off s
  | .ret g => Sys2Proof.Machine.execRet g s
  | .jt g a b => Sys2Proof.Machine.execJt g a b s
  | .lpad g label => Sys2Proof.Machine.execLpad g label s
  | .recv g d vc q => Sys2Proof.Machine.execRecv g d vc q s
  | .send g d a b => Sys2Proof.Machine.execSend g d a b s
  | .spawn g a b => Sys2Proof.Machine.execSpawn g a b s
  | .endTask g => Sys2Proof.Machine.execEndTask g s
  | .endJoin => Sys2Proof.Machine.execEndJoin s
  | .yield g wake tgt => Sys2Proof.Machine.execYield g wake tgt s
  | .safe g live => Sys2Proof.Machine.execSafe g live s
  | .waitc g d ld st cp mt => Sys2Proof.Machine.execWaitc g d ld st cp mt s
  | .forkMatrix g d tgt => Sys2Proof.Machine.execForkMatrix g d tgt s
  | .forkStream g d tgt => Sys2Proof.Machine.execForkStream g d tgt s
  | .rdv g tgt => Sys2Proof.Machine.execRdv g tgt s
  | .sbind g d a b => Sys2Proof.Machine.execSbind g d a b s
  | .scopy g d a b => Sys2Proof.Machine.execScopy g d a b s
  | .sim2c g d a b => Sys2Proof.Machine.execSim2c g d a b s
  | .sgath g d a b m => Sys2Proof.Machine.execSgath g d a b m s
  | .sstop g d b keep => Sys2Proof.Machine.execSstop g d b keep s
  | .fence g before after => Sys2Proof.Machine.execFence g before after s
  | .bar g a => Sys2Proof.Machine.execBar g a s
  | .bartest g d a => Sys2Proof.Machine.execBartest g d a s
  | .subs g d a b => Sys2Proof.Machine.execSubs g d a b s
  | .unsubs g a => Sys2Proof.Machine.execUnsubs g a s
  | .sflush g => Sys2Proof.Machine.execSflush g s
  | .nlook g a b => Sys2Proof.Machine.execNlook g a b s
  | .nins g d a => Sys2Proof.Machine.execNins g d a s
  | .nevict g d a => Sys2Proof.Machine.execNevict g d a s
  | .qpost g d a b => Sys2Proof.Machine.execQpost g d a b s
  | .cnct g d a => Sys2Proof.Machine.execCnct g d a s
  | .cncl g a => Sys2Proof.Machine.execCncl g a s
  | .mfs g d num => Sys2Proof.Machine.execMfs g d num s
  | .mts g a num => Sys2Proof.Machine.execMts g a num s
  | .nop g => Sys2Proof.Machine.execNop g s
  | .trap g code => Sys2Proof.Machine.execTrap g code s
  | .brk g => Sys2Proof.Machine.execBrk g s
  | .eret g => Sys2Proof.Machine.execEret g s
  | .mza => Sys2Proof.Machine.execMza s
  | .mzo => Sys2Proof.Machine.execMzo s
  | .mwin w => Sys2Proof.Machine.execMwin w s
  | .mfmt fa fb => Sys2Proof.Machine.execMfmt fa fb s
  | .mldaScratchpad line => Sys2Proof.Machine.execMldaScratchpad line s
  | .mldaPort sp => Sys2Proof.Machine.execMldaPort sp s
  | .mldb line => Sys2Proof.Machine.execMldb line s
  | .mmul ks rows => Sys2Proof.Machine.execMmul ks rows s
  | .mgmul ks list n => Sys2Proof.Machine.execMgmul ks list n s
  | .mscale sa sb => Sys2Proof.Machine.execMscale sa sb s
  | .mscaleUnit => Sys2Proof.Machine.execMscaleUnit s
  | .mrd acc drain sk row0 rows => Sys2Proof.Machine.execMrd acc drain sk row0 rows s
  | .mst bf16 line row0 rows => Sys2Proof.Machine.execMst bf16 line row0 rows s
  | .mxpose sideB src dst => Sys2Proof.Machine.execMxpose sideB src dst s
  | .mtopk rows ne k => Sys2Proof.Machine.execMtopk rows ne k s
  | .mtpld line rows cols => Sys2Proof.Machine.execMtpld line rows cols s
  | .mbal sweeps tol => Sys2Proof.Machine.execMbal sweeps tol s
  | .mtpstPlan line => Sys2Proof.Machine.execMtpstPlan line s
  | .mtpstPotentials line => Sys2Proof.Machine.execMtpstPotentials line s
  | .mtpstRelease line => Sys2Proof.Machine.execMtpstRelease line s
  | .mtdist cost out => Sys2Proof.Machine.execMtdist cost out s
  | .mjoin => Sys2Proof.Machine.execMjoin s
  | .mcoopOn => Sys2Proof.Machine.execMcoopOn s
  | .mcoopOff => Sys2Proof.Machine.execMcoopOff s
  | .eiadd w => Sys2Proof.Machine.execEiadd w s
  | .eisub w => Sys2Proof.Machine.execEisub w s
  | .eimul w => Sys2Proof.Machine.execEimul w s
  | .eimac w => Sys2Proof.Machine.execEimac w s
  | .eimin w => Sys2Proof.Machine.execEimin w s
  | .eimax w => Sys2Proof.Machine.execEimax w s
  | .eiand w => Sys2Proof.Machine.execEiand w s
  | .eior w => Sys2Proof.Machine.execEior w s
  | .eixor w => Sys2Proof.Machine.execEixor w s
  | .eishl w => Sys2Proof.Machine.execEishl w s
  | .eishr w => Sys2Proof.Machine.execEishr w s
  | .eisra w => Sys2Proof.Machine.execEisra w s
  | .eicmp w => Sys2Proof.Machine.execEicmp w s
  | .efadd w => Sys2Proof.Machine.execEfadd w s
  | .efsub w => Sys2Proof.Machine.execEfsub w s
  | .efmul w => Sys2Proof.Machine.execEfmul w s
  | .effma w => Sys2Proof.Machine.execEffma w s
  | .efmin w => Sys2Proof.Machine.execEfmin w s
  | .efmax w => Sys2Proof.Machine.execEfmax w s
  | .efcmp w => Sys2Proof.Machine.execEfcmp w s
  | .ecvt w => Sys2Proof.Machine.execEcvt w s
  | .eexp2 w => Sys2Proof.Machine.execEexp2 w s
  | .elog2 w => Sys2Proof.Machine.execElog2 w s
  | .ercp w => Sys2Proof.Machine.execErcp w s
  | .else2 w => Sys2Proof.Machine.execElse2 w s
  | .esel w => Sys2Proof.Machine.execEsel w s
  | .esteer w => Sys2Proof.Machine.execEsteer w s
  | .emerge w => Sys2Proof.Machine.execEmerge w s
  | .eexit w => Sys2Proof.Machine.execEexit w s
  | .erep w => Sys2Proof.Machine.execErep w s
  | .emark w => Sys2Proof.Machine.execEmark w s
  | .estrip w => Sys2Proof.Machine.execEstrip w s
  | .ecount w => Sys2Proof.Machine.execEcount w s
  | .ered w => Sys2Proof.Machine.execEred w s
  | .econst w => Sys2Proof.Machine.execEconst w s
  | .epass w => Sys2Proof.Machine.execEpass w s
  | .edrop w => Sys2Proof.Machine.execEdrop w s
  | .eld w => Sys2Proof.Machine.execEld w s
  | .est w => Sys2Proof.Machine.execEst w s
  | .ermw w => Sys2Proof.Machine.execErmw w s
  | .ebq w => Sys2Proof.Machine.execEbq w s
  | .ebdq w => Sys2Proof.Machine.execEbdq w s
  | .illegalInstruction w => Sys2Proof.Machine.execIllegalInstruction w s
  | .matrixPass c => Sys2Proof.Machine.execMatrixPass c s
  | .rowFiring c => Sys2Proof.Machine.execRowFiring c s
  | .mrdOutputDrain c => Sys2Proof.Machine.execMrdOutputDrain c s
  | .matrixWordComplete c => Sys2Proof.Machine.execMatrixWordComplete c s
  | .taskDispatch c => Sys2Proof.Machine.execTaskDispatch c s
  | .instanceAged c slot => Sys2Proof.Machine.execInstanceAged c slot s
  | .continuationWake c slot => Sys2Proof.Machine.execContinuationWake c slot s
  | .preemptForcedStop c => Sys2Proof.Machine.execPreemptForcedStop c s
  | .taskCommit c idx => Sys2Proof.Machine.execTaskCommit c idx s
  | .registerReplyArrival c idx => Sys2Proof.Machine.execRegisterReplyArrival c idx s
  | .unitCompletion c chain => Sys2Proof.Machine.execUnitCompletion c chain s
  | .cancelArrival idx => Sys2Proof.Machine.execCancelArrival idx s
  | .ldgLineArrival c idx => Sys2Proof.Machine.execLdgLineArrival c idx s
  | .stgWriteComplete c idx => Sys2Proof.Machine.execStgWriteComplete c idx s
  | .detentAtomic cl => Sys2Proof.Machine.execDetentAtomic cl s
  | .atomicDepositArrival c idx => Sys2Proof.Machine.execAtomicDepositArrival c idx s
  | .homeRecall cl line => Sys2Proof.Machine.execHomeRecall cl line s
  | .scratchpadAtomicStep c => Sys2Proof.Machine.execScratchpadAtomicStep c s
  | .pageWalk p die va => Sys2Proof.Machine.execPageWalk p die va s
  | .supervisorRetry p idx => Sys2Proof.Machine.execSupervisorRetry p idx s
  | .translationInvalidate p va => Sys2Proof.Machine.execTranslationInvalidate p va s
  | .streamCommandStart c port => Sys2Proof.Machine.execStreamCommandStart c port s
  | .streamSourceToken c port => Sys2Proof.Machine.execStreamSourceToken c port s
  | .streamSinkToken c port => Sys2Proof.Machine.execStreamSinkToken c port s
  | .streamCommandComplete c port => Sys2Proof.Machine.execStreamCommandComplete c port s
  | .sinkCompletionSweep launch => Sys2Proof.Machine.execSinkCompletionSweep launch s
  | .snapshotRequest c idx => Sys2Proof.Machine.execSnapshotRequest c idx s
  | .snapshotApply c idx => Sys2Proof.Machine.execSnapshotApply c idx s
  | .coalesceWindowClose c idx => Sys2Proof.Machine.execCoalesceWindowClose c idx s
  | .subscriptionUpdateApply c idx => Sys2Proof.Machine.execSubscriptionUpdateApply c idx s
  | .backlogWrite c idx => Sys2Proof.Machine.execBacklogWrite c idx s
  | .unsubsArrival c idx => Sys2Proof.Machine.execUnsubsArrival c idx s
  | .removalMarkPass c idx => Sys2Proof.Machine.execRemovalMarkPass c idx s
  | .ringPacketEntry c ring freeBuffers => Sys2Proof.Machine.execRingPacketEntry c ring freeBuffers s
  | .reductionMerge i1 i2 => Sys2Proof.Machine.execReductionMerge i1 i2 s
  | .circuitTokenTransfer idx hop => Sys2Proof.Machine.execCircuitTokenTransfer idx hop s
  | .rowTagArrival c port => Sys2Proof.Machine.execRowTagArrival c port s
  | .memoryNodeReply c idx => Sys2Proof.Machine.execMemoryNodeReply c idx s
  | .nodeNaming launch node port => Sys2Proof.Machine.execNodeNaming launch node port s
  | .nameLookup launch node port => Sys2Proof.Machine.execNameLookup launch node port s
  | .controlNameResolve launch node => Sys2Proof.Machine.execControlNameResolve launch node s
  | .shapeWordArrival launch node port => Sys2Proof.Machine.execShapeWordArrival launch node port s
  | .demandRequest launch node => Sys2Proof.Machine.execDemandRequest launch node s
  | .anchorServe launch node port => Sys2Proof.Machine.execAnchorServe launch node port s
  | .retention launch node port => Sys2Proof.Machine.execRetention launch node port s
  | .nlookDeposit p idx => Sys2Proof.Machine.execNlookDeposit p idx s
  | .nameEngineStatus p idx => Sys2Proof.Machine.execNameEngineStatus p idx s
  | .holdRelease p idx => Sys2Proof.Machine.execHoldRelease p idx s
  | .queueNotify q tail => Sys2Proof.Machine.execQueueNotify q tail s
  | .commandRead q => Sys2Proof.Machine.execCommandRead q s
  | .commandRetryTimeout q => Sys2Proof.Machine.execCommandRetryTimeout q s
  | .runJob q => Sys2Proof.Machine.execRunJob q s
  | .cancelJob q => Sys2Proof.Machine.execCancelJob q s
  | .strideDispatch => Sys2Proof.Machine.execStrideDispatch s
  | .launchNodeDispatch gr node => Sys2Proof.Machine.execLaunchNodeDispatch gr node s
  | .copyNodeDispatch gr node => Sys2Proof.Machine.execCopyNodeDispatch gr node s
  | .copyNodeComplete gr node => Sys2Proof.Machine.execCopyNodeComplete gr node s
  | .condNodeDispatch gr node => Sys2Proof.Machine.execCondNodeDispatch gr node s
  | .loopNodeDispatch gr node => Sys2Proof.Machine.execLoopNodeDispatch gr node s
  | .loopIterationEnd gr node => Sys2Proof.Machine.execLoopIterationEnd gr node s
  | .barNodeDispatch gr node => Sys2Proof.Machine.execBarNodeDispatch gr node s
  | .doneNodeDispatch gr node => Sys2Proof.Machine.execDoneNodeDispatch gr node s
  | .nodeFinish gr node => Sys2Proof.Machine.execNodeFinish gr node s
  | .launchCompletion launch => Sys2Proof.Machine.execLaunchCompletion launch s
  | .recordCheckpoint p => Sys2Proof.Machine.execRecordCheckpoint p s
  | .phaseBoundary job => Sys2Proof.Machine.execPhaseBoundary job s
  | .replicaCopyComplete p ok => Sys2Proof.Machine.execReplicaCopyComplete p ok s
  | .jobCompletion job => Sys2Proof.Machine.execJobCompletion job s
  | .tokenRefill => Sys2Proof.Machine.execTokenRefill s
  | .queueDescriptorWrite q v => Sys2Proof.Machine.execQueueDescriptorWrite q v s
  | .faultQueueDescriptorWrite fq v => Sys2Proof.Machine.execFaultQueueDescriptorWrite fq v s
  | .faultRecordWrite fq => Sys2Proof.Machine.execFaultRecordWrite fq s
  | .modeRegisterWrite p v => Sys2Proof.Machine.execModeRegisterWrite p v s
  | .nameDomainSet p cfg => Sys2Proof.Machine.execNameDomainSet p cfg s
  | .supervisorRegisterWrite r => Sys2Proof.Machine.execSupervisorRegisterWrite r s
  | .preemptRequest p => Sys2Proof.Machine.execPreemptRequest p s
  | .quiescence p => Sys2Proof.Machine.execQuiescence p s
  | .clusterSave p vcl => Sys2Proof.Machine.execClusterSave p vcl s
  | .resume p => Sys2Proof.Machine.execResume p s
  | .debugHaltRequest c => Sys2Proof.Machine.execDebugHaltRequest c s
  | .scrub c => Sys2Proof.Machine.execScrub c s
  | .uncorrectableError w => Sys2Proof.Machine.execUncorrectableError w s
  | .linkRetransmit l => Sys2Proof.Machine.execLinkRetransmit l s
  | .keyUpdate l => Sys2Proof.Machine.execKeyUpdate l s
  | .keyExchange l => Sys2Proof.Machine.execKeyExchange l s
  | .chronographLatch => Sys2Proof.Machine.execChronographLatch s
  | .deviceReset => Sys2Proof.Machine.execDeviceReset s
  | .imageLengthWrite len => Sys2Proof.Machine.execImageLengthWrite len s
  | .bar2HostAccess acc => Sys2Proof.Machine.execBar2HostAccess acc s
  | .getMeasurements nonce => Sys2Proof.Machine.execGetMeasurements nonce s
  | .challenge nonce => Sys2Proof.Machine.execChallenge nonce s
  | .getCertificate => Sys2Proof.Machine.execGetCertificate s
  | .readTemperatures die => Sys2Proof.Machine.execReadTemperatures die s
  | .setPowerLimit watts => Sys2Proof.Machine.execSetPowerLimit watts s
  | .setDvfsFloorCeiling cl lo hi => Sys2Proof.Machine.execSetDvfsFloorCeiling cl lo hi s
  | .setChronographT t => Sys2Proof.Machine.execSetChronographT t s
  | .readErrorCounters die => Sys2Proof.Machine.execReadErrorCounters die s
  | .requestPreemption p => Sys2Proof.Machine.execRequestPreemption p s
  | .requestResume p clusters => Sys2Proof.Machine.execRequestResume p clusters s
  | .setPartitionMode p dbg det => Sys2Proof.Machine.execSetPartitionMode p dbg det s
  | .dvfsMonitorWindow cl pressured total => Sys2Proof.Machine.execDvfsMonitorWindow cl pressured total s
  | .powerLimitStep watts => Sys2Proof.Machine.execPowerLimitStep watts s
  | .objectLoad p file => Sys2Proof.Machine.execObjectLoad p file s
  | .objectUnload p obj => Sys2Proof.Machine.execObjectUnload p obj s
  | .correctedSingleBitError die => Sys2Proof.Machine.execCorrectedSingleBitError die s
  | .hbmUncorrectableError unit => Sys2Proof.Machine.execHbmUncorrectableError unit s

end Sys2Proof.Machine
end

