-- ==== Sys2Proof/Machine/Step.lean ====
section
/-!
DEFINITION. One step: the next turn, and the instruction that it executes.
-/

namespace Sys2Proof.Machine

/-- One step of the machine. -/
def step (s : State) : Host.Outcome State Fault Refusal :=
  match (s.nextTurn.2).turn s.nextTurn.1 with
  | (.run i, t) => exec i t
  | (.done t, _) => .next t

/-- The state with a table word stored where `step` fetches its next instruction
(notes/assumptions/7.md). -/
def State.withFetchWord (s : State) (nbits w : Nat) : State :=
  let q := match decodeTableWord nbits w with
    | some i => fetchSeq i
    | none => .control
  s.placeWord (BitVec.ofNat 32 w) q

end Sys2Proof.Machine
end

