-- ==== Sys2Proof/Safety.lean ====
section
/-!
DEFINITION. What counts as a safe run, and the terms in which statements say what a step does: when a word
issues, what it completes with, and what it leaves unchanged.
-/

namespace Sys2Proof.Machine

/-! ## Safe runs -/

/-- A run of any length from a state goes on: no step faults and none is refused. The manual stops the
machine nowhere; a trap, a stall and a faulted level are next states. -/
def Safe (s : State) : Prop := ∀ k, ∃ t, Host.Core.run Sys2Proof.core k s = .next t

/-- Memory lists its bytes in the one canonical form (notes/assumptions/5.md). -/
def State.MemoryCanonical (s : State) : Prop := Memory.wf s.mem

/-- The guard that a control word carries (R289). -/
def guardOf : Instr → Option Guard
  | .add g _ _ _ => some g
  | .sub g _ _ _ => some g
  | .mul g _ _ _ => some g
  | .mulh g _ _ _ => some g
  | .mulhn g _ _ _ => some g
  | .div g _ _ _ => some g
  | .divn g _ _ _ => some g
  | .rem g _ _ _ => some g
  | .remn g _ _ _ => some g
  | .and g _ _ _ => some g
  | .or g _ _ _ => some g
  | .xor g _ _ _ => some g
  | .shl g _ _ _ => some g
  | .shr g _ _ _ => some g
  | .sra g _ _ _ => some g
  | .rot g _ _ _ => some g
  | .min g _ _ _ => some g
  | .max g _ _ _ => some g
  | .minn g _ _ _ => some g
  | .maxn g _ _ _ => some g
  | .clz g _ _ => some g
  | .ctz g _ _ => some g
  | .popc g _ _ => some g
  | .bextZReg g _ _ _ => some g
  | .binsReg g _ _ _ => some g
  | .bextSReg g _ _ _ => some g
  | .sel g _ _ _ _ => some g
  | .addi g _ _ _ => some g
  | .andi g _ _ _ => some g
  | .ori g _ _ _ => some g
  | .xori g _ _ _ => some g
  | .shi g _ _ _ _ => some g
  | .bextZ g _ _ _ _ => some g
  | .bextS g _ _ _ _ => some g
  | .bins g _ _ _ _ => some g
  | .li g _ _ => some g
  | .lui g _ _ => some g
  | .cmp g _ _ _ _ => some g
  | .cmpi g _ _ _ _ => some g
  | .pand g _ _ _ => some g
  | .por g _ _ _ => some g
  | .pnot g _ _ => some g
  | .ldZ g _ _ _ _ => some g
  | .ldS g _ _ _ _ => some g
  | .st g _ _ _ _ => some g
  | .fsetFull g _ => some g
  | .fsetEmpty g _ => some g
  | .ftest g _ _ => some g
  | .ldg g _ _ _ => some g
  | .stg g _ _ _ => some g
  | .tlook g _ _ => some g
  | .tset g _ _ => some g
  | .tclr g _ => some g
  | .amo g _ _ _ _ _ _ => some g
  | .amocas g _ _ _ _ _ => some g
  | .b g _ => some g
  | .call g _ => some g
  | .ret g => some g
  | .jt g _ _ => some g
  | .lpad g _ => some g
  | .recv g _ _ _ => some g
  | .send g _ _ _ => some g
  | .spawn g _ _ => some g
  | .endTask g => some g
  | .yield g _ _ => some g
  | .safe g _ => some g
  | .waitc g _ _ _ _ _ => some g
  | .forkMatrix g _ _ => some g
  | .forkStream g _ _ => some g
  | .rdv g _ => some g
  | .sbind g _ _ _ => some g
  | .scopy g _ _ _ => some g
  | .sim2c g _ _ _ => some g
  | .sgath g _ _ _ _ => some g
  | .sstop g _ _ _ => some g
  | .fence g _ _ => some g
  | .bar g _ => some g
  | .bartest g _ _ => some g
  | .subs g _ _ _ => some g
  | .unsubs g _ => some g
  | .sflush g => some g
  | .nlook g _ _ => some g
  | .nins g _ _ => some g
  | .nevict g _ _ => some g
  | .qpost g _ _ _ => some g
  | .cnct g _ _ => some g
  | .cncl g _ => some g
  | .mfs g _ _ => some g
  | .mts g _ _ => some g
  | .nop g => some g
  | .trap g _ => some g
  | .brk g => some g
  | .eret g => some g
  | _ => none

/-! ## Completion -/

/-- The instruction answers a next state, of which `P` holds. -/
def Completes (i : Instr) (s : State) (P : State → Prop) : Prop := ∃ t, exec i s = .next t ∧ P t

/-- A control word of the seat's core reaches its effect: a task runs and is not cancelled, no result that
the word needs is owed, the count of instructions since a safe point is below its limit, and the guard is
true (R67, R291, R298, R314). -/
def Issues (s : State) (g : Guard) (uses : List Dest) : Prop :=
  s.seat.seq = .control ∧ s.here.ctl.slot ≠ none ∧ s.here.ctl.killed = false ∧ s.stalled g uses = false
    ∧ s.here.ctl.safecnt < 2048 ∧ s.guard g = true

/-- The running task's effects need no ordered-domain check first: the task is in no ordered domain, or is
irrevocable already (R174). -/
def Unordered (s : State) : Prop := s.here.taskOrd = false ∨ s.here.ctl.work.irrev = true

/-- A matrix word of the seat's core issues: the sequencer runs, no draining word and no copy of an `mrd` is before
it, a draining word finds none before it, no fence holds it, and the chain's cnt.mt has room or counts the word
already, because it has waited (R102, R107, R180, R375). -/
def MatrixIssues (s : State) (drain : Bool) : Prop :=
  s.seat.seq = .matrix ∧ s.here.mx.active = true ∧ s.here.mx.halt = false ∧ s.here.frozen = false
    ∧ s.here.mx.words.any MWord.drains = false ∧ (drain = true → s.here.mx.words = [])
    ∧ s.fenced s.seat.core 2 s.opSeq = false ∧ s.here.mx.copy = none
    ∧ (s.here.mx.held = true ∨ (s.here.chain s.here.mx.chain).mt ≠ 65535)

/-- The issued words of the matrix chain, without the word at the sequencer if it waits there (R72). -/
def wordsOut (s : State) : Nat := (s.here.chain s.here.mx.chain).mt - if s.here.mx.held then 1 else 0

/-- The machine once its running task is irrevocable (R174). -/
def irrevocably (s : State) : State :=
  s.modCtl s.seat.core (fun x => { x with work := { x.work with irrev := true } })

/-- The running task holds the oldest stamp of its ordered domain (R172). -/
def oldestHere (s : State) : Bool :=
  s.oldest (s.here.chain s.here.ctl.chain).launch s.seat.core (s.here.ctl.slot.getD 64) s.here.ctl.stamp

/-! ## Frames -/

/-- Every byte of memory reads as before. -/
def MemoryKept (s t : State) : Prop := ∀ a, t.mem.read a = s.mem.read a

/-- An ordered-domain task makes itself irrevocable before the word acts: with the oldest stamp it goes on so, else it
is undone and waits to hold the oldest stamp (R174). -/
def IrrevocableFirst (i : Instr) (s : State) : Prop :=
  s.here.taskOrd = true → s.here.ctl.work.irrev = false →
    (oldestHere s = true → exec i s = exec i (irrevocably s))
    ∧ (oldestHere s = false → ∀ n x, s.here.ctl.slot = some n → Tbl.find s.here.slots n = some x →
      (∀ m e a st cy, Out.spawn m e a st cy ∈ s.here.ctl.work.outs → m ≠ n) →
      Completes i s (fun t => t.here.ctl.slot = none ∧ MemoryKept s t
        ∧ ∃ y, Tbl.find t.here.slots n = some y ∧ y.st = .waitOldest ∧ y.start = x.start ∧ y.stamp = x.stamp))

/-- Nothing but the core's record differs: every other core, all memory and every other part of the
machine stand. -/
def OnlyCore (c : Nat) (s t : State) : Prop := t = s.setCore c (t.core c)

/-- Of the seat's core only the control registers differ, and of the machine nothing else. -/
def OnlyCtl (s t : State) : Prop := t = s.setCore s.seat.core { s.here with ctl := t.here.ctl }

/-- The task goes on at the next word, which counts as one instruction (R67). -/
def StepsPc (s t : State) : Prop :=
  t.here.ctl.pc = s.here.ctl.pc + 1 ∧ t.here.ctl.safecnt = s.here.ctl.safecnt + 1

/-- The frame of a word that works on registers only: the general registers, the predicates, the pc and
`safecnt` may change; the other control registers, every special register, every other core and all memory
stand. -/
def RegistersOnly (s t : State) : Prop :=
  OnlyCtl s t
    ∧ t.here.ctl = { s.here.ctl with
        g := t.here.ctl.g, q := t.here.ctl.q, pc := t.here.ctl.pc, safecnt := t.here.ctl.safecnt }
    ∧ MemoryKept s t

/-- The frame of a word that works for its task alone: the general registers, the predicates, the pc,
`safecnt` and the task's own record of its work (write buffer, read set and promises) may change; everything
else of the machine, every byte of memory among it, stands. -/
def TaskOnly (s t : State) : Prop :=
  OnlyCtl s t
    ∧ t.here.ctl = { s.here.ctl with
        g := t.here.ctl.g, q := t.here.ctl.q, pc := t.here.ctl.pc, safecnt := t.here.ctl.safecnt
        work := t.here.ctl.work }
    ∧ MemoryKept s t

/-- Register d holds v, or the value is discarded when d is g0; every other register, every predicate and
everything else stands, and the task goes on at the next word. -/
def WritesReg (d : Reg) (v : Word) (s t : State) : Prop :=
  (∀ r, t.reg r = if r = d ∧ r ≠ 0 then v else s.reg r) ∧ (∀ p, t.pred p = s.pred p)
    ∧ StepsPc s t ∧ RegistersOnly s t

/-- Predicate d holds v, or the value is discarded when d is q0; everything else as in `WritesReg`. -/
def WritesPred (d : Pred) (v : Bool) (s t : State) : Prop :=
  (∀ p, t.pred p = if p = d ∧ p ≠ 0 then v else s.pred p) ∧ (∀ r, t.reg r = s.reg r)
    ∧ StepsPc s t ∧ RegistersOnly s t

/-- Registers and predicates stand, and the task goes on at the next word. -/
def NextWord (s t : State) : Prop :=
  (∀ r, t.reg r = s.reg r) ∧ (∀ p, t.pred p = s.pred p) ∧ StepsPc s t

/-- The seat's core has taken an exception (R226): `cause`, `epc` and `evalue` are written, the sequencer is
idle, and every byte of memory reads as before. -/
def Traps (cause : Nat) (ev : Word) (s t : State) : Prop :=
  t.here.cause = BitVec.ofNat 64 cause ∧ t.here.epc = BitVec.ofNat 64 s.here.ctl.pc ∧ t.here.evalue = ev
    ∧ t.here.ctl.slot = none ∧ MemoryKept s t

/-! ## What the manual's words for operands say -/

/-- Bit i of the field of `w` bits of x from `off`: bits beyond 63 read as zero (R324). -/
def fieldBit (x : Word) (off w i : Nat) : Bool := decide (i < w) && x.getLsbD (off + i)

/-- The byte that a task reads at offset `o` of core `t`'s scratchpad: its own buffered byte, else memory's
(R116, R368). -/
def State.taskByte (s : State) (t o : Nat) : Byte :=
  (Tbl.find s.here.ctl.work.wbuf (t * 2 ^ 19 + o)).getD (s.mem.read (spKey t o))

/-- The little-endian number in `n` bytes that a task reads (R2). -/
def State.taskNat (s : State) (t o n : Nat) : Nat := leNat ((List.range n).map (fun i => s.taskByte t (o + i)))

/-- A load of `n` bytes at an address reads offset `o` of core `t`: it lies in one window, it is aligned, no atomic
holds its word at the port, its line is full and, where a byte comes from memory, clean; the task needs no ordered-domain check for it (R65,
R115, R139, R174, R368). -/
def Readable (s : State) (addr : Word) (n t o : Nat) : Prop :=
  placeOf s.seat.core addr n = .scratch t o ∧ addr.toNat % n = 0 ∧ (s.core t).wordHeld o n = false
    ∧ s.isEmpty (lineKey t (o / 128)) = false
    ∧ (s.isBad (lineKey t (o / 128)) = true → ∀ i < n, (Tbl.find s.here.ctl.work.wbuf (t * 2 ^ 19 + o + i)).isSome)
    ∧ (s.here.ctl.work.reads.length < 128 ∨ Unordered s)

/-- What each condition of a compare says (R326). -/
def condHolds (cc : Cc) (x y : Word) : Bool :=
  match cc with
  | .eq => x == y
  | .ne => x != y
  | .lt => x.slt y
  | .ge => y.sle x
  | .ltn => x.ult y
  | .gen => y.ule x

/-! ## Terms of the statements -/

/-- Predicate d holds v, every register stands, and the task goes on. -/
def AnswersPred (d : Pred) (v : Bool) (s t : State) : Prop :=
  (∀ p, t.pred p = if p = d ∧ p ≠ 0 then v else s.pred p) ∧ (∀ r, t.reg r = s.reg r) ∧ StepsPc s t ∧ MemoryKept s t


/-- Register d holds v, every other register and every predicate stands, and the task goes on. -/
def AnswersReg (d : Reg) (v : Word) (s t : State) : Prop :=
  (∀ r, t.reg r = if r = d ∧ r ≠ 0 then v else s.reg r) ∧ (∀ p, t.pred p = s.pred p) ∧ StepsPc s t ∧ MemoryKept s t

/-- Register d is owed a reply, whose value is known or not yet (R314); the task goes on. -/
def OwesReg (d : Reg) (v : Option Word) (unb : Bool) (s t : State) : Prop :=
  NextWord s t ∧ t.here.owed = s.here.owed ++ [⟨s.fresh, s.here.ctl.run, .g d, v, unb⟩]


/-- A matrix word waits at the sequencer: it stays there, issued and counted once in cnt.mt; nothing else differs
(R72, R98, R375). -/
def MatrixWaits (drain : Bool) (s t : State) : Prop :=
  t = if s.here.mx.held then s else s.setCore s.seat.core { s.here with
    mx := { s.here.mx with held := true, heldDr := drain }
    chains := s.here.chains.put s.here.mx.chain
      { s.here.chain s.here.mx.chain with mt := (s.here.chain s.here.mx.chain).mt + 1 } }

/-- A matrix word of the seat's core has issued, and of the machine only the matrix unit differs: the
sequencer is at its next word, the word is counted in cnt.mt and stands among the issued words until it
completes, and the unit is `m` apart from that (R72, R102). -/
def MatrixIssued (s : State) (kind : Nat) (flags : Flags) (m : Mx) (t : State) : Prop :=
  t = { s.setCore s.seat.core { s.here with mx := t.here.mx, chains := t.here.chains } with
        fresh := s.fresh + 1, opSeq := s.opSeq + 1 }
    ∧ t.here.mx = { m with
        pc := s.here.mx.pc + 1, held := false
        words := s.here.mx.words ++ [⟨s.fresh, s.here.mx.pc, kind, flags, s.here.mx.chain, s.opSeq⟩] }
    ∧ t.here.chains = s.here.chains.put s.here.mx.chain
        { s.here.chain s.here.mx.chain with mt := wordsOut s + 1 }

/-- The matrix sequencer has stopped at its word with a fault code: the rest of the unit stands, the chain's
unit is faulted, the task's registers and every byte of memory stand (R113). -/
def MatrixFaults (s : State) (fc : BitVec 4) (t : State) : Prop :=
  t.here.mx = { s.here.mx with halt := true, fcode := fc, held := false }
    ∧ (t.here.chain s.here.mx.chain).status = .faulted ∧ t.here.ctl = s.here.ctl ∧ MemoryKept s t

/-- `n` whole scratchpad lines of the seat's core have been written from `line` on: each is full, holds its
bytes and has its poison; every byte elsewhere reads as before, and every other line keeps its state. -/
def LinesWritten (line n : Nat) (byte : Nat → Nat → Byte) (bad : Nat → Bool) (s t : State) : Prop :=
  (∀ k < n, t.isEmpty (lineKey s.seat.core (line + k)) = false
    ∧ t.isBad (lineKey s.seat.core (line + k)) = bad k
    ∧ ∀ i < 128, t.mem.read (spKey s.seat.core ((line + k) * 128 + i)) = byte k i)
  ∧ (∀ a, (a < spKey s.seat.core (line * 128) ∨ spKey s.seat.core ((line + n) * 128) ≤ a) →
      t.mem.read a = s.mem.read a)
  ∧ (∀ l, (l < lineKey s.seat.core line ∨ lineKey s.seat.core (line + n) ≤ l) →
      t.isEmpty l = s.isEmpty l ∧ t.isBad l = s.isBad l)

/-- A draining word of the matrix unit that wrote scratchpad lines has taken its effect: as `MatrixIssued` with
the unit otherwise `m`, and instance slots that waited for the lines may have become ready (R65). -/
def MatrixWrote (s : State) (flags : Flags) (m : Mx) (t : State) : Prop :=
  t.here = { s.here with
      slots := t.here.slots
      mx := { m with
        pc := s.here.mx.pc + 1, held := false
        words := s.here.mx.words ++ [⟨s.fresh, s.here.mx.pc, wDrain, flags, s.here.mx.chain, s.opSeq⟩] }
      chains := s.here.chains.put s.here.mx.chain
        { s.here.chain s.here.mx.chain with mt := wordsOut s + 1 } }
    ∧ ∀ c ≠ s.seat.core, t.core c = { s.core c with slots := (t.core c).slots }

/-- Byte i of the little-endian bytes of a number (R2). -/
def byteOf (v i : Nat) : Byte := BitVec.ofNat 8 (v / 256 ^ i)

/-- The core after a lane's token has gone out: its flags show in `lstat`, and each switch word of the outputs it
takes has put it at its destination (R48, R77, R81). -/
def sent (cyc n : Nat) (e : Emit) (k : Core) : Core :=
  let k := k.raise cyc e.flags
  let k := if e.arm0 then (k.routes n).foldl (fun k w => k.put e.tok w) k else k
  if e.arm1 then (k.routes (n + 1)).foldl (fun k w => k.put e.tok w) k else k

/-- The lane of the seat has fired: the head of each queue in `takes` is gone, the first token of `outs` has gone
out and the lane owes the others, its state is `l`, and it may consume again once its interval is over (R82, R331).
A lane that R153 forbids a token may have stopped; of the machine nothing else differs but the launch's record. -/
def LaneFired (w : LaneArgs) (takes : List Nat) (outs : List Emit) (l : Lane) (s t : State) : Prop :=
  t.here = { (match outs with
      | [] => s.here.takeHeads s.seat.lane takes
      | e :: _ => sent s.cycle s.seat.lane e (s.here.takeHeads s.seat.lane takes)) with lanes := t.here.lanes }
    ∧ t.here.lane s.seat.lane = { l with
        due := if takes.isEmpty then l.due else s.cycle + w.rate.toNat + 1
        out := outs.tail
        stopped := (t.here.lane s.seat.lane).stopped }
    ∧ (∀ c ≠ s.seat.core, t.core c = { s.core c with lanes := (t.core c).lanes })
    ∧ t.seat = s.seat ∧ MemoryKept s t

/-- The lane of the seat may fire, as far as its interval and the room for a first token go: a token of a kind on
its outputs has a slot at each destination (R82). -/
def LaneReady (s : State) (arm0 arm1 : Bool) (kind : BitVec 3) : Prop :=
  (s.here.lane s.seat.lane).due ≤ s.cycle
    ∧ s.here.ready s.seat.lane { arm0 := arm0, arm1 := arm1, tok := { kind := kind } } = true

/-- The queues that an operation reads: A, B unless it is the immediate, and C (R79, R331). -/
def laneUses (w : LaneArgs) (useB useC : Bool) : List Nat :=
  [laneA w] ++ (if useB && !w.bimm then [laneB w] else []) ++ (if useC then [3] else [])

/-- A token whose element i is `f i`, modulo the element's width, with the flags that some element raised. -/
def ElementsAre (wd : Nat) (f : Nat → Nat × Flags) (tok : Token) (fl : Flags) : Prop :=
  tok.poison = false ∧ tok.kind = 0 ∧ (∀ i < 32 / wd, elemAt wd tok.value.toNat i = (f i).1 % 2 ^ wd)
    ∧ ∀ b < 5, (fl.getLsbD b = true ↔ ∃ i < 32 / wd, (f i).2.getLsbD b = true)

/-- The lane of the seat has clean data at the head of each queue that it reads: a, b and c; b is the immediate
where the word says so. -/
def LaneData (s : State) (w : LaneArgs) (useC : Bool) (a b c : Token) : Prop :=
  s.here.head s.seat.lane (laneA w) = some a ∧ a.kind = 0 ∧ a.poison = false
    ∧ (if w.bimm then b.value.toNat = immWord w.fmt w.imm
      else s.here.head s.seat.lane (laneB w) = some b ∧ b.kind = 0 ∧ b.poison = false)
    ∧ (useC = true → s.here.head s.seat.lane 3 = some c ∧ c.kind = 0 ∧ c.poison = false)
    ∧ LaneReady s true false 0

/-- The lane has fired with one token, whose elements are `f` of the operands' elements. -/
def LaneGives (w : LaneArgs) (useC : Bool) (a b c : Token) (f : Nat → Nat → Nat → Nat × Flags) (s t : State) :
    Prop :=
  ∃ tok fl, ElementsAre (fmtWidth w.fmt) (fun i => f (elemAt (fmtWidth w.fmt) a.value.toNat i)
      (elemAt (fmtWidth w.fmt) b.value.toNat i) (elemAt (fmtWidth w.fmt) c.value.toNat i)) tok fl
    ∧ LaneFired w (laneUses w true useC) [{ own tok with flags := fl }] (s.here.lane s.seat.lane) s t

/-- The value of an element in the format of a lane word. -/
abbrev val (w : LaneArgs) (x : Nat) : Fl := fmtDecode w.fmt w.imm x

/-- An exact result rounded once, to nearest even, in the format of a lane word, with the flags of the operation
and of the rounding. -/
abbrev rounded (w : LaneArgs) (r : Fl × Flags) : Nat × Flags :=
  ((fmtEncode w.fmt w.imm .rne r.1).1, r.2 ||| (fmtEncode w.fmt w.imm .rne r.1).2)

/-- The lane of the seat has stopped with the marker-mismatch fault, and keeps its queues (R83). -/
def LaneStops (s t : State) : Prop :=
  (t.here.lane s.seat.lane).stopped = true ∧ t.here.queues = s.here.queues ∧ t.here.ctl = s.here.ctl ∧ MemoryKept s t

/-- A core may be given a task: none runs on it, nothing of its partition is being pre-empted, it does not stand
still, and no subscription waits to be live again (R60, R137, R237). -/
def MayDispatch (s : State) (c : Nat) : Prop :=
  (s.core c).ctl.slot = none ∧ (s.core c).preempt = none ∧ (s.core c).frozen = false
    ∧ (s.part (s.core c).part).pre = .running ∧ (∀ u ∈ s.subs, u.sub = c → u.resync = false)

/-- The commit at the head of its ordered domain's order, or one of the free domain, may begin: no fence holds it, what
its task has issued ahead of its stores has acted, and no other commit of the domain is under way (R168, R172, R176,
R180). -/
def CommitMay (s : State) (c : Nat) (m : Commit) : Prop :=
  s.fenced c 0 m.seq = false ∧ s.actsDue c m.run = false
    ∧ (m.ord = true → s.oldest m.launch c (m.slot.getD 64) m.stamp = true ∧ s.domainBusy m = false)

/-- The instance of a slot has started on a core with the registers of R53 and R55; every byte of memory stands. -/
def Started (c n : Nat) (x : Slot) (run : Nat) (s u : State) : Prop :=
  (u.core c).ctl = { slot := some n, run := run, pc := x.start.toNat, g := startRegs x.carry
                     task := taskWord c x.start ((s.core c).task x.idx) x.how x.idx, stamp := x.stamp, chain := x.chain
                     work := { irrev := x.irrev || x.st == .waitOldest } }
    ∧ (u.core c).slots = (s.core c).slots.put n
      { x with st := .running, irrev := x.irrev || x.st == .waitOldest, oldAt := none }
    ∧ u.mem = s.mem

/-- An instance of the ordered domain that precedes one which the domain has committed is late (R172). -/
def Late (s : State) (c : Nat) (x : Slot) (launch : Nat) : Prop :=
  ((s.core c).task x.idx).ord = true
    ∧ ∃ l y, s.launches.find launch = some l ∧ l.last = some y ∧ x.stamp.toNat < y.1

/-- The instance has been dispatched and has trapped at once: it has started nothing, and every byte of memory stands
(R172, R226, R246). -/
def DispatchTraps (c cause : Nat) (ev : Word) (s u : State) : Prop :=
  (u.core c).cause = BitVec.ofNat 64 cause ∧ (u.core c).evalue = ev ∧ (u.core c).ctl.slot = none ∧ u.mem = s.mem

/-- What a dispatch of the instance comes to: it starts, or it traps because an uncorrectable error has hit its entry, or
because it is late (R53, R172, R246). -/
def Dispatches (i : Instr) (c n : Nat) (x : Slot) (run launch : Nat) (s : State) (P : State → Prop) : Prop :=
  ((s.core c).badTasks.contains x.idx = true → Completes i s (DispatchTraps c 22 (Config.structureNumber 1) s))
    ∧ ((s.core c).badTasks.contains x.idx = false → Late s c x launch → Completes i s (DispatchTraps c 12 x.stamp s))
    ∧ ((s.core c).badTasks.contains x.idx = false → ¬ Late s c x launch →
      Completes i s (fun u => Started c n x run s u ∧ P u))

/-- The commits of a core with the one of an identifier at a stage (R169). -/
def atStage (id : Nat) (st : CommitStage) (l : List Commit) : List Commit :=
  l.map (fun y => if y.id = id then { y with stage := st } else y)

/-- A memory node of the seat has consumed its operands and a done token of each lane it waits for, and its access
is the last of those in flight; memory stands (R90, R91). -/
def NodeQueued (w : LaneArgs) (qs : List Nat) (m : MemReq) (s u : State) : Prop :=
  u.here = { (({ s.here.takeHeads s.seat.lane qs with
        lanes := s.here.lanes.put s.seat.lane { s.here.lane s.seat.lane with due := s.cycle + w.rate.toNat + 1 } } :
          Core).takeDones s.seat.lane) with memreqs := s.here.memreqs ++ [m] }
    ∧ u.seat = s.seat ∧ MemoryKept s u

/-- The token that a memory node emits for an access that has taken place: `est` emits none (R90, R349). -/
def nodeToken (m : MemReq) : Option Token :=
  if m.op = .est then none else m.res.map (fun x => { poison := x.2, value := x.1 })

/-- The core after a memory node's access has taken place with a value: its done tokens are given, and the tokens of
the lane's leading accesses that have taken place stand at each destination, in firing order (R82, R91, R350). -/
def answered (m : MemReq) (v : Nat) (bad : Bool) (k : Core) : Core :=
  let reqs := k.memreqs.map (fun x =>
    if x.lane = m.lane ∧ x.seq = m.seq then { x with seen := true, res := some (BitVec.ofNat 32 v, bad) } else x)
  let k := ({ k with memreqs := reqs } : Core).giveDones m.lane m.scope
  let out := (k.memreqs.filter (fun x => x.lane == m.lane)).takeWhile (·.seen)
  let rest := k.memreqs.filter (fun x => !(out.any (fun y => y.lane == x.lane && y.seq == x.seq)))
  (out.filterMap nodeToken).foldl (fun k t => (k.routes m.lane).foldl (fun k w => k.put t w) k) { k with memreqs := rest }

/-- An access of core c has taken place; of the core's lanes only whether R153 has stopped one may differ. -/
def AccessDone (c : Nat) (m : MemReq) (v : Nat) (bad : Bool) (k : Core) (u : State) : Prop :=
  u.core c = { answered m v bad k with lanes := (u.core c).lanes }

/-- The access that a memory node of the seat makes with A and B: its address is the lane's base plus A (R90). -/
def nodeReq (s : State) (w : LaneArgs) (op : LaneOp) (a b : Token) : MemReq :=
  { lane := s.seat.lane, op := op, addr := Tbl.get 0 s.here.region.bases s.seat.lane + a.value.setWidth 64
    amo := w.imm.extractLsb' 0 4, scope := w.imm.extractLsb' 4 2, b := b, seq := s.opSeq }

/-- The queues that a memory node reads. -/
abbrev nodeQueues (op : LaneOp) (w : LaneArgs) : List Nat := if op = .eld then [laneA w] else [laneA w, laneB w]

/-- The heads of a memory node's queues. -/
def NodeHeads (s : State) (op : LaneOp) (w : LaneArgs) (a b : Token) : Prop :=
  s.here.head s.seat.lane (laneA w) = some a
    ∧ (if op = .eld then b = {} else s.here.head s.seat.lane (laneB w) = some b)

/-- A memory node may fire on data: its interval is over, none of the lanes that wait on it would hold more than 255 of
its done tokens, no access of the lane has stalled, and its token has room (R82, R90, R91). -/
def NodeReady (s : State) (op : LaneOp) (w : LaneArgs) : Prop :=
  (s.here.lane s.seat.lane).due ≤ s.cycle ∧ s.here.mayGive s.seat.lane (w.imm.extractLsb' 4 2) = true
    ∧ (∀ m ∈ s.here.memreqs, m.lane = s.seat.lane → m.stalled = false)
    ∧ (op ≠ .est → LaneReady s true false 0)

/-- A memory node at its word (R90, R91, R349, R350): markers on every operand pass once its earlier tokens are out,
and mixed ones stop it; a poisoned offset accesses nothing and gives its done token at once; and clean data makes an
access, which a local scratchpad answers at once when it may. -/
def NodeWord (i : Instr) (op : LaneOp) (w : LaneArgs) (s : State) : Prop :=
  ∀ (a b : Token), NodeHeads s op w a b →
    let n := s.seat.lane
    let c := s.seat.core
    let qs := nodeQueues op w
    let m := nodeReq s w op a b
    (a.kind ≠ 0 → (op ≠ .eld → b.kind ≠ 0) →
      let mark : Token := { kind := BitVec.ofNat 3 (max a.kind.toNat b.kind.toNat) }
      ((∃ x ∈ s.here.memreqs, x.lane = n) → exec i s = .next s)
      ∧ ((∀ x ∈ s.here.memreqs, x.lane ≠ n) → LaneReady s true false mark.kind →
        Completes i s (LaneFired w qs [own mark] (s.here.lane n) s)))
    ∧ (op ≠ .eld → (a.kind = 0 ↔ b.kind ≠ 0) → Completes i s (LaneStops s))
    ∧ (a.kind = 0 → b.kind = 0 → ¬ NodeReady s op w → exec i s = .next s)
    ∧ (a.kind = 0 → b.kind = 0 → NodeReady s op w → a.poison = true → Completes i s (fun u => MemoryKept s u
      ∧ (u.here.lane n).due = s.cycle + w.rate.toNat + 1
      ∧ AccessDone c m 0 true { s.here.takeHeads n qs with memreqs := s.here.memreqs ++ [m] } u))
    ∧ (a.kind = 0 → b.kind = 0 → NodeReady s op w → a.poison = false → s.here.mayAccess n = false →
      exec i s = .next s)
    ∧ (a.kind = 0 → b.kind = 0 → NodeReady s op w → a.poison = false → s.here.mayAccess n = true →
      ∃ u, NodeQueued w qs m s u
        ∧ (∀ t off, placeOf c m.addr 4 = .scratch t off → t ≠ c → exec i s = .next u)
        ∧ (∀ off, (placeOf c m.addr 4 = .scratch c off ∨ placeOf c m.addr 4 = .bad) → exec i s =
          exec (.memoryNodeReply c s.here.memreqs.length) u)
        ∧ (placeOf c m.addr 4 = .global → (op ≠ .ermw ∨ m.addr.toNat % 4 ≠ 0) → exec i s = .next u)
        ∧ (placeOf c m.addr 4 = .global → op = .ermw → m.addr.toNat % 4 = 0 →
          let r : Atomic :=
            { id := s.fresh, at_ := s.cycle, core := c, lane := some n, part := s.here.part, op := m.amo, size := 4
              va := m.addr, b := b.value.setWidth 64, bad := b.poison, scope := m.scope, seq := s.opSeq }
          exec i s = .next (u.modCluster (clusterOf c) (fun x => { x with queue := arrive r x.queue })).next))

/-- The order of the address checks of `ldg` and `stg` (R369): the local range, the global range, the local and the
global alignment; after them `ok`. -/
def LineChecks (i : Instr) (s : State) (a b : Word) (n : Nat) (ok : Prop) : Prop :=
  (¬ (a.toNat / 2 ^ 60 = 1 ∧ a.toNat % 2 ^ 60 + 128 * n ≤ 0x80000) → Completes i s (Traps 4 a s))
    ∧ (a.toNat / 2 ^ 60 = 1 → a.toNat % 2 ^ 60 + 128 * n ≤ 0x80000 →
      (2 ^ 52 < b.toNat + 128 * n → Completes i s (Traps 4 b s))
      ∧ (b.toNat + 128 * n ≤ 2 ^ 52 →
        (a.toNat % 128 ≠ 0 → Completes i s (Traps 5 a s))
        ∧ (a.toNat % 128 = 0 → b.toNat % 128 ≠ 0 → Completes i s (Traps 5 b s))
        ∧ (a.toNat % 128 = 0 → b.toNat % 128 = 0 → ok)))

/-- What a passing `ldg` of n lines from line `line` does at issue (R370). -/
def LdgIssued (s t : State) (line n : Nat) (va : Word) : Prop :=
  NextWord s t ∧ MemoryKept s t
    ∧ (∀ l, t.isEmpty l = (s.isEmpty l || decide (lineKey s.seat.core line ≤ l ∧ l < lineKey s.seat.core line + n)))
    ∧ (t.here.chain s.here.ctl.chain).ld = (s.here.chain s.here.ctl.chain).ld + 1
    ∧ t.here.ldgs = s.here.ldgs.map (fun x => x.cover line n)
      ++ [{ id := s.fresh, chain := s.here.ctl.chain, line := line, va := va, lines := n, seq := s.opSeq }]

/-- An atomic on `n` bytes of scratchpad joins the target's port, and register d is owed the old value (R139). -/
def PortAtomic (s t : State) (d : Reg) (tgt : Nat) (r : PortReq) : Prop :=
  NextWord s t ∧ MemoryKept s t ∧ t.here.owed = s.here.owed ++ [⟨s.fresh, s.here.ctl.run, .g d, none, false⟩]
    ∧ (t.core tgt).portq = (s.core tgt).portq ++ [r]

/-- An atomic on global memory joins its Detent's queue, in its place by arrival and core (R140). -/
def DetentQueued (s t : State) (r : Atomic) : Prop :=
  NextWord s t ∧ MemoryKept s t
    ∧ (t.cluster (s.seat.core / 96)).queue = arrive r (s.cluster (s.seat.core / 96)).queue

/-- The deposit of an atomic: its line is empty, `cnt.ld` is one higher (R317). -/
def DepositOpened (s t : State) (off : Nat) : Prop :=
  (∀ l, t.isEmpty l = (s.isEmpty l || l == lineKey s.seat.core (off / 128)))
    ∧ (t.here.chain s.here.ctl.chain).ld = (s.here.chain s.here.ctl.chain).ld + 1
    ∧ t.here.deposits = s.here.deposits ++ [⟨s.fresh, s.here.ctl.chain, off, none, false⟩]

/-- The issue of an atomic word: its faults in their order, then its request (R138-R140, R317-R319). -/
def AtomicIssue (i : Instr) (s : State) (op : BitVec 4) (cas : Bool) (n : Nat) (dep : Bool)
    (d : Reg) (addr b cmp : Word) : Prop :=
  (placeOf s.seat.core addr n = .bad → Completes i s (Traps 4 addr s))
    ∧ (placeOf s.seat.core addr n ≠ .bad → addr.toNat % n ≠ 0 → Completes i s (Traps 5 addr s))
    ∧ (∀ t off, placeOf s.seat.core addr n = .scratch t off → addr.toNat % n = 0 →
      (dep = true → Completes i s (Traps 7 addr s))
      ∧ (dep = false → s.isBad (lineKey t (off / 128)) = true → Completes i s (Traps 21 addr s))
      ∧ (dep = false → s.isBad (lineKey t (off / 128)) = false → Completes i s (fun u =>
        PortAtomic s u d t { core := s.seat.core, run := s.here.ctl.run, owed := s.fresh, op := op, cas := cas
                             size := n, off := off, b := b, cmp := cmp, seq := s.opSeq })))
    ∧ (placeOf s.seat.core addr n = .global → addr.toNat % n = 0 → dep = false → Completes i s (fun u =>
      DetentQueued s u
        { id := s.fresh, at_ := s.cycle, core := s.seat.core, part := s.here.part, op := op, cas := cas, size := n
          va := addr, b := b, cmp := cmp, task := s.here.ctl.task.setWidth 32, seq := s.opSeq }))
    ∧ (placeOf s.seat.core addr n = .global → addr.toNat % n = 0 → dep = true →
      ((s.reg d).toNat / 2 ^ 60 ≠ 1 ∨ 0x80000 < (s.reg d).toNat % 2 ^ 60 + 8 →
        Completes i s (Traps 4 (s.reg d) s))
      ∧ ((s.reg d).toNat / 2 ^ 60 = 1 → (s.reg d).toNat % 2 ^ 60 + 8 ≤ 0x80000 →
        ((s.reg d).toNat % 8 ≠ 0 → Completes i s (Traps 5 (s.reg d) s))
        ∧ ((s.reg d).toNat % 8 = 0 →
          ((s.here.chain s.here.ctl.chain).ld = 65535 → Completes i s (Traps 11 0 s))
          ∧ ((s.here.chain s.here.ctl.chain).ld ≠ 65535 → Completes i s (fun u =>
            DepositOpened s u ((s.reg d).toNat % 2 ^ 60)
              ∧ DetentQueued s u
                { id := s.fresh, at_ := s.cycle, core := s.seat.core, deposit := some s.fresh, part := s.here.part
                  op := op, cas := cas, size := n, va := addr, b := b, cmp := cmp
                  task := s.here.ctl.task.setWidth 32, seq := s.opSeq })))))

/-- The task goes on at word n, counting one instruction; with `link` g31 holds the word after this one, and
everything else stands. -/
def GoesTo (n : Nat) (link : Bool) (s t : State) : Prop :=
  (∀ r, t.reg r = if link = true ∧ r = 31 then BitVec.ofNat 64 (s.here.ctl.pc + 1) else s.reg r)
    ∧ (∀ p, t.pred p = s.pred p) ∧ t.here.ctl.pc = n ∧ t.here.ctl.safecnt = s.here.ctl.safecnt + 1
    ∧ RegistersOnly s t

/-- A transfer: to a target inside the store, else the instruction-address fault that names it (R51). -/
def TransferTo (i : Instr) (s : State) (target : Int) (link : Bool) : Prop :=
  (0 ≤ target → target ≤ 16383 → Completes i s (GoesTo target.toNat link s))
    ∧ (target < 0 ∨ 16383 < target → Completes i s (Traps 3 (BitVec.ofInt 64 target) s))

/-- The jump of `jt` to the entry's target t: the address fault, the illegal landing of a word with an
uncorrectable error, the landing-pad fault, or the jump (R366). -/
def JumpsByTable (i : Instr) (s : State) (label target : Nat) : Prop :=
  (16383 < target → Completes i s (Traps 3 (BitVec.ofNat 64 target) s))
    ∧ (target ≤ 16383 → s.here.badWords.contains target = true →
      Completes i s (Traps 22 (Config.structureNumber 0) s))
    ∧ (target ≤ 16383 → s.here.badWords.contains target = false →
      (∀ g l, decodeControl (Tbl.get 0 s.here.store target) = .ok (.lpad g l) → l.toNat = label →
        Completes i s (fun t => TaskOnly s t ∧ (∀ r, t.reg r = s.reg r) ∧ (∀ p, t.pred p = s.pred p)
          ∧ t.here.ctl.pc = target ∧ t.here.ctl.safecnt = s.here.ctl.safecnt + 1))
      ∧ ((¬ ∃ g l, decodeControl (Tbl.get 0 s.here.store target) = .ok (.lpad g l) ∧ l.toNat = label) →
        Completes i s (Traps 13 (BitVec.ofNat 64 target) s)))

/-- A `send` to channel v of core k: a peer's answer is owed, the own core's is written (R422). -/
def SendsToVc (s u : State) (d : Pred) (tgt v : Nat) (tok : Token) : Prop :=
  let ok := decide (s.here.ctl.work.sends < 16 ∧ ((s.core tgt).vc v).q.length + ((s.core tgt).vc v).resv < 32)
  (tgt = s.seat.core → AnswersPred d ok s u)
    ∧ (tgt ≠ s.seat.core → NextWord s u ∧ MemoryKept s u ∧ u.here.owed = s.here.owed
        ++ [⟨s.fresh, s.here.ctl.run, .q d, some (if ok then 1 else 0), false⟩])
    ∧ ((u.core tgt).vc v).q = ((s.core tgt).vc v).q
    ∧ ((u.core tgt).vc v).resv = ((s.core tgt).vc v).resv + (if ok then 1 else 0)
    ∧ u.here.ctl.work.outs = s.here.ctl.work.outs ++ (if ok then [.sendVc tgt v tok] else [])

/-- The task has ended: the sequencer is idle, its work waits in a commit, and its slot is free, or kept as ended
by an ordered-domain task and for a continuation (R59, R169, R353, R409). -/
def TaskEnds (cont : Option Slot) (s t : State) : Prop :=
  t.here.ctl.slot = none ∧ MemoryKept s t
    ∧ t.here.commits = s.here.commits ++ [
      { id := s.fresh, chain := s.here.ctl.chain, run := s.here.ctl.run
        slot := if s.here.taskOrd || cont.isSome then s.here.ctl.slot else none
        ord := s.here.taskOrd, stamp := s.here.ctl.stamp, launch := (s.here.chain s.here.ctl.chain).launch
        work := s.here.ctl.work, cont := cont, seq := s.opSeq }]
    ∧ (∀ n x, s.here.ctl.slot = some n → Tbl.find s.here.slots n = some x →
        Tbl.find t.here.slots n = if s.here.taskOrd || cont.isSome then some { x with st := .ended } else none)
    ∧ ∀ n, s.here.ctl.slot ≠ some n → Tbl.find t.here.slots n = Tbl.find s.here.slots n

/-- The continuation that `yield` and `rdv` place: at its word, carrying g24-g31, with the task's entry, stamp and
chain (R63, R71). -/
def Continues (s : State) (k : WakeCode) (tgt : BitVec 14) (x : Slot) : Slot :=
  { st := .waitWake k, start := tgt, idx := x.idx, how := 2, stamp := s.here.ctl.stamp
    carry := carryRegs.map s.reg, chain := s.here.ctl.chain }

/-- The barrier word names a barrier of the launch: 1 to 96 arrivals, no reserved bit, and the n of the arrivals
already counted (R309). -/
def BarrierFits (s : State) (v : Word) : Prop :=
  v.toNat < 65536 ∧ 1 ≤ v.toNat / 256 ∧ v.toNat / 256 ≤ 96
    ∧ ((s.barrier (s.here.chain s.here.ctl.chain).launch (v.toNat % 256)).2 ≠ 0 →
      (s.barrier (s.here.chain s.here.ctl.chain).launch (v.toNat % 256)).1 = v.toNat / 256)

/-- The nibble test of `waitc` on one counter (R73). -/
def nibbleHolds (n : BitVec 4) (count : Nat) : Bool := decide (n = 15 ∨ count ≤ n.toNat)

/-- A stream word issues, on the control sequencer or on the stream sequencer (R132, R414). -/
def StreamIssues (s : State) (g : Guard) (uses : List Dest) : Prop :=
  (Issues s g uses ∧ Unordered s)
    ∨ (s.seat.seq = .stream ∧ s.here.ss.active = true ∧ s.here.ss.halt = false ∧ s.here.frozen = false)

/-- The stream word faults: a trap on the control sequencer; the stream sequencer stops at it and its chain's unit
is faulted (R299, R414). -/
def StreamFaults (i : Instr) (s : State) (cause : Nat) (ev : Word) : Prop :=
  Completes i s (fun t => (s.seat.seq = .control → Traps cause ev s t)
    ∧ (s.seat.seq = .stream → t.here.ss.halt = true ∧ t.here.ss.pc = s.here.ss.pc
      ∧ (t.here.chain s.here.ss.chain).status = .faulted ∧ MemoryKept s t))

/-- The stream word is refused: its predicate is false; on the stream sequencer it stalls (R132). -/
def StreamRefuses (i : Instr) (s : State) (d : Pred) : Prop :=
  Completes i s (fun t => t.here.ports = s.here.ports ∧ t.here.chains = s.here.chains ∧ t.readers = s.readers
    ∧ (s.seat.seq = .control → AnswersPred d false s t) ∧ (s.seat.seq = .stream → t = s))

/-- The stream word acts: its predicate is true, or the stream sequencer goes on. -/
def StreamActs (i : Instr) (s : State) (d : Pred) (P : State → Prop) : Prop :=
  Completes i s (fun t => P t ∧ (s.seat.seq = .control → AnswersPred d true s t)
    ∧ (s.seat.seq = .stream → t.here.ss = { s.here.ss with pc := s.here.ss.pc + 1 } ∧ t.here.ctl = s.here.ctl
      ∧ MemoryKept s t))

/-- The checks of an operand block of n bytes in the local space (R414); after them `ok`. -/
def LocalChecks (i : Instr) (s : State) (a : Word) (n align : Nat) (ok : Prop) : Prop :=
  (a.toNat / 2 ^ 60 ≠ 1 ∨ 0x80000 < a.toNat % 2 ^ 60 + n → StreamFaults i s 4 a)
    ∧ (a.toNat / 2 ^ 60 = 1 → a.toNat % 2 ^ 60 + n ≤ 0x80000 →
      (a.toNat % align ≠ 0 → StreamFaults i s 5 a) ∧ (a.toNat % align = 0 → ok))

/-- May the descriptor be bound to the port: no reserved bit, an element size of 1, 2 or 4 bytes, no drain on a
sink and no fill on a source (R127, R128, R415)? -/
def MayBind (D : BitVec 512) (sink : Bool) : Prop :=
  D.extractLsb' 448 64 = 0 ∧ D.extractLsb' 439 9 = 0 ∧ D.getLsbD 436 = false ∧ D.extractLsb' 418 3 = 0
    ∧ (D.extractLsb' 416 2).toNat ≠ 3 ∧ (sink = true → D.getLsbD 438 = false) ∧ (sink = false → D.getLsbD 437 = false)

/-- The command joins its port's queue and its chain's `cnt.cp`; with drain every line that it will read counts it
as a reader (R133, R416). -/
def Queued (s t : State) (p : Nat) (m : Cmd) : Prop :=
  (t.here.port p).q = (s.here.port p).q ++ [m] ∧ (∀ j, j ≠ p → t.here.port j = s.here.port j)
    ∧ (t.here.chain m.chain).cp = (s.here.chain m.chain).cp + 1
    ∧ ∀ l, t.readersOf l = s.readersOf l
      + (if Desc.drain m.d = true ∧ l ∈ itemsLines s.seat.core (Desc.size m.d) m.items then 1 else 0)

/-- The queueing of a command on a port: refused by a full queue or a full reader count, the counter fault, or
queued (R133, R416). -/
def Queues (i : Instr) (s : State) (d : Pred) (p : Nat) (m : Cmd) : Prop :=
  (8 ≤ (s.here.port p).q.length ∨ (Desc.drain m.d = true
      ∧ ∃ l ∈ itemsLines s.seat.core (Desc.size m.d) m.items, 15 ≤ s.readersOf l) → StreamRefuses i s d)
    ∧ ((s.here.port p).q.length < 8 → (Desc.drain m.d = true →
        ∀ l ∈ itemsLines s.seat.core (Desc.size m.d) m.items, s.readersOf l < 15) →
      ((s.here.chain m.chain).cp = 65535 → StreamFaults i s 11 2)
      ∧ ((s.here.chain m.chain).cp ≠ 65535 → StreamActs i s d (fun t => Queued s t p m)))

/-- The tokens that an access of a port asks for its global elements, of n bytes each (R202). -/
def portTokens (s : State) (c n : Nat) (l : List (Option Word)) : State × Bool :=
  if globalBytes n (l.filterMap id) = 0 then (s, true) else s.takeTokens c (globalBytes n (l.filterMap id))

/-- A hop of a circuit has taken place: a flit has crossed the hop's link, where it has one, and of the machine the
circuit differs as well (R92, R247, R254). -/
def hopped (s : State) (i hop : Nat) (y z : Circuit) : State :=
  State.crossed { s with circuits := s.circuits.set i z } y hop

/-- Stage j of a circuit. -/
abbrev stageOf {α : Type} (l : List (List α)) (j : Nat) : List α := l[j]?.getD []

/-- The subscription at an entry of core c applies the update `x` next: its backlog comes before its FIFO (R137). -/
abbrev AppliesNext (u : Sub) (x : Update) : Prop := (u.backlog ++ u.fifo).head? = some x

/-- The updates of a subscription with the next one gone; its subscriber's tasks go on once the entry is live and its
backlog applied (R137). -/
def afterUpdate (u : Sub) : Sub :=
  { u with
    backlog := u.backlog.drop 1
    fifo := if u.backlog = [] then u.fifo.drop 1 else u.fifo
    resync := u.resync && !(u.state == 2 && (u.backlog.drop 1).isEmpty) }

/-- The subscriptions of a machine that one has left or changed: what waits for updates of it waits for n fewer
(R136, R180, R309). -/
def NowWaits (id n : Nat) (s t : State) : Prop :=
  (∀ c h, h ∈ (s.core c).holds → { h with upd := h.upd.map (fun y => if y.1 = id then (y.1, y.2 - n) else y) }
      ∈ (t.core c).holds)
    ∧ ∀ ln l, s.launches.find ln = some l → ∃ m, t.launches.find ln = some m
      ∧ m.pend = l.pend.map (fun y => if y.2.2.1 = id then (y.1, y.2.1, y.2.2.1, y.2.2.2 - n) else y)

/-- An address of n bytes that lies in the local space (R401). -/
abbrev LocalIn (a : Word) (n : Nat) : Prop := a.toNat / 2 ^ 60 = 1 ∧ a.toNat % 2 ^ 60 + n ≤ 0x80000

/-- `nins` or `nevict`: a fence may hold its reads (R180); an ordered-domain task makes itself irrevocable (R174); then
the checks of its one address, n bytes, n-byte aligned, and a request whose status is owed to d (R165). -/
def NameStatusIssues (i : Instr) (s : State) (d : Reg) (a : Word) (n : Nat) (op : NameOp) : Prop :=
  (s.fenced s.seat.core 1 s.opSeq = true → exec i s = .next s)
    ∧ (s.fenced s.seat.core 1 s.opSeq = false → IrrevocableFirst i s ∧ (Unordered s →
      (¬ LocalIn a n → Completes i s (Traps 4 a s))
      ∧ (LocalIn a n → a.toNat % n ≠ 0 → Completes i s (Traps 5 a s))
      ∧ (LocalIn a n → a.toNat % n = 0 → Completes i s (fun t => OwesReg d none true s t ∧ MemoryKept s t
        ∧ (t.part s.here.part).nreqs = (s.part s.here.part).nreqs ++ [
          { core := s.seat.core, op := op, name := of128 (s.spBytes s.seat.core (a.toNat % 2 ^ 60) n)
            bad := s.isBad (lineKey s.seat.core (a.toNat % 2 ^ 60 / 128)), owed := s.fresh
            chain := s.here.ctl.chain, seq := s.opSeq }]))))

/-- A handle of R200: a level code of 0 to 4, no reserved bit, and a job identifier only with code 4. -/
def HandleFits (v : Word) : Prop :=
  v.toNat / 2 ^ 32 % 2 ^ 29 = 0 ∧ v.toNat / 2 ^ 61 ≤ 4 ∧ (v.toNat / 2 ^ 61 ≠ 4 → v.toNat % 2 ^ 32 = 0)

/-- The level code of a handle (R200). -/
abbrev handleLevel (v : Word) : Nat := v.toNat / 2 ^ 61

/-- The cancel of a level is sent; the running task ends at its next instruction if `mine` (R200, R329). -/
def Cancels (i : Instr) (s : State) (lvl id : Nat) (mine : Bool) : Prop :=
  Completes i s (fun t => NextWord s t ∧ MemoryKept s t ∧ t.here.ctl.killed = mine
    ∧ t.cancels = s.cancels ++ [(lvl, id)])

/-- A cancel of a level that is not there has no effect (R200). -/
def CancelsNothing (i : Instr) (s : State) : Prop :=
  Completes i s (fun t => NextWord s t ∧ MemoryKept s t ∧ t.here.ctl.killed = false ∧ t.cancels = s.cancels)

/-- A posted command that is not taken: a status is owed, and no queue changes (R200). -/
def PostAnswers (i : Instr) (s : State) (d : Reg) (v : Word) : Prop :=
  Completes i s (fun t => OwesReg d (some v) true s t ∧ t.queues = s.queues)

/-- The tail of a queue has gone one on; a notify of the same tick comes after it (R200, R204). -/
def PostedAt (s t : State) (q : Nat) (x : Queue) : Prop :=
  (Tbl.get {} t.queues q).tail = (x.advance s.dial).tail ∧ (Tbl.get {} t.queues q).noted = (x.advance s.dial).noted

/-- The settings that a word takes at issue stand in its firings: a firing of the word at hand, its t-th of step
`st`. -/
abbrev firingOf (s : State) (st t a i : Nat) : Firing :=
  { word := s.fresh, s := st, a := a, i := i, ord := s.here.mx.coopLog.length, t := t, fa := s.here.mx.fa, fb := s.here.mx.fb, win := s.here.mx.win
    asrc := s.here.mx.asrc, aline := s.here.mx.aline.toNat, aport := s.here.mx.aport.toNat
    bline := s.here.mx.bline.toNat }

/-- The tile after `mscale` with scale codes `sa`, `sb` and poison `q` (R42, R105, R391): every cell is updated by
R42, the inner accumulators and their tags are cleared, pout takes pin, and the word's flags are those that some
cell raised. -/
def Scaled (sa sb : Nat → Nat) (q : Bool) (s : State) (fl : Flags) (m : Mx) : Prop :=
  m = { s.here.mx with
      outer := m.outer, pout := m.pout, free := none, inner := [], tag := [], pin := [], dirty := false, prod := false }
    ∧ (∀ i < 64, ∀ j < 64, m.outerAt i j = (scaleCell s.here.mx.win.toInt (s.here.mx.innerAt i j)
        (s.here.mx.tagAt i j) (s.here.mx.outerAt i j) (sa i) (sb j)).1 % 2 ^ 32)
    ∧ (∀ i < 64, m.poutAt i = (s.here.mx.poutAt i || s.here.mx.pinAt i || q))
    ∧ ∀ b < 5, (fl.getLsbD b = true ↔ ∃ i < 64, ∃ j < 64, (scaleCell s.here.mx.win.toInt (s.here.mx.innerAt i j)
        (s.here.mx.tagAt i j) (s.here.mx.outerAt i j) (sa i) (sb j)).2.getLsbD b = true)

/-- The logits of row r of the gate tile, `64 * (ne + 1)` of them from the line that aline gives (R207). -/
abbrev rowLogits (s : State) (ne r : Nat) : List Nat :=
  s.spWords s.seat.core ((s.here.mx.aline.toNat + 2 * (ne + 1) * r) * 128) (64 * (ne + 1))

/-- The FP32 word at a scratchpad offset of the seat's core. -/
abbrev wordAt (s : State) (off : Nat) : Nat := leNat (s.spBytes s.seat.core off 4)

/-- The record of a row of logits (R205, R206, R208, R209): `sel` is its experts in slot order, the min(k, |E|) eligible
ones with the greatest keys, equal keys by the lower index. -/
def RecordOf (logits : List Nat) (k : Nat) (sel : List Nat) (r : List Byte × Flags × Bool) : Prop :=
  let eligible (x : Nat) : Bool := decide (x < logits.length) && !(fp32.decode (logits[x]?.getD 0)).isNaN
  let logit (x : Nat) : Nat := logits[x]?.getD 0
  let key (x : Nat) : Nat := if logit x < 2 ^ 31 then logit x + 2 ^ 31 else 2 ^ 32 - 1 - logit x
  let above (x y : Nat) : Prop := key y < key x ∨ (key x = key y ∧ x < y)
  let e := (List.range logits.length).countP eligible
  let inf := ∃ x ∈ sel, logit x = 0x7F800000
  let num (off n : Nat) : Nat := leNat ((List.range n).map (fun i => r.1[off + i]?.getD 0))
  (∀ x ∈ sel, eligible x = true) ∧ sel.length = min k e ∧ sel.Pairwise above
    ∧ (∀ y, eligible y = true → y ∉ sel → ∀ x ∈ sel, above x y)
    ∧ r.1.length = 128 ∧ (r.2.2 = true ↔ e = 0)
    ∧ (∀ n < 8, num (2 * n) 2 = sel[n]?.getD 0xFFFF)
    ∧ (e = 0 → num 16 1 = 4)
    ∧ (e ≠ 0 → (inf → num 16 1 = (if e < k then 1 else 0) + 2) ∧ (¬ inf → num 16 1 = if e < k then 1 else 0))
    ∧ (∀ i, 17 ≤ i → i < 32 ∨ 96 ≤ i → i < 128 → num i 1 = 0)
    ∧ (∀ n < 8, num (32 + 4 * n) 4 = ((sel[n]?).map logit).getD 0xFF800000)
    ∧ (∀ n < 8, sel[n]? = none → num (64 + 4 * n) 4 = 0xFF800000)
    ∧ (∀ n < 8, ∀ x, sel[n]? = some x → ∀ x0, sel[0]? = some x0 →
        (inf → num (64 + 4 * n) 4 = if logit x = 0x7F800000 then 0 else 0xFF800000)
        ∧ (¬ inf → num (64 + 4 * n) 4 =
            if logit x0 = 0xFF800000 then 0 else (subF (logit x) (logit x0)).1 % 2 ^ 32))

/-- A product word has issued in a cooperative tile, or outside one: its place in the tile's order is recorded
(R110). -/
def logged (m : Mx) (sig : List Nat) : List (List Nat) := if m.coop then m.coopLog ++ [sig] else m.coopLog

/-- Another core of the row group has issued a different product word in the same place (R110, R379). -/
def Clashes (s : State) (sig : List Nat) : Prop :=
  s.here.mx.coop = true ∧ ∃ d ∈ coopGroup s.seat.core, d ≠ s.seat.core
    ∧ ∃ x, (s.core d).mx.coopLog[s.here.mx.coopLog.length]? = some x ∧ x ≠ sig

/-- Every core of the row group has stopped with the mismatch fault (R379). -/
def GroupFaults (s t : State) : Prop :=
  ∀ d ∈ coopGroup s.seat.core, (t.core d).mx.halt = true ∧ (t.core d).mx.fcode = 4

/-- A word that writes n lines waits while an atomic at the port holds a word of one of them (R139), and else acts. -/
def UnlessHeld (i : Instr) (s : State) (line n : Nat) (P : State → Prop) : Prop :=
  (s.linesHeld line n = true → Completes i s (MatrixWaits true s))
    ∧ (s.linesHeld line n = false → Completes i s P)

/-- The tokens of row i of the tile that `mrd` gives: the outer values, or the inner accumulators in two words with
their tags, each with the row's poison (R107, R390). -/
def RowTokens (m : Mx) (acc : Bool) (i : Nat) (out : List Token) : Prop :=
  (acc = true → out.length = 64
    ∧ ∀ j < 64, out[j]? = some ⟨m.poutAt i, 0, BitVec.ofNat 32 (m.outerAt i j)⟩)
  ∧ (acc = false → out.length = 128 ∧ ∀ j < 64, ∃ hi : W32,
      out[2 * j]? = some ⟨m.pinAt i, 0, (BitVec.ofInt 36 (m.innerAt i j)).extractLsb' 0 32⟩
      ∧ out[2 * j + 1]? = some ⟨m.pinAt i, 0, hi⟩
      ∧ hi.extractLsb' 30 2 = (match m.tagAt i j with | .finite => 0 | .pinf => 1 | .ninf => 2 | .nan => 3)
      ∧ (∀ b < 26, hi.getLsbD (4 + b) = (BitVec.ofInt 36 (m.innerAt i j)).getLsbD 35)
      ∧ ∀ b < 4, hi.getLsbD b = (BitVec.ofInt 36 (m.innerAt i j)).getLsbD (32 + b))

/-- Of the firings not yet fired f comes next at its result row (R99). -/
def ComesNext (l : List Firing) (f : Firing) : Prop := ∃ a b, l = a ++ f :: b ∧ ∀ g ∈ a, g.i ≠ f.i

/-- A pass of a core serves step `st`: the lowest one of the firings that come next at their rows (R99,
notes/assumptions/84.md). -/
def ServesStep (m : Mx) (st : Nat) : Prop :=
  (∃ f, ComesNext m.todo f ∧ f.s = st) ∧ ∀ f, ComesNext m.todo f → st ≤ f.s

/-- The effect of an issued word is complete: a product word has no firing left, a read has every row copied and
every token of the buffer drained, and an `mcoop` word has found every core of the cluster at it (R102, R110, R375,
R390). -/
def WordDone (s : State) (c : Nat) (w : MWord) : Prop :=
  (w.kind = wProduct → ∀ f ∈ (s.core c).mx.todo ++ (s.core c).mx.pass, f.word ≠ w.id)
    ∧ ((w.kind = wRead ∨ w.kind = wReadDrain) → (s.core c).mx.oword = w.id →
      (s.core c).mx.obuf = [] ∧ (s.core c).mx.copy = none)
    ∧ (w.kind = wCoop → (s.core c).mx.coopW ≠ none →
      ∀ k < 96, (s.core c).mx.coopN ≤ (s.core (clusterOf c * 96 + k)).mx.coopN)

/-- A firing as its word issued it, before a pass reads its A row. -/
def Firing.unread (f : Firing) : Firing := { f with data := [], bad := false }

/-- The names of a node's data inputs at a segment and iteration, in input-port order (R143). -/
abbrev inNames (g : GGraph) (l : Launch) (n seg : Nat) (iter : List Nat) : List Naming :=
  (g.dataInputs n).map (fun e => ((inputObj g l.objs e seg iter).map (·.name)).getD .unknown)

/-- Every input is named, and none is void or poison. -/
abbrev AllNamed (l : List Naming) : Prop := ∀ x ∈ l, ∃ b, x = .named b

/-- The core's die that a node lies on; 0 where it lies on none. -/
abbrev dieAt (s : State) (l : Launch) (gn : GNode) : Nat := dieOf ((s.nodeCore l gn).getD 0)

/-- The engine's answer to the request at index i: the request is gone, and the status is owed to its register. -/
abbrev answeredBy (u : State) (p i : Nat) (r : NameReq) (st : Nat) : State :=
  (u.dropRequest p i).answer r.core r.owed (BitVec.ofNat 64 st)

/-- A launch holds a retained object while it may still read it (R160). -/
def holding (s : State) (h : Nat × Nat × BitVec 128) : State := { s with holds := s.holds ++ [h] }

/-- A queue differs only in whether it is backlogged: an idle queue keeps its pass value, and one that becomes
backlogged takes the smallest among those that are, or else what the last dispatch left, or 0 (R191). -/
def Restarted (u t : State) : Prop :=
  t = { u with queues := t.queues } ∧ ∀ q x, u.queues.find q = some x → ∃ y, t.queues.find q = some y
    ∧ y = { x with active := u.backlogged q, since := y.since, pass := y.pass }
    ∧ ((x.active = true ∨ u.backlogged q = false) → y.pass = x.pass ∧ y.since = x.since)
    ∧ (x.active = false → u.backlogged q = true → y.since = u.dial
        ∧ ((∃ z ∈ u.queues, z.2.active = true ∧ u.backlogged z.1 = true ∧ z.2.pass = y.pass
              ∧ ∀ w ∈ u.queues, w.2.active = true → u.backlogged w.1 = true → y.pass ≤ w.2.pass)
          ∨ ((∀ z ∈ u.queues, ¬ (z.2.active = true ∧ u.backlogged z.1 = true)) ∧ y.pass = u.lastPass.getD 0)))

/-- A step leaves a state but for which queues are backlogged. -/
def Settles (i : Instr) (s u : State) : Prop :=
  exec i s = .next u.refresh ∧ Restarted u u.refresh

/-- The queue of a number. -/
abbrev queueAt (s : State) (q : Nat) : Queue := Tbl.get {} s.queues q

/-- A machine with a queue. -/
def setQueue (s : State) (q : Nat) (x : Queue) : State := { s with queues := s.queues.put q x }

/-- The job that a command starts (R189). -/
def newJob (q p age : Nat) (c : Command) : Job :=
  { id := c.job, q := q, part := p, obj := c.obj, cpl := c.cpl, names := c.names, phases := c.phases, age := age }

/-- The tokens that a core's bucket gets at a refill (R202). -/
def refillShare (s : State) (k : Core) : Nat :=
  if k.firmware ∨ (s.part k.part).clusters = [] then 0
  else (s.part k.part).eshare * 500 / (96 * (s.part k.part).clusters.length)

/-- The 16 bytes of a completion record (R190). -/
def completionBytes (job st phase dial : Nat) : List Byte :=
  leBytes job 4 ++ [BitVec.ofNat 8 st, BitVec.ofNat 8 phase, 0, 0] ++ leBytes dial 8

/-- The dispatch port has granted node n of a graph to a queue, and the node may run: it is ready, and neither a fault
nor a cancel has reached the graph (R191, R195). -/
def Granted (s : State) (gr n kind : Nat) (g : Graph) (x : Node) (j : Job) : Prop :=
  (∃ q, s.grant = some (.node q gr n)) ∧ s.graphs.find gr = some g ∧ g.nodes[n]? = some x ∧ s.jobs.find g.job = some j
    ∧ x.kind = kind ∧ x.st = .ready ∧ g.cancel = false ∧ g.fault = false ∧ g.status = none

/-- The machine once a granted node is issued: the port is free and the node is the last issued (R191, R195). -/
def issuedNode (s : State) (gr n : Nat) (g : Graph) : State :=
  { s with grant := none, graphs := s.graphs.put gr { g with
    nodes := g.nodes.modify n (fun y => { y with st := .issued }), order2 := g.order2.filter (· != n) ++ [n] } }

/-- The pieces of at most 64 bytes that a copy of n bytes reads, each with its place and its poison. -/
def copyRead (s : State) (p src n : Nat) : State × List (Nat × List Byte × Bool) :=
  ((List.range ((n + 63) / 64)).map (· * 64)).foldl (fun a o =>
    match a.1.regRead p (src + o) (min 64 (n - o)) with
    | some (s, b, bad) => (s, a.2 ++ [(o, b, bad)])
    | none => a) (s, [])

/-- The pieces of a copy written at its destination. -/
def copyWrite (s : State) (p dst : Nat) (l : List (Nat × List Byte × Bool)) : State :=
  l.foldl (fun s y => (s.regWrite p (dst + y.1) y.2.1 y.2.2).getD s) s

/-- A predicate word at a granted or running node: misaligned, unmapped or poisoned, or read with a value, the reading
of which leaves the machine u (R195, R196, R234). -/
def PredicateIs (s : State) (p : Nat) (a : Word) (u : State) (r : Nat ⊕ Nat) : Prop :=
  (a.toNat % 8 ≠ 0 ∧ u = s ∧ r = .inl 5) ∨ (a.toNat % 8 = 0 ∧ s.regRead p a.toNat 8 = none ∧ u = s ∧ r = .inl 6)
    ∨ (a.toNat % 8 = 0 ∧ ∃ b, s.regRead p a.toNat 8 = some (u, b, true) ∧ r = .inl 21)
    ∨ (a.toNat % 8 = 0 ∧ ∃ b, s.regRead p a.toNat 8 = some (u, b, false) ∧ r = .inr (leNat b))

/-- A machine with a replica-table entry (R216). -/
def withReplica (s : State) (i : Nat) (r : Replica) : State := { s with replicas := s.replicas.put i r }

/-- The bytes of a launch's record (R259). -/
def recordBytes (s : State) (l : Launch) (code : Nat) : List Byte :=
  fit 32 (s.part l.part).prev ++ fit 32 s.meas ++ leBytes l.serial 8 ++ leBytes l.dial0 8 ++ leBytes l.dial1 8
    ++ leBytes (((s.jobs.find l.job).map (·.id)).getD 0) 4 ++ leBytes l.part 1 ++ leBytes code 1
    ++ leBytes (s.sourceNames l).length 2 ++ leBytes (s.sinkNames l).length 2 ++ List.replicate 30 0
    ++ (s.sourceNames l ++ s.sinkNames l).flatMap bytes128

/-- A core with a pre-emption asked for: it stands still unless it runs the firmware (R237). -/
def asked (cyc : Nat) (k : Core) : Core :=
  if k.firmware then k else { k with preempt := some cyc, frozen := true }

/-- A request to pre-empt a partition: the first stops it, and a further one is ignored (R237, R242). -/
def PreemptAsked (i : Instr) (p : Nat) (s : State) : Prop :=
  ((s.part p).pre ≠ .running → exec i s = .next s)
  ∧ ((s.part p).pre = .running → Completes i s (fun t => t.mem = s.mem ∧ t.parts = s.parts.put p { s.part p with pre := .stopping }
      ∧ ∀ c, t.core c = if c ∈ s.partCores p then asked s.cycle (s.core c) else s.core c))

/-- The fault queue of a partition or of the firmware (R228). -/
abbrev fqAt (s : State) (q : FqId) : FaultQ := s.faultQ q

/-- A report of a queue that comes no later, in the order of Dial value and source, than any other (R230). -/
def FirstHeld (q : FaultQ) (r : FRec) : Prop :=
  q.first = some r ∧ r ∈ q.held ∧ ∀ x ∈ q.held, r.dial < x.dial ∨ (r.dial = x.dial ∧ r.src ≤ x.src)

/-- The state after a record of a fault queue is dropped: it is counted, and the next one written says so (R230). -/
def dropRecord (s : State) (fq : FqId) (r : FRec) : State :=
  (s.setFaultQ fq { fqAt s fq with held := (fqAt s fq).held.erase r, lost := true }).countErr (r.src / 8192)
    (fun e => { e with dropped := e.dropped + 1 })

/-- A machine with a link's state (R254). -/
def withLink (s : State) (l : Nat) (x : Link) : State := { s with links := s.links.put l x }

/-- A step that only sends the host a message, and draws its free value where it has one. -/
def tells (s : State) (m : HostMsg) (n : Nat) : State :=
  { s with hostOut := s.hostOut ++ [m], free := s.free + n }

/-- A cluster's clock (R262). -/
abbrev clockOf (s : State) (cl : Nat) : Nat := (s.cluster cl).mhz

end Sys2Proof.Machine
end

