-- ==== Sys2Proof/Certificates/Slice0/Obligations.lean ====
section
/-!
DEFINITION. Statements about the model, from the rules of the specification.
-/

open Sys2Proof Sys2Proof.Machine

/-- R315, R397, R404: sums, differences and products modulo 2^64, the high halves of the products, quotients
toward zero with all ones for a zero divisor, and remainders with the dividend for a zero divisor.

R315, R377, R404: bitwise words, shifts and rotates by gb[5:0], and the lesser and the greater of two
registers, signed and natural.

R315, R404: `clz` counts the zeros above the highest set bit, `ctz` those below the lowest, `popc` the set
bits, and `sel` chooses by a predicate. -/
def Obligations.AluResults : Prop :=
  (∀ (s : State) (g : Guard) (d a b : Reg), Issues s g [.g d, .g a, .g b] →
    Completes (.add g d a b) s (WritesReg d (s.reg a + s.reg b) s)
      ∧ Completes (.sub g d a b) s (WritesReg d (s.reg a - s.reg b) s)
      ∧ Completes (.mul g d a b) s (WritesReg d (s.reg a * s.reg b) s)
      ∧ Completes (.mulh g d a b) s
          (WritesReg d (((s.reg a).signExtend 128 * (s.reg b).signExtend 128).extractLsb' 64 64) s)
      ∧ Completes (.mulhn g d a b) s
          (WritesReg d (((s.reg a).setWidth 128 * (s.reg b).setWidth 128).extractLsb' 64 64) s)
      ∧ Completes (.div g d a b) s (WritesReg d (if s.reg b = 0 then BitVec.allOnes 64 else (s.reg a).sdiv (s.reg b)) s)
      ∧ Completes (.divn g d a b) s (WritesReg d (if s.reg b = 0 then BitVec.allOnes 64 else s.reg a / s.reg b) s)
      ∧ Completes (.rem g d a b) s (WritesReg d (if s.reg b = 0 then s.reg a else (s.reg a).srem (s.reg b)) s)
      ∧ Completes (.remn g d a b) s (WritesReg d (if s.reg b = 0 then s.reg a else s.reg a % s.reg b) s))
  ∧ (∀ (s : State) (g : Guard) (d a b : Reg), Issues s g [.g d, .g a, .g b] →
    Completes (.and g d a b) s (WritesReg d (s.reg a &&& s.reg b) s)
      ∧ Completes (.or g d a b) s (WritesReg d (s.reg a ||| s.reg b) s)
      ∧ Completes (.xor g d a b) s (WritesReg d (s.reg a ^^^ s.reg b) s)
      ∧ Completes (.shl g d a b) s (WritesReg d (s.reg a <<< ((s.reg b).toNat % 64)) s)
      ∧ Completes (.shr g d a b) s (WritesReg d (s.reg a >>> ((s.reg b).toNat % 64)) s)
      ∧ Completes (.sra g d a b) s (WritesReg d ((s.reg a).sshiftRight ((s.reg b).toNat % 64)) s)
      ∧ Completes (.rot g d a b) s (WritesReg d ((s.reg a).rotateLeft ((s.reg b).toNat % 64)) s)
      ∧ Completes (.min g d a b) s (WritesReg d (if (s.reg b).slt (s.reg a) then s.reg b else s.reg a) s)
      ∧ Completes (.max g d a b) s (WritesReg d (if (s.reg a).slt (s.reg b) then s.reg b else s.reg a) s)
      ∧ Completes (.minn g d a b) s (WritesReg d (if s.reg b < s.reg a then s.reg b else s.reg a) s)
      ∧ Completes (.maxn g d a b) s (WritesReg d (if s.reg a < s.reg b then s.reg b else s.reg a) s))
  ∧ (∀ (s : State) (g : Guard) (d a b : Reg) (qs : Pred),
    (Issues s g [.g d, .g a] →
        (∃ n ≤ 64, Completes (.clz g d a) s (WritesReg d (BitVec.ofNat 64 n) s)
          ∧ (∀ i < 64, 64 ≤ i + n → (s.reg a).getLsbD i = false) ∧ (n < 64 → (s.reg a).getLsbD (63 - n) = true))
        ∧ (∃ n ≤ 64, Completes (.ctz g d a) s (WritesReg d (BitVec.ofNat 64 n) s)
          ∧ (∀ i < n, (s.reg a).getLsbD i = false) ∧ (n < 64 → (s.reg a).getLsbD n = true))
        ∧ Completes (.popc g d a) s
          (WritesReg d (BitVec.ofNat 64 (∑ i ∈ Finset.range 64, if (s.reg a).getLsbD i then 1 else 0)) s))
    ∧ (Issues s g [.q qs, .g d, .g a, .g b] →
      Completes (.sel g qs d a b) s (WritesReg d (if s.pred qs then s.reg a else s.reg b) s)))

/-- R324: the immediate and the register forms of bit-field extraction, with zeros or with the sign above the
field, and of insertion; in the register forms gb[5:0] is the offset and gb[12:6] the width, and a width above
64 is the operand fault. -/
def Obligations.BitFieldResults : Prop :=
  ∀ (s : State) (g : Guard) (d a b : Reg) (off wm1 : BitVec 6),
    (Issues s g [.g d, .g a] →
      (∃ v, Completes (.bextZ g d a off wm1) s (WritesReg d v s)
          ∧ ∀ i < 64, v.getLsbD i = fieldBit (s.reg a) off.toNat (wm1.toNat + 1) i)
        ∧ (∃ v, Completes (.bextS g d a off wm1) s (WritesReg d v s)
          ∧ ∀ i < 64, v.getLsbD i = fieldBit (s.reg a) off.toNat (wm1.toNat + 1) (Nat.min i wm1.toNat))
        ∧ (∃ v, Completes (.bins g d a off wm1) s (WritesReg d v s)
          ∧ ∀ i < 64, v.getLsbD i = if off.toNat ≤ i ∧ i ≤ off.toNat + wm1.toNat
              then (s.reg a).getLsbD (i - off.toNat) else (s.reg d).getLsbD i))
    ∧ (Issues s g [.g d, .g a, .g b] →
      ((s.reg b).toNat / 64 % 128 ≤ 64 →
        (∃ v, Completes (.bextZReg g d a b) s (WritesReg d v s)
            ∧ ∀ i < 64, v.getLsbD i = fieldBit (s.reg a) ((s.reg b).toNat % 64) ((s.reg b).toNat / 64 % 128) i)
          ∧ (∃ v, Completes (.bextSReg g d a b) s (WritesReg d v s)
            ∧ ∀ i < 64, v.getLsbD i = if (s.reg b).toNat / 64 % 128 = 0 then false else
                fieldBit (s.reg a) ((s.reg b).toNat % 64) ((s.reg b).toNat / 64 % 128)
                  (Nat.min i ((s.reg b).toNat / 64 % 128 - 1)))
          ∧ (∃ v, Completes (.binsReg g d a b) s (WritesReg d v s)
            ∧ ∀ i < 64, v.getLsbD i =
                if (s.reg b).toNat % 64 ≤ i ∧ i < (s.reg b).toNat % 64 + (s.reg b).toNat / 64 % 128
                then (s.reg a).getLsbD (i - (s.reg b).toNat % 64) else (s.reg d).getLsbD i))
      ∧ (64 < (s.reg b).toNat / 64 % 128 →
        Completes (.bextZReg g d a b) s (Traps 7 (s.reg b) s)
          ∧ Completes (.bextSReg g d a b) s (Traps 7 (s.reg b) s)
          ∧ Completes (.binsReg g d a b) s (Traps 7 (s.reg b) s)))

/-- R316, R373, R405, R423: the words with an immediate, which is sign-extended; `lui` sets n × 2^17,
sign-extended from bit 33. -/
def Obligations.ImmediateWordResults : Prop :=
  ∀ (s : State) (g : Guard) (d a : Reg) (imm : BitVec 12) (n : BitVec 17) (k : ShiftKind) (amt : BitVec 6),
    (Issues s g [.g d, .g a] →
      Completes (.addi g d a imm) s (WritesReg d (s.reg a + imm.signExtend 64) s)
        ∧ Completes (.andi g d a imm) s (WritesReg d (s.reg a &&& imm.signExtend 64) s)
        ∧ Completes (.ori g d a imm) s (WritesReg d (s.reg a ||| imm.signExtend 64) s)
        ∧ Completes (.xori g d a imm) s (WritesReg d (s.reg a ^^^ imm.signExtend 64) s)
        ∧ Completes (.shi g k d a amt) s (WritesReg d (match k with
            | .shl => s.reg a <<< amt.toNat
            | .shr => s.reg a >>> amt.toNat
            | .sra => (s.reg a).sshiftRight amt.toNat
            | .rot => (s.reg a).rotateLeft amt.toNat) s))
    ∧ (Issues s g [.g d] →
      Completes (.li g d n) s (WritesReg d (n.signExtend 64) s)
        ∧ Completes (.lui g d n) s (WritesReg d (BitVec.ofInt 64 (n.toInt * 2 ^ 17)) s))

/-- R326, R406: compares of registers and with a sign-extended immediate, signed and natural, and the
predicate words; each writes its predicate. -/
def Obligations.CompareAndPredicateResults : Prop :=
  ∀ (s : State) (g : Guard) (d p q : Pred) (a b : Reg) (imm : BitVec 9) (cc : Cc),
    (Issues s g [.q d, .g a, .g b] →
      Completes (.cmp g cc d a b) s (WritesPred d (condHolds cc (s.reg a) (s.reg b)) s))
    ∧ (Issues s g [.q d, .g a] →
      Completes (.cmpi g cc d a imm) s (WritesPred d (condHolds cc (s.reg a) (imm.signExtend 64)) s))
    ∧ (Issues s g [.q d, .q p, .q q] →
      Completes (.pand g d p q) s (WritesPred d (s.pred p && s.pred q) s)
        ∧ Completes (.por g d p q) s (WritesPred d (s.pred p || s.pred q) s))
    ∧ (Issues s g [.q d, .q p] → Completes (.pnot g d p) s (WritesPred d (!s.pred p) s))

/-- R291: a word whose guard is false has no effect but counts in `safecnt`, `end`, `yield` and `rdv` among
them; a `safe` resets `safecnt`; the pair qp = 0, qn = 1 is illegal in every major. -/
def Obligations.FalseGuardHasNoEffect : Prop :=
  (∀ (s : State) (g : Guard), s.guard g = (s.pred g.p ^^ (g.n == 1)))
    ∧ (∀ (s : State) (i : Instr) (g : Guard), guardOf i = some g →
        s.seat.seq = .control → s.here.ctl.slot ≠ none → s.here.ctl.killed = false → s.here.owed = [] →
        s.here.ctl.safecnt < 2048 → s.guard g = false →
        if ∃ live, i = .safe g live then
          Completes i s (fun t => (∀ r, t.reg r = s.reg r) ∧ (∀ p, t.pred p = s.pred p)
            ∧ t.here.ctl.pc = s.here.ctl.pc + 1 ∧ t.here.ctl.safecnt = 0 ∧ RegistersOnly s t)
        else Completes i s (fun t => NextWord s t ∧ RegistersOnly s t))
    ∧ (∀ w : W32, field w 22 4 = 1 → ∀ i, decodeControl w ≠ .ok i ∧ decodeStream w ≠ .ok i)

/-- R67: a task that has issued 2,048 instructions since its last safe point and issues another that is no safe
point takes the safe-point overrun trap; `end`, `yield` and `rdv` under a false guard are no safe points. -/
def Obligations.SafePointOverrunTraps : Prop :=
  ∀ (s : State) (i : Instr) (g : Guard), guardOf i = some g →
    s.seat.seq = .control → s.here.ctl.slot ≠ none → s.here.ctl.killed = false → s.here.owed = [] →
    2048 ≤ s.here.ctl.safecnt →
    (∀ live, i ≠ .safe g live) →
    (s.guard g = true → i ≠ .endTask g ∧ (∀ k t, i ≠ .yield g k t) ∧ ∀ t, i ≠ .rdv g t) →
    Completes i s (Traps 9 2048 s)

/-- R314: a word that reads or writes a register whose result is still owed, or whose guard reads such a
predicate, stalls at issue: nothing changes, and `safecnt` with it. -/
def Obligations.OwedResultStallsIssue : Prop :=
  ∀ (s : State) (i : Instr) (g : Guard) (d a b : Reg), s.seat.seq = .control → s.here.ctl.slot ≠ none →
    s.here.ctl.killed = false →
    (s.here.owes (.q g.p) = true → guardOf i = some g → exec i s = .next s)
    ∧ (s.here.owes (.g d) = true ∨ s.here.owes (.g a) = true ∨ s.here.owes (.g b) = true →
        exec (.add g d a b) s = .next s ∧ exec (.sub g d a b) s = .next s ∧ exec (.or g d a b) s = .next s
          ∧ exec (.div g d a b) s = .next s ∧ exec (.amo g .add .d false d a b) s = .next s)
    ∧ (s.here.owes (.g d) = true ∨ s.here.owes (.g a) = true →
        (∀ sz off, exec (.ldZ g sz d a off) s = .next s) ∧ (∀ sz off, exec (.st g sz d a off) s = .next s)
          ∧ ∀ imm, exec (.addi g d a imm) s = .next s)

/-- R114, R115: an access of n bytes lies whole in one window: the local space and each core of the cluster space
hold 0x80000 bytes, the global space 2^52. -/
def Obligations.AddressSpacesAndWindows : Prop :=
  ∀ (c : Nat) (a : Word) (n : Nat), 0 < n →
    let space := a.toNat / 2 ^ 60
    let off := a.toNat % 2 ^ 60
    placeOf c a n =
      if space = 0 then (if off + n ≤ 2 ^ 52 then .global else .bad)
      else if space = 1 then (if off + n ≤ 0x80000 then .scratch c off else .bad)
      else if space = 2 ∧ off / 0x80000 < 96 ∧ off % 0x80000 + n ≤ 0x80000 then
        .scratch (c / 96 * 96 + off / 0x80000) (off % 0x80000)
      else .bad

/-- R116, R368: a load from the core's own scratchpad writes the value, zero-extended or sign-extended, of the
task's own buffered bytes and of memory elsewhere; a load from a peer's leaves the register owed that value.

R65, R66, R139, R368: a load's tests in their order: the address fault, the alignment fault, a word that an atomic
holds at the port, for which the load waits, an empty line, which rewinds the task or, when the task is settled, traps;
and poison where a byte comes from memory. -/
def Obligations.LoadsReadOrFault : Prop :=
  (∀ (s : State) (g : Guard) (sz : Size) (d a : Reg) (off : BitVec 10) (t o : Nat),
    Issues s g [.g d, .g a] →
    Readable s (memAddr (s.reg a) sz off) (sizeBytes sz) t o →
    let n := sizeBytes sz
    let v := s.taskNat t o n
    (t = s.seat.core →
      Completes (.ldZ g sz d a off) s (fun u => TaskOnly s u ∧ StepsPc s u ∧ (∀ p, u.pred p = s.pred p)
        ∧ (∀ r, u.reg r = if r = d ∧ r ≠ 0 then BitVec.ofNat 64 v else s.reg r)
        ∧ u.here.ctl.work.wbuf = s.here.ctl.work.wbuf)
      ∧ Completes (.ldS g sz d a off) s (fun u => TaskOnly s u ∧ StepsPc s u ∧ (∀ p, u.pred p = s.pred p)
        ∧ (∀ r, u.reg r = if r = d ∧ r ≠ 0 then (BitVec.ofNat (8 * n) v).signExtend 64 else s.reg r)
        ∧ u.here.ctl.work.wbuf = s.here.ctl.work.wbuf))
    ∧ (t ≠ s.seat.core →
      Completes (.ldZ g sz d a off) s (fun u => MemoryKept s u ∧ NextWord s u
        ∧ u.here.owed = s.here.owed ++ [⟨s.fresh, s.here.ctl.run, .g d, some (BitVec.ofNat 64 v), false⟩])
      ∧ Completes (.ldS g sz d a off) s (fun u => MemoryKept s u ∧ NextWord s u
        ∧ u.here.owed = s.here.owed
            ++ [⟨s.fresh, s.here.ctl.run, .g d, some ((BitVec.ofNat (8 * n) v).signExtend 64), false⟩])))
  ∧ (∀ (s : State) (g : Guard) (sz : Size) (d a : Reg) (off : BitVec 10), Issues s g [.g d, .g a] →
    ∀ i, i = Instr.ldZ g sz d a off ∨ i = Instr.ldS g sz d a off →
    let addr := memAddr (s.reg a) sz off
    let n := sizeBytes sz
    (placeOf s.seat.core addr n = .bad ∨ placeOf s.seat.core addr n = .global → Completes i s (Traps 4 addr s))
    ∧ ∀ t o, placeOf s.seat.core addr n = .scratch t o →
      (addr.toNat % n ≠ 0 → Completes i s (Traps 5 addr s))
      ∧ (addr.toNat % n = 0 → (s.core t).wordHeld o n = true → exec i s = .next s)
      ∧ (addr.toNat % n = 0 → (s.core t).wordHeld o n = false → s.isEmpty (lineKey t (o / 128)) = true →
        (s.here.ctl.work.settled = true → Completes i s (Traps 8 (addr &&& ~~~127) s))
        ∧ (s.here.ctl.work.settled = false →
          Completes i s (fun u => u = s.rewind (lineKey t (o / 128)) ∧ u.here.ctl.slot = none ∧ MemoryKept s u)))
      ∧ (addr.toNat % n = 0 → (s.core t).wordHeld o n = false → s.isEmpty (lineKey t (o / 128)) = false →
        s.isBad (lineKey t (o / 128)) = true →
        (∃ k < n, Tbl.find s.here.ctl.work.wbuf (t * 2 ^ 19 + o + k) = none) →
        s.here.ctl.work.reads.length < 128 ∨ Unordered s → Completes i s (Traps 21 addr s)))

/-- R116, R168, R426: a store places the low bytes of its register in the write buffer and reaches no memory
before the commit; it ignores the line's full/empty bit; and it traps outside the windows or misaligned. One that
would pass 256 lines, and every later one, goes to its home at issue, in an ordered domain by an irrevocable task
(R174), once no atomic holds its word at the port (R139). -/
def Obligations.StoreWaitsInWriteBuffer : Prop :=
  ∀ (s : State) (g : Guard) (sz : Size) (d a : Reg) (off : BitVec 10), Issues s g [.g d, .g a] →
    let addr := memAddr (s.reg a) sz off
    let n := sizeBytes sz
    let i := Instr.st g sz d a off
    (placeOf s.seat.core addr n = .bad ∨ placeOf s.seat.core addr n = .global → Completes i s (Traps 4 addr s))
    ∧ ∀ t o, placeOf s.seat.core addr n = .scratch t o →
      (addr.toNat % n ≠ 0 → Completes i s (Traps 5 addr s))
      ∧ (addr.toNat % n = 0 → s.here.ctl.work.ovfl = false →
        s.here.bufferFull (t * 4096 + o / 128) = false →
        Completes i s (fun u => TaskOnly s u ∧ NextWord s u
          ∧ ∀ j, Tbl.find u.here.ctl.work.wbuf j =
              if t * 2 ^ 19 + o ≤ j ∧ j < t * 2 ^ 19 + o + n
              then some ((s.reg d).extractLsb' (8 * (j - (t * 2 ^ 19 + o))) 8)
              else Tbl.find s.here.ctl.work.wbuf j))
      ∧ (addr.toNat % n = 0 → s.here.ctl.work.ovfl = false → s.here.bufferFull (t * 4096 + o / 128) = true →
        IrrevocableFirst i s)
      ∧ (addr.toNat % n = 0 → Unordered s →
        s.here.ctl.work.ovfl = true ∨ s.here.bufferFull (t * 4096 + o / 128) = true →
        ((s.core t).wordHeld o n = true → Completes i s (fun u => u.here.ctl.pc = s.here.ctl.pc
          ∧ u.here.ctl.work.ovfl = true ∧ MemoryKept s u))
        ∧ ((s.core t).wordHeld o n = false → Completes i s (fun u => NextWord s u ∧ u.here.ctl.work.ovfl = true
          ∧ ∀ a, u.mem.read a = if spKey t o ≤ a ∧ a < spKey t o + n
              then (s.reg d).extractLsb' (8 * (a - spKey t o)) 8 else s.mem.read a)))

/-- R122, R123: `tlook` gives the lowest valid slot of the key's set that holds the key, all ones where there is
none; `tset` and `tclr` write the named slot and leave every other; a slot above 255 is the operand fault. -/
def Obligations.TagTableWords : Prop :=
  ∀ (s : State) (g : Guard) (d a b : Reg),
    let ways := 2 ^ (s.here.tagcfg.toNat % 16)
    let key := fun (x : Word) => x >>> (s.here.tagcfg.toNat / 256 % 64)
    let base := (key (s.reg a)).toNat % (256 / ways) * ways
    (Issues s g [.g d, .g a] → ∃ v, Completes (.tlook g d a) s (WritesReg d v s)
      ∧ ((∀ j < ways, Tbl.find s.here.tags (base + j) ≠ some (key (s.reg a))) → v = BitVec.allOnes 64)
      ∧ (∀ j < ways, Tbl.find s.here.tags (base + j) = some (key (s.reg a)) →
          (∀ i < j, Tbl.find s.here.tags (base + i) ≠ some (key (s.reg a))) → v = BitVec.ofNat 64 (base + j)))
    ∧ (Issues s g [.g a, .g b] → IrrevocableFirst (.tset g a b) s ∧ (Unordered s →
      ((s.reg a).toNat ≤ 255 → Completes (.tset g a b) s (fun t => NextWord s t ∧ MemoryKept s t
        ∧ OnlyCore s.seat.core s t
        ∧ ∀ j, Tbl.find t.here.tags j = if j = (s.reg a).toNat then some (key (s.reg b)) else Tbl.find s.here.tags j))
      ∧ (255 < (s.reg a).toNat → Completes (.tset g a b) s (Traps 7 (s.reg a) s))))
    ∧ (Issues s g [.g a] → IrrevocableFirst (.tclr g a) s ∧ (Unordered s →
      ((s.reg a).toNat ≤ 255 → Completes (.tclr g a) s (fun t => NextWord s t ∧ MemoryKept s t
        ∧ OnlyCore s.seat.core s t
        ∧ ∀ j, Tbl.find t.here.tags j = if j = (s.reg a).toNat then none else Tbl.find s.here.tags j))
      ∧ (255 < (s.reg a).toNat → Completes (.tclr g a) s (Traps 7 (s.reg a) s))))

/-- R121, R361, R363-R365: a local `fset` fills or empties its line at issue and no other line, but a line that the
hardware has filled in the same cycle stays full, a peer's leaves a packet on the ring that R9 gives; `ftest` writes
whether its line is full, a peer's as a reply; a fence holds both; an address outside the two scratchpad spaces is the address fault.

R124, R369, R370, R427: `ldg` empties its n lines, queues the command and adds 1 to `cnt.ld`; `stg` is only
recorded, 32 at most; both check their two addresses in order before. An ordered-domain task makes itself irrevocable
before `fset` and `ldg`, and before a `stg` that would pass 256 lines (R174). -/
def Obligations.LineWordsAndTransfers : Prop :=
  (∀ (s : State) (g : Guard) (d : Pred) (a : Reg) (full : Bool),
    let fset := if full then Instr.fsetFull g a else Instr.fsetEmpty g a
    (Issues s g [.g a] → s.fenced s.seat.core 0 s.opSeq = true → Completes fset s (fun t => t = s))
    ∧ (Issues s g [.g a] → s.fenced s.seat.core 0 s.opSeq = false → IrrevocableFirst fset s ∧ (Unordered s →
      (∀ o, placeOf s.seat.core (s.reg a) 1 = .scratch s.seat.core o → Completes fset s (fun t =>
        NextWord s t ∧ MemoryKept s t
          ∧ ∀ l, t.isEmpty l = if l = lineKey s.seat.core (o / 128) ∧ (full = true ∨ s.filledNow l = false) then !full
              else s.isEmpty l))
      ∧ (∀ t o, placeOf s.seat.core (s.reg a) 1 = .scratch t o → t ≠ s.seat.core → Completes fset s (fun u =>
        NextWord s u ∧ MemoryKept s u ∧ (∀ l, u.isEmpty l = s.isEmpty l)
          ∧ (if ringOf s.seat.core t = 0 then
              u.here.ring0 = s.here.ring0 ++ [.fset t s.here.ctl.run (lineKey t (o / 128)) full s.opSeq]
                ∧ u.here.ring1 = s.here.ring1
            else u.here.ring1 = s.here.ring1 ++ [.fset t s.here.ctl.run (lineKey t (o / 128)) full s.opSeq]
              ∧ u.here.ring0 = s.here.ring0)))
      ∧ (placeOf s.seat.core (s.reg a) 1 = .global ∨ placeOf s.seat.core (s.reg a) 1 = .bad →
        Completes fset s (Traps 4 (s.reg a) s))))
    ∧ (Issues s g [.q d, .g a] → s.fenced s.seat.core 0 s.opSeq = true →
        Completes (.ftest g d a) s (fun t => t = s))
    ∧ (Issues s g [.q d, .g a] → s.fenced s.seat.core 0 s.opSeq = false →
      (∀ o, placeOf s.seat.core (s.reg a) 1 = .scratch s.seat.core o →
        Completes (.ftest g d a) s (WritesPred d (!s.isEmpty (lineKey s.seat.core (o / 128))) s))
      ∧ (∀ t o, placeOf s.seat.core (s.reg a) 1 = .scratch t o → t ≠ s.seat.core →
        Completes (.ftest g d a) s (fun u => NextWord s u ∧ MemoryKept s u ∧ u.here.owed = s.here.owed
          ++ [⟨s.fresh, s.here.ctl.run, .q d, some (if s.isEmpty (lineKey t (o / 128)) then 0 else 1), false⟩]))
      ∧ (placeOf s.seat.core (s.reg a) 1 = .global ∨ placeOf s.seat.core (s.reg a) 1 = .bad →
        Completes (.ftest g d a) s (Traps 4 (s.reg a) s))))
  ∧ (∀ (s : State) (g : Guard) (a b : Reg) (lines : BitVec 7), Issues s g [.g a, .g b] →
    IrrevocableFirst (.ldg g a b lines) s
    ∧ (Unordered s → LineChecks (.ldg g a b lines) s (s.reg a) (s.reg b) (lines.toNat + 1)
      (((s.here.chain s.here.ctl.chain).ld = 65535 → Completes (.ldg g a b lines) s (Traps 11 0 s))
      ∧ ((s.here.chain s.here.ctl.chain).ld ≠ 65535 → Completes (.ldg g a b lines) s
        (fun t => LdgIssued s t ((s.reg a).toNat % 2 ^ 60 / 128) (lines.toNat + 1) (s.reg b)))))
    ∧ LineChecks (.stg g a b lines) s (s.reg a) (s.reg b) (lines.toNat + 1)
      ((s.here.ctl.work.stgs.length = 32 → Completes (.stg g a b lines) s (Traps 7 (s.reg a) s))
      ∧ (s.here.ctl.work.stgs.length ≠ 32 → 256 ≤ (bufLines s.here.ctl.work.wbuf).length + s.here.ctl.work.stgs.length →
        IrrevocableFirst (.stg g a b lines) s)
      ∧ (s.here.ctl.work.stgs.length ≠ 32 →
        Unordered s ∨ (bufLines s.here.ctl.work.wbuf).length + s.here.ctl.work.stgs.length < 256 →
        Completes (.stg g a b lines) s (fun t => TaskOnly s t ∧ NextWord s t ∧ t.here.ctl.work.stgs = s.here.ctl.work.stgs
          ++ [⟨(s.reg a).toNat % 2 ^ 60 / 128, s.reg b, lines.toNat + 1⟩]))))

/-- R138-R140, R317-R319: an atomic on scratchpad joins its target's port and its register is owed the old
value; one on global memory joins the Detent's queue, with dep = 1 an empty deposit line and `cnt.ld` one higher;
the address, alignment, operand, poison and counter faults come first. An ordered-domain task makes itself
irrevocable before (R174). -/
def Obligations.AtomicsIssue : Prop :=
  ∀ (s : State) (g : Guard) (o : AmoOp) (sz : AmoSize) (dep : Bool) (d a b : Reg),
    (Issues s g [.g d, .g a, .g b] → IrrevocableFirst (.amo g o sz dep d a b) s ∧ (Unordered s →
      AtomicIssue (.amo g o sz dep d a b) s o.code false (amoBytes sz) dep d (s.reg a) (s.reg b) 0))
    ∧ (Issues s g [.g d, .g a, .g b, .g (b + 1)] → IrrevocableFirst (.amocas g sz dep d a b) s ∧ (Unordered s →
      AtomicIssue (.amocas g sz dep d a b) s 0 true (amoBytes sz) dep d (s.reg a) (s.reg b) (s.reg (b + 1))))

/-- R51, R320, R325, R372, R412: `b` and `call` go to their word plus off22, `call` writing g31, `ret` goes to
g31, a target outside the store is the instruction-address fault, and `lpad` does nothing.

R272, R366, R367: `jt` reads the header at gt and, for an index below the bound, the entry; it falls through
past the bound, traps on a nonzero reserved half, and jumps only to an `lpad` of the label. -/
def Obligations.ControlTransfersAndJumpTable : Prop :=
  (∀ (s : State) (g : Guard) (off : BitVec 22) (label : BitVec 16),
    (Issues s g [] → TransferTo (.b g off) s (s.here.ctl.pc + off.toInt) false
      ∧ Completes (.lpad g label) s (fun t => NextWord s t ∧ RegistersOnly s t))
    ∧ (Issues s g [.g 31] → TransferTo (.call g off) s (s.here.ctl.pc + off.toInt) true
      ∧ TransferTo (.ret g) s (s.reg 31).toNat false))
  ∧ (∀ (s : State) (g : Guard) (a b : Reg) (t o : Nat), Issues s g [.g a, .g b] → Readable s (s.reg b) 8 t o →
    (s.taskNat t o 8 / 2 ^ 16 % 2 ^ 16 ≠ 0 → Completes (.jt g a b) s (Traps 7 (s.reg b) s))
    ∧ (s.taskNat t o 8 / 2 ^ 16 % 2 ^ 16 = 0 →
      (s.taskNat t o 8 / 2 ^ 32 ≤ (s.reg a).toNat →
        Completes (.jt g a b) s (fun u => TaskOnly s u ∧ NextWord s u))
      ∧ (∀ t' o', (s.reg a).toNat < s.taskNat t o 8 / 2 ^ 32 → Readable s (s.reg b + 8 + 4 * s.reg a) 4 t' o' →
        s.here.ctl.work.reads.length < 127 ∨ Unordered s →
          JumpsByTable (.jt g a b) s (s.taskNat t o 8 % 2 ^ 16) (s.taskNat t' o' 4))))

/-- R410, R411, R421, R422: `recv` takes the head token of its channel, whose kind stands above its value, and
answers whether there was one; `send` reserves a slot of a channel or a sink port and only records its word;
malformed words are the operand fault, a poisoned token is cause 21. -/
def Obligations.ChannelWords : Prop :=
  ∀ (s : State) (g : Guard) (d : Reg) (q : Pred) (vc : BitVec 5) (a b : Reg),
    (Issues s g [.g d, .q q] →
      ((s.here.vc vc.toNat).q = [] → Completes (.recv g d vc q) s (WritesPred q false s))
      ∧ (∀ x r, (s.here.vc vc.toNat).q = x :: r →
        (x.tok.poison = true → Completes (.recv g d vc q) s (Traps 21 (BitVec.ofNat 64 vc.toNat) s))
        ∧ (x.tok.poison = false → Completes (.recv g d vc q) s (fun t =>
          (∀ y, t.reg y = if y = d ∧ y ≠ 0 then (x.tok.kind ++ x.tok.value).setWidth 64 else s.reg y)
            ∧ (∀ p, t.pred p = if p = q ∧ p ≠ 0 then true else s.pred p) ∧ StepsPc s t ∧ MemoryKept s t
            ∧ (t.here.vc vc.toNat).q = r
            ∧ t.here.ctl.work.consumed = s.here.ctl.work.consumed ++ [(vc.toNat, x)]))))
    ∧ (Issues s g [.q q, .g a, .g b] →
      (2 ^ 35 ≤ (s.reg a).toNat ∨ ((s.reg a).toNat / 2 ^ 32 ≠ 0 ∧ (s.reg a).toNat % 2 ^ 32 ≠ 0) →
        Completes (.send g q a b) s (Traps 7 (s.reg a) s))
      ∧ (∀ kind : BitVec 3, ∀ value : W32, (kind = 0 ∨ value = 0) → s.reg a = (kind ++ value).setWidth 64 →
        ((¬ ∃ k < 96, ∃ v < 32, s.reg b = BitVec.ofNat 64 (32 * k + v)) →
          (¬ ∃ p < 16, s.reg b = BitVec.ofNat 64 (2 ^ 30 + p)) → Completes (.send g q a b) s (Traps 7 (s.reg b) s))
        ∧ (∀ k < 96, ∀ v < 32, s.reg b = BitVec.ofNat 64 (32 * k + v) →
          Completes (.send g q a b) s (fun u =>
            SendsToVc s u q (s.seat.core / 96 * 96 + k) v ⟨false, kind, value⟩))
        ∧ (∀ p < 16, s.reg b = BitVec.ofNat 64 (2 ^ 30 + p) →
          (s.here.sinkRouted p = true → Completes (.send g q a b) s (Traps 7 (s.reg b) s))
          ∧ (s.here.sinkRouted p = false →
            (¬ (s.here.ctl.work.sends < 16 ∧ (s.here.port (16 + p)).buf.length + (s.here.port (16 + p)).resv < 8) →
              Completes (.send g q a b) s (WritesPred q false s))
            ∧ (s.here.ctl.work.sends < 16 ∧ (s.here.port (16 + p)).buf.length + (s.here.port (16 + p)).resv < 8 →
              Completes (.send g q a b) s (fun u => AnswersPred q true s u
                ∧ (u.here.port (16 + p)).resv = (s.here.port (16 + p)).resv + 1
                ∧ u.here.ctl.work.outs = s.here.ctl.work.outs ++ [.sendSink p ⟨false, kind, value⟩]))))))

/-- R424, R425: `spawn` reserves the lowest free slot and records the instance with its stamp and g24-g31; a
malformed word or an invalid entry, an earlier stamp and a full pool are causes 7, 12 and 10. -/
def Obligations.SpawnReservesSlot : Prop :=
  ∀ (s : State) (g : Guard) (a b : Reg), Issues s g ([.g a, .g b] ++ carryRegs.map .g) →
    ((¬ ∃ at_ < 2 ^ 14, ∃ e < 32, s.reg a = BitVec.ofNat 64 (2 ^ 16 * at_ + e)) →
      Completes (.spawn g a b) s (Traps 7 (s.reg a) s))
    ∧ ∀ (at_ : BitVec 14), ∀ e < 32, s.reg a = BitVec.ofNat 64 (2 ^ 16 * at_.toNat + e) →
      ((s.here.task e).valid = false → Completes (.spawn g a b) s (Traps 7 (s.reg a) s))
      ∧ ((s.here.task e).valid = true →
        (s.here.taskOrd = true → (s.here.task e).ord = true → (s.reg b).toNat < s.here.ctl.stamp.toNat →
          Completes (.spawn g a b) s (Traps 12 (s.reg b) s))
        ∧ (s.here.taskOrd = false ∨ (s.here.task e).ord = false ∨ s.here.ctl.stamp.toNat ≤ (s.reg b).toNat →
          ((∀ n < 64, Tbl.find s.here.slots n ≠ none) → Completes (.spawn g a b) s (Traps 10 0 s))
          ∧ (∀ n < 64, Tbl.find s.here.slots n = none → (∀ m < n, Tbl.find s.here.slots m ≠ none) →
            Completes (.spawn g a b) s (fun t => NextWord s t ∧ MemoryKept s t
              ∧ Tbl.find t.here.slots n = some { st := .reserved, start := at_, idx := e, how := 1, stamp := s.reg b
                                                 carry := carryRegs.map s.reg }
              ∧ (∀ m, m ≠ n → Tbl.find t.here.slots m = Tbl.find s.here.slots m)
              ∧ t.here.ctl.work.outs = s.here.ctl.work.outs
                ++ [.spawn n e at_ (s.reg b) (carryRegs.map s.reg)]))))

/-- R63, R71, R353, R354, R409, R434: `end` ends the task, `rdv` and `yield` leave a continuation in its slot; a
`yield` on a line outside the own scratchpad or on a bad barrier word traps; on the stream sequencer `end` is the
join. -/
def Obligations.EndsOfTasks : Prop :=
  ∀ (s : State) (g : Guard) (tgt : BitVec 14) (wake : WakeCode) (n : Nat) (x : Slot),
    (Issues s g [] → Completes (.endTask g) s (TaskEnds none s))
    ∧ (Issues s g (carryRegs.map .g) → s.here.ctl.slot = some n → Tbl.find s.here.slots n = some x →
      Completes (.rdv g tgt) s (TaskEnds (some (Continues s .rdv tgt x)) s)
      ∧ (wake = .line → (s.reg 24).toNat / 2 ^ 60 ≠ 1 ∨ 0x80000 ≤ (s.reg 24).toNat % 2 ^ 60 →
        Completes (.yield g wake tgt) s (Traps 4 (s.reg 24) s))
      ∧ (wake = .bar → ¬ BarrierFits s (s.reg 24) → Completes (.yield g wake tgt) s (Traps 7 (s.reg 24) s))
      ∧ ((wake = .line → (s.reg 24).toNat / 2 ^ 60 = 1 ∧ (s.reg 24).toNat % 2 ^ 60 < 0x80000) →
        (wake = .bar → BarrierFits s (s.reg 24)) →
          Completes (.yield g wake tgt) s (TaskEnds (some (Continues s wake tgt x)) s)))
    ∧ (s.seat.seq = .stream → s.here.ss.active = true → s.here.ss.halt = false → s.here.frozen = false →
      Completes .endJoin s (fun t => MemoryKept s t ∧ t.here.ss.active = false ∧ t.here.ctl = s.here.ctl
        ∧ (t.here.chain s.here.ss.chain).forkS = false))

/-- R67-R69, R73, R132, R362, R374, R413: `safe` resets `safecnt`, and suspends the task with the registers of its
mask when a pre-emption is pending; `waitc` tests the chain's counters; `fork` starts an idle sequencer and
answers whether it did. -/
def Obligations.SafePointsTestsAndForks : Prop :=
  ∀ (s : State) (g : Guard) (live : BitVec 17) (d : Pred) (tgt : BitVec 14) (ld st cp mt : BitVec 4),
    (Issues s g [] →
      (s.here.halted ≠ none ∨ (s.here.dbgReq = false ∧ s.here.preempt = none) →
        Completes (.safe g live) s (fun t => RegistersOnly s t ∧ (∀ r, t.reg r = s.reg r)
          ∧ (∀ p, t.pred p = s.pred p) ∧ t.here.ctl.pc = s.here.ctl.pc + 1 ∧ t.here.ctl.safecnt = 0))
      ∧ (s.here.halted = none → s.here.dbgReq = true → Completes (.safe g live) s (fun t =>
        t.here.halted = some { s.here.ctl with safecnt := 0 } ∧ t.here.epc = BitVec.ofNat 64 s.here.ctl.pc
          ∧ t.here.ctl.pc = s.here.dbgEntry.toNat ∧ t.here.frozen = true ∧ MemoryKept s t))
      ∧ (s.here.halted = none → s.here.dbgReq = false → s.here.preempt ≠ none → ∀ n x,
        s.here.ctl.slot = some n → Tbl.find s.here.slots n = some x → Completes (.safe g live) s (fun t =>
          t.here.ctl.slot = none ∧ MemoryKept s t
            ∧ ∃ k, Tbl.find t.here.slots n = some { x with st := .suspended, saved := some k }
              ∧ k.pc = s.here.ctl.pc + 1 ∧ k.safecnt = 0
              ∧ (∀ r, k.reg r = if live.getLsbD (r.toNat / 2) = true then s.reg r else 0)
              ∧ ∀ p, p ≠ 0 → k.pred p = (live.getLsbD 16 && s.pred p))))
    ∧ (Issues s g [.q d] →
      Completes (.waitc g d ld st cp mt) s (WritesPred d
        (nibbleHolds ld (s.here.chain s.here.ctl.chain).ld && nibbleHolds st (s.here.chain s.here.ctl.chain).st
          && nibbleHolds cp (s.here.chain s.here.ctl.chain).cp && nibbleHolds mt (s.here.chain s.here.ctl.chain).mt) s)
      ∧ IrrevocableFirst (.forkMatrix g d tgt) s
      ∧ (Unordered s → Completes (.forkMatrix g d tgt) s (fun t => AnswersPred d (!s.here.mx.active) s t
        ∧ (s.here.mx.active = true → t.here.mx = s.here.mx)
        ∧ (s.here.mx.active = false → t.here.mx = { s.here.mx with
              active := true, halt := false, pc := tgt.toNat, chain := s.here.ctl.chain, fcode := 0 }
          ∧ (t.here.chain s.here.ctl.chain).forkM = true))))
    ∧ (Issues s g (.q d :: allRegs.map .g) → IrrevocableFirst (.forkStream g d tgt) s
      ∧ (Unordered s → Completes (.forkStream g d tgt) s (fun t =>
      AnswersPred d (!s.here.ss.active) s t
        ∧ (s.here.ss.active = true → t.here.ss = s.here.ss)
        ∧ (s.here.ss.active = false → t.here.ss = {
              active := true, halt := false, pc := tgt.toNat, chain := s.here.ctl.chain, snap := allRegs.map s.reg }
          ∧ (t.here.chain s.here.ctl.chain).forkS = true))))

/-- R180, R309, R322, R323, R361: `fence` records its hold and goes on; `bar` counts one arrival of its chain;
`bartest` says whether the round of the chain's latest arrival is complete; both refuse a word that does not fit. -/
def Obligations.FencesAndBarriers : Prop :=
  ∀ (s : State) (g : Guard) (before after : BitVec 8) (d : Pred) (a : Reg),
    (Issues s g [] → Completes (.fence g before after) s (fun t => NextWord s t ∧ t.opSeq = s.opSeq + 1
      ∧ (before.getLsbD 6 = false → MemoryKept s t)
      ∧ ∃ upd, t.here.holds = s.here.holds ++ [⟨before, after, s.opSeq, upd⟩]))
    ∧ (Issues s g [.g a] → IrrevocableFirst (.bar g a) s ∧ (Unordered s →
      (¬ BarrierFits s (s.reg a) → Completes (.bar g a) s (Traps 7 (s.reg a) s))
      ∧ (BarrierFits s (s.reg a) → Completes (.bar g a) s (fun t => NextWord s t ∧ MemoryKept s t
        ∧ Tbl.find (t.here.chain s.here.ctl.chain).bars ((s.reg a).toNat % 256)
          = some (s.barrier (s.here.chain s.here.ctl.chain).launch ((s.reg a).toNat % 256)).2
        ∧ (Tbl.find s.launches (s.here.chain s.here.ctl.chain).launch ≠ none →
          t.barrier (s.here.chain s.here.ctl.chain).launch ((s.reg a).toNat % 256) = ((s.reg a).toNat / 256,
            (s.barrier (s.here.chain s.here.ctl.chain).launch ((s.reg a).toNat % 256)).2 + 1))))))
    ∧ (Issues s g [.q d, .g a] →
      (¬ BarrierFits s (s.reg a) → Completes (.bartest g d a) s (Traps 7 (s.reg a) s))
      ∧ (BarrierFits s (s.reg a) →
        (Tbl.find (s.here.chain s.here.ctl.chain).bars ((s.reg a).toNat % 256) = none →
          Completes (.bartest g d a) s (WritesPred d false s))
        ∧ (∀ j, Tbl.find (s.here.chain s.here.ctl.chain).bars ((s.reg a).toNat % 256) = some j →
          ((s.barrier (s.here.chain s.here.ctl.chain).launch ((s.reg a).toNat % 256)).2
              < (j / ((s.reg a).toNat / 256) + 1) * ((s.reg a).toNat / 256) →
            Completes (.bartest g d a) s (WritesPred d false s))
          ∧ ((j / ((s.reg a).toNat / 256) + 1) * ((s.reg a).toNat / 256)
              ≤ (s.barrier (s.here.chain s.here.ctl.chain).launch ((s.reg a).toNat % 256)).2 →
            (∀ l, Tbl.find s.launches (s.here.chain s.here.ctl.chain).launch = some l → l.pend = []) →
              Completes (.bartest g d a) s (WritesPred d true s)))))

/-- R48, R54, R55, R111, R112, R137, R381, R382: `mfs` reads each register of R54 that every task reads, all 64 bits of
it, the supervisor's registers at supervisor level, and traps on the rest; `lstat` without the flags of its own
cycle. -/
def Obligations.SpecialRegisterReads : Prop :=
  ∀ (s : State) (g : Guard) (d : Reg) (n : BitVec 12), Issues s g [.g d] →
    (∀ x ∈ [(0x001, s.here.ctl.stamp), (0x002, BitVec.ofNat 64 s.dial),
        (0x003, s.here.cause), (0x004, s.here.epc), (0x005, s.here.evalue), (0x006, BitVec.ofNat 64 s.here.part),
        (0x007, BitVec.ofNat 64 s.here.part),
        (0x010, BitVec.ofNat 64 (s.here.chain s.here.ctl.chain).ld),
        (0x011, BitVec.ofNat 64 (s.here.chain s.here.ctl.chain).st),
        (0x012, BitVec.ofNat 64 (s.here.chain s.here.ctl.chain).cp),
        (0x013, BitVec.ofNat 64 (s.here.chain s.here.ctl.chain).mt),
        (0x020, (if s.here.raisedAt = s.cycle then s.here.lstat else s.here.lstat ||| s.here.raised).setWidth 64),
        (0x022, s.here.mx.flags.setWidth 64), (0x030, s.here.tagcfg),
        (0x050, BitVec.ofNat 64 s.here.ctl.safecnt)], n.toNat = x.1 → Completes (.mfs g d n) s (WritesReg d x.2 s))
    ∧ (n.toNat = 0x000 → Completes (.mfs g d n) s (WritesReg d
        (BitVec.ofNat 64 (2 ^ 32 * (srcOf s.seat.core 0 % 2 ^ 16) + s.here.ctl.task.toNat % 2 ^ 32)) s))
    ∧ (n.toNat = 0x021 → ∃ v : Word, Completes (.mfs g d n) s (WritesReg d v s)
        ∧ v.extractLsb' 0 4 = s.here.mx.fcode ∧ v.getLsbD 4 = s.here.mx.sat ∧ v.getLsbD 5 = s.here.mx.dirty
        ∧ v.getLsbD 6 = false ∧ v.getLsbD 7 = s.here.mx.busy ∧ v.extractLsb' 8 8 = s.here.mx.win
        ∧ v.getLsbD 16 = s.here.mx.tp ∧ v.getLsbD 17 = s.here.mx.infeas ∧ v.getLsbD 18 = s.here.mx.conv
        ∧ v.extractLsb' 19 13 = s.here.mx.sweeps ∧ v.extractLsb' 32 32 = s.here.mx.err)
    ∧ (n.toNat = 0x040 → ∃ v : Word, Completes (.mfs g d n) s (WritesReg d v s)
        ∧ ∀ e < 32, ∀ b < 2, (v.getLsbD (2 * e + b) = true ↔ ∃ u ∈ s.subs, u.state.getLsbD b = true
          ∧ ((u.sub = s.seat.core ∧ u.subIdx = e) ∨ (u.pub = s.seat.core ∧ u.closed = false ∧ u.pubIdx = e))))
    ∧ (0x100 ≤ n.toNat → n.toNat ≤ 0x1FF →
      (s.here.supervisor = false → Completes (.mfs g d n) s (Traps 2 (n.setWidth 64) s))
      ∧ (s.here.supervisor = true →
        (n.toNat = 0x110 → Completes (.mfs g d n) s (WritesReg d (s.part s.here.part).mode s))
        ∧ (n.toNat = 0x111 → Completes (.mfs g d n) s (WritesReg d s.here.dbgEntry s))
        ∧ (0x180 ≤ n.toNat → n.toNat ≤ 0x19F →
          Completes (.mfs g d n) s (WritesReg d (Tbl.get 0 s.here.dbgG (n.toNat - 0x180)) s))
        ∧ (n.toNat = 0x1A0 → Completes (.mfs g d n) s (WritesReg d s.here.dbgQ s))
        ∧ (n.toNat ≠ 0x110 → n.toNat ≠ 0x111 → ¬ (0x180 ≤ n.toNat ∧ n.toNat ≤ 0x1A0) →
          Completes (.mfs g d n) s (WritesReg d 0 s))))
    ∧ (n.toNat ∉ [0x000, 0x001, 0x002, 0x003, 0x004, 0x005, 0x006, 0x007, 0x010, 0x011, 0x012, 0x013, 0x020, 0x021,
        0x022, 0x030, 0x040, 0x050] → ¬ (0x100 ≤ n.toNat ∧ n.toNat ≤ 0x1FF) →
      Completes (.mfs g d n) s (Traps 1 ((Tbl.get 0 s.here.store s.here.ctl.pc).setWidth 64) s))

/-- R13, R48, R54, R111, R112, R122, R174, R383: `mts` replaces the flags of `lstat` and `mflag`, the upper fields of
`mstat`, and a valid `tagcfg` with its table emptied; flags that lanes raise in its cycle come after it. The supervisor's
registers take the whole word (of 0x1A0 the upper bits too, log entry 79) and the mode register its two bits; its other
numbers ignore the write; every other register is the illegal trap, and the tenant's access to the supervisor's the
privilege trap. An ordered-domain task becomes irrevocable first. -/
def Obligations.SpecialRegisterWrites : Prop :=
  ∀ (s : State) (g : Guard) (a : Reg) (n : BitVec 12), Issues s g [.g a] →
    let super := 0x100 ≤ n.toNat ∧ n.toNat ≤ 0x1FF
    (super → s.here.supervisor = false → Completes (.mts g a n) s (Traps 2 (n.setWidth 64) s))
    ∧ (super → s.here.supervisor = true → IrrevocableFirst (.mts g a n) s)
    ∧ (¬ super → IrrevocableFirst (.mts g a n) s)
    ∧ (Unordered s →
      (n.toNat = 0x020 → Completes (.mts g a n) s (fun t => NextWord s t ∧ MemoryKept s t ∧ OnlyCore s.seat.core s t
        ∧ ∀ cyc, s.cycle < cyc → t.here.flagsAt cyc
            = (s.reg a).setWidth 5 ||| (if s.here.raisedAt = s.cycle then s.here.raised else 0)))
      ∧ (n.toNat = 0x022 → Completes (.mts g a n) s (fun t => NextWord s t ∧ MemoryKept s t ∧ OnlyCore s.seat.core s t
        ∧ t.here.mx = { s.here.mx with flags := (s.reg a).setWidth 5 }))
      ∧ (n.toNat = 0x021 → Completes (.mts g a n) s (fun t => NextWord s t ∧ MemoryKept s t ∧ OnlyCore s.seat.core s t
        ∧ t.here.mx = { s.here.mx with
            err := (s.reg a).extractLsb' 32 32, sweeps := (s.reg a).extractLsb' 19 13
            conv := (s.reg a).getLsbD 18, infeas := (s.reg a).getLsbD 17 }))
      ∧ (n.toNat = 0x030 →
        (2 ^ 14 ≤ (s.reg a).toNat ∨ (s.reg a).toNat / 16 % 16 ≠ 0 ∨ 8 < (s.reg a).toNat % 16 →
          Completes (.mts g a n) s (Traps 7 (s.reg a) s))
        ∧ ((s.reg a).toNat < 2 ^ 14 → (s.reg a).toNat / 16 % 16 = 0 → (s.reg a).toNat % 16 ≤ 8 →
          Completes (.mts g a n) s (fun t => NextWord s t ∧ MemoryKept s t ∧ OnlyCore s.seat.core s t
            ∧ t.here.tagcfg = s.reg a ∧ t.here.tags = [])))
      ∧ (s.here.supervisor = true →
        (n.toNat = 0x110 → Completes (.mts g a n) s (fun t => NextWord s t ∧ MemoryKept s t
          ∧ (t.part s.here.part).dbg = (s.reg a).getLsbD 0
          ∧ ((∃ x ∈ s.jobs, x.2.part = s.here.part ∧ x.2.status = none) →
            (t.part s.here.part).det = (s.part s.here.part).det
              ∧ (t.part s.here.part).detNext = some ((s.reg a).getLsbD 1))
          ∧ ((∀ x ∈ s.jobs, x.2.part = s.here.part → x.2.status ≠ none) →
            (t.part s.here.part).det = (s.reg a).getLsbD 1 ∧ (t.part s.here.part).detNext = none)))
        ∧ (n.toNat = 0x111 → Completes (.mts g a n) s (fun t => NextWord s t ∧ MemoryKept s t
          ∧ OnlyCore s.seat.core s t ∧ t.here.dbgEntry = s.reg a))
        ∧ (0x180 ≤ n.toNat → n.toNat ≤ 0x19F → Completes (.mts g a n) s (fun t => NextWord s t ∧ MemoryKept s t
          ∧ OnlyCore s.seat.core s t
          ∧ ∀ j, Tbl.get 0 t.here.dbgG j = if j = n.toNat - 0x180 then s.reg a else Tbl.get 0 s.here.dbgG j))
        ∧ (n.toNat = 0x1A0 → Completes (.mts g a n) s (fun t => NextWord s t ∧ MemoryKept s t
          ∧ OnlyCore s.seat.core s t ∧ t.here.dbgQ = s.reg a))
        ∧ (super → n.toNat ≠ 0x110 → n.toNat ≠ 0x111 → ¬ (0x180 ≤ n.toNat ∧ n.toNat ≤ 0x1A0) →
          Completes (.mts g a n) s (fun t => NextWord s t ∧ TaskOnly s t)))
      ∧ (n.toNat ∉ [0x020, 0x021, 0x022, 0x030] → ¬ super →
        Completes (.mts g a n) s (Traps 1 ((Tbl.get 0 s.here.store s.here.ctl.pc).setWidth 64) s)))

/-- R225, R226, R245, R298, R299, R356, R402: `nop` only goes on, `trap` raises the software trap with its code,
`brk` halts for debug under `dbg` and is the breakpoint trap otherwise, `eret` resumes the halted task after its
`epc`, or leaves it suspended with its registers while a subscription of its core has a backlog or is not live (R137), and
is a trap elsewhere; an illegal word is cause 1 on the sequencer that issues it, on the matrix sequencer after an
earlier draining word has completed (R102). -/
def Obligations.SystemWords : Prop :=
  ∀ (s : State) (g : Guard) (code : BitVec 12) (w : BitVec 32),
    (Issues s g [] →
      Completes (.nop g) s (fun t => NextWord s t ∧ RegistersOnly s t)
      ∧ Completes (.trap g code) s (Traps 20 (code.setWidth 64) s)
      ∧ ((s.part s.here.part).dbg = true → s.here.supervisor = false → Completes (.brk g) s (fun t =>
        (∃ k, t.here.halted = some k ∧ k.g = s.here.ctl.g ∧ k.q = s.here.ctl.q ∧ k.pc = s.here.ctl.pc)
          ∧ t.here.epc = BitVec.ofNat 64 s.here.ctl.pc ∧ t.here.dbgG = s.here.ctl.g ∧ t.here.frozen = true
          ∧ (∀ p : Pred, t.here.dbgQ.getLsbD p.toNat = s.pred p)
          ∧ t.here.ctl.pc = s.here.dbgEntry.toNat ∧ t.here.supervisor = true ∧ MemoryKept s t))
      ∧ ((s.part s.here.part).dbg = false ∨ s.here.supervisor = true →
        Completes (.brk g) s (Traps 19 (BitVec.ofNat 64 s.here.ctl.pc) s))
      ∧ (∀ k, s.here.halted = some k →
        let regs := fun (c : Ctl) => c.pc = s.here.epc.toNat + 1
          ∧ (∀ r, c.reg r = if r = 0 then 0 else Tbl.get 0 s.here.dbgG r.toNat)
          ∧ ∀ p, c.pred p = if p = 0 then true else s.here.dbgQ.getLsbD p.toNat
        let live := ∀ u ∈ s.subs, u.sub = s.seat.core → u.state = 2 ∧ u.backlog = []
        let back := fun (t : State) => t.here.halted = none ∧ t.here.frozen = s.here.preempt.isSome ∧ MemoryKept s t
          ∧ t.subs = s.subs.map (fun u => if u.sub = s.seat.core then u.resume else u)
        (k.slot = none → Completes (.eret g) s (fun t => back t ∧ t.here.ctl.slot = none))
        ∧ (∀ n, k.slot = some n → live → Completes (.eret g) s (fun t => back t ∧ t.here.ctl.slot = some n
          ∧ regs t.here.ctl))
        ∧ (∀ n x, k.slot = some n → ¬ live → Tbl.find s.here.slots n = some x → Completes (.eret g) s (fun t => back t
          ∧ t.here.ctl.slot = none ∧ ∃ c, Tbl.find t.here.slots n = some { x with st := .suspended, saved := some c }
            ∧ regs c)))
      ∧ (s.here.halted = none → s.here.firmware = true →
        Completes (.eret g) s (Traps 1 ((Tbl.get 0 s.here.store s.here.ctl.pc).setWidth 64) s))
      ∧ (s.here.halted = none → s.here.firmware = false → Completes (.eret g) s (Traps 2 0 s)))
    ∧ (s.seat.seq = .stream → s.here.ss.active = true → s.here.ss.halt = false → s.here.frozen = false →
      Completes (.nop g) s (fun t => t = s.setCore s.seat.core { s.here with
        ss := { s.here.ss with pc := s.here.ss.pc + 1 } })
      ∧ Completes (.illegalInstruction w) s (fun t => t.here.ss = { s.here.ss with halt := true } ∧ t.here.ctl = s.here.ctl
        ∧ MemoryKept s t ∧ (t.here.chain s.here.ss.chain).status = .faulted))
    ∧ (s.seat.seq = .control → s.here.ctl.slot ≠ none → s.here.ctl.killed = false →
      Completes (.illegalInstruction w) s (Traps 1 (w.setWidth 64) s))
    ∧ (s.seat.seq = .matrix → s.here.mx.active = true → s.here.mx.halt = false → s.here.frozen = false →
      ((∃ x ∈ s.here.mx.words, x.drains = true) → exec (.illegalInstruction w) s = .next s)
      ∧ ((∀ x ∈ s.here.mx.words, x.drains = false) →
        Completes (.illegalInstruction w) s (fun t => t.here.mx = { s.here.mx with halt := true, fcode := 0 }
          ∧ t.here.ctl = s.here.ctl ∧ MemoryKept s t ∧ (t.here.chain s.here.mx.chain).status = .faulted)))

/-- R414, R415: `sbind` checks its port code and block, is refused on a port at work, a circuit's end or an empty
line, faults on a bad or poisoned descriptor, and else binds a copy with both counters at 0. An ordered-domain task
makes itself irrevocable before. -/
def Obligations.StreamBinding : Prop :=
  ∀ (s : State) (g : Guard) (d : Pred) (a b : Reg) (p : Nat), StreamIssues s g [.q d, .g b, .g a] →
    (s.fenced s.seat.core 1 s.opSeq = true → exec (.sbind g d a b) s = .next s)
    ∧ (∀ u, Issues u g [.q d, .g b, .g a] → u.fenced u.seat.core 1 u.opSeq = false →
      IrrevocableFirst (.sbind g d a b) u)
    ∧ (s.fenced s.seat.core 1 s.opSeq = false → (32 ≤ (s.reg b).toNat → StreamFaults (.sbind g d a b) s 7 (s.reg b))
      ∧ ((s.reg b).toNat = p → p < 32 → LocalChecks (.sbind g d a b) s (s.reg a) 64 64
      ((((s.here.port p).q ≠ [] ∨ (s.here.port p).run ≠ none ∨ (s.here.port p).circuit = true
          ∨ s.isEmpty (lineKey s.seat.core ((s.reg a).toNat % 2 ^ 60 / 128)) = true) →
        StreamRefuses (.sbind g d a b) s d)
      ∧ ((s.here.port p).q = [] → (s.here.port p).run = none → (s.here.port p).circuit = false →
        s.isEmpty (lineKey s.seat.core ((s.reg a).toNat % 2 ^ 60 / 128)) = false → ∀ D : BitVec 512,
          D = BitVec.ofNat 512 (leNat (s.spBytes s.seat.core ((s.reg a).toNat % 2 ^ 60) 64)) →
          (¬ MayBind D (decide (16 ≤ p)) ∨ s.isBad (lineKey s.seat.core ((s.reg a).toNat % 2 ^ 60 / 128)) = true →
            StreamFaults (.sbind g d a b) s 7 (s.reg a))
          ∧ (MayBind D (decide (16 ≤ p)) →
            s.isBad (lineKey s.seat.core ((s.reg a).toNat % 2 ^ 60 / 128)) = false →
            StreamActs (.sbind g d a b) s d (fun t => t.here.chains = s.here.chains
              ∧ t.here.port p = { s.here.port p with desc := some D, posted := 0, read := 0 }
              ∧ ∀ j, j ≠ p → t.here.port j = s.here.port j))))))

/-- R131, R414, R416-R418: `scopy`, `sim2c` and `sgath` check their port code and operands, are refused on a port
without a descriptor, and queue one command; `sgath` reads its list at issue. An ordered-domain task makes itself
irrevocable before each of the four words (R174).

R131, R414, R419: `sstop` gives the port's counters, read above posted; with keep = 0 the port has no command
left, and each of its commands has lowered its chain's `cnt.cp`. -/
def Obligations.StreamCommandsAndStop : Prop :=
  (∀ (s : State) (g : Guard) (d : Pred) (a b : Reg) (n : BitVec 7) (p : Nat) (D : BitVec 512) (ch : Nat),
    StreamIssues s g [.q d, .g b, .g a] →
    ((s.seat.seq = .control → ch = s.here.ctl.chain) ∧ (s.seat.seq = .stream → ch = s.here.ss.chain)) →
    (∀ u, Issues u g [.q d, .g b, .g a] → IrrevocableFirst (.scopy g d a b) u ∧ IrrevocableFirst (.sim2c g d a b) u
      ∧ (u.fenced u.seat.core 3 u.opSeq = false → IrrevocableFirst (.sgath g d a b n) u))
    ∧ (32 ≤ (s.reg b).toNat → StreamFaults (.scopy g d a b) s 7 (s.reg b))
    ∧ (16 ≤ (s.reg b).toNat → StreamFaults (.sim2c g d a b) s 7 (s.reg b))
    ∧ (s.fenced s.seat.core 3 s.opSeq = true → exec (.sgath g d a b n) s = .next s)
    ∧ (16 ≤ (s.reg b).toNat → s.fenced s.seat.core 3 s.opSeq = false → StreamFaults (.sgath g d a b n) s 7 (s.reg b))
    ∧ ((s.reg b).toNat = p → p < 32 →
      ((s.here.port p).desc = none → StreamRefuses (.scopy g d a b) s d)
      ∧ ((s.here.port p).desc = some D →
        Queues (.scopy g d a b) s d p ⟨.copy, Desc.shift D (s.reg a), ch, s.opSeq⟩))
    ∧ ((s.reg b).toNat = p → p < 16 →
      (2 ^ 32 ≤ (s.reg a).toNat → StreamFaults (.sim2c g d a b) s 7 (s.reg a))
      ∧ ((s.reg a).toNat < 2 ^ 32 → (s.here.port p).desc = none → StreamRefuses (.sim2c g d a b) s d)
      ∧ ((s.reg a).toNat < 2 ^ 32 → (s.here.port p).desc = some D → Queues (.sim2c g d a b) s d p
          ⟨.sim2c ((s.reg a).toNat % 2 ^ 16 + 1) ((s.reg a).extractLsb' 16 16), D, ch, s.opSeq⟩)
      ∧ (s.fenced s.seat.core 3 s.opSeq = false →
        LocalChecks (.sgath g d a b n) s (s.reg a) (4 * (n.toNat + 1)) 4
        (((s.here.port p).desc = none → StreamRefuses (.sgath g d a b n) s d)
        ∧ ((s.here.port p).desc = some D → ∀ lines,
          lines = spLines s.seat.core ((s.reg a).toNat % 2 ^ 60) (4 * (n.toNat + 1)) →
          ((∃ l ∈ lines, s.isEmpty l = true) → StreamRefuses (.sgath g d a b n) s d)
          ∧ ((∀ l ∈ lines, s.isEmpty l = false) →
            ((∃ l ∈ lines, s.isBad l = true) → StreamFaults (.sgath g d a b n) s 7 (s.reg a))
            ∧ ((∀ l ∈ lines, s.isBad l = false) → Queues (.sgath g d a b n) s d p
              ⟨.gath ((chunks 4 (n.toNat + 1) (s.spBytes s.seat.core ((s.reg a).toNat % 2 ^ 60)
                (4 * (n.toNat + 1)))).map (fun l => BitVec.ofNat 32 (leNat l))), D, ch, s.opSeq⟩)))))))
  ∧ (∀ (s : State) (g : Guard) (d b : Reg) (keep : Bool) (p : Nat), StreamIssues s g [.g d, .g b] →
    (∀ u, Issues u g [.g d, .g b] → IrrevocableFirst (.sstop g d b keep) u)
    ∧ (32 ≤ (s.reg b).toNat → StreamFaults (.sstop g d b keep) s 7 (s.reg b))
    ∧ ((s.reg b).toNat = p → p < 32 → Completes (.sstop g d b keep) s (fun t => MemoryKept s t
      ∧ (keep = true → t.here.ports = s.here.ports ∧ t.here.chains = s.here.chains ∧ t.readers = s.readers)
      ∧ (keep = false → (t.here.port p).q = [] ∧ (t.here.port p).run = none
        ∧ (t.here.port p).buf = (s.here.port p).buf
        ∧ ∀ ch, (t.here.chain ch).cp = (s.here.chain ch).cp
          - ((s.here.port p).q.countP (fun m => m.chain == ch)
            + if (s.here.port p).run.any (fun r => r.cmd.chain == ch) then 1 else 0))
      ∧ (s.seat.seq = .control → (∀ p, t.pred p = s.pred p) ∧ StepsPc s t
        ∧ ∀ r, t.reg r = if r = d ∧ r ≠ 0 then ((s.here.port p).read ++ (s.here.port p).posted).setWidth 64
          else s.reg r)
      ∧ (s.seat.seq = .stream → t.here.ss = { s.here.ss with pc := s.here.ss.pc + 1 } ∧ t.here.ctl = s.here.ctl))))

/-- R134, R428-R431: `subs` makes a subscription with a lowest free entry at each end, or gives all ones; `unsubs`
starts the removal of an entry; `sflush` closes every open window of what the core publishes. An ordered-domain task
makes itself irrevocable before each (R174). -/
def Obligations.SubscriptionWords : Prop :=
  ∀ (s : State) (g : Guard) (d a b : Reg),
    (Issues s g [.g d, .g a, .g b] → IrrevocableFirst (.subs g d a b) s ∧ (Unordered s →
      ((s.reg a).toNat / 2 ^ 60 ≠ 2 ∨ 96 * 0x80000 ≤ (s.reg a).toNat % 2 ^ 60 →
        Completes (.subs g d a b) s (Traps 4 (s.reg a) s))
      ∧ ((s.reg a).toNat / 2 ^ 60 = 2 → (s.reg a).toNat % 2 ^ 60 < 96 * 0x80000 →
        ((s.reg a).toNat % 128 ≠ 0 → Completes (.subs g d a b) s (Traps 5 (s.reg a) s))
        ∧ ((s.reg a).toNat % 128 = 0 →
          (2 ^ 25 ≤ (s.reg b).toNat ∨ (s.reg b).toNat / 2 ^ 21 % 8 ≠ 0 →
            Completes (.subs g d a b) s (Traps 7 (s.reg b) s))
          ∧ (∀ tgt pl line n : Nat, (s.reg b).toNat < 2 ^ 25 → (s.reg b).toNat / 2 ^ 21 % 8 = 0 →
            tgt = s.seat.core / 96 * 96 + (s.reg a).toNat % 2 ^ 60 / 0x80000 →
            pl = (s.reg a).toNat % 0x80000 / 128 → line = (s.reg b).toNat % 4096 →
            n = (s.reg b).toNat / 4096 % 512 + 1 →
            (tgt = s.seat.core ∨ s.freeEntryAt s.seat.core = none ∨ s.freeEntryAt tgt = none
                ∨ s.overlaps s.seat.core line n = true ∨ 4096 < line + n ∨ 4096 < pl + n →
              Completes (.subs g d a b) s (AnswersReg d (BitVec.allOnes 64) s))
            ∧ (∀ i j, tgt ≠ s.seat.core → s.freeEntryAt s.seat.core = some i → s.freeEntryAt tgt = some j →
              s.overlaps s.seat.core line n = false → line + n ≤ 4096 → pl + n ≤ 4096 →
              Completes (.subs g d a b) s (fun t => NextWord s t ∧ MemoryKept s t
                ∧ t.here.owed = s.here.owed
                  ++ [⟨s.fresh + 1, s.here.ctl.run, .g d, some (BitVec.ofNat 64 i), false⟩]
                ∧ t.subs = s.subs ++ [
                  { id := s.fresh, pub := tgt, pubLine := pl, pubIdx := j, sub := s.seat.core, subLine := line
                    subIdx := i, lines := n, fill := (s.reg b).getLsbD 24, seq := s.opSeq
                    launch := (s.here.chain s.here.ctl.chain).launch }])))))))
    ∧ (Issues s g [.g a] → IrrevocableFirst (.unsubs g a) s ∧ (Unordered s →
      (16 ≤ (s.reg a).toNat → Completes (.unsubs g a) s (Traps 7 (s.reg a) s))
      ∧ ((s.reg a).toNat < 16 → Completes (.unsubs g a) s (fun t => NextWord s t ∧ MemoryKept s t
        ∧ (∀ u ∈ s.subs, (u.closed = true ∨ ((u.sub ≠ s.seat.core ∨ u.subIdx ≠ (s.reg a).toNat)
            ∧ (u.pub ≠ s.seat.core ∨ u.pubIdx ≠ (s.reg a).toNat))) → u ∈ t.subs)
        ∧ (∀ u ∈ s.subs, u.closed = false → u.pub = s.seat.core → u.pubIdx = (s.reg a).toNat → u.sub ≠ s.seat.core →
          { u with fifo := closeAll u.fifo ++ [.mark], closed := true, leaving := true } ∈ t.subs)
        ∧ (∀ u ∈ s.subs, u.closed = false → u.sub = s.seat.core → u.subIdx = (s.reg a).toNat → u.pub ≠ s.seat.core →
          { u with leaving := true } ∈ t.subs)))))
    ∧ (Issues s g [] → IrrevocableFirst (.sflush g) s ∧ (Unordered s → Completes (.sflush g) s (fun t => NextWord s t ∧ MemoryKept s t
      ∧ t.subs = s.subs.map (fun u => if u.pub = s.seat.core then { u with fifo := closeAll u.fifo } else u))))

/-- R163-R165, R401: `nlook` empties the result line, counts in `cnt.ld` and sends its name; `nins` and `nevict`
send their block or name, with a status owed; the addresses are checked before. A fence holds them (R180), and an
ordered-domain task that is not irrevocable makes itself so before `nins` and `nevict` act (R174).

R200, R328, R329, R407, R408: `qpost` checks its addresses and owes a status: 2 for a queue that is disabled or
another partition's, 1 for a full ring, 3 for a malformed or poisoned command, and 0 with the command in the ring
behind its sequence word and the tail one on; `cnct` owes the word of the level that its handle names, and 0 for a
job that is not live and, the model's choice (notes/assumptions/60.md), for a level that encloses no task; `cncl`
sends the cancel of its level, and ends its own task when the level encloses it and has not completed. -/
def Obligations.NameAndLevelWords : Prop :=
  (∀ (s : State) (g : Guard) (d a b : Reg),
    (Issues s g [.g a, .g b] →
      (s.fenced s.seat.core 1 s.opSeq = true → exec (.nlook g a b) s = .next s)
      ∧ (s.fenced s.seat.core 1 s.opSeq = false →
        (¬ LocalIn (s.reg a) 16 → Completes (.nlook g a b) s (Traps 4 (s.reg a) s))
        ∧ (LocalIn (s.reg a) 16 → ¬ LocalIn (s.reg b) 64 → Completes (.nlook g a b) s (Traps 4 (s.reg b) s))
        ∧ (LocalIn (s.reg a) 16 → LocalIn (s.reg b) 64 →
          ((s.reg a).toNat % 16 ≠ 0 → Completes (.nlook g a b) s (Traps 5 (s.reg a) s))
          ∧ ((s.reg a).toNat % 16 = 0 → (s.reg b).toNat % 64 ≠ 0 →
            Completes (.nlook g a b) s (Traps 5 (s.reg b) s))
          ∧ ((s.reg a).toNat % 16 = 0 → (s.reg b).toNat % 64 = 0 →
            ((s.here.chain s.here.ctl.chain).ld = 65535 → Completes (.nlook g a b) s (Traps 11 0 s))
            ∧ ((s.here.chain s.here.ctl.chain).ld ≠ 65535 → Completes (.nlook g a b) s (fun t =>
              NextWord s t ∧ MemoryKept s t
                ∧ (∀ l, t.isEmpty l
                  = (s.isEmpty l || l == lineKey s.seat.core ((s.reg b).toNat % 2 ^ 60 / 128)))
                ∧ (t.here.chain s.here.ctl.chain).ld = (s.here.chain s.here.ctl.chain).ld + 1
                ∧ (t.part s.here.part).nreqs = (s.part s.here.part).nreqs ++ [
                  { core := s.seat.core, op := .look ((s.reg b).toNat % 2 ^ 60)
                    name := of128 (s.spBytes s.seat.core ((s.reg a).toNat % 2 ^ 60) 16)
                    bad := s.isBad (lineKey s.seat.core ((s.reg a).toNat % 2 ^ 60 / 128))
                    chain := s.here.ctl.chain, seq := s.opSeq }]))))))
    ∧ (Issues s g [.g d, .g a] →
      NameStatusIssues (.nins g d a) s d (s.reg a) 64
        (.ins (s.spBytes s.seat.core ((s.reg a).toNat % 2 ^ 60) 64))
      ∧ NameStatusIssues (.nevict g d a) s d (s.reg a) 16 .evict))
  ∧ (∀ (s : State) (g : Guard) (d a b : Reg),
    (Issues s g [.g d, .g a, .g b] → IrrevocableFirst (.qpost g d a b) s ∧ (Unordered s →
      (¬ LocalIn (s.reg a) 64 → Completes (.qpost g d a b) s (Traps 4 (s.reg a) s))
      ∧ (LocalIn (s.reg a) 64 → (s.reg a).toNat % 64 ≠ 0 → Completes (.qpost g d a b) s (Traps 5 (s.reg a) s))
      ∧ (LocalIn (s.reg a) 64 → (s.reg a).toNat % 64 = 0 →
        (1024 ≤ (s.reg b).toNat → Completes (.qpost g d a b) s (Traps 7 (s.reg b) s))
        ∧ (∀ x, (s.reg b).toNat < 1024 → x = Tbl.get {} s.queues (s.reg b).toNat →
          (x.en = false ∨ x.part.toNat ≠ s.here.part → PostAnswers (.qpost g d a b) s d 2)
          ∧ (x.en = true → x.part.toNat = s.here.part →
            let n := (x.postTail s.dial - x.head).toNat
            let off := (s.reg a).toNat % 2 ^ 60
            let block := s.spBytes s.seat.core off 64
            let u := s.parseCommand s.here.part block (s.isBad (lineKey s.seat.core (off / 128)))
            let cmd := leBytes (x.seq + (x.postTail s.dial - x.head)).toNat 4 ++ block.drop 4
            (x.capacity ≤ n → PostAnswers (.qpost g d a b) s d 1)
            ∧ (n < x.capacity → u.2.ok = false → PostAnswers (.qpost g d a b) s d 3)
            ∧ (n < x.capacity → u.2.ok = true →
              (x.loc = false → Completes (.qpost g d a b) s (fun t => OwesReg d (some 0) true s t
                ∧ t.mem = u.1.mem.writes (hostKey (x.slotAt (x.postTail s.dial))) cmd
                ∧ PostedAt s t (s.reg b).toNat x))
              ∧ (x.loc = true →
                (u.1.regWrite s.here.part (x.slotAt (x.postTail s.dial)) cmd false = none →
                  PostAnswers (.qpost g d a b) s d 2)
                ∧ (∀ w, u.1.regWrite s.here.part (x.slotAt (x.postTail s.dial)) cmd false = some w →
                  Completes (.qpost g d a b) s (fun t => OwesReg d (some 0) true s t ∧ t.mem = w.mem
                    ∧ PostedAt s t (s.reg b).toNat x)))))))))
    ∧ (Issues s g [.g d, .g a] →
      let answers (v : Word) : Prop := Completes (.cnct g d a) s (fun t => OwesReg d (some v) false s t
        ∧ OnlyCore s.seat.core s { t with fresh := s.fresh })
      (¬ HandleFits (s.reg a) → Completes (.cnct g d a) s (Traps 7 (s.reg a) s))
      ∧ (HandleFits (s.reg a) →
        (handleLevel (s.reg a) = 0 → ∀ x, x = s.here.chain s.here.ctl.chain →
          answers (BitVec.ofNat 64 (x.ld % 65536 * 2 ^ 48 + x.st % 65536 * 2 ^ 32 + x.cp % 65536 * 2 ^ 16
            + x.mt % 65536)))
        ∧ (∀ l, handleLevel (s.reg a) = 1 → s.ownLaunch = some l → answers (levelWord l.status (s.liveUnits l.serial)))
        ∧ (∀ l gr, handleLevel (s.reg a) = 2 → s.ownLaunch = some l → s.graphs.find l.gr = some gr →
          answers (levelWord gr.status (gr.nodes.countP Node.unfinished)))
        ∧ (∀ l gr j, handleLevel (s.reg a) = 3 → s.ownLaunch = some l → s.graphs.find l.gr = some gr →
          s.jobs.find gr.job = some j → answers (levelWord (s.phaseStatus gr.job j gr.phase)
            ((s.phaseGraphs gr.job).countP (fun x => x.2.status.isNone))))
        ∧ (1 ≤ handleLevel (s.reg a) → handleLevel (s.reg a) ≤ 3 → s.ownLaunch = none → answers 0)
        ∧ (∀ k j, handleLevel (s.reg a) = 4 → s.liveJob s.here.part ((s.reg a).toNat % 2 ^ 32) = some (k, j) →
          answers (levelWord none (j.phases.length - (if s.phaseEnded k then j.phase + 1 else j.phase))))
        ∧ (handleLevel (s.reg a) = 4 → s.liveJob s.here.part ((s.reg a).toNat % 2 ^ 32) = none → answers 0)))
    ∧ (Issues s g [.g a] → IrrevocableFirst (.cncl g a) s ∧ (Unordered s →
      (¬ HandleFits (s.reg a) → Completes (.cncl g a) s (Traps 7 (s.reg a) s))
      ∧ (HandleFits (s.reg a) →
        (handleLevel (s.reg a) = 0 → Cancels (.cncl g a) s 0 (s.seat.core * 2 ^ 32 + s.here.ctl.chain) true)
        ∧ (∀ l, handleLevel (s.reg a) = 1 → s.ownLaunch = some l → Cancels (.cncl g a) s 1 l.serial l.status.isNone)
        ∧ (∀ l gr, handleLevel (s.reg a) = 2 → s.ownLaunch = some l → s.graphs.find l.gr = some gr →
          Cancels (.cncl g a) s 2 l.gr gr.status.isNone)
        ∧ (∀ l gr j, handleLevel (s.reg a) = 3 → s.ownLaunch = some l → s.graphs.find l.gr = some gr →
          s.jobs.find gr.job = some j →
          Cancels (.cncl g a) s 3 (gr.job * 256 + gr.phase) (s.phaseOpen gr.job gr.phase j))
        ∧ (∀ k j, handleLevel (s.reg a) = 4 → s.liveJob s.here.part ((s.reg a).toNat % 2 ^ 32) = some (k, j) →
          (∀ l gr, s.ownLaunch = some l → s.graphs.find l.gr = some gr →
            Cancels (.cncl g a) s 4 k (gr.job == k && s.jobOpen k j))
          ∧ (s.ownLaunch = none → Cancels (.cncl g a) s 4 k false))
        ∧ (1 ≤ handleLevel (s.reg a) → handleLevel (s.reg a) ≤ 3 → s.ownLaunch = none → CancelsNothing (.cncl g a) s)
        ∧ (handleLevel (s.reg a) = 4 → s.liveJob s.here.part ((s.reg a).toNat % 2 ^ 32) = none →
          CancelsNothing (.cncl g a) s)))))

/-- The settings words, the clearing words and `mjoin` (R102, R103, R380, R386, R387, R398): each changes what
its row of R103 names and nothing else of the unit. `mwin` and `mzo` raise the state fault where R376 says, and
leave the unit's values as they were. The unit's registers that hold no rule's name are the model's own. -/
def Obligations.MatrixSettings : Prop := ∀ (s : State) (w : BitVec 8) (fa fb : BitVec 6) (line : BitVec 12)
    (sp : BitVec 4),
  (MatrixIssues s true → Completes .mza s (MatrixIssued s wDrain 0 { s.here.mx with
      inner := [], tag := [], pin := [], sat := false, dirty := false, prod := false }))
  ∧ (MatrixIssues s true → s.here.mx.tp = false → Completes .mzo s (MatrixIssued s wDrain 0 { s.here.mx with
      outer := [], pout := [], free := none }))
  ∧ (MatrixIssues s true → s.here.mx.tp = true → Completes .mzo s (MatrixFaults s 3))
  ∧ (MatrixIssues s false → s.here.mx.dirty = false → s.here.mx.prod = false →
      Completes (.mwin w) s (MatrixIssued s wSetting 0 { s.here.mx with win := w }))
  ∧ (MatrixIssues s false → (s.here.mx.dirty = true ∨ s.here.mx.prod = true) →
      Completes (.mwin w) s (MatrixFaults s 3))
  ∧ (MatrixIssues s false → Completes (.mfmt fa fb) s (MatrixIssued s wSetting 0 { s.here.mx with
      fa := fa, fb := fb }))
  ∧ (MatrixIssues s false → Completes (.mldaScratchpad line) s (MatrixIssued s wSetting 0 { s.here.mx with
      asrc := false, aline := line }))
  ∧ (MatrixIssues s false → Completes (.mldaPort sp) s (MatrixIssued s wSetting 0 { s.here.mx with
      asrc := true, aport := sp }))
  ∧ (MatrixIssues s false → Completes (.mldb line) s (MatrixIssued s wSetting 0 { s.here.mx with bline := line }))
  ∧ (MatrixIssues s true → Completes .mjoin s (fun t =>
      t.here.mx.active = false ∧ (t.here.chain s.here.mx.chain).forkM = false
        ∧ t.here.mx = { s.here.mx with
            active := false, held := false, pc := t.here.mx.pc, words := t.here.mx.words }
        ∧ t.here.ctl = s.here.ctl ∧ MemoryKept s t))

/-- The product words (R104, R110, R379, R385, R388): the firings are issued step by step, in each step row by row,
under the settings in force; a list line that is not full makes `mgmul` wait, and a poisoned line or a list byte above
63 that the word uses is the list fault, with no firing. In a cooperative tile a word that differs from one that a
core of the row group has issued in the same place faults the whole group. `mcoop` takes effect with its cluster:
its word stands among the issued words. -/
def Obligations.MatrixProducts : Prop := ∀ (s : State) (ks : BitVec 7) (rows n : BitVec 6) (list : BitVec 12),
  let byte := fun t => (s.mem.read (spKey s.seat.core (list.toNat * 128 + t))).toNat
  let m := s.here.mx
  let mm := [7, ks.toNat, rows.toNat]
  let mg := [8, ks.toNat, n.toNat] ++ (List.range (n.toNat + 1)).map byte
    ++ (List.range (n.toNat + 1)).map (fun t => byte (64 + t))
  let full := s.isEmpty (lineKey s.seat.core list.toNat) = false
  let bad := s.isBad (lineKey s.seat.core list.toNat) = true
    ∨ ∃ t < n.toNat + 1, 63 < byte (64 + t) ∨ (m.asrc = false ∧ 63 < byte t)
  (MatrixIssues s false →
    (Clashes s mm → Completes (.mmul ks rows) s (GroupFaults s))
    ∧ (¬ Clashes s mm → productFault s = true → Completes (.mmul ks rows) s (MatrixFaults s 3))
    ∧ (¬ Clashes s mm → productFault s = false → Completes (.mmul ks rows) s (MatrixIssued s wProduct 0 { m with
        prod := true, coopLog := logged m mm
        todo := m.todo ++ (List.range (ks.toNat + 1)).flatMap (fun st =>
          (List.range (rows.toNat + 1)).map (fun t => firingOf s st t t t)) })))
  ∧ (MatrixIssues s false →
    (¬ full → productFault s = true → Completes (.mgmul ks list n) s (MatrixFaults s 3))
    ∧ (¬ full → productFault s = false → Completes (.mgmul ks list n) s (MatrixWaits false s))
    ∧ (full → Clashes s mg → Completes (.mgmul ks list n) s (GroupFaults s))
    ∧ (full → ¬ Clashes s mg → productFault s = true → Completes (.mgmul ks list n) s (MatrixFaults s 3))
    ∧ (full → ¬ Clashes s mg → productFault s = false → bad → Completes (.mgmul ks list n) s (MatrixFaults s 2))
    ∧ (full → ¬ Clashes s mg → productFault s = false → ¬ bad →
      Completes (.mgmul ks list n) s (MatrixIssued s wProduct 0 { m with
        prod := true, coopLog := logged m mg
        todo := m.todo ++ (List.range (ks.toNat + 1)).flatMap (fun st =>
          (List.range (n.toNat + 1)).map (fun t => firingOf s st t (byte t) (byte (64 + t)))) })))
  ∧ (MatrixIssues s true →
    (m.coop = false → m.tp = false → Completes .mcoopOn s (MatrixIssued s wCoop 0 { m with
        coopW := some true, coopN := m.coopN + 1, coopLog := [], coopIn := [] }))
    ∧ (m.coop = true → Completes .mcoopOff s (MatrixIssued s wCoop 0 { m with
        coopW := some false, coopN := m.coopN + 1 }))
    ∧ ((m.coop = true ∨ m.tp = true) → Completes .mcoopOn s (MatrixFaults s 3))
    ∧ (m.coop = false → Completes .mcoopOff s (MatrixFaults s 3)))

/-- `mscale` (R42, R105, R376, R391): it waits, counted in cnt.mt, for its scale lines to be full, poisons every row when one of them
is poisoned, and raises the state fault while a transport tile is loaded.

`mrd` (R107, R389, R390): it waits for the output buffer to be empty; then the buffer takes the rows in order, one at a
time, each as the tile then holds it and ended by its marker. That a row is copied whole at one moment is the model's
choice among what R109 allows (notes/assumptions/10.md). -/
def Obligations.MatrixScaleAndRead : Prop :=
  (∀ (s : State) (sa sb : BitVec 12), MatrixIssues s true →
  let la := lineKey s.seat.core sa.toNat
  let lb := lineKey s.seat.core sb.toNat
  (s.here.mx.tp = true → Completes (.mscale sa sb) s (MatrixFaults s 3) ∧ Completes .mscaleUnit s (MatrixFaults s 3))
  ∧ (s.here.mx.tp = false → (s.isEmpty la = true ∨ s.isEmpty lb = true) →
      Completes (.mscale sa sb) s (MatrixWaits true s))
  ∧ (s.here.mx.tp = false → s.isEmpty la = false → s.isEmpty lb = false → Completes (.mscale sa sb) s (fun t =>
      ∃ fl m, MatrixIssued s wDrain fl m t ∧ Scaled
        (fun i => (s.mem.read (spKey s.seat.core (sa.toNat * 128 + i))).toNat)
        (fun j => (s.mem.read (spKey s.seat.core (sb.toNat * 128 + j))).toNat) (s.isBad la || s.isBad lb) s fl m))
  ∧ (s.here.mx.tp = false → Completes .mscaleUnit s (fun t =>
      ∃ fl m, MatrixIssued s wDrain fl m t ∧ Scaled (fun _ => 127) (fun _ => 127) false s fl m)))
  ∧ (∀ (s : State) (acc drain : Bool) (sk : BitVec 4) (row0 rows : BitVec 6),
  MatrixIssues s drain →
  let m := s.here.mx
  let refused := (acc = true ∧ m.tp = true) ∨ s.here.sinkRouted sk.toNat = true
  (refused → Completes (.mrd acc drain sk row0 rows) s (MatrixFaults s 3))
  ∧ (¬ refused → m.obuf ≠ [] → Completes (.mrd acc drain sk row0 rows) s (MatrixWaits drain s))
  ∧ (¬ refused → m.obuf = [] → Completes (.mrd acc drain sk row0 rows) s
      (MatrixIssued s (if drain then wReadDrain else wRead) 0 { m with
        copy := some ⟨acc, row0.toNat, rows.toNat + 1⟩, oport := sk.toNat, oword := s.fresh })))
  ∧ (∀ (s : State) (c : Nat) (y : RowCopy), (s.core c).mx.copy = some y →
    ((s.core c).frozen = true → exec (.mrdOutputDrain c) s = .next s)
    ∧ ((s.core c).frozen = false → ∃ out, RowTokens (s.core c).mx y.acc y.row out
      ∧ exec (.mrdOutputDrain c) s = .next (s.setCore c { s.core c with mx := { (s.core c).mx with
        obuf := (s.core c).mx.obuf ++ out ++ [{ kind := if y.left ≤ 1 then 2 else 1 }]
        copy := if y.left ≤ 1 then none else some ⟨y.acc, y.row + 1, y.left - 1⟩ } })))

/-- `mst` and `mxpose` (R96, R106, R108, R376, R392, R399): where they write, what, and with which poison; their
address and state faults come before any write, `mxpose` waits for the lines it reads, and both for a word that an
atomic holds at the port (R139). -/
def Obligations.MatrixStores : Prop := ∀ (s : State) (bf side : Bool) (line src dst : BitVec 12)
    (row0 rows : BitVec 6), MatrixIssues s true →
  let m := s.here.mx
  let c := s.seat.core
  let n := rows.toNat + 1
  let planes := mPlanes (if side then m.fb else m.fa)
  let apart := src.toNat + 16 ≤ 4096 ∧ dst.toNat + 2 * planes ≤ 4096
    ∧ (dst.toNat + 2 * planes ≤ src.toNat ∨ src.toNat + 16 ≤ dst.toNat)
  (m.tp = true → Completes (.mst bf line row0 rows) s (MatrixFaults s 3))
  ∧ (m.tp = false → 4096 < line.toNat + n * (if bf then 1 else 2) →
      Completes (.mst bf line row0 rows) s (MatrixFaults s 1))
  ∧ (m.tp = false → line.toNat + 2 * n ≤ 4096 → UnlessHeld (.mst false line row0 rows) s line.toNat (2 * n) (fun t =>
      LinesWritten line.toNat (2 * n)
          (fun k i => byteOf (m.outerAt (row0.toNat + k / 2) (32 * (k % 2) + i / 4)) (i % 4))
          (fun k => m.poutAt (row0.toNat + k / 2)) s t
        ∧ MatrixWrote s 0 m t))
  ∧ (m.tp = false → line.toNat + n ≤ 4096 → UnlessHeld (.mst true line row0 rows) s line.toNat n (fun t =>
      LinesWritten line.toNat n (fun k i => byteOf (bf16OfF (m.outerAt (row0.toNat + k) (i / 2))).1 (i % 2))
          (fun k => m.poutAt (row0.toNat + k)) s t
        ∧ ∃ fl, MatrixWrote s fl m t))
  ∧ (¬ apart → Completes (.mxpose side src dst) s (MatrixFaults s 1))
  ∧ (apart → (∃ k < 16, s.isEmpty (lineKey c (src.toNat + k)) = true) →
      Completes (.mxpose side src dst) s (MatrixWaits true s))
  ∧ (apart → (∀ k < 16, s.isEmpty (lineKey c (src.toNat + k)) = false) →
      UnlessHeld (.mxpose side src dst) s dst.toNat (2 * planes) (fun t => ∃ byte bad,
        LinesWritten dst.toNat (2 * planes) byte (fun _ => bad) s t
        ∧ (bad = true ↔ ∃ k < 16, s.isBad (lineKey c (src.toNat + k)) = true)
        ∧ (∀ k < 2 * planes, ∀ i < 128, ∀ b < 8, (byte k i).getLsbD b =
            (s.mem.read (spKey c (src.toNat * 128 + 32 * (32 * (k % 2) + i / 4) + (8 * (i % 4) + b)))).getLsbD (k / 2))
        ∧ MatrixWrote s 0 m t))

/-- `mtopk` (R205-R209, R376, R394): the record lines are written in row order, one a row, from the row's logits;
a record is poisoned where a logit line of its row is, or where no expert is eligible; it holds the experts of the
greatest keys in order, their logits and their relative logits. -/
def Obligations.GateRecords : Prop := ∀ (s : State) (rows : BitVec 6) (ne : BitVec 2) (k : BitVec 3),
  (∀ (logits : List Nat) (k : Nat), k ≤ 8 → logits.length ≤ 256 → (∀ v ∈ logits, v < 2 ^ 32) →
    ∃ sel, RecordOf logits k sel (topkRecord logits k)) ∧
  (MatrixIssues s true →
  let m := s.here.mx
  let c := s.seat.core
  let n := rows.toNat + 1
  let per := 2 * (ne.toNat + 1)
  let a := m.aline.toNat
  let b := m.bline.toNat
  let apart := a + per * n ≤ 4096 ∧ b + n ≤ 4096 ∧ (b + n ≤ a ∨ a + per * n ≤ b)
  ((m.coop = true ∨ m.asrc = true) → Completes (.mtopk rows ne k) s (MatrixFaults s 3))
  ∧ (m.coop = false → m.asrc = false → ¬ apart → Completes (.mtopk rows ne k) s (MatrixFaults s 1))
  ∧ (m.coop = false → m.asrc = false → apart → (∃ x < per * n, s.isEmpty (lineKey c (a + x)) = true) →
      Completes (.mtopk rows ne k) s (MatrixWaits true s))
  ∧ (m.coop = false → m.asrc = false → apart → (∀ x < per * n, s.isEmpty (lineKey c (a + x)) = false) →
      UnlessHeld (.mtopk rows ne k) s b n (fun t => ∃ fl bad,
        LinesWritten b n (fun r i => (topkRecord (rowLogits s ne.toNat r) (k.toNat + 1)).1[i]?.getD 0) bad s t
          ∧ (∀ r < n, bad r = true ↔ (topkRecord (rowLogits s ne.toNat r) (k.toNat + 1)).2.2 = true
              ∨ ∃ x < per, s.isBad (lineKey c (a + per * r + x)) = true)
          ∧ MatrixWrote s fl m t)))

/-- The transport words (R113, R218-R222, R376, R378, R393, R395, R396): what `mtpld` loads and resets, what
`mbal` counts and when it has converged, which bytes the stores write, and that the outer values are free values
after `mtpst part=f` (notes/assumptions/9.md). In a cooperative tile each is the state fault; a word that reads lines
waits for them to be full, one that writes lines for an atomic at the port (R139). -/
def Obligations.TransportTile : Prop := ∀ (s : State) (line cost out : BitVec 12) (rows cols : BitVec 6)
    (sweeps : BitVec 12) (tol : BitVec 6), MatrixIssues s true →
  let m := s.here.mx
  let c := s.seat.core
  let l := line.toNat
  let r := rows.toNat + 1
  let n := cols.toNat + 1
  (m.coop = true → Completes (.mtpld line rows cols) s (MatrixFaults s 3))
  ∧ (m.coop = false → 4096 < l + 2 * r + 4 → Completes (.mtpld line rows cols) s (MatrixFaults s 1))
  ∧ (m.coop = false → l + 2 * r + 4 ≤ 4096 → (∃ x < 2 * r + 4, s.isEmpty (lineKey c (l + x)) = true) →
      Completes (.mtpld line rows cols) s (MatrixWaits true s))
  ∧ (m.coop = false → l + 2 * r + 4 ≤ 4096 → (∀ x < 2 * r + 4, s.isEmpty (lineKey c (l + x)) = false) →
      (∃ x < 2 * r + 4, s.isBad (lineKey c (l + x)) = true) →
      Completes (.mtpld line rows cols) s (MatrixFaults s 3))
  ∧ (m.coop = false → l + 2 * r + 4 ≤ 4096 → (∀ x < 2 * r + 4, s.isEmpty (lineKey c (l + x)) = false
        ∧ s.isBad (lineKey c (l + x)) = false) →
      Completes (.mtpld line rows cols) s (fun t => ∃ v la lb, MatrixIssued s wDrain 0 { m with
          outer := v, pout := [], free := none, rows := r, cols := n, la := la, lb := lb, f := [], gp := []
          tp := true, sweeps := 0, conv := false, infeas := false, err := 0 } t
        ∧ (∀ i < r, ∀ j < n, (Tbl.get 0 v (64 * i + j)).toNat = wordAt s ((l + 2 * i) * 128 + 4 * j) % 2 ^ 32)
        ∧ (∀ i < r, (Tbl.get 0 la i).toNat = wordAt s ((l + 2 * r) * 128 + 4 * i) % 2 ^ 32)
        ∧ (∀ j < n, (Tbl.get 0 lb j).toNat = wordAt s ((l + 2 * r + 2) * 128 + 4 * j) % 2 ^ 32)))
  ∧ (m.coop = true ∨ m.tp = false → Completes (.mbal sweeps tol) s (MatrixFaults s 3)
      ∧ Completes (.mtpstPlan line) s (MatrixFaults s 3) ∧ Completes (.mtpstPotentials line) s (MatrixFaults s 3)
      ∧ Completes (.mtpstRelease line) s (MatrixFaults s 3) ∧ Completes (.mtdist cost out) s (MatrixFaults s 3))
  ∧ (m.coop = false → m.tp = true → Completes (.mbal sweeps tol) s (fun t => ∃ (b : Balance) (k : Nat) (fl : Flags),
      MatrixIssued s wDrain fl { m with
        f := regTable b.f, gp := regTable b.g, infeas := b.infeas, err := BitVec.ofNat 32 b.err
        sweeps := BitVec.ofNat 13 k, conv := t.here.mx.conv } t
      ∧ 1 ≤ k ∧ k ≤ sweeps.toNat + 1 ∧ (t.here.mx.conv = false → k = sweeps.toNat + 1)
      ∧ (t.here.mx.conv = true → (fp32.decode b.err).isNaN = false
          ∧ (fp32.decode b.err).cmp false (.fin false 1 (-(tol.toNat : Int))) < 0)
      ∧ b = (List.range k).foldl (fun b _ => m.sweep b)
          { f := regList m.f m.rows, g := regList m.gp m.cols, infeas := m.infeas }))
  ∧ (m.coop = false → m.tp = true → 4096 < l + 2 * m.rows → Completes (.mtpstPlan line) s (MatrixFaults s 1))
  ∧ (m.coop = false → m.tp = true → l + 2 * m.rows ≤ 4096 → UnlessHeld (.mtpstPlan line) s l (2 * m.rows) (fun t =>
      LinesWritten l (2 * m.rows) (fun k i => byteOf
        (if 32 * (k % 2) + i / 4 < m.cols then (m.plan (k / 2) (32 * (k % 2) + i / 4)).1 else 0) (i % 4))
        (fun _ => false) s t ∧ ∃ fl, MatrixWrote s fl m t))
  ∧ (m.coop = false → m.tp = true → 4096 < l + 4 → Completes (.mtpstPotentials line) s (MatrixFaults s 1))
  ∧ (m.coop = false → m.tp = true → l + 4 ≤ 4096 → UnlessHeld (.mtpstPotentials line) s l 4 (fun t =>
      LinesWritten l 4 (fun k i => byteOf
        (Tbl.get 0 (if k < 2 then m.f else m.gp) (32 * (k % 2) + i / 4)).toNat (i % 4)) (fun _ => false) s t
        ∧ MatrixWrote s 0 m t))
  ∧ (m.coop = false → m.tp = true → 4096 < l + 2 → Completes (.mtpstRelease line) s (MatrixFaults s 1))
  ∧ (m.coop = false → m.tp = true → l + 2 ≤ 4096 → UnlessHeld (.mtpstRelease line) s l 2 (fun t =>
      LinesWritten l 2 (fun k i => byteOf (Tbl.get 0 m.f (32 * k + i / 4)).toNat (i % 4)) (fun _ => false) s t
        ∧ MatrixWrote s 0 { m with tp := false, free := some s.free } t ∧ t.free = s.free + 1))
  ∧ (m.coop = false → m.tp = true → (4096 < cost.toNat + 2 * m.rows ∨ (cost.toNat ≤ out.toNat ∧ out.toNat < cost.toNat + 2 * m.rows)) →
      Completes (.mtdist cost out) s (MatrixFaults s 1))
  ∧ (m.coop = false → m.tp = true → cost.toNat + 2 * m.rows ≤ 4096 →
      (out.toNat < cost.toNat ∨ cost.toNat + 2 * m.rows ≤ out.toNat) →
      (∃ x < 2 * m.rows, s.isEmpty (lineKey c (cost.toNat + x)) = true) →
      Completes (.mtdist cost out) s (MatrixWaits true s))
  ∧ (m.coop = false → m.tp = true → cost.toNat + 2 * m.rows ≤ 4096 →
      (out.toNat < cost.toNat ∨ cost.toNat + 2 * m.rows ≤ out.toNat) →
      (∀ x < 2 * m.rows, s.isEmpty (lineKey c (cost.toNat + x)) = false) →
      UnlessHeld (.mtdist cost out) s out.toNat 1 (fun t => ∃ bad, LinesWritten out.toNat 1 (fun _ i => byteOf
          (if i < 4 then (m.distance (fun i j => wordAt s ((cost.toNat + 2 * i) * 128 + 4 * j))).1 else 0) (i % 4))
          (fun _ => bad) s t
        ∧ (bad = true ↔ ∃ x < 2 * m.rows, s.isBad (lineKey c (cost.toNat + x)) = true)
        ∧ ∃ fl, MatrixWrote s fl m t))

/-- `MATRIX_PASS` (R99): of the firings not yet fired, a pass takes some of the lowest step of those that come next at
their result rows (the model's reading, notes/assumptions/84.md), at most one for each result row, and leaves the
others in their order; none is lost or made up. If the first of them is of that step and its data are there, the pass
starts it; a line that it needs beyond the scratchpad is the address fault.

`ROW_FIRING` (R39, R40, R104): the head of the pass adds its step's windowed sums into its result row, once,
clamped to 36 bits; tags combine, poison gathers in pin, and every other row and every outer value stands. -/
def Obligations.MatrixPassesAndRowFirings : Prop :=
  (∀ (s : State) (c st : Nat), (s.core c).mx.pass = [] → (s.core c).frozen = false → ServesStep (s.core c).mx st →
    st < 128 →
    ((∀ f ∈ (s.core c).mx.todo, f.bline + 2 * mPlanes f.fb * f.s + 2 * mPlanes f.fb ≤ 4096
        ∧ (f.asrc = true ∨ s.follows c = true ∨ f.lastLine ≤ 4095)) →
      Completes (.matrixPass c) s (fun t =>
        (∀ f ∈ (t.core c).mx.pass, f.s = st) ∧ ((t.core c).mx.pass.map (·.i)).Nodup
        ∧ (((t.core c).mx.todo ++ (t.core c).mx.pass).map Firing.unread).Perm ((s.core c).mx.todo.map Firing.unread)
        ∧ (t.core c).mx.todo.Sublist (s.core c).mx.todo
        ∧ (∀ f r data bad, (s.core c).mx.todo = f :: r → f.s = st → s.ready c f = .yes data bad →
            (t.core c).mx.pass.head? = some { f with data := data, bad := bad })
        ∧ (t.core c).ctl = (s.core c).ctl ∧ MemoryKept s t))
    ∧ (∀ f r, (s.core c).mx.todo = f :: r → f.s = st →
      (4096 < f.bline + 2 * mPlanes f.fb * f.s + 2 * mPlanes f.fb
        ∨ (f.asrc = false ∧ s.follows c = false ∧ 4095 < f.lastLine)) →
      Completes (.matrixPass c) s (fun t => (t.core c).mx.halt = true ∧ (t.core c).mx.fcode = 1
        ∧ (t.core c).ctl = (s.core c).ctl ∧ MemoryKept s t)))
  ∧ (∀ (s : State) (c : Nat) (f : Firing) (r : List Firing),
  (s.core c).mx.pass = f :: r →
  let m := (s.core c).mx
  let bl := f.bline + 2 * mPlanes f.fb * f.s
  Completes (.rowFiring c) s (fun t =>
    (t.core c).mx = { m with
        pass := r, inner := (t.core c).mx.inner, tag := (t.core c).mx.tag, pin := (t.core c).mx.pin
        sat := (t.core c).mx.sat, dirty := true }
    ∧ (∀ j < 64, ∀ v g, dot f.win.toInt (f.data.map (fun b => mValue f.fa b.toNat))
          ((s.planeCodes c bl (mPlanes f.fb) j).map (mValue f.fb)) = (v, g) →
        (t.core c).mx.innerAt f.i j = max (-(2 ^ 35)) (min (2 ^ 35 - 1) (m.innerAt f.i j + v))
        ∧ (t.core c).mx.tagAt f.i j = (m.tagAt f.i j).combine g)
    ∧ (∀ i < 64, i ≠ f.i → ∀ j < 64, (t.core c).mx.innerAt i j = m.innerAt i j
        ∧ (t.core c).mx.tagAt i j = m.tagAt i j)
    ∧ (∀ i, (t.core c).mx.pinAt i = (m.pinAt i || (i == f.i && (f.bad
        || (List.range (2 * mPlanes f.fb)).any (fun x => s.isBad (lineKey c (bl + x)))))))
    ∧ ((t.core c).mx.sat = true ↔ m.sat = true ∨ ∃ j < 64,
        m.innerAt f.i j + (dot f.win.toInt (f.data.map (fun b => mValue f.fa b.toNat))
          ((s.planeCodes c bl (mPlanes f.fb) j).map (mValue f.fb))).1 < -(2 ^ 35)
        ∨ 2 ^ 35 - 1 < m.innerAt f.i j + (dot f.win.toInt (f.data.map (fun b => mValue f.fa b.toNat))
          ((s.planeCodes c bl (mPlanes f.fb) j).map (mValue f.fb))).1)
    ∧ t = s.setCore c (t.core c) ∧ t.core c = { s.core c with mx := (t.core c).mx }))

/-- `MRD_OUTPUT_DRAIN` and `MATRIX_WORD_COMPLETE` (R72, R76, R102, R112, R149, R390): once every row is copied, one
token at a time enters the sink port, while it has room there and the object's name has gone ahead; the first word
whose effect is complete leaves the issued words, gives its flags to mflag and lowers cnt.mt, and an `mcoop` word then
joins or leaves the tile. -/
def Obligations.MatrixWordsComplete : Prop := ∀ (s : State) (c : Nat),
  (∀ (x : Token) (r : List Token), (s.core c).mx.copy = none → (s.core c).mx.obuf = x :: r →
    let buf := ((s.core c).port (16 + (s.core c).mx.oport)).buf
    let room := merges buf x = true ∨ buf.length + ((s.core c).port (16 + (s.core c).mx.oport)).resv < 8
    let may := (s.core c).frozen = false ∧ s.nameAhead c (32 + (s.core c).mx.oport) = true ∧ room
    (may → Completes (.mrdOutputDrain c) s (fun t =>
        (t.core c).mx = { (s.core c).mx with obuf := r }
        ∧ ((t.core c).port (16 + (s.core c).mx.oport)).buf = pushTok buf x
        ∧ (t.core c).ctl = (s.core c).ctl ∧ MemoryKept s t))
    ∧ (¬ may → exec (.mrdOutputDrain c) s = .next s))
  ∧ (∀ (pre : List MWord) (w : MWord) (post : List MWord), (s.core c).mx.words = pre ++ w :: post →
      (∀ x ∈ pre ++ post, x.id ≠ w.id) → (∀ x ∈ pre, ¬ WordDone s c x) → WordDone s c w →
      Completes (.matrixWordComplete c) s (fun t =>
        (t.core c).mx = { (s.core c).mx with
          words := pre ++ post, flags := (s.core c).mx.flags ||| w.flags
          coop := if w.kind = wCoop then (s.core c).mx.coopW.getD (s.core c).mx.coop else (s.core c).mx.coop
          coopW := if w.kind = wCoop then none else (s.core c).mx.coopW }
        ∧ ((t.core c).chain w.chain).mt = ((s.core c).chain w.chain).mt - 1
        ∧ (t.core c).ctl = (s.core c).ctl ∧ MemoryKept s t))
  ∧ ((∀ w ∈ (s.core c).mx.words, ¬ WordDone s c w) → exec (.matrixWordComplete c) s = .next s)

/-- The integer and floating-point element operations, `esel` and the operations on a whole word (R27, R44, R45, R79,
R83, R341, R344, R346-R348, R357): from clean data at the head of every queue that the word reads, the lane fires
with one token, whose element i is the operation's result for element i of the operands, and whose flags are those
that some element raised. A NaN result is the format's default quiet NaN. -/
def Obligations.LaneResults : Prop := ∀ (s : State) (w : LaneArgs) (a b c : Token),
  let wd := fmtWidth w.fmt
  (LaneData s w false a b c →
    Completes (.eiadd w) s (LaneGives w false a b c (fun x y _ => (x + y, 0)) s)
    ∧ Completes (.eisub w) s (LaneGives w false a b c (fun x y _ => (x + 2 ^ wd - y, 0)) s)
    ∧ Completes (.eimul w) s (LaneGives w false a b c (fun x y _ => (x * y, 0)) s)
    ∧ Completes (.eimin w) s (LaneGives w false a b c (fun x y _ =>
        (if intVal (fmtSigned w.fmt) wd x ≤ intVal (fmtSigned w.fmt) wd y then x else y, 0)) s)
    ∧ Completes (.eimax w) s (LaneGives w false a b c (fun x y _ =>
        (if intVal (fmtSigned w.fmt) wd x ≤ intVal (fmtSigned w.fmt) wd y then y else x, 0)) s)
    ∧ Completes (.eiand w) s (LaneGives w false a b c (fun x y _ => (Nat.land x y, 0)) s)
    ∧ Completes (.eior w) s (LaneGives w false a b c (fun x y _ => (Nat.lor x y, 0)) s)
    ∧ Completes (.eixor w) s (LaneGives w false a b c (fun x y _ => (Nat.xor x y, 0)) s)
    ∧ Completes (.eishl w) s (LaneGives w false a b c (fun x y _ => (x * 2 ^ (y % wd), 0)) s)
    ∧ Completes (.eishr w) s (LaneGives w false a b c (fun x y _ => (x / 2 ^ (y % wd), 0)) s)
    ∧ Completes (.eisra w) s (LaneGives w false a b c (fun x y _ =>
        ((intVal true wd x / (2 ^ (y % wd) : Nat) % (2 ^ wd : Nat)).toNat, 0)) s)
    ∧ Completes (.eicmp w) s (LaneGives w false a b c (fun x y _ =>
        (if (match w.imm.extractLsb' 0 2 with
          | 0 => x == y
          | 1 => x != y
          | 2 => decide (intVal (fmtSigned w.fmt) wd x < intVal (fmtSigned w.fmt) wd y)
          | _ => decide (intVal (fmtSigned w.fmt) wd y ≤ intVal (fmtSigned w.fmt) wd x)) then 1 else 0, 0)) s))
  ∧ (LaneData s w true a b c →
    Completes (.eimac w) s (LaneGives w true a b c (fun x y z => (x * y + z, 0)) s)
    ∧ Completes (.esel w) s (LaneGives w true a b c (fun x y z =>
        (quiet w.fmt (if z ≠ 0 then x else y), sigOf w.fmt x ||| sigOf w.fmt y)) s)
    ∧ Completes (.effma w) s (LaneGives w true a b c (fun x y z => rounded w ((val w x).fma (val w y) (val w z))) s))
  ∧ (LaneData s w false a b c →
    Completes (.efadd w) s (LaneGives w false a b c (fun x y _ => rounded w ((val w x).add (val w y))) s)
    ∧ Completes (.efsub w) s (LaneGives w false a b c (fun x y _ => rounded w ((val w x).add (val w y).neg)) s)
    ∧ Completes (.efmul w) s (LaneGives w false a b c (fun x y _ => rounded w ((val w x).mul (val w y))) s)
    ∧ Completes (.efmin w) s (LaneGives w false a b c (fun x y _ => rounded w (Fl.minmax false (val w x) (val w y))) s)
    ∧ Completes (.efmax w) s (LaneGives w false a b c (fun x y _ => rounded w (Fl.minmax true (val w x) (val w y))) s)
    ∧ Completes (.efcmp w) s (LaneGives w false a b c (fun x y _ =>
        (if (floatCond (laneCc w) (val w x) (val w y)).1 then 1 else 0, (floatCond (laneCc w) (val w x) (val w y)).2)) s))
  ∧ (s.here.head s.seat.lane (laneA w) = some a → a.kind = 0 → a.poison = false → LaneReady s true false 0 →
    Completes (.ecvt w) s (fun t => ∃ tok fl,
        ElementsAre (fmtWidth (w.imm.extractLsb' 7 3)) (fun i => if i < 32 / wd
          then convert w.fmt (w.imm.extractLsb' 7 3) w.imm (Mode.ofCode (w.imm.extractLsb' 5 2)) (elemAt wd a.value.toNat i)
          else (0, 0)) tok fl
        ∧ LaneFired w [laneA w] [{ own tok with flags := fl }] (s.here.lane s.seat.lane) s t)
    ∧ Completes (.econst w) s (LaneFired w [laneA w] [own (dataTok (quietWord w.fmt (immWord w.fmt w.imm)))] (s.here.lane s.seat.lane) s)
    ∧ (∀ r, exp2F (fp32.decode a.value.toNat) = r → Completes (.eexp2 w) s
        (LaneFired w [laneA w] [{ own (dataTok r.1) with flags := r.2 }] (s.here.lane s.seat.lane) s))
    ∧ (∀ r, log2F (fp32.decode a.value.toNat) = r → Completes (.elog2 w) s
        (LaneFired w [laneA w] [{ own (dataTok r.1) with flags := r.2 }] (s.here.lane s.seat.lane) s))
    ∧ (∀ r, rcpF (fp32.decode a.value.toNat) = r → Completes (.ercp w) s
        (LaneFired w [laneA w] [{ own (dataTok r.1) with flags := r.2 }] (s.here.lane s.seat.lane) s)))

/-- The rule that the element operations share (R83, R331): markers at every head give one marker of the highest
rank, data beside markers stop the lane and leave its queues, a poisoned operand gives a poisoned 0 and no flag,
and a lane waits for an operand that is not there. -/
def Obligations.LaneMarkersAndPoison : Prop := ∀ (s : State) (w : LaneArgs) (i : Instr) (useC : Bool),
  ((useC = false ∧ i ∈ [.eiadd w, .eisub w, .eimul w, .eimin w, .eimax w, .eiand w, .eior w, .eixor w, .eishl w,
      .eishr w, .eisra w, .eicmp w, .efadd w, .efsub w, .efmul w, .efmin w, .efmax w, .efcmp w])
    ∨ (useC = true ∧ i ∈ [.eimac w, .effma w, .esel w])) →
  let uses := laneUses w true useC
  ((∃ q ∈ uses, s.here.head s.seat.lane q = none) → exec i s = .next s)
  ∧ (∀ hs, heads s.here s.seat.lane uses = some hs →
    ((∀ t ∈ hs, t.kind ≠ 0) → (s.here.lane s.seat.lane).due ≤ s.cycle →
        s.here.ready s.seat.lane (own (markTok (topRank hs))) = true →
        Completes i s (LaneFired w uses [own (markTok (topRank hs))] (s.here.lane s.seat.lane) s)
          ∧ (∀ t ∈ hs, t.kind ≤ topRank hs) ∧ ∃ t ∈ hs, t.kind = topRank hs)
    ∧ ((∃ t ∈ hs, t.kind ≠ 0) → (∃ t ∈ hs, t.kind = 0) → Completes i s (LaneStops s))
    ∧ ((∀ t ∈ hs, t.kind = 0) → (∃ t ∈ hs, t.poison = true) → LaneReady s true false 0 →
        Completes i s (LaneFired w uses [own poisonTok] (s.here.lane s.seat.lane) s)))

/-- `esteer`, `eexit` and `emerge` (R84, R85, R343, R352, R359): the row of the rule's table that matches says what
is consumed and on which output it goes. -/
def Obligations.LaneSteering : Prop := ∀ (s : State) (w : LaneArgs) (a b c : Token),
  let n := s.seat.lane
  let l := s.here.lane n
  (s.here.head n (laneA w) = some a → s.here.head n 3 = some c →
    (a.kind = 0 → c.kind = 0 → c.poison = false → c.value = 0 → LaneReady s true false 0 →
      Completes (.esteer w) s (LaneFired w [laneA w, 3] [own a] l s)
        ∧ Completes (.eexit w) s (LaneFired w [laneA w, 3] [own a] l s))
    ∧ (a.kind = 0 → c.kind = 0 → c.poison = false → c.value ≠ 0 → LaneReady s false true 0 →
      Completes (.esteer w) s (LaneFired w [laneA w, 3] [{ arm0 := false, arm1 := true, tok := a }] l s)
        ∧ Completes (.eexit w) s (LaneFired w [laneA w, 3] [{ arm0 := false, arm1 := true, tok := a }] l s))
    ∧ (a.kind = 0 → c.kind = 0 → c.poison = true → LaneReady s true true 0 →
      Completes (.esteer w) s (LaneFired w [laneA w, 3] [{ arm1 := true, tok := { a with poison := true } }] l s))
    ∧ (a.kind = 0 → c.kind = 0 → c.poison = true → LaneReady s true false 0 →
      Completes (.eexit w) s (LaneFired w [laneA w, 3] [own { a with poison := true }] l s))
    ∧ (a.kind ≠ 0 → c.kind ≠ 0 → LaneReady s true true (if a.kind ≤ c.kind then c.kind else a.kind) →
      Completes (.esteer w) s (LaneFired w [laneA w, 3]
          [{ arm1 := true, tok := markTok (if a.kind ≤ c.kind then c.kind else a.kind) }] l s)
        ∧ Completes (.eexit w) s (LaneFired w [laneA w, 3]
          [{ arm1 := true, tok := markTok (if a.kind ≤ c.kind then c.kind else a.kind) }] l s))
    ∧ ((a.kind = 0 ∧ c.kind ≠ 0) ∨ (a.kind ≠ 0 ∧ c.kind = 0) →
      Completes (.esteer w) s (LaneStops s) ∧ Completes (.eexit w) s (LaneStops s)))
  ∧ (s.here.head n 3 = some c →
    (c.kind ≠ 0 → LaneReady s true false c.kind → Completes (.emerge w) s (LaneFired w [3] [own (markTok c.kind)] l s))
    ∧ (c.kind = 0 → c.poison = true → LaneReady s true false 0 →
      Completes (.emerge w) s (LaneFired w [3] [own poisonTok] l s))
    ∧ (c.kind = 0 → c.poison = false → s.here.head n (if c.value = 0 then laneA w else laneB w) = some b →
      (b.kind = 0 → LaneReady s true false 0 → Completes (.emerge w) s
        (LaneFired w [3, if c.value = 0 then laneA w else laneB w] [own b] l s))
      ∧ (b.kind ≠ 0 → LaneReady s true false b.kind → Completes (.emerge w) s
        (LaneFired w [if c.value = 0 then laneA w else laneB w] [own (markTok b.kind)] l s)))
    ∧ (c.kind = 0 → c.poison = false → s.here.head n (if c.value = 0 then laneA w else laneB w) = none →
      exec (.emerge w) s = .next s))

/-- The lane operations that read A alone or repeat it (R342, R351, R355): what passes, what is dropped, which
markers are made, and how many copies are owed.

The operations over segments and blocks (R87, R333-R335, R337-R339): a data token joins what the lane holds, and
a closing marker, or a full block, gives the results of what it held and then the marker; a poisoned token poisons
the result, and a NaN result of `ered` is the default quiet NaN (R27). A 257th token stops `else2`. -/
def Obligations.LanePassingAndSegments : Prop :=
  (∀ (s : State) (w : LaneArgs) (a b : Token),
  let n := s.seat.lane
  let l := s.here.lane n
  s.here.head n (laneA w) = some a →
  (a.kind = 0 → LaneReady s true false 0 →
    Completes (.epass w) s (LaneFired w [laneA w] [own a] l s)
    ∧ Completes (.estrip w) s (LaneFired w [laneA w] [own a] l s)
    ∧ ((w.imm.extractLsb' 3 9).toNat ≤ l.count → Completes (.emark w) s
        (LaneFired w [laneA w] [own a, own (markTok (w.imm.extractLsb' 0 3))] { l with count := 0 } s))
    ∧ (l.count < (w.imm.extractLsb' 3 9).toNat → Completes (.emark w) s
        (LaneFired w [laneA w] [own a] { l with count := l.count + 1 } s)))
  ∧ (a.kind = 0 → l.due ≤ s.cycle → l.out = [] → Completes (.edrop w) s (LaneFired w [laneA w] [] l s))
  ∧ (a.kind ≠ 0 → LaneReady s true false a.kind →
    Completes (.epass w) s (LaneFired w [laneA w] [own (markTok a.kind)] l s)
    ∧ Completes (.edrop w) s (LaneFired w [laneA w] [own (markTok a.kind)] l s)
    ∧ (w.imm.extractLsb' 0 3 < a.kind → Completes (.estrip w) s (LaneFired w [laneA w] [own (markTok a.kind)] l s))
    ∧ Completes (.emark w) s (LaneFired w [laneA w] [own (markTok a.kind)] { l with count := 0 } s)
    ∧ (w.bimm = true → l.buf = [] → Completes (.erep w) s (LaneFired w [laneA w] [own (markTok a.kind)] l s)))
  ∧ (a.kind ≠ 0 → a.kind ≤ w.imm.extractLsb' 0 3 → l.due ≤ s.cycle → l.out = [] →
      Completes (.estrip w) s (LaneFired w [laneA w] [] l s))
  ∧ (w.bimm = true → a.kind = 0 → l.buf = [] → 2 ≤ immWord w.fmt w.imm → LaneReady s true false 0 →
      Completes (.erep w) s (LaneFired w [laneA w] [own a] { l with count := immWord w.fmt w.imm - 1, buf := [a] } s))
  ∧ (w.bimm = false → s.here.head n (laneB w) = some b → a.kind = 0 → b.kind = 0 → l.buf = [] →
    (b.poison = true → LaneReady s true false 0 →
      Completes (.erep w) s (LaneFired w [laneA w, laneB w] [own poisonTok] l s))
    ∧ (b.poison = false → b.value = 0 → l.due ≤ s.cycle → l.out = [] →
      Completes (.erep w) s (LaneFired w [laneA w, laneB w] [] l s))
    ∧ (b.poison = false → b.value = 1 → LaneReady s true false 0 →
      Completes (.erep w) s (LaneFired w [laneA w, laneB w] [own a] { l with count := 0, buf := [] } s))
    ∧ (b.poison = false → 2 ≤ b.value.toNat → LaneReady s true false 0 →
      Completes (.erep w) s
        (LaneFired w [laneA w, laneB w] [own a] { l with count := b.value.toNat - 1, buf := [a] } s)))
  ∧ (∀ x, l.buf = [x] → x.kind = 0 → LaneReady s true false 0 → Completes (.erep w) s
      (LaneFired w [] [own x] { l with count := l.count - 1, buf := if l.count ≤ 1 then [] else [x] } s)))
  ∧ (∀ (s : State) (w : LaneArgs) (a : Token),
  let n := s.seat.lane
  let l := s.here.lane n
  let o := w.imm.extractLsb' 0 3
  s.here.head n (laneA w) = some a → l.due ≤ s.cycle → l.out = [] →
  (a.kind = 0 →
    Completes (.ecount w) s (LaneFired w [laneA w] [] { l with count := l.count + 1, bad := l.bad || a.poison } s)
    ∧ (l.count = 0 → Completes (.ered w) s
        (LaneFired w [laneA w] [] { l with acc := a.value, count := 1, bad := l.bad || a.poison } s))
    ∧ (l.count ≠ 0 → Completes (.ered w) s (LaneFired w [laneA w] [] { l with
        acc := BitVec.ofNat 32 (redStep w.fmt o l.acc.toNat a.value.toNat).1, count := l.count + 1
        bad := l.bad || a.poison, flags := l.flags ||| (redStep w.fmt o l.acc.toNat a.value.toNat).2 } s))
    ∧ (l.buf.length < 256 → Completes (.else2 w) s (LaneFired w [laneA w] [] { l with buf := l.buf ++ [a] } s))
    ∧ (256 ≤ l.buf.length → Completes (.else2 w) s (LaneStops s))
    ∧ (l.buf.length < 31 → Completes (.ebq w) s (LaneFired w [laneA w] [] { l with buf := l.buf ++ [a] } s))
    ∧ (l.buf.length < 32 → Completes (.ebdq w) s (LaneFired w [laneA w] [] { l with buf := l.buf ++ [a] } s))
    ∧ (31 ≤ l.buf.length → LaneReady s true false 0 → ∀ q, quantBlock w (l.buf ++ [a]) = q →
        (∀ x ∈ q.1, x.kind = 0) ∧ Completes (.ebq w) s (LaneFired w [laneA w] (blockOut q.1 q.2 0) l.fresh s))
    ∧ (LaneReady s true false 0 → ∀ sc es q, l.buf = sc :: es → 31 ≤ es.length → dequantBlock w sc (es ++ [a]) = q →
        (∀ x ∈ q.1, x.kind = 0) ∧ Completes (.ebdq w) s (LaneFired w [laneA w] (blockOut q.1 q.2 0) l.fresh s)))
  ∧ (a.kind ≠ 0 → LaneReady s true false 0 → ∀ res : Nat × Flags,
    (res = (l.count, 0) → Completes (.ecount w) s (LaneFired w [laneA w]
      [if l.bad then own poisonTok else { own (dataTok res.1) with flags := res.2 }, own (markTok a.kind)] l.fresh s))
    ∧ (res = (if l.count = 0 then (redEmpty w.fmt o, l.flags)
          else if l.count = 1 ∧ w.fmt = 2 ∧ o.toNat < 3 then (quiet w.fmt l.acc.toNat, sigOf w.fmt l.acc.toNat)
          else (l.acc.toNat, l.flags)) →
      Completes (.ered w) s (LaneFired w [laneA w]
      [if l.bad then own poisonTok else { own (dataTok res.1) with flags := res.2 }, own (markTok a.kind)] l.fresh s))
    ∧ (res = lse2F (l.buf.map (fun t => t.value.toNat)) → Completes (.else2 w) s (LaneFired w [laneA w]
      [if l.buf.any (·.poison) then own poisonTok else { own (dataTok res.1) with flags := res.2 }
        , own (markTok a.kind)] l.fresh s))
    ∧ (∀ q, quantBlock w l.buf = q → Completes (.ebq w) s (LaneFired w [laneA w] (blockOut q.1 q.2 a.kind) l.fresh s))
    ∧ (∀ sc es q, l.buf = sc :: es → dequantBlock w sc es = q →
        Completes (.ebdq w) s (LaneFired w [laneA w] (blockOut q.1 q.2 a.kind) l.fresh s)))
  ∧ (a.kind ≠ 0 → LaneReady s true false a.kind → l.buf = [] →
      Completes (.ebdq w) s (LaneFired w [laneA w] [own (markTok a.kind)] l s)))

/-- A step runs the instruction that stands where it fetches (R49-R51, R78, R82, R288): the word at a sequencer's pc
as that sequencer's decoder reads it, the configured word of a lane that may fire, or an event; and a word placed as
the next instruction is the one that runs. -/
def Obligations.StepRunsDecodedInstruction : Prop :=
  (∀ (s : State) (c : Nat) (r : List Turn) (i : Instr), s.agenda = .issue c .control :: r → c < numCores →
    (s.core c).ctl.slot ≠ none → (s.core c).ctl.killed = false → (s.core c).ctl.pc ≤ 16383 →
    (s.core c).badWords.contains (s.core c).ctl.pc = false →
    decodeControl ((s.core c).word (s.core c).ctl.pc) = .ok i →
    step s = exec i { s with agenda := r, seat := ⟨c, 0, .control⟩ })
  ∧ (∀ (s : State) (c : Nat) (r : List Turn) (i : Instr), s.agenda = .issue c .matrix :: r → c < numCores →
    (s.core c).mx.active = true → (s.core c).mx.halt = false → (s.core c).frozen = false → (s.core c).mx.pc ≤ 16383 →
    (s.core c).badWords.contains (s.core c).mx.pc = false →
    decodeMatrix ((s.core c).word (s.core c).mx.pc) = .ok i →
    step s = exec i { s with agenda := r, seat := ⟨c, 0, .matrix⟩ })
  ∧ (∀ (s : State) (c : Nat) (r : List Turn) (i : Instr), s.agenda = .issue c .stream :: r → c < numCores →
    (s.core c).ss.active = true → (s.core c).ss.halt = false → (s.core c).frozen = false → (s.core c).ss.pc ≤ 16383 →
    (s.core c).badWords.contains (s.core c).ss.pc = false →
    decodeStream ((s.core c).word (s.core c).ss.pc) = .ok i →
    step s = exec i { s with agenda := r, seat := ⟨c, 0, .stream⟩ })
  ∧ (∀ (s : State) (c n : Nat) (r : List Turn) (i : Instr), s.agenda = .lane c n :: r → c < numCores →
    (s.core c).rowArmed = true → (s.core c).frozen = false → ((s.core c).lane n).stopped = false →
    (s.core c).badCfg = false → ((s.core c).lane n).out = [] → ({ s with agenda := r }.sitLane c n).requested c n = true →
    decodeLane (Tbl.get idleLaneWord (s.core c).region.lops n) = .ok (some i) →
    step s = exec i { s with agenda := r, seat := ⟨c, n, .control⟩ })
  ∧ (∀ (s : State) (r : List Turn) (i : Instr), s.agenda = .event i :: r → i.kind = .event → i.wf = true →
    step s = exec i { s with agenda := r })
  ∧ (∀ (s : State) (w : Nat) (i : Instr), decodeTableWord 32 w = some i → ∃ t, t.here.word 0 = BitVec.ofNat 32 w
    ∧ t.seat = ⟨0, 0, fetchSeq i⟩ ∧ step (s.withFetchWord 32 w) = exec i t)

/-- The words that the manual works out beside its encodings (R289-R302) decode to the statements they stand for, one
or more of each family; the word of ones and the zero word decode to no instruction on any sequencer. -/
def Obligations.WordsDecode : Prop :=
  decodeControl 0x04064285 = .ok (.div ⟨0, 0⟩ 3 4 5) ∧ decodeControl 0x04064014 = .ok (.clz ⟨0, 0⟩ 3 4)
  ∧ decodeControl 0x040642A5 = .ok (.sel ⟨0, 0⟩ 5 3 4 5) ∧ decodeControl 0x08294001 = .ok (.addi ⟨0, 0⟩ 20 20 1)
  ∧ decodeControl 0x18064805 = .ok (.shi ⟨0, 0⟩ .sra 3 4 5) ∧ decodeControl 0x1C329886 = .ok (.bextZ ⟨0, 0⟩ 25 9 34 6)
  ∧ decodeControl 0x2404340F = .ok (.bins ⟨0, 0⟩ 2 3 16 15) ∧ decodeControl 0x2C0BFFFF = .ok (.lui ⟨0, 0⟩ 5 0x1FFFF)
  ∧ decodeControl 0x380C1100 = .ok (.pand ⟨0, 0⟩ 6 1 2) ∧ decodeControl 0x440643FF = .ok (.ldS ⟨0, 0⟩ .b 3 4 0x3FF)
  ∧ decodeControl 0x48119C00 = .ok (.st ⟨0, 0⟩ .d 8 25 0) ∧ decodeControl 0x54004283 = .ok (.ldg ⟨0, 0⟩ 4 5 3)
  ∧ decodeControl 0x600C3270 = .ok (.amo ⟨0, 0⟩ .add .d true 6 3 4)
  ∧ decodeControl 0x640A3430 = .ok (.amocas ⟨0, 0⟩ .d false 5 3 8)
  ∧ decodeControl 0x71BFFFF0 = .ok (.b ⟨3, 0⟩ 0x3FFFF0) ∧ decodeControl 0x740001F0 = .ok (.call ⟨0, 0⟩ 0x1F0)
  ∧ decodeControl 0x80104180 = .ok (.recv ⟨0, 0⟩ 8 4 3) ∧ decodeControl 0x8C800000 = .ok (.endTask ⟨1, 0⟩)
  ∧ decodeControl 0xFB408001 = .ok (.trap ⟨6, 1⟩ 1) ∧ decodeControl 0xF0100021 = .ok (.mfs ⟨0, 0⟩ 8 0x021)
  ∧ decodeControl 0xC80A6380 = .ok (.subs ⟨0, 0⟩ 5 6 7) ∧ decodeControl 0xD80A6001 = .ok (.cnct ⟨0, 0⟩ 5 6)
  ∧ decodeControl 0xB0024287 = .ok (.sgath ⟨0, 0⟩ 1 4 5 7) ∧ decodeStream 0x8C000000 = .ok .endJoin
  ∧ decodeStream 0xF8000000 = .ok (.nop ⟨0, 0⟩)
  ∧ decodeMatrix 0x20E38000 = .ok (.mfmt 7 7) ∧ decodeMatrix 0x383FC000 = .ok (.mmul 3 63)
  ∧ decodeMatrix 0x4000501C = .ok (.mgmul 0 80 7) ∧ decodeMatrix 0x56607E00 = .ok (.mrd true true 3 0 63)
  ∧ decodeMatrix 0x68E10000 = .ok (.mtopk 7 0 1) ∧ decodeMatrix 0x70000630 = .ok (.mtpld 0 3 6)
  ∧ decodeLane 0x01010001 = .ok (some (.eiadd ⟨0, 0, 0, true, 0, 1⟩))
  ∧ decodeLane 0x23420000 = .ok (some (.effma ⟨2, 0, 1, false, 0, 0⟩))
  ∧ decodeLane 0x41E00000 = .ok (some (.esteer ⟨7, 0, 0, false, 0, 0⟩))
  ∧ decodeLane 0x61020020 = .ok (some (.est ⟨0, 0, 1, false, 0, 0x20⟩))
  ∧ (∀ w : W32, w = 0 ∨ w = 0xFFFFFFFF →
      (decodeControl w).toOption = none ∧ (decodeStream w).toOption = none ∧ (decodeMatrix w).toOption = none)

/-- Decoding the encoding of a well-formed instruction gives it back, with every operand at every value the encoding
admits (R289-R302): on the control sequencer, on the matrix sequencer, on the stream sequencer for its join, and at a
lane. -/
def Obligations.DecodeInvertsEncode : Prop := ∀ i : Instr, i.wf = true →
  match i.kind with
  | .control => ∃ w, encode i = [w] ∧ (if i = .endJoin then decodeStream w else decodeControl w) = .ok i
  | .matrix => ∃ w, encode i = [w] ∧ decodeMatrix w = .ok i
  | .lane => ∃ w, encode i = [w] ∧ decodeLane w = .ok (some i)
  | .event => encode i = []

/-- No step of the machine stops: each answers a next state, so every run goes on. What the manual calls a trap, a
stall, a stopped sequencer or a faulted level is a next state. -/
def Obligations.EveryStepAnswers : Prop := (∀ i s, ∃ t, exec i s = .next t) ∧ ∀ s, Safe s

/-- Every step keeps memory in its one canonical form: addresses rise strictly and no byte is listed that reads as it
would unlisted, so equal memories are equal data. That an unlisted byte reads 0 is the model's choice
(notes/assumptions/5.md). -/
def Obligations.StepKeepsMemoryForm : Prop := ∀ s t, s.MemoryCanonical → step s = .next t → t.MemoryCanonical

/-- The machine right after reset, by the reset columns of R54, R94, R127, R186, R228 and R257: on every core `cause`,
`epc`, `evalue`, `lstat`, `mstat`, `mflag`, `tagcfg`, `subst` and `safecnt` read 0, so do the counters of a chain, no
task runs and no program is there to run, and the matrix unit has the settings of R94 with both poison bits of every
row clear; every queue and fault queue is disabled; `bstat` and the mode register of every partition read 0. The
general registers and predicates read 0 by the model's choice (log 4); memory lists nothing and is in its canonical
form (log 5). -/
def Obligations.ResetState : Prop :=
  (∀ c, let k := State.reset.core c
    k.cause = 0 ∧ k.epc = 0 ∧ k.evalue = 0 ∧ k.lstat = 0 ∧ k.mx.stat = 0 ∧ k.mx.flags = 0 ∧ k.tagcfg = 0
      ∧ State.reset.subst c = 0 ∧ k.ctl.safecnt = 0 ∧ k.ctl.slot = none ∧ k.mx.active = false ∧ k.ss.active = false
      ∧ (∀ pc, k.word pc = 0)
      ∧ (∀ ch, (k.chain ch).ld = 0 ∧ (k.chain ch).st = 0 ∧ (k.chain ch).cp = 0 ∧ (k.chain ch).mt = 0)
      ∧ k.mx.fa = 7 ∧ k.mx.fb = 7 ∧ k.mx.win = 0 ∧ k.mx.asrc = false ∧ k.mx.aline = 0 ∧ k.mx.aport = 0
      ∧ k.mx.bline = 0 ∧ k.mx.coop = false
      ∧ (∀ i, Tbl.get false k.mx.pin i = false ∧ Tbl.get false k.mx.pout i = false)
      ∧ (∀ p, (k.port p).desc = none ∧ (k.port p).posted = 0 ∧ (k.port p).read = 0))
    ∧ (∀ q, let x := Tbl.get {} State.reset.queues q
        x.en = false ∧ x.base = 0 ∧ x.head = 0 ∧ x.tail = 0 ∧ x.seq = 0)
    ∧ (∀ p, (State.reset.part p).mode = 0 ∧ (State.reset.part p).fq.en = false) ∧ State.reset.fwq.en = false
    ∧ State.reset.bstat = 0 ∧ State.reset.jobs = [] ∧ State.reset.launches = []
    ∧ (∀ r, State.reset.reg r = 0) ∧ (∀ p, State.reset.pred p = (p == 0))
    ∧ (∀ a, State.reset.mem.read a = 0) ∧ State.reset.MemoryCanonical

/-- The scheduler's events (R53, R55, R60, R61, R63, R68, R74, R172, R237, R239, R246). A dispatch starts the first
runnable instance with the registers that R53 gives, or sets a suspended task going again; a late instance of the
ordered domain and one whose entry an uncorrectable error has hit trap instead; an instance that may run ages after
65,536 cycles, one that waits for the oldest stamp from when it has come to hold it; a continuation whose wake
condition holds becomes ready; and 4,096 cycles after a pre-emption request a running task is suspended with every
register if it has settled, and rewound otherwise. -/
def Obligations.SchedulerEvents : Prop := ∀ (s : State) (c n e : Nat) (x : Slot) (t : VcToken) (r : List VcToken),
  let k := s.core c
  (MayDispatch s c → (∀ y ∈ k.slots, y.2.saved = none) → (∃ key, least (s.runnable c) = some (key, .slot n)) →
    k.slots.find n = some x →
    Dispatches (.taskDispatch c) c n x s.fresh (k.chain x.chain).launch s (fun _ => True))
  ∧ (MayDispatch s c → (∀ y ∈ k.slots, y.2.saved = none) → (∃ key, least (s.runnable c) = some (key, .entry e)) →
    k.freeSlot = some n → (k.vc (k.task e).vc.toNat).q = t :: r →
    x = { start := (k.task e).entry, idx := e, how := 0, chain := s.fresh
          stamp := (k.task e).sbase + BitVec.ofNat 64 (t.n * (k.task e).sinc.toNat)
          since := (k.triggered e).getD 0, aged := k.agedE.contains e } →
    Dispatches (.taskDispatch c) c n x (s.fresh + 1) k.launch s
      (fun u => (u.core c).chain s.fresh = { idx := e, launch := k.launch }))
  ∧ (∀ a, MayDispatch s c → k.slots.findSome? (fun y => y.2.saved.map (fun a => (y.1, a))) = some (n, a) →
    Completes (.taskDispatch c) s (fun u => (u.core c).ctl = a ∧ u.mem = s.mem))
  ∧ (k.slots.find n = some x → n < 64 → x.aged = false →
    (x.st = .ready → x.since + 65536 ≤ s.cycle →
      exec (.instanceAged c n) s = .next (s.setCore c { k with slots := k.slots.put n { x with aged := true } }))
    ∧ (∀ m, x.st = .waitOldest → s.oldest (k.chain x.chain).launch c n x.stamp = true → x.oldAt = some m →
      m + 65536 ≤ s.cycle → exec (.instanceAged c n) s =
        .next (s.setCore c { k with slots := k.slots.put n { x with aged := true, since := m } })))
  ∧ (k.triggered e = some n → n + 65536 ≤ s.cycle → k.agedE.contains e = false →
    exec (.instanceAged c (64 + e)) s = .next (s.setCore c { k with agedE := e :: k.agedE }))
  ∧ (∀ w, k.slots.find n = some x → x.st = .waitWake w → s.wakes c x w = true →
    exec (.continuationWake c n) s =
      .next (s.setCore c { k with slots := k.slots.put n { x with st := .ready, since := s.cycle } }))
  ∧ (∀ q, k.preempt = some q → q + 4096 ≤ s.cycle → k.ctl.slot = some n → k.slots.find n = some x → k.halted = none →
    (k.ctl.work.settled = true → exec (.preemptForcedStop c) s =
      .next (s.setCore c { k with
        slots := k.slots.put n { x with st := .suspended, saved := some k.ctl }, ctl := k.ctl.idle }))
    ∧ (k.ctl.work.settled = false → (∀ m a b st cy, Out.spawn m a b st cy ∈ k.ctl.work.outs → m ≠ n) →
      Completes (.preemptForcedStop c) s (fun t => (t.core c).ctl = k.ctl.idle ∧ t.mem = s.mem
        ∧ (t.core c).slots.find n = some { x.ready s.cycle with
            st := .ready, oldAt := none, irrev := x.irrev || k.ctl.work.irrev })))

/-- The end of a task's work (R18, R19, R20, R59, R65, R69, R168, R169, R172, R239, R299, R314): a commit begins in its
domain's order, applies all of a task's bytes for one core in one step, then issues its `stg` commands and delivers its
`send` and `spawn` words, and frees its slot or gives it to the continuation; a unit completes when its task, commits,
forks and counters are finished; a reply is written to the run that it is owed to; and a cancel takes effect when it
reaches the level's owner. -/
def Obligations.CommitsAndUnits : Prop := ∀ (s : State) (c i ch : Nat) (m : Commit) (x : Chain) (o : Owed),
  let k := s.core c
  let left := k.commits.filter (fun y => y.id != m.id)
  (k.commits[i]? = some m → m.dead = false →
    (m.stage = .waiting → (¬ CommitMay s c m → exec (.taskCommit c i) s = .next s)
      ∧ (CommitMay s c m → Completes (.taskCommit c i) s (fun t => t.mem = s.mem
        ∧ t.core c = { k with commits := atStage m.id .scratch k.commits }
        ∧ (m.ord = false → t = s.setCore c (t.core c))
        ∧ (∀ l, m.ord = true → s.launches.find m.launch = some l → t.launches.find m.launch = some { l with
            last := if l.last.any (fun y => !ordLt y (ordKey c (m.slot.getD 64) m.stamp)) then l.last
              else some (ordKey c (m.slot.getD 64) m.stamp) }))))
    ∧ (∀ tgt b r, m.stage = .scratch → m.work.wbuf = b :: r → tgt = b.1 / 2 ^ 19 →
      ((s.core tgt).commitHeld tgt m.work.wbuf = true → exec (.taskCommit c i) s = .next s)
      ∧ ((s.core tgt).commitHeld tgt m.work.wbuf = false → (m.work.wbuf.map (·.1)).Nodup →
        (∀ y ∈ k.commits, y.id = m.id → y = m) → Completes (.taskCommit c i) s (fun t =>
        (∀ a < 2 ^ 19, t.mem.read (spKey tgt a) =
          (Tbl.find m.work.wbuf (tgt * 2 ^ 19 + a)).getD (s.mem.read (spKey tgt a)))
        ∧ (∀ a, (a < spKey tgt 0 ∨ spKey tgt (2 ^ 19) ≤ a) → t.mem.read a = s.mem.read a)
        ∧ { m with work := { m.work with wbuf := m.work.wbuf.filter (fun b => b.1 / 2 ^ 19 != tgt) } }
          ∈ (t.core c).commits)))
    ∧ (m.stage = .scratch → m.work.wbuf = [] →
      exec (.taskCommit c i) s = .next (s.setCore c { k with commits := atStage m.id .stgs k.commits }))
    ∧ (∀ g r, m.stage = .stgs → m.work.stgs = g :: r →
      let may := (k.chain m.chain).st ≠ 65535 ∧ ∀ i < g.lines, k.lineHeld (g.line + i) = false
      (¬ may → exec (.taskCommit c i) s = .next s)
      ∧ (may → Completes (.taskCommit c i) s (fun t => t.mem = s.mem
        ∧ (t.core c).stgs = k.stgs ++ [{ id := s.fresh, chain := m.chain, va := g.va
                                         data := s.spBytes c (g.line * 128) (g.lines * 128)
                                         bad := (List.range g.lines).map (fun i => s.isBad (lineKey c (g.line + i)))
                                         seq := m.seq }]
        ∧ (t.core c).chain m.chain = { k.chain m.chain with st := (k.chain m.chain).st + 1 })))
    ∧ (m.stage = .stgs → m.work.stgs = [] →
      exec (.taskCommit c i) s = .next (s.setCore c { k with commits := atStage m.id .outs k.commits }))
    ∧ (∀ tgt v w r, m.stage = .outs → m.work.outs = .sendVc tgt v w :: r → (s.core tgt).vctags.find v = none →
      Completes (.taskCommit c i) s (fun t => t.mem = s.mem
        ∧ ((t.core tgt).vc v).q = ((s.core tgt).vc v).q ++ [⟨w, ((s.core tgt).vc v).arrived, s.cycle⟩]
        ∧ ((t.core tgt).vc v).resv = ((s.core tgt).vc v).resv - 1))
    ∧ (∀ p w r, m.stage = .outs → m.work.outs = .sendSink p w :: r →
      (s.nameAhead c (32 + p) = false → exec (.taskCommit c i) s = .next s)
      ∧ (s.nameAhead c (32 + p) = true → Completes (.taskCommit c i) s (fun t => t.mem = s.mem
        ∧ ((t.core c).port (16 + p)).buf = pushTok (k.port (16 + p)).buf w
        ∧ ((t.core c).port (16 + p)).resv = (k.port (16 + p)).resv - 1)))
    ∧ (∀ n e start stamp carry r, m.stage = .outs → m.work.outs = .spawn n e start stamp carry :: r →
      Completes (.taskCommit c i) s (fun t => t.mem = s.mem
        ∧ (t.core c).chain s.fresh = { idx := e, launch := m.launch }
        ∧ (t.core c).slots.find n = some { st := .ready, start := start, idx := e, how := 1, stamp := stamp
                                           carry := carry, chain := s.fresh, since := s.cycle }))
    ∧ (m.stage = .outs → m.work.outs = [] →
      (m.slot = none → exec (.taskCommit c i) s = .next (s.setCore c { k with commits := left }))
      ∧ (∀ n, m.slot = some n → m.cont = none → exec (.taskCommit c i) s =
        .next (s.setCore c { k with commits := left, slots := k.slots.drop n }))
      ∧ (∀ n y w, m.slot = some n → m.cont = some y → y.st = .waitWake w →
        let y' : Slot := if (s.setCore c { k with commits := left }).wakes c y w
          then { y with st := .ready, since := s.cycle } else y
        exec (.taskCommit c i) s = .next (s.setCore c { k with commits := left, slots := k.slots.put n y' }))))
  ∧ (k.commits[i]? = some m → m.dead = true → m.work.outs = [] → m.slot = none →
    exec (.taskCommit c i) s = .next (s.setCore c { k with commits := left }))
  ∧ (k.chains.find ch = some x → x.posted = false → (k.ctl.slot = none ∨ k.ctl.chain ≠ ch) →
    (k.mx.active = false ∨ k.mx.halt = true ∨ k.mx.chain ≠ ch) →
    (k.ss.active = false ∨ k.ss.halt = true ∨ k.ss.chain ≠ ch) →
    x.ld = 0 → x.st = 0 → x.cp = 0 → x.mt = 0 → (∀ y ∈ k.commits, y.chain ≠ ch) →
    (x.ended = true ∨ (x.status = .faulted ∧ ∃ y ∈ k.slots, y.2.chain = ch ∧ y.2.st = .waitWake .rdv)) →
    let ends := (({ k with chains := k.chains.put ch { x with posted := true } } : Core).unfork ch).dropRdv ch
    ((x.status ≠ .faulted ∨ x.launch = 0) → exec (.unitCompletion c ch) s = .next (s.setCore c ends))
    ∧ (∀ l, x.status = .faulted → x.launch ≠ 0 → s.launches.find x.launch = some l →
      Completes (.unitCompletion c ch) s (fun t => t.mem = s.mem
        ∧ t.launches.find x.launch = some { l with fault := true } ∧ t.cancels = s.cancels ++ [(1, x.launch)]
        ∧ t.core c = ends)))
  ∧ (∀ v, k.owed[i]? = some o → o.val = some v →
    (k.ctl.run = o.run → exec (.registerReplyArrival c i) s = .next (s.setCore c { k with
      owed := k.owed.filter (fun y => y.id != o.id), ctl := k.ctl.setDest o.dst v }))
    ∧ (∀ u, k.ctl.run ≠ o.run → u = (if k.halted.any (fun a => a.run == o.run) then k.setCopy o.dst v else k) →
      exec (.registerReplyArrival c i) s = .next (s.setCore c { u with
          owed := k.owed.filter (fun y => y.id != o.id)
          halted := k.halted.map (fun a => if a.run = o.run then a.setDest o.dst v else a)
          slots := k.slots.map (fun y => (y.1, { y.2 with
            saved := y.2.saved.map (fun a => if a.run = o.run then a.setDest o.dst v else a) })) })))
  ∧ (∀ lvl id, s.cancels[i]? = some (lvl, id) →
    let p := (s.part (s.cancelPart lvl id)).pre
    ((p = .saving ∨ p = .saved) → exec (.cancelArrival i) s = .next s)
    ∧ (p ≠ .saving → p ≠ .saved → exec (.cancelArrival i) s =
      .next (State.cancelLevel { s with cancels := s.cancels.take i ++ s.cancels.drop (i + 1) } lvl id).refresh))

/-- Memory traffic between the cores, the Detents and memory (R10, R117-R119, R125, R126, R138-R140, R166, R231, R317,
R364, R370): what each request does when it is served, what holds it, and what it comes to where its address does not
translate. -/
def Obligations.MemoryTraffic : Prop := ∀ (s : State) (c i : Nat),
  let k := s.core c
  (∀ r, k.ldgs[i]? = some r →
    let line := r.line + r.got
    let held := r.stalled = true ∨ s.fenced c 1 r.seq = true ∨ k.lineHeld line = true
    let fault := if r.pas = [] then firstFault s (dieOf c) k.part r.va.toNat false r.lines else none
    (held → exec (.ldgLineArrival c i) s = .next s)
    ∧ (∀ va, ¬ held → fault = some va → exec (.ldgLineArrival c i) s =
      .next ((s.modLdg c r.id (fun y => { y with stalled := true })).stallSlice c (BitVec.ofNat 64 va) (.ldg c r.id)))
    ∧ (∀ u, ¬ held → fault = none → s.takeTokens c 128 = (u, false) → exec (.ldgLineArrival c i) s = .next u)
    ∧ (∀ u w v pas bytes bad, ¬ held → fault = none → s.takeTokens c 128 = (u, true) →
      pas = (if r.pas = [] then lineAddrs u (dieOf c) k.part r.va.toNat false r.lines else r.pas) →
      w = (if r.pas = [] then (u.walkedLines (dieOf c) k.part r.va.toNat r.lines).modLdg c r.id
        (fun y => { y with pas := pas }) else u) →
      (w.keyed k.part ((List.range 128).map (pas[r.got]?.getD 0 + ·)) false).physRead
        ((List.range 128).map (pas[r.got]?.getD 0 + ·)) = (v, bytes, bad) →
      Completes (.ldgLineArrival c i) s (fun t =>
        (r.named.contains line = false → t.mem = v.mem.writes (spKey c (line * 128)) bytes
          ∧ t.isEmpty (lineKey c line) = false ∧ t.isBad (lineKey c line) = bad)
        ∧ (r.named.contains line = true → t.mem = v.mem ∧ t.empty = v.empty ∧ t.badLine = v.badLine)
        ∧ (r.got + 1 = r.lines → (t.core c).ldgs = (v.core c).ldgs.filter (fun y => y.id != r.id)
            ∧ (t.core c).chain r.chain = { (v.core c).chain r.chain with ld := ((v.core c).chain r.chain).ld - 1 })
        ∧ (r.got + 1 ≠ r.lines → (t.core c).ldgs =
            (v.core c).ldgs.map (fun y => if y.id = r.id then { y with got := y.got + 1 } else y)))))
  ∧ (∀ r, k.stgs[i]? = some r →
    let held := r.stalled = true ∨ s.fenced c 0 r.seq = true ∨ ∃ y ∈ k.stgs.take i,
      y.va.toNat < r.va.toNat + r.data.length ∧ r.va.toNat < y.va.toNat + y.data.length
    let fault := firstFault s (dieOf c) k.part r.va.toNat true (r.data.length / 128)
    (held → exec (.stgWriteComplete c i) s = .next s)
    ∧ (∀ va, ¬ held → fault = some va → exec (.stgWriteComplete c i) s = .next ((s.setCore c { k with
        stgs := k.stgs.map (fun (y : StgCmd) => if y.id = r.id then { y with stalled := true } else y) }).stallSlice c
          (BitVec.ofNat 64 va) (.stg c r.id)))
    ∧ (∀ u, ¬ held → fault = none → s.takeTokens c r.data.length = (u, false) →
      exec (.stgWriteComplete c i) s = .next u)
    ∧ (∀ u v, ¬ held → fault = none → s.takeTokens c r.data.length = (u, true) →
      stgWrites (dieOf c) k.part r.va.toNat (chunks 128 (r.data.length / 128) r.data) r.bad u = some v →
      Completes (.stgWriteComplete c i) s (fun t => t.mem = v.mem
        ∧ (t.core c).stgs = (v.core c).stgs.filter (fun y => y.id != r.id)
        ∧ (t.core c).chain r.chain = { (v.core c).chain r.chain with st := ((v.core c).chain r.chain).st - 1 })))
  ∧ ((s.cluster c).queue.find? s.servable = none → exec (.detentAtomic c) s = .next s)
  ∧ (∀ a, (s.cluster c).queue.find? s.servable = some a →
    (s.translateRw (c / 8) a.part a.va.toNat = none → exec (.detentAtomic c) s = .next (s.detentFault c a))
    ∧ (∀ pa u, s.translateRw (c / 8) a.part a.va.toNat = some pa → s.takeTokens a.core a.size = (u, false) →
      exec (.detentAtomic c) s = .next u)
    ∧ (∀ pa u, s.translateRw (c / 8) a.part a.va.toNat = some pa → s.takeTokens a.core a.size = (u, true) →
      exec (.detentAtomic c) s = .next ((((u.walked (c / 8) a.part a.va.toNat).modCluster c (fun x =>
        { x with queue := x.queue.filter (fun y => y.id != a.id) })).keyed a.part
          ((List.range a.size).map (pa + ·)) true).detentAt c a pa)))
  ∧ (∀ (a : Atomic) pa h, (∀ x ∈ s.clusters, x.1 ≠ c → ∀ y ∈ x.2.hot, y.line ≠ pa / 128) →
    (s.cluster c).hot = [h] → h.line = pa / 128 → Tbl.get false s.badUnit (pa / 64) = false → a.bad = false →
    (∀ y ∈ (s.core a.core).holds, y.before.getLsbD 6 = false) →
    let old := leNat ((List.range a.size).map (fun j =>
      (Tbl.find h.changed (pa % 128 + j)).getD (s.mem.read (pa / 128 * 128 + (pa % 128 + j)))))
    let new := atomicNew a.op a.cas a.size old (a.b.toNat % 2 ^ (8 * a.size)) (a.cmp.toNat % 2 ^ (8 * a.size))
    let u := s.detentAt c a pa
    u.mem = s.mem
    ∧ (u.cluster c).hot = [{ h with changed := mergeBytes h.changed (indexBytes (pa % 128) (leBytes new a.size)) }]
    ∧ (∀ d, a.deposit = some d → (u.core a.core).deposits = (s.core a.core).deposits.map (fun x =>
        if x.id = d then { x with val := some (BitVec.ofNat 64 old, false) } else x))
    ∧ (∀ l, a.deposit = none → a.lane = some l → (u.core a.core).memreqs = (s.core a.core).memreqs.map (fun m =>
        if m.lane = l ∧ m.seq = a.seq then { m with res := some (BitVec.ofNat 32 old, false) } else m)))
  ∧ (∀ d w bad, k.deposits[i]? = some d → d.val = some (w, bad) →
    (k.wordHeld d.off 8 = true → exec (.atomicDepositArrival c i) s = .next s)
    ∧ (k.wordHeld d.off 8 = false → Completes (.atomicDepositArrival c i) s (fun t =>
      (d.dead = true → t.mem = s.mem)
      ∧ (d.dead = false → d.off % 8 = 0 → t.mem = s.mem.writes (spKey c d.off) (leBytes w.toNat 8)
        ∧ t.isEmpty (lineKey c (d.off / 128)) = false
        ∧ t.isBad (lineKey c (d.off / 128)) = (bad || s.isBad (lineKey c (d.off / 128))))
      ∧ (t.core c).deposits = k.deposits.filter (fun y => y.id != d.id)
      ∧ (t.core c).chain d.chain = { k.chain d.chain with ld := (k.chain d.chain).ld - 1 })))
  ∧ (∀ h, (s.cluster c).hot.find? (fun h => h.line == i) = some h → (h.changed.map (·.1)).Nodup →
    (∀ y ∈ h.changed, y.1 < 128) → Completes (.homeRecall c i) s (fun t =>
      (∀ o < 128, t.mem.read (i * 128 + o) = (Tbl.find h.changed o).getD (s.mem.read (i * 128 + o)))
      ∧ (∀ a, (a < i * 128 ∨ i * 128 + 128 ≤ a) → t.mem.read a = s.mem.read a)
      ∧ (t.cluster c).hot = (s.cluster c).hot.filter (fun h => h.line != i)))
  ∧ ((s.cluster c).hot.find? (fun h => h.line == i) = none → exec (.homeRecall c i) s = .next s)
  ∧ (∀ r q, k.portq = r :: q →
    (s.fenced r.core 6 r.seq = true → exec (.scratchpadAtomicStep c) s = .next s)
    ∧ (s.fenced r.core 6 r.seq = false → (r.size = 4 ∨ r.size = 8) → r.off % r.size = 0 →
      Completes (.scratchpadAtomicStep c) s (fun t =>
        t.mem = (if s.isBad (lineKey c (r.off / 128)) then s.mem else s.mem.writes (spKey c r.off) (leBytes
          (atomicNew r.op r.cas r.size (leNat (s.spBytes c r.off r.size)) (r.b.toNat % 2 ^ (8 * r.size))
            (r.cmp.toNat % 2 ^ (8 * r.size))) r.size))
        ∧ (t.core c).portq = q
        ∧ (t.core r.core).owed = (s.core r.core).owed.map (fun o => if o.id = r.owed then
            { o with val := some (BitVec.ofNat 64 (leNat (s.spBytes c r.off r.size))) } else o))))
  ∧ (∀ p die va, let slice := s.tlb.filter (fun t => t.die == die && t.slice == va.toNat / 65536 % 16)
    ((s.cached die p (BitVec.toNat va)).isSome = true → exec (.pageWalk p die va) s = .next s)
    ∧ (s.cached die p va.toNat = none → walkFrom s va.toNat 4 1 (s.part p).root = none →
      exec (.pageWalk p die va) s = .next s)
    ∧ (∀ base size rd wr, s.cached die p va.toNat = none →
      walkFrom s va.toNat 4 1 (s.part p).root = some (base, size, rd, wr) →
      let u := s.walked die p va.toNat
      let e : Tlb := ⟨die, va.toNat / 65536 % 16, p, va.toNat / size * size, size, base, rd, wr⟩
      (slice.length < 4096 → exec (.pageWalk p die va) s = .next { u with tlb := s.tlb ++ [e] })
      ∧ (∀ j, 4096 ≤ slice.length → s.tlb.findIdx? (fun t => t.die == die && t.slice == va.toNat / 65536 % 16) = some j →
        exec (.pageWalk p die va) s = .next { u with tlb := dropAt s.tlb j ++ [e] })))
  ∧ (∀ p va, s.bstate = 3 → exec (.translationInvalidate p va) s = .next { s with
      tlb := s.tlb.filter (fun t => !(t.part == p && t.va ≤ va.toNat && va.toNat < t.va + t.size)) })
  ∧ (∀ p w, (s.waiters.filter (fun x => x.1 == p))[i]? = some w → s.bstate = 3 →
    exec (.supervisorRetry p i) s = .next (State.unstall { s with waiters := s.waiters.erase w } w.2))
  ∧ (∀ id, s.unstall (.ldg c id) = s.setCore c { k with
        ldgs := k.ldgs.map (fun (y : Ldg) => if y.id = id then { y with stalled := false } else y) }
      ∧ s.unstall (.stg c id) = s.setCore c { k with
        stgs := k.stgs.map (fun (y : StgCmd) => if y.id = id then { y with stalled := false } else y) }
      ∧ s.unstall (.port c id) = s.setCore c { k with ports := k.ports.put id { k.port id with stalled := false } }
      ∧ s.unstall (.detent c id) = s.modCluster c (fun x => { x with
        queue := x.queue.map (fun (y : Atomic) => if y.id = id then { y with stalled := false } else y) }))
  ∧ (∀ ring free, free < 2 → exec (.ringPacketEntry c ring free) s = .next s)
  ∧ (∀ ring free tgt run l full q r, 2 ≤ free →
    (if ring = 0 then k.ring0 else k.ring1) = .fset tgt run l full q :: r →
    exec (.ringPacketEntry c ring free) s = .next ((s.setCore c
      (if ring = 0 then { k with ring0 := r } else { k with ring1 := r })).setLine l full))

/-- The memory nodes (R82, R89-R91, R119, R139, R177, R233, R234, R349, R350): what `eld`, `est` and `ermw` do at their
word, and what an access does when it takes place: `eld` gives the word there, `est` writes B, `ermw` writes the
operation's result and gives the old word; an access follows an earlier one to the same word, and one that faults stalls
its node. -/
def Obligations.LaneMemoryNodes : Prop :=
  (∀ (s : State) (w : LaneArgs),
    NodeWord (.eld w) .eld w s ∧ NodeWord (.est w) .est w s ∧ NodeWord (.ermw w) .ermw w s)
  ∧ (∀ (s : State) (c i : Nat) (m : MemReq),
    let k := s.core c
    let may := m.stalled = false ∧ m.seen = false
      ∧ ∀ x ∈ k.memreqs.take i, x.lane = m.lane → x.stalled = false ∧ (x.seen = true ∨ x.addr / 4 ≠ m.addr / 4)
    let word := Instr.memoryNodeReply c i
    k.memreqs[i]? = some m → (m.op = .eld ∨ m.op = .est ∨ m.op = .ermw) →
    (¬ may → exec word s = .next s)
    ∧ (may → placeOf c m.addr 4 = .bad → exec word s = .next (s.stallLane c m.lane m.seq 4 m.addr))
    ∧ (may → placeOf c m.addr 4 ≠ .bad → m.addr.toNat % 4 ≠ 0 → exec word s = .next (s.stallLane c m.lane m.seq 5 m.addr))
    ∧ (∀ t off, may → placeOf c m.addr 4 = .scratch t off → m.addr.toNat % 4 = 0 →
      let old := leNat (s.spBytes t off 4)
      let bad := s.isBad (lineKey t (off / 128))
      ((s.fenced c 3 m.seq = true ∨ (s.core t).wordHeld off 4 = true) → exec word s = .next s)
      ∧ (s.fenced c 3 m.seq = false → (s.core t).wordHeld off 4 = false →
        (m.op = .eld → Completes word s (fun u => MemoryKept s u ∧ AccessDone c m old bad k u))
        ∧ (m.op = .est → Completes word s (fun u => AccessDone c m 0 false k u
          ∧ u.mem = s.mem.writes (spKey t off) (leBytes m.b.value.toNat 4)
          ∧ u.isBad (lineKey t (off / 128)) = (m.b.poison || bad)))
        ∧ (m.op = .ermw → Completes word s (fun u => AccessDone c m old bad k u
          ∧ (bad = true → MemoryKept s u)
          ∧ (bad = false → u.isBad (lineKey t (off / 128)) = m.b.poison ∧ u.mem =
            s.mem.writes (spKey t off) (leBytes (atomicOp m.amo 32 old m.b.value.toNat) 4))))))
    ∧ (may → placeOf c m.addr 4 = .global → m.addr.toNat % 4 = 0 → m.op = .ermw →
      (m.res = none → exec word s = .next s)
      ∧ (∀ v bad, m.res = some (v, bad) →
        Completes word s (fun u => MemoryKept s u ∧ AccessDone c m v.toNat bad k u)))
    ∧ (∀ u ok, may → placeOf c m.addr 4 = .global → m.addr.toNat % 4 = 0 → m.op ≠ .ermw →
      let unmapped := s.translateAll (dieOf c) k.part m.addr.toNat (m.op == .est) 4 = none
      (s.fenced c 3 m.seq = true → exec word s = .next s)
      ∧ (s.fenced c 3 m.seq = false → unmapped → exec word s = .next (s.stallLane c m.lane m.seq 6 m.addr))
      ∧ (s.fenced c 3 m.seq = false → ¬ unmapped → s.takeTokens c 4 = (u, ok) →
        (ok = false → exec word s = .next u)
        ∧ (∀ v bytes bad, ok = true → m.op = .eld → u.gRead (dieOf c) k.part m.addr.toNat 4 = some (v, bytes, bad) →
          Completes word s (fun x => x.mem = v.mem ∧ AccessDone c m (leNat bytes) bad (v.core c) x))
        ∧ (∀ v, ok = true → m.op = .est → u.gWrite (dieOf c) k.part m.addr.toNat (leBytes m.b.value.toNat 4)
            m.b.poison = some v →
          Completes word s (fun x => x.mem = v.mem ∧ AccessDone c m 0 false (v.core c) x)))))

/-- What the stream engine and the circuits do on their own (R92, R98, R119, R120, R129-R131, R133, R139, R148, R149,
R212, R234, R237, R254, R305, R420): a port starts its next command, a source delivers the next token of its walk and a
sink writes the elements of its next token, a command whose walk is done completes, a circuit moves a token or a request
one stage on, a port with `rowtags` takes one, and the commands on the ports of a launch's source and sink nodes complete
together once every sink is complete. -/
def Obligations.StreamEvents : Prop := ∀ (s : State) (c p : Nat),
  let k := s.core c
  let x := k.port p
  (∀ (m : Cmd) q, x.run = none → x.q = m :: q →
    let held := k.frozen = true ∨ s.fenced c (match m.kind with | .gath _ => 3 | _ => 1) m.seq = true
    let items := if p < 16 then m.items else m.items.filter (fun y => match y with | .data _ => true | .mark _ => false)
    (held → exec (.streamCommandStart c p) s = .next s)
    ∧ (¬ held → exec (.streamCommandStart c p) s = .next (s.setCore c { k with
        ports := k.ports.put p { x with q := q, run := some { cmd := m, items := items } } })))
  ∧ (∀ (r : Running), x.run = some r → p < 16 →
    let stands := k.portStands r = true ∨ x.stalled = true ∨ x.tagStopped = true ∨ s.requested c (16 + p) = false
    let n := Desc.size r.cmd.d
    (stands → exec (.streamSourceToken c p) s = .next s)
    ∧ (∀ rank rest, ¬ stands → r.items = .mark rank :: rest →
      let t : Token := { kind := BitVec.ofNat 3 rank }
      (k.srcRoom p t = false → exec (.streamSourceToken c p) s = .next s)
      ∧ (k.srcRoom p t = true →
        exec (.streamSourceToken c p) s = .next (s.srcAdvance c p t { r with items := rest })))
    ∧ (∀ l rest, ¬ stands → r.items = .data l :: rest →
      let fault := (l.filterMap id).findSome? (s.elemFault c false n)
      let may := k.srcRoom p {} = true ∧ (∀ y ∈ Item.lines c n (.data l), s.isEmpty y = false)
        ∧ ∀ a ∈ l.filterMap id, s.elemHeld c n a = false
      (∀ cause v, fault = some (cause, v) → exec (.streamSourceToken c p) s = .next ((s.setCore c { k with
        ports := k.ports.put p { x with stalled := true } }).stall c 2 p cause v (.port c p)))
      ∧ (fault = none → ¬ may → exec (.streamSourceToken c p) s = .next s)
      ∧ (∀ u, fault = none → may → portTokens s c n l = (u, false) → exec (.streamSourceToken c p) s = .next u)
      ∧ (∀ u v vs bad, fault = none → may → portTokens s c n l = (u, true) →
        State.readElems c n (Desc.pad r.cmd.d) u l = (v, vs, bad) →
        let w := v.modPort c p (fun y => { y with
          posted := y.posted + BitVec.ofNat 32 (n * l.length)
          read := y.read + BitVec.ofNat 32 (n * (l.filterMap id).length) })
        exec (.streamSourceToken c p) s = .next ((if Desc.drain r.cmd.d = true then
          (finished c n (.data l) rest).foldl State.consumed w else w).srcAdvance c p ⟨bad, 0, packElems n vs⟩
            { r with items := rest, last := ((l.filterMap id).getLast?.map (fun a => a.toNat / 128)).or r.last }))))
  ∧ (∀ t r, let u := s.modPort c p (fun y => { y with run := some r })
    (x.tag = none → s.srcAdvance c p t r = u.srcPut c p t)
    ∧ (∀ v, u.srcDeliver c p t = some v → s.srcAdvance c p t r = v)
    ∧ (u.srcDeliver c p t = none → s.srcAdvance c p t r = u.tagStop c p t))
  ∧ (∀ t, (s.demand c (16 + p) = some false → s.srcPut c p t = s.passOver c (16 + p) t)
    ∧ (s.demand c (16 + p) ≠ some false → k.sourceRouted p = true → s.srcPut c p t = s.emit c (16 + p) t)
    ∧ (s.demand c (16 + p) ≠ some false → k.sourceRouted p = false → s.srcPut c p t =
      (s.modPort c p (fun y => { y with buf := pushTok y.buf t })).observe c (16 + p) t))
  ∧ (∀ (r : Running) t more, (k.port (16 + p)).run = some r → (k.port (16 + p)).buf = t :: more → p < 16 →
    let y := k.port (16 + p)
    let stands := k.portStands r = true ∨ y.stalled = true
    let n := Desc.size r.cmd.d
    (stands → exec (.streamSinkToken c p) s = .next s)
    ∧ (¬ stands → t.kind ≠ 0 → exec (.streamSinkToken c p) s = .next (s.setCore c { k with
        ports := k.ports.put (16 + p) { y with buf := more } }))
    ∧ (¬ stands → t.kind = 0 → r.items = [] → exec (.streamSinkToken c p) s = .next s)
    ∧ (∀ l rest, ¬ stands → t.kind = 0 → r.items = .data l :: rest →
      let fault := (l.filterMap id).findSome? (s.elemFault c true n)
      let held := ∃ a ∈ l.filterMap id, s.elemHeld c n a = true
      (∀ cause v, fault = some (cause, v) → exec (.streamSinkToken c p) s = .next ((s.setCore c { k with
        ports := k.ports.put (16 + p) { y with stalled := true } }).stall c 2 p cause v (.port c (16 + p))))
      ∧ (fault = none → held → exec (.streamSinkToken c p) s = .next s)
      ∧ (∀ u, fault = none → ¬ held → portTokens s c n l = (u, false) → exec (.streamSinkToken c p) s = .next u)
      ∧ (∀ u v mask, fault = none → ¬ held → portTokens s c n l = (u, true) →
        State.writeElems c n t.value.toNat t.poison (u, r.mask) l = (v, mask) →
        exec (.streamSinkToken c p) s = .next ((if Desc.fill r.cmd.d = true then
          (finished c n (.data l) rest).foldl State.fillLine v else v).modPort c (16 + p) (fun y => { y with
            buf := more, posted := y.posted + BitVec.ofNat 32 (n * l.length)
            run := some { cmd := r.cmd, items := rest, mask := mask
                          last := ((l.filterMap id).getLast?.map (fun a => a.toNat / 128)).or r.last } })))))
  ∧ (∀ (r : Running), x.run = some r →
    (r.items ≠ [] → exec (.streamCommandComplete c p) s = .next s)
    ∧ (r.items = [] → Completes (.streamCommandComplete c p) s (fun t => t.mem = s.mem
      ∧ (t.core c).port p = { x with run := none }
      ∧ (t.core c).chain r.cmd.chain = { k.chain r.cmd.chain with cp := (k.chain r.cmd.chain).cp - 1 })))
  ∧ (∀ i h (y : Circuit), s.circuits[i]? = some y →
    let n := y.stages.length
    let b := y.back.length
    let word := Instr.circuitTokenTransfer i h
    let held := y.failed = true ∨ ∃ l, y.link h = some l ∧ s.rekeying l = true
    (held → exec word s = .next s)
    ∧ (¬ held → h = 0 → 0 < n → (stageOf y.stages 0).length < 2 →
      (∀ w r, y.names = w :: r → exec word s = .next (hopped s i h y
        { y with names := r, stages := y.stages.set 0 (stageOf y.stages 0 ++ [.wave w]) }))
      ∧ (∀ t r, y.names = [] → y.comes = none → ((s.core y.core).port (16 + y.sink)).buf = t :: r →
        exec word s = .next (hopped (s.modPort y.core (16 + y.sink) (fun q => { q with buf := r })) i h y
          { y with stages := y.stages.set 0 (stageOf y.stages 0 ++ [.data t]) }))
      ∧ (∀ l t r, y.names = [] → y.comes = some l → (Tbl.get {} s.links l).rx = t :: r →
        exec word s = .next (hopped (withLink s l { Tbl.get {} s.links l with rx := r }) i h y
          { y with stages := y.stages.set 0 (stageOf y.stages 0 ++ [.data t]) })))
    ∧ (∀ f r, ¬ held → 0 < h → h < n → stageOf y.stages (h - 1) = f :: r → (stageOf y.stages h).length < 2 →
      exec word s = .next (hopped s i h y
        { y with stages := (y.stages.set (h - 1) r).set h (stageOf y.stages h ++ [f]) }))
    ∧ (∀ t r, ¬ held → 0 < h → h = n → stageOf y.stages (h - 1) = .data t :: r →
      let z : Circuit := { y with stages := y.stages.set (h - 1) r }
      (s.endRoom y t = false → exec word s = .next s)
      ∧ (∀ l, y.goes = some l → exec word s = .next (hopped (s.sendFlit l t) i h y z))
      ∧ (s.endRoom y t = true → y.goes = none → y.toVc = false →
        exec word s = .next (hopped (s.srcPut y.core2 y.src t) i h y z))
      ∧ (∀ v ok, s.endRoom y t = true → y.goes = none → y.toVc = true →
        (s.noteArrival y t).vcArrive y.core2 y.src t = (v, ok) →
        exec word s = .next (if ok then hopped v i h y z else v.crossed y h)))
    ∧ (∀ w r, ¬ held → 0 < h → h = n → stageOf y.stages (h - 1) = .wave w :: r →
      (s.waveArrive y w = none → exec word s = .next s)
      ∧ (∀ v, s.waveArrive y w = some v → exec word s = .next (hopped v i h y
        { y with stages := y.stages.set (h - 1) r })))
    ∧ (∀ w r, ¬ held → h = n + 1 → y.asks = w :: r → 0 < b → (stageOf y.back 0).length < 2 →
      exec word s = .next (hopped s i h y { y with asks := r, back := y.back.set 0 (stageOf y.back 0 ++ [w]) }))
    ∧ (∀ j w r, ¬ held → h = n + 1 + j → 0 < j → stageOf y.back (j - 1) = w :: r →
      (j < b → (stageOf y.back j).length < 2 → exec word s = .next (hopped s i h y
        { y with back := (y.back.set (j - 1) r).set j (stageOf y.back j ++ [w]) }))
      ∧ (∀ v, j = b → s.requestArrive y w = some v → exec word s = .next ((v.modCircuit i (fun z => { z with
          back := z.back.set (j - 1) ((stageOf z.back (j - 1)).drop 1) })).crossed y h))))
  ∧ (∀ i y t r, s.circuits.findIdx? (fun z => z.core2 == c && z.src == p && !z.toVc && z.goes.isNone && !z.failed) = some i →
    s.circuits[i]? = some y → 0 < y.stages.length → stageOf y.stages (y.stages.length - 1) = .data t :: r →
    let may := x.tag ≠ none ∧ x.tagStopped = false ∧ k.srcRoom p t = true ∧ s.nameAhead c (16 + p) = true
      ∧ ∀ l, y.link y.stages.length = some l → s.rekeying l = false
    (¬ may → exec (.rowTagArrival c p) s = .next s)
    ∧ (may → s.srcDeliver c p t = none → exec (.rowTagArrival c p) s = .next (s.tagStop c p t))
    ∧ (∀ v, may → s.srcDeliver c p t = some v → exec (.rowTagArrival c p) s =
      .next (hopped v i y.stages.length y { y with stages := y.stages.set (y.stages.length - 1) r })))
  ∧ (∀ n ln g, s.launches.find n = some ln → s.graphOf ln = some g →
    (g.sinks.all (s.sinkDone ln g) = false → exec (.sinkCompletionSweep n) s = .next s)
    ∧ (g.sinks.all (s.sinkDone ln g) = true → Completes (.sinkCompletionSweep n) s (fun t => t.mem = s.mem
      ∧ t.launches.find n = some { ln with swept := true }
      ∧ ∀ y ∈ enum g.nodes, ((y.2.kind = 3 ∧ g.isStart y.1 = false ∧ g.crossing y.1 = none) ∨ y.1 ∈ g.sinks) →
        ∀ d, s.nodeCore ln y.2 = some d → ∀ w ∈ y.2.ports,
          ((t.core d).port (if y.2.kind = 3 then w.num else 16 + w.num)).q = []
          ∧ ((t.core d).port (if y.2.kind = 3 then w.num else 16 + w.num)).run = none)))

/-- A subscription's course (R135-R137, R139, R180, R244, R430) and a reduction's merge (R12, R233): the publisher takes a
snapshot when the request reaches it; the subscriber applies snapshots and updates as whole writes of what they carry,
set full where the entry says so, or keeps them in its backlog while it takes none, which makes the entry stale when it
passes 64 KiB; a removal closes the windows and sends its mark, which frees the entry, and nothing waits for it any more;
and two packets to one address in one router merge into their sum. -/
def Obligations.SubscriptionEvents : Prop := ∀ (s : State) (c i : Nat) (u : Sub),
  (exec (.snapshotRequest c i) s = .next (s.modSubs
    (fun u => u.pub == c && u.pubIdx == i && u.ask && !u.closed && !s.fenced u.sub 5 u.seq) (fun u => { u with
      ask := false
      fifo := u.fifo ++ [.snapshot (s.spBytes u.pub (u.pubLine * 128) (u.lines * 128))
        ((List.range u.lines).map (fun j => s.isBad (lineKey u.pub (u.pubLine + j)))) s.opSeq] })))
  ∧ (exec (.coalesceWindowClose c i) s = .next (s.modSubs (fun u => u.pub == c && u.pubIdx == i && !u.closed)
      (fun u => { u with fifo := u.fifo.map (fun x => match x with
        | .line k b bad w o false n => .line k b bad w o (decide (o + 64 ≤ s.cycle)) n
        | x => x) })))
  ∧ (exec (.unsubsArrival c i) s = .next (s.modSubs (fun u => u.pub == c && u.pubIdx == i && u.leaving && !u.ask && !u.closed)
      (fun u => { u with fifo := closeAll u.fifo ++ [.mark], closed := true, leaving := true })))
  ∧ (s.subs.find? (fun v => v.sub == c && v.subIdx == i) = some u →
    (∀ data bad n, AppliesNext u (.snapshot data bad n) →
      let may := s.takesUpdates c = true ∧ s.fenced u.pub 5 n = false
        ∧ (s.core c).wordHeld (u.subLine * 128) (u.lines * 128) = false
      (¬ may → exec (.snapshotApply c i) s = .next s)
      ∧ (may → data.length = 128 * u.lines → Completes (.snapshotApply c i) s (fun t =>
        (∀ k < u.lines, t.isBad (lineKey c (u.subLine + k)) = bad[k]?.getD false
          ∧ (t.isEmpty (lineKey c (u.subLine + k)) = if u.fill then false else s.isEmpty (lineKey c (u.subLine + k)))
          ∧ ∀ j < 128, t.mem.read (spKey c ((u.subLine + k) * 128 + j)) = data[128 * k + j]?.getD 0)
        ∧ (∀ a, (a < spKey c (u.subLine * 128) ∨ spKey c ((u.subLine + u.lines) * 128) ≤ a) →
            t.mem.read a = s.mem.read a)
        ∧ NowWaits u.id (u.lost + 1) s t
        ∧ t.subs = s.subs.map (fun v => if v.id = u.id then afterUpdate { v with state := 2, lost := 0 } else v))))
    ∧ (∀ k bytes bad w o n, AppliesNext u (.line k bytes bad w o true n) →
      let may := s.takesUpdates c = true ∧ s.fenced u.pub 5 n = false
        ∧ (s.core c).wordHeld ((u.subLine + k) * 128) 128 = false
      (¬ may → exec (.subscriptionUpdateApply c i) s = .next s)
      ∧ (may → (bytes.map (·.1)).Nodup → (∀ y ∈ bytes, y.1 < 128) →
        Completes (.subscriptionUpdateApply c i) s (fun t =>
          (∀ j < 128, t.mem.read (spKey c ((u.subLine + k) * 128 + j)) =
            (Tbl.find bytes j).getD (s.mem.read (spKey c ((u.subLine + k) * 128 + j))))
          ∧ (∀ a, (a < spKey c ((u.subLine + k) * 128) ∨ spKey c ((u.subLine + k + 1) * 128) ≤ a) →
              t.mem.read a = s.mem.read a)
          ∧ (t.isBad (lineKey c (u.subLine + k)) =
              (bad || (s.isBad (lineKey c (u.subLine + k)) && bytes.length != 128)))
          ∧ (t.isEmpty (lineKey c (u.subLine + k)) = if u.fill then false else s.isEmpty (lineKey c (u.subLine + k)))
          ∧ NowWaits u.id 1 s t
          ∧ t.subs = s.subs.map (fun v => if v.id = u.id then afterUpdate v else v))))
    ∧ (∀ k bytes bad w o n, AppliesNext u (.line k bytes bad w o false n) →
      exec (.subscriptionUpdateApply c i) s = .next s)
    ∧ (∀ x r, u.fifo = x :: r → x ≠ .mark → (∀ k bytes bad w o n, x ≠ .line k bytes bad w o false n) →
      let away := (s.core c).halted.isSome = true ∨ (s.part (s.core c).part).pre ≠ .running
      let put (f : Sub → Sub) := exec (.backlogWrite c i) s = .next (s.modSubs (fun v => v.id == u.id)
        (fun v => f { v with fifo := v.fifo.drop 1 }))
      (¬ away → exec (.backlogWrite c i) s = .next s)
      ∧ (away → put (fun v => if v.state = 3 then { v with lost := v.lost + 1 }
        else if backlogSize (v.backlog ++ [x]) ≤ 65536 then { v with backlog := v.backlog ++ [x] }
        else { v with lost := v.lost + v.backlog.length + 1, backlog := [], state := 3 })))
    ∧ (∀ r, u.fifo = .mark :: r → u.backlog = [] → Completes (.removalMarkPass c i) s (fun t => t.mem = s.mem
        ∧ t.subs = s.subs.filter (fun v => v.id != u.id)
        ∧ (∀ d h, h ∈ (s.core d).holds → { h with upd := h.upd.map (fun y => if y.1 = u.id then (y.1, 0) else y) }
          ∈ (t.core d).holds)
        ∧ ∀ ln l, s.launches.find ln = some l → ∃ m, t.launches.find ln = some m
          ∧ m.pend = l.pend.map (fun y => if y.2.2.1 = u.id then (y.1, y.2.1, y.2.2.1, 0) else y)))
    ∧ (∀ x r, u.fifo = .mark :: r → u.backlog = x :: r → exec (.removalMarkPass c i) s = .next s))
  ∧ (∀ j a b, s.reds[i]? = some a → s.reds[j]? = some b →
    let merges := i ≠ j ∧ a.router = b.router ∧ a.addr = b.addr ∧ a.kind = b.kind
      ∧ (a.kind = .fp32 → a.det = false ∧ b.det = false)
    (¬ merges → exec (.reductionMerge i j) s = .next s)
    ∧ (merges → exec (.reductionMerge i j) s = .next { s with reds := dropAt (s.reds.set i
        { a with value := mergeSum a.kind a.value b.value, bad := a.bad || b.bad }) j }))

/-- The name wave of a launch and the name engine (R141-R165, R401, R439): a node's outputs are named in turn from their
inputs, a volatile node's from its serial and start, a steer's, merge's or exit's by its control word; a lookup hits or
misses; open names are resolved when their control or shape word has come; requests go against the edges; a stored
object is served token by token; a whole object that missed is retained; and the engine answers `nlook`, `nins` and
`nevict` and lets go of what a finished launch held. -/
def Obligations.NamesAndWave : Prop := ∀ (s : State) (ln n port : Nat),
  (s.waveAt ln n = none →
    exec (.nodeNaming ln n port) s = .next s ∧ exec (.nameLookup ln n port) s = .next s
    ∧ exec (.controlNameResolve ln n) s = .next s ∧ exec (.shapeWordArrival ln n port) s = .next s
    ∧ exec (.demandRequest ln n) s = .next s ∧ exec (.anchorServe ln n port) s = .next s
    ∧ exec (.retention ln n port) s = .next s)
  ∧ (∀ l g gn, s.waveAt ln n = some (l, g, gn) →
    let output := ∃ p ∈ gn.ports, p.out = true ∧ p.num = port
    ((g.kind n = 4 ∨ ¬ output ∨ nextPlace g n gn port l.objs = none) → exec (.nodeNaming ln n port) s = .next s)
    ∧ (∀ seg iter, g.kind n ≠ 4 → output → nextPlace g n gn port l.objs = some (seg, iter) →
      ((∃ c e, controlObj g l n seg iter = some c ∧ c.anchor = some e ∧ e.length ≠ 4) →
        exec (.nodeNaming ln n port) s = .next (s.stopBadControl l gn))
      ∧ ((∀ c e, controlObj g l n seg iter = some c → c.anchor = some e → e.length = 4) →
        exec (.nodeNaming ln n port) s = .next (s.nameAt l g n gn port seg iter)))
    ∧ (∀ seg iter, let v := s.nameOf l g n gn port seg iter
      let old := ((objsOf l.objs n port).find? (fun o => o.seg == seg && o.iter == iter)).getD
        { node := n, port := port, seg := seg, iter := iter }
      let new : Obj := { old with
        name := v, shape := ((s.shapeTok l g n gn port seg iter).bind id).map (·.value) }
      let u := (s.nameObj l.serial g new).noteControl l.part (dieAt s l gn) (controlObj g l n seg iter)
      ((v = .unknown ∨ v = old.name) → s.nameAt l g n gn port seg iter = s)
      ∧ (v ≠ .unknown → v ≠ old.name → s.nameAt l g n gn port seg iter =
        if v = .open_ then u.askCones l.serial g n gn new else u))
    ∧ (∀ seg iter prev, prevName l.objs n port seg = some prev → gn.kind ≠ 3 →
      let names := inNames g l n seg iter
      let ctl := g.edges.find? (fun e => e.dst == n && e.ctl)
      let merge := isSteer gn && laneEop gn == 0x42
      let v := s.nameOf l g n gn port seg iter
      (names ≠ [] → (∀ x ∈ names, x = .void) → merge = false → v = .void)
      ∧ (ctl = none → (∃ x ∈ names, x ≠ .void) → (∃ x ∈ names, x = .unknown ∨ x = .open_) → v = .unknown)
      ∧ (ctl = none → (∃ x ∈ names, x ≠ .void) → (∀ x ∈ names, x ≠ .unknown ∧ x ≠ .open_) → .poison ∈ names →
        v = .poison)
      ∧ (ctl = none → AllNamed names → v = s.madeName l g n gn port seg iter prev names [])
      ∧ (∀ e c, ctl = some e → g.control n = none → AllNamed names → inputObj g l.objs e seg iter = some c →
        (c.name = .void → v = .void)
        ∧ (∀ nm, c.name = .named nm → v = s.madeName l g n gn port seg iter prev (names ++ [.named nm]) []))
      ∧ (∀ e c pn, ctl = some e → g.control n ≠ none → AllNamed names →
        inputObj g l.objs e seg iter = some c → g.nodes[e.src]? = some pn →
        let tok := s.ctlToken l.part (dieAt s l gn) (g.turnOf l.objs e port iter) c
        (c.settled pn = false → v = .unknown)
        ∧ (c.settled pn = true → c.name = .void → v = .void)
        ∧ (c.settled pn = true → c.name = .poison → v = .poison)
        ∧ (c.settled pn = true → c.name ≠ .void → c.name ≠ .poison →
          (tok = none → v = .open_)
          ∧ (∀ t, tok = some t → t.poison = true → v = .poison)
          ∧ (∀ t, tok = some t → t.poison = false → merge = false →
            v = if (t.value = 0 ↔ port = 0) then s.madeName l g n gn port seg iter prev names [t.value] else .void)
          ∧ (∀ t, tok = some t → t.poison = false → merge = true →
            let pick := if t.value = 0 then (gn.word.extractLsb' 19 2).toNat else (gn.word.extractLsb' 17 2).toNat
            v = s.madeName l g n gn port seg iter prev (((g.dataInputs n).filter (fun e => e.dport == pick)).map
              (fun e => ((inputObj g l.objs e seg iter).map (·.name)).getD .unknown)) [t.value]))))
    ∧ (∀ seg iter, prevName l.objs n port seg = none → s.nameOf l g n gn port seg iter = .unknown)
    ∧ (∀ seg iter prev, prevName l.objs n port seg = some prev → gn.kind = 3 → g.crossing n = none →
      s.nameOf l g n gn port seg iter = if gn.vol = true then .named (of128 (hmac (s.domKey l.part) (volatileMsg gn port l)))
        else s.sourceName l n port seg)
    ∧ (∀ seg iter prev names ctl, let made := s.madeName l g n gn port seg iter prev names ctl
      let hash (shp : List W32) := Naming.named (of128 (hmac (s.domKey l.part)
        (if gn.vol = true then volatileMsg gn port l
          else nameMsg gn port seg (iter.getLast?.getD 0) l.liter prev (names.map nameBits) ctl shp)))
      (s.shapeTok l g n gn port seg iter = none → made = hash [])
      ∧ (s.shapeTok l g n gn port seg iter = some none → made = .open_)
      ∧ (∀ t, s.shapeTok l g n gn port seg iter = some (some t) → made = if t.poison then .poison else hash [t.value]))
    ∧ ((∀ o ∈ objsOf l.objs n port, o.looked = true ∨ o.known = false) → exec (.nameLookup ln n port) s = .next s)
    ∧ (∀ o, (objsOf l.objs n port).find? (fun o => !o.looked && o.known) = some o →
      ((memoisable gn port = false ∨ ∀ nm, o.name ≠ .named nm) →
        exec (.nameLookup ln n port) s = .next (s.setObj ln { o with looked := true }))
      ∧ (∀ nm u, memoisable gn port = true → o.name = .named nm → s.lookup (dieAt s l gn) l.part nm = (u, none) →
        exec (.nameLookup ln n port) s =
          .next ((u.modCounts l.part (fun k => { k with misses := k.misses + 1 })).setObj ln { o with looked := true }))
      ∧ (∀ nm u e, memoisable gn port = true → o.name = .named nm → s.lookup (dieAt s l gn) l.part nm = (u, some e) →
        let v := holding (u.modCounts l.part (fun k => { k with hits := k.hits + 1 })) (ln, l.part, nm)
        exec (.nameLookup ln n port) s = .next (State.setObj
          (if (s.entry l.part nm).any (fun x => x.kind == 2) = true then holding v (ln, l.part, e.name) else v) ln
            { o with looked := true, anchor := some e })))
    ∧ (let resolve (u : State) (o : Obj) := match u.launches.find ln with
        | some m => u.nameAt m g n gn o.port o.seg o.iter
        | none => u
      exec (.controlNameResolve ln n) s = .next ((s.objs ln).foldl (fun u o =>
          if o.node = n ∧ o.name = .open_ then resolve u o else u) s)
      ∧ exec (.shapeWordArrival ln n port) s = .next ((s.objs ln).foldl (fun u o =>
          if o.node = n ∧ o.port = port ∧ o.name = .open_ then resolve u o else u) s))
    ∧ (gn.kind = 4 → g.fromEnd n = true → exec (.demandRequest ln n) s = .next s)
    ∧ (gn.kind = 4 → g.fromEnd n = false → exec (.demandRequest ln n) s = .next (l.objs.foldl (fun u o =>
        if (∃ e ∈ g.into n, e.src = o.node ∧ e.sport = o.port) ∧ (g.nodes[o.node]?).any (fun pn => o.settled pn) = true
        then u.request ln g o else u) s))
    ∧ (gn.kind ≠ 4 → exec (.demandRequest ln n) s = .next (l.objs.foldl (fun u o =>
        if o.node ≠ n then u
        else if o.name = .open_ then u.askCones ln g n gn o
        else if o.asked = true ∧ o.anchor = none ∧ o.name ≠ .void ∧ o.settled gn = true then
          (g.into n).foldl (fun u e => u.askFor ln g (rankOf gn o.port) o.seg o.iter e) u
        else u) s))
    ∧ (∀ o c e, openObj (rankOf gn port) (g.inLoop n) ((objsOf l.objs n port).filter (fun o => !o.served)) = some o →
      s.nodeCore l gn = some c → o.anchor = some e →
      let fired := ∃ x ∈ l.objs, o.beside gn x = true ∧ x.wanted gn = true
      let out := outOf gn port
      let kinds := shapeKinds e.shape (e.length.toNat / 4)
      let i := o.toks.length
      let word := Instr.anchorServe ln n port
      let close (u : State) := u.modLaunch ln (fun m => { m with objs := m.objs.map (fun (x : Obj) =>
        if x.same o then { x with served := true } else x) })
      let ends (u : State) := if i + 1 = kinds.length ∧ rankOf gn port = 0 then close u else u
      let mark (r : Nat) : Token := { kind := BitVec.ofNat 3 r }
      let room (t : Token) := (s.core c).outRoom out t = true
      ((o.asked = false ∨ fired) → exec word s = .next s)
      ∧ (o.asked = true → ¬ fired →
        (∀ r, kinds[i]? = some (some r) → (¬ room (mark r) → exec word s = .next s)
          ∧ (room (mark r) → exec word s = .next (ends (s.outPut c out (mark r)))))
        ∧ (∀ u bytes bad, kinds[i]? = some none →
          s.gRead (dieOf c) l.part (e.va.toNat + 4 * ((kinds.take i).filter Option.isNone).length) 4 = some (u, bytes, bad) →
          (¬ room {} → exec word s = .next s)
          ∧ (room {} → exec word s = .next (ends ((if bad then u.markPoisoned l.part e.name else u).outPut c out
            { poison := bad, value := BitVec.ofNat 32 (leNat bytes) }))))
        ∧ (kinds[i]? = none → rankOf gn port = 0 → exec word s = .next (close s))
        ∧ (kinds[i]? = none → rankOf gn port ≠ 0 → (¬ room (mark (rankOf gn port)) → exec word s = .next s)
          ∧ (room (mark (rankOf gn port)) → exec word s = .next (close (s.outPut c out (mark (rankOf gn port))))))))
    ∧ ((objsOf l.objs n port).find? (s.due l g gn) = none → exec (.retention ln n port) s = .next s)
    ∧ (∀ o nm gp, (objsOf l.objs n port).find? (s.due l g gn) = some o →
      gn.ports.find? (fun p => p.out && p.num == port) = some gp →
      let bytes := (o.toks.filter (fun t => t.kind == 0)).flatMap (fun t => leBytes t.value.toNat 4)
      let skip := (∃ t ∈ o.toks, t.kind = 0 ∧ t.poison = true) ∨ l.cancel = true ∨ l.fault = true
        ∨ 2 ^ 26 < bytes.length ∨ followsShape gp.rank (o.shape.getD 0) o.toks = false
      let u := s.setObj ln { o with retained := true }
      ((∀ nm, o.name ≠ .named nm) → exec (.retention ln n port) s = .next u)
      ∧ (skip → o.name = .named nm → exec (.retention ln n port) s =
        .next (u.modCounts l.part (fun k => { k with skips := k.skips + 1 })))
      ∧ (¬ skip → o.name = .named nm → exec (.retention ln n port) s =
        .next (u.retain (dieAt u l gn) l.part nm bytes (o.shape.getD 0) (gp.b8 ++ gp.fmt)))))
  ∧ (∀ g (o : Obj), let named := s.nameObj ln g o
    named.objs ln = (match s.launches.find ln with | some l => putObj l.objs o | none => [])
    ∧ (named.mem = s.mem)
    ∧ ((∀ e ∈ g.edges, e.src = o.node → e.sport = o.port → g.fromEnd e.dst = false) → named.circuits = s.circuits)
    ∧ (∀ e, g.edges.filter (fun e => e.src == o.node && e.sport == o.port && g.fromEnd e.dst) = [e] →
      named.circuits = s.circuits.map (fun (x : Circuit) =>
        if x.launch = ln ∧ x.comes = none ∧ x.node = e.dst ∧ x.sink = e.dport
        then { x with names := x.names ++ [o.name.word] } else x)))
  ∧ (∀ g (o : Obj), let asked := s.setObj ln { o with asked := true }
    ((o.asked = true ∨ o.name = .unknown ∨ o.name = .void) → s.request ln g o = s)
    ∧ (o.asked = false → o.name ≠ .unknown → o.name ≠ .void →
      (g.kind o.node ≠ 4 → s.request ln g o = asked)
      ∧ (g.kind o.node = 4 →
        let k := ((objsOf (s.objs ln) o.node o.port).takeWhile (fun x => !x.same o)).length
        s.request ln g o = { asked with circuits := s.circuits.map (fun (x : Circuit) =>
          if x.launch = ln ∧ x.comes = none ∧ x.node = o.node ∧ x.sink = o.port
          then { x with asks := x.asks ++ [requestWord k k] } else x) })))
  ∧ (∀ (p i : Nat) (r : NameReq), (s.part p).nreqs[i]? = some r →
    (s.fenced r.core 1 r.seq = true → exec (.nameEngineStatus p i) s = .next s ∧ exec (.nlookDeposit p i) s = .next s)
    ∧ (∀ off, r.op = .look off → s.fenced r.core 1 r.seq = false →
      ((s.core r.core).wordHeld off 64 = true → exec (.nlookDeposit p i) s = .next s)
      ∧ (∀ u e, (s.core r.core).wordHeld off 64 = false → off % 64 = 0 →
        (u, e) = (if r.bad = true then (s, none) else s.lookup (dieOf r.core) p r.name) →
        Completes (.nlookDeposit p i) s (fun t =>
          t.mem = u.mem.writes (spKey r.core off) (match e with | some e => e.bytes | none => List.replicate 64 0)
          ∧ t.isEmpty (lineKey r.core (off / 128)) = false
          ∧ (r.bad = true → t.isBad (lineKey r.core (off / 128)) = true)
          ∧ (t.core r.core).chain r.chain =
              { (u.core r.core).chain r.chain with ld := ((u.core r.core).chain r.chain).ld - 1 }
          ∧ (t.part p).nreqs = (u.part p).nreqs.take i ++ (u.part p).nreqs.drop (i + 1))))
    ∧ (∀ block, r.op = .ins block → s.fenced r.core 1 r.seq = false →
      let e := (Entry.ofBytes block).1
      let gives (u : State) (st : Nat) := exec (.nameEngineStatus p i) s = .next (answeredBy u p i r st)
      (r.bad = true → gives s 5)
      ∧ (r.bad = false → Entry.malformed (Entry.ofBytes block) = true → gives s 7)
      ∧ (r.bad = false → Entry.malformed (Entry.ofBytes block) = false →
        ((s.entry p e.name).isSome = true → gives s 1)
        ∧ (s.entry p e.name = none → e.kind = 2 →
          ((∀ c, s.entry p e.fp = some c → c.kind ≠ 1) → gives s 3)
          ∧ (∀ c, s.entry p e.fp = some c → c.kind = 1 →
            if s.room p e = true then gives (s.insertEntry p e) 0 else gives s 2))
        ∧ (s.entry p e.name = none → e.kind ≠ 2 →
          (s.content (dieOf r.core) p e = none → gives s 4)
          ∧ (∀ u bytes bad, s.content (dieOf r.core) p e = some (u, bytes, bad) →
            let e' := { e with fp := fingerprint (((u.dom p).cfg.map (·.hashKey)).getD 0) bytes }
            if bad = true then gives u 5
            else if u.room p e' = true then gives (u.insertEntry p e') 0 else gives u 2))))
    ∧ (r.op = .evict → s.fenced r.core 1 r.seq = false →
      let gives (u : State) (st : Nat) := exec (.nameEngineStatus p i) s = .next (answeredBy u p i r st)
      (r.bad = true → gives s 5)
      ∧ (r.bad = false → s.entry p r.name = none → gives s 1)
      ∧ (∀ e, r.bad = false → s.entry p r.name = some e →
        if s.held p r.name = true then gives s 6 else gives (s.removeEntry p e) 0)))
  ∧ (∀ (p i : Nat) (h : Nat × Nat × BitVec 128), (s.holds.filter (fun h => h.2.1 == p))[i]? = some h →
    let ended := match s.launches.find h.1 with
      | some m => m.status ≠ none ∨ ∀ o ∈ m.objs, ∀ e nm, o.anchor = some e → o.name = .named nm →
        (e.name = h.2.2 ∨ nm = h.2.2) → o.served = true
      | none => True
    (ended → exec (.holdRelease p i) s = .next { s with holds := s.holds.erase h })
    ∧ (¬ ended → exec (.holdRelease p i) s = .next s))

/-- The Regulator's queues (R186, R189-R191, R202, R204, R250, R287): a descriptor write is taken or refused; a notify
moves the tail or is dropped; the free port grants a dispatch to the queue of the smallest pass value among those that
were backlogged before this tick and have something to dispatch; the command at head is read, read again after 256 ns
where its sequence word is stale, and torn after nine attempts; a malformed one writes a record with status 3, one for an
object that is still being loaded a record with status 2, the others run or cancel a job; and the buckets are refilled. -/
def Obligations.WorkQueues : Prop := ∀ (s : State) (q : Nat) (v : BitVec 256) (tail : BitVec 32),
  let x := queueAt s q
  let p := x.part.toNat
  let fits := v.toNat / 64 % 16 ≤ 12 ∧ v.toNat / 2 % 32 = 0 ∧ v.toNat / 65536 % 2 ^ 80 = 0
  ((s.bstate ≠ 3 ∨ 1024 ≤ q) → exec (.queueDescriptorWrite q v) s = .next s)
  ∧ (s.bstate = 3 → q < 1024 → ¬ fits →
    exec (.queueDescriptorWrite q v) s = .next (s.reportFw regSrc 14 6 0 (BitVec.ofNat 64 q)))
  ∧ (s.bstate = 3 → q < 1024 → fits → ∃ y, Settles (.queueDescriptorWrite q v) s (setQueue s q y)
      ∧ y.base.toNat = v.toNat / 2 ^ 192 ∧ y.part.toNat = v.toNat / 2048 % 32 ∧ (y.loc = true ↔ v.toNat / 1024 % 2 = 1)
      ∧ y.lsize.toNat = v.toNat / 64 % 16 ∧ (y.en = true ↔ v.toNat % 2 = 1)
      ∧ y.pass = x.pass ∧ y.active = x.active ∧ y.since = x.since
      ∧ (x.en = false → y.en = true → y.head = 0 ∧ y.tail = 0 ∧ y.seq = 0 ∧ y.stride = 2 ^ 20 ∧ y.torn = false
        ∧ y.tries = 0 ∧ y.cmd = none ∧ y.noted = none)
      ∧ ((x.en = true ∨ y.en = false) → y = { x with
        base := y.base, part := y.part, loc := y.loc, lsize := y.lsize, en := y.en }))
  ∧ ((x.en = false ∨ x.capacity < (tail - x.head).toNat) → exec (.queueNotify q tail) s = .next s)
  ∧ (x.en = true → (tail - x.head).toNat ≤ x.capacity →
    Settles (.queueNotify q tail) s (setQueue s q
      { x with tail := tail, torn := false, tries := if x.torn then 0 else x.tries, noted := some (s.dial, x.tail) }))
  ∧ ((s.grant ≠ none ∨ ∀ z ∈ s.queues, ¬ (z.2.active = true ∧ z.2.since < s.dial ∧ s.dispatchable z.1 = true)) →
    exec .strideDispatch s = .next s)
  ∧ (∀ z ∈ s.queues, s.grant = none → z.1 = q → z.2.active = true → z.2.since < s.dial → s.dispatchable q = true →
    (∀ w ∈ s.queues, w ≠ z → w.2.active = true → w.2.since < s.dial → s.dispatchable w.1 = true →
      z.2.pass < w.2.pass ∨ (z.2.pass = w.2.pass ∧ q < w.1)) →
    (s.queueNode q = none → exec .strideDispatch s = .next { s with grant := some (.command q) })
    ∧ (∀ gr n, s.queueNode q = some (gr, n) → exec .strideDispatch s =
        .next { (s.loadGraph gr).addStride q with grant := some (.node q gr n) }))
  ∧ (s.grant ≠ some (.command q) → exec (.commandRead q) s = .next s)
  ∧ (∀ u b bad w c, s.readRing x x.head = (u, b, bad) → u.parseCommand p b bad = (w, c) →
    let valid := bad = true ∨ field b 0 4 = x.seq.toNat
    let taken := setQueue w q { x with
      tries := 0, cmd := some c, stride := if c.ok then 2 ^ 20 / c.tickets else x.stride }
    let again := setQueue u q { x with tries := x.tries + 1, due := u.dial + 256 }
    let retries := x.tries ≠ 0 ∧ x.torn = false ∧ x.due ≤ s.dial ∧ (s.part p).pre = .running
    (s.grant = some (.command q) → valid → Settles (.commandRead q) s { taken.addStride q with grant := none })
    ∧ (s.grant = some (.command q) → ¬ valid → Settles (.commandRead q) s { again.addStride q with grant := none })
    ∧ (¬ retries → exec (.commandRetryTimeout q) s = .next s)
    ∧ (retries → x.tries < 9 → valid → Settles (.commandRetryTimeout q) s taken)
    ∧ (retries → x.tries < 9 → ¬ valid → Settles (.commandRetryTimeout q) s again)
    ∧ (retries → 9 ≤ x.tries → Settles (.commandRetryTimeout q) s
      (setQueue (s.report p regSrc 24 6 0 (BitVec.ofNat 64 q) 0 0) q { x with torn := true, tries := 0 })))
  ∧ (x.cmd = none → exec (.runJob q) s = .next s ∧ exec (.cancelJob q) s = .next s)
  ∧ (∀ c, x.cmd = some c →
    let u := setQueue s q { x with head := x.head + 1, seq := x.seq + 1, cmd := none }
    let may := c.op ≠ 2 ∧ (s.part p).pre = .running ∧ (s.part p).rep = none
    let loading := ∃ o, s.object c.obj = some o ∧ o.pending ≠ []
    (¬ may → exec (.runJob q) s = .next s)
    ∧ (may → c.ok = true → loading → Settles (.runJob q) s (State.complete
      (State.report { u with free := s.free + 1 } p regSrc 14 6 0 (Config.freeWord s.free) 0 0) p c.cpl c.job 2 0))
    ∧ (may → c.ok = true → ¬ loading → s.liveJob p c.job = none → (s.object c.obj).isSome = true →
      exec (.runJob q) s = .next (State.beginPhase { u with
        fresh := s.fresh + 1, jobs := s.jobs.put s.fresh (newJob q p s.fresh c) } s.fresh).refresh)
    ∧ (may → (c.ok = false ∨ (¬ loading ∧ (s.liveJob p c.job ≠ none ∨ s.object c.obj = none))) →
      Settles (.runJob q) s (u.complete p c.cpl c.job 3 0))
    ∧ (c.op ≠ 2 → exec (.cancelJob q) s = .next s)
    ∧ (c.op = 2 → c.ok = true → s.liveJob p c.job = none → Settles (.cancelJob q) s u)
    ∧ (∀ j, c.op = 2 → c.ok = true → s.liveJob p c.job = some j →
      Settles (.cancelJob q) s { u with cancels := s.cancels ++ [(4, j.1)] })
    ∧ (c.op = 2 → c.ok = false → Settles (.cancelJob q) s (u.complete p c.cpl c.job 3 0)))
  ∧ (∀ part cpl job st phase,
    (cpl.getLsbD 63 = true → s.complete part cpl job st phase = { s with
      mem := s.mem.writes (hostKey (cpl.toNat % 2 ^ 63)) (completionBytes job st phase s.dial) })
    ∧ (∀ u, cpl.getLsbD 63 = false → s.regWrite part cpl.toNat (completionBytes job st phase s.dial) false = some u →
      s.complete part cpl job st phase = u)
    ∧ (cpl.getLsbD 63 = false → s.regWrite part cpl.toNat (completionBytes job st phase s.dial) false = none →
      s.complete part cpl job st phase = s.report part regSrc 6 6 0 cpl 0 0))
  ∧ (s.dial < (s.refill + 1) * 1024 → exec .tokenRefill s = .next s)
  ∧ (∀ cs, s.parts.flatMap (fun y => (y.2.clusters.filter (· < 32)).flatMap (fun cl =>
        (List.range 96).map (cl * 96 + ·))) = cs → cs.Nodup → (s.refill + 1) * 1024 ≤ s.dial →
    Completes .tokenRefill s (fun t => t.refill = s.refill + 1 ∧ t.mem = s.mem ∧ ∀ c, t.core c =
      if c ∈ cs then { s.core c with
        bucket := min ((s.core c).bucket + refillShare s (s.core c)) (2 * refillShare s (s.core c)) }
      else s.core c))

/-- The nodes of a launch graph (R194-R197, R204, R437): a granted launch, copy, cond, loop, bar or done node is issued
and acts; a bad predicate word or an unmapped copy region faults the node; a copy moves its bytes; a loop's iteration
ends when every body node has finished; and a node that completes lowers its successors' counts, while one that faults
or is cancelled ends its graph so. -/
def Obligations.LaunchGraphNodes : Prop := ∀ (s : State) (gr n : Nat) (g : Graph) (x : Node) (j : Job),
  let I := issuedNode s gr n g
  let words : List (Nat × Instr) := [(1, .launchNodeDispatch gr n), (2, .copyNodeDispatch gr n), (3, .condNodeDispatch gr n),
    (4, .loopNodeDispatch gr n), (5, .barNodeDispatch gr n), (6, .doneNodeDispatch gr n)]
  (∀ w ∈ words, (∀ q, s.grant ≠ some (.node q gr n)) → exec w.2 s = .next s)
  ∧ (∀ w ∈ words, ∀ q, s.grant = some (.node q gr n) → s.graphs.find gr = some g → g.nodes[n]? = some x →
    s.jobs.find g.job = some j → x.kind = w.1 →
    (g.cancel = true ∨ g.fault = true ∨ g.status ≠ none ∨ x.st ≠ .ready) → Settles w.2 s { s with grant := none })
  ∧ (∀ o gg cs, Granted s gr n 1 g x j → I.launchCores g j.part x = some cs → s.object g.obj = some o →
    o.graphs[x.arg0.toNat]? = some gg →
    let l : Launch := ({
        serial := s.serial, job := g.job, gr := gr, node := n, part := j.part, obj := g.obj
        graph := x.arg0.toNat, base := x.arg1.toNat, det := (s.part j.part).det, dial0 := s.dial
        liter := loopIters g.nodes 5 n } : Launch)
    Settles (.launchNodeDispatch gr n) s (State.arm (State.modNode { I with
      serial := s.serial + 1, launches := s.launches.put s.serial l } gr n (fun y => { y with st := .running })) l o gg))
  ∧ (Granted s gr n 1 g x j → I.launchCores g j.part x = none →
    Settles (.launchNodeDispatch gr n) s (I.faultNode gr n 14 (BitVec.ofNat 64 n)))
  ∧ (Granted s gr n 2 g x j →
    Settles (.copyNodeDispatch gr n) s (I.modNode gr n (fun y => { y with st := .running })))
  ∧ (∀ u r, Granted s gr n 3 g x j → PredicateIs I j.part x.arg0 u r → match r with
      | .inl cause => Settles (.condNodeDispatch gr n) s (u.faultNode gr n cause x.arg0)
      | .inr v => Settles (.condNodeDispatch gr n) s
          (u.modNode gr n (fun y => { y with st := .ended .done, other := v == 0 })))
  ∧ (Granted s gr n 4 g x j → Settles (.loopNodeDispatch gr n) s (I.modGraph gr (fun h => { h with
      nodes := startBody s.dial n (h.nodes.modify n (fun y => { y with st := .running, iter := 0 })) })))
  ∧ (∀ d l (ns : List Node) i (y : Node), ns[i]? = some y → (startBody d l ns)[i]? = some (if y.encl = l + 1 then
      { y with
        count := bodyPreds ns i, live := bodyPreds ns i == 0, since := d, passed := false, other := false
        st := if bodyPreds ns i = 0 then .ready else .waiting }
      else y))
  ∧ (Granted s gr n 5 g x j → Settles (.barNodeDispatch gr n) s (I.modGraph gr passBars))
  ∧ (∀ (h : Graph) i y, h.nodes[i]? = some y → (passBars h).nodes[i]? = some (if y.kind = 5 ∧ y.st = .issued ∧
      (∀ k ∈ h.order2.takeWhile (· != i), ∀ z, h.nodes[k]? = some z → z.busy = false)
      then { y with st := .ended .done } else y))
  ∧ (Granted s gr n 6 g x j → Settles (.doneNodeDispatch gr n) s (I.modGraph gr (fun h => { h with
      nodes := h.nodes.modify n (fun y => { y with st := .ended .done, passed := true }), status := some .done })))
  ∧ (s.graphs.find gr = some g → g.nodes[n]? = some x → s.jobs.find g.job = some j →
    (∀ va, x.kind = 2 → x.st = .running → (s.firstBad j.part x.arg0.toNat x.arg2.toNat false = some va ∨
        (s.firstBad j.part x.arg0.toNat x.arg2.toNat false = none ∧ s.firstBad j.part x.arg1.toNat x.arg2.toNat true = some va)) →
      Settles (.copyNodeComplete gr n) s (s.faultNode gr n 6 (BitVec.ofNat 64 va)))
    ∧ (∀ u l, x.kind = 2 → x.st = .running → s.firstBad j.part x.arg0.toNat x.arg2.toNat false = none →
      s.firstBad j.part x.arg1.toNat x.arg2.toNat true = none → copyRead s j.part x.arg0.toNat x.arg2.toNat = (u, l) →
      Settles (.copyNodeComplete gr n) s ((copyWrite u j.part x.arg1.toNat l).endNode gr n .done))
    ∧ (∀ u r, x.kind = 4 → x.st = .running → g.cancel = false → g.fault = false → g.status = none →
      (∀ y ∈ g.nodes, y.encl = n + 1 → y.passed = true) → PredicateIs s j.part x.arg0 u r → match r with
        | .inl cause => Settles (.loopIterationEnd gr n) s (u.faultNode gr n cause x.arg0)
        | .inr v =>
          let w := u.modNode gr n (fun y => { y with iter := y.iter + 1 })
          if v = 0 ∨ x.arg2.toNat ≤ x.iter + 1 then Settles (.loopIterationEnd gr n) s (w.endNode gr n .done)
          else Settles (.loopIterationEnd gr n) s (w.modGraph gr (fun h => { h with nodes := startBody w.dial n h.nodes })))
    ∧ (x.passed = false →
      let m := s.modNode gr n (fun y => { y with passed := true })
      (x.st = .ended .done → Settles (.nodeFinish gr n) s
        ((m.modGraph gr (fun h => passBars { h with nodes := passNode s.dial n true h.nodes })).settleGraph gr))
      ∧ (x.st = .skipped → Settles (.nodeFinish gr n) s
        ((m.modGraph gr (fun h => { h with nodes := passNode s.dial n false h.nodes })).settleGraph gr))
      ∧ (x.st = .ended .faulted → Settles (.nodeFinish gr n) s
        (((m.modGraph gr (fun h => passBars { h with fault := true })).askCancel 2 gr).settleGraph gr))
      ∧ (x.st = .ended .cancelled → Settles (.nodeFinish gr n) s
        (((m.modGraph gr (fun h => passBars { h with cancel := true })).askCancel 2 gr).settleGraph gr))))

/-- The ends of launches, phases and jobs (R13, R18, R19, R190, R199, R215, R258-R260, R308, R437): a launch that is over
removes the subscriptions that stand, disarms its cores and takes its status; once its Dial value is past its record is
appended, in the order of Dial value and home source, and its node ends; a checkpoint is signed under the identity key
and appended; a phase that has ended begins the next with the pending deterministic mode; a job's completion record is
written; and a replica copy that completes adds its table entry, or the error is reported and the table stands. -/
def Obligations.JobsAndPhases : Prop := ∀ (s : State) (ln k p : Nat) (l : Launch) (j : Job) (c : CopyJob) (r : RepRun),
  (s.launches.find ln = some l → l.status = none →
    (s.launchOver l = false → exec (.launchCompletion ln) s = .next s)
    ∧ (s.launchOver l = true → l.cancel = false → s.subsStand l = true → exec (.launchCompletion ln) s =
      .next (s.modSubs (fun u => u.launch == ln && !u.closed)
        (fun u => { u with fifo := closeAll u.fifo ++ [.mark], closed := true, leaving := true })))
    ∧ (∀ u, s.launchOver l = true → (l.cancel = true ∨ s.subsStand l = false) → s.closeLaunch l = u →
      Settles (.launchCompletion ln) s u
      ∧ u.mem = s.mem ∧ u.subs = s.subs.filter (fun v => v.launch != l.serial)
      ∧ u.circuits = s.circuits.filter (fun v => v.launch != l.serial)
      ∧ (∀ m, s.launches.find l.serial = some m → ∃ m', u.launches.find l.serial = some m' ∧ m'.dial1 = s.dial
        ∧ m'.status = some (if l.fault = true then .faulted else if l.cancel = true then .cancelled else .done))
      ∧ (∀ d ∈ s.coresOf l.serial, (u.core d).armed = false ∧ (u.core d).rowArmed = false ∧ (u.core d).launch = 0
        ∧ (u.core d).tasks = [] ∧ (u.core d).region = {})
      ∧ ∀ d, d ∉ s.coresOf l.serial → u.core d = { s.core d with holds := (u.core d).holds }))
  ∧ (∀ st, s.launches.find ln = some l → l.status = some st →
    let waits := l.noted = true ∨ s.dial ≤ l.dial1 ∨ ∃ y ∈ s.launches, y.2.part = l.part ∧ y.2.status ≠ none ∧ y.2.noted = false
      ∧ (y.2.dial1 < l.dial1 ∨ (y.2.dial1 = l.dial1 ∧ s.homeSrc y.2 < s.homeSrc l))
    (waits → exec (.launchCompletion ln) s = .next s)
    ∧ (¬ waits → Settles (.launchCompletion ln) s
      (((s.record l st).modLaunch ln (fun m => { m with noted := true })).endNode l.gr l.node st)))
  ∧ (∀ st code, code = (match st with | .done => 0 | .cancelled => 1 | .faulted => 2) →
    let u := (s.toRing l.part (recordBytes s l code)).modPart l.part (fun y =>
      { y with prev := sha256 (recordBytes s l code), nrec := y.nrec + 1, lastSer := l.serial })
    (((s.part l.part).nrec + 1) % 256 ≠ 0 → s.record l st = u)
    ∧ (((s.part l.part).nrec + 1) % 256 = 0 → exec (.recordCheckpoint l.part) u = .next (s.record l st)))
  ∧ (∀ head, leBytes (s.part p).lastSer 8 ++ fit 32 (s.part p).prev ++ leBytes s.dial 8 = head →
    exec (.recordCheckpoint p) s = .next (State.toRing { s with free := s.free + 1 } p
      (head ++ ecdsaSign identityKey (sha256 head)
        ((List.range 4).map (fun i => 1 + Config.signNonce s.free i % (p256N - 1))) ++ List.replicate 16 0)))
  ∧ (s.jobs.find k = some j →
    let next := j.status = none ∧ j.fault = false ∧ j.cancel = false ∧ j.phase + 1 < j.phases.length
      ∧ (∀ x ∈ s.phaseGraphs k, x.2.status ≠ none) ∧ (s.part j.part).rep = none ∧ (s.part j.part).pre = .running
    let ends := j.status = none ∧ (∀ x ∈ s.phaseGraphs k, x.2.status ≠ none)
      ∧ (j.fault = true ∨ j.cancel = true ∨ j.phases.length ≤ j.phase + 1)
    (¬ next → exec (.phaseBoundary k) s = .next s)
    ∧ (next → exec (.phaseBoundary k) s =
        .next (((s.modPart j.part applyDet).modJob k (fun x => { x with phase := x.phase + 1 })).beginPhase k).refresh)
    ∧ (¬ ends → exec (.jobCompletion k) s = .next s)
    ∧ (∀ st code, ends →
      (st, code) = (if j.fault then (Status.faulted, 2) else if j.cancel then (.cancelled, 1) else (.done, 0)) →
      Settles (.jobCompletion k) s
        ((s.complete j.part j.cpl j.id code j.phase).modJob k (fun x => { x with status := some st }))))
  ∧ (∀ d, (s.part p).detNext = some d → s.modPart p applyDet = s.modPart p (fun x => { x with det := d, detNext := none }))
  ∧ (∀ e i, (s.part p).pendRep = [e] → s.freeReplica = some i →
    s.applyReplicas p = (withReplica s i e).modPart p (fun x => { x with pendRep := [] }))
  ∧ (s.copies.find? (fun c => c.part == p) = some c → (s.part p).rep = some r →
    let u : State := { s with copies := s.copies.filter (fun x => x.part != p) }
    (exec (.replicaCopyComplete p false) s =
      .next (repGo p r r.todo (u.report p regSrc 18 6 0 (BitVec.ofNat 64 c.expert) 0 0)).refresh)
    ∧ (∀ i o vcl core ncore first, s.replicas.find? (fun x => x.2.part == p && x.2.expert == c.expert && x.2.state == 1) = some o →
      (s.part p).reserve.find c.die = some (vcl, core, ncore, first) → s.freeReplica = some i →
      let n := Config.expertLines p c.expert
      let fits := o.2.ncore ≤ ncore ∧ s.replicaLine p c.die first + n ≤ 4096 ∧ o.2.line + n ≤ 4096
      (¬ fits → exec (.replicaCopyComplete p true) s =
        .next (repGo p r r.todo (u.report p regSrc 18 6 0 (BitVec.ofNat 64 c.expert) 0 0)).refresh)
      ∧ (fits → exec (.replicaCopyComplete p true) s = .next (repGo p
        { r with sums := r.sums.put c.die (Tbl.get 0 r.sums c.die + c.load) } r.todo
        (withReplica (u.copyExpert p n (s.replicaLine p c.die first) o.2 vcl core) i
          ⟨s.replicaLine p c.die first, c.expert, p, vcl, core, o.2.ncore, 2⟩)).refresh)))

/-- Pre-emption, resume and the debug halt (R201, R237-R243): a request stops the partition's cores; quiescence follows
when they are still, which a core is not while its task runs or a stream stands inside a line that it can go on with;
each cluster's state leaves its cores for the save area; a map of the saved shape takes the partition up again, as
faulted where software has changed the save area, and another map is refused; and a debug request waits for the running
task's next safe point. -/
def Obligations.PreemptionAndResume : Prop := ∀ (s : State) (p v cl c : Nat),
  PreemptAsked (.preemptRequest p) p s ∧ PreemptAsked (.requestPreemption p) p s
  ∧ ((s.part p).pre = .stopping → (∀ c ∈ s.partCores p, s.coreQuiet c = true) →
    exec (.quiescence p) s = .next (s.modPart p (fun x => { x with pre := .quiet, shape := x.clusters.map (· / 8) })))
  ∧ (((s.part p).pre ≠ .stopping ∨ ∃ c ∈ s.partCores p, s.coreQuiet c = false) → exec (.quiescence p) s = .next s)
  ∧ ((s.core c).firmware = false → ((s.core c).ctl.slot ≠ none ∨ (s.core c).halted ≠ none
      ∨ (s.core c).mx.pass ≠ [] ∨ ∃ x ∈ (s.core c).ports, s.midLine c x.1 x.2 = true) → s.coreQuiet c = false)
  ∧ ((s.part p).clusters[v]? = some cl → cl < 32 → ((s.part p).pre = .quiet ∨ (s.part p).pre = .saving) →
    (s.cores.map (·.1)).Nodup → (∀ x ∈ s.cores, clusterOf x.1 ≠ parkedCluster p v) → v < 32 →
    Completes (.clusterSave p v) s (fun t =>
      (t.part p).clusters = (s.part p).clusters.set v (parkedCluster p v)
      ∧ (∃ a ∈ t.saves, a.part = p ∧ a.live = true)
      ∧ ((t.part p).pre = .saved ∨ (t.part p).pre = .saving)
      ∧ ((t.part p).pre = .saved ↔ ∀ x ∈ (s.part p).clusters.set v (parkedCluster p v), 32 ≤ x)
      ∧ (∀ k < 96, t.core (cl * 96 + k) = (s.core (cl * 96 + k)).bare
          ∧ (t.core (parkedCluster p v * 96 + k)).ctl.g = (s.core (cl * 96 + k)).ctl.g
          ∧ (t.core (parkedCluster p v * 96 + k)).ctl.q = (s.core (cl * 96 + k)).ctl.q
          ∧ (t.core (parkedCluster p v * 96 + k)).ctl.pc = (s.core (cl * 96 + k)).ctl.pc
          ∧ (t.core (parkedCluster p v * 96 + k)).store = (s.core (cl * 96 + k)).store
          ∧ (t.core (parkedCluster p v * 96 + k)).queues = (s.core (cl * 96 + k)).queues
          ∧ (t.core (parkedCluster p v * 96 + k)).mx = (s.core (cl * 96 + k)).mx)))
  ∧ (∀ new, (s.part p).resumeRq = some new → (s.part p).pre = .saved →
    ((sameShape (s.part p).shape new = false ∨ (∃ x ∈ new, 32 ≤ x) ∨ ¬ new.Nodup) →
      exec (.resume p) s = .next (s.modPart p (fun x => { x with resumeRq := none })))
    ∧ (sameShape (s.part p).shape new = true → (∀ x ∈ new, x < 32) → new.Nodup →
      ((∃ c ∈ s.partCores p, (s.core c).owed ≠ []) → exec (.resume p) s = .next s)
      ∧ ((∀ c ∈ s.partCores p, (s.core c).owed = []) → Completes (.resume p) s (fun t =>
          t = ((s.restore p new).closeSave p).refresh
          ∧ (t.part p).clusters = new ∧ (t.part p).pre = .running ∧ (t.part p).resumeRq = none
          ∧ (∀ a ∈ t.saves, a.part = p → a.live = false)
          ∧ ∀ k j, s.jobs.find k = some j → t.jobs.find k = some { j with fault := j.fault || (decide (j.part = p ∧ j.status = none)
              && s.saves.any (fun a => a.part == p && a.live && !a.written.isEmpty)) }))))
  ∧ ((s.part p).resumeRq = none ∨ (s.part p).pre ≠ .saved → exec (.resume p) s = .next s)
  ∧ (∀ new, ((s.part p).pre = .running → exec (.requestResume p new) s = .next s)
    ∧ ((s.part p).pre ≠ .running →
      exec (.requestResume p new) s = .next (s.modPart p (fun x => { x with resumeRq := some new }))))
  ∧ ((s.core c).supervisor = false →
    exec (.debugHaltRequest c) s = .next (s.setCore c { s.core c with dbgReq := true }))

/-- Fault queues, mode and supervisor registers (R13, R160, R201, R202, R214-R216, R224, R228-R230, R243, R248, R251,
R253, R256, R259, R285, R313): while the firmware runs, a queue's descriptor is taken or refused, and a queue that it
turns off drops and counts what it holds; the first held record is written 256 ticks after its Dial value, with a
message where the ring was empty, and dropped and counted where the ring is full, off or unmapped; the mode takes `dbg`
at once and `det` at the next phase where a job lives; and each register that the supervisor writes takes its value and
each that it reads is sent. Before the firmware runs, nothing of the supervisor's has an effect. -/
def Obligations.SupervisorRegisters : Prop := ∀ (s : State) (p : Nat) (fq : FqId) (v : BitVec 128) (m : BitVec 64) (r : FRec),
  let q := fqAt s fq
  (s.bstate ≠ 3 → exec (.faultQueueDescriptorWrite fq v) s = .next s ∧ exec (.modeRegisterWrite p m) s = .next s
    ∧ (∀ cfg, exec (.nameDomainSet p cfg) s = .next s) ∧ ∀ w, exec (.supervisorRegisterWrite w) s = .next s)
  ∧ (s.bstate = 3 → (10 < v.toNat / 256 % 16 ∨ v.toNat / 4096 % 16 ≠ 0 ∨ v.toNat / 2 % 128 ≠ 0) →
    exec (.faultQueueDescriptorWrite fq v) s =
      .next (s.reportFw regSrc 14 6 0 (match fq with | .part p => BitVec.ofNat 64 p | .firmware => 0xFFFF)))
  ∧ (∀ x : FaultQ, s.bstate = 3 → v.toNat / 256 % 16 ≤ 10 → v.toNat / 4096 % 16 = 0 → v.toNat / 2 % 128 = 0 →
    x = { q with base := BitVec.ofNat 64 (v.toNat / 2 ^ 64), tail := BitVec.ofNat 32 (v.toNat / 2 ^ 32)
                 msix := BitVec.ofNat 16 (v.toNat / 2 ^ 16), lsize := BitVec.ofNat 4 (v.toNat / 256), en := v.toNat % 2 == 1 } →
    ((x.en = true ∨ q.held = []) → exec (.faultQueueDescriptorWrite fq v) s = .next (s.setFaultQ fq x))
    ∧ (x.en = false → q.held ≠ [] → Completes (.faultQueueDescriptorWrite fq v) s (fun t =>
        t = { s.setFaultQ fq { x with held := [], lost := true } with errors := t.errors }
        ∧ ∀ die, Tbl.get {} t.errors die = { Tbl.get {} s.errors die with
            dropped := (Tbl.get {} s.errors die).dropped + q.held.countP (fun r => r.src / 8192 == die) })))
  ∧ (q.held ≠ [] → ∃ r, FirstHeld q r)
  ∧ (q.held = [] → exec (.faultRecordWrite fq) s = .next s)
  ∧ (FirstHeld q r →
    (s.dial < r.dial + 256 → exec (.faultRecordWrite fq) s = .next s)
    ∧ (r.dial + 256 ≤ s.dial → (q.en = false ∨ 2 ^ (q.lsize.toNat + 6) ≤ (q.tail - q.head).toNat) →
      exec (.faultRecordWrite fq) s = .next (dropRecord s fq r))
    ∧ (r.dial + 256 ≤ s.dial → q.en = true → (q.tail - q.head).toNat < 2 ^ (q.lsize.toNat + 6) →
      (s.writeRec fq (q.base.toNat + 32 * (q.tail.toNat % 2 ^ (q.lsize.toNat + 6))) (r.bytes q.lost) = none →
        exec (.faultRecordWrite fq) s = .next (dropRecord s fq r))
      ∧ (∀ u, s.writeRec fq (q.base.toNat + 32 * (q.tail.toNat % 2 ^ (q.lsize.toNat + 6))) (r.bytes q.lost) = some u →
        let w := u.setFaultQ fq { q with held := q.held.erase r, tail := q.tail + 1, lost := false }
        exec (.faultRecordWrite fq) s = .next (if q.tail = q.head then
          { w with hostOut := w.hostOut ++ [.msix q.msix.toNat] } else w))))
  ∧ (s.jobs.any (fun j => j.2.part == p && j.2.status.isNone) = true →
    (s.bstate = 3 → exec (.modeRegisterWrite p m) s =
        .next (s.modPart p (fun x => { x with dbg := m.getLsbD 0, detNext := some (m.getLsbD 1) })))
    ∧ ∀ a b, exec (.setPartitionMode p a b) s = .next (s.modPart p (fun x => { x with dbg := a, detNext := some b })))
  ∧ (s.jobs.any (fun j => j.2.part == p && j.2.status.isNone) = false →
    (s.bstate = 3 → exec (.modeRegisterWrite p m) s =
        .next (s.modPart p (fun x => { x with dbg := m.getLsbD 0, det := m.getLsbD 1, detNext := none })))
    ∧ ∀ a b, exec (.setPartitionMode p a b) s = .next (s.modPart p (fun x => { x with dbg := a, det := b, detNext := none })))
  ∧ (s.bstate = 3 → ∀ cfg : DomainCfg,
    ((cfg.t < 3 ∨ 26 < cfg.t) → exec (.nameDomainSet p cfg) s = .next (tells s (.refused 4) 0))
    ∧ (3 ≤ cfg.t → cfg.t ≤ 26 → Completes (.nameDomainSet p cfg) s (fun t => t.mem = s.mem
      ∧ (t.part p).dom = { (s.part p).dom with cfg := some cfg, blocks := (t.part p).dom.blocks }
      ∧ ((∃ c, (s.part p).dom.cfg = some c ∧ c.heapBase = cfg.heapBase ∧ c.heapSize = cfg.heapSize) →
          (t.part p).dom.blocks = (s.part p).dom.blocks)
      ∧ (¬ (∃ c, (s.part p).dom.cfg = some c ∧ c.heapBase = cfg.heapBase ∧ c.heapSize = cfg.heapSize) →
          (t.part p).dom.blocks = [])
      ∧ (∀ q ≠ p, t.part q = s.part q) ∧ ∀ x, x ∈ t.caches ↔ x ∈ s.caches ∧ x.2.1 ≠ p)))
  ∧ (s.bstate = 3 →
    let sets (w : SupWrite) (t : State) : Prop := exec (.supervisorRegisterWrite w) s = .next t
    (∀ c w, sets (.debugEntry c w) (s.setCore c { s.core c with dbgEntry := w }))
    ∧ (∀ c num w, 0x180 ≤ num.toNat → num.toNat ≤ 0x19F → sets (.debugReg c num w)
        (s.setCore c { s.core c with dbgG := Tbl.set 0 (s.core c).dbgG (num.toNat - 0x180) w }))
    ∧ (∀ c w, sets (.debugReg c 0x1A0 w) (s.setCore c { s.core c with dbgQ := w }))
    ∧ (∀ cls, sets (.clusterMap p cls) (s.setMap p cls).refresh)
    ∧ (∀ a, sets (.pageRoot p a) (s.modPart p (fun x => { x with root := a })))
    ∧ (∀ k, sets (.memoryKey p k) (s.modPart p (fun x => { x with key := k })))
    ∧ (∀ a, sets (.share p a) (s.modPart p (fun x => { x with share := a, eshare := if s.shareAt = none then a else x.eshare })))
    ∧ (∀ a b, sets (.thresholds p a b) (s.modPart p (fun x => { x with copyThr := a, idleThr := b })))
    ∧ (∀ die a b c d, sets (.replicaReserve p die a b c d)
        (s.modPart p (fun x => { x with reserve := x.reserve.put die (a, b, c, d) })))
    ∧ (∀ x a b c line, sets (.original p x a b c line)
        (s.modPart p (fun y => { y with pendRep := y.pendRep ++ [⟨line, x, p, a, b, c, 1⟩] })))
    ∧ (∀ a, sets (.replicaPage p a) (s.modPart p (fun x => { x with repPage := a })))
    ∧ (∀ a b, sets (.recordRing p a b) (s.modPart p (fun x => { x with ring := a, ringSize := b, ringPos := 0 })))
    ∧ (∀ k, sets (.acceptKey p k) (s.modPart p (fun x => { x with accept := x.accept ++ [k] })))
    ∧ (∀ k, sets (.withdrawKey p k) (s.modPart p (fun x => { x with accept := x.accept.filter (· != k) })))
    ∧ (∀ a b c, sets (.bar2Window p a b c) (s.modPart p (fun x => { x with windows := x.windows ++ [(a, b, c)] })))
    ∧ (∀ h, sets (.faultHead fq h) (s.setFaultQ fq { q with head := h }))
    ∧ (∀ a, sets (.saveArea p a) (s.modPart p (fun x => { x with save := a })))
    ∧ (∀ a, sets (.chronographTrigger a) { s with chronTrg := some a })
    ∧ sets .snapshotRead { s with hostOut := s.hostOut ++ [.snapshots s.snaps], snaps := [] }
    ∧ (∀ l : List Nat, let n (i : Nat) : Nat := l[i]?.getD 0
        sets (.nameCounters p l) (s.modPart p (fun x => { x with
          dom := { x.dom with counts := ⟨n 0, n 1, n 2, n 3, n 4, n 5, n 6, n 7⟩ } })))
    ∧ sets (.nameCountersRead p) (tells s (.nameCounts p (s.part p).dom.counts) 0)
    ∧ sets (.dupsRead p) (tells s (.dups p (s.part p).dups.toNat) 0)
    ∧ (∀ n, sets (.cxlMemory n) { s with cxl := n })
    ∧ (∀ n, (n < 256 → sets (.domainNumber n) { s with domain := n }) ∧ (256 ≤ n → sets (.domainNumber n) s))
    ∧ (∀ c port link out toVc, (18 ≤ link ∨ (Tbl.get {} s.links link).session = 0 ∨ (Tbl.get {} s.links link).failed = true) →
        sets (.linkCircuit c port link out toVc) s)
    ∧ (∀ c e, Completes (.supervisorRegisterWrite (.firmwareCore c e)) s (fun t => t.mem = s.mem
        ∧ t.core c = { s.core c with firmware := true, ctl := { slot := some 64, run := s.fresh, pc := e } })))
  ∧ (∀ c port link out toVc, s.bstate = 3 → link < 18 → (Tbl.get {} s.links link).session ≠ 0 →
    (Tbl.get {} s.links link).failed = false →
    Completes (.supervisorRegisterWrite (.linkCircuit c port link out toVc)) s (fun t => t.mem = s.mem
      ∧ ∃ x : Circuit, t.circuits = s.circuits ++ [x] ∧ x.core = c ∧ x.launch = (s.core c).launch ∧ x.sink = port
        ∧ x.src = port ∧ x.toVc = (!out && toVc) ∧ x.goes = (if out then some link else none)
        ∧ x.comes = (if out then none else some link) ∧ x.over link = true ∧ x.stages.length = ringStages (c % 96) 0 + 5))

/-- Soft errors, links and the Chronograph (R232, R246-R248, R254): a scratchpad line and a 64-byte unit with an
uncorrectable error are poisoned and the rest of memory stands; a corrected error is counted; a structure's error is
noted for the use of the word or entry, or faults the graph; a link whose flit and 16 retransmissions of it in a row have
failed is declared failed with its circuits; sessions take keys before circuits are armed; and every source is latched at
the Dial value that was set, which is refused while another stands or is not read, or where it is past (the last is the
model's choice: notes/assumptions/91.md). -/
def Obligations.ErrorsLinksAndChronograph : Prop := ∀ (s : State) (c line unit die l i : Nat),
  let x : Link := Tbl.get {} s.links l
  (c < 3072 → line < 4096 → Completes (.uncorrectableError (.scratchpadLine c line)) s (fun t =>
    t.isBad (lineKey c line) = true
    ∧ (∀ a, (a < spKey c (line * 128) ∨ spKey c (line * 128) + 128 ≤ a) → t.mem.read a = s.mem.read a)
    ∧ (∀ m, m ≠ lineKey c line → t.isBad m = s.isBad m) ∧ t.cores = s.cores))
  ∧ (s.physical (unit * 64) = true → Completes (.hbmUncorrectableError unit) s (fun t =>
    Tbl.get false t.badUnit unit = true ∧ (∀ a, (a < unit * 64 ∨ unit * 64 + 64 ≤ a) → t.mem.read a = s.mem.read a)
    ∧ (∀ m ≠ unit, Tbl.get false t.badUnit m = Tbl.get false s.badUnit m) ∧ t.cores = s.cores))
  ∧ (s.physical (unit * 64) = true → 0x010000000000 ≤ unit * 64 →
    exec (.bar2HostAccess (.cxlPoison unit)) s = .next { s with badUnit := Tbl.set false s.badUnit unit true })
  ∧ ((s.physical (unit * 64) = false ∨ unit * 64 < 0x010000000000) → exec (.bar2HostAccess (.cxlPoison unit)) s = .next s)
  ∧ (∀ y, (s.caches.filter (fun x => x.1 == die))[i]? = some y →
    exec (.uncorrectableError (.nameCacheEntry die i)) s = .next { s with caches := s.caches.erase y })
  ∧ (exec (.uncorrectableError (.instructionWord c i)) s =
      .next (s.setCore c { s.core c with badWords := i :: (s.core c).badWords }))
  ∧ (exec (.uncorrectableError (.taskEntry c i)) s =
      .next (s.setCore c { s.core c with badTasks := i :: (s.core c).badTasks }))
  ∧ (exec (.uncorrectableError (.configRegion c)) s = .next (s.setCore c { s.core c with badCfg := true }))
  ∧ (∀ g j, s.graphs.find i = some g → s.jobs.find g.job = some j → g.status = none → g.loaded = true →
    exec (.uncorrectableError (.dependenceEntry i)) s = .next ((((s.report j.part regSrc 22 6 0
      (Config.structureNumber 3) 0 0).modGraph i (fun g => { g with fault := true })).askCancel 2 i).refresh))
  ∧ (exec (.correctedSingleBitError die) s =
      .next (s.countErr die (fun e => { e with corrected := e.corrected + 1 })))
  ∧ (4096 * ((s.core c).scrub + 1) ≤ s.cycle →
    exec (.scrub c) s = .next (s.setCore c { s.core c with scrub := (s.core c).scrub + 1 }))
  ∧ (s.cycle < 4096 * ((s.core c).scrub + 1) → exec (.scrub c) s = .next s)
  ∧ (x.failed = false → x.tries < 16 → exec (.linkRetransmit l) s = .next (withLink s l { x with tries := x.tries + 1 }))
  ∧ (x.failed = false → 16 ≤ x.tries → Completes (.linkRetransmit l) s (fun t => t.mem = s.mem
    ∧ t.links = s.links.put l { x with tries := x.tries + 1, failed := true }
    ∧ t.circuits = s.circuits.map (fun y => if y.over l then { y with failed := true } else y)))
  ∧ (x.failed = true → exec (.linkRetransmit l) s = .next s)
  ∧ ((∀ y ∈ s.circuits, y.over l = false) → exec (.keyExchange l) s = .next (withLink { s with free := s.free + 1, fresh := s.fresh + 1 } l
      { x with session := s.fresh, key := Config.sessionKey s.free, flits := 0 }))
  ∧ ((∃ y ∈ s.circuits, y.over l = true) → exec (.keyExchange l) s = .next s)
  ∧ (2 ^ 40 ≤ x.flits → exec (.keyUpdate l) s =
      .next (withLink { s with free := s.free + 1 } l { x with key := Config.sessionKey s.free, flits := 0 }))
  ∧ (x.flits < 2 ^ 40 → exec (.keyUpdate l) s = .next s)
  ∧ (∀ pb k w, (l < 18 → x.failed = false →
      exec (.bar2HostAccess (.flit l pb k w)) s = .next (withLink s l { x with rx := x.rx ++ [⟨pb, k, w⟩] }))
    ∧ ((18 ≤ l ∨ x.failed = true) → exec (.bar2HostAccess (.flit l pb k w)) s = .next s))
  ∧ (∀ t, s.snaps = [] → s.chronT = some t → s.dial = t → exec .chronographLatch s = .next { s with
      chronT := none, free := s.free + 1
      snaps := sources.map (fun src => (⟨t, src, (s.sourceBusy src).1, (s.sourceBusy src).2, Config.eventCount src s.free⟩ : Snapshot)) })
  ∧ ((s.chronT ≠ some s.dial ∨ s.snaps ≠ []) → exec .chronographLatch s = .next s)
  ∧ (∀ t : BitVec 64, (s.snaps = [] → s.chronT = none → s.dial ≤ t.toNat →
      exec (.setChronographT t) s = .next { s with chronT := some t.toNat })
    ∧ ((s.snaps ≠ [] ∨ s.chronT ≠ none ∨ t.toNat < s.dial) → exec (.setChronographT t) s = .next (tells s (.refused 0) 0)))

/-- The host's accesses, bring-up and attestation (R232, R235, R249-R251, R256-R258, R313): a device reset leaves reset's
state but for the host's memory and awaits an image; a length write in state 1 has the image checked and runs it or fails
with its code, and is ignored elsewhere; while the firmware does not run, BAR2 reaches the boot SRAM and no more; BAR0
shows `bstat`, and zeros in its reserved pages, takes a notify as 4 bytes at offset 0 of a doorbell page and the image's
length in `bstat`, and drops every other write; and each attestation is signed under the identity key. -/
def Obligations.HostAccessAndBringUp : Prop := ∀ (s : State) (len : BitVec 32) (off : Nat) (bytes nonce : List Byte) (ep : Bool),
  Completes .deviceReset s (fun t => t = { State.reset with
        bstate := 1, mem := t.mem, badHost := s.badHost, hostOut := s.hostOut
        agenda := s.agenda, seat := s.seat, free := s.free }
      ∧ (∀ a, t.mem.read a = if 2 ^ 64 ≤ a then s.mem.read a else 0))
  ∧ (s.bstate ≠ 1 → exec (.imageLengthWrite len) s = .next s)
  ∧ (s.bstate = 1 → (len = 0 ∨ 2 ^ 22 < len.toNat) →
    exec (.imageLengthWrite len) s = .next { s with blen := len, bstate := 4, berr := 1 })
  ∧ (s.bstate = 1 → len ≠ 0 → len.toNat ≤ 2 ^ 22 →
    let img := s.mem.reads (bootKey 0) len.toNat
    (Config.imageHeader img = none → exec (.imageLengthWrite len) s = .next { s with blen := len, bstate := 4, berr := 4 })
    ∧ ∀ pub sig, Config.imageHeader img = some (pub, sig) →
      (sha256 pub ≠ Config.maskRomKeyHash →
        exec (.imageLengthWrite len) s = .next { s with blen := len, bstate := 4, berr := 2 })
      ∧ (sha256 pub = Config.maskRomKeyHash → ecdsaVerify pub sig (sha256 img) = false →
        exec (.imageLengthWrite len) s = .next { s with blen := len, bstate := 4, berr := 3 })
      ∧ (sha256 pub = Config.maskRomKeyHash → ecdsaVerify pub sig (sha256 img) = true →
        exec (.imageLengthWrite len) s = .next { s with blen := len, bstate := 3, berr := 0, meas := sha256 img }))
  ∧ (s.bstate ≠ 3 → off + bytes.length ≤ 2 ^ 22 →
    exec (.bar2HostAccess (.read off bytes.length)) s =
        .next (tells s (.read (s.mem.reads (bootKey off) bytes.length) false) 0)
    ∧ exec (.bar2HostAccess (.write off bytes ep)) s =
        .next (if s.bstate = 2 then s else { s with mem := s.mem.writes (bootKey off) bytes }))
  ∧ (s.bstate ≠ 3 → 2 ^ 22 ≤ off →
    exec (.bar2HostAccess (.read off bytes.length)) s = .next (tells s (.read (List.replicate bytes.length 255) false) 0)
    ∧ Completes (.bar2HostAccess (.write off bytes ep)) s (fun t => t = s))
  ∧ (s.bstate = 3 →
    let ws := (List.range bytes.length).filterMap (fun i => (s.bar2 (off + i) true).map (fun a => (a, bytes[i]?.getD 0)))
    (ws = [] → exec (.bar2HostAccess (.write off bytes ep)) s = .next s)
    ∧ (ws ≠ [] → exec (.bar2HostAccess (.write off bytes ep)) s =
        .next ((s.barKeyed (ws.map (·.1)) true).physWrite (ws.map (·.1.1)) (ws.map (·.2)) ep)))
  ∧ (∀ n, s.bstate = 3 →
    let at_ := (List.range n).map (fun i => s.bar2 (off + i) false)
    let u := ((s.barKeyed (at_.filterMap id) false).physRead ((at_.filterMap id).map (·.1))).1
    exec (.bar2HostAccess (.read off n)) s = .next (tells u (.read
      (at_.map (fun a => match a with | some x => u.byteAt x.1 | none => 255))
      ((at_.filterMap id).any (fun a => Tbl.get false u.badUnit (a.1 / 64)))) 0))
  ∧ (∀ n, Completes (.bar2HostAccess (.bar0Read off n)) s (fun t => ∃ b, t = tells s (.read b false) 1 ∧ b.length = n
      ∧ ∀ i < n, 0x400000 ≤ off + i → b[i]? = some (if off + i < 0x400008 then
          BitVec.ofNat 8 ((s.blen.toNat * 2 ^ 32 + s.berr.toNat * 256 + s.bstate.toNat) / 256 ^ (off + i - 0x400000)) else 0)))
  ∧ (off < 0x400000 → off % 0x1000 = 0 → bytes.length = 4 →
      exec (.bar2HostAccess (.bar0Write off bytes)) s = exec (.queueNotify (off / 0x1000) (BitVec.ofNat 32 (leNat bytes))) s)
  ∧ (0x400000 ≤ off → off ≤ 0x400004 → 0x400008 ≤ off + bytes.length → exec (.bar2HostAccess (.bar0Write off bytes)) s
      = exec (.imageLengthWrite (BitVec.ofNat 32 (leNat ((bytes.drop (0x400004 - off)).take 4)))) s)
  ∧ (((off < 0x400000 ∧ (off % 0x1000 ≠ 0 ∨ bytes.length ≠ 4)) ∨ 0x400004 < off
      ∨ (0x400000 ≤ off ∧ off + bytes.length < 0x400008)) → exec (.bar2HostAccess (.bar0Write off bytes)) s = .next s)
  ∧ exec (.bar2HostAccess (.ideKey bytes)) s = .next { s with ideKey := bytes }
  ∧ (Completes (.bar2HostAccess (.hostMemory off bytes ep)) s (fun t =>
      t = { s with mem := s.mem.writes (hostKey off) bytes, badHost := t.badHost }
      ∧ (∀ i < bytes.length, Tbl.get false t.badHost ((off + i) / 64) = ep)
      ∧ ∀ u, (∀ i < bytes.length, (off + i) / 64 ≠ u) → Tbl.get false t.badHost u = Tbl.get false s.badHost u))
  ∧ (let m := fit 32 s.meas
    let sig := ecdsaSign identityKey (sha256 (m ++ nonce))
      ((List.range 4).map (fun i => 1 + Config.signNonce s.free i % (p256N - 1)))
    let a := tells s (.spdm (m ++ sig)) 1
    exec (.getMeasurements nonce) s = .next a ∧ exec (.challenge nonce) s = .next a)
  ∧ exec .getCertificate s = .next (tells s (.spdm (publicKey identityKey)) 0)

/-- Management, clocks and objects (R201, R261, R262, R285-R287): a limit or a pair of frequencies outside its range is
refused and changes nothing; each monitor window moves a cluster's clock by 25 MHz within its bounds, never up while the
power is over the limit, and each millisecond from above the limit until below it moves every clock down; and an object is
loaded when it passes every check, else refused with the first check that failed, and unloaded unless a live job names it. -/
def Obligations.ManagementAndObjects : Prop := ∀ (s : State) (die w cl lo hi a b p k : Nat) (file : List Byte),
  let x := s.cluster cl
  exec (.readTemperatures die) s = .next (tells s (.temperatures die (Config.temperature die s.free)) 1)
  ∧ exec (.readErrorCounters die) s = .next (tells s (.errors die (Tbl.get {} s.errors die)) 0)
  ∧ ((200 ≤ w ∧ w ≤ 2400) → exec (.setPowerLimit w) s = .next { s with power := w })
  ∧ ((w < 200 ∨ 2400 < w) → exec (.setPowerLimit w) s = .next (tells s (.refused 1) 0))
  ∧ ((800 ≤ lo ∧ lo ≤ hi ∧ hi ≤ 3300 ∧ lo % 25 = 0 ∧ hi % 25 = 0) → exec (.setDvfsFloorCeiling cl lo hi) s =
      .next (s.modCluster cl (fun y => { y with lo := lo, hi := hi, mhz := max lo (min hi y.mhz) })))
  ∧ (¬ (800 ≤ lo ∧ lo ≤ hi ∧ hi ≤ 3300 ∧ lo % 25 = 0 ∧ hi % 25 = 0) →
      exec (.setDvfsFloorCeiling cl lo hi) s = .next (tells s (.refused 2) 0))
  ∧ (65536 * (x.win + 1) ≤ s.dial → ∃ y, exec (.dvfsMonitorWindow cl a b) s = .next (s.modCluster cl (fun _ => y))
      ∧ y = { x with win := x.win + 1, mhz := y.mhz }
      ∧ (b < 4 * a → y.mhz = max x.lo (x.mhz - 25))
      ∧ (20 * a < b → s.overPow = false → y.mhz = min x.hi (x.mhz + 25))
      ∧ (4 * a ≤ b → (b ≤ 20 * a ∨ s.overPow = true) → y.mhz = x.mhz))
  ∧ (s.dial < 65536 * (x.win + 1) → exec (.dvfsMonitorWindow cl a b) s = .next s)
  ∧ (1000000 * (s.powerMs + 1) ≤ s.dial →
    ((w < s.power ∨ (w = s.power ∧ s.overPow = false)) →
      exec (.powerLimitStep w) s = .next { s with powerMs := s.powerMs + 1, overPow := false })
    ∧ ((s.power < w ∨ (w = s.power ∧ s.overPow = true)) →
        Completes (.powerLimitStep w) s (fun t => t.mem = s.mem ∧ t.cores = s.cores ∧ t.overPow = true
        ∧ ∀ c, t.cluster c = if c < 32 then { s.cluster c with mhz := max (s.cluster c).lo ((s.cluster c).mhz - 25) } else s.cluster c)))
  ∧ (s.dial < 1000000 * (s.powerMs + 1) → exec (.powerLimitStep w) s = .next s)
  ∧ (s.bstate ≠ 3 → exec (.objectLoad p file) s = .next s ∧ exec (.objectUnload p k) s = .next s)
  ∧ (∀ y, s.bstate = 3 → s.objects.find? (fun o => o.part == p && !o.pending.isEmpty && o.file == file) = some y →
      exec (.objectLoad p file) s = .next (s.continueLoad p y))
  ∧ (s.bstate = 3 → (∀ o ∈ s.objects, o.part = p → o.file = file → o.pending = []) →
    (loadFault (s.part p).clusters.length (s.part p).accept file = none →
      exec (.objectLoad p file) s = .next (s.addObject p file))
    ∧ (∀ c i, loadFault (s.part p).clusters.length (s.part p).accept file = some (c, i) →
      (c ≠ 7 ∨ check7rank (clfGraphs (clfSections file)) = none) →
      exec (.objectLoad p file) s = .next (tells s (.loadError c i) 0))
    ∧ (∀ i, loadFault (s.part p).clusters.length (s.part p).accept file = some (7, i) →
      check7rank (clfGraphs (clfSections file)) ≠ none →
      exec (.objectLoad p file) s =
        .next ((tells s (.loadError 7 i) 1).report p regSrc 14 6 0 (Config.freeWord s.free) 0 0)))
  ∧ (s.bstate = 3 → (∃ j ∈ s.jobs, j.2.obj = k ∧ j.2.status = none) →
      exec (.objectUnload p k) s = .next (tells s (.refused 3) 0))
  ∧ (s.bstate = 3 → (∀ j ∈ s.jobs, j.2.obj = k → j.2.status ≠ none) → Completes (.objectUnload p k) s (fun t =>
      t = { s with objects := t.objects } ∧ ∀ o, o ∈ t.objects ↔ o ∈ s.objects ∧ ¬ (o.id = k ∧ o.part = p)))

/-- The byte formats b8pP (R28-R30): sign, exponent field and trailing significand by variant, the special codes and no
others, and the value of every other code. A format has no negative zero, and the codes of its largest finite values are
those of the table. -/
def Obligations.ByteFormats : Prop := ∀ (p : Nat) (nat inf : Bool) (code : Nat), 1 ≤ p → p ≤ 7 → code < 256 →
  let f : B8 := ⟨p, nat, inf⟩
  let neg := !nat && decide (128 ≤ code)
  let mag := if nat then code else code % 128
  let ex := mag / 2 ^ (p - 1)
  let t := mag % 2 ^ (p - 1)
  let bias := 2 ^ ((if nat then 9 - p else 8 - p) - 1)
  (if code = (if nat then 0xFF else 0x80) then f.decode code = .nan false
    else if inf = true ∧ code = (if nat then 0xFE else 0x7F) then f.decode code = .inf false
    else if inf = true ∧ nat = false ∧ code = 0xFF then f.decode code = .inf true
    else if ex ≠ 0 then f.decode code = .fin neg (2 ^ (p - 1) + t) ((ex : Int) - bias - ((p : Int) - 1))
    else f.decode code = .fin neg t (1 - (bias : Int) - ((p : Int) - 1)))
  ∧ (∀ n e, f.decode code = .fin n 0 e → code = 0 ∧ n = false)
  ∧ (∀ n m e n' m' e', f.decode code = .fin n m e → inf = false →
      f.decode (if nat then 0xFE else 0x7F) = .fin n' m' e' →
      (m : Rat) * 2 ^ e ≤ (m' : Rat) * 2 ^ e' ∧ n' = false ∧ (nat = false → f.decode 0xFF = .fin true m' e'))
end

