-- ==== Sys2Proof/Laws/Tbl.lean ====
section
/-!
SUPPORT. Sparse tables and memory: reading after writing, and that every write keeps the canonical form.
-/

namespace Sys2Proof.Machine

variable {α : Type}

/-! ## Reading a table after an update -/

@[simp] theorem Tbl.get_nil (d : α) (k : Nat) : Tbl.get d [] k = d := rfl
@[simp] theorem Tbl.find_nil (k : Nat) : Tbl.find ([] : Tbl α) k = none := rfl

theorem Tbl.get_cons (d : α) (x : Nat × α) (t : Tbl α) (k : Nat) :
    Tbl.get d (x :: t) k = if x.1 = k then x.2 else Tbl.get d t k := rfl

theorem Tbl.find_cons (x : Nat × α) (t : Tbl α) (k : Nat) :
    Tbl.find (x :: t) k = if x.1 = k then some x.2 else Tbl.find t k := rfl

/-- A table's value is what it lists, or the default. -/
theorem Tbl.get_eq_find (d : α) (t : Tbl α) (k : Nat) : Tbl.get d t k = (Tbl.find t k).getD d := by
  induction t with
  | nil => rfl
  | cons x r ih =>
    rw [Tbl.get_cons, Tbl.find_cons]
    split <;> simp [ih]

/-- Reading a table in which every value went through a function of its key that keeps the default. -/
theorem Tbl.get_mapAt {d : α} (f : Nat → α → α) (t : Tbl α) (k : Nat) (hd : f k d = d) :
    Tbl.get d (t.map (fun x => (x.1, f x.1 x.2))) k = f k (Tbl.get d t k) := by
  induction t with
  | nil => exact hd.symm
  | cons x r ih =>
    rw [List.map_cons, Tbl.get_cons, Tbl.get_cons, ih]
    split <;> simp_all

/-- Reading a table in which every value went through a function that keeps the default. -/
theorem Tbl.get_map {d : α} (f : α → α) (hd : f d = d) (t : Tbl α) (k : Nat) :
    Tbl.get d (t.map (fun x => (x.1, f x.2))) k = f (Tbl.get d t k) := Tbl.get_mapAt (fun _ => f) t k hd

/-- What a table lists after a key has been listed. -/
theorem Tbl.find_put (t : Tbl α) (k : Nat) (v : α) (j : Nat) :
    Tbl.find (t.put k v) j = if j = k then some v else Tbl.find t j := by
  induction t with
  | nil => simp [Tbl.put, Tbl.find_cons, eq_comm]
  | cons x r ih =>
    simp only [Tbl.put]
    split
    · simp [Tbl.find_cons, eq_comm]
    · split
      · rename_i h; subst h
        by_cases h : j = x.1
        · simp [Tbl.find_cons, h]
        · simp [Tbl.find_cons, h, Ne.symm h]
      · rename_i h1 h2
        by_cases h : x.1 = j
        · subst h; simp [Tbl.find_cons, Ne.symm h2]
        · simp [Tbl.find_cons, h, ih]

/-- What a table reads as after a key has been listed. -/
theorem Tbl.get_put (d : α) (t : Tbl α) (k : Nat) (v : α) (j : Nat) :
    Tbl.get d (t.put k v) j = if j = k then v else Tbl.get d t j := by
  rw [Tbl.get_eq_find, Tbl.find_put, Tbl.get_eq_find]
  split <;> rfl

@[simp] theorem Tbl.get_put_self (d : α) (t : Tbl α) (k : Nat) (v : α) : Tbl.get d (t.put k v) k = v := by
  rw [Tbl.get_put, if_pos rfl]

theorem Tbl.get_put_of_ne (d : α) (t : Tbl α) {k j : Nat} (v : α) (h : j ≠ k) :
    Tbl.get d (t.put k v) j = Tbl.get d t j := by
  rw [Tbl.get_put, if_neg h]

@[simp] theorem Tbl.find_put_self (t : Tbl α) (k : Nat) (v : α) : Tbl.find (t.put k v) k = some v := by
  rw [Tbl.find_put, if_pos rfl]

/-- Listing a key twice keeps the second value. -/
@[simp] theorem Tbl.put_put (t : Tbl α) (k : Nat) (v w : α) : (t.put k v).put k w = t.put k w := by
  induction t with
  | nil => simp [Tbl.put]
  | cons x r ih =>
    simp only [Tbl.put]
    split
    · simp [Tbl.put]
    · split
      · simp [Tbl.put]
      · rename_i h1 h2
        simp [Tbl.put, h1, h2, ih]

/-- What a table lists after a key has been dropped. -/
theorem Tbl.find_drop (t : Tbl α) (k j : Nat) : Tbl.find (t.drop k) j = if j = k then none else Tbl.find t j := by
  induction t with
  | nil => simp [Tbl.drop]
  | cons x r ih =>
    simp only [Tbl.drop] at ih
    by_cases hj : j = k
    · subst hj
      rw [if_pos rfl] at ih
      by_cases hx : x.1 = j <;> simp [Tbl.drop, hx, ih, Tbl.find_cons]
    · rw [if_neg hj] at ih
      by_cases hx : x.1 = k
      · simp [Tbl.drop, hx, ih, hj, Tbl.find_cons, Ne.symm hj]
      · simp [Tbl.drop, hx, ih, hj, Tbl.find_cons]

theorem Tbl.get_drop (d : α) (t : Tbl α) (k j : Nat) :
    Tbl.get d (t.drop k) j = if j = k then d else Tbl.get d t j := by
  rw [Tbl.get_eq_find, Tbl.find_drop, Tbl.get_eq_find]
  split <;> rfl

/-! ## The canonical form (notes/assumptions/5.md) -/

theorem Tbl.mem_put {t : Tbl α} {k : Nat} {v : α} {x : Nat × α} (h : x ∈ t.put k v) : x = (k, v) ∨ x ∈ t := by
  induction t with
  | nil => simpa [Tbl.put] using h
  | cons y r ih =>
    simp only [Tbl.put] at h
    split at h
    · simpa using h
    · split at h
      · rename_i hk; subst hk
        rcases List.mem_cons.1 h with h | h
        · exact Or.inl h
        · exact Or.inr (List.mem_cons_of_mem _ h)
      · rcases List.mem_cons.1 h with h | h
        · exact Or.inr (by simp [h])
        · rcases ih h with h | h
          · exact Or.inl h
          · exact Or.inr (List.mem_cons_of_mem _ h)

theorem Tbl.mem_drop {t : Tbl α} {k : Nat} {x : Nat × α} (h : x ∈ t.drop k) : x ∈ t :=
  List.mem_of_mem_filter h

theorem Tbl.pairwise_put {t : Tbl α} (k : Nat) (v : α) (h : t.Pairwise (fun x y => x.1 < y.1)) :
    (t.put k v).Pairwise (fun x y => x.1 < y.1) := by
  induction t with
  | nil => simp [Tbl.put]
  | cons y r ih =>
    rw [List.pairwise_cons] at h
    simp only [Tbl.put]
    split
    · rename_i hk
      refine List.pairwise_cons.2 ⟨fun z hz => ?_, List.pairwise_cons.2 h⟩
      rcases List.mem_cons.1 hz with hz | hz
      · simpa [hz] using hk
      · have := h.1 z hz; simp only at *; omega
    · split
      · rename_i hk; subst hk
        exact List.pairwise_cons.2 ⟨h.1, h.2⟩
      · refine List.pairwise_cons.2 ⟨fun z hz => ?_, ih h.2⟩
        rcases Tbl.mem_put hz with hz | hz
        · subst hz; simp only; omega
        · exact h.1 z hz

theorem Tbl.pairwise_drop {t : Tbl α} (k : Nat) (h : t.Pairwise (fun x y => x.1 < y.1)) :
    (t.drop k).Pairwise (fun x y => x.1 < y.1) := h.filter _

/-- A write keeps the canonical form. -/
theorem Tbl.wf_set [DecidableEq α] {d : α} {t : Tbl α} (k : Nat) (v : α) (h : Tbl.wf d t) :
    Tbl.wf d (Tbl.set d t k v) := by
  unfold Tbl.set
  split
  · exact ⟨Tbl.pairwise_drop k h.1, fun x hx => h.2 x (Tbl.mem_drop hx)⟩
  · rename_i hv
    refine ⟨Tbl.pairwise_put k v h.1, fun x hx => ?_⟩
    rcases Tbl.mem_put hx with hx | hx
    · subst hx; exact hv
    · exact h.2 x hx

/-- A written key reads as the value, every other key as before. -/
theorem Tbl.get_set [DecidableEq α] (d : α) (t : Tbl α) (k : Nat) (v : α) (j : Nat) :
    Tbl.get d (Tbl.set d t k v) j = if j = k then v else Tbl.get d t j := by
  unfold Tbl.set
  split
  · rename_i hv; subst hv; exact Tbl.get_drop v t k j
  · exact Tbl.get_put d t k v j

@[simp] theorem Tbl.get_set_self [DecidableEq α] (d : α) (t : Tbl α) (k : Nat) (v : α) :
    Tbl.get d (Tbl.set d t k v) k = v := by rw [Tbl.get_set, if_pos rfl]

theorem Tbl.get_set_of_ne [DecidableEq α] (d : α) (t : Tbl α) {k j : Nat} (v : α) (h : j ≠ k) :
    Tbl.get d (Tbl.set d t k v) j = Tbl.get d t j := by rw [Tbl.get_set, if_neg h]

/-! ## Memory -/

/-- A written byte reads back, and every other address reads as before. -/
theorem Memory.read_write (m : Memory) (a : Nat) (b : Byte) (x : Nat) :
    (m.write a b).read x = if x = a then b else m.read x := Tbl.get_set _ m a b x

theorem Memory.read_write_of_ne (m : Memory) {a x : Nat} (b : Byte) (h : x ≠ a) :
    (m.write a b).read x = m.read x := Tbl.get_set_of_ne Memory.blank m b h

theorem Memory.wf_write {m : Memory} (a : Nat) (b : Byte) (h : m.wf) : (m.write a b).wf := Tbl.wf_set a b h

theorem Memory.wf_writes {m : Memory} (a : Nat) (l : List Byte) (h : m.wf) : (m.writes a l).wf := by
  induction l generalizing m a with
  | nil => exact h
  | cons b r ih => exact ih (a + 1) (Memory.wf_write a b h)

/-- Writes of a list of cells keep the canonical form. -/
theorem Memory.wf_foldl {β : Type} (f : β → Nat) (g : β → Byte) (l : List β) {m : Memory} (h : m.wf) :
    (l.foldl (fun m x => Memory.write m (f x) (g x)) m).wf := by
  induction l generalizing m with
  | nil => exact h
  | cons x r ih => exact ih (Memory.wf_write (f x) (g x) h)

theorem Memory.read_foldl_of_ne {β : Type} (f : β → Nat) (g : β → Byte) (l : List β) (m : Memory) (a : Nat)
    (h : ∀ x ∈ l, f x ≠ a) : (l.foldl (fun m x => Memory.write m (f x) (g x)) m).read a = m.read a := by
  induction l generalizing m with
  | nil => rfl
  | cons x r ih =>
    rw [List.foldl_cons, ih _ (fun y hy => h y (by simp [hy])),
      Memory.read_write_of_ne m (g x) (Ne.symm (h x (by simp)))]

theorem Memory.read_writes_of_lt (m : Memory) (a : Nat) (l : List Byte) {x : Nat} (h : x < a ∨ a + l.length ≤ x) :
    (m.writes a l).read x = m.read x := by
  induction l generalizing m a with
  | nil => rfl
  | cons b r ih =>
    simp only [List.length_cons] at h
    rw [Memory.writes, ih _ _ (by omega), Memory.read_write_of_ne m b (by omega)]

/-- Bytes written at rising addresses read back. -/
theorem Memory.reads_writes (m : Memory) (a : Nat) (l : List Byte) :
    (m.writes a l).reads a l.length = l := by
  induction l generalizing m a with
  | nil => rfl
  | cons b r ih =>
    simp only [Memory.writes, List.length_cons, Memory.reads]
    rw [ih, Memory.read_writes_of_lt _ _ _ (by omega), Memory.read_write, if_pos rfl]

theorem Memory.wf_nil : Memory.wf [] := by decide

end Sys2Proof.Machine
end

