-- ==== Sys2Proof/Laws/State.lean ====
section
/-!
SUPPORT. What each update of the state leaves of each field, and what it makes of the field it writes.
-/

namespace Sys2Proof.Machine

variable (s : State)

/-! ### `setCore` -/

@[simp] theorem State.setCore_agenda (c : Nat) (k : Core) : (s.setCore c k).agenda = s.agenda := rfl
@[simp] theorem State.setCore_seat (c : Nat) (k : Core) : (s.setCore c k).seat = s.seat := rfl
@[simp] theorem State.setCore_opSeq (c : Nat) (k : Core) : (s.setCore c k).opSeq = s.opSeq := rfl
@[simp] theorem State.setCore_free (c : Nat) (k : Core) : (s.setCore c k).free = s.free := rfl
@[simp] theorem State.setCore_cycle (c : Nat) (k : Core) : (s.setCore c k).cycle = s.cycle := rfl
@[simp] theorem State.setCore_mem (c : Nat) (k : Core) : (s.setCore c k).mem = s.mem := rfl
@[simp] theorem State.setCore_empty (c : Nat) (k : Core) : (s.setCore c k).empty = s.empty := rfl
@[simp] theorem State.setCore_badLine (c : Nat) (k : Core) : (s.setCore c k).badLine = s.badLine := rfl
@[simp] theorem State.setCore_readers (c : Nat) (k : Core) : (s.setCore c k).readers = s.readers := rfl
@[simp] theorem State.setCore_badUnit (c : Nat) (k : Core) : (s.setCore c k).badUnit = s.badUnit := rfl
@[simp] theorem State.setCore_badHost (c : Nat) (k : Core) : (s.setCore c k).badHost = s.badHost := rfl
@[simp] theorem State.setCore_clusters (c : Nat) (k : Core) : (s.setCore c k).clusters = s.clusters := rfl
@[simp] theorem State.setCore_tlb (c : Nat) (k : Core) : (s.setCore c k).tlb = s.tlb := rfl
@[simp] theorem State.setCore_waiters (c : Nat) (k : Core) : (s.setCore c k).waiters = s.waiters := rfl
@[simp] theorem State.setCore_subs (c : Nat) (k : Core) : (s.setCore c k).subs = s.subs := rfl
@[simp] theorem State.setCore_circuits (c : Nat) (k : Core) : (s.setCore c k).circuits = s.circuits := rfl
@[simp] theorem State.setCore_reds (c : Nat) (k : Core) : (s.setCore c k).reds = s.reds := rfl
@[simp] theorem State.setCore_caches (c : Nat) (k : Core) : (s.setCore c k).caches = s.caches := rfl
@[simp] theorem State.setCore_holds (c : Nat) (k : Core) : (s.setCore c k).holds = s.holds := rfl
@[simp] theorem State.setCore_dial (c : Nat) (k : Core) : (s.setCore c k).dial = s.dial := rfl
@[simp] theorem State.setCore_queues (c : Nat) (k : Core) : (s.setCore c k).queues = s.queues := rfl
@[simp] theorem State.setCore_grant (c : Nat) (k : Core) : (s.setCore c k).grant = s.grant := rfl
@[simp] theorem State.setCore_lastPass (c : Nat) (k : Core) : (s.setCore c k).lastPass = s.lastPass := rfl
@[simp] theorem State.setCore_jobs (c : Nat) (k : Core) : (s.setCore c k).jobs = s.jobs := rfl
@[simp] theorem State.setCore_graphs (c : Nat) (k : Core) : (s.setCore c k).graphs = s.graphs := rfl
@[simp] theorem State.setCore_launches (c : Nat) (k : Core) : (s.setCore c k).launches = s.launches := rfl
@[simp] theorem State.setCore_cancels (c : Nat) (k : Core) : (s.setCore c k).cancels = s.cancels := rfl
@[simp] theorem State.setCore_serial (c : Nat) (k : Core) : (s.setCore c k).serial = s.serial := rfl
@[simp] theorem State.setCore_fresh (c : Nat) (k : Core) : (s.setCore c k).fresh = s.fresh := rfl
@[simp] theorem State.setCore_parts (c : Nat) (k : Core) : (s.setCore c k).parts = s.parts := rfl
@[simp] theorem State.setCore_objects (c : Nat) (k : Core) : (s.setCore c k).objects = s.objects := rfl
@[simp] theorem State.setCore_loads (c : Nat) (k : Core) : (s.setCore c k).loads = s.loads := rfl
@[simp] theorem State.setCore_replicas (c : Nat) (k : Core) : (s.setCore c k).replicas = s.replicas := rfl
@[simp] theorem State.setCore_copies (c : Nat) (k : Core) : (s.setCore c k).copies = s.copies := rfl
@[simp] theorem State.setCore_fwq (c : Nat) (k : Core) : (s.setCore c k).fwq = s.fwq := rfl
@[simp] theorem State.setCore_bstate (c : Nat) (k : Core) : (s.setCore c k).bstate = s.bstate := rfl
@[simp] theorem State.setCore_berr (c : Nat) (k : Core) : (s.setCore c k).berr = s.berr := rfl
@[simp] theorem State.setCore_blen (c : Nat) (k : Core) : (s.setCore c k).blen = s.blen := rfl
@[simp] theorem State.setCore_meas (c : Nat) (k : Core) : (s.setCore c k).meas = s.meas := rfl
@[simp] theorem State.setCore_chronT (c : Nat) (k : Core) : (s.setCore c k).chronT = s.chronT := rfl
@[simp] theorem State.setCore_chronTrg (c : Nat) (k : Core) : (s.setCore c k).chronTrg = s.chronTrg := rfl
@[simp] theorem State.setCore_snaps (c : Nat) (k : Core) : (s.setCore c k).snaps = s.snaps := rfl
@[simp] theorem State.setCore_power (c : Nat) (k : Core) : (s.setCore c k).power = s.power := rfl
@[simp] theorem State.setCore_overPow (c : Nat) (k : Core) : (s.setCore c k).overPow = s.overPow := rfl
@[simp] theorem State.setCore_powerMs (c : Nat) (k : Core) : (s.setCore c k).powerMs = s.powerMs := rfl
@[simp] theorem State.setCore_unitKey (c : Nat) (k : Core) : (s.setCore c k).unitKey = s.unitKey := rfl
@[simp] theorem State.setCore_saves (c : Nat) (k : Core) : (s.setCore c k).saves = s.saves := rfl
@[simp] theorem State.setCore_filled (c : Nat) (k : Core) : (s.setCore c k).filled = s.filled := rfl
@[simp] theorem State.setCore_filledAt (c : Nat) (k : Core) : (s.setCore c k).filledAt = s.filledAt := rfl
@[simp] theorem State.setCore_domain (c : Nat) (k : Core) : (s.setCore c k).domain = s.domain := rfl
@[simp] theorem State.setCore_ideKey (c : Nat) (k : Core) : (s.setCore c k).ideKey = s.ideKey := rfl
@[simp] theorem State.setCore_cxl (c : Nat) (k : Core) : (s.setCore c k).cxl = s.cxl := rfl
@[simp] theorem State.setCore_errors (c : Nat) (k : Core) : (s.setCore c k).errors = s.errors := rfl
@[simp] theorem State.setCore_links (c : Nat) (k : Core) : (s.setCore c k).links = s.links := rfl
@[simp] theorem State.setCore_refill (c : Nat) (k : Core) : (s.setCore c k).refill = s.refill := rfl
@[simp] theorem State.setCore_shareAt (c : Nat) (k : Core) : (s.setCore c k).shareAt = s.shareAt := rfl
@[simp] theorem State.setCore_hostOut (c : Nat) (k : Core) : (s.setCore c k).hostOut = s.hostOut := rfl

/-! ### `modPart` -/

@[simp] theorem State.modPart_agenda (p : Nat) (f : Part → Part) : (s.modPart p f).agenda = s.agenda := rfl
@[simp] theorem State.modPart_seat (p : Nat) (f : Part → Part) : (s.modPart p f).seat = s.seat := rfl
@[simp] theorem State.modPart_opSeq (p : Nat) (f : Part → Part) : (s.modPart p f).opSeq = s.opSeq := rfl
@[simp] theorem State.modPart_free (p : Nat) (f : Part → Part) : (s.modPart p f).free = s.free := rfl
@[simp] theorem State.modPart_cycle (p : Nat) (f : Part → Part) : (s.modPart p f).cycle = s.cycle := rfl
@[simp] theorem State.modPart_mem (p : Nat) (f : Part → Part) : (s.modPart p f).mem = s.mem := rfl
@[simp] theorem State.modPart_empty (p : Nat) (f : Part → Part) : (s.modPart p f).empty = s.empty := rfl
@[simp] theorem State.modPart_badLine (p : Nat) (f : Part → Part) : (s.modPart p f).badLine = s.badLine := rfl
@[simp] theorem State.modPart_readers (p : Nat) (f : Part → Part) : (s.modPart p f).readers = s.readers := rfl
@[simp] theorem State.modPart_badUnit (p : Nat) (f : Part → Part) : (s.modPart p f).badUnit = s.badUnit := rfl
@[simp] theorem State.modPart_badHost (p : Nat) (f : Part → Part) : (s.modPart p f).badHost = s.badHost := rfl
@[simp] theorem State.modPart_cores (p : Nat) (f : Part → Part) : (s.modPart p f).cores = s.cores := rfl
@[simp] theorem State.modPart_clusters (p : Nat) (f : Part → Part) : (s.modPart p f).clusters = s.clusters := rfl
@[simp] theorem State.modPart_tlb (p : Nat) (f : Part → Part) : (s.modPart p f).tlb = s.tlb := rfl
@[simp] theorem State.modPart_waiters (p : Nat) (f : Part → Part) : (s.modPart p f).waiters = s.waiters := rfl
@[simp] theorem State.modPart_subs (p : Nat) (f : Part → Part) : (s.modPart p f).subs = s.subs := rfl
@[simp] theorem State.modPart_circuits (p : Nat) (f : Part → Part) : (s.modPart p f).circuits = s.circuits := rfl
@[simp] theorem State.modPart_reds (p : Nat) (f : Part → Part) : (s.modPart p f).reds = s.reds := rfl
@[simp] theorem State.modPart_caches (p : Nat) (f : Part → Part) : (s.modPart p f).caches = s.caches := rfl
@[simp] theorem State.modPart_holds (p : Nat) (f : Part → Part) : (s.modPart p f).holds = s.holds := rfl
@[simp] theorem State.modPart_dial (p : Nat) (f : Part → Part) : (s.modPart p f).dial = s.dial := rfl
@[simp] theorem State.modPart_queues (p : Nat) (f : Part → Part) : (s.modPart p f).queues = s.queues := rfl
@[simp] theorem State.modPart_grant (p : Nat) (f : Part → Part) : (s.modPart p f).grant = s.grant := rfl
@[simp] theorem State.modPart_lastPass (p : Nat) (f : Part → Part) : (s.modPart p f).lastPass = s.lastPass := rfl
@[simp] theorem State.modPart_jobs (p : Nat) (f : Part → Part) : (s.modPart p f).jobs = s.jobs := rfl
@[simp] theorem State.modPart_graphs (p : Nat) (f : Part → Part) : (s.modPart p f).graphs = s.graphs := rfl
@[simp] theorem State.modPart_launches (p : Nat) (f : Part → Part) : (s.modPart p f).launches = s.launches := rfl
@[simp] theorem State.modPart_cancels (p : Nat) (f : Part → Part) : (s.modPart p f).cancels = s.cancels := rfl
@[simp] theorem State.modPart_serial (p : Nat) (f : Part → Part) : (s.modPart p f).serial = s.serial := rfl
@[simp] theorem State.modPart_fresh (p : Nat) (f : Part → Part) : (s.modPart p f).fresh = s.fresh := rfl
@[simp] theorem State.modPart_objects (p : Nat) (f : Part → Part) : (s.modPart p f).objects = s.objects := rfl
@[simp] theorem State.modPart_loads (p : Nat) (f : Part → Part) : (s.modPart p f).loads = s.loads := rfl
@[simp] theorem State.modPart_replicas (p : Nat) (f : Part → Part) : (s.modPart p f).replicas = s.replicas := rfl
@[simp] theorem State.modPart_copies (p : Nat) (f : Part → Part) : (s.modPart p f).copies = s.copies := rfl
@[simp] theorem State.modPart_fwq (p : Nat) (f : Part → Part) : (s.modPart p f).fwq = s.fwq := rfl
@[simp] theorem State.modPart_bstate (p : Nat) (f : Part → Part) : (s.modPart p f).bstate = s.bstate := rfl
@[simp] theorem State.modPart_berr (p : Nat) (f : Part → Part) : (s.modPart p f).berr = s.berr := rfl
@[simp] theorem State.modPart_blen (p : Nat) (f : Part → Part) : (s.modPart p f).blen = s.blen := rfl
@[simp] theorem State.modPart_meas (p : Nat) (f : Part → Part) : (s.modPart p f).meas = s.meas := rfl
@[simp] theorem State.modPart_chronT (p : Nat) (f : Part → Part) : (s.modPart p f).chronT = s.chronT := rfl
@[simp] theorem State.modPart_chronTrg (p : Nat) (f : Part → Part) : (s.modPart p f).chronTrg = s.chronTrg := rfl
@[simp] theorem State.modPart_snaps (p : Nat) (f : Part → Part) : (s.modPart p f).snaps = s.snaps := rfl
@[simp] theorem State.modPart_power (p : Nat) (f : Part → Part) : (s.modPart p f).power = s.power := rfl
@[simp] theorem State.modPart_overPow (p : Nat) (f : Part → Part) : (s.modPart p f).overPow = s.overPow := rfl
@[simp] theorem State.modPart_powerMs (p : Nat) (f : Part → Part) : (s.modPart p f).powerMs = s.powerMs := rfl
@[simp] theorem State.modPart_unitKey (p : Nat) (f : Part → Part) : (s.modPart p f).unitKey = s.unitKey := rfl
@[simp] theorem State.modPart_saves (p : Nat) (f : Part → Part) : (s.modPart p f).saves = s.saves := rfl
@[simp] theorem State.modPart_filled (p : Nat) (f : Part → Part) : (s.modPart p f).filled = s.filled := rfl
@[simp] theorem State.modPart_filledAt (p : Nat) (f : Part → Part) : (s.modPart p f).filledAt = s.filledAt := rfl
@[simp] theorem State.modPart_domain (p : Nat) (f : Part → Part) : (s.modPart p f).domain = s.domain := rfl
@[simp] theorem State.modPart_ideKey (p : Nat) (f : Part → Part) : (s.modPart p f).ideKey = s.ideKey := rfl
@[simp] theorem State.modPart_cxl (p : Nat) (f : Part → Part) : (s.modPart p f).cxl = s.cxl := rfl
@[simp] theorem State.modPart_errors (p : Nat) (f : Part → Part) : (s.modPart p f).errors = s.errors := rfl
@[simp] theorem State.modPart_links (p : Nat) (f : Part → Part) : (s.modPart p f).links = s.links := rfl
@[simp] theorem State.modPart_refill (p : Nat) (f : Part → Part) : (s.modPart p f).refill = s.refill := rfl
@[simp] theorem State.modPart_shareAt (p : Nat) (f : Part → Part) : (s.modPart p f).shareAt = s.shareAt := rfl
@[simp] theorem State.modPart_hostOut (p : Nat) (f : Part → Part) : (s.modPart p f).hostOut = s.hostOut := rfl

/-! ### `modCluster` -/

@[simp] theorem State.modCluster_agenda (c : Nat) (f : Cluster → Cluster) : (s.modCluster c f).agenda = s.agenda := rfl
@[simp] theorem State.modCluster_seat (c : Nat) (f : Cluster → Cluster) : (s.modCluster c f).seat = s.seat := rfl
@[simp] theorem State.modCluster_opSeq (c : Nat) (f : Cluster → Cluster) : (s.modCluster c f).opSeq = s.opSeq := rfl
@[simp] theorem State.modCluster_free (c : Nat) (f : Cluster → Cluster) : (s.modCluster c f).free = s.free := rfl
@[simp] theorem State.modCluster_cycle (c : Nat) (f : Cluster → Cluster) : (s.modCluster c f).cycle = s.cycle := rfl
@[simp] theorem State.modCluster_mem (c : Nat) (f : Cluster → Cluster) : (s.modCluster c f).mem = s.mem := rfl
@[simp] theorem State.modCluster_empty (c : Nat) (f : Cluster → Cluster) : (s.modCluster c f).empty = s.empty := rfl
@[simp] theorem State.modCluster_badLine (c : Nat) (f : Cluster → Cluster) : (s.modCluster c f).badLine = s.badLine := rfl
@[simp] theorem State.modCluster_readers (c : Nat) (f : Cluster → Cluster) : (s.modCluster c f).readers = s.readers := rfl
@[simp] theorem State.modCluster_badUnit (c : Nat) (f : Cluster → Cluster) : (s.modCluster c f).badUnit = s.badUnit := rfl
@[simp] theorem State.modCluster_badHost (c : Nat) (f : Cluster → Cluster) : (s.modCluster c f).badHost = s.badHost := rfl
@[simp] theorem State.modCluster_cores (c : Nat) (f : Cluster → Cluster) : (s.modCluster c f).cores = s.cores := rfl
@[simp] theorem State.modCluster_tlb (c : Nat) (f : Cluster → Cluster) : (s.modCluster c f).tlb = s.tlb := rfl
@[simp] theorem State.modCluster_waiters (c : Nat) (f : Cluster → Cluster) : (s.modCluster c f).waiters = s.waiters := rfl
@[simp] theorem State.modCluster_subs (c : Nat) (f : Cluster → Cluster) : (s.modCluster c f).subs = s.subs := rfl
@[simp] theorem State.modCluster_circuits (c : Nat) (f : Cluster → Cluster) : (s.modCluster c f).circuits = s.circuits := rfl
@[simp] theorem State.modCluster_reds (c : Nat) (f : Cluster → Cluster) : (s.modCluster c f).reds = s.reds := rfl
@[simp] theorem State.modCluster_caches (c : Nat) (f : Cluster → Cluster) : (s.modCluster c f).caches = s.caches := rfl
@[simp] theorem State.modCluster_holds (c : Nat) (f : Cluster → Cluster) : (s.modCluster c f).holds = s.holds := rfl
@[simp] theorem State.modCluster_dial (c : Nat) (f : Cluster → Cluster) : (s.modCluster c f).dial = s.dial := rfl
@[simp] theorem State.modCluster_queues (c : Nat) (f : Cluster → Cluster) : (s.modCluster c f).queues = s.queues := rfl
@[simp] theorem State.modCluster_grant (c : Nat) (f : Cluster → Cluster) : (s.modCluster c f).grant = s.grant := rfl
@[simp] theorem State.modCluster_lastPass (c : Nat) (f : Cluster → Cluster) : (s.modCluster c f).lastPass = s.lastPass := rfl
@[simp] theorem State.modCluster_jobs (c : Nat) (f : Cluster → Cluster) : (s.modCluster c f).jobs = s.jobs := rfl
@[simp] theorem State.modCluster_graphs (c : Nat) (f : Cluster → Cluster) : (s.modCluster c f).graphs = s.graphs := rfl
@[simp] theorem State.modCluster_launches (c : Nat) (f : Cluster → Cluster) : (s.modCluster c f).launches = s.launches := rfl
@[simp] theorem State.modCluster_cancels (c : Nat) (f : Cluster → Cluster) : (s.modCluster c f).cancels = s.cancels := rfl
@[simp] theorem State.modCluster_serial (c : Nat) (f : Cluster → Cluster) : (s.modCluster c f).serial = s.serial := rfl
@[simp] theorem State.modCluster_fresh (c : Nat) (f : Cluster → Cluster) : (s.modCluster c f).fresh = s.fresh := rfl
@[simp] theorem State.modCluster_parts (c : Nat) (f : Cluster → Cluster) : (s.modCluster c f).parts = s.parts := rfl
@[simp] theorem State.modCluster_objects (c : Nat) (f : Cluster → Cluster) : (s.modCluster c f).objects = s.objects := rfl
@[simp] theorem State.modCluster_loads (c : Nat) (f : Cluster → Cluster) : (s.modCluster c f).loads = s.loads := rfl
@[simp] theorem State.modCluster_replicas (c : Nat) (f : Cluster → Cluster) : (s.modCluster c f).replicas = s.replicas := rfl
@[simp] theorem State.modCluster_copies (c : Nat) (f : Cluster → Cluster) : (s.modCluster c f).copies = s.copies := rfl
@[simp] theorem State.modCluster_fwq (c : Nat) (f : Cluster → Cluster) : (s.modCluster c f).fwq = s.fwq := rfl
@[simp] theorem State.modCluster_bstate (c : Nat) (f : Cluster → Cluster) : (s.modCluster c f).bstate = s.bstate := rfl
@[simp] theorem State.modCluster_berr (c : Nat) (f : Cluster → Cluster) : (s.modCluster c f).berr = s.berr := rfl
@[simp] theorem State.modCluster_blen (c : Nat) (f : Cluster → Cluster) : (s.modCluster c f).blen = s.blen := rfl
@[simp] theorem State.modCluster_meas (c : Nat) (f : Cluster → Cluster) : (s.modCluster c f).meas = s.meas := rfl
@[simp] theorem State.modCluster_chronT (c : Nat) (f : Cluster → Cluster) : (s.modCluster c f).chronT = s.chronT := rfl
@[simp] theorem State.modCluster_chronTrg (c : Nat) (f : Cluster → Cluster) : (s.modCluster c f).chronTrg = s.chronTrg := rfl
@[simp] theorem State.modCluster_snaps (c : Nat) (f : Cluster → Cluster) : (s.modCluster c f).snaps = s.snaps := rfl
@[simp] theorem State.modCluster_power (c : Nat) (f : Cluster → Cluster) : (s.modCluster c f).power = s.power := rfl
@[simp] theorem State.modCluster_overPow (c : Nat) (f : Cluster → Cluster) : (s.modCluster c f).overPow = s.overPow := rfl
@[simp] theorem State.modCluster_powerMs (c : Nat) (f : Cluster → Cluster) : (s.modCluster c f).powerMs = s.powerMs := rfl
@[simp] theorem State.modCluster_unitKey (c : Nat) (f : Cluster → Cluster) : (s.modCluster c f).unitKey = s.unitKey := rfl
@[simp] theorem State.modCluster_saves (c : Nat) (f : Cluster → Cluster) : (s.modCluster c f).saves = s.saves := rfl
@[simp] theorem State.modCluster_filled (c : Nat) (f : Cluster → Cluster) : (s.modCluster c f).filled = s.filled := rfl
@[simp] theorem State.modCluster_filledAt (c : Nat) (f : Cluster → Cluster) : (s.modCluster c f).filledAt = s.filledAt := rfl
@[simp] theorem State.modCluster_domain (c : Nat) (f : Cluster → Cluster) : (s.modCluster c f).domain = s.domain := rfl
@[simp] theorem State.modCluster_ideKey (c : Nat) (f : Cluster → Cluster) : (s.modCluster c f).ideKey = s.ideKey := rfl
@[simp] theorem State.modCluster_cxl (c : Nat) (f : Cluster → Cluster) : (s.modCluster c f).cxl = s.cxl := rfl
@[simp] theorem State.modCluster_errors (c : Nat) (f : Cluster → Cluster) : (s.modCluster c f).errors = s.errors := rfl
@[simp] theorem State.modCluster_links (c : Nat) (f : Cluster → Cluster) : (s.modCluster c f).links = s.links := rfl
@[simp] theorem State.modCluster_refill (c : Nat) (f : Cluster → Cluster) : (s.modCluster c f).refill = s.refill := rfl
@[simp] theorem State.modCluster_shareAt (c : Nat) (f : Cluster → Cluster) : (s.modCluster c f).shareAt = s.shareAt := rfl
@[simp] theorem State.modCluster_hostOut (c : Nat) (f : Cluster → Cluster) : (s.modCluster c f).hostOut = s.hostOut := rfl

/-! ### `countErr` -/

@[simp] theorem State.countErr_agenda (die : Nat) (f : Errors → Errors) : (s.countErr die f).agenda = s.agenda := rfl
@[simp] theorem State.countErr_seat (die : Nat) (f : Errors → Errors) : (s.countErr die f).seat = s.seat := rfl
@[simp] theorem State.countErr_opSeq (die : Nat) (f : Errors → Errors) : (s.countErr die f).opSeq = s.opSeq := rfl
@[simp] theorem State.countErr_free (die : Nat) (f : Errors → Errors) : (s.countErr die f).free = s.free := rfl
@[simp] theorem State.countErr_cycle (die : Nat) (f : Errors → Errors) : (s.countErr die f).cycle = s.cycle := rfl
@[simp] theorem State.countErr_mem (die : Nat) (f : Errors → Errors) : (s.countErr die f).mem = s.mem := rfl
@[simp] theorem State.countErr_empty (die : Nat) (f : Errors → Errors) : (s.countErr die f).empty = s.empty := rfl
@[simp] theorem State.countErr_badLine (die : Nat) (f : Errors → Errors) : (s.countErr die f).badLine = s.badLine := rfl
@[simp] theorem State.countErr_readers (die : Nat) (f : Errors → Errors) : (s.countErr die f).readers = s.readers := rfl
@[simp] theorem State.countErr_badUnit (die : Nat) (f : Errors → Errors) : (s.countErr die f).badUnit = s.badUnit := rfl
@[simp] theorem State.countErr_badHost (die : Nat) (f : Errors → Errors) : (s.countErr die f).badHost = s.badHost := rfl
@[simp] theorem State.countErr_cores (die : Nat) (f : Errors → Errors) : (s.countErr die f).cores = s.cores := rfl
@[simp] theorem State.countErr_clusters (die : Nat) (f : Errors → Errors) : (s.countErr die f).clusters = s.clusters := rfl
@[simp] theorem State.countErr_tlb (die : Nat) (f : Errors → Errors) : (s.countErr die f).tlb = s.tlb := rfl
@[simp] theorem State.countErr_waiters (die : Nat) (f : Errors → Errors) : (s.countErr die f).waiters = s.waiters := rfl
@[simp] theorem State.countErr_subs (die : Nat) (f : Errors → Errors) : (s.countErr die f).subs = s.subs := rfl
@[simp] theorem State.countErr_circuits (die : Nat) (f : Errors → Errors) : (s.countErr die f).circuits = s.circuits := rfl
@[simp] theorem State.countErr_reds (die : Nat) (f : Errors → Errors) : (s.countErr die f).reds = s.reds := rfl
@[simp] theorem State.countErr_caches (die : Nat) (f : Errors → Errors) : (s.countErr die f).caches = s.caches := rfl
@[simp] theorem State.countErr_holds (die : Nat) (f : Errors → Errors) : (s.countErr die f).holds = s.holds := rfl
@[simp] theorem State.countErr_dial (die : Nat) (f : Errors → Errors) : (s.countErr die f).dial = s.dial := rfl
@[simp] theorem State.countErr_queues (die : Nat) (f : Errors → Errors) : (s.countErr die f).queues = s.queues := rfl
@[simp] theorem State.countErr_grant (die : Nat) (f : Errors → Errors) : (s.countErr die f).grant = s.grant := rfl
@[simp] theorem State.countErr_lastPass (die : Nat) (f : Errors → Errors) : (s.countErr die f).lastPass = s.lastPass := rfl
@[simp] theorem State.countErr_jobs (die : Nat) (f : Errors → Errors) : (s.countErr die f).jobs = s.jobs := rfl
@[simp] theorem State.countErr_graphs (die : Nat) (f : Errors → Errors) : (s.countErr die f).graphs = s.graphs := rfl
@[simp] theorem State.countErr_launches (die : Nat) (f : Errors → Errors) : (s.countErr die f).launches = s.launches := rfl
@[simp] theorem State.countErr_cancels (die : Nat) (f : Errors → Errors) : (s.countErr die f).cancels = s.cancels := rfl
@[simp] theorem State.countErr_serial (die : Nat) (f : Errors → Errors) : (s.countErr die f).serial = s.serial := rfl
@[simp] theorem State.countErr_fresh (die : Nat) (f : Errors → Errors) : (s.countErr die f).fresh = s.fresh := rfl
@[simp] theorem State.countErr_parts (die : Nat) (f : Errors → Errors) : (s.countErr die f).parts = s.parts := rfl
@[simp] theorem State.countErr_objects (die : Nat) (f : Errors → Errors) : (s.countErr die f).objects = s.objects := rfl
@[simp] theorem State.countErr_loads (die : Nat) (f : Errors → Errors) : (s.countErr die f).loads = s.loads := rfl
@[simp] theorem State.countErr_replicas (die : Nat) (f : Errors → Errors) : (s.countErr die f).replicas = s.replicas := rfl
@[simp] theorem State.countErr_copies (die : Nat) (f : Errors → Errors) : (s.countErr die f).copies = s.copies := rfl
@[simp] theorem State.countErr_fwq (die : Nat) (f : Errors → Errors) : (s.countErr die f).fwq = s.fwq := rfl
@[simp] theorem State.countErr_bstate (die : Nat) (f : Errors → Errors) : (s.countErr die f).bstate = s.bstate := rfl
@[simp] theorem State.countErr_berr (die : Nat) (f : Errors → Errors) : (s.countErr die f).berr = s.berr := rfl
@[simp] theorem State.countErr_blen (die : Nat) (f : Errors → Errors) : (s.countErr die f).blen = s.blen := rfl
@[simp] theorem State.countErr_meas (die : Nat) (f : Errors → Errors) : (s.countErr die f).meas = s.meas := rfl
@[simp] theorem State.countErr_chronT (die : Nat) (f : Errors → Errors) : (s.countErr die f).chronT = s.chronT := rfl
@[simp] theorem State.countErr_chronTrg (die : Nat) (f : Errors → Errors) : (s.countErr die f).chronTrg = s.chronTrg := rfl
@[simp] theorem State.countErr_snaps (die : Nat) (f : Errors → Errors) : (s.countErr die f).snaps = s.snaps := rfl
@[simp] theorem State.countErr_power (die : Nat) (f : Errors → Errors) : (s.countErr die f).power = s.power := rfl
@[simp] theorem State.countErr_overPow (die : Nat) (f : Errors → Errors) : (s.countErr die f).overPow = s.overPow := rfl
@[simp] theorem State.countErr_powerMs (die : Nat) (f : Errors → Errors) : (s.countErr die f).powerMs = s.powerMs := rfl
@[simp] theorem State.countErr_unitKey (die : Nat) (f : Errors → Errors) : (s.countErr die f).unitKey = s.unitKey := rfl
@[simp] theorem State.countErr_saves (die : Nat) (f : Errors → Errors) : (s.countErr die f).saves = s.saves := rfl
@[simp] theorem State.countErr_filled (die : Nat) (f : Errors → Errors) : (s.countErr die f).filled = s.filled := rfl
@[simp] theorem State.countErr_filledAt (die : Nat) (f : Errors → Errors) : (s.countErr die f).filledAt = s.filledAt := rfl
@[simp] theorem State.countErr_domain (die : Nat) (f : Errors → Errors) : (s.countErr die f).domain = s.domain := rfl
@[simp] theorem State.countErr_ideKey (die : Nat) (f : Errors → Errors) : (s.countErr die f).ideKey = s.ideKey := rfl
@[simp] theorem State.countErr_cxl (die : Nat) (f : Errors → Errors) : (s.countErr die f).cxl = s.cxl := rfl
@[simp] theorem State.countErr_links (die : Nat) (f : Errors → Errors) : (s.countErr die f).links = s.links := rfl
@[simp] theorem State.countErr_refill (die : Nat) (f : Errors → Errors) : (s.countErr die f).refill = s.refill := rfl
@[simp] theorem State.countErr_shareAt (die : Nat) (f : Errors → Errors) : (s.countErr die f).shareAt = s.shareAt := rfl
@[simp] theorem State.countErr_hostOut (die : Nat) (f : Errors → Errors) : (s.countErr die f).hostOut = s.hostOut := rfl

/-! ### `bump` -/

@[simp] theorem State.bump_agenda : (s.bump).agenda = s.agenda := rfl
@[simp] theorem State.bump_seat : (s.bump).seat = s.seat := rfl
@[simp] theorem State.bump_free : (s.bump).free = s.free := rfl
@[simp] theorem State.bump_cycle : (s.bump).cycle = s.cycle := rfl
@[simp] theorem State.bump_mem : (s.bump).mem = s.mem := rfl
@[simp] theorem State.bump_empty : (s.bump).empty = s.empty := rfl
@[simp] theorem State.bump_badLine : (s.bump).badLine = s.badLine := rfl
@[simp] theorem State.bump_readers : (s.bump).readers = s.readers := rfl
@[simp] theorem State.bump_badUnit : (s.bump).badUnit = s.badUnit := rfl
@[simp] theorem State.bump_badHost : (s.bump).badHost = s.badHost := rfl
@[simp] theorem State.bump_cores : (s.bump).cores = s.cores := rfl
@[simp] theorem State.bump_clusters : (s.bump).clusters = s.clusters := rfl
@[simp] theorem State.bump_tlb : (s.bump).tlb = s.tlb := rfl
@[simp] theorem State.bump_waiters : (s.bump).waiters = s.waiters := rfl
@[simp] theorem State.bump_subs : (s.bump).subs = s.subs := rfl
@[simp] theorem State.bump_circuits : (s.bump).circuits = s.circuits := rfl
@[simp] theorem State.bump_reds : (s.bump).reds = s.reds := rfl
@[simp] theorem State.bump_caches : (s.bump).caches = s.caches := rfl
@[simp] theorem State.bump_holds : (s.bump).holds = s.holds := rfl
@[simp] theorem State.bump_dial : (s.bump).dial = s.dial := rfl
@[simp] theorem State.bump_queues : (s.bump).queues = s.queues := rfl
@[simp] theorem State.bump_grant : (s.bump).grant = s.grant := rfl
@[simp] theorem State.bump_lastPass : (s.bump).lastPass = s.lastPass := rfl
@[simp] theorem State.bump_jobs : (s.bump).jobs = s.jobs := rfl
@[simp] theorem State.bump_graphs : (s.bump).graphs = s.graphs := rfl
@[simp] theorem State.bump_launches : (s.bump).launches = s.launches := rfl
@[simp] theorem State.bump_cancels : (s.bump).cancels = s.cancels := rfl
@[simp] theorem State.bump_serial : (s.bump).serial = s.serial := rfl
@[simp] theorem State.bump_fresh : (s.bump).fresh = s.fresh := rfl
@[simp] theorem State.bump_parts : (s.bump).parts = s.parts := rfl
@[simp] theorem State.bump_objects : (s.bump).objects = s.objects := rfl
@[simp] theorem State.bump_loads : (s.bump).loads = s.loads := rfl
@[simp] theorem State.bump_replicas : (s.bump).replicas = s.replicas := rfl
@[simp] theorem State.bump_copies : (s.bump).copies = s.copies := rfl
@[simp] theorem State.bump_fwq : (s.bump).fwq = s.fwq := rfl
@[simp] theorem State.bump_bstate : (s.bump).bstate = s.bstate := rfl
@[simp] theorem State.bump_berr : (s.bump).berr = s.berr := rfl
@[simp] theorem State.bump_blen : (s.bump).blen = s.blen := rfl
@[simp] theorem State.bump_meas : (s.bump).meas = s.meas := rfl
@[simp] theorem State.bump_chronT : (s.bump).chronT = s.chronT := rfl
@[simp] theorem State.bump_chronTrg : (s.bump).chronTrg = s.chronTrg := rfl
@[simp] theorem State.bump_snaps : (s.bump).snaps = s.snaps := rfl
@[simp] theorem State.bump_power : (s.bump).power = s.power := rfl
@[simp] theorem State.bump_overPow : (s.bump).overPow = s.overPow := rfl
@[simp] theorem State.bump_powerMs : (s.bump).powerMs = s.powerMs := rfl
@[simp] theorem State.bump_unitKey : (s.bump).unitKey = s.unitKey := rfl
@[simp] theorem State.bump_saves : (s.bump).saves = s.saves := rfl
@[simp] theorem State.bump_filled : (s.bump).filled = s.filled := rfl
@[simp] theorem State.bump_filledAt : (s.bump).filledAt = s.filledAt := rfl
@[simp] theorem State.bump_domain : (s.bump).domain = s.domain := rfl
@[simp] theorem State.bump_ideKey : (s.bump).ideKey = s.ideKey := rfl
@[simp] theorem State.bump_cxl : (s.bump).cxl = s.cxl := rfl
@[simp] theorem State.bump_errors : (s.bump).errors = s.errors := rfl
@[simp] theorem State.bump_links : (s.bump).links = s.links := rfl
@[simp] theorem State.bump_refill : (s.bump).refill = s.refill := rfl
@[simp] theorem State.bump_shareAt : (s.bump).shareAt = s.shareAt := rfl
@[simp] theorem State.bump_hostOut : (s.bump).hostOut = s.hostOut := rfl

/-! ### `next` -/

@[simp] theorem State.next_agenda : (s.next).agenda = s.agenda := rfl
@[simp] theorem State.next_seat : (s.next).seat = s.seat := rfl
@[simp] theorem State.next_opSeq : (s.next).opSeq = s.opSeq := rfl
@[simp] theorem State.next_free : (s.next).free = s.free := rfl
@[simp] theorem State.next_cycle : (s.next).cycle = s.cycle := rfl
@[simp] theorem State.next_mem : (s.next).mem = s.mem := rfl
@[simp] theorem State.next_empty : (s.next).empty = s.empty := rfl
@[simp] theorem State.next_badLine : (s.next).badLine = s.badLine := rfl
@[simp] theorem State.next_readers : (s.next).readers = s.readers := rfl
@[simp] theorem State.next_badUnit : (s.next).badUnit = s.badUnit := rfl
@[simp] theorem State.next_badHost : (s.next).badHost = s.badHost := rfl
@[simp] theorem State.next_cores : (s.next).cores = s.cores := rfl
@[simp] theorem State.next_clusters : (s.next).clusters = s.clusters := rfl
@[simp] theorem State.next_tlb : (s.next).tlb = s.tlb := rfl
@[simp] theorem State.next_waiters : (s.next).waiters = s.waiters := rfl
@[simp] theorem State.next_subs : (s.next).subs = s.subs := rfl
@[simp] theorem State.next_circuits : (s.next).circuits = s.circuits := rfl
@[simp] theorem State.next_reds : (s.next).reds = s.reds := rfl
@[simp] theorem State.next_caches : (s.next).caches = s.caches := rfl
@[simp] theorem State.next_holds : (s.next).holds = s.holds := rfl
@[simp] theorem State.next_dial : (s.next).dial = s.dial := rfl
@[simp] theorem State.next_queues : (s.next).queues = s.queues := rfl
@[simp] theorem State.next_grant : (s.next).grant = s.grant := rfl
@[simp] theorem State.next_lastPass : (s.next).lastPass = s.lastPass := rfl
@[simp] theorem State.next_jobs : (s.next).jobs = s.jobs := rfl
@[simp] theorem State.next_graphs : (s.next).graphs = s.graphs := rfl
@[simp] theorem State.next_launches : (s.next).launches = s.launches := rfl
@[simp] theorem State.next_cancels : (s.next).cancels = s.cancels := rfl
@[simp] theorem State.next_serial : (s.next).serial = s.serial := rfl
@[simp] theorem State.next_parts : (s.next).parts = s.parts := rfl
@[simp] theorem State.next_objects : (s.next).objects = s.objects := rfl
@[simp] theorem State.next_loads : (s.next).loads = s.loads := rfl
@[simp] theorem State.next_replicas : (s.next).replicas = s.replicas := rfl
@[simp] theorem State.next_copies : (s.next).copies = s.copies := rfl
@[simp] theorem State.next_fwq : (s.next).fwq = s.fwq := rfl
@[simp] theorem State.next_bstate : (s.next).bstate = s.bstate := rfl
@[simp] theorem State.next_berr : (s.next).berr = s.berr := rfl
@[simp] theorem State.next_blen : (s.next).blen = s.blen := rfl
@[simp] theorem State.next_meas : (s.next).meas = s.meas := rfl
@[simp] theorem State.next_chronT : (s.next).chronT = s.chronT := rfl
@[simp] theorem State.next_chronTrg : (s.next).chronTrg = s.chronTrg := rfl
@[simp] theorem State.next_snaps : (s.next).snaps = s.snaps := rfl
@[simp] theorem State.next_power : (s.next).power = s.power := rfl
@[simp] theorem State.next_overPow : (s.next).overPow = s.overPow := rfl
@[simp] theorem State.next_powerMs : (s.next).powerMs = s.powerMs := rfl
@[simp] theorem State.next_unitKey : (s.next).unitKey = s.unitKey := rfl
@[simp] theorem State.next_saves : (s.next).saves = s.saves := rfl
@[simp] theorem State.next_filled : (s.next).filled = s.filled := rfl
@[simp] theorem State.next_filledAt : (s.next).filledAt = s.filledAt := rfl
@[simp] theorem State.next_domain : (s.next).domain = s.domain := rfl
@[simp] theorem State.next_ideKey : (s.next).ideKey = s.ideKey := rfl
@[simp] theorem State.next_cxl : (s.next).cxl = s.cxl := rfl
@[simp] theorem State.next_errors : (s.next).errors = s.errors := rfl
@[simp] theorem State.next_links : (s.next).links = s.links := rfl
@[simp] theorem State.next_refill : (s.next).refill = s.refill := rfl
@[simp] theorem State.next_shareAt : (s.next).shareAt = s.shareAt := rfl
@[simp] theorem State.next_hostOut : (s.next).hostOut = s.hostOut := rfl

/-! ### `setBad` -/

@[simp] theorem State.setBad_agenda (l : Nat) (b : Bool) : (s.setBad l b).agenda = s.agenda := rfl
@[simp] theorem State.setBad_seat (l : Nat) (b : Bool) : (s.setBad l b).seat = s.seat := rfl
@[simp] theorem State.setBad_opSeq (l : Nat) (b : Bool) : (s.setBad l b).opSeq = s.opSeq := rfl
@[simp] theorem State.setBad_free (l : Nat) (b : Bool) : (s.setBad l b).free = s.free := rfl
@[simp] theorem State.setBad_cycle (l : Nat) (b : Bool) : (s.setBad l b).cycle = s.cycle := rfl
@[simp] theorem State.setBad_mem (l : Nat) (b : Bool) : (s.setBad l b).mem = s.mem := rfl
@[simp] theorem State.setBad_empty (l : Nat) (b : Bool) : (s.setBad l b).empty = s.empty := rfl
@[simp] theorem State.setBad_readers (l : Nat) (b : Bool) : (s.setBad l b).readers = s.readers := rfl
@[simp] theorem State.setBad_badUnit (l : Nat) (b : Bool) : (s.setBad l b).badUnit = s.badUnit := rfl
@[simp] theorem State.setBad_badHost (l : Nat) (b : Bool) : (s.setBad l b).badHost = s.badHost := rfl
@[simp] theorem State.setBad_cores (l : Nat) (b : Bool) : (s.setBad l b).cores = s.cores := rfl
@[simp] theorem State.setBad_clusters (l : Nat) (b : Bool) : (s.setBad l b).clusters = s.clusters := rfl
@[simp] theorem State.setBad_tlb (l : Nat) (b : Bool) : (s.setBad l b).tlb = s.tlb := rfl
@[simp] theorem State.setBad_waiters (l : Nat) (b : Bool) : (s.setBad l b).waiters = s.waiters := rfl
@[simp] theorem State.setBad_subs (l : Nat) (b : Bool) : (s.setBad l b).subs = s.subs := rfl
@[simp] theorem State.setBad_circuits (l : Nat) (b : Bool) : (s.setBad l b).circuits = s.circuits := rfl
@[simp] theorem State.setBad_reds (l : Nat) (b : Bool) : (s.setBad l b).reds = s.reds := rfl
@[simp] theorem State.setBad_caches (l : Nat) (b : Bool) : (s.setBad l b).caches = s.caches := rfl
@[simp] theorem State.setBad_holds (l : Nat) (b : Bool) : (s.setBad l b).holds = s.holds := rfl
@[simp] theorem State.setBad_dial (l : Nat) (b : Bool) : (s.setBad l b).dial = s.dial := rfl
@[simp] theorem State.setBad_queues (l : Nat) (b : Bool) : (s.setBad l b).queues = s.queues := rfl
@[simp] theorem State.setBad_grant (l : Nat) (b : Bool) : (s.setBad l b).grant = s.grant := rfl
@[simp] theorem State.setBad_lastPass (l : Nat) (b : Bool) : (s.setBad l b).lastPass = s.lastPass := rfl
@[simp] theorem State.setBad_jobs (l : Nat) (b : Bool) : (s.setBad l b).jobs = s.jobs := rfl
@[simp] theorem State.setBad_graphs (l : Nat) (b : Bool) : (s.setBad l b).graphs = s.graphs := rfl
@[simp] theorem State.setBad_launches (l : Nat) (b : Bool) : (s.setBad l b).launches = s.launches := rfl
@[simp] theorem State.setBad_cancels (l : Nat) (b : Bool) : (s.setBad l b).cancels = s.cancels := rfl
@[simp] theorem State.setBad_serial (l : Nat) (b : Bool) : (s.setBad l b).serial = s.serial := rfl
@[simp] theorem State.setBad_fresh (l : Nat) (b : Bool) : (s.setBad l b).fresh = s.fresh := rfl
@[simp] theorem State.setBad_parts (l : Nat) (b : Bool) : (s.setBad l b).parts = s.parts := rfl
@[simp] theorem State.setBad_objects (l : Nat) (b : Bool) : (s.setBad l b).objects = s.objects := rfl
@[simp] theorem State.setBad_loads (l : Nat) (b : Bool) : (s.setBad l b).loads = s.loads := rfl
@[simp] theorem State.setBad_replicas (l : Nat) (b : Bool) : (s.setBad l b).replicas = s.replicas := rfl
@[simp] theorem State.setBad_copies (l : Nat) (b : Bool) : (s.setBad l b).copies = s.copies := rfl
@[simp] theorem State.setBad_fwq (l : Nat) (b : Bool) : (s.setBad l b).fwq = s.fwq := rfl
@[simp] theorem State.setBad_bstate (l : Nat) (b : Bool) : (s.setBad l b).bstate = s.bstate := rfl
@[simp] theorem State.setBad_berr (l : Nat) (b : Bool) : (s.setBad l b).berr = s.berr := rfl
@[simp] theorem State.setBad_blen (l : Nat) (b : Bool) : (s.setBad l b).blen = s.blen := rfl
@[simp] theorem State.setBad_meas (l : Nat) (b : Bool) : (s.setBad l b).meas = s.meas := rfl
@[simp] theorem State.setBad_chronT (l : Nat) (b : Bool) : (s.setBad l b).chronT = s.chronT := rfl
@[simp] theorem State.setBad_chronTrg (l : Nat) (b : Bool) : (s.setBad l b).chronTrg = s.chronTrg := rfl
@[simp] theorem State.setBad_snaps (l : Nat) (b : Bool) : (s.setBad l b).snaps = s.snaps := rfl
@[simp] theorem State.setBad_power (l : Nat) (b : Bool) : (s.setBad l b).power = s.power := rfl
@[simp] theorem State.setBad_overPow (l : Nat) (b : Bool) : (s.setBad l b).overPow = s.overPow := rfl
@[simp] theorem State.setBad_powerMs (l : Nat) (b : Bool) : (s.setBad l b).powerMs = s.powerMs := rfl
@[simp] theorem State.setBad_unitKey (l : Nat) (b : Bool) : (s.setBad l b).unitKey = s.unitKey := rfl
@[simp] theorem State.setBad_saves (l : Nat) (b : Bool) : (s.setBad l b).saves = s.saves := rfl
@[simp] theorem State.setBad_filled (l : Nat) (b : Bool) : (s.setBad l b).filled = s.filled := rfl
@[simp] theorem State.setBad_filledAt (l : Nat) (b : Bool) : (s.setBad l b).filledAt = s.filledAt := rfl
@[simp] theorem State.setBad_domain (l : Nat) (b : Bool) : (s.setBad l b).domain = s.domain := rfl
@[simp] theorem State.setBad_ideKey (l : Nat) (b : Bool) : (s.setBad l b).ideKey = s.ideKey := rfl
@[simp] theorem State.setBad_cxl (l : Nat) (b : Bool) : (s.setBad l b).cxl = s.cxl := rfl
@[simp] theorem State.setBad_errors (l : Nat) (b : Bool) : (s.setBad l b).errors = s.errors := rfl
@[simp] theorem State.setBad_links (l : Nat) (b : Bool) : (s.setBad l b).links = s.links := rfl
@[simp] theorem State.setBad_refill (l : Nat) (b : Bool) : (s.setBad l b).refill = s.refill := rfl
@[simp] theorem State.setBad_shareAt (l : Nat) (b : Bool) : (s.setBad l b).shareAt = s.shareAt := rfl
@[simp] theorem State.setBad_hostOut (l : Nat) (b : Bool) : (s.setBad l b).hostOut = s.hostOut := rfl

/-! ### `setEmpty` -/

@[simp] theorem State.setEmpty_agenda (l : Nat) : (s.setEmpty l).agenda = s.agenda := rfl
@[simp] theorem State.setEmpty_seat (l : Nat) : (s.setEmpty l).seat = s.seat := rfl
@[simp] theorem State.setEmpty_opSeq (l : Nat) : (s.setEmpty l).opSeq = s.opSeq := rfl
@[simp] theorem State.setEmpty_free (l : Nat) : (s.setEmpty l).free = s.free := rfl
@[simp] theorem State.setEmpty_cycle (l : Nat) : (s.setEmpty l).cycle = s.cycle := rfl
@[simp] theorem State.setEmpty_mem (l : Nat) : (s.setEmpty l).mem = s.mem := rfl
@[simp] theorem State.setEmpty_badLine (l : Nat) : (s.setEmpty l).badLine = s.badLine := rfl
@[simp] theorem State.setEmpty_readers (l : Nat) : (s.setEmpty l).readers = s.readers := rfl
@[simp] theorem State.setEmpty_badUnit (l : Nat) : (s.setEmpty l).badUnit = s.badUnit := rfl
@[simp] theorem State.setEmpty_badHost (l : Nat) : (s.setEmpty l).badHost = s.badHost := rfl
@[simp] theorem State.setEmpty_cores (l : Nat) : (s.setEmpty l).cores = s.cores := rfl
@[simp] theorem State.setEmpty_clusters (l : Nat) : (s.setEmpty l).clusters = s.clusters := rfl
@[simp] theorem State.setEmpty_tlb (l : Nat) : (s.setEmpty l).tlb = s.tlb := rfl
@[simp] theorem State.setEmpty_waiters (l : Nat) : (s.setEmpty l).waiters = s.waiters := rfl
@[simp] theorem State.setEmpty_subs (l : Nat) : (s.setEmpty l).subs = s.subs := rfl
@[simp] theorem State.setEmpty_circuits (l : Nat) : (s.setEmpty l).circuits = s.circuits := rfl
@[simp] theorem State.setEmpty_reds (l : Nat) : (s.setEmpty l).reds = s.reds := rfl
@[simp] theorem State.setEmpty_caches (l : Nat) : (s.setEmpty l).caches = s.caches := rfl
@[simp] theorem State.setEmpty_holds (l : Nat) : (s.setEmpty l).holds = s.holds := rfl
@[simp] theorem State.setEmpty_dial (l : Nat) : (s.setEmpty l).dial = s.dial := rfl
@[simp] theorem State.setEmpty_queues (l : Nat) : (s.setEmpty l).queues = s.queues := rfl
@[simp] theorem State.setEmpty_grant (l : Nat) : (s.setEmpty l).grant = s.grant := rfl
@[simp] theorem State.setEmpty_lastPass (l : Nat) : (s.setEmpty l).lastPass = s.lastPass := rfl
@[simp] theorem State.setEmpty_jobs (l : Nat) : (s.setEmpty l).jobs = s.jobs := rfl
@[simp] theorem State.setEmpty_graphs (l : Nat) : (s.setEmpty l).graphs = s.graphs := rfl
@[simp] theorem State.setEmpty_launches (l : Nat) : (s.setEmpty l).launches = s.launches := rfl
@[simp] theorem State.setEmpty_cancels (l : Nat) : (s.setEmpty l).cancels = s.cancels := rfl
@[simp] theorem State.setEmpty_serial (l : Nat) : (s.setEmpty l).serial = s.serial := rfl
@[simp] theorem State.setEmpty_fresh (l : Nat) : (s.setEmpty l).fresh = s.fresh := rfl
@[simp] theorem State.setEmpty_parts (l : Nat) : (s.setEmpty l).parts = s.parts := rfl
@[simp] theorem State.setEmpty_objects (l : Nat) : (s.setEmpty l).objects = s.objects := rfl
@[simp] theorem State.setEmpty_loads (l : Nat) : (s.setEmpty l).loads = s.loads := rfl
@[simp] theorem State.setEmpty_replicas (l : Nat) : (s.setEmpty l).replicas = s.replicas := rfl
@[simp] theorem State.setEmpty_copies (l : Nat) : (s.setEmpty l).copies = s.copies := rfl
@[simp] theorem State.setEmpty_fwq (l : Nat) : (s.setEmpty l).fwq = s.fwq := rfl
@[simp] theorem State.setEmpty_bstate (l : Nat) : (s.setEmpty l).bstate = s.bstate := rfl
@[simp] theorem State.setEmpty_berr (l : Nat) : (s.setEmpty l).berr = s.berr := rfl
@[simp] theorem State.setEmpty_blen (l : Nat) : (s.setEmpty l).blen = s.blen := rfl
@[simp] theorem State.setEmpty_meas (l : Nat) : (s.setEmpty l).meas = s.meas := rfl
@[simp] theorem State.setEmpty_chronT (l : Nat) : (s.setEmpty l).chronT = s.chronT := rfl
@[simp] theorem State.setEmpty_chronTrg (l : Nat) : (s.setEmpty l).chronTrg = s.chronTrg := rfl
@[simp] theorem State.setEmpty_snaps (l : Nat) : (s.setEmpty l).snaps = s.snaps := rfl
@[simp] theorem State.setEmpty_power (l : Nat) : (s.setEmpty l).power = s.power := rfl
@[simp] theorem State.setEmpty_overPow (l : Nat) : (s.setEmpty l).overPow = s.overPow := rfl
@[simp] theorem State.setEmpty_powerMs (l : Nat) : (s.setEmpty l).powerMs = s.powerMs := rfl
@[simp] theorem State.setEmpty_unitKey (l : Nat) : (s.setEmpty l).unitKey = s.unitKey := rfl
@[simp] theorem State.setEmpty_saves (l : Nat) : (s.setEmpty l).saves = s.saves := rfl
@[simp] theorem State.setEmpty_filled (l : Nat) : (s.setEmpty l).filled = s.filled := rfl
@[simp] theorem State.setEmpty_filledAt (l : Nat) : (s.setEmpty l).filledAt = s.filledAt := rfl
@[simp] theorem State.setEmpty_domain (l : Nat) : (s.setEmpty l).domain = s.domain := rfl
@[simp] theorem State.setEmpty_ideKey (l : Nat) : (s.setEmpty l).ideKey = s.ideKey := rfl
@[simp] theorem State.setEmpty_cxl (l : Nat) : (s.setEmpty l).cxl = s.cxl := rfl
@[simp] theorem State.setEmpty_errors (l : Nat) : (s.setEmpty l).errors = s.errors := rfl
@[simp] theorem State.setEmpty_links (l : Nat) : (s.setEmpty l).links = s.links := rfl
@[simp] theorem State.setEmpty_refill (l : Nat) : (s.setEmpty l).refill = s.refill := rfl
@[simp] theorem State.setEmpty_shareAt (l : Nat) : (s.setEmpty l).shareAt = s.shareAt := rfl
@[simp] theorem State.setEmpty_hostOut (l : Nat) : (s.setEmpty l).hostOut = s.hostOut := rfl

/-! ### `askCancel` -/

@[simp] theorem State.askCancel_agenda (lvl id : Nat) : (s.askCancel lvl id).agenda = s.agenda := rfl
@[simp] theorem State.askCancel_seat (lvl id : Nat) : (s.askCancel lvl id).seat = s.seat := rfl
@[simp] theorem State.askCancel_opSeq (lvl id : Nat) : (s.askCancel lvl id).opSeq = s.opSeq := rfl
@[simp] theorem State.askCancel_free (lvl id : Nat) : (s.askCancel lvl id).free = s.free := rfl
@[simp] theorem State.askCancel_cycle (lvl id : Nat) : (s.askCancel lvl id).cycle = s.cycle := rfl
@[simp] theorem State.askCancel_mem (lvl id : Nat) : (s.askCancel lvl id).mem = s.mem := rfl
@[simp] theorem State.askCancel_empty (lvl id : Nat) : (s.askCancel lvl id).empty = s.empty := rfl
@[simp] theorem State.askCancel_badLine (lvl id : Nat) : (s.askCancel lvl id).badLine = s.badLine := rfl
@[simp] theorem State.askCancel_readers (lvl id : Nat) : (s.askCancel lvl id).readers = s.readers := rfl
@[simp] theorem State.askCancel_badUnit (lvl id : Nat) : (s.askCancel lvl id).badUnit = s.badUnit := rfl
@[simp] theorem State.askCancel_badHost (lvl id : Nat) : (s.askCancel lvl id).badHost = s.badHost := rfl
@[simp] theorem State.askCancel_cores (lvl id : Nat) : (s.askCancel lvl id).cores = s.cores := rfl
@[simp] theorem State.askCancel_clusters (lvl id : Nat) : (s.askCancel lvl id).clusters = s.clusters := rfl
@[simp] theorem State.askCancel_tlb (lvl id : Nat) : (s.askCancel lvl id).tlb = s.tlb := rfl
@[simp] theorem State.askCancel_waiters (lvl id : Nat) : (s.askCancel lvl id).waiters = s.waiters := rfl
@[simp] theorem State.askCancel_subs (lvl id : Nat) : (s.askCancel lvl id).subs = s.subs := rfl
@[simp] theorem State.askCancel_circuits (lvl id : Nat) : (s.askCancel lvl id).circuits = s.circuits := rfl
@[simp] theorem State.askCancel_reds (lvl id : Nat) : (s.askCancel lvl id).reds = s.reds := rfl
@[simp] theorem State.askCancel_caches (lvl id : Nat) : (s.askCancel lvl id).caches = s.caches := rfl
@[simp] theorem State.askCancel_holds (lvl id : Nat) : (s.askCancel lvl id).holds = s.holds := rfl
@[simp] theorem State.askCancel_dial (lvl id : Nat) : (s.askCancel lvl id).dial = s.dial := rfl
@[simp] theorem State.askCancel_queues (lvl id : Nat) : (s.askCancel lvl id).queues = s.queues := rfl
@[simp] theorem State.askCancel_grant (lvl id : Nat) : (s.askCancel lvl id).grant = s.grant := rfl
@[simp] theorem State.askCancel_lastPass (lvl id : Nat) : (s.askCancel lvl id).lastPass = s.lastPass := rfl
@[simp] theorem State.askCancel_jobs (lvl id : Nat) : (s.askCancel lvl id).jobs = s.jobs := rfl
@[simp] theorem State.askCancel_graphs (lvl id : Nat) : (s.askCancel lvl id).graphs = s.graphs := rfl
@[simp] theorem State.askCancel_launches (lvl id : Nat) : (s.askCancel lvl id).launches = s.launches := rfl
@[simp] theorem State.askCancel_serial (lvl id : Nat) : (s.askCancel lvl id).serial = s.serial := rfl
@[simp] theorem State.askCancel_fresh (lvl id : Nat) : (s.askCancel lvl id).fresh = s.fresh := rfl
@[simp] theorem State.askCancel_parts (lvl id : Nat) : (s.askCancel lvl id).parts = s.parts := rfl
@[simp] theorem State.askCancel_objects (lvl id : Nat) : (s.askCancel lvl id).objects = s.objects := rfl
@[simp] theorem State.askCancel_loads (lvl id : Nat) : (s.askCancel lvl id).loads = s.loads := rfl
@[simp] theorem State.askCancel_replicas (lvl id : Nat) : (s.askCancel lvl id).replicas = s.replicas := rfl
@[simp] theorem State.askCancel_copies (lvl id : Nat) : (s.askCancel lvl id).copies = s.copies := rfl
@[simp] theorem State.askCancel_fwq (lvl id : Nat) : (s.askCancel lvl id).fwq = s.fwq := rfl
@[simp] theorem State.askCancel_bstate (lvl id : Nat) : (s.askCancel lvl id).bstate = s.bstate := rfl
@[simp] theorem State.askCancel_berr (lvl id : Nat) : (s.askCancel lvl id).berr = s.berr := rfl
@[simp] theorem State.askCancel_blen (lvl id : Nat) : (s.askCancel lvl id).blen = s.blen := rfl
@[simp] theorem State.askCancel_meas (lvl id : Nat) : (s.askCancel lvl id).meas = s.meas := rfl
@[simp] theorem State.askCancel_chronT (lvl id : Nat) : (s.askCancel lvl id).chronT = s.chronT := rfl
@[simp] theorem State.askCancel_chronTrg (lvl id : Nat) : (s.askCancel lvl id).chronTrg = s.chronTrg := rfl
@[simp] theorem State.askCancel_snaps (lvl id : Nat) : (s.askCancel lvl id).snaps = s.snaps := rfl
@[simp] theorem State.askCancel_power (lvl id : Nat) : (s.askCancel lvl id).power = s.power := rfl
@[simp] theorem State.askCancel_overPow (lvl id : Nat) : (s.askCancel lvl id).overPow = s.overPow := rfl
@[simp] theorem State.askCancel_powerMs (lvl id : Nat) : (s.askCancel lvl id).powerMs = s.powerMs := rfl
@[simp] theorem State.askCancel_unitKey (lvl id : Nat) : (s.askCancel lvl id).unitKey = s.unitKey := rfl
@[simp] theorem State.askCancel_saves (lvl id : Nat) : (s.askCancel lvl id).saves = s.saves := rfl
@[simp] theorem State.askCancel_filled (lvl id : Nat) : (s.askCancel lvl id).filled = s.filled := rfl
@[simp] theorem State.askCancel_filledAt (lvl id : Nat) : (s.askCancel lvl id).filledAt = s.filledAt := rfl
@[simp] theorem State.askCancel_domain (lvl id : Nat) : (s.askCancel lvl id).domain = s.domain := rfl
@[simp] theorem State.askCancel_ideKey (lvl id : Nat) : (s.askCancel lvl id).ideKey = s.ideKey := rfl
@[simp] theorem State.askCancel_cxl (lvl id : Nat) : (s.askCancel lvl id).cxl = s.cxl := rfl
@[simp] theorem State.askCancel_errors (lvl id : Nat) : (s.askCancel lvl id).errors = s.errors := rfl
@[simp] theorem State.askCancel_links (lvl id : Nat) : (s.askCancel lvl id).links = s.links := rfl
@[simp] theorem State.askCancel_refill (lvl id : Nat) : (s.askCancel lvl id).refill = s.refill := rfl
@[simp] theorem State.askCancel_shareAt (lvl id : Nat) : (s.askCancel lvl id).shareAt = s.shareAt := rfl
@[simp] theorem State.askCancel_hostOut (lvl id : Nat) : (s.askCancel lvl id).hostOut = s.hostOut := rfl

/-! ### `elapse` -/

@[simp] theorem State.elapse_agenda (cycles ticks : Nat) : (s.elapse cycles ticks).agenda = s.agenda := rfl
@[simp] theorem State.elapse_seat (cycles ticks : Nat) : (s.elapse cycles ticks).seat = s.seat := rfl
@[simp] theorem State.elapse_opSeq (cycles ticks : Nat) : (s.elapse cycles ticks).opSeq = s.opSeq := rfl
@[simp] theorem State.elapse_free (cycles ticks : Nat) : (s.elapse cycles ticks).free = s.free := rfl
@[simp] theorem State.elapse_mem (cycles ticks : Nat) : (s.elapse cycles ticks).mem = s.mem := rfl
@[simp] theorem State.elapse_empty (cycles ticks : Nat) : (s.elapse cycles ticks).empty = s.empty := rfl
@[simp] theorem State.elapse_badLine (cycles ticks : Nat) : (s.elapse cycles ticks).badLine = s.badLine := rfl
@[simp] theorem State.elapse_readers (cycles ticks : Nat) : (s.elapse cycles ticks).readers = s.readers := rfl
@[simp] theorem State.elapse_badUnit (cycles ticks : Nat) : (s.elapse cycles ticks).badUnit = s.badUnit := rfl
@[simp] theorem State.elapse_badHost (cycles ticks : Nat) : (s.elapse cycles ticks).badHost = s.badHost := rfl
@[simp] theorem State.elapse_cores (cycles ticks : Nat) :
    (s.elapse cycles ticks).cores = s.cores.map (fun x => (x.1, x.2.noteOldest s x.1)) := rfl
@[simp] theorem State.elapse_clusters (cycles ticks : Nat) : (s.elapse cycles ticks).clusters = s.clusters := rfl
@[simp] theorem State.elapse_tlb (cycles ticks : Nat) : (s.elapse cycles ticks).tlb = s.tlb := rfl
@[simp] theorem State.elapse_waiters (cycles ticks : Nat) : (s.elapse cycles ticks).waiters = s.waiters := rfl
@[simp] theorem State.elapse_subs (cycles ticks : Nat) : (s.elapse cycles ticks).subs = s.subs := rfl
@[simp] theorem State.elapse_circuits (cycles ticks : Nat) : (s.elapse cycles ticks).circuits = s.circuits := rfl
@[simp] theorem State.elapse_reds (cycles ticks : Nat) : (s.elapse cycles ticks).reds = s.reds := rfl
@[simp] theorem State.elapse_caches (cycles ticks : Nat) : (s.elapse cycles ticks).caches = s.caches := rfl
@[simp] theorem State.elapse_holds (cycles ticks : Nat) : (s.elapse cycles ticks).holds = s.holds := rfl
@[simp] theorem State.elapse_queues (cycles ticks : Nat) : (s.elapse cycles ticks).queues = s.queues := rfl
@[simp] theorem State.elapse_grant (cycles ticks : Nat) : (s.elapse cycles ticks).grant = s.grant := rfl
@[simp] theorem State.elapse_lastPass (cycles ticks : Nat) : (s.elapse cycles ticks).lastPass = s.lastPass := rfl
@[simp] theorem State.elapse_jobs (cycles ticks : Nat) : (s.elapse cycles ticks).jobs = s.jobs := rfl
@[simp] theorem State.elapse_graphs (cycles ticks : Nat) : (s.elapse cycles ticks).graphs = s.graphs := rfl
@[simp] theorem State.elapse_launches (cycles ticks : Nat) : (s.elapse cycles ticks).launches = s.launches := rfl
@[simp] theorem State.elapse_cancels (cycles ticks : Nat) : (s.elapse cycles ticks).cancels = s.cancels := rfl
@[simp] theorem State.elapse_serial (cycles ticks : Nat) : (s.elapse cycles ticks).serial = s.serial := rfl
@[simp] theorem State.elapse_fresh (cycles ticks : Nat) : (s.elapse cycles ticks).fresh = s.fresh := rfl
@[simp] theorem State.elapse_parts (cycles ticks : Nat) : (s.elapse cycles ticks).parts = s.parts := rfl
@[simp] theorem State.elapse_objects (cycles ticks : Nat) : (s.elapse cycles ticks).objects = s.objects := rfl
@[simp] theorem State.elapse_loads (cycles ticks : Nat) : (s.elapse cycles ticks).loads = s.loads := rfl
@[simp] theorem State.elapse_replicas (cycles ticks : Nat) : (s.elapse cycles ticks).replicas = s.replicas := rfl
@[simp] theorem State.elapse_copies (cycles ticks : Nat) : (s.elapse cycles ticks).copies = s.copies := rfl
@[simp] theorem State.elapse_fwq (cycles ticks : Nat) : (s.elapse cycles ticks).fwq = s.fwq := rfl
@[simp] theorem State.elapse_bstate (cycles ticks : Nat) : (s.elapse cycles ticks).bstate = s.bstate := rfl
@[simp] theorem State.elapse_berr (cycles ticks : Nat) : (s.elapse cycles ticks).berr = s.berr := rfl
@[simp] theorem State.elapse_blen (cycles ticks : Nat) : (s.elapse cycles ticks).blen = s.blen := rfl
@[simp] theorem State.elapse_meas (cycles ticks : Nat) : (s.elapse cycles ticks).meas = s.meas := rfl
@[simp] theorem State.elapse_chronT (cycles ticks : Nat) : (s.elapse cycles ticks).chronT = s.chronT := rfl
@[simp] theorem State.elapse_chronTrg (cycles ticks : Nat) : (s.elapse cycles ticks).chronTrg = s.chronTrg := rfl
@[simp] theorem State.elapse_snaps (cycles ticks : Nat) : (s.elapse cycles ticks).snaps = s.snaps := rfl
@[simp] theorem State.elapse_power (cycles ticks : Nat) : (s.elapse cycles ticks).power = s.power := rfl
@[simp] theorem State.elapse_overPow (cycles ticks : Nat) : (s.elapse cycles ticks).overPow = s.overPow := rfl
@[simp] theorem State.elapse_powerMs (cycles ticks : Nat) : (s.elapse cycles ticks).powerMs = s.powerMs := rfl
@[simp] theorem State.elapse_unitKey (cycles ticks : Nat) : (s.elapse cycles ticks).unitKey = s.unitKey := rfl
@[simp] theorem State.elapse_saves (cycles ticks : Nat) : (s.elapse cycles ticks).saves = s.saves := rfl
@[simp] theorem State.elapse_filled (cycles ticks : Nat) : (s.elapse cycles ticks).filled = s.filled := rfl
@[simp] theorem State.elapse_filledAt (cycles ticks : Nat) : (s.elapse cycles ticks).filledAt = s.filledAt := rfl
@[simp] theorem State.elapse_domain (cycles ticks : Nat) : (s.elapse cycles ticks).domain = s.domain := rfl
@[simp] theorem State.elapse_ideKey (cycles ticks : Nat) : (s.elapse cycles ticks).ideKey = s.ideKey := rfl
@[simp] theorem State.elapse_cxl (cycles ticks : Nat) : (s.elapse cycles ticks).cxl = s.cxl := rfl
@[simp] theorem State.elapse_errors (cycles ticks : Nat) : (s.elapse cycles ticks).errors = s.errors := rfl
@[simp] theorem State.elapse_links (cycles ticks : Nat) : (s.elapse cycles ticks).links = s.links := rfl
@[simp] theorem State.elapse_refill (cycles ticks : Nat) : (s.elapse cycles ticks).refill = s.refill := rfl
@[simp] theorem State.elapse_shareAt (cycles ticks : Nat) : (s.elapse cycles ticks).shareAt = s.shareAt := rfl
@[simp] theorem State.elapse_hostOut (cycles ticks : Nat) : (s.elapse cycles ticks).hostOut = s.hostOut := rfl

/-! ### `sit` -/

@[simp] theorem State.sit_agenda (c : Nat) (q : Seq) : (s.sit c q).agenda = s.agenda := rfl
@[simp] theorem State.sit_opSeq (c : Nat) (q : Seq) : (s.sit c q).opSeq = s.opSeq := rfl
@[simp] theorem State.sit_free (c : Nat) (q : Seq) : (s.sit c q).free = s.free := rfl
@[simp] theorem State.sit_cycle (c : Nat) (q : Seq) : (s.sit c q).cycle = s.cycle := rfl
@[simp] theorem State.sit_mem (c : Nat) (q : Seq) : (s.sit c q).mem = s.mem := rfl
@[simp] theorem State.sit_empty (c : Nat) (q : Seq) : (s.sit c q).empty = s.empty := rfl
@[simp] theorem State.sit_badLine (c : Nat) (q : Seq) : (s.sit c q).badLine = s.badLine := rfl
@[simp] theorem State.sit_readers (c : Nat) (q : Seq) : (s.sit c q).readers = s.readers := rfl
@[simp] theorem State.sit_badUnit (c : Nat) (q : Seq) : (s.sit c q).badUnit = s.badUnit := rfl
@[simp] theorem State.sit_badHost (c : Nat) (q : Seq) : (s.sit c q).badHost = s.badHost := rfl
@[simp] theorem State.sit_cores (c : Nat) (q : Seq) : (s.sit c q).cores = s.cores := rfl
@[simp] theorem State.sit_clusters (c : Nat) (q : Seq) : (s.sit c q).clusters = s.clusters := rfl
@[simp] theorem State.sit_tlb (c : Nat) (q : Seq) : (s.sit c q).tlb = s.tlb := rfl
@[simp] theorem State.sit_waiters (c : Nat) (q : Seq) : (s.sit c q).waiters = s.waiters := rfl
@[simp] theorem State.sit_subs (c : Nat) (q : Seq) : (s.sit c q).subs = s.subs := rfl
@[simp] theorem State.sit_circuits (c : Nat) (q : Seq) : (s.sit c q).circuits = s.circuits := rfl
@[simp] theorem State.sit_reds (c : Nat) (q : Seq) : (s.sit c q).reds = s.reds := rfl
@[simp] theorem State.sit_caches (c : Nat) (q : Seq) : (s.sit c q).caches = s.caches := rfl
@[simp] theorem State.sit_holds (c : Nat) (q : Seq) : (s.sit c q).holds = s.holds := rfl
@[simp] theorem State.sit_dial (c : Nat) (q : Seq) : (s.sit c q).dial = s.dial := rfl
@[simp] theorem State.sit_queues (c : Nat) (q : Seq) : (s.sit c q).queues = s.queues := rfl
@[simp] theorem State.sit_grant (c : Nat) (q : Seq) : (s.sit c q).grant = s.grant := rfl
@[simp] theorem State.sit_lastPass (c : Nat) (q : Seq) : (s.sit c q).lastPass = s.lastPass := rfl
@[simp] theorem State.sit_jobs (c : Nat) (q : Seq) : (s.sit c q).jobs = s.jobs := rfl
@[simp] theorem State.sit_graphs (c : Nat) (q : Seq) : (s.sit c q).graphs = s.graphs := rfl
@[simp] theorem State.sit_launches (c : Nat) (q : Seq) : (s.sit c q).launches = s.launches := rfl
@[simp] theorem State.sit_cancels (c : Nat) (q : Seq) : (s.sit c q).cancels = s.cancels := rfl
@[simp] theorem State.sit_serial (c : Nat) (q : Seq) : (s.sit c q).serial = s.serial := rfl
@[simp] theorem State.sit_fresh (c : Nat) (q : Seq) : (s.sit c q).fresh = s.fresh := rfl
@[simp] theorem State.sit_parts (c : Nat) (q : Seq) : (s.sit c q).parts = s.parts := rfl
@[simp] theorem State.sit_objects (c : Nat) (q : Seq) : (s.sit c q).objects = s.objects := rfl
@[simp] theorem State.sit_loads (c : Nat) (q : Seq) : (s.sit c q).loads = s.loads := rfl
@[simp] theorem State.sit_replicas (c : Nat) (q : Seq) : (s.sit c q).replicas = s.replicas := rfl
@[simp] theorem State.sit_copies (c : Nat) (q : Seq) : (s.sit c q).copies = s.copies := rfl
@[simp] theorem State.sit_fwq (c : Nat) (q : Seq) : (s.sit c q).fwq = s.fwq := rfl
@[simp] theorem State.sit_bstate (c : Nat) (q : Seq) : (s.sit c q).bstate = s.bstate := rfl
@[simp] theorem State.sit_berr (c : Nat) (q : Seq) : (s.sit c q).berr = s.berr := rfl
@[simp] theorem State.sit_blen (c : Nat) (q : Seq) : (s.sit c q).blen = s.blen := rfl
@[simp] theorem State.sit_meas (c : Nat) (q : Seq) : (s.sit c q).meas = s.meas := rfl
@[simp] theorem State.sit_chronT (c : Nat) (q : Seq) : (s.sit c q).chronT = s.chronT := rfl
@[simp] theorem State.sit_chronTrg (c : Nat) (q : Seq) : (s.sit c q).chronTrg = s.chronTrg := rfl
@[simp] theorem State.sit_snaps (c : Nat) (q : Seq) : (s.sit c q).snaps = s.snaps := rfl
@[simp] theorem State.sit_power (c : Nat) (q : Seq) : (s.sit c q).power = s.power := rfl
@[simp] theorem State.sit_overPow (c : Nat) (q : Seq) : (s.sit c q).overPow = s.overPow := rfl
@[simp] theorem State.sit_powerMs (c : Nat) (q : Seq) : (s.sit c q).powerMs = s.powerMs := rfl
@[simp] theorem State.sit_unitKey (c : Nat) (q : Seq) : (s.sit c q).unitKey = s.unitKey := rfl
@[simp] theorem State.sit_saves (c : Nat) (q : Seq) : (s.sit c q).saves = s.saves := rfl
@[simp] theorem State.sit_filled (c : Nat) (q : Seq) : (s.sit c q).filled = s.filled := rfl
@[simp] theorem State.sit_filledAt (c : Nat) (q : Seq) : (s.sit c q).filledAt = s.filledAt := rfl
@[simp] theorem State.sit_domain (c : Nat) (q : Seq) : (s.sit c q).domain = s.domain := rfl
@[simp] theorem State.sit_ideKey (c : Nat) (q : Seq) : (s.sit c q).ideKey = s.ideKey := rfl
@[simp] theorem State.sit_cxl (c : Nat) (q : Seq) : (s.sit c q).cxl = s.cxl := rfl
@[simp] theorem State.sit_errors (c : Nat) (q : Seq) : (s.sit c q).errors = s.errors := rfl
@[simp] theorem State.sit_links (c : Nat) (q : Seq) : (s.sit c q).links = s.links := rfl
@[simp] theorem State.sit_refill (c : Nat) (q : Seq) : (s.sit c q).refill = s.refill := rfl
@[simp] theorem State.sit_shareAt (c : Nat) (q : Seq) : (s.sit c q).shareAt = s.shareAt := rfl
@[simp] theorem State.sit_hostOut (c : Nat) (q : Seq) : (s.sit c q).hostOut = s.hostOut := rfl

/-! ### What an update writes -/

@[simp] theorem State.core_setCore (c d : Nat) (k : Core) : (s.setCore c k).core d = if d = c then k else s.core d :=
  Tbl.get_put _ _ _ _ _
@[simp] theorem State.setCore_setCore (c : Nat) (k l : Core) : (s.setCore c k).setCore c l = s.setCore c l := by
  simp [State.setCore]
@[simp] theorem State.here_setCore (c : Nat) (k : Core) :
    (s.setCore c k).here = if s.seat.core = c then k else s.here := by simp [State.here]
@[simp] theorem State.part_modPart (p q : Nat) (f : Part → Part) :
    (s.modPart p f).part q = if q = p then f (s.part p) else s.part q := Tbl.get_put _ _ _ _ _
@[simp] theorem State.cluster_modCluster (c d : Nat) (f : Cluster → Cluster) :
    (s.modCluster c f).cluster d = if d = c then f (s.cluster c) else s.cluster d := Tbl.get_put _ _ _ _ _
@[simp] theorem State.bump_opSeq : s.bump.opSeq = s.opSeq + 1 := rfl
@[simp] theorem State.next_fresh : s.next.fresh = s.fresh + 1 := rfl
@[simp] theorem State.elapse_cycle (a b : Nat) : (s.elapse a b).cycle = s.cycle + a := rfl
@[simp] theorem State.elapse_dial (a b : Nat) : (s.elapse a b).dial = s.dial + s.ticksTo b := rfl
@[simp] theorem State.sit_seat (c : Nat) (q : Seq) : (s.sit c q).seat = { core := c, lane := 0, seq := q } := rfl
@[simp] theorem State.askCancel_cancels (l i : Nat) : (s.askCancel l i).cancels = s.cancels ++ [(l, i)] := rfl

/-! ### Views that an update of something else leaves -/

@[simp] theorem State.core_modPart (p : Nat) (f : Part → Part) (c : Nat) : (s.modPart p f).core c = s.core c := rfl
@[simp] theorem State.core_modCluster (p : Nat) (f : Cluster → Cluster) (c : Nat) :
    (s.modCluster p f).core c = s.core c := rfl
@[simp] theorem State.core_bump (c : Nat) : s.bump.core c = s.core c := rfl
@[simp] theorem State.core_next (c : Nat) : s.next.core c = s.core c := rfl
@[simp] theorem State.core_setBad (l : Nat) (b : Bool) (c : Nat) : (s.setBad l b).core c = s.core c := rfl
@[simp] theorem State.core_setEmpty (l c : Nat) : (s.setEmpty l).core c = s.core c := rfl
@[simp] theorem State.core_askCancel (l i c : Nat) : (s.askCancel l i).core c = s.core c := rfl
@[simp] theorem State.core_countErr (d : Nat) (f : Errors → Errors) (c : Nat) : (s.countErr d f).core c = s.core c := rfl
@[simp] theorem State.core_sit (c : Nat) (q : Seq) (d : Nat) : (s.sit c q).core d = s.core d := rfl
@[simp] theorem State.here_bump : s.bump.here = s.here := rfl
@[simp] theorem State.here_next : s.next.here = s.here := rfl
@[simp] theorem State.here_setEmpty (l : Nat) : (s.setEmpty l).here = s.here := rfl
@[simp] theorem State.here_modPart (p : Nat) (f : Part → Part) : (s.modPart p f).here = s.here := rfl
@[simp] theorem State.here_modCluster (p : Nat) (f : Cluster → Cluster) : (s.modCluster p f).here = s.here := rfl
@[simp] theorem State.here_askCancel (l i : Nat) : (s.askCancel l i).here = s.here := rfl
@[simp] theorem State.part_setCore (c : Nat) (k : Core) (p : Nat) : (s.setCore c k).part p = s.part p := rfl
@[simp] theorem State.part_bump (p : Nat) : s.bump.part p = s.part p := rfl
@[simp] theorem State.part_next (p : Nat) : s.next.part p = s.part p := rfl
@[simp] theorem State.cluster_setCore (c : Nat) (k : Core) (d : Nat) : (s.setCore c k).cluster d = s.cluster d := rfl
@[simp] theorem State.cluster_bump (d : Nat) : s.bump.cluster d = s.cluster d := rfl
@[simp] theorem State.cluster_next (d : Nat) : s.next.cluster d = s.cluster d := rfl

/-! ### Updates of a core, as one update of the state -/

@[simp] theorem State.modCore_eq (c : Nat) (f : Core → Core) : s.modCore c f = s.setCore c (f (s.core c)) := rfl
@[simp] theorem State.modHere_eq (f : Core → Core) : s.modHere f = s.setCore s.seat.core (f s.here) := rfl
@[simp] theorem State.modCtl_eq (c : Nat) (f : Ctl → Ctl) :
    s.modCtl c f = s.setCore c { s.core c with ctl := f (s.core c).ctl } := rfl
@[simp] theorem State.modChain_eq (c n : Nat) (f : Chain → Chain) :
    s.modChain c n f = s.setCore c { s.core c with chains := (s.core c).chains.put n (f ((s.core c).chain n)) } := rfl
@[simp] theorem State.modPort_eq (c n : Nat) (f : Port → Port) :
    s.modPort c n f = s.setCore c { s.core c with ports := (s.core c).ports.put n (f ((s.core c).port n)) } := rfl
@[simp] theorem State.modVc_eq (c n : Nat) (f : Vc → Vc) :
    s.modVc c n f = s.setCore c { s.core c with vcs := (s.core c).vcs.put n (f ((s.core c).vc n)) } := rfl
@[simp] theorem State.modLane_eq (c n : Nat) (f : Lane → Lane) :
    s.modLane c n f = s.setCore c { s.core c with lanes := (s.core c).lanes.put n (f ((s.core c).lane n)) } := rfl
@[simp] theorem State.modMx_eq (c : Nat) (f : Mx → Mx) :
    s.modMx c f = s.setCore c { s.core c with mx := f (s.core c).mx } := rfl
@[simp] theorem State.setReg_eq (r : Reg) (v : Word) :
    s.setReg r v = s.setCore s.seat.core { s.here with ctl := s.here.ctl.setReg r v } := rfl
@[simp] theorem State.setPred_eq (p : Pred) (v : Bool) :
    s.setPred p v = s.setCore s.seat.core { s.here with ctl := s.here.ctl.setPred p v } := rfl
@[simp] theorem State.stepPc_eq :
    s.stepPc = s.setCore s.seat.core { s.here with ctl := s.here.ctl.stepPc } := rfl
@[simp] theorem State.jump_eq (t : Nat) :
    s.jump t = s.setCore s.seat.core { s.here with ctl := s.here.ctl.jump t } := rfl
@[simp] theorem State.core_seat : s.core s.seat.core = s.here := rfl

/-! ### Registers (R52) -/

variable (k : Ctl)

@[simp] theorem Ctl.reg_setReg (d r : Reg) (v : Word) :
    (k.setReg d v).reg r = if r = d ∧ r ≠ 0 then v else k.reg r := by
  unfold Ctl.setReg Ctl.reg
  by_cases hd : d = 0
  · subst hd; by_cases hr : r = 0 <;> simp [hr]
  · by_cases hr : r = 0
    · simp [hr]
    · simp only [hd, hr, if_false, Tbl.get_set, BitVec.toNat_inj, ne_eq, not_false_eq_true, and_true]

@[simp] theorem Ctl.pred_setPred (d r : Pred) (v : Bool) :
    (k.setPred d v).pred r = if r = d ∧ r ≠ 0 then v else k.pred r := by
  unfold Ctl.setPred Ctl.pred
  by_cases hd : d = 0
  · subst hd; by_cases hr : r = 0 <;> simp [hr]
  · by_cases hr : r = 0
    · simp [hr]
    · simp only [hd, hr, if_false, Tbl.get_set, BitVec.toNat_inj, ne_eq, not_false_eq_true, and_true]

/-! ### Further views under updates of something else -/

@[simp] theorem State.core_elapse (a b : Nat) (n : Nat) : (s.elapse a b).core n = (s.core n).noteOldest s n :=
  Tbl.get_mapAt (d := ({} : Core)) (Core.noteOldest s) s.cores n rfl
@[simp] theorem State.here_setBad (l : Nat) (b : Bool) : (s.setBad l b).here = s.here := rfl
@[simp] theorem State.here_countErr (e : Nat) (f : Errors → Errors) : (s.countErr e f).here = s.here := rfl
@[simp] theorem State.here_elapse (a b : Nat) : (s.elapse a b).here = s.here.noteOldest s s.seat.core :=
  State.core_elapse s a b _
@[simp] theorem State.part_modCluster (c : Nat) (f : Cluster → Cluster) (n : Nat) : (s.modCluster c f).part n = s.part n := rfl
@[simp] theorem State.part_askCancel (a b : Nat) (n : Nat) : (s.askCancel a b).part n = s.part n := rfl
@[simp] theorem State.part_setBad (l : Nat) (b : Bool) (n : Nat) : (s.setBad l b).part n = s.part n := rfl
@[simp] theorem State.part_setEmpty (l : Nat) (n : Nat) : (s.setEmpty l).part n = s.part n := rfl
@[simp] theorem State.part_countErr (e : Nat) (f : Errors → Errors) (n : Nat) : (s.countErr e f).part n = s.part n := rfl
@[simp] theorem State.part_sit (c : Nat) (q : Seq) (n : Nat) : (s.sit c q).part n = s.part n := rfl
@[simp] theorem State.part_elapse (a b : Nat) (n : Nat) : (s.elapse a b).part n = s.part n := rfl
@[simp] theorem State.cluster_modPart (p : Nat) (f : Part → Part) (n : Nat) : (s.modPart p f).cluster n = s.cluster n := rfl
@[simp] theorem State.cluster_askCancel (a b : Nat) (n : Nat) : (s.askCancel a b).cluster n = s.cluster n := rfl
@[simp] theorem State.cluster_setBad (l : Nat) (b : Bool) (n : Nat) : (s.setBad l b).cluster n = s.cluster n := rfl
@[simp] theorem State.cluster_setEmpty (l : Nat) (n : Nat) : (s.setEmpty l).cluster n = s.cluster n := rfl
@[simp] theorem State.cluster_countErr (e : Nat) (f : Errors → Errors) (n : Nat) : (s.countErr e f).cluster n = s.cluster n := rfl
@[simp] theorem State.cluster_sit (c : Nat) (q : Seq) (n : Nat) : (s.sit c q).cluster n = s.cluster n := rfl
@[simp] theorem State.cluster_elapse (a b : Nat) (n : Nat) : (s.elapse a b).cluster n = s.cluster n := rfl
@[simp] theorem State.isEmpty_countErr (e : Nat) (f : Errors → Errors) (n : Nat) : (s.countErr e f).isEmpty n = s.isEmpty n := rfl
@[simp] theorem State.isEmpty_sit (c : Nat) (q : Seq) (n : Nat) : (s.sit c q).isEmpty n = s.isEmpty n := rfl
@[simp] theorem State.isEmpty_elapse (a b : Nat) (n : Nat) : (s.elapse a b).isEmpty n = s.isEmpty n := rfl
@[simp] theorem State.isBad_countErr (e : Nat) (f : Errors → Errors) (n : Nat) : (s.countErr e f).isBad n = s.isBad n := rfl
@[simp] theorem State.isBad_sit (c : Nat) (q : Seq) (n : Nat) : (s.sit c q).isBad n = s.isBad n := rfl
@[simp] theorem State.isBad_elapse (a b : Nat) (n : Nat) : (s.elapse a b).isBad n = s.isBad n := rfl
@[simp] theorem State.readersOf_setBad (l : Nat) (b : Bool) (n : Nat) : (s.setBad l b).readersOf n = s.readersOf n := rfl
@[simp] theorem State.readersOf_setEmpty (l : Nat) (n : Nat) : (s.setEmpty l).readersOf n = s.readersOf n := rfl
@[simp] theorem State.readersOf_countErr (e : Nat) (f : Errors → Errors) (n : Nat) : (s.countErr e f).readersOf n = s.readersOf n := rfl
@[simp] theorem State.readersOf_sit (c : Nat) (q : Seq) (n : Nat) : (s.sit c q).readersOf n = s.readersOf n := rfl
@[simp] theorem State.readersOf_elapse (a b : Nat) (n : Nat) : (s.elapse a b).readersOf n = s.readersOf n := rfl

@[simp] theorem State.isEmpty_setCore (c : Nat) (k : Core) (l : Nat) : (s.setCore c k).isEmpty l = s.isEmpty l := rfl
@[simp] theorem State.isEmpty_modPart (p : Nat) (f : Part → Part) (l : Nat) : (s.modPart p f).isEmpty l = s.isEmpty l := rfl
@[simp] theorem State.isEmpty_modCluster (c : Nat) (f : Cluster → Cluster) (l : Nat) : (s.modCluster c f).isEmpty l = s.isEmpty l := rfl
@[simp] theorem State.isEmpty_bump (l : Nat) : s.bump.isEmpty l = s.isEmpty l := rfl
@[simp] theorem State.isEmpty_next (l : Nat) : s.next.isEmpty l = s.isEmpty l := rfl
@[simp] theorem State.isEmpty_askCancel (a b : Nat) (l : Nat) : (s.askCancel a b).isEmpty l = s.isEmpty l := rfl
@[simp] theorem State.isBad_setCore (c : Nat) (k : Core) (l : Nat) : (s.setCore c k).isBad l = s.isBad l := rfl
@[simp] theorem State.isBad_modPart (p : Nat) (f : Part → Part) (l : Nat) : (s.modPart p f).isBad l = s.isBad l := rfl
@[simp] theorem State.isBad_modCluster (c : Nat) (f : Cluster → Cluster) (l : Nat) : (s.modCluster c f).isBad l = s.isBad l := rfl
@[simp] theorem State.isBad_bump (l : Nat) : s.bump.isBad l = s.isBad l := rfl
@[simp] theorem State.isBad_next (l : Nat) : s.next.isBad l = s.isBad l := rfl
@[simp] theorem State.isBad_askCancel (a b : Nat) (l : Nat) : (s.askCancel a b).isBad l = s.isBad l := rfl
@[simp] theorem State.readersOf_setCore (c : Nat) (k : Core) (l : Nat) : (s.setCore c k).readersOf l = s.readersOf l := rfl
@[simp] theorem State.readersOf_modPart (p : Nat) (f : Part → Part) (l : Nat) : (s.modPart p f).readersOf l = s.readersOf l := rfl
@[simp] theorem State.readersOf_modCluster (c : Nat) (f : Cluster → Cluster) (l : Nat) : (s.modCluster c f).readersOf l = s.readersOf l := rfl
@[simp] theorem State.readersOf_bump (l : Nat) : s.bump.readersOf l = s.readersOf l := rfl
@[simp] theorem State.readersOf_next (l : Nat) : s.next.readersOf l = s.readersOf l := rfl
@[simp] theorem State.readersOf_askCancel (a b : Nat) (l : Nat) : (s.askCancel a b).readersOf l = s.readersOf l := rfl
@[simp] theorem State.isEmpty_setEmpty (k l : Nat) :
    (s.setEmpty k).isEmpty l = if l = k then true else s.isEmpty l := by
  simp [State.setEmpty, State.isEmpty, Tbl.get_set]
@[simp] theorem State.isBad_setEmpty (k l : Nat) : (s.setEmpty k).isBad l = s.isBad l := rfl
@[simp] theorem State.isEmpty_setBad (k : Nat) (b : Bool) (l : Nat) : (s.setBad k b).isEmpty l = s.isEmpty l := rfl
@[simp] theorem State.isBad_setBad (k : Nat) (b : Bool) (l : Nat) :
    (s.setBad k b).isBad l = if l = k then b else s.isBad l := by
  simp [State.setBad, State.isBad, Tbl.get_set]

end Sys2Proof.Machine
end

