-- ==== Sys2Proof/Laws/Control.lean ====
section
/-!
SUPPORT. What the shared operations of the control words do: issue, results, going on, and the frame of
register words.
-/

namespace Sys2Proof.Machine

variable {s : State} {g : Guard} {uses : List Dest}

/-! ## Issue (R67, R291, R298, R314) -/

/-- A word that issues has its effect. -/
theorem control_of_issues (h : Issues s g uses) (f : State → State) : control g uses s f = .next (f s) := by
  obtain ⟨hq, hs, hk, ho, hc, hg⟩ := h
  simp [control, hq, hs, hk, ho, hg, Nat.not_le.2 hc]

theorem controlEnd_of_issues (h : Issues s g uses) (f : State → State) : controlEnd g uses s f = .next (f s) := by
  obtain ⟨hq, hs, hk, ho, hc, hg⟩ := h
  simp [controlEnd, hq, hs, hk, ho, hg]

theorem alu_of_issues {d a b : Reg} (h : Issues s g [.g d, .g a, .g b]) (op : Word → Word → Word) :
    alu g d a b s op = .next (s.result d (op (s.reg a) (s.reg b))) := control_of_issues h _

theorem alu1_of_issues {d a : Reg} (h : Issues s g [.g d, .g a]) (op : Word → Word) :
    alu1 g d a s op = .next (s.result d (op (s.reg a))) := control_of_issues h _

/-- What the issue of a control word can come to. -/
theorem control_cases (g : Guard) (uses : List Dest) (s : State) (f : State → State) :
    control g uses s f = .next s ∨ control g uses s f = .next (s.killTask s.seat.core)
      ∨ control g uses s f = .next (s.trap 9 2048) ∨ control g uses s f = .next (f s)
      ∨ control g uses s f = .next s.stepPc := by
  unfold control
  split
  · exact .inl rfl
  · split
    · exact .inr (.inl rfl)
    · split
      · exact .inl rfl
      · split
        · exact .inr (.inr (.inl rfl))
        · split
          · exact .inr (.inr (.inr (.inl rfl)))
          · exact .inr (.inr (.inr (.inr rfl)))

theorem controlEnd_cases (g : Guard) (uses : List Dest) (s : State) (f : State → State) :
    controlEnd g uses s f = .next s ∨ controlEnd g uses s f = .next (s.killTask s.seat.core)
      ∨ controlEnd g uses s f = .next (s.trap 9 2048) ∨ controlEnd g uses s f = .next (f s)
      ∨ controlEnd g uses s f = .next s.stepPc := by
  unfold controlEnd
  split
  · exact .inl rfl
  · split
    · exact .inr (.inl rfl)
    · split
      · exact .inl rfl
      · split
        · exact .inr (.inr (.inr (.inl rfl)))
        · split
          · exact .inr (.inr (.inl rfl))
          · exact .inr (.inr (.inr (.inr rfl)))

/-! ## Results -/

theorem State.result_eq (d : Reg) (v : Word) :
    s.result d v = s.setCore s.seat.core { s.here with ctl := (s.here.ctl.setReg d v).stepPc } := by
  simp [State.result]

theorem State.resultQ_eq (d : Pred) (v : Bool) :
    s.resultQ d v = s.setCore s.seat.core { s.here with ctl := (s.here.ctl.setPred d v).stepPc } := by
  simp [State.resultQ]

theorem State.reg_of_control (h : s.seat.seq = .control) (r : Reg) : s.reg r = s.here.ctl.reg r := by
  simp [State.reg, h]

@[simp] theorem Ctl.reg_stepPc (k : Ctl) (r : Reg) : k.stepPc.reg r = k.reg r := rfl
@[simp] theorem Ctl.pred_stepPc (k : Ctl) (p : Pred) : k.stepPc.pred p = k.pred p := rfl
@[simp] theorem Ctl.stepPc_pc (k : Ctl) : k.stepPc.pc = k.pc + 1 := rfl
@[simp] theorem Ctl.stepPc_safecnt (k : Ctl) : k.stepPc.safecnt = k.safecnt + 1 := rfl
@[simp] theorem Ctl.reg_setPred (k : Ctl) (d : Pred) (v : Bool) (r : Reg) : (k.setPred d v).reg r = k.reg r := by
  unfold Ctl.setPred; split <;> rfl
@[simp] theorem Ctl.pred_setReg (k : Ctl) (d : Reg) (v : Word) (p : Pred) : (k.setReg d v).pred p = k.pred p := by
  unfold Ctl.setReg; split <;> rfl
/-- A register write changes the registers alone. -/
theorem Ctl.setReg_eq (k : Ctl) (d : Reg) (v : Word) : k.setReg d v = { k with g := (k.setReg d v).g } := by
  unfold Ctl.setReg; split <;> rfl
theorem Ctl.setPred_eq (k : Ctl) (d : Pred) (v : Bool) : k.setPred d v = { k with q := (k.setPred d v).q } := by
  unfold Ctl.setPred; split <;> rfl
@[simp] theorem Ctl.setReg_pc (k : Ctl) (d : Reg) (v : Word) : (k.setReg d v).pc = k.pc := by
  rw [Ctl.setReg_eq]
@[simp] theorem Ctl.setReg_safecnt (k : Ctl) (d : Reg) (v : Word) : (k.setReg d v).safecnt = k.safecnt := by
  rw [Ctl.setReg_eq]
@[simp] theorem Ctl.setPred_pc (k : Ctl) (d : Pred) (v : Bool) : (k.setPred d v).pc = k.pc := by
  rw [Ctl.setPred_eq]
@[simp] theorem Ctl.setPred_safecnt (k : Ctl) (d : Pred) (v : Bool) : (k.setPred d v).safecnt = k.safecnt := by
  rw [Ctl.setPred_eq]

/-- A result is written and the task goes on; nothing else changes. -/
theorem State.result_writes (h : s.seat.seq = .control) (d : Reg) (v : Word) : WritesReg d v s (s.result d v) := by
  rw [State.result_eq]
  refine ⟨fun r => ?_, fun p => ?_, ?_, ?_, ?_, fun a => rfl⟩
  · simp [State.reg, h]
  · simp [State.pred]
  · simp [StepsPc]
  · simp [OnlyCtl]
  · rw [Ctl.setReg_eq]; simp [Ctl.stepPc]

theorem State.resultQ_writes (h : s.seat.seq = .control) (d : Pred) (v : Bool) :
    WritesPred d v s (s.resultQ d v) := by
  rw [State.resultQ_eq]
  refine ⟨fun p => ?_, fun r => ?_, ?_, ?_, ?_, fun a => rfl⟩
  · simp [State.pred]
  · simp [State.reg, h]
  · simp [StepsPc]
  · simp [OnlyCtl]
  · rw [Ctl.setPred_eq]; simp [Ctl.stepPc]

theorem State.stepPc_next (s : State) : NextWord s s.stepPc := by
  refine ⟨fun r => ?_, fun p => ?_, ?_⟩
  · simp only [State.stepPc_eq, State.reg, State.setCore_seat, State.here_setCore, if_true]
    rfl
  · simp [State.pred]
  · simp [StepsPc]

/-- Going on after a change that leaves the registers, the predicates, the pc and `safecnt`. -/
theorem nextWord_stepPc {s u : State} (hq : s.seat.seq = .control) (h : u.seat = s.seat)
    (hc : u.here.ctl.g = s.here.ctl.g ∧ u.here.ctl.q = s.here.ctl.q ∧ u.here.ctl.pc = s.here.ctl.pc
      ∧ u.here.ctl.safecnt = s.here.ctl.safecnt) : NextWord s u.stepPc := by
  obtain ⟨h1, h2, h3, h4⟩ := hc
  refine ⟨fun r => ?_, fun p => ?_, ?_⟩
  · rw [State.reg_of_control hq, State.reg_of_control (s := u.stepPc) (by rw [State.stepPc_eq, State.setCore_seat, h, hq])]
    simp [Ctl.reg, Ctl.stepPc, h1]
  · simp [State.pred, Ctl.pred, Ctl.stepPc, h2]
  · simp [StepsPc, h3, h4]

theorem State.stepPc_registersOnly (s : State) : RegistersOnly s s.stepPc := by
  refine ⟨?_, ?_, fun a => rfl⟩
  · simp [OnlyCtl]
  · simp [Ctl.stepPc]

end Sys2Proof.Machine
end

