-- ==== Sys2Proof/Laws/Trap.lean ====
section
/-!
SUPPORT. What taking an exception does (R226), and the reports and discards that it is made of.
-/

namespace Sys2Proof.Machine

variable (s : State)

/-! ## Reports leave the cores and memory -/

/-- Neither the cores, the seat nor memory differ. -/
def SameCores (s t : State) : Prop := t.cores = s.cores ∧ t.seat = s.seat ∧ t.mem = s.mem

theorem SameCores.refl : SameCores s s := ⟨rfl, rfl, rfl⟩
theorem SameCores.trans {s t u : State} (h : SameCores s t) (g : SameCores t u) : SameCores s u :=
  ⟨g.1.trans h.1, g.2.1.trans h.2.1, g.2.2.trans h.2.2⟩
theorem SameCores.core {s t : State} (h : SameCores s t) (c : Nat) : t.core c = s.core c := by
  simp [State.core, h.1]
theorem SameCores.here {s t : State} (h : SameCores s t) : t.here = s.here := by
  simp [State.here, State.core, h.1, h.2.1]

theorem State.trigger_same (cause : Nat) : SameCores s (s.trigger cause) := by
  unfold State.trigger; split <;> exact ⟨rfl, rfl, rfl⟩

theorem State.report_same (p src cause flags a : Nat) (ev : Word) (task : W32) (ln : Nat) :
    SameCores s (s.report p src cause flags a ev task ln) := by
  unfold State.report
  refine SameCores.trans ?_ (State.trigger_same _ _)
  split <;> exact ⟨rfl, rfl, rfl⟩

theorem State.reportFw_same (src cause flags a : Nat) (ev : Word) :
    SameCores s (s.reportFw src cause flags a ev) := by
  unfold State.reportFw
  split <;> exact SameCores.trans ⟨rfl, rfl, rfl⟩ (State.trigger_same _ _)

theorem State.reportCore_same (c o cause : Nat) (stall : Bool) (a : Nat) (ev : Word) :
    SameCores s (s.reportCore c o cause stall a ev) := by
  unfold State.reportCore
  dsimp only
  split
  · exact State.reportFw_same ..
  · exact State.report_same ..

theorem State.modLaunch_same (n : Nat) (f : Launch → Launch) : SameCores s (s.modLaunch n f) := by
  unfold State.modLaunch; split <;> exact ⟨rfl, rfl, rfl⟩

theorem State.askCancel_same (l i : Nat) : SameCores s (s.askCancel l i) := ⟨rfl, rfl, rfl⟩

/-! ## Keeping a core's control and exception registers -/

/-- The core's control registers and exception registers, the seat and memory are the same. -/
def KeepsCtl (c : Nat) (s t : State) : Prop :=
  (t.core c).ctl = (s.core c).ctl ∧ (t.core c).cause = (s.core c).cause ∧ (t.core c).epc = (s.core c).epc
    ∧ (t.core c).evalue = (s.core c).evalue ∧ (t.core c).halted = (s.core c).halted ∧ t.seat = s.seat ∧ t.mem = s.mem

theorem KeepsCtl.refl (c : Nat) : KeepsCtl c s s := ⟨rfl, rfl, rfl, rfl, rfl, rfl, rfl⟩
theorem KeepsCtl.trans {c : Nat} {s t u : State} (h : KeepsCtl c s t) (g : KeepsCtl c t u) : KeepsCtl c s u := by
  obtain ⟨a1, a2, a3, a4, a5, a6, a7⟩ := h
  obtain ⟨b1, b2, b3, b4, b5, b6, b7⟩ := g
  exact ⟨b1.trans a1, b2.trans a2, b3.trans a3, b4.trans a4, b5.trans a5, b6.trans a6, b7.trans a7⟩
theorem SameCores.keeps {s t : State} (h : SameCores s t) (c : Nat) : KeepsCtl c s t := by
  simp [KeepsCtl, h.core c, h.2.1, h.2.2]

/-- An update of a core that leaves those registers. -/
theorem State.modCore_keeps (c d : Nat) (f : Core → Core)
    (h : ∀ k, (f k).ctl = k.ctl ∧ (f k).cause = k.cause ∧ (f k).epc = k.epc ∧ (f k).evalue = k.evalue
      ∧ (f k).halted = k.halted) : KeepsCtl c s (s.modCore d f) := by
  have := h (s.core d)
  by_cases hc : c = d
  · subst hc; simp [KeepsCtl, this]
  · simp [KeepsCtl, hc]

theorem State.release_keeps (c d : Nat) (o : Out) : KeepsCtl c s (s.release d o) := by
  unfold State.release
  split
  · exact State.modCore_keeps _ _ _ _ (fun k => ⟨rfl, rfl, rfl, rfl, rfl⟩)
  · exact State.modCore_keeps _ _ _ _ (fun k => ⟨rfl, rfl, rfl, rfl, rfl⟩)
  · exact State.modCore_keeps _ _ _ _ (fun k => ⟨rfl, rfl, rfl, rfl, rfl⟩)

theorem foldl_keeps {β : Type} (c : Nat) (f : State → β → State) (h : ∀ s x, KeepsCtl c s (f s x)) (l : List β) :
    KeepsCtl c s (l.foldl f s) := by
  induction l generalizing s with
  | nil => exact KeepsCtl.refl s c
  | cons x r ih => exact (h s x).trans (ih (f s x))

theorem State.giveBack_keeps (c d : Nat) (l : List (Nat × VcToken)) : KeepsCtl c s (s.giveBack d l) := by
  unfold State.giveBack
  refine foldl_keeps s c _ (fun s x => ?_) _
  exact State.modCore_keeps s c d _ (fun _ => ⟨rfl, rfl, rfl, rfl, rfl⟩)

theorem State.discard_keeps (c d : Nat) (w : Work) (back : Bool) : KeepsCtl c s (s.discard d w back) := by
  unfold State.discard
  have h := foldl_keeps s c (fun s o => s.release d o) (fun s o => State.release_keeps s c d o) w.outs
  cases back
  · exact h
  · exact h.trans (State.giveBack_keeps _ c d _)

theorem stopForks_keeps (ch : Nat) (k : Core) :
    (stopForks ch k).ctl = k.ctl ∧ (stopForks ch k).cause = k.cause ∧ (stopForks ch k).epc = k.epc
      ∧ (stopForks ch k).evalue = k.evalue ∧ (stopForks ch k).halted = k.halted := by
  unfold stopForks
  simp only
  split <;> split <;> exact ⟨rfl, rfl, rfl, rfl, rfl⟩

theorem freeEntry_keeps (cyc n m : Nat) (k : Core) :
    ({ freeEntry cyc n k with slots := (freeEntry cyc n k).slots.drop m } : Core).ctl = k.ctl
      ∧ (freeEntry cyc n k).cause = k.cause ∧ (freeEntry cyc n k).epc = k.epc
      ∧ (freeEntry cyc n k).evalue = k.evalue ∧ (freeEntry cyc n k).halted = k.halted := by
  unfold freeEntry
  split
  · split <;> exact ⟨rfl, rfl, rfl, rfl, rfl⟩
  · exact ⟨rfl, rfl, rfl, rfl, rfl⟩

theorem State.faultUnit_keeps (c d ch : Nat) : KeepsCtl c s (s.faultUnit d ch) := by
  unfold State.faultUnit
  have h : KeepsCtl c s (s.modChain d ch (fun x => { x with status := .faulted })) :=
    State.modCore_keeps s c d _ (fun _ => ⟨rfl, rfl, rfl, rfl, rfl⟩)
  simp only
  split
  · exact h
  · exact h.trans (SameCores.keeps ((State.modLaunch_same _ _ _).trans (State.askCancel_same _ _ _)) c)

/-! ## Taking an exception -/

/-- The idle sequencer of a core that has just been left. -/
theorem KeepsCtl.idle {s t : State} (h : KeepsCtl s.seat.core s t) :
    (t.modCtl s.seat.core Ctl.idle).here.ctl.slot = none ∧ (t.modCtl s.seat.core Ctl.idle).here.cause = s.here.cause
      ∧ (t.modCtl s.seat.core Ctl.idle).here.epc = s.here.epc
      ∧ (t.modCtl s.seat.core Ctl.idle).here.evalue = s.here.evalue
      ∧ (t.modCtl s.seat.core Ctl.idle).mem = s.mem ∧ (t.modCtl s.seat.core Ctl.idle).seat = s.seat := by
  obtain ⟨a1, a2, a3, a4, a5, a6, a7⟩ := h
  simp [a6, a7, Ctl.idle, a2, a3, a4]

/-- The state in which a trap has written its registers, before anything is discarded. -/
theorem State.trap_registers (cause : Nat) (ev : Word) (r : State) (hr : SameCores s r) :
    let u := r.modCore s.seat.core (fun k => { k with
      cause := BitVec.ofNat 64 cause, epc := BitVec.ofNat 64 k.ctl.pc, evalue := ev })
    u.seat = s.seat ∧ u.mem = s.mem ∧ u.here.cause = BitVec.ofNat 64 cause
      ∧ u.here.epc = BitVec.ofNat 64 s.here.ctl.pc ∧ u.here.evalue = ev := by
  have hc : r.core s.seat.core = s.here := hr.core _
  refine ⟨hr.2.1, hr.2.2, ?_⟩
  have e : (r.modCore s.seat.core (fun k => { k with
      cause := BitVec.ofNat 64 cause, epc := BitVec.ofNat 64 k.ctl.pc, evalue := ev })).here
      = { s.here with cause := BitVec.ofNat 64 cause, epc := BitVec.ofNat 64 s.here.ctl.pc, evalue := ev } := by
    have : (r.modCore s.seat.core (fun k => { k with
      cause := BitVec.ofNat 64 cause, epc := BitVec.ofNat 64 k.ctl.pc, evalue := ev })).seat = s.seat := hr.2.1
    rw [State.here, this, State.modCore_eq, State.core_setCore, if_pos rfl, hc]
  rw [e]
  exact ⟨rfl, rfl, rfl⟩

/-- A trap writes its registers, then discards and frees, which keeps them, then leaves the sequencer idle. -/
theorem State.trap_shape (cause : Nat) (ev : Word) :
    let u := (s.reportCore s.seat.core 0 cause false s.here.ctl.pc ev).modCore s.seat.core (fun k => { k with
      cause := BitVec.ofNat 64 cause, epc := BitVec.ofNat 64 k.ctl.pc, evalue := ev })
    ∃ x, KeepsCtl s.seat.core u x ∧ (s.trap cause ev = x.modCtl s.seat.core Ctl.idle
      ∨ s.trap cause ev = (x.modCtl s.seat.core Ctl.idle).faultUnit s.seat.core s.here.ctl.chain) := by
  dsimp only
  unfold State.trap
  dsimp only
  split
  · exact ⟨_, State.discard_keeps .., .inl rfl⟩
  · refine ⟨_, ?_, .inr rfl⟩
    refine KeepsCtl.trans ?_ (State.modCore_keeps _ _ _ _ (fun _ => ⟨rfl, rfl, rfl, rfl, rfl⟩))
    refine KeepsCtl.trans ?_ (State.modCore_keeps _ _ _ _ (fun k => stopForks_keeps _ k))
    split
    · exact (State.discard_keeps ..).trans (State.modCore_keeps _ _ _ _ (fun k => freeEntry_keeps _ _ _ k))
    · exact State.discard_keeps ..

/-- What a trap writes (R226). -/
theorem State.trap_traps (cause : Nat) (ev : Word) : Traps cause ev s (s.trap cause ev) := by
  obtain ⟨x, hx, hs⟩ := State.trap_shape s cause ev
  obtain ⟨u1, u2, u3, u4, u5⟩ := State.trap_registers s cause ev _ (State.reportCore_same s s.seat.core 0 cause false s.here.ctl.pc ev)
  generalize (s.reportCore s.seat.core 0 cause false s.here.ctl.pc ev).modCore s.seat.core (fun k => { k with
      cause := BitVec.ofNat 64 cause, epc := BitVec.ofNat 64 k.ctl.pc, evalue := ev }) = u at *
  obtain ⟨i1, i2, i3, i4, i5, i6⟩ := KeepsCtl.idle (s := u) (t := x) (by rw [u1]; exact hx)
  rw [u1] at i1 i2 i3 i4 i5 i6
  obtain hs | hs := hs
  · rw [hs]
    exact ⟨i2.trans u3, i3.trans u4, i4.trans u5, i1, fun a => by rw [i5, u2]⟩
  · obtain ⟨c1, c2, c3, c4, c5, c6, c7⟩ :=
      State.faultUnit_keeps (x.modCtl s.seat.core Ctl.idle) s.seat.core s.seat.core s.here.ctl.chain
    rw [hs]
    have eh : ∀ y : State, y.seat = s.seat → y.here = y.core s.seat.core := fun y hy => by rw [State.here, hy]
    rw [← eh _ (c6.trans i6), ← eh _ i6] at c1 c2 c3 c4
    exact ⟨c2.trans (i2.trans u3), c3.trans (i3.trans u4), c4.trans (i4.trans u5), by rw [c1]; exact i1,
      fun a => by rw [c7, i5, u2]⟩

/-- A trap taken after a change that leaves the pc and memory. -/
theorem State.trap_traps_of {s u : State} (hpc : u.here.ctl.pc = s.here.ctl.pc) (hmem : u.mem = s.mem) (cause : Nat)
    (ev : Word) : Traps cause ev s (u.trap cause ev) := by
  obtain ⟨h1, h2, h3, h4, h5⟩ := State.trap_traps u cause ev
  exact ⟨h1, by rw [h2, hpc], h3, h4, fun a => by rw [h5, hmem]⟩

/-! ## Rewinding (R65) -/

theorem State.modSlot_keeps (c d n : Nat) (f : Slot → Slot) : KeepsCtl c s (s.modSlot d n f) := by
  unfold State.modSlot
  split
  · exact State.modCore_keeps _ _ _ _ (fun _ => ⟨rfl, rfl, rfl, rfl, rfl⟩)
  · exact KeepsCtl.refl _ _

/-- A rewound task leaves its sequencer idle, and memory as it was. -/
theorem State.rewind_idle (l : Nat) : (s.rewind l).here.ctl.slot = none ∧ MemoryKept s (s.rewind l) := by
  have key : ∃ x, KeepsCtl s.seat.core s x ∧ s.rewind l = x.modCtl s.seat.core Ctl.idle := by
    unfold State.rewind State.unwind
    dsimp only
    split
    · exact ⟨_, (State.discard_keeps ..).trans (State.modSlot_keeps ..), rfl⟩
    · exact ⟨_, State.discard_keeps .., rfl⟩
  obtain ⟨x, hx, e⟩ := key
  rw [e]
  exact ⟨hx.idle.1, fun a => by rw [hx.idle.2.2.2.2.1]⟩

end Sys2Proof.Machine
end

