-- ==== Sys2Proof/Laws/Access.lean ====
section
/-!
SUPPORT. What the shared operations of task accesses do: the ordered-domain check, settling, a task's read,
and its write buffer.
-/

namespace Sys2Proof.Machine

variable {s : State}

/-! ## The ordered-domain check (R66, R174) -/

theorem State.irrevocable_of_unordered (h : Unordered s) (f : State → State) : s.irrevocable f = f s := by
  unfold State.irrevocable
  obtain h | h := h <;> simp [h]

/-- The state of a settled task. -/
def State.settled (s : State) : State :=
  s.modCtl s.seat.core (fun x => { x with work := { x.work with settled := true } })

theorem State.settling_of_unordered (h : Unordered s) (f : State → State) : s.settling f = f s.settled := by
  unfold State.settling
  rw [State.irrevocable_of_unordered h]
  rfl

theorem State.settled_eq :
    s.settled = s.setCore s.seat.core { s.here with
      ctl := { s.here.ctl with work := { s.here.ctl.work with settled := true } } } := by
  simp [State.settled]

@[simp] theorem State.settled_seat : s.settled.seat = s.seat := rfl
@[simp] theorem State.settled_mem : s.settled.mem = s.mem := rfl
@[simp] theorem State.settled_cluster (c : Nat) : s.settled.cluster c = s.cluster c := rfl
@[simp] theorem State.settled_part (p : Nat) : s.settled.part p = s.part p := rfl
@[simp] theorem State.settled_isBad (l : Nat) : s.settled.isBad l = s.isBad l := rfl
@[simp] theorem State.settled_isEmpty (l : Nat) : s.settled.isEmpty l = s.isEmpty l := rfl
@[simp] theorem State.settled_opSeq : s.settled.opSeq = s.opSeq := rfl
@[simp] theorem State.settled_fresh : s.settled.fresh = s.fresh := rfl
@[simp] theorem State.settled_here : s.settled.here = { s.here with
    ctl := { s.here.ctl with work := { s.here.ctl.work with settled := true } } } := by
  rw [State.settled_eq, State.here_setCore, if_pos rfl]
@[simp] theorem State.settled_reg (r : Reg) : s.settled.reg r = s.reg r := by
  unfold State.reg
  rw [State.settled_seat, State.settled_here]
  rfl
@[simp] theorem State.settled_pred (p : Pred) : s.settled.pred p = s.pred p := by
  unfold State.pred
  rw [State.settled_here]
  rfl

theorem State.trap_settled (cause : Nat) (ev : Word) : Traps cause ev s (s.settled.trap cause ev) :=
  State.trap_traps_of (s := s) (u := s.settled) (by rw [State.settled_here]) rfl cause ev

/-! ## Full and empty (R120) -/

/-- Filling a line makes the rewound tasks that wait for it runnable, and changes no core otherwise. -/
theorem State.core_setFull (l c : Nat) :
    (s.setFull l).core c = { s.core c with slots := wakeSlots l s.cycle (s.core c).slots } := by
  unfold State.core State.setFull
  exact Tbl.get_map (fun k : Core => { k with slots := wakeSlots l s.cycle k.slots }) rfl s.cores c

theorem State.here_setFull (l : Nat) :
    (s.setFull l).here = { s.here with slots := wakeSlots l s.cycle s.here.slots } := State.core_setFull l _

theorem State.isEmpty_setLine (l : Nat) (full : Bool) (j : Nat) :
    (s.setLine l full).isEmpty j = if j = l ∧ (full = true ∨ s.filledNow l = false) then !full else s.isEmpty j := by
  unfold State.setLine
  cases full
  · cases s.filledNow l <;> simp [State.setEmpty, State.isEmpty, Tbl.get_set]
  · simp [State.setFull, State.isEmpty, Tbl.get_set]

theorem State.here_setLine_ctl (l : Nat) (full : Bool) : (s.setLine l full).here.ctl = s.here.ctl := by
  unfold State.setLine
  cases full
  · rw [if_neg (by decide)]
    split <;> rfl
  · rw [if_pos rfl, State.here_setFull]

theorem State.setLine_seat (l : Nat) (full : Bool) : (s.setLine l full).seat = s.seat := by
  unfold State.setLine
  split_ifs <;> rfl

theorem State.setLine_mem (l : Nat) (full : Bool) : (s.setLine l full).mem = s.mem := by
  unfold State.setLine
  split_ifs <;> rfl

/-! ## The write buffer (R168, R426) -/

theorem find_mergeBytes (t u : Tbl Byte) (hu : (u.map (·.1)).Nodup) (k : Nat) :
    Tbl.find (mergeBytes t u) k = (Tbl.find u k).or (Tbl.find t k) := by
  induction u generalizing t with
  | nil => simp [mergeBytes]
  | cons x r ih =>
    obtain ⟨j, v⟩ := x
    simp only [List.map_cons, List.nodup_cons] at hu
    rw [mergeBytes, ih _ hu.2, Tbl.find_put, Tbl.find_cons]
    by_cases h : k = j
    · subst h
      have : Tbl.find r k = none := by
        have h1 := hu.1
        clear ih hu
        induction r with
        | nil => rfl
        | cons y r ih =>
          simp only [List.map_cons, List.mem_cons, not_or] at h1
          rw [Tbl.find_cons, if_neg (fun e => h1.1 e.symm), ih h1.2]
      simp [this]
    · simp [h, Ne.symm h]

theorem indexBytes_keys (off : Nat) (l : List Byte) : (indexBytes off l).map (·.1) = List.range' off l.length := by
  induction l generalizing off with
  | nil => rfl
  | cons b r ih => simp [indexBytes, ih, List.range'_succ]

theorem find_indexBytes (off : Nat) (l : List Byte) (k : Nat) :
    Tbl.find (indexBytes off l) k = if off ≤ k then l[k - off]? else none := by
  induction l generalizing off with
  | nil => simp [indexBytes]
  | cons b r ih =>
    rw [indexBytes, Tbl.find_cons, ih]
    by_cases h : off = k
    · subst h; simp
    · by_cases h2 : off + 1 ≤ k
      · rw [if_neg h, if_pos h2, if_pos (by omega), show k - off = (k - (off + 1)) + 1 by omega]
        simp
      · rw [if_neg h, if_neg h2, if_neg (by omega)]

theorem length_leBytes (v n : Nat) : (leBytes v n).length = n := by
  induction n generalizing v with
  | zero => rfl
  | succ n ih => simp [leBytes, ih]

theorem getElem?_leBytes (v n i : Nat) (h : i < n) : (leBytes v n)[i]? = some (BitVec.ofNat 8 (v / 256 ^ i)) := by
  induction n generalizing v i with
  | zero => omega
  | succ n ih =>
    cases i with
    | zero => simp [leBytes]
    | succ i => simp [leBytes, ih _ i (by omega), Nat.div_div_eq_div_mul, pow_succ']

/-- The write buffer after a store: the stored bytes at their places, the others as before. -/
theorem find_buffer (w : Tbl Byte) (key v n j : Nat) :
    Tbl.find (mergeBytes w (indexBytes key (leBytes v n))) j =
      if key ≤ j ∧ j < key + n then some (BitVec.ofNat 8 (v / 256 ^ (j - key))) else Tbl.find w j := by
  rw [find_mergeBytes _ _ (by rw [indexBytes_keys]; exact List.nodup_range'), find_indexBytes]
  by_cases h : key ≤ j
  · by_cases h2 : j < key + n
    · rw [if_pos h, if_pos ⟨h, h2⟩, getElem?_leBytes _ _ _ (by omega)]; rfl
    · rw [if_pos h, if_neg (by omega), List.getElem?_eq_none (by rw [length_leBytes]; omega)]; rfl
  · rw [if_neg h, if_neg (by omega)]; rfl

/-! ## A task's read (R368) -/

/-- The state in which a task has taken a line into its read set, if it had room. -/
def State.noted (s : State) (l : Nat) : State :=
  s.modCtl s.seat.core (fun x =>
    if s.here.ctl.work.reads.contains l || 128 ≤ s.here.ctl.work.reads.length then x
    else { x with work := { s.here.ctl.work with reads := l :: s.here.ctl.work.reads } })

theorem State.noted_eq (l : Nat) : ∃ r, s.noted l = s.setCore s.seat.core { s.here with
    ctl := { s.here.ctl with work := { s.here.ctl.work with reads := r } } } := by
  unfold State.noted
  split
  · exact ⟨s.here.ctl.work.reads, by simp⟩
  · exact ⟨l :: s.here.ctl.work.reads, by simp⟩

/-- The bytes of a read: buffered ones, else memory's. -/
theorem taskRead_value (t o n : Nat) :
    (List.range n).map (fun i =>
      ((((List.range n).map (fun i => Tbl.find s.here.ctl.work.wbuf (t * 2 ^ 19 + o + i)))[i]?).join).getD
        (s.mem.read (spKey t (o + i))))
      = (List.range n).map (fun i => s.taskByte t (o + i)) := by
  apply List.map_congr_left
  intro i hi
  have : i < n := List.mem_range.1 hi
  simp [this, State.taskByte, Nat.add_assoc]

/-- A readable access gets its value, and changes the read set alone. -/
theorem State.taskRead_of_readable {addr : Word} {n t o : Nat} (h : Readable s addr n t o)
    (k : State → Nat → Nat → State) :
    s.taskRead addr n k = k (s.noted (lineKey t (o / 128))) (s.taskNat t o n) t := by
  obtain ⟨h1, h2, h0, h3, h4, h5⟩ := h
  unfold State.taskRead
  dsimp only
  rw [h1]
  dsimp only
  rw [if_neg (not_not.2 h2), h0, if_neg (by decide), h3, if_neg (by decide)]
  have hp : (s.here.ctl.work.reads.contains (lineKey t (o / 128)) || decide (s.here.ctl.work.reads.length < 128)) = true
      ∨ Unordered s := by
    obtain h | h := h5
    · left; simp [h]
    · exact .inr h
  have hb : (((List.range n).map (fun i => Tbl.find s.here.ctl.work.wbuf (t * 2 ^ 19 + o + i))).any Option.isNone
      && s.isBad (lineKey t (o / 128))) = false := by
    cases hbad : s.isBad (lineKey t (o / 128))
    · simp
    · have := h4 hbad
      rw [Bool.and_true, List.any_eq_false]
      intro x hx
      obtain ⟨i, hi, rfl⟩ := List.mem_map.1 hx
      have := this i (List.mem_range.1 hi)
      simp [Option.isSome_iff_ne_none] at this ⊢
      exact this
  have fin : (if (((List.range n).map (fun i => Tbl.find s.here.ctl.work.wbuf (t * 2 ^ 19 + o + i))).any Option.isNone
        && (s.noted (lineKey t (o / 128))).isBad (lineKey t (o / 128))) = true
      then (s.noted (lineKey t (o / 128))).trap 21 addr
      else k (s.noted (lineKey t (o / 128))) (leNat ((List.range n).map (fun i =>
        ((((List.range n).map (fun i => Tbl.find s.here.ctl.work.wbuf (t * 2 ^ 19 + o + i)))[i]?).join).getD
          ((s.noted (lineKey t (o / 128))).mem.read (spKey t (o + i)))))) t)
      = k (s.noted (lineKey t (o / 128))) (s.taskNat t o n) t := by
    have e1 : (s.noted (lineKey t (o / 128))).isBad (lineKey t (o / 128)) = s.isBad (lineKey t (o / 128)) := rfl
    have e2 : (s.noted (lineKey t (o / 128))).mem = s.mem := rfl
    rw [e1, hb, if_neg (by decide), e2, taskRead_value]
    rfl
  split
  · exact fin
  · rw [State.irrevocable_of_unordered (hp.resolve_left ‹_›)]
    exact fin

/-- A read that takes a byte from a poisoned line traps. -/
theorem State.taskRead_of_poisoned {addr : Word} {n t o : Nat} (h1 : placeOf s.seat.core addr n = .scratch t o)
    (h2 : addr.toNat % n = 0) (h0 : (s.core t).wordHeld o n = false) (h3 : s.isEmpty (lineKey t (o / 128)) = false)
    (h4 : s.isBad (lineKey t (o / 128)) = true)
    (h5 : ∃ i < n, Tbl.find s.here.ctl.work.wbuf (t * 2 ^ 19 + o + i) = none)
    (h6 : s.here.ctl.work.reads.length < 128 ∨ Unordered s) (k : State → Nat → Nat → State) :
    s.taskRead addr n k = (s.noted (lineKey t (o / 128))).trap 21 addr := by
  unfold State.taskRead
  dsimp only
  rw [h1]
  dsimp only
  rw [if_neg (not_not.2 h2), h0, if_neg (by decide), h3, if_neg (by decide)]
  have hb : (((List.range n).map (fun i => Tbl.find s.here.ctl.work.wbuf (t * 2 ^ 19 + o + i))).any Option.isNone
      && (s.noted (lineKey t (o / 128))).isBad (lineKey t (o / 128))) = true := by
    rw [show (s.noted (lineKey t (o / 128))).isBad (lineKey t (o / 128)) = s.isBad (lineKey t (o / 128)) from rfl, h4,
      Bool.and_true, List.any_eq_true]
    obtain ⟨i, hi, e⟩ := h5
    exact ⟨_, List.mem_map.2 ⟨i, List.mem_range.2 hi, rfl⟩, by rw [e]; rfl⟩
  have fin : ∀ x, (if (((List.range n).map (fun i => Tbl.find s.here.ctl.work.wbuf (t * 2 ^ 19 + o + i))).any
        Option.isNone && (s.noted (lineKey t (o / 128))).isBad (lineKey t (o / 128))) = true
      then (s.noted (lineKey t (o / 128))).trap 21 addr else x) = (s.noted (lineKey t (o / 128))).trap 21 addr :=
    fun x => if_pos hb
  split
  · exact fin _
  · rename_i hn
    rw [State.irrevocable_of_unordered (h6.resolve_left (by intro h; exact hn (by simp [h])))]
    exact fin _

end Sys2Proof.Machine
end

