-- ==== Sys2Proof/Laws/Canonical.lean ====
section
/-!
SUPPORT. Every operation that writes memory keeps its one canonical form (notes/assumptions/5.md).
-/

namespace Sys2Proof.Machine

theorem State.wf_lineStore (s : State) (c line : Nat) (bytes : Tbl Byte) (bad pub : Bool) (h : s.mem.wf) :
    (s.lineStore c line bytes bad pub).mem.wf :=
  Memory.wf_foldl (fun x : Nat × Byte => spKey c (line * 128 + x.1)) Prod.snd bytes h

theorem State.wf_writeBack (s : State) (cl line : Nat) (h : s.mem.wf) : (s.writeBack cl line).mem.wf := by
  unfold State.writeBack
  dsimp only
  split
  · exact h
  · rename_i x _
    exact Memory.wf_foldl (fun y : Nat × Byte => line * 128 + y.1) Prod.snd x.changed h

/-- A fold whose steps keep the canonical form keeps it. -/
theorem State.wf_foldl {β : Type} (f : State → β → State) (l : List β) (hf : ∀ s x, s.mem.wf → (f s x).mem.wf)
    (s : State) (h : s.mem.wf) : (l.foldl f s).mem.wf := by
  induction l generalizing s with
  | nil => exact h
  | cons x r ih => exact ih _ (hf s x h)

theorem State.wf_recall (s : State) (line : Nat) (h : s.mem.wf) : (s.recall line).mem.wf := by
  refine State.wf_foldl _ _ (fun s x h => ?_) s h
  split
  · exact State.wf_writeBack s _ _ h
  · exact h

theorem State.wf_physRead (s : State) (pas : List Nat) (h : s.mem.wf) : (s.physRead pas).1.mem.wf :=
  State.wf_foldl _ _ (fun s a h => State.wf_recall s (a / 128) h) s h

theorem State.wf_physWrite (s : State) (pas : List Nat) (bytes : List Byte) (bad : Bool) (h : s.mem.wf) :
    (s.physWrite pas bytes bad).mem.wf :=
  Memory.wf_foldl (Prod.fst : Nat × Byte → Nat) Prod.snd (pas.zip bytes)
    (State.wf_foldl _ _ (fun s a h => State.wf_recall s (a / 128) h) s h)

theorem State.wf_walked (s : State) (die p va : Nat) (h : s.mem.wf) : (s.walked die p va).mem.wf := by
  unfold State.walked
  split
  · exact h
  · exact State.wf_foldl _ _ (fun s a h => State.wf_recall s _ h) s h

/-- A page decrypted with one key and encrypted with another keeps the canonical form (R255). -/
theorem State.wf_rekeyUnit (s : State) (old key : List Byte) (u : Nat) (h : s.mem.wf) :
    (s.rekeyUnit old key u).mem.wf := by
  unfold State.rekeyUnit
  dsimp only
  generalize xts true _ _ _ = b
  exact Memory.wf_writes _ _ (State.wf_recall s _ h)

theorem State.wf_keyed (s : State) (p : Nat) (pas : List Nat) (write : Bool) (h : s.mem.wf) :
    (s.keyed p pas write).mem.wf := by
  refine State.wf_foldl _ _ (fun s u h => ?_) s h
  split
  · split
    · exact h
    · exact State.wf_rekeyUnit s _ _ u h
  · split <;> exact h

/-- A translated read and a translated write keep the canonical form. -/
theorem State.wf_gRead {s t : State} {die p va n : Nat} {x : List Byte × Bool} (g : s.gRead die p va n = some (t, x))
    (h : s.mem.wf) : t.mem.wf := by
  obtain ⟨l, -, g⟩ := Option.map_eq_some_iff.1 g
  have := State.wf_physRead _ l (State.wf_keyed _ p l false
    (State.wf_walked _ die p (va + n - 1) (State.wf_walked s die p va h)))
  unfold State.walkedRange at g
  rw [g] at this
  exact this

theorem State.wf_gWrite {s t : State} {die p va : Nat} {b : List Byte} {bad : Bool} (g : s.gWrite die p va b bad = some t)
    (h : s.mem.wf) : t.mem.wf := by
  obtain ⟨l, -, rfl⟩ := Option.map_eq_some_iff.1 g
  exact State.wf_physWrite _ _ _ _ (State.wf_keyed _ p l true (State.wf_walked _ die p _ (State.wf_walked s die p va h)))

theorem State.wf_tableWrite (s : State) (a : Nat) (b : List Byte) (h : s.mem.wf) : (s.tableWrite a b).mem.wf :=
  State.wf_physWrite s _ _ _ h

theorem State.wf_lose (s : State) (a n : Nat) (h : s.mem.wf) : (s.lose a n).mem.wf :=
  Memory.wf_foldl (fun i => a + i) (fun i => Config.freeByte s.free i) (List.range n) h

theorem hostPart_wf {m : Memory} (h : m.wf) : (hostPart m).wf :=
  ⟨h.1.filter _, fun x hx => h.2 x (List.mem_filter.1 hx).1⟩

theorem State.wf_reset : State.reset.mem.wf := Memory.wf_nil

theorem State.wf_renumber (s : State) (f : Nat → Nat) : (s.renumber f).mem.wf := by
  unfold State.renumber
  dsimp only
  refine State.wf_foldl _ _ (fun _ _ h => by exact h) _ ?_
  exact Memory.wf_foldl (fun x : Nat × Byte => renKey f x.1) Prod.snd s.mem Memory.wf_nil

theorem State.wf_barKeyed (s : State) (l : List (Nat × Option Nat)) (write : Bool) (h : s.mem.wf) :
    (s.barKeyed l write).mem.wf := by
  refine State.wf_foldl _ _ (fun s x h => ?_) s h
  split
  · exact State.wf_keyed s _ _ write h
  · exact h

theorem State.wf_hostWrite (s : State) (off : Nat) (bytes : List Byte) (ep : Bool) (h : s.mem.wf) :
    (s.hostWrite off bytes ep).mem.wf := by
  unfold State.hostWrite
  dsimp only
  split
  · split
    · exact h
    · exact Memory.wf_foldl (fun x : (Nat × Option Nat) × Byte => x.1.1) Prod.snd _ h
  · split
    · exact h
    · exact State.wf_physWrite _ _ _ _ (State.wf_barKeyed s _ true h)

/-- A run of bytes in the host's memory keeps the canonical form. -/
theorem State.wf_hostBytes (s : State) (a : Nat) (bytes : List Byte) (h : s.mem.wf) :
    (s.mem.writes (hostKey a) bytes).wf := Memory.wf_writes _ _ h

end Sys2Proof.Machine
end

