-- ==== Sys2Proof/Laws/Encoding.lean ====
section
/-!
SUPPORT. Where each field of an encoded control word lies, and which decoding each major leads to.
-/

namespace Sys2Proof

open BitVec (extractLsb'_append_eq_of_le extractLsb'_append_eq_of_add_le extractLsb'_eq_self)

variable {lo len : Nat}

/-! ### Format R -/

section
variable (op : BitVec 6) (g : Guard) (d a b : BitVec 5) (fn : BitVec 7)

theorem field_fmtR_fn (h : lo + len ≤ 7) :
    field (fmtR op g d a b fn) lo len = fn.extractLsb' lo len := by
  unfold fmtR head field
  rw [extractLsb'_append_eq_of_add_le (by omega)]

theorem field_fmtR_b (h0 : 7 ≤ lo) (h : lo + len ≤ 12) :
    field (fmtR op g d a b fn) lo len = b.extractLsb' (lo - 7) len := by
  unfold fmtR head field
  rw [extractLsb'_append_eq_of_le (by omega), extractLsb'_append_eq_of_add_le (by omega)]

theorem field_fmtR_a (h0 : 12 ≤ lo) (h : lo + len ≤ 17) :
    field (fmtR op g d a b fn) lo len = a.extractLsb' (lo - 12) len := by
  unfold fmtR head field
  rw [extractLsb'_append_eq_of_le (by omega), extractLsb'_append_eq_of_le (by omega), extractLsb'_append_eq_of_add_le (by omega)]
  simp only [Nat.sub_sub, Nat.reduceAdd]

theorem field_fmtR_d (h0 : 17 ≤ lo) (h : lo + len ≤ 22) :
    field (fmtR op g d a b fn) lo len = d.extractLsb' (lo - 17) len := by
  unfold fmtR head field
  rw [extractLsb'_append_eq_of_le (by omega), extractLsb'_append_eq_of_le (by omega), extractLsb'_append_eq_of_le (by omega), extractLsb'_append_eq_of_add_le (by omega)]
  simp only [Nat.sub_sub, Nat.reduceAdd]

theorem field_fmtR_head (h0 : 22 ≤ lo) :
    field (fmtR op g d a b fn) lo len = (head op g).extractLsb' (lo - 22) len := by
  unfold fmtR field
  rw [extractLsb'_append_eq_of_le (by omega), extractLsb'_append_eq_of_le (by omega), extractLsb'_append_eq_of_le (by omega), extractLsb'_append_eq_of_le (by omega)]
  simp only [Nat.sub_sub, Nat.reduceAdd]

end

/-! ### Format I -/

section
variable (op : BitVec 6) (g : Guard) (d a : BitVec 5) (imm : BitVec 12)

theorem field_fmtI_imm (h : lo + len ≤ 12) :
    field (fmtI op g d a imm) lo len = imm.extractLsb' lo len := by
  unfold fmtI head field
  rw [extractLsb'_append_eq_of_add_le (by omega)]

theorem field_fmtI_a (h0 : 12 ≤ lo) (h : lo + len ≤ 17) :
    field (fmtI op g d a imm) lo len = a.extractLsb' (lo - 12) len := by
  unfold fmtI head field
  rw [extractLsb'_append_eq_of_le (by omega), extractLsb'_append_eq_of_add_le (by omega)]

theorem field_fmtI_d (h0 : 17 ≤ lo) (h : lo + len ≤ 22) :
    field (fmtI op g d a imm) lo len = d.extractLsb' (lo - 17) len := by
  unfold fmtI head field
  rw [extractLsb'_append_eq_of_le (by omega), extractLsb'_append_eq_of_le (by omega), extractLsb'_append_eq_of_add_le (by omega)]
  simp only [Nat.sub_sub, Nat.reduceAdd]

theorem field_fmtI_head (h0 : 22 ≤ lo) :
    field (fmtI op g d a imm) lo len = (head op g).extractLsb' (lo - 22) len := by
  unfold fmtI field
  rw [extractLsb'_append_eq_of_le (by omega), extractLsb'_append_eq_of_le (by omega), extractLsb'_append_eq_of_le (by omega)]
  simp only [Nat.sub_sub, Nat.reduceAdd]

end

/-! ### Format L -/

section
variable (op : BitVec 6) (g : Guard) (d : BitVec 5) (imm : BitVec 17)

theorem field_fmtL_imm (h : lo + len ≤ 17) :
    field (fmtL op g d imm) lo len = imm.extractLsb' lo len := by
  unfold fmtL head field
  rw [extractLsb'_append_eq_of_add_le (by omega)]

theorem field_fmtL_d (h0 : 17 ≤ lo) (h : lo + len ≤ 22) :
    field (fmtL op g d imm) lo len = d.extractLsb' (lo - 17) len := by
  unfold fmtL head field
  rw [extractLsb'_append_eq_of_le (by omega), extractLsb'_append_eq_of_add_le (by omega)]

theorem field_fmtL_head (h0 : 22 ≤ lo) :
    field (fmtL op g d imm) lo len = (head op g).extractLsb' (lo - 22) len := by
  unfold fmtL field
  rw [extractLsb'_append_eq_of_le (by omega), extractLsb'_append_eq_of_le (by omega)]
  simp only [Nat.sub_sub, Nat.reduceAdd]

end

/-! ### Format J -/

section
variable (op : BitVec 6) (g : Guard) (off : BitVec 22)

theorem field_fmtJ_off (h : lo + len ≤ 22) :
    field (fmtJ op g off) lo len = off.extractLsb' lo len := by
  unfold fmtJ head field
  rw [extractLsb'_append_eq_of_add_le (by omega)]

theorem field_fmtJ_head (h0 : 22 ≤ lo) :
    field (fmtJ op g off) lo len = (head op g).extractLsb' (lo - 22) len := by
  unfold fmtJ field
  rw [extractLsb'_append_eq_of_le (by omega)]

end

/-! ### Format M -/

section
variable (op : BitVec 6) (g : Guard) (d a : BitVec 5) (sz : BitVec 2) (off : BitVec 10)

theorem field_fmtM_off (h : lo + len ≤ 10) :
    field (fmtM op g d a sz off) lo len = off.extractLsb' lo len := by
  unfold fmtM head field
  rw [extractLsb'_append_eq_of_add_le (by omega)]

theorem field_fmtM_sz (h0 : 10 ≤ lo) (h : lo + len ≤ 12) :
    field (fmtM op g d a sz off) lo len = sz.extractLsb' (lo - 10) len := by
  unfold fmtM head field
  rw [extractLsb'_append_eq_of_le (by omega), extractLsb'_append_eq_of_add_le (by omega)]

theorem field_fmtM_a (h0 : 12 ≤ lo) (h : lo + len ≤ 17) :
    field (fmtM op g d a sz off) lo len = a.extractLsb' (lo - 12) len := by
  unfold fmtM head field
  rw [extractLsb'_append_eq_of_le (by omega), extractLsb'_append_eq_of_le (by omega), extractLsb'_append_eq_of_add_le (by omega)]
  simp only [Nat.sub_sub, Nat.reduceAdd]

theorem field_fmtM_d (h0 : 17 ≤ lo) (h : lo + len ≤ 22) :
    field (fmtM op g d a sz off) lo len = d.extractLsb' (lo - 17) len := by
  unfold fmtM head field
  rw [extractLsb'_append_eq_of_le (by omega), extractLsb'_append_eq_of_le (by omega), extractLsb'_append_eq_of_le (by omega), extractLsb'_append_eq_of_add_le (by omega)]
  simp only [Nat.sub_sub, Nat.reduceAdd]

theorem field_fmtM_head (h0 : 22 ≤ lo) :
    field (fmtM op g d a sz off) lo len = (head op g).extractLsb' (lo - 22) len := by
  unfold fmtM field
  rw [extractLsb'_append_eq_of_le (by omega), extractLsb'_append_eq_of_le (by omega), extractLsb'_append_eq_of_le (by omega), extractLsb'_append_eq_of_le (by omega)]
  simp only [Nat.sub_sub, Nat.reduceAdd]

end

/-! ### Format F -/

section
variable (op : BitVec 6) (g : Guard) (d a : BitVec 5) (off wm1 : BitVec 6)

theorem field_fmtF_wm1 (h : lo + len ≤ 6) :
    field (fmtF op g d a off wm1) lo len = wm1.extractLsb' lo len := by
  unfold fmtF head field
  rw [extractLsb'_append_eq_of_add_le (by omega)]

theorem field_fmtF_off (h0 : 6 ≤ lo) (h : lo + len ≤ 12) :
    field (fmtF op g d a off wm1) lo len = off.extractLsb' (lo - 6) len := by
  unfold fmtF head field
  rw [extractLsb'_append_eq_of_le (by omega), extractLsb'_append_eq_of_add_le (by omega)]

theorem field_fmtF_a (h0 : 12 ≤ lo) (h : lo + len ≤ 17) :
    field (fmtF op g d a off wm1) lo len = a.extractLsb' (lo - 12) len := by
  unfold fmtF head field
  rw [extractLsb'_append_eq_of_le (by omega), extractLsb'_append_eq_of_le (by omega), extractLsb'_append_eq_of_add_le (by omega)]
  simp only [Nat.sub_sub, Nat.reduceAdd]

theorem field_fmtF_d (h0 : 17 ≤ lo) (h : lo + len ≤ 22) :
    field (fmtF op g d a off wm1) lo len = d.extractLsb' (lo - 17) len := by
  unfold fmtF head field
  rw [extractLsb'_append_eq_of_le (by omega), extractLsb'_append_eq_of_le (by omega), extractLsb'_append_eq_of_le (by omega), extractLsb'_append_eq_of_add_le (by omega)]
  simp only [Nat.sub_sub, Nat.reduceAdd]

theorem field_fmtF_head (h0 : 22 ≤ lo) :
    field (fmtF op g d a off wm1) lo len = (head op g).extractLsb' (lo - 22) len := by
  unfold fmtF field
  rw [extractLsb'_append_eq_of_le (by omega), extractLsb'_append_eq_of_le (by omega), extractLsb'_append_eq_of_le (by omega), extractLsb'_append_eq_of_le (by omega)]
  simp only [Nat.sub_sub, Nat.reduceAdd]

end

/-! ### Op and guard -/

section
variable (op : BitVec 6) (g : Guard)

theorem head_op : (head op g).extractLsb' 4 6 = op := by
  unfold head
  rw [extractLsb'_append_eq_of_le (by omega), extractLsb'_append_eq_of_le (by omega)]
  exact extractLsb'_eq_self
theorem head_p : (head op g).extractLsb' 1 3 = g.p := by
  unfold head
  rw [extractLsb'_append_eq_of_le (by omega), extractLsb'_append_eq_of_add_le (by omega)]
  exact extractLsb'_eq_self
theorem head_n : (head op g).extractLsb' 0 1 = g.n := by
  unfold head
  rw [extractLsb'_append_eq_of_add_le (by omega)]
  exact extractLsb'_eq_self
theorem head_guard : (head op g).extractLsb' 0 4 = g.p ++ g.n := by
  unfold head
  rw [show op ++ g.p ++ g.n = (op ++ (g.p ++ g.n)).cast (by omega) from BitVec.append_assoc ..]
  show BitVec.extractLsb' 0 4 (op ++ (g.p ++ g.n)) = _
  rw [extractLsb'_append_eq_of_add_le (by omega)]
  exact extractLsb'_eq_self

/-- A predicate field holds the predicate below two zero bits. -/
theorem predField_low (q : Pred) : (predField q).extractLsb' 0 3 = q := by revert q; decide
theorem predField_high (q : Pred) : (predField q).extractLsb' 3 2 = 0 := by revert q; decide
end

/-! ### Dispatch on the major -/

/-- A word whose major is legal and whose guard is not `(!q0)` decodes by its major. -/
theorem decodeControl_eq (w : W32) (h0 : illegalMajor (field w 26 6) = false) (hg : field w 22 4 ≠ 1) :
    decodeControl w = decodeMajor w := by
  have n0 : w ≠ 0 := by rintro rfl; revert h0; decide
  have n1 : w ≠ 0xFFFFFFFF := by rintro rfl; revert h0; decide
  unfold decodeControl
  rw [if_neg (not_or.2 ⟨n0, n1⟩), h0, if_neg (by decide), if_neg hg]

theorem major_01 (w : W32) (h : field w 26 6 = 0x01) : decodeMajor w =
    (let g : Guard := ⟨field w 23 3, field w 22 1⟩
     let d := field w 17 5
     let a := field w 12 5
     let b := field w 7 5
     let fn := field w 0 7
     decodeAlu g d a b fn) := by
  unfold decodeMajor; rw [h]; rfl

theorem major_02 (w : W32) (h : field w 26 6 = 0x02) : decodeMajor w =
    (let g : Guard := ⟨field w 23 3, field w 22 1⟩
     let d := field w 17 5
     let a := field w 12 5
     let imm12 := field w 0 12
     .ok (.addi g d a imm12)) := by
  unfold decodeMajor; rw [h]; rfl

theorem major_03 (w : W32) (h : field w 26 6 = 0x03) : decodeMajor w =
    (let g : Guard := ⟨field w 23 3, field w 22 1⟩
     let d := field w 17 5
     let a := field w 12 5
     let imm12 := field w 0 12
     .ok (.andi g d a imm12)) := by
  unfold decodeMajor; rw [h]; rfl

theorem major_04 (w : W32) (h : field w 26 6 = 0x04) : decodeMajor w =
    (let g : Guard := ⟨field w 23 3, field w 22 1⟩
     let d := field w 17 5
     let a := field w 12 5
     let imm12 := field w 0 12
     .ok (.ori g d a imm12)) := by
  unfold decodeMajor; rw [h]; rfl

theorem major_05 (w : W32) (h : field w 26 6 = 0x05) : decodeMajor w =
    (let g : Guard := ⟨field w 23 3, field w 22 1⟩
     let d := field w 17 5
     let a := field w 12 5
     let imm12 := field w 0 12
     .ok (.xori g d a imm12)) := by
  unfold decodeMajor; rw [h]; rfl

theorem major_06 (w : W32) (h : field w 26 6 = 0x06) : decodeMajor w =
    (let g : Guard := ⟨field w 23 3, field w 22 1⟩
     let d := field w 17 5
     let a := field w 12 5
     zeroed (field w 6 4 == 0) (.shi g (ShiftKind.ofCode (field w 10 2)) d a (field w 0 6))) := by
  unfold decodeMajor; rw [h]; rfl

theorem major_07 (w : W32) (h : field w 26 6 = 0x07) : decodeMajor w =
    (let g : Guard := ⟨field w 23 3, field w 22 1⟩
     let d := field w 17 5
     let a := field w 12 5
     .ok (.bextZ g d a (field w 6 6) (field w 0 6))) := by
  unfold decodeMajor; rw [h]; rfl

theorem major_08 (w : W32) (h : field w 26 6 = 0x08) : decodeMajor w =
    (let g : Guard := ⟨field w 23 3, field w 22 1⟩
     let d := field w 17 5
     let a := field w 12 5
     .ok (.bextS g d a (field w 6 6) (field w 0 6))) := by
  unfold decodeMajor; rw [h]; rfl

theorem major_09 (w : W32) (h : field w 26 6 = 0x09) : decodeMajor w =
    (let g : Guard := ⟨field w 23 3, field w 22 1⟩
     let d := field w 17 5
     let a := field w 12 5
     .ok (.bins g d a (field w 6 6) (field w 0 6))) := by
  unfold decodeMajor; rw [h]; rfl

theorem major_0A (w : W32) (h : field w 26 6 = 0x0A) : decodeMajor w =
    (let g : Guard := ⟨field w 23 3, field w 22 1⟩
     let d := field w 17 5
     let imm17 := field w 0 17
     .ok (.li g d imm17)) := by
  unfold decodeMajor; rw [h]; rfl

theorem major_0B (w : W32) (h : field w 26 6 = 0x0B) : decodeMajor w =
    (let g : Guard := ⟨field w 23 3, field w 22 1⟩
     let d := field w 17 5
     let imm17 := field w 0 17
     .ok (.lui g d imm17)) := by
  unfold decodeMajor; rw [h]; rfl

theorem major_0C (w : W32) (h : field w 26 6 = 0x0C) : decodeMajor w =
    (let g : Guard := ⟨field w 23 3, field w 22 1⟩
     let a := field w 12 5
     let b := field w 7 5
     let qd := field w 17 3
     let dHi := field w 20 2
     if dHi ≠ 0 then .error .nonzeroField
      else match Cc.ofCode (field w 0 3) with
        | some cc => if field w 3 4 = 0 then .ok (.cmp g cc qd a b) else .error .illegalCode
        | none => .error .illegalCode) := by
  unfold decodeMajor; rw [h]; rfl

theorem major_0D (w : W32) (h : field w 26 6 = 0x0D) : decodeMajor w =
    (let g : Guard := ⟨field w 23 3, field w 22 1⟩
     let a := field w 12 5
     let qd := field w 17 3
     let dHi := field w 20 2
     if dHi ≠ 0 then .error .nonzeroField
      else match Cc.ofCode (field w 9 3) with
        | some cc => .ok (.cmpi g cc qd a (field w 0 9))
        | none => .error .illegalCode) := by
  unfold decodeMajor; rw [h]; rfl

theorem major_0E (w : W32) (h : field w 26 6 = 0x0E) : decodeMajor w =
    (let g : Guard := ⟨field w 23 3, field w 22 1⟩
     let fn := field w 0 7
     let qd := field w 17 3
     let dHi := field w 20 2
     if dHi ≠ 0 ∨ field w 15 2 ≠ 0 ∨ field w 10 2 ≠ 0 then .error .nonzeroField
      else match fn.toNat with
        | 0 => .ok (.pand g qd (field w 12 3) (field w 7 3))
        | 1 => .ok (.por g qd (field w 12 3) (field w 7 3))
        | 2 => zeroed (field w 7 3 == 0) (.pnot g qd (field w 12 3))
        | _ => .error .illegalCode) := by
  unfold decodeMajor; rw [h]; rfl

theorem major_10 (w : W32) (h : field w 26 6 = 0x10) : decodeMajor w =
    (let g : Guard := ⟨field w 23 3, field w 22 1⟩
     let d := field w 17 5
     let a := field w 12 5
     .ok (.ldZ g (Size.ofCode (field w 10 2)) d a (field w 0 10))) := by
  unfold decodeMajor; rw [h]; rfl

theorem major_11 (w : W32) (h : field w 26 6 = 0x11) : decodeMajor w =
    (let g : Guard := ⟨field w 23 3, field w 22 1⟩
     let d := field w 17 5
     let a := field w 12 5
     .ok (.ldS g (Size.ofCode (field w 10 2)) d a (field w 0 10))) := by
  unfold decodeMajor; rw [h]; rfl

theorem major_12 (w : W32) (h : field w 26 6 = 0x12) : decodeMajor w =
    (let g : Guard := ⟨field w 23 3, field w 22 1⟩
     let d := field w 17 5
     let a := field w 12 5
     .ok (.st g (Size.ofCode (field w 10 2)) d a (field w 0 10))) := by
  unfold decodeMajor; rw [h]; rfl

theorem major_14 (w : W32) (h : field w 26 6 = 0x14) : decodeMajor w =
    (let g : Guard := ⟨field w 23 3, field w 22 1⟩
     let d := field w 17 5
     let a := field w 12 5
     let b := field w 7 5
     let fn := field w 0 7
     let qd := field w 17 3
     let dHi := field w 20 2
     if b ≠ 0 then .error .nonzeroField
      else match fn.toNat with
        | 0 => zeroed (d == 0) (.fsetFull g a)
        | 1 => zeroed (d == 0) (.fsetEmpty g a)
        | 2 => zeroed (dHi == 0) (.ftest g qd a)
        | _ => .error .illegalCode) := by
  unfold decodeMajor; rw [h]; rfl

theorem major_15 (w : W32) (h : field w 26 6 = 0x15) : decodeMajor w =
    (let g : Guard := ⟨field w 23 3, field w 22 1⟩
     let d := field w 17 5
     let a := field w 12 5
     let b := field w 7 5
     let fn := field w 0 7
     zeroed (d == 0) (.ldg g a b fn)) := by
  unfold decodeMajor; rw [h]; rfl

theorem major_16 (w : W32) (h : field w 26 6 = 0x16) : decodeMajor w =
    (let g : Guard := ⟨field w 23 3, field w 22 1⟩
     let d := field w 17 5
     let a := field w 12 5
     let b := field w 7 5
     let fn := field w 0 7
     zeroed (d == 0) (.stg g a b fn)) := by
  unfold decodeMajor; rw [h]; rfl

theorem major_17 (w : W32) (h : field w 26 6 = 0x17) : decodeMajor w =
    (let g : Guard := ⟨field w 23 3, field w 22 1⟩
     let d := field w 17 5
     let a := field w 12 5
     let b := field w 7 5
     let fn := field w 0 7
     match fn.toNat with
      | 0 => zeroed (b == 0) (.tlook g d a)
      | 1 => zeroed (d == 0) (.tset g a b)
      | 2 => zeroed (d == 0 && b == 0) (.tclr g a)
      | _ => .error .illegalCode) := by
  unfold decodeMajor; rw [h]; rfl

theorem major_18 (w : W32) (h : field w 26 6 = 0x18) : decodeMajor w =
    (let g : Guard := ⟨field w 23 3, field w 22 1⟩
     let d := field w 17 5
     let a := field w 12 5
     let b := field w 7 5
     match AmoOp.ofCode (field w 0 4), AmoSize.ofCode (field w 4 2) with
      | some o, some z => .ok (.amo g o z (field w 6 1 == 1) d a b)
      | _, _ => .error .illegalCode) := by
  unfold decodeMajor; rw [h]; rfl

theorem major_19 (w : W32) (h : field w 26 6 = 0x19) : decodeMajor w =
    (let g : Guard := ⟨field w 23 3, field w 22 1⟩
     let d := field w 17 5
     let a := field w 12 5
     let b := field w 7 5
     if field w 0 4 ≠ 0 then .error .nonzeroField
      else match AmoSize.ofCode (field w 4 2) with
        | some z => if field w 7 1 = 1 then .error .illegalCode else .ok (.amocas g z (field w 6 1 == 1) d a b)
        | none => .error .illegalCode) := by
  unfold decodeMajor; rw [h]; rfl

theorem major_1C (w : W32) (h : field w 26 6 = 0x1C) : decodeMajor w =
    (let g : Guard := ⟨field w 23 3, field w 22 1⟩
     let b := field w 7 5
     .ok (.b g (field w 0 22))) := by
  unfold decodeMajor; rw [h]; rfl

theorem major_1D (w : W32) (h : field w 26 6 = 0x1D) : decodeMajor w =
    (let g : Guard := ⟨field w 23 3, field w 22 1⟩
     .ok (.call g (field w 0 22))) := by
  unfold decodeMajor; rw [h]; rfl

theorem major_1E (w : W32) (h : field w 26 6 = 0x1E) : decodeMajor w =
    (let g : Guard := ⟨field w 23 3, field w 22 1⟩
     let d := field w 17 5
     let a := field w 12 5
     let b := field w 7 5
     let fn := field w 0 7
     match fn.toNat with
      | 0 => zeroed (d == 0 && a == 0 && b == 0) (.ret g)
      | 1 => zeroed (d == 0) (.jt g a b)
      | _ => .error .illegalCode) := by
  unfold decodeMajor; rw [h]; rfl

theorem major_1F (w : W32) (h : field w 26 6 = 0x1F) : decodeMajor w =
    (let g : Guard := ⟨field w 23 3, field w 22 1⟩
     let d := field w 17 5
     zeroed (d == 0 && field w 16 1 == 0) (.lpad g (field w 0 16))) := by
  unfold decodeMajor; rw [h]; rfl

theorem major_20 (w : W32) (h : field w 26 6 = 0x20) : decodeMajor w =
    (let g : Guard := ⟨field w 23 3, field w 22 1⟩
     let d := field w 17 5
     let fn := field w 0 7
     zeroed (field w 10 2 == 0 && fn == 0) (.recv g d (field w 12 5) (field w 7 3))) := by
  unfold decodeMajor; rw [h]; rfl

theorem major_21 (w : W32) (h : field w 26 6 = 0x21) : decodeMajor w =
    (let g : Guard := ⟨field w 23 3, field w 22 1⟩
     let a := field w 12 5
     let b := field w 7 5
     let fn := field w 0 7
     let qd := field w 17 3
     let dHi := field w 20 2
     zeroed (dHi == 0 && fn == 0) (.send g qd a b)) := by
  unfold decodeMajor; rw [h]; rfl

theorem major_22 (w : W32) (h : field w 26 6 = 0x22) : decodeMajor w =
    (let g : Guard := ⟨field w 23 3, field w 22 1⟩
     let d := field w 17 5
     let a := field w 12 5
     let b := field w 7 5
     let fn := field w 0 7
     zeroed (d == 0 && fn == 0) (.spawn g a b)) := by
  unfold decodeMajor; rw [h]; rfl

theorem major_23 (w : W32) (h : field w 26 6 = 0x23) : decodeMajor w =
    (let g : Guard := ⟨field w 23 3, field w 22 1⟩
     zeroed (field w 0 22 == 0) (.endTask g)) := by
  unfold decodeMajor; rw [h]; rfl

theorem major_24 (w : W32) (h : field w 26 6 = 0x24) : decodeMajor w =
    (let g : Guard := ⟨field w 23 3, field w 22 1⟩
     let d := field w 17 5
     if d ≠ 0 then .error .nonzeroField
      else match WakeCode.ofCode (field w 14 3) with
        | some k => .ok (.yield g k (field w 0 14))
        | none => .error .illegalCode) := by
  unfold decodeMajor; rw [h]; rfl

theorem major_25 (w : W32) (h : field w 26 6 = 0x25) : decodeMajor w =
    (let g : Guard := ⟨field w 23 3, field w 22 1⟩
     let d := field w 17 5
     let imm17 := field w 0 17
     zeroed (d == 0) (.safe g imm17)) := by
  unfold decodeMajor; rw [h]; rfl

theorem major_26 (w : W32) (h : field w 26 6 = 0x26) : decodeMajor w =
    (let g : Guard := ⟨field w 23 3, field w 22 1⟩
     let qd := field w 17 3
     let dHi := field w 20 2
     zeroed (dHi == 0 && field w 16 1 == 0)
        (.waitc g qd (field w 12 4) (field w 8 4) (field w 4 4) (field w 0 4))) := by
  unfold decodeMajor; rw [h]; rfl

theorem major_27 (w : W32) (h : field w 26 6 = 0x27) : decodeMajor w =
    (let g : Guard := ⟨field w 23 3, field w 22 1⟩
     let qd := field w 17 3
     let dHi := field w 20 2
     if dHi ≠ 0 ∨ field w 14 1 ≠ 0 then .error .nonzeroField
      else if field w 15 2 = 1 then .ok (.forkMatrix g qd (field w 0 14))
      else if field w 15 2 = 2 then .ok (.forkStream g qd (field w 0 14))
      else .error .illegalCode) := by
  unfold decodeMajor; rw [h]; rfl

theorem major_28 (w : W32) (h : field w 26 6 = 0x28) : decodeMajor w =
    (let g : Guard := ⟨field w 23 3, field w 22 1⟩
     let d := field w 17 5
     zeroed (d == 0 && field w 14 3 == 0) (.rdv g (field w 0 14))) := by
  unfold decodeMajor; rw [h]; rfl

theorem major_29 (w : W32) (h : field w 26 6 = 0x29) : decodeMajor w =
    (let g : Guard := ⟨field w 23 3, field w 22 1⟩
     let a := field w 12 5
     let b := field w 7 5
     let fn := field w 0 7
     let qd := field w 17 3
     let dHi := field w 20 2
     zeroed (dHi == 0 && fn == 0) (.sbind g qd a b)) := by
  unfold decodeMajor; rw [h]; rfl

theorem major_2A (w : W32) (h : field w 26 6 = 0x2A) : decodeMajor w =
    (let g : Guard := ⟨field w 23 3, field w 22 1⟩
     let a := field w 12 5
     let b := field w 7 5
     let fn := field w 0 7
     let qd := field w 17 3
     let dHi := field w 20 2
     zeroed (dHi == 0 && fn == 0) (.scopy g qd a b)) := by
  unfold decodeMajor; rw [h]; rfl

theorem major_2B (w : W32) (h : field w 26 6 = 0x2B) : decodeMajor w =
    (let g : Guard := ⟨field w 23 3, field w 22 1⟩
     let a := field w 12 5
     let b := field w 7 5
     let fn := field w 0 7
     let qd := field w 17 3
     let dHi := field w 20 2
     zeroed (dHi == 0 && fn == 0) (.sim2c g qd a b)) := by
  unfold decodeMajor; rw [h]; rfl

theorem major_2C (w : W32) (h : field w 26 6 = 0x2C) : decodeMajor w =
    (let g : Guard := ⟨field w 23 3, field w 22 1⟩
     let a := field w 12 5
     let b := field w 7 5
     let fn := field w 0 7
     let qd := field w 17 3
     let dHi := field w 20 2
     zeroed (dHi == 0) (.sgath g qd a b fn)) := by
  unfold decodeMajor; rw [h]; rfl

theorem major_2D (w : W32) (h : field w 26 6 = 0x2D) : decodeMajor w =
    (let g : Guard := ⟨field w 23 3, field w 22 1⟩
     let d := field w 17 5
     let a := field w 12 5
     let b := field w 7 5
     if a ≠ 0 then .error .nonzeroField
      else if field w 1 6 = 0 then .ok (.sstop g d b (field w 0 1 == 1)) else .error .illegalCode) := by
  unfold decodeMajor; rw [h]; rfl

theorem major_30 (w : W32) (h : field w 26 6 = 0x30) : decodeMajor w =
    (let g : Guard := ⟨field w 23 3, field w 22 1⟩
     let d := field w 17 5
     if d ≠ 0 ∨ field w 16 1 ≠ 0 then .error .nonzeroField
      else if field w 0 8 = 0 ∨ field w 8 8 = 0 then .error .illegalCode
      else .ok (.fence g (field w 0 8) (field w 8 8))) := by
  unfold decodeMajor; rw [h]; rfl

theorem major_31 (w : W32) (h : field w 26 6 = 0x31) : decodeMajor w =
    (let g : Guard := ⟨field w 23 3, field w 22 1⟩
     let d := field w 17 5
     let a := field w 12 5
     let b := field w 7 5
     let fn := field w 0 7
     let qd := field w 17 3
     let dHi := field w 20 2
     if b ≠ 0 then .error .nonzeroField
      else match fn.toNat with
        | 0 => zeroed (d == 0) (.bar g a)
        | 1 => zeroed (dHi == 0) (.bartest g qd a)
        | _ => .error .illegalCode) := by
  unfold decodeMajor; rw [h]; rfl

theorem major_32 (w : W32) (h : field w 26 6 = 0x32) : decodeMajor w =
    (let g : Guard := ⟨field w 23 3, field w 22 1⟩
     let d := field w 17 5
     let a := field w 12 5
     let b := field w 7 5
     let fn := field w 0 7
     match fn.toNat with
      | 0 => .ok (.subs g d a b)
      | 1 => zeroed (d == 0 && b == 0) (.unsubs g a)
      | 2 => zeroed (d == 0 && a == 0 && b == 0) (.sflush g)
      | _ => .error .illegalCode) := by
  unfold decodeMajor; rw [h]; rfl

theorem major_34 (w : W32) (h : field w 26 6 = 0x34) : decodeMajor w =
    (let g : Guard := ⟨field w 23 3, field w 22 1⟩
     let d := field w 17 5
     let a := field w 12 5
     let b := field w 7 5
     let fn := field w 0 7
     match fn.toNat with
      | 0 => zeroed (d == 0) (.nlook g a b)
      | 1 => zeroed (b == 0) (.nins g d a)
      | 2 => zeroed (b == 0) (.nevict g d a)
      | _ => .error .illegalCode) := by
  unfold decodeMajor; rw [h]; rfl

theorem major_36 (w : W32) (h : field w 26 6 = 0x36) : decodeMajor w =
    (let g : Guard := ⟨field w 23 3, field w 22 1⟩
     let d := field w 17 5
     let a := field w 12 5
     let b := field w 7 5
     let fn := field w 0 7
     match fn.toNat with
      | 0 => .ok (.qpost g d a b)
      | 1 => zeroed (b == 0) (.cnct g d a)
      | 2 => zeroed (d == 0 && b == 0) (.cncl g a)
      | _ => .error .illegalCode) := by
  unfold decodeMajor; rw [h]; rfl

theorem major_3C (w : W32) (h : field w 26 6 = 0x3C) : decodeMajor w =
    (let g : Guard := ⟨field w 23 3, field w 22 1⟩
     let d := field w 17 5
     let a := field w 12 5
     let imm12 := field w 0 12
     if a ≠ 0 then .error .nonzeroField
      else if sregListed imm12 then .ok (.mfs g d imm12) else .error .illegalCode) := by
  unfold decodeMajor; rw [h]; rfl

theorem major_3D (w : W32) (h : field w 26 6 = 0x3D) : decodeMajor w =
    (let g : Guard := ⟨field w 23 3, field w 22 1⟩
     let d := field w 17 5
     let a := field w 12 5
     let imm12 := field w 0 12
     if d ≠ 0 then .error .nonzeroField
      else if sregListed imm12 then .ok (.mts g a imm12) else .error .illegalCode) := by
  unfold decodeMajor; rw [h]; rfl

theorem major_3E (w : W32) (h : field w 26 6 = 0x3E) : decodeMajor w =
    (let g : Guard := ⟨field w 23 3, field w 22 1⟩
     let d := field w 17 5
     let imm12 := field w 0 12
     if d ≠ 0 ∨ field w 12 3 ≠ 0 then .error .nonzeroField
      else match (field w 15 2).toNat with
        | 0 => zeroed (imm12 == 0) (.nop g)
        | 1 => .ok (.trap g imm12)
        | 2 => zeroed (imm12 == 0) (.brk g)
        | _ => zeroed (imm12 == 0) (.eret g)) := by
  unfold decodeMajor; rw [h]; rfl

/-- Every operand field of an encoded lane word reads back (R78). -/
theorem laneArgs_encode (o : LaneOp) (w : LaneArgs) : laneArgs (encodeLane o w) = w := by
  unfold laneArgs encodeLane field
  repeat (first | rw [extractLsb'_append_eq_of_le (by omega)] | rw [extractLsb'_append_eq_of_add_le (by omega)])
  obtain ⟨a,b,c,d,e,f⟩ := w
  cases d <;> simp [bit]

theorem eop_encode (o : LaneOp) (w : LaneArgs) : field (encodeLane o w) 24 8 = o.eop := by
  unfold encodeLane field
  repeat (first | rw [extractLsb'_append_eq_of_le (by omega)] | rw [extractLsb'_append_eq_of_add_le (by omega)])
  simp

theorem ofEop_eop (o : LaneOp) : LaneOp.ofEop o.eop = some o := by cases o <;> rfl

/-- A well-formed lane word decodes to itself. -/
theorem decodeLane_encodeLane (o : LaneOp) (w : LaneArgs) (h : o.check w = 0) :
    decodeLane (encodeLane o w) = .ok (some (o.instr w)) := by
  have e := eop_encode o w
  have n0 : encodeLane o w ≠ idleLaneWord := by
    intro h; rw [h] at e; revert e; cases o <;> decide
  have n1 : encodeLane o w ≠ 0xFFFFFFFF := by
    intro h; rw [h] at e; revert e; cases o <;> decide
  unfold decodeLane
  rw [if_neg n0, if_neg n1, e, ofEop_eop, laneArgs_encode]
  simp [h]

end Sys2Proof
end

