-- ==== Sys2Proof/Laws/Exec.lean ====
section
/-!
SUPPORT. Each instruction executes its meaning.
-/

namespace Sys2Proof.Machine

variable (s : State)

@[simp] theorem exec_add {g d a b} : exec (.add g d a b) s = execAdd g d a b s := rfl
@[simp] theorem exec_sub {g d a b} : exec (.sub g d a b) s = execSub g d a b s := rfl
@[simp] theorem exec_mul {g d a b} : exec (.mul g d a b) s = execMul g d a b s := rfl
@[simp] theorem exec_mulh {g d a b} : exec (.mulh g d a b) s = execMulh g d a b s := rfl
@[simp] theorem exec_mulhn {g d a b} : exec (.mulhn g d a b) s = execMulhn g d a b s := rfl
@[simp] theorem exec_div {g d a b} : exec (.div g d a b) s = execDiv g d a b s := rfl
@[simp] theorem exec_divn {g d a b} : exec (.divn g d a b) s = execDivn g d a b s := rfl
@[simp] theorem exec_rem {g d a b} : exec (.rem g d a b) s = execRem g d a b s := rfl
@[simp] theorem exec_remn {g d a b} : exec (.remn g d a b) s = execRemn g d a b s := rfl
@[simp] theorem exec_and {g d a b} : exec (.and g d a b) s = execAnd g d a b s := rfl
@[simp] theorem exec_or {g d a b} : exec (.or g d a b) s = execOr g d a b s := rfl
@[simp] theorem exec_xor {g d a b} : exec (.xor g d a b) s = execXor g d a b s := rfl
@[simp] theorem exec_shl {g d a b} : exec (.shl g d a b) s = execShl g d a b s := rfl
@[simp] theorem exec_shr {g d a b} : exec (.shr g d a b) s = execShr g d a b s := rfl
@[simp] theorem exec_sra {g d a b} : exec (.sra g d a b) s = execSra g d a b s := rfl
@[simp] theorem exec_rot {g d a b} : exec (.rot g d a b) s = execRot g d a b s := rfl
@[simp] theorem exec_min {g d a b} : exec (.min g d a b) s = execMin g d a b s := rfl
@[simp] theorem exec_max {g d a b} : exec (.max g d a b) s = execMax g d a b s := rfl
@[simp] theorem exec_minn {g d a b} : exec (.minn g d a b) s = execMinn g d a b s := rfl
@[simp] theorem exec_maxn {g d a b} : exec (.maxn g d a b) s = execMaxn g d a b s := rfl
@[simp] theorem exec_clz {g d a} : exec (.clz g d a) s = execClz g d a s := rfl
@[simp] theorem exec_ctz {g d a} : exec (.ctz g d a) s = execCtz g d a s := rfl
@[simp] theorem exec_popc {g d a} : exec (.popc g d a) s = execPopc g d a s := rfl
@[simp] theorem exec_bextZReg {g d a b} : exec (.bextZReg g d a b) s = execBextZReg g d a b s := rfl
@[simp] theorem exec_binsReg {g d a b} : exec (.binsReg g d a b) s = execBinsReg g d a b s := rfl
@[simp] theorem exec_bextSReg {g d a b} : exec (.bextSReg g d a b) s = execBextSReg g d a b s := rfl
@[simp] theorem exec_sel {g qs d a b} : exec (.sel g qs d a b) s = execSel g qs d a b s := rfl
@[simp] theorem exec_addi {g d a imm} : exec (.addi g d a imm) s = execAddi g d a imm s := rfl
@[simp] theorem exec_andi {g d a imm} : exec (.andi g d a imm) s = execAndi g d a imm s := rfl
@[simp] theorem exec_ori {g d a imm} : exec (.ori g d a imm) s = execOri g d a imm s := rfl
@[simp] theorem exec_xori {g d a imm} : exec (.xori g d a imm) s = execXori g d a imm s := rfl
@[simp] theorem exec_shi {g kind d a amt} : exec (.shi g kind d a amt) s = execShi g kind d a amt s := rfl
@[simp] theorem exec_bextZ {g d a off wm1} : exec (.bextZ g d a off wm1) s = execBextZ g d a off wm1 s := rfl
@[simp] theorem exec_bextS {g d a off wm1} : exec (.bextS g d a off wm1) s = execBextS g d a off wm1 s := rfl
@[simp] theorem exec_bins {g d a off wm1} : exec (.bins g d a off wm1) s = execBins g d a off wm1 s := rfl
@[simp] theorem exec_li {g d imm} : exec (.li g d imm) s = execLi g d imm s := rfl
@[simp] theorem exec_lui {g d imm} : exec (.lui g d imm) s = execLui g d imm s := rfl
@[simp] theorem exec_cmp {g cc d a b} : exec (.cmp g cc d a b) s = execCmp g cc d a b s := rfl
@[simp] theorem exec_cmpi {g cc d a imm} : exec (.cmpi g cc d a imm) s = execCmpi g cc d a imm s := rfl
@[simp] theorem exec_pand {g d a b} : exec (.pand g d a b) s = execPand g d a b s := rfl
@[simp] theorem exec_por {g d a b} : exec (.por g d a b) s = execPor g d a b s := rfl
@[simp] theorem exec_pnot {g d a} : exec (.pnot g d a) s = execPnot g d a s := rfl
@[simp] theorem exec_ldZ {g sz d a off} : exec (.ldZ g sz d a off) s = execLdZ g sz d a off s := rfl
@[simp] theorem exec_ldS {g sz d a off} : exec (.ldS g sz d a off) s = execLdS g sz d a off s := rfl
@[simp] theorem exec_st {g sz d a off} : exec (.st g sz d a off) s = execSt g sz d a off s := rfl
@[simp] theorem exec_fsetFull {g a} : exec (.fsetFull g a) s = execFsetFull g a s := rfl
@[simp] theorem exec_fsetEmpty {g a} : exec (.fsetEmpty g a) s = execFsetEmpty g a s := rfl
@[simp] theorem exec_ftest {g d a} : exec (.ftest g d a) s = execFtest g d a s := rfl
@[simp] theorem exec_ldg {g a b lines} : exec (.ldg g a b lines) s = execLdg g a b lines s := rfl
@[simp] theorem exec_stg {g a b lines} : exec (.stg g a b lines) s = execStg g a b lines s := rfl
@[simp] theorem exec_tlook {g d a} : exec (.tlook g d a) s = execTlook g d a s := rfl
@[simp] theorem exec_tset {g a b} : exec (.tset g a b) s = execTset g a b s := rfl
@[simp] theorem exec_tclr {g a} : exec (.tclr g a) s = execTclr g a s := rfl
@[simp] theorem exec_amo {g op sz dep d a b} :
    exec (.amo g op sz dep d a b) s = execAmo g op sz dep d a b s := rfl
@[simp] theorem exec_amocas {g sz dep d a b} :
    exec (.amocas g sz dep d a b) s = execAmocas g sz dep d a b s := rfl
@[simp] theorem exec_b {g off} : exec (.b g off) s = execB g off s := rfl
@[simp] theorem exec_call {g off} : exec (.call g off) s = execCall g off s := rfl
@[simp] theorem exec_ret {g} : exec (.ret g) s = execRet g s := rfl
@[simp] theorem exec_jt {g a b} : exec (.jt g a b) s = execJt g a b s := rfl
@[simp] theorem exec_lpad {g label} : exec (.lpad g label) s = execLpad g label s := rfl
@[simp] theorem exec_recv {g d vc q} : exec (.recv g d vc q) s = execRecv g d vc q s := rfl
@[simp] theorem exec_send {g d a b} : exec (.send g d a b) s = execSend g d a b s := rfl
@[simp] theorem exec_spawn {g a b} : exec (.spawn g a b) s = execSpawn g a b s := rfl
@[simp] theorem exec_endTask {g} : exec (.endTask g) s = execEndTask g s := rfl
@[simp] theorem exec_endJoin : exec .endJoin s = execEndJoin s := rfl
@[simp] theorem exec_yield {g wake tgt} : exec (.yield g wake tgt) s = execYield g wake tgt s := rfl
@[simp] theorem exec_safe {g live} : exec (.safe g live) s = execSafe g live s := rfl
@[simp] theorem exec_waitc {g d ld st cp mt} :
    exec (.waitc g d ld st cp mt) s = execWaitc g d ld st cp mt s := rfl
@[simp] theorem exec_forkMatrix {g d tgt} : exec (.forkMatrix g d tgt) s = execForkMatrix g d tgt s := rfl
@[simp] theorem exec_forkStream {g d tgt} : exec (.forkStream g d tgt) s = execForkStream g d tgt s := rfl
@[simp] theorem exec_rdv {g tgt} : exec (.rdv g tgt) s = execRdv g tgt s := rfl
@[simp] theorem exec_sbind {g d a b} : exec (.sbind g d a b) s = execSbind g d a b s := rfl
@[simp] theorem exec_scopy {g d a b} : exec (.scopy g d a b) s = execScopy g d a b s := rfl
@[simp] theorem exec_sim2c {g d a b} : exec (.sim2c g d a b) s = execSim2c g d a b s := rfl
@[simp] theorem exec_sgath {g d a b m} : exec (.sgath g d a b m) s = execSgath g d a b m s := rfl
@[simp] theorem exec_sstop {g d b keep} : exec (.sstop g d b keep) s = execSstop g d b keep s := rfl
@[simp] theorem exec_fence {g before after} :
    exec (.fence g before after) s = execFence g before after s := rfl
@[simp] theorem exec_bar {g a} : exec (.bar g a) s = execBar g a s := rfl
@[simp] theorem exec_bartest {g d a} : exec (.bartest g d a) s = execBartest g d a s := rfl
@[simp] theorem exec_subs {g d a b} : exec (.subs g d a b) s = execSubs g d a b s := rfl
@[simp] theorem exec_unsubs {g a} : exec (.unsubs g a) s = execUnsubs g a s := rfl
@[simp] theorem exec_sflush {g} : exec (.sflush g) s = execSflush g s := rfl
@[simp] theorem exec_nlook {g a b} : exec (.nlook g a b) s = execNlook g a b s := rfl
@[simp] theorem exec_nins {g d a} : exec (.nins g d a) s = execNins g d a s := rfl
@[simp] theorem exec_nevict {g d a} : exec (.nevict g d a) s = execNevict g d a s := rfl
@[simp] theorem exec_qpost {g d a b} : exec (.qpost g d a b) s = execQpost g d a b s := rfl
@[simp] theorem exec_cnct {g d a} : exec (.cnct g d a) s = execCnct g d a s := rfl
@[simp] theorem exec_cncl {g a} : exec (.cncl g a) s = execCncl g a s := rfl
@[simp] theorem exec_mfs {g d num} : exec (.mfs g d num) s = execMfs g d num s := rfl
@[simp] theorem exec_mts {g a num} : exec (.mts g a num) s = execMts g a num s := rfl
@[simp] theorem exec_nop {g} : exec (.nop g) s = execNop g s := rfl
@[simp] theorem exec_trap {g code} : exec (.trap g code) s = execTrap g code s := rfl
@[simp] theorem exec_brk {g} : exec (.brk g) s = execBrk g s := rfl
@[simp] theorem exec_eret {g} : exec (.eret g) s = execEret g s := rfl
@[simp] theorem exec_mza : exec .mza s = execMza s := rfl
@[simp] theorem exec_mzo : exec .mzo s = execMzo s := rfl
@[simp] theorem exec_mwin {w} : exec (.mwin w) s = execMwin w s := rfl
@[simp] theorem exec_mfmt {fa fb} : exec (.mfmt fa fb) s = execMfmt fa fb s := rfl
@[simp] theorem exec_mldaScratchpad {line} : exec (.mldaScratchpad line) s = execMldaScratchpad line s := rfl
@[simp] theorem exec_mldaPort {sp} : exec (.mldaPort sp) s = execMldaPort sp s := rfl
@[simp] theorem exec_mldb {line} : exec (.mldb line) s = execMldb line s := rfl
@[simp] theorem exec_mmul {ks rows} : exec (.mmul ks rows) s = execMmul ks rows s := rfl
@[simp] theorem exec_mgmul {ks list n} : exec (.mgmul ks list n) s = execMgmul ks list n s := rfl
@[simp] theorem exec_mscale {sa sb} : exec (.mscale sa sb) s = execMscale sa sb s := rfl
@[simp] theorem exec_mscaleUnit : exec .mscaleUnit s = execMscaleUnit s := rfl
@[simp] theorem exec_mrd {acc drain sk row0 rows} :
    exec (.mrd acc drain sk row0 rows) s = execMrd acc drain sk row0 rows s := rfl
@[simp] theorem exec_mst {bf16 line row0 rows} :
    exec (.mst bf16 line row0 rows) s = execMst bf16 line row0 rows s := rfl
@[simp] theorem exec_mxpose {sideB src dst} :
    exec (.mxpose sideB src dst) s = execMxpose sideB src dst s := rfl
@[simp] theorem exec_mtopk {rows ne k} : exec (.mtopk rows ne k) s = execMtopk rows ne k s := rfl
@[simp] theorem exec_mtpld {line rows cols} :
    exec (.mtpld line rows cols) s = execMtpld line rows cols s := rfl
@[simp] theorem exec_mbal {sweeps tol} : exec (.mbal sweeps tol) s = execMbal sweeps tol s := rfl
@[simp] theorem exec_mtpstPlan {line} : exec (.mtpstPlan line) s = execMtpstPlan line s := rfl
@[simp] theorem exec_mtpstPotentials {line} :
    exec (.mtpstPotentials line) s = execMtpstPotentials line s := rfl
@[simp] theorem exec_mtpstRelease {line} : exec (.mtpstRelease line) s = execMtpstRelease line s := rfl
@[simp] theorem exec_mtdist {cost out} : exec (.mtdist cost out) s = execMtdist cost out s := rfl
@[simp] theorem exec_mjoin : exec .mjoin s = execMjoin s := rfl
@[simp] theorem exec_mcoopOn : exec .mcoopOn s = execMcoopOn s := rfl
@[simp] theorem exec_mcoopOff : exec .mcoopOff s = execMcoopOff s := rfl
@[simp] theorem exec_eiadd {w} : exec (.eiadd w) s = execEiadd w s := rfl
@[simp] theorem exec_eisub {w} : exec (.eisub w) s = execEisub w s := rfl
@[simp] theorem exec_eimul {w} : exec (.eimul w) s = execEimul w s := rfl
@[simp] theorem exec_eimac {w} : exec (.eimac w) s = execEimac w s := rfl
@[simp] theorem exec_eimin {w} : exec (.eimin w) s = execEimin w s := rfl
@[simp] theorem exec_eimax {w} : exec (.eimax w) s = execEimax w s := rfl
@[simp] theorem exec_eiand {w} : exec (.eiand w) s = execEiand w s := rfl
@[simp] theorem exec_eior {w} : exec (.eior w) s = execEior w s := rfl
@[simp] theorem exec_eixor {w} : exec (.eixor w) s = execEixor w s := rfl
@[simp] theorem exec_eishl {w} : exec (.eishl w) s = execEishl w s := rfl
@[simp] theorem exec_eishr {w} : exec (.eishr w) s = execEishr w s := rfl
@[simp] theorem exec_eisra {w} : exec (.eisra w) s = execEisra w s := rfl
@[simp] theorem exec_eicmp {w} : exec (.eicmp w) s = execEicmp w s := rfl
@[simp] theorem exec_efadd {w} : exec (.efadd w) s = execEfadd w s := rfl
@[simp] theorem exec_efsub {w} : exec (.efsub w) s = execEfsub w s := rfl
@[simp] theorem exec_efmul {w} : exec (.efmul w) s = execEfmul w s := rfl
@[simp] theorem exec_effma {w} : exec (.effma w) s = execEffma w s := rfl
@[simp] theorem exec_efmin {w} : exec (.efmin w) s = execEfmin w s := rfl
@[simp] theorem exec_efmax {w} : exec (.efmax w) s = execEfmax w s := rfl
@[simp] theorem exec_efcmp {w} : exec (.efcmp w) s = execEfcmp w s := rfl
@[simp] theorem exec_ecvt {w} : exec (.ecvt w) s = execEcvt w s := rfl
@[simp] theorem exec_eexp2 {w} : exec (.eexp2 w) s = execEexp2 w s := rfl
@[simp] theorem exec_elog2 {w} : exec (.elog2 w) s = execElog2 w s := rfl
@[simp] theorem exec_ercp {w} : exec (.ercp w) s = execErcp w s := rfl
@[simp] theorem exec_else2 {w} : exec (.else2 w) s = execElse2 w s := rfl
@[simp] theorem exec_esel {w} : exec (.esel w) s = execEsel w s := rfl
@[simp] theorem exec_esteer {w} : exec (.esteer w) s = execEsteer w s := rfl
@[simp] theorem exec_emerge {w} : exec (.emerge w) s = execEmerge w s := rfl
@[simp] theorem exec_eexit {w} : exec (.eexit w) s = execEexit w s := rfl
@[simp] theorem exec_erep {w} : exec (.erep w) s = execErep w s := rfl
@[simp] theorem exec_emark {w} : exec (.emark w) s = execEmark w s := rfl
@[simp] theorem exec_estrip {w} : exec (.estrip w) s = execEstrip w s := rfl
@[simp] theorem exec_ecount {w} : exec (.ecount w) s = execEcount w s := rfl
@[simp] theorem exec_ered {w} : exec (.ered w) s = execEred w s := rfl
@[simp] theorem exec_econst {w} : exec (.econst w) s = execEconst w s := rfl
@[simp] theorem exec_epass {w} : exec (.epass w) s = execEpass w s := rfl
@[simp] theorem exec_edrop {w} : exec (.edrop w) s = execEdrop w s := rfl
@[simp] theorem exec_eld {w} : exec (.eld w) s = execEld w s := rfl
@[simp] theorem exec_est {w} : exec (.est w) s = execEst w s := rfl
@[simp] theorem exec_ermw {w} : exec (.ermw w) s = execErmw w s := rfl
@[simp] theorem exec_ebq {w} : exec (.ebq w) s = execEbq w s := rfl
@[simp] theorem exec_ebdq {w} : exec (.ebdq w) s = execEbdq w s := rfl
@[simp] theorem exec_illegalInstruction {w} :
    exec (.illegalInstruction w) s = execIllegalInstruction w s := rfl
@[simp] theorem exec_matrixPass {c} : exec (.matrixPass c) s = execMatrixPass c s := rfl
@[simp] theorem exec_rowFiring {c} : exec (.rowFiring c) s = execRowFiring c s := rfl
@[simp] theorem exec_mrdOutputDrain {c} : exec (.mrdOutputDrain c) s = execMrdOutputDrain c s := rfl
@[simp] theorem exec_matrixWordComplete {c} :
    exec (.matrixWordComplete c) s = execMatrixWordComplete c s := rfl
@[simp] theorem exec_taskDispatch {c} : exec (.taskDispatch c) s = execTaskDispatch c s := rfl
@[simp] theorem exec_instanceAged {c slot} : exec (.instanceAged c slot) s = execInstanceAged c slot s := rfl
@[simp] theorem exec_continuationWake {c slot} :
    exec (.continuationWake c slot) s = execContinuationWake c slot s := rfl
@[simp] theorem exec_preemptForcedStop {c} : exec (.preemptForcedStop c) s = execPreemptForcedStop c s := rfl
@[simp] theorem exec_taskCommit {c idx} : exec (.taskCommit c idx) s = execTaskCommit c idx s := rfl
@[simp] theorem exec_registerReplyArrival {c idx} :
    exec (.registerReplyArrival c idx) s = execRegisterReplyArrival c idx s := rfl
@[simp] theorem exec_unitCompletion {c chain} :
    exec (.unitCompletion c chain) s = execUnitCompletion c chain s := rfl
@[simp] theorem exec_cancelArrival {idx} : exec (.cancelArrival idx) s = execCancelArrival idx s := rfl
@[simp] theorem exec_ldgLineArrival {c idx} :
    exec (.ldgLineArrival c idx) s = execLdgLineArrival c idx s := rfl
@[simp] theorem exec_stgWriteComplete {c idx} :
    exec (.stgWriteComplete c idx) s = execStgWriteComplete c idx s := rfl
@[simp] theorem exec_detentAtomic {cl} : exec (.detentAtomic cl) s = execDetentAtomic cl s := rfl
@[simp] theorem exec_atomicDepositArrival {c idx} :
    exec (.atomicDepositArrival c idx) s = execAtomicDepositArrival c idx s := rfl
@[simp] theorem exec_homeRecall {cl line} : exec (.homeRecall cl line) s = execHomeRecall cl line s := rfl
@[simp] theorem exec_scratchpadAtomicStep {c} :
    exec (.scratchpadAtomicStep c) s = execScratchpadAtomicStep c s := rfl
@[simp] theorem exec_pageWalk {p die va} : exec (.pageWalk p die va) s = execPageWalk p die va s := rfl
@[simp] theorem exec_supervisorRetry {p idx} :
    exec (.supervisorRetry p idx) s = execSupervisorRetry p idx s := rfl
@[simp] theorem exec_translationInvalidate {p va} :
    exec (.translationInvalidate p va) s = execTranslationInvalidate p va s := rfl
@[simp] theorem exec_streamCommandStart {c port} :
    exec (.streamCommandStart c port) s = execStreamCommandStart c port s := rfl
@[simp] theorem exec_streamSourceToken {c port} :
    exec (.streamSourceToken c port) s = execStreamSourceToken c port s := rfl
@[simp] theorem exec_streamSinkToken {c port} :
    exec (.streamSinkToken c port) s = execStreamSinkToken c port s := rfl
@[simp] theorem exec_streamCommandComplete {c port} :
    exec (.streamCommandComplete c port) s = execStreamCommandComplete c port s := rfl
@[simp] theorem exec_sinkCompletionSweep {launch} :
    exec (.sinkCompletionSweep launch) s = execSinkCompletionSweep launch s := rfl
@[simp] theorem exec_snapshotRequest {c idx} :
    exec (.snapshotRequest c idx) s = execSnapshotRequest c idx s := rfl
@[simp] theorem exec_snapshotApply {c idx} : exec (.snapshotApply c idx) s = execSnapshotApply c idx s := rfl
@[simp] theorem exec_coalesceWindowClose {c idx} :
    exec (.coalesceWindowClose c idx) s = execCoalesceWindowClose c idx s := rfl
@[simp] theorem exec_subscriptionUpdateApply {c idx} :
    exec (.subscriptionUpdateApply c idx) s = execSubscriptionUpdateApply c idx s := rfl
@[simp] theorem exec_backlogWrite {c idx} : exec (.backlogWrite c idx) s = execBacklogWrite c idx s := rfl
@[simp] theorem exec_unsubsArrival {c idx} : exec (.unsubsArrival c idx) s = execUnsubsArrival c idx s := rfl
@[simp] theorem exec_removalMarkPass {c idx} :
    exec (.removalMarkPass c idx) s = execRemovalMarkPass c idx s := rfl
@[simp] theorem exec_ringPacketEntry {c ring freeBuffers} :
    exec (.ringPacketEntry c ring freeBuffers) s = execRingPacketEntry c ring freeBuffers s := rfl
@[simp] theorem exec_reductionMerge {i1 i2} :
    exec (.reductionMerge i1 i2) s = execReductionMerge i1 i2 s := rfl
@[simp] theorem exec_circuitTokenTransfer {idx hop} :
    exec (.circuitTokenTransfer idx hop) s = execCircuitTokenTransfer idx hop s := rfl
@[simp] theorem exec_rowTagArrival {c port} :
    exec (.rowTagArrival c port) s = execRowTagArrival c port s := rfl
@[simp] theorem exec_memoryNodeReply {c idx} :
    exec (.memoryNodeReply c idx) s = execMemoryNodeReply c idx s := rfl
@[simp] theorem exec_nodeNaming {launch node port} :
    exec (.nodeNaming launch node port) s = execNodeNaming launch node port s := rfl
@[simp] theorem exec_nameLookup {launch node port} :
    exec (.nameLookup launch node port) s = execNameLookup launch node port s := rfl
@[simp] theorem exec_controlNameResolve {launch node} :
    exec (.controlNameResolve launch node) s = execControlNameResolve launch node s := rfl
@[simp] theorem exec_shapeWordArrival {launch node port} :
    exec (.shapeWordArrival launch node port) s = execShapeWordArrival launch node port s := rfl
@[simp] theorem exec_demandRequest {launch node} :
    exec (.demandRequest launch node) s = execDemandRequest launch node s := rfl
@[simp] theorem exec_anchorServe {launch node port} :
    exec (.anchorServe launch node port) s = execAnchorServe launch node port s := rfl
@[simp] theorem exec_retention {launch node port} :
    exec (.retention launch node port) s = execRetention launch node port s := rfl
@[simp] theorem exec_nlookDeposit {p idx} : exec (.nlookDeposit p idx) s = execNlookDeposit p idx s := rfl
@[simp] theorem exec_nameEngineStatus {p idx} :
    exec (.nameEngineStatus p idx) s = execNameEngineStatus p idx s := rfl
@[simp] theorem exec_holdRelease {p idx} : exec (.holdRelease p idx) s = execHoldRelease p idx s := rfl
@[simp] theorem exec_queueNotify {q tail} : exec (.queueNotify q tail) s = execQueueNotify q tail s := rfl
@[simp] theorem exec_commandRead {q} : exec (.commandRead q) s = execCommandRead q s := rfl
@[simp] theorem exec_commandRetryTimeout {q} :
    exec (.commandRetryTimeout q) s = execCommandRetryTimeout q s := rfl
@[simp] theorem exec_runJob {q} : exec (.runJob q) s = execRunJob q s := rfl
@[simp] theorem exec_cancelJob {q} : exec (.cancelJob q) s = execCancelJob q s := rfl
@[simp] theorem exec_strideDispatch : exec .strideDispatch s = execStrideDispatch s := rfl
@[simp] theorem exec_launchNodeDispatch {gr node} :
    exec (.launchNodeDispatch gr node) s = execLaunchNodeDispatch gr node s := rfl
@[simp] theorem exec_copyNodeDispatch {gr node} :
    exec (.copyNodeDispatch gr node) s = execCopyNodeDispatch gr node s := rfl
@[simp] theorem exec_copyNodeComplete {gr node} :
    exec (.copyNodeComplete gr node) s = execCopyNodeComplete gr node s := rfl
@[simp] theorem exec_condNodeDispatch {gr node} :
    exec (.condNodeDispatch gr node) s = execCondNodeDispatch gr node s := rfl
@[simp] theorem exec_loopNodeDispatch {gr node} :
    exec (.loopNodeDispatch gr node) s = execLoopNodeDispatch gr node s := rfl
@[simp] theorem exec_loopIterationEnd {gr node} :
    exec (.loopIterationEnd gr node) s = execLoopIterationEnd gr node s := rfl
@[simp] theorem exec_barNodeDispatch {gr node} :
    exec (.barNodeDispatch gr node) s = execBarNodeDispatch gr node s := rfl
@[simp] theorem exec_doneNodeDispatch {gr node} :
    exec (.doneNodeDispatch gr node) s = execDoneNodeDispatch gr node s := rfl
@[simp] theorem exec_nodeFinish {gr node} : exec (.nodeFinish gr node) s = execNodeFinish gr node s := rfl
@[simp] theorem exec_launchCompletion {launch} :
    exec (.launchCompletion launch) s = execLaunchCompletion launch s := rfl
@[simp] theorem exec_recordCheckpoint {p} : exec (.recordCheckpoint p) s = execRecordCheckpoint p s := rfl
@[simp] theorem exec_phaseBoundary {job} : exec (.phaseBoundary job) s = execPhaseBoundary job s := rfl
@[simp] theorem exec_replicaCopyComplete {p ok} :
    exec (.replicaCopyComplete p ok) s = execReplicaCopyComplete p ok s := rfl
@[simp] theorem exec_jobCompletion {job} : exec (.jobCompletion job) s = execJobCompletion job s := rfl
@[simp] theorem exec_tokenRefill : exec .tokenRefill s = execTokenRefill s := rfl
@[simp] theorem exec_queueDescriptorWrite {q v} :
    exec (.queueDescriptorWrite q v) s = execQueueDescriptorWrite q v s := rfl
@[simp] theorem exec_faultQueueDescriptorWrite {fq v} :
    exec (.faultQueueDescriptorWrite fq v) s = execFaultQueueDescriptorWrite fq v s := rfl
@[simp] theorem exec_faultRecordWrite {fq} : exec (.faultRecordWrite fq) s = execFaultRecordWrite fq s := rfl
@[simp] theorem exec_modeRegisterWrite {p v} :
    exec (.modeRegisterWrite p v) s = execModeRegisterWrite p v s := rfl
@[simp] theorem exec_nameDomainSet {p cfg} : exec (.nameDomainSet p cfg) s = execNameDomainSet p cfg s := rfl
@[simp] theorem exec_supervisorRegisterWrite {r} :
    exec (.supervisorRegisterWrite r) s = execSupervisorRegisterWrite r s := rfl
@[simp] theorem exec_preemptRequest {p} : exec (.preemptRequest p) s = execPreemptRequest p s := rfl
@[simp] theorem exec_quiescence {p} : exec (.quiescence p) s = execQuiescence p s := rfl
@[simp] theorem exec_clusterSave {p vcl} : exec (.clusterSave p vcl) s = execClusterSave p vcl s := rfl
@[simp] theorem exec_resume {p} : exec (.resume p) s = execResume p s := rfl
@[simp] theorem exec_debugHaltRequest {c} : exec (.debugHaltRequest c) s = execDebugHaltRequest c s := rfl
@[simp] theorem exec_scrub {c} : exec (.scrub c) s = execScrub c s := rfl
@[simp] theorem exec_uncorrectableError {w} :
    exec (.uncorrectableError w) s = execUncorrectableError w s := rfl
@[simp] theorem exec_linkRetransmit {l} : exec (.linkRetransmit l) s = execLinkRetransmit l s := rfl
@[simp] theorem exec_keyUpdate {l} : exec (.keyUpdate l) s = execKeyUpdate l s := rfl
@[simp] theorem exec_keyExchange {l} : exec (.keyExchange l) s = execKeyExchange l s := rfl
@[simp] theorem exec_chronographLatch : exec .chronographLatch s = execChronographLatch s := rfl
@[simp] theorem exec_deviceReset : exec .deviceReset s = execDeviceReset s := rfl
@[simp] theorem exec_imageLengthWrite {len} :
    exec (.imageLengthWrite len) s = execImageLengthWrite len s := rfl
@[simp] theorem exec_bar2HostAccess {acc} : exec (.bar2HostAccess acc) s = execBar2HostAccess acc s := rfl
@[simp] theorem exec_getMeasurements {nonce} :
    exec (.getMeasurements nonce) s = execGetMeasurements nonce s := rfl
@[simp] theorem exec_challenge {nonce} : exec (.challenge nonce) s = execChallenge nonce s := rfl
@[simp] theorem exec_getCertificate : exec .getCertificate s = execGetCertificate s := rfl
@[simp] theorem exec_readTemperatures {die} :
    exec (.readTemperatures die) s = execReadTemperatures die s := rfl
@[simp] theorem exec_setPowerLimit {watts} : exec (.setPowerLimit watts) s = execSetPowerLimit watts s := rfl
@[simp] theorem exec_setDvfsFloorCeiling {cl lo hi} :
    exec (.setDvfsFloorCeiling cl lo hi) s = execSetDvfsFloorCeiling cl lo hi s := rfl
@[simp] theorem exec_setChronographT {t} : exec (.setChronographT t) s = execSetChronographT t s := rfl
@[simp] theorem exec_readErrorCounters {die} :
    exec (.readErrorCounters die) s = execReadErrorCounters die s := rfl
@[simp] theorem exec_requestPreemption {p} : exec (.requestPreemption p) s = execRequestPreemption p s := rfl
@[simp] theorem exec_requestResume {p clusters} :
    exec (.requestResume p clusters) s = execRequestResume p clusters s := rfl
@[simp] theorem exec_setPartitionMode {p dbg det} :
    exec (.setPartitionMode p dbg det) s = execSetPartitionMode p dbg det s := rfl
@[simp] theorem exec_dvfsMonitorWindow {cl pressured total} :
    exec (.dvfsMonitorWindow cl pressured total) s = execDvfsMonitorWindow cl pressured total s := rfl
@[simp] theorem exec_powerLimitStep {watts} :
    exec (.powerLimitStep watts) s = execPowerLimitStep watts s := rfl
@[simp] theorem exec_objectLoad {p file} : exec (.objectLoad p file) s = execObjectLoad p file s := rfl
@[simp] theorem exec_objectUnload {p obj} : exec (.objectUnload p obj) s = execObjectUnload p obj s := rfl
@[simp] theorem exec_correctedSingleBitError {die} :
    exec (.correctedSingleBitError die) s = execCorrectedSingleBitError die s := rfl
@[simp] theorem exec_hbmUncorrectableError {unit} :
    exec (.hbmUncorrectableError unit) s = execHbmUncorrectableError unit s := rfl

end Sys2Proof.Machine
end

