-- ==== Sys2Proof/Laws/Global.lean ====
section
/-!
SUPPORT. What a global access can change: memory, the Detents' hot lines, the poison and the keys of units, and the
marks of a save area (R118, R166, R233, R240, R255).
-/

namespace Sys2Proof.Machine

/-- Nothing differs but memory, the Detents, the units' poison and keys, and the marks of save areas. -/
def Glob (s t : State) : Prop :=
  t = { s with mem := t.mem, clusters := t.clusters, badUnit := t.badUnit, unitKey := t.unitKey, saves := t.saves }

variable {s t u : State}

theorem Glob.refl (s : State) : Glob s s := rfl
theorem Glob.trans (h : Glob s t) (g : Glob t u) : Glob s u := by
  unfold Glob at *; rw [g, h]
theorem Glob.cores (h : Glob s t) : t.cores = s.cores := by rw [h]
theorem Glob.seat (h : Glob s t) : t.seat = s.seat := by rw [h]
theorem Glob.queues (h : Glob s t) : t.queues = s.queues := by rw [h]
theorem Glob.fresh (h : Glob s t) : t.fresh = s.fresh := by rw [h]
theorem Glob.core (h : Glob s t) (c : Nat) : t.core c = s.core c := by unfold State.core; rw [h.cores]
theorem Glob.here (h : Glob s t) : t.here = s.here := by unfold State.here; rw [h.seat, h.core]
theorem Glob.reg (h : Glob s t) (r : Reg) : t.reg r = s.reg r := by unfold State.reg; rw [h.seat, h.here]
theorem Glob.part (h : Glob s t) (p : Nat) : t.part p = s.part p := by unfold State.part; rw [h]

theorem foldl_glob {β : Type} (f : State → β → State) (h : ∀ s x, Glob s (f s x)) (l : List β) (s : State) :
    Glob s (l.foldl f s) := by
  induction l generalizing s with
  | nil => exact Glob.refl s
  | cons x r ih => exact (h s x).trans (ih _)

theorem State.writeBack_glob (s : State) (cl line : Nat) : Glob s (s.writeBack cl line) := by
  unfold State.writeBack
  dsimp only
  split
  · exact Glob.refl s
  · rfl

theorem State.recall_glob (s : State) (line : Nat) : Glob s (s.recall line) := by
  unfold State.recall
  refine foldl_glob _ (fun s _ => ?_) _ _
  split
  · exact State.writeBack_glob s _ _
  · exact Glob.refl s

theorem State.physRead_glob (s : State) (l : List Nat) : Glob s (s.physRead l).1 :=
  foldl_glob _ (fun s x => State.recall_glob s _) _ _

theorem State.walked_glob (s : State) (die p va : Nat) : Glob s (s.walked die p va) := by
  unfold State.walked
  split
  · exact Glob.refl s
  · exact foldl_glob _ (fun s x => State.recall_glob s _) _ _

theorem State.walkedRange_glob (s : State) (die p va n : Nat) : Glob s (s.walkedRange die p va n) :=
  (State.walked_glob s die p va).trans (State.walked_glob _ die p _)

theorem Glob.mem_unitKey (s : State) (m : Memory) (k : Tbl (List Byte)) : Glob s { s with mem := m, unitKey := k } := rfl

theorem State.rekeyUnit_glob (s : State) (old key : List Byte) (u : Nat) : Glob s (s.rekeyUnit old key u) :=
  (State.recall_glob s _).trans (Glob.mem_unitKey _ _ _)

theorem State.keyed_glob (s : State) (p : Nat) (l : List Nat) (write : Bool) : Glob s (s.keyed p l write) := by
  unfold State.keyed
  refine foldl_glob _ (fun s u => ?_) _ _
  split
  · split
    · exact Glob.refl s
    · exact State.rekeyUnit_glob s _ _ u
  · split
    · exact Glob.mem_unitKey s s.mem _
    · exact Glob.refl s

theorem State.physWrite_glob (s : State) (l : List Nat) (b : List Byte) (bad : Bool) : Glob s (s.physWrite l b bad) :=
  (foldl_glob (fun s a => s.recall (a / 128)) (fun s _ => State.recall_glob s _) l s).trans rfl

theorem State.gRead_glob {die p va n : Nat} {x : List Byte × Bool} (h : s.gRead die p va n = some (t, x)) : Glob s t := by
  unfold State.gRead at h
  obtain ⟨l, -, h⟩ := Option.map_eq_some_iff.1 h
  have := ((State.walkedRange_glob s die p va n).trans (State.keyed_glob _ p l false)).trans (State.physRead_glob _ l)
  rw [h] at this
  exact this

theorem State.gWrite_glob {die p va : Nat} {b : List Byte} {bad : Bool} (h : s.gWrite die p va b bad = some t) :
    Glob s t := by
  unfold State.gWrite at h
  obtain ⟨l, -, rfl⟩ := Option.map_eq_some_iff.1 h
  exact ((State.walkedRange_glob s die p va _).trans (State.keyed_glob _ p l true)).trans (State.physWrite_glob _ l b bad)

theorem State.regRead_glob {p va n : Nat} {x : List Byte × Bool} (h : s.regRead p va n = some (t, x)) : Glob s t := by
  unfold State.regRead at h
  split at h
  · exact State.gRead_glob h
  · cases h

theorem State.regWrite_glob {p va : Nat} {b : List Byte} {bad : Bool} (h : s.regWrite p va b bad = some t) :
    Glob s t := by
  unfold State.regWrite at h
  split at h
  · exact State.gWrite_glob h
  · cases h

theorem readTable_glob (p : Nat) (n va : Nat) (s : State) : Glob s (readTable p va n s).1 := by
  induction n generalizing va s with
  | zero => exact Glob.refl s
  | succ n ih =>
    unfold readTable
    split
    · exact Glob.refl s
    · rename_i h
      have h1 := State.regRead_glob h
      dsimp only
      split
      · exact h1
      · split
        · exact h1
        · rename_i h
          have h2 := h1.trans (State.regRead_glob h)
          split
          · exact h2
          · split
            · exact h2
            · rename_i s' _ _ _ _ _ _
              have h3 := h2.trans (ih (va + 16) _)
              split
              · rename_i h; rw [h] at h3; exact h3
              · rename_i h; rw [h] at h3; exact h3

theorem State.parseCommand_glob (s : State) (p : Nat) (b : List Byte) (bad : Bool) :
    Glob s (s.parseCommand p b bad).1 := by
  unfold State.parseCommand
  dsimp only
  split
  · exact Glob.refl s
  · split
    · exact Glob.refl s
    · split
      · exact Glob.refl s
      · have h1 := readTable_glob p (field b 13 1) (field b 16 8) s
        split
        · rename_i h; rw [h] at h1; exact h1
        · rename_i h
          rw [h] at h1
          split
          · exact h1
          · split
            · exact h1
            · split
              · exact h1
              · split
                · exact h1
                · split
                  · exact h1
                  · split
                    · exact h1
                    · rename_i h
                      have h2 := h1.trans (State.regRead_glob h)
                      split
                      · exact h2
                      · exact h2

end Sys2Proof.Machine
end

