-- ==== Sys2Proof/Laws/Issue.lean ====
section
/-!
SUPPORT. Every guarded control word goes through the one issue check, `safe` apart.
-/

namespace Sys2Proof.Machine

/-- The result of a word that the control sequencer issues under a guard. -/
def Gated (g : Guard) (s : State) (r : Result) : Prop := ∃ uses f, r = control g uses s f

/-- The result of `end`, `yield` or `rdv`. -/
def Ended (g : Guard) (s : State) (r : Result) : Prop := ∃ uses f, r = controlEnd g uses s f

variable {s : State}

theorem issue_add {g d a b} : Gated g s (execAdd g d a b s) := by
  unfold execAdd alu; exact ⟨_, _, rfl⟩
theorem issue_sub {g d a b} : Gated g s (execSub g d a b s) := by
  unfold execSub alu; exact ⟨_, _, rfl⟩
theorem issue_mul {g d a b} : Gated g s (execMul g d a b s) := by
  unfold execMul alu; exact ⟨_, _, rfl⟩
theorem issue_mulh {g d a b} : Gated g s (execMulh g d a b s) := by
  unfold execMulh alu; exact ⟨_, _, rfl⟩
theorem issue_mulhn {g d a b} : Gated g s (execMulhn g d a b s) := by
  unfold execMulhn alu; exact ⟨_, _, rfl⟩
theorem issue_div {g d a b} : Gated g s (execDiv g d a b s) := by
  unfold execDiv alu; exact ⟨_, _, rfl⟩
theorem issue_divn {g d a b} : Gated g s (execDivn g d a b s) := by
  unfold execDivn alu; exact ⟨_, _, rfl⟩
theorem issue_rem {g d a b} : Gated g s (execRem g d a b s) := by
  unfold execRem alu; exact ⟨_, _, rfl⟩
theorem issue_remn {g d a b} : Gated g s (execRemn g d a b s) := by
  unfold execRemn alu; exact ⟨_, _, rfl⟩
theorem issue_and {g d a b} : Gated g s (execAnd g d a b s) := by
  unfold execAnd alu; exact ⟨_, _, rfl⟩
theorem issue_or {g d a b} : Gated g s (execOr g d a b s) := by
  unfold execOr alu; exact ⟨_, _, rfl⟩
theorem issue_xor {g d a b} : Gated g s (execXor g d a b s) := by
  unfold execXor alu; exact ⟨_, _, rfl⟩
theorem issue_shl {g d a b} : Gated g s (execShl g d a b s) := by
  unfold execShl alu; exact ⟨_, _, rfl⟩
theorem issue_shr {g d a b} : Gated g s (execShr g d a b s) := by
  unfold execShr alu; exact ⟨_, _, rfl⟩
theorem issue_sra {g d a b} : Gated g s (execSra g d a b s) := by
  unfold execSra alu; exact ⟨_, _, rfl⟩
theorem issue_rot {g d a b} : Gated g s (execRot g d a b s) := by
  unfold execRot alu; exact ⟨_, _, rfl⟩
theorem issue_min {g d a b} : Gated g s (execMin g d a b s) := by
  unfold execMin alu; exact ⟨_, _, rfl⟩
theorem issue_max {g d a b} : Gated g s (execMax g d a b s) := by
  unfold execMax alu; exact ⟨_, _, rfl⟩
theorem issue_minn {g d a b} : Gated g s (execMinn g d a b s) := by
  unfold execMinn alu; exact ⟨_, _, rfl⟩
theorem issue_maxn {g d a b} : Gated g s (execMaxn g d a b s) := by
  unfold execMaxn alu; exact ⟨_, _, rfl⟩
theorem issue_clz {g d a} : Gated g s (execClz g d a s) := by
  unfold execClz alu1; exact ⟨_, _, rfl⟩
theorem issue_ctz {g d a} : Gated g s (execCtz g d a s) := by
  unfold execCtz alu1; exact ⟨_, _, rfl⟩
theorem issue_popc {g d a} : Gated g s (execPopc g d a s) := by
  unfold execPopc alu1; exact ⟨_, _, rfl⟩
theorem issue_bextZReg {g d a b} : Gated g s (execBextZReg g d a b s) := by
  unfold execBextZReg fieldReg; exact ⟨_, _, rfl⟩
theorem issue_binsReg {g d a b} : Gated g s (execBinsReg g d a b s) := by
  unfold execBinsReg fieldReg; exact ⟨_, _, rfl⟩
theorem issue_bextSReg {g d a b} : Gated g s (execBextSReg g d a b s) := by
  unfold execBextSReg fieldReg; exact ⟨_, _, rfl⟩
theorem issue_sel {g qs d a b} : Gated g s (execSel g qs d a b s) := ⟨_, _, rfl⟩
theorem issue_addi {g d a imm} : Gated g s (execAddi g d a imm s) := by
  unfold execAddi alu1; exact ⟨_, _, rfl⟩
theorem issue_andi {g d a imm} : Gated g s (execAndi g d a imm s) := by
  unfold execAndi alu1; exact ⟨_, _, rfl⟩
theorem issue_ori {g d a imm} : Gated g s (execOri g d a imm s) := by
  unfold execOri alu1; exact ⟨_, _, rfl⟩
theorem issue_xori {g d a imm} : Gated g s (execXori g d a imm s) := by
  unfold execXori alu1; exact ⟨_, _, rfl⟩
theorem issue_shi {g kind d a amt} : Gated g s (execShi g kind d a amt s) := by
  unfold execShi alu1; exact ⟨_, _, rfl⟩
theorem issue_bextZ {g d a off wm1} : Gated g s (execBextZ g d a off wm1 s) := by
  unfold execBextZ alu1; exact ⟨_, _, rfl⟩
theorem issue_bextS {g d a off wm1} : Gated g s (execBextS g d a off wm1 s) := by
  unfold execBextS alu1; exact ⟨_, _, rfl⟩
theorem issue_bins {g d a off wm1} : Gated g s (execBins g d a off wm1 s) := ⟨_, _, rfl⟩
theorem issue_li {g d imm} : Gated g s (execLi g d imm s) := ⟨_, _, rfl⟩
theorem issue_lui {g d imm} : Gated g s (execLui g d imm s) := ⟨_, _, rfl⟩
theorem issue_cmp {g cc d a b} : Gated g s (execCmp g cc d a b s) := ⟨_, _, rfl⟩
theorem issue_cmpi {g cc d a imm} : Gated g s (execCmpi g cc d a imm s) := ⟨_, _, rfl⟩
theorem issue_pand {g d a b} : Gated g s (execPand g d a b s) := ⟨_, _, rfl⟩
theorem issue_por {g d a b} : Gated g s (execPor g d a b s) := ⟨_, _, rfl⟩
theorem issue_pnot {g d a} : Gated g s (execPnot g d a s) := ⟨_, _, rfl⟩
theorem issue_ldZ {g sz d a off} : Gated g s (execLdZ g sz d a off s) := ⟨_, _, rfl⟩
theorem issue_ldS {g sz d a off} : Gated g s (execLdS g sz d a off s) := ⟨_, _, rfl⟩
theorem issue_st {g sz d a off} : Gated g s (execSt g sz d a off s) := ⟨_, _, rfl⟩
theorem issue_fsetFull {g a} : Gated g s (execFsetFull g a s) := by
  unfold execFsetFull fset; exact ⟨_, _, rfl⟩
theorem issue_fsetEmpty {g a} : Gated g s (execFsetEmpty g a s) := by
  unfold execFsetEmpty fset; exact ⟨_, _, rfl⟩
theorem issue_ftest {g d a} : Gated g s (execFtest g d a s) := ⟨_, _, rfl⟩
theorem issue_ldg {g a b lines} : Gated g s (execLdg g a b lines s) := ⟨_, _, rfl⟩
theorem issue_stg {g a b lines} : Gated g s (execStg g a b lines s) := ⟨_, _, rfl⟩
theorem issue_tlook {g d a} : Gated g s (execTlook g d a s) := ⟨_, _, rfl⟩
theorem issue_tset {g a b} : Gated g s (execTset g a b s) := ⟨_, _, rfl⟩
theorem issue_tclr {g a} : Gated g s (execTclr g a s) := ⟨_, _, rfl⟩
theorem issue_amo {g op sz dep d a b} : Gated g s (execAmo g op sz dep d a b s) := ⟨_, _, rfl⟩
theorem issue_amocas {g sz dep d a b} : Gated g s (execAmocas g sz dep d a b s) := ⟨_, _, rfl⟩
theorem issue_b {g off} : Gated g s (execB g off s) := ⟨_, _, rfl⟩
theorem issue_call {g off} : Gated g s (execCall g off s) := ⟨_, _, rfl⟩
theorem issue_ret {g} : Gated g s (execRet g s) := ⟨_, _, rfl⟩
theorem issue_jt {g a b} : Gated g s (execJt g a b s) := ⟨_, _, rfl⟩
theorem issue_lpad {g label} : Gated g s (execLpad g label s) := ⟨_, _, rfl⟩
theorem issue_recv {g d vc q} : Gated g s (execRecv g d vc q s) := ⟨_, _, rfl⟩
theorem issue_send {g d a b} : Gated g s (execSend g d a b s) := ⟨_, _, rfl⟩
theorem issue_spawn {g a b} : Gated g s (execSpawn g a b s) := ⟨_, _, rfl⟩
theorem issue_endTask {g} : Ended g s (execEndTask g s) := ⟨_, _, rfl⟩
theorem issue_yield {g wake tgt} : Ended g s (execYield g wake tgt s) := ⟨_, _, rfl⟩
theorem issue_waitc {g d ld st cp mt} : Gated g s (execWaitc g d ld st cp mt s) := ⟨_, _, rfl⟩
theorem issue_forkMatrix {g d tgt} : Gated g s (execForkMatrix g d tgt s) := ⟨_, _, rfl⟩
theorem issue_forkStream {g d tgt} : Gated g s (execForkStream g d tgt s) := ⟨_, _, rfl⟩
theorem issue_rdv {g tgt} : Ended g s (execRdv g tgt s) := ⟨_, _, rfl⟩
theorem issue_sbind {g d a b} (h : s.seat.seq = .control) : Gated g s (execSbind g d a b s) := by
  unfold execSbind streamWord; rw [if_neg (by rw [h]; decide)]; exact ⟨_, _, rfl⟩
theorem issue_scopy {g d a b} (h : s.seat.seq = .control) : Gated g s (execScopy g d a b s) := by
  unfold execScopy streamWord; rw [if_neg (by rw [h]; decide)]; exact ⟨_, _, rfl⟩
theorem issue_sim2c {g d a b} (h : s.seat.seq = .control) : Gated g s (execSim2c g d a b s) := by
  unfold execSim2c streamWord; rw [if_neg (by rw [h]; decide)]; exact ⟨_, _, rfl⟩
theorem issue_sgath {g d a b m} (h : s.seat.seq = .control) : Gated g s (execSgath g d a b m s) := by
  unfold execSgath streamWord; rw [if_neg (by rw [h]; decide)]; exact ⟨_, _, rfl⟩
theorem issue_sstop {g d b keep} (h : s.seat.seq = .control) : Gated g s (execSstop g d b keep s) := by
  unfold execSstop; rw [if_neg (by rw [h]; decide)]; exact ⟨_, _, rfl⟩
theorem issue_fence {g before after} : Gated g s (execFence g before after s) := ⟨_, _, rfl⟩
theorem issue_bar {g a} : Gated g s (execBar g a s) := ⟨_, _, rfl⟩
theorem issue_bartest {g d a} : Gated g s (execBartest g d a s) := ⟨_, _, rfl⟩
theorem issue_subs {g d a b} : Gated g s (execSubs g d a b s) := ⟨_, _, rfl⟩
theorem issue_unsubs {g a} : Gated g s (execUnsubs g a s) := ⟨_, _, rfl⟩
theorem issue_sflush {g} : Gated g s (execSflush g s) := ⟨_, _, rfl⟩
theorem issue_nlook {g a b} : Gated g s (execNlook g a b s) := ⟨_, _, rfl⟩
theorem issue_nins {g d a} : Gated g s (execNins g d a s) := by
  unfold execNins nameStatus; exact ⟨_, _, rfl⟩
theorem issue_nevict {g d a} : Gated g s (execNevict g d a s) := by
  unfold execNevict nameStatus; exact ⟨_, _, rfl⟩
theorem issue_qpost {g d a b} : Gated g s (execQpost g d a b s) := ⟨_, _, rfl⟩
theorem issue_cnct {g d a} : Gated g s (execCnct g d a s) := ⟨_, _, rfl⟩
theorem issue_cncl {g a} : Gated g s (execCncl g a s) := ⟨_, _, rfl⟩
theorem issue_mfs {g d num} : Gated g s (execMfs g d num s) := ⟨_, _, rfl⟩
theorem issue_mts {g a num} : Gated g s (execMts g a num s) := ⟨_, _, rfl⟩
theorem issue_nop {g} (h : s.seat.seq = .control) : Gated g s (execNop g s) := by
  unfold execNop; rw [if_neg (by rw [h]; decide)]; exact ⟨_, _, rfl⟩
theorem issue_trap {g code} : Gated g s (execTrap g code s) := ⟨_, _, rfl⟩
theorem issue_brk {g} : Gated g s (execBrk g s) := ⟨_, _, rfl⟩
theorem issue_eret {g} : Gated g s (execEret g s) := ⟨_, _, rfl⟩

/-- A guarded word of the control sequencer, unless it is a `safe`. -/
theorem exec_issue {i : Instr} {g : Guard} (hg : guardOf i = some g) (h : s.seat.seq = .control)
    (hs : ∀ live, i ≠ .safe g live) :
    Gated g s (exec i s) ∨ (Ended g s (exec i s) ∧ (i = .endTask g ∨ (∃ k t, i = .yield g k t) ∨ ∃ t, i = .rdv g t)) := by
  cases i
  case add => cases hg; exact .inl issue_add
  case sub => cases hg; exact .inl issue_sub
  case mul => cases hg; exact .inl issue_mul
  case mulh => cases hg; exact .inl issue_mulh
  case mulhn => cases hg; exact .inl issue_mulhn
  case div => cases hg; exact .inl issue_div
  case divn => cases hg; exact .inl issue_divn
  case rem => cases hg; exact .inl issue_rem
  case remn => cases hg; exact .inl issue_remn
  case and => cases hg; exact .inl issue_and
  case or => cases hg; exact .inl issue_or
  case xor => cases hg; exact .inl issue_xor
  case shl => cases hg; exact .inl issue_shl
  case shr => cases hg; exact .inl issue_shr
  case sra => cases hg; exact .inl issue_sra
  case rot => cases hg; exact .inl issue_rot
  case min => cases hg; exact .inl issue_min
  case max => cases hg; exact .inl issue_max
  case minn => cases hg; exact .inl issue_minn
  case maxn => cases hg; exact .inl issue_maxn
  case clz => cases hg; exact .inl issue_clz
  case ctz => cases hg; exact .inl issue_ctz
  case popc => cases hg; exact .inl issue_popc
  case bextZReg => cases hg; exact .inl issue_bextZReg
  case binsReg => cases hg; exact .inl issue_binsReg
  case bextSReg => cases hg; exact .inl issue_bextSReg
  case sel => cases hg; exact .inl issue_sel
  case addi => cases hg; exact .inl issue_addi
  case andi => cases hg; exact .inl issue_andi
  case ori => cases hg; exact .inl issue_ori
  case xori => cases hg; exact .inl issue_xori
  case shi => cases hg; exact .inl issue_shi
  case bextZ => cases hg; exact .inl issue_bextZ
  case bextS => cases hg; exact .inl issue_bextS
  case bins => cases hg; exact .inl issue_bins
  case li => cases hg; exact .inl issue_li
  case lui => cases hg; exact .inl issue_lui
  case cmp => cases hg; exact .inl issue_cmp
  case cmpi => cases hg; exact .inl issue_cmpi
  case pand => cases hg; exact .inl issue_pand
  case por => cases hg; exact .inl issue_por
  case pnot => cases hg; exact .inl issue_pnot
  case ldZ => cases hg; exact .inl issue_ldZ
  case ldS => cases hg; exact .inl issue_ldS
  case st => cases hg; exact .inl issue_st
  case fsetFull => cases hg; exact .inl issue_fsetFull
  case fsetEmpty => cases hg; exact .inl issue_fsetEmpty
  case ftest => cases hg; exact .inl issue_ftest
  case ldg => cases hg; exact .inl issue_ldg
  case stg => cases hg; exact .inl issue_stg
  case tlook => cases hg; exact .inl issue_tlook
  case tset => cases hg; exact .inl issue_tset
  case tclr => cases hg; exact .inl issue_tclr
  case amo => cases hg; exact .inl issue_amo
  case amocas => cases hg; exact .inl issue_amocas
  case b => cases hg; exact .inl issue_b
  case call => cases hg; exact .inl issue_call
  case ret => cases hg; exact .inl issue_ret
  case jt => cases hg; exact .inl issue_jt
  case lpad _ l => cases hg; exact .inl (issue_lpad (label := l))
  case recv => cases hg; exact .inl issue_recv
  case send => cases hg; exact .inl issue_send
  case spawn => cases hg; exact .inl issue_spawn
  case endTask => cases hg; exact .inr ⟨issue_endTask, .inl rfl⟩
  case yield => cases hg; exact .inr ⟨issue_yield, .inr (.inl ⟨_, _, rfl⟩)⟩
  case waitc => cases hg; exact .inl issue_waitc
  case forkMatrix => cases hg; exact .inl issue_forkMatrix
  case forkStream => cases hg; exact .inl issue_forkStream
  case rdv => cases hg; exact .inr ⟨issue_rdv, .inr (.inr ⟨_, rfl⟩)⟩
  case sbind => cases hg; exact .inl (issue_sbind h)
  case scopy => cases hg; exact .inl (issue_scopy h)
  case sim2c => cases hg; exact .inl (issue_sim2c h)
  case sgath => cases hg; exact .inl (issue_sgath h)
  case sstop => cases hg; exact .inl (issue_sstop h)
  case fence => cases hg; exact .inl issue_fence
  case bar => cases hg; exact .inl issue_bar
  case bartest => cases hg; exact .inl issue_bartest
  case subs => cases hg; exact .inl issue_subs
  case unsubs => cases hg; exact .inl issue_unsubs
  case sflush => cases hg; exact .inl issue_sflush
  case nlook => cases hg; exact .inl issue_nlook
  case nins => cases hg; exact .inl issue_nins
  case nevict => cases hg; exact .inl issue_nevict
  case qpost => cases hg; exact .inl issue_qpost
  case cnct => cases hg; exact .inl issue_cnct
  case cncl => cases hg; exact .inl issue_cncl
  case mfs => cases hg; exact .inl issue_mfs
  case mts => cases hg; exact .inl issue_mts
  case nop => cases hg; exact .inl (issue_nop h)
  case trap => cases hg; exact .inl issue_trap
  case brk => cases hg; exact .inl issue_brk
  case eret => cases hg; exact .inl issue_eret
  case safe => cases hg; exact absurd rfl (hs _)
  all_goals cases hg

end Sys2Proof.Machine
end

