-- ==== Sys2Proof/Laws/Complete.lean ====
section
/-! SUPPORT. What a word completes with, from the shared operations it is made of: control words that
issue, stall or are guarded off; task reads and writes; matrix words and the lines they write; lane words
and the tokens they emit. -/

namespace Sys2Proof.Machine

section
variable {s : State} {g : Guard} {d a b : Reg}
theorem comp_alu (h : Issues s g [.g d, .g a, .g b]) {i : Instr} {op : Word → Word → Word} {v : Word}
    (e : exec i s = alu g d a b s op) (hv : op (s.reg a) (s.reg b) = v) : Completes i s (WritesReg d v s) :=
  ⟨_, by rw [e, alu_of_issues h], by rw [hv]; exact State.result_writes h.1 d v⟩
theorem comp_alu1 (h : Issues s g [.g d, .g a]) {i : Instr} {op : Word → Word} {v : Word}
    (e : exec i s = alu1 g d a s op) (hv : op (s.reg a) = v) : Completes i s (WritesReg d v s) :=
  ⟨_, by rw [e, alu1_of_issues h], by rw [hv]; exact State.result_writes h.1 d v⟩
theorem comp_res {uses : List Dest} (h : Issues s g uses) {i : Instr} {f : State → State} {v : Word}
    (e : exec i s = control g uses s f) (hv : f s = s.result d v) : Completes i s (WritesReg d v s) :=
  ⟨_, by rw [e, control_of_issues h], by rw [hv]; exact State.result_writes h.1 d v⟩
theorem comp_resQ {uses : List Dest} (h : Issues s g uses) {d : Pred} {i : Instr} {f : State →
    State} {v : Bool}
    (e : exec i s = control g uses s f) (hv : f s = s.resultQ d v) : Completes i s (WritesPred d v s) :=
  ⟨_, by rw [e, control_of_issues h], by rw [hv]; exact State.resultQ_writes h.1 d v⟩
end

theorem stall_nil {s : State} {g : Guard} {uses : List Dest} (h : s.here.owed = []) : s.stalled g
    uses = false := by
  simp [State.stalled, Core.owes, h]
theorem control_false {s : State} {g : Guard} {uses : List Dest} {f : State → State} (h1 :
    s.seat.seq = .control) (h2 : s.here.ctl.slot ≠ none) (h3 : s.here.ctl.killed = false) (h4 :
    s.here.owed = []) (h5 : s.here.ctl.safecnt < 2048) (h6 : s.guard g = false) : control g uses s f
    = .next s.stepPc := by
  simp [control, h1, h2, h3, stall_nil h4, Nat.not_le.2 h5, h6]
theorem controlEnd_false {s : State} {g : Guard} {uses : List Dest} {f : State → State} (h1 :
    s.seat.seq = .control) (h2 : s.here.ctl.slot ≠ none) (h3 : s.here.ctl.killed = false) (h4 :
    s.here.owed = []) (h5 : s.here.ctl.safecnt < 2048) (h6 : s.guard g = false) : controlEnd g uses
    s f = .next s.stepPc := by
  simp [controlEnd, h1, h2, h3, stall_nil h4, Nat.not_le.2 h5, h6]
theorem control_over {s : State} {g : Guard} {uses : List Dest} {f : State → State} (h1 : s.seat.seq
    = .control) (h2 : s.here.ctl.slot ≠ none) (h3 : s.here.ctl.killed = false) (h4 : s.here.owed =
    []) (h5 : 2048 ≤ s.here.ctl.safecnt) : control g uses s f = .next (s.trap 9 2048) := by
  simp [control, h1, h2, h3, stall_nil h4, h5]
theorem controlEnd_over {s : State} {g : Guard} {uses : List Dest} {f : State → State} (h1 :
    s.seat.seq = .control) (h2 : s.here.ctl.slot ≠ none) (h3 : s.here.ctl.killed = false) (h4 :
    s.here.owed = []) (h5 : 2048 ≤ s.here.ctl.safecnt) (h6 : s.guard g = false) : controlEnd g uses
    s f = .next (s.trap 9 2048) := by
  simp [controlEnd, h1, h2, h3, stall_nil h4, h5, h6]
theorem control_stall {s : State} {g : Guard} {uses : List Dest} {f : State → State} (h1 :
    s.seat.seq = .control) (h2 : s.here.ctl.slot ≠ none) (h3 : s.here.ctl.killed = false) (h :
    s.here.owes (.q g.p) = true ∨ uses.any s.here.owes = true) : control g uses s f = .next s := by
  simp [control, h1, h2, h3, State.stalled]
  intro h4 h5
  rcases h with h | h
  · rw [h4] at h; cases h
  · simp at h; obtain ⟨x, hx, hy⟩ := h; rw [h5 x hx] at hy; cases hy
theorem controlEnd_stall {s : State} {g : Guard} {uses : List Dest} {f : State → State} (h1 :
    s.seat.seq = .control) (h2 : s.here.ctl.slot ≠ none) (h3 : s.here.ctl.killed = false) (h :
    s.here.owes (.q g.p) = true ∨ uses.any s.here.owes = true) : controlEnd g uses s f = .next s :=
    by
  simp [controlEnd, h1, h2, h3, State.stalled]
  intro h4 h5
  rcases h with h | h
  · rw [h4] at h; cases h
  · simp at h; obtain ⟨x, hx, hy⟩ := h; rw [h5 x hx] at hy; cases hy

theorem extract_nat (v : Word) (a w : Nat) : (v.extractLsb' a w).toNat = v.toNat / 2 ^ a % 2 ^ w := by
  rw [BitVec.extractLsb'_toNat, Nat.shiftRight_eq_div_pow]
theorem extract_ne (v : Word) (a w : Nat) : v.extractLsb' a w ≠ 0 ↔ v.toNat / 2 ^ a % 2 ^ w ≠ 0 := by
  rw [← extract_nat, ne_eq, ne_eq, not_iff_not, ← BitVec.toNat_inj]; rfl
@[simp] theorem Ctl.setPred_work (k : Ctl) (d : Pred) (v : Bool) : (k.setPred d v).work = k.work := by rw [Ctl.setPred_eq]
@[simp] theorem Ctl.setReg_work (k : Ctl) (d : Reg) (v : Word) : (k.setReg d v).work = k.work := by rw [Ctl.setReg_eq]
@[simp] theorem Ctl.setPred_run (k : Ctl) (d : Pred) (v : Bool) : (k.setPred d v).run = k.run := by rw [Ctl.setPred_eq]
@[simp] theorem Ctl.stepPc_work (k : Ctl) : k.stepPc.work = k.work := rfl
@[simp] theorem Ctl.stepPc_run (k : Ctl) : k.stepPc.run = k.run := rfl
theorem answers {s u : State} (hq : s.seat.seq = .control) (hs : u.seat = s.seat)
    (hc : u.here.ctl.g = s.here.ctl.g ∧ u.here.ctl.q = s.here.ctl.q ∧ u.here.ctl.pc = s.here.ctl.pc
      ∧ u.here.ctl.safecnt = s.here.ctl.safecnt) (hm : u.mem = s.mem) (d : Pred) (v : Bool) : AnswersPred d v s (u.resultQ d v) := by
  obtain ⟨h1, h2, h3, h4⟩ := hc
  obtain ⟨w1, w2, w3, w4, w5, w6⟩ := State.resultQ_writes (s := u) (by rw [hs, hq]) d v
  refine ⟨fun p => ?_, fun r => ?_, ?_, fun a => by rw [w6 a, hm]⟩
  · rw [w1 p]; simp only [State.pred, Ctl.pred, h2]
  · rw [w2 r, State.reg_of_control hq, State.reg_of_control (by rw [hs, hq])]; simp only [Ctl.reg, h1]
  · exact ⟨by rw [w3.1, h3], by rw [w3.2, h4]⟩
theorem noted_facts {s : State} (l : Nat) : (s.noted l).here.ctl.pc = s.here.ctl.pc ∧ (s.noted
    l).here.ctl.g = s.here.ctl.g ∧ (s.noted l).here.ctl.q = s.here.ctl.q ∧ (s.noted
    l).here.ctl.safecnt = s.here.ctl.safecnt ∧ (s.noted l).seat = s.seat ∧ (s.noted l).mem = s.mem ∧
    (s.noted l).here.badWords = s.here.badWords ∧ (s.noted l).here.store = s.here.store ∧ (s.noted
    l).here.ctl.work.wbuf = s.here.ctl.work.wbuf := by
  obtain ⟨r, e⟩ := State.noted_eq (s := s) l
  rw [e]; simp
theorem noted_len {s : State} (l : Nat) : (s.noted l).here.ctl.work.reads.length ≤
    s.here.ctl.work.reads.length + 1 := by
  unfold State.noted
  split <;> simp
theorem noted_taskOnly {s : State} (l : Nat) : TaskOnly s (s.noted l) := by
  obtain ⟨r, e⟩ := State.noted_eq (s := s) l
  rw [e]
  exact ⟨by simp [OnlyCtl], by simp, fun a => rfl⟩
theorem TaskOnly.trans {s t u : State} (h : TaskOnly s t) (k : TaskOnly t u) (hs : t.seat = s.seat)
    : TaskOnly s u := by
  obtain ⟨a1, a2, a3⟩ := h
  obtain ⟨b1, b2, b3⟩ := k
  refine ⟨?_, ?_, fun a => (b3 a).trans (a3 a)⟩
  · unfold OnlyCtl at *
    rw [b1, a1]; simp
  · rw [b2]
    generalize t.here.ctl = x at a2
    rw [a2]
theorem noted_unordered {s : State} (l : Nat) (h : Unordered s) : Unordered (s.noted l) := by
  obtain ⟨r, e⟩ := State.noted_eq (s := s) l
  rw [e]
  simpa [Unordered, Core.taskOrd, Core.task] using h
theorem noted_readable {s : State} (l : Nat) {a : Word} {n t o : Nat} (h : Readable s a n t o) (hk :
    s.here.ctl.work.reads.length < 127 ∨ Unordered s) : Readable (s.noted l) a n t o := by
  obtain ⟨h1, h2, hw, h3, h4, h5⟩ := h
  obtain ⟨_, _, _, _, f5, _, _, _, f9⟩ := noted_facts (s := s) l
  have hp : ((s.noted l).core t).portq = (s.core t).portq := by
    obtain ⟨r, e⟩ := State.noted_eq (s := s) l
    rw [e]; simp only [State.core_setCore]; split
    · rename_i h; rw [h]; rfl
    · rfl
  refine ⟨by rw [f5]; exact h1, h2, by unfold Core.wordHeld at *; rw [hp]; exact hw, h3, fun hb i hi => ?_, ?_⟩
  · rw [f9]; exact h4 hb i hi
  · obtain h | h := hk
    · left; have := noted_len (s := s) l; omega
    · exact .inr (noted_unordered l h)
theorem noted_taskNat {s : State} (l t o n : Nat) : (s.noted l).taskNat t o n = s.taskNat t o n := by
  unfold State.taskNat State.taskByte
  rw [(noted_facts (s := s) l).2.2.2.2.2.1, (noted_facts (s := s) l).2.2.2.2.2.2.2.2]
theorem TaskOnly.stepPc {s u : State} (hq : s.seat.seq = .control) (h : TaskOnly s u) (hs : u.seat =
    s.seat) (hc : u.here.ctl.g = s.here.ctl.g ∧ u.here.ctl.q = s.here.ctl.q ∧ u.here.ctl.pc =
    s.here.ctl.pc
      ∧ u.here.ctl.safecnt = s.here.ctl.safecnt) : TaskOnly s u.stepPc ∧ NextWord s u.stepPc := by
  refine ⟨?_, nextWord_stepPc hq hs hc⟩
  refine TaskOnly.trans h ?_ hs
  exact ⟨by simp [OnlyCtl], by simp [Ctl.stepPc], fun a => rfl⟩
theorem spaceNat (a : Word) : (a.extractLsb' 60 4 ≠ 1 ↔ a.toNat / 2 ^ 60 ≠ 1) ∧ localOff a = a.toNat
    % 2 ^ 60 := by
  constructor
  · rw [ne_eq, ne_eq, not_iff_not, ← BitVec.toNat_inj, BitVec.extractLsb'_toNat, Nat.shiftRight_eq_div_pow]
    have := a.isLt
    rw [Nat.mod_eq_of_lt (by omega)]; rfl
  · unfold localOff; rw [BitVec.extractLsb'_toNat]; rfl

@[simp] theorem State.settled_core {s : State} (c : Nat) : s.settled.core c = if c = s.seat.core then { s.here with
    ctl := { s.here.ctl with work := { s.here.ctl.work with settled := true } } } else s.core c := by
  rw [State.settled_eq, State.core_setCore]
theorem mem_eraseDups' (n : Nat) : ∀ (l : List Nat), l.length ≤ n → ∀ x, x ∈ l.eraseDups ↔ x ∈ l := by
  induction n with
  | zero => intro l hl x; have : l = [] := by simpa using hl
            subst this; simp
  | succ n ih =>
    intro l hl x
    cases l with
    | nil => simp
    | cons a r =>
      rw [List.eraseDups_cons, List.mem_cons, List.mem_cons, ih _ (by
        have := List.length_filter_le (fun b => !b == a) r; simp at hl; omega), List.mem_filter]
      by_cases h : x = a <;> simp [h]
theorem nodup_eraseDups' (n : Nat) : ∀ (l : List Nat), l.length ≤ n → l.eraseDups.Nodup := by
  induction n with
  | zero => intro l hl; have : l = [] := by simpa using hl
            subst this; simp
  | succ n ih =>
    intro l hl
    cases l with
    | nil => simp
    | cons a r =>
      have h : (r.filter (fun b => !b == a)).length ≤ n := by
        have := List.length_filter_le (fun b => !b == a) r; simp at hl; omega
      rw [List.eraseDups_cons, List.nodup_cons, mem_eraseDups' n _ h, List.mem_filter]
      exact ⟨by simp, ih _ h⟩
theorem nodup_eraseDups (l : List Nat) : l.eraseDups.Nodup := nodup_eraseDups' _ l le_rfl
theorem answersReg {s u : State} (hq : s.seat.seq = .control) (hs : u.seat = s.seat)
    (hc : u.here.ctl.g = s.here.ctl.g ∧ u.here.ctl.q = s.here.ctl.q ∧ u.here.ctl.pc = s.here.ctl.pc
      ∧ u.here.ctl.safecnt = s.here.ctl.safecnt) (hm : u.mem = s.mem) (d : Reg) (v : Word) : AnswersReg d v s (u.result d v) := by
  obtain ⟨h1, h2, h3, h4⟩ := hc
  obtain ⟨w1, w2, w3, w4, w5, w6⟩ := State.result_writes (s := u) (by rw [hs, hq]) d v
  refine ⟨fun r => ?_, fun p => ?_, ?_, fun a => by rw [w6 a, hm]⟩
  · rw [w1 r, State.reg_of_control hq, State.reg_of_control (by rw [hs, hq])]; simp only [Ctl.reg, h1]
  · rw [w2 p]; simp only [State.pred, Ctl.pred, h2]
  · exact ⟨by rw [w3.1, h3], by rw [w3.2, h4]⟩
theorem owesReg {s u : State} (hq : s.seat.seq = .control) (hs : u.seat = s.seat) (hc : u.here.ctl.g
    = s.here.ctl.g ∧ u.here.ctl.q = s.here.ctl.q ∧ u.here.ctl.pc = s.here.ctl.pc
      ∧ u.here.ctl.safecnt = s.here.ctl.safecnt) (ho : u.here.owed = s.here.owed) (hr : u.here.ctl.run = s.here.ctl.run) (d : Reg) (v : Option Word) (unb : Bool) (n : Nat) (hf : u.fresh = n) :
    NextWord s (u.owe s.seat.core (.g d) v unb).stepPc ∧ (u.owe s.seat.core (.g d) v unb).stepPc.here.owed = s.here.owed ++ [⟨n, s.here.ctl.run, .g d, v, unb⟩] ∧ (u.owe s.seat.core (.g d) v unb).stepPc.mem = u.mem := by
  have hu : u.core s.seat.core = u.here := by rw [State.here, hs]
  refine ⟨nextWord_stepPc hq ?_ ?_, ?_, rfl⟩
  · simp [State.owe, hs]
  · simpa [State.owe, hs, hu] using hc
  · simp [State.owe, hs, hu, ho, hr, hf]
/-- A core whose matrix word at the sequencer is no longer one that waits. -/
def Core.unheld (k : Core) : Core :=
  { k with
    mx := { k.mx with held := false }
    chains := if k.mx.held then k.chains.put k.mx.chain { k.chain k.mx.chain with mt := (k.chain k.mx.chain).mt - 1 }
      else k.chains }
theorem Core.unheld_of {k : Core} (h : k.mx.held = false) : k.unheld = k := by
  unfold Core.unheld
  rw [if_neg (by simp [h])]
  rw [show ({ k.mx with held := false } : Mx) = k.mx by rw [← h]]
theorem State.unholdWord_core (s : State) (c : Nat) :
    s.unholdWord.core c = if c = s.seat.core then s.here.unheld else s.core c := by
  unfold State.unholdWord
  dsimp only
  cases h : s.here.mx.held
  · rw [if_neg (by simp), Core.unheld_of h]
    split
    · rename_i hc; rw [hc]; rfl
    · rfl
  · rw [if_pos rfl]
    by_cases hc : c = s.seat.core
    · subst hc
      rw [State.modChain_eq, State.core_setCore, if_pos rfl, State.modMx_eq, State.core_setCore, if_pos rfl, if_pos rfl]
      unfold Core.unheld
      rw [if_pos h]; rfl
    · simp [hc]
theorem State.modMx_setCore (s : State) (c : Nat) (k : Core) (f : Mx → Mx) :
    (s.setCore c k).modMx c f = s.setCore c { k with mx := f k.mx } := by
  rw [State.modMx_eq, State.setCore_setCore, State.core_setCore, if_pos rfl]
theorem State.modChain_setCore (s : State) (c n : Nat) (k : Core) (f : Chain → Chain) :
    (s.setCore c k).modChain c n f = s.setCore c { k with chains := k.chains.put n (f (k.chain n)) } := by
  rw [State.modChain_eq, State.setCore_setCore, State.core_setCore, if_pos rfl]
theorem setCore_next_bump (s : State) (c : Nat) (k : Core) : (s.setCore c k).next.bump
    = { s.setCore c ((s.setCore c k).next.bump.core c) with fresh := s.fresh + 1, opSeq := s.opSeq + 1 } := by
  have : (s.setCore c k).next.bump.core c = k := by
    rw [show (s.setCore c k).next.bump.core c = (s.setCore c k).core c from rfl, State.core_setCore, if_pos rfl]
  rw [this]; rfl
theorem State.unholdWord_setCore (s : State) (k : Core) :
    (s.setCore s.seat.core k).unholdWord = s.setCore s.seat.core k.unheld := by
  unfold State.unholdWord
  dsimp only
  rw [State.here_setCore, if_pos rfl]
  cases h : k.mx.held
  · rw [if_neg (by simp), Core.unheld_of h]
  · rw [if_pos rfl]
    rw [State.setCore_seat, State.modMx_setCore, State.modChain_setCore]
    unfold Core.unheld
    rw [if_pos h]; rfl
theorem State.unholdWord_same (s : State) : s.unholdWord = { s with cores := s.unholdWord.cores } := by
  unfold State.unholdWord; dsimp only; split <;> rfl
/-- The seat's core as a matrix word leaves it, with the unit `m`. -/
def afterWord (s : State) (kind : Nat) (fl : Flags) (m : Mx) : Core :=
  { s.here with
    mx := { m with
      pc := s.here.mx.pc + 1, held := false
      words := s.here.mx.words ++ [⟨s.fresh, s.here.mx.pc, kind, fl, s.here.mx.chain, s.opSeq⟩] }
    chains := s.here.chains.put s.here.mx.chain { s.here.chain s.here.mx.chain with mt := wordsOut s + 1 } }
/-- The last part of a matrix word's issue. -/
def issueWord (s v : State) (kind : Nat) (fl : Flags) : State :=
  ((v.unholdWord.modMx s.seat.core (fun x => { x with
    pc := x.pc + 1
    words := x.words ++ [⟨v.unholdWord.fresh, x.pc, kind, fl, s.here.mx.chain, v.unholdWord.opSeq⟩] })).modChain
      s.seat.core s.here.mx.chain (fun x => { x with mt := x.mt + 1 })).next.bump
theorem matrixWord_of {s : State} {drain : Bool} (h : MatrixIssues s drain) (f : State → Mres) :
    matrixWord drain s f = match f s with
    | .fault fc => .next (s.unholdWord.matrixStop 16 (fc.setWidth 64) fc)
    | .wait => .next (s.holdWord drain)
    | .ok v kind flags => .next (issueWord s v kind flags) := by
  obtain ⟨h1, h2, h3, h4, h5, h6, h7, h8, h9⟩ := h
  unfold matrixWord
  dsimp only
  rw [if_neg (by simp [h1, h2, h3, h4]), if_neg (by simp only [h5, h7, h8]; cases drain <;> simp_all),
    if_neg (by rcases h9 with h | h <;> simp [h])]
  cases f s <;> rfl
/-- The cores once a word has issued, when what its effect left is known. -/
theorem issueWord_core {s v : State} (kind : Nat) (fl : Flags) {m : Mx} {sl : Tbl Slot} (h1 : v.seat = s.seat) (h2 : v.fresh = s.fresh)
    (h3 : v.opSeq = s.opSeq) (h4 : v.here = { s.here with slots := sl, mx := m }) (hp : m.pc = s.here.mx.pc)
    (hw : m.words = s.here.mx.words) (hh : m.held = s.here.mx.held) (hc : m.chain = s.here.mx.chain) (c : Nat) :
    (issueWord s v kind fl).core c = if c = s.seat.core then { afterWord s kind fl m with slots := sl } else v.core c := by
  have hu := State.unholdWord_core v
  have hs := State.unholdWord_same v
  unfold issueWord
  generalize hx : v.unholdWord = u at *
  have e2 : u.fresh = s.fresh := by rw [hs, ← h2]
  have e3 : u.opSeq = s.opSeq := by rw [hs, ← h3]
  rw [show ∀ x : State, x.next.bump.core c = x.core c from fun _ => rfl]
  by_cases hcc : c = s.seat.core
  · subst hcc
    have := hu s.seat.core
    rw [h1, if_pos rfl, h4] at this
    unfold Core.unheld at this
    rw [State.modChain_eq, State.core_setCore, if_pos rfl, State.modMx_eq, State.core_setCore, if_pos rfl, this, e2, e3]
    unfold afterWord wordsOut Core.chain
    dsimp only
    rw [hp, hw, hh, hc]
    cases s.here.mx.held <;> simp
  · have := hu c
    rw [h1, if_neg hcc] at this
    simp [hcc, this]
theorem matrix_issued {s : State} {drain : Bool} (h : MatrixIssues s drain) {i : Instr} {f : State →
    Mres} {m : Mx} {kind : Nat} {fl : Flags}
    (e : exec i s = matrixWord drain s f) (hf : f s = .ok (s.modMx s.seat.core (fun _ => m)) kind fl) (hp : m.pc = s.here.mx.pc)
    (hw : m.words = s.here.mx.words) (hh : m.held = s.here.mx.held) (hc : m.chain = s.here.mx.chain) :
    Completes i s (MatrixIssued s kind fl m) := by
  rw [matrixWord_of h, hf] at e
  refine ⟨_, e, ?_⟩
  have kc := issueWord_core (s := s) (v := s.modMx s.seat.core (fun _ => m)) kind fl (m := m) (sl := s.here.slots)
    rfl rfl rfl (by rw [State.modMx_eq, State.here_setCore, if_pos rfl]; rfl) hp hw hh hc
  have kh : (issueWord s (s.modMx s.seat.core (fun _ => m)) kind fl).here = afterWord s kind fl m := by
    have : (issueWord s (s.modMx s.seat.core (fun _ => m)) kind fl).seat = s.seat := by
      have hs := State.unholdWord_same (s.modMx s.seat.core (fun _ => m))
      unfold issueWord
      generalize (s.modMx s.seat.core (fun _ => m)).unholdWord = u at hs
      rw [hs]; rfl
    rw [State.here, this, kc, if_pos rfl]; rfl
  refine ⟨?_, by rw [kh]; rfl, by rw [kh]; rfl⟩
  have key : issueWord s (s.modMx s.seat.core (fun _ => m)) kind fl
      = { s.setCore s.seat.core (afterWord s kind fl m) with fresh := s.fresh + 1, opSeq := s.opSeq + 1 } := by
    have e : afterWord s kind fl m = (issueWord s (s.modMx s.seat.core (fun _ => m)) kind fl).core s.seat.core := by
      rw [kc, if_pos rfl]; rfl
    rw [e]
    unfold issueWord
    rw [State.modMx_eq (s := s), State.unholdWord_setCore, State.modMx_setCore, State.modChain_setCore]
    exact setCore_next_bump s _ _
  rw [kh]
  exact key
theorem matrixStop_faults (s : State) (ev : Word) (fc : BitVec 4) (hd : s.here.mx.held = false) : MatrixFaults s fc (s.matrixStop
    16 ev fc) := by
  unfold State.matrixStop
  dsimp only
  have hr := State.reportCore_same s s.seat.core 1 16 false s.here.mx.pc ev
  generalize s.reportCore s.seat.core 1 16 false s.here.mx.pc ev = u at *
  have hu : u.core s.seat.core = s.here := hr.core _
  have hm : ({ s.here.mx with halt := true, fcode := fc, held := false } : Mx)
      = { s.here.mx with halt := true, fcode := fc } := by rw [← hd]
  unfold MatrixFaults
  rw [hm]
  obtain ⟨r1, r2, r3⟩ := hr
  have key : ∃ w, SameCores ((u.modMx s.seat.core (fun m => { m with halt := true, fcode := fc })).modChain s.seat.core s.here.mx.chain (fun x => { x with status := .faulted })) w ∧ 
      (u.modMx s.seat.core (fun m => { m with halt := true, fcode := fc })).faultUnit s.seat.core s.here.mx.chain = w := by
    refine ⟨_, ?_, rfl⟩
    unfold State.faultUnit
    dsimp only
    split
    · exact ⟨rfl, rfl, rfl⟩
    · exact (State.modLaunch_same _ _ _).trans (State.askCancel_same _ _ _)
  obtain ⟨w, k1, k2⟩ := key
  rw [k2]
  have kh := k1.here
  refine ⟨?_, ?_, ?_, fun a => by rw [k1.2.2]; simp [r3]⟩
  all_goals rw [kh]; simp [r2, hu, Core.chain]
theorem matrix_faults {s : State} {drain : Bool} (h : MatrixIssues s drain) {i : Instr} {f : State →
    Mres} {fc : BitVec 4}
    (e : exec i s = matrixWord drain s f) (hf : f s = .fault fc) : Completes i s (MatrixFaults s fc) := by
  rw [matrixWord_of h, hf] at e
  refine ⟨_, e, ?_⟩
  have hs := State.unholdWord_same s
  have hh : s.unholdWord.here = _ := (congrArg (fun x : State => s.unholdWord.core x.seat.core) hs).trans
    (State.unholdWord_core s s.seat.core)
  rw [if_pos rfl] at hh
  obtain ⟨a, b, c, d⟩ := matrixStop_faults s.unholdWord (fc.setWidth 64) fc (by rw [hh]; rfl)
  rw [hh] at a b c
  exact ⟨a, b, c, fun x => by rw [d x, hs]⟩
/-- A matrix word that waits is issued and counted, and stays at the sequencer. -/
theorem matrix_waits {s : State} {drain : Bool} (h : MatrixIssues s drain) {i : Instr} {f : State → Mres}
    (e : exec i s = matrixWord drain s f) (hf : f s = .wait) : Completes i s (MatrixWaits drain s) := by
  rw [matrixWord_of h, hf] at e
  refine ⟨_, e, ?_⟩
  unfold State.holdWord MatrixWaits
  dsimp only
  split
  · rfl
  · simp [Core.chain]
theorem reads_map (m : Memory) (n a : Nat) : m.reads a n = (List.range n).map (fun i => m.read (a + i)) := by
  induction n generalizing a with
  | zero => rfl
  | succ n ih =>
    rw [Memory.reads, ih, List.range_succ_eq_map, List.map_cons, List.map_map]
    simp [Function.comp_def, Nat.add_assoc, Nat.add_comm 1]
theorem writes_get (m : Memory) (a : Nat) (l : List Byte) (i : Nat) (h : i < l.length) : (m.writes a
    l).read (a + i) = l[i] := by
  induction l generalizing m a i with
  | nil => simp at h
  | cons b r ih =>
    cases i with
    | zero => simp only [Memory.writes, Nat.add_zero, List.getElem_cons_zero]; rw [Memory.read_writes_of_lt _ _ _ (.inl (Nat.lt_succ_self a)), Memory.read_write, if_pos rfl]
    | succ i =>
      simp only [List.length_cons] at h
      have := ih (m.write a b) (a + 1) i (by omega)
      simp only [Memory.writes, List.getElem_cons_succ]
      rw [← this]; congr 1; omega
theorem writes_index (m : Memory) (B off : Nat) (l : List Byte) : (indexBytes off l).foldl (fun m x
    => Memory.write m (B + x.1) x.2) m = m.writes (B + off) l := by
  induction l generalizing m off with
  | nil => rfl
  | cons b r ih => simp only [indexBytes, List.foldl_cons, Memory.writes]; rw [ih]; congr 1
theorem flatMap_get {α β : Type} (f : α → List β) (n : Nat) (l : List α) (hf : ∀ x ∈ l, (f x).length
    = n) (q r : Nat) (hq : q < l.length) (hr : r < n) :
    (l.flatMap f)[n * q + r]? = (f l[q])[r]? := by
  induction l generalizing q with
  | nil => simp at hq
  | cons a t ih =>
    have ha := hf a (by simp)
    rw [List.flatMap_cons]
    cases q with
    | zero => rw [List.getElem?_append_left (by omega)]; simp
    | succ q =>
      rw [List.getElem?_append_right (by rw [ha, Nat.mul_succ]; omega), ha]
      simp only [List.length_cons] at hq
      rw [show n * (q + 1) + r - n = n * q + r by rw [Nat.mul_succ]; omega, ih (fun x hx => hf x (by simp [hx])) q (by omega)]
      rfl
theorem flatMap_len {α β : Type} (f : α → List β) (n : Nat) (l : List α) (hf : ∀ x ∈ l, (f x).length
    = n) : (l.flatMap f).length = n * l.length := by
  induction l with
  | nil => rfl
  | cons a t ih => rw [List.flatMap_cons, List.length_append, ih (fun x hx => hf x (by simp [hx])), hf a (by simp), List.length_cons, Nat.mul_succ]; omega
theorem chunks_get {α : Type} (n f : Nat) (hn : 0 < n) (l : List α) (k : Nat) (h : n * k < l.length)
    (hk : k < f) : (chunks n f l)[k]? = some ((l.drop (n * k)).take n) := by
  induction f generalizing l k with
  | zero => omega
  | succ f ih =>
    have hl : l ≠ [] := by rintro rfl; simp at h
    unfold chunks
    rw [if_neg (by simp [hl])]
    cases k with
    | zero => simp
    | succ k =>
      rw [List.getElem?_cons_succ, ih (l.drop n) k (by rw [List.length_drop]; rw [Nat.mul_succ] at h; omega) (by omega), List.drop_drop]
      congr 3; rw [Nat.mul_succ]; omega
theorem f32Lines_get (n : Nat) (l : List Nat) (k : Nat) (hk : k < n) : ∃ b, (f32Lines n l)[k]? =
    some b ∧ b.length = 128 ∧ ∀ i < 128, b[i]? = some (byteOf (l[32 * k + i / 4]?.getD 0) (i % 4))
    := by
  unfold f32Lines
  have hL : (l.flatMap (fun v => leBytes v 4)).length = 4 * l.length := flatMap_len _ 4 l (fun x _ => length_leBytes x 4)
  generalize hx : l.flatMap (fun v => leBytes v 4) ++ List.replicate (128 * n) 0 = x
  have hxl : x.length = 4 * l.length + 128 * n := by rw [← hx, List.length_append, hL, List.length_replicate]
  refine ⟨(x.drop (128 * k)).take 128, ?_, ?_, fun i hi => ?_⟩
  · rw [List.getElem?_take_of_lt hk, chunks_get 128 n (by omega) x k (by omega) hk]
  · rw [List.length_take, List.length_drop, hxl]; omega
  · rw [List.getElem?_take_of_lt hi, List.getElem?_drop, ← hx]
    by_cases h : 128 * k + i < 4 * l.length
    · rw [List.getElem?_append_left (by omega), show 128 * k + i = 4 * (32 * k + i / 4) + i % 4 by omega, flatMap_get _ 4 l (fun x _ => length_leBytes x 4) _ _ (by omega) (by omega), getElem?_leBytes _ _ _ (by omega)]
      rw [List.getElem?_eq_getElem (by omega)]; rfl
    · rw [List.getElem?_append_right (by omega), hL, List.getElem?_replicate, if_pos (by omega), List.getElem?_eq_none (by omega)]
      unfold byteOf; simp
theorem f32Lines_len (n : Nat) (l : List Nat) : (f32Lines n l).length = n := by
  refine Nat.le_antisymm (by unfold f32Lines; rw [List.length_take]; omega) ?_
  cases n with
  | zero => omega
  | succ n =>
    obtain ⟨b, hb, _⟩ := f32Lines_get (n + 1) l n (by omega)
    exact (List.getElem?_eq_some_iff.1 hb).1
theorem f32Lines_all (n : Nat) (l : List Nat) : ∀ b ∈ f32Lines n l, b.length = 128 := by
  intro b hb
  obtain ⟨k, hk, rfl⟩ := List.mem_iff_getElem.1 hb
  obtain ⟨b, hb, h, _⟩ := f32Lines_get n l k (by rw [f32Lines_len] at hk; exact hk)
  rw [List.getElem?_eq_getElem hk] at hb
  cases hb; exact h
/-- Of the cores only instance slots differ. -/
def SlotsOnly (s t : State) : Prop := t.seat = s.seat ∧ t.fresh = s.fresh ∧ t.opSeq = s.opSeq ∧ ∀ c,
    t.core c = { s.core c with slots := (t.core c).slots }
theorem SlotsOnly.refl (s : State) : SlotsOnly s s := ⟨rfl, rfl, rfl, fun _ => rfl⟩
theorem SlotsOnly.trans {s t u : State} (h : SlotsOnly s t) (k : SlotsOnly t u) : SlotsOnly s u := by
  refine ⟨k.1.trans h.1, k.2.1.trans h.2.1, k.2.2.1.trans h.2.2.1, fun c => ?_⟩
  rw [k.2.2.2 c, h.2.2.2 c]
theorem setFull_slots (s : State) (l : Nat) : SlotsOnly s (s.setFull l) := by
  refine ⟨rfl, rfl, rfl, fun c => ?_⟩
  rw [State.core_setFull]
theorem lineStep (s : State) (line : Nat) (b : List Byte) (bad publish : Bool) (hb : b.length = 128) :
    let t := (s.lineStore s.seat.core line (indexBytes 0 b) bad publish).setFull (lineKey s.seat.core line)
    SlotsOnly s t ∧ t.mem = s.mem.writes (spKey s.seat.core (line * 128)) b ∧ (∀ l, t.isEmpty l = if l = lineKey s.seat.core line then false else s.isEmpty l)
      ∧ (∀ l, t.isBad l = if l = lineKey s.seat.core line then bad else s.isBad l) := by
  dsimp only
  refine ⟨?_, ?_, fun l => ?_, fun l => ?_⟩
  · exact SlotsOnly.trans ⟨rfl, rfl, rfl, fun _ => rfl⟩ (setFull_slots _ _)
  · have : ((s.lineStore s.seat.core line (indexBytes 0 b) bad publish).setFull (lineKey s.seat.core line)).mem = (indexBytes 0 b).foldl (fun m x => Memory.write m (spKey s.seat.core (line * 128 + x.1)) x.2) s.mem := rfl
    rw [this]
    have := writes_index s.mem (spKey s.seat.core (line * 128)) 0 b
    rw [Nat.add_zero] at this
    rw [← this]
    congr 1
    funext m x
    rw [show spKey s.seat.core (line * 128 + x.1) = spKey s.seat.core (line * 128) + x.1 by unfold spKey; omega]
  · unfold State.setFull State.isEmpty State.lineStore
    dsimp only
    rw [Tbl.get_set]
  · unfold State.setFull State.isBad State.lineStore
    dsimp only
    rw [Tbl.get_set]
    have hl : (indexBytes 0 b).length = 128 := by rw [← hb, ← List.length_map (f := (·.1)), indexBytes_keys, List.length_range']
    rw [hl]; simp
theorem lineWrites_written (publish : Bool) (body : List (List Byte × Bool)) (s : State) (line :
    Nat) (hb : ∀ x ∈ body, x.1.length = 128) :
    SlotsOnly s (s.lineWrites publish line body)
      ∧ LinesWritten line body.length (fun k i => ((body[k]?.map Prod.fst).getD [])[i]?.getD 0) (fun k => (body[k]?.map Prod.snd).getD false) s (s.lineWrites publish line body) := by
  induction body generalizing s line with
  | nil =>
    refine ⟨SlotsOnly.refl s, fun k hk => absurd hk (by simp), fun a _ => rfl, fun l _ => ⟨rfl, rfl⟩⟩
  | cons x r ih =>
    obtain ⟨b, bad⟩ := x
    have hl : b.length = 128 := hb (b, bad) (by simp)
    obtain ⟨s1, s2, s3, s4⟩ := lineStep s line b bad publish hl
    unfold State.lineWrites
    dsimp only
    generalize (s.lineStore s.seat.core line (indexBytes 0 b) bad publish).setFull (lineKey s.seat.core line) = u at *
    obtain ⟨i1, i2, i3, i4⟩ := ih u (line + 1) (fun x hx => hb x (by simp [hx]))
    have hs : u.seat.core = s.seat.core := by rw [s1.1]
    refine ⟨s1.trans i1, fun k hk => ?_, fun a ha => ?_, fun l hl2 => ?_⟩
    · cases k with
      | zero =>
        have h4 := i4 (lineKey s.seat.core line) (.inl (by rw [hs]; unfold lineKey; omega))
        refine ⟨by rw [show line + 0 = line from rfl, h4.1, s3, if_pos rfl], by rw [show line + 0 = line from rfl, h4.2, s4, if_pos rfl]; rfl, fun i hi => ?_⟩
        rw [i3 _ (.inl (by rw [hs]; unfold spKey; omega)), s2, Nat.add_zero, show spKey s.seat.core (line * 128 + i) = spKey s.seat.core (line * 128) + i by unfold spKey; omega, writes_get _ _ _ _ (by omega)]
        simp [List.getElem?_eq_getElem (show i < b.length by omega)]
      | succ k =>
        obtain ⟨j1, j2, j3⟩ := i2 k (by simpa using hk)
        rw [hs, show line + 1 + k = line + (k + 1) by omega] at j1 j2 j3
        exact ⟨j1, by rw [j2]; simp, fun i hi => by rw [j3 i hi]; simp⟩
    · rw [i3 a (by rw [hs]; simp only [List.length_cons] at ha; unfold spKey at *; omega), s2, Memory.read_writes_of_lt]
      simp only [List.length_cons] at ha; unfold spKey at *; omega
    · obtain ⟨k1, k2⟩ := i4 l (by rw [hs]; simp only [List.length_cons] at hl2; unfold lineKey at *; omega)
      have : l ≠ lineKey s.seat.core line := by rintro rfl; simp only [List.length_cons] at hl2; unfold lineKey at *; omega
      exact ⟨by rw [k1, s3, if_neg this], by rw [k2, s4, if_neg this]⟩
theorem matrix_wrote {s : State} (h : MatrixIssues s true) {i : Instr} {f : State → Mres} {m : Mx}
    {fl : Flags} {line n : Nat} {byte : Nat → Nat → Byte} {bad : Nat → Bool} {v : State}
    (e : exec i s = matrixWord true s f) (hf : f s = .ok v wDrain fl) (h1 : v.seat = s.seat) (h2 : v.fresh = s.fresh) (h3 : v.opSeq = s.opSeq) (h4 : v.here = { s.here with slots := v.here.slots, mx := m })
    (h5 : ∀ c ≠ s.seat.core, v.core c = { s.core c with slots := (v.core c).slots }) (hp : m.pc = s.here.mx.pc) (hw : m.words = s.here.mx.words)
    (hh : m.held = s.here.mx.held) (hc : m.chain = s.here.mx.chain) (hl : LinesWritten line n byte bad s v) :
    Completes i s (fun t => LinesWritten line n byte bad s t ∧ MatrixWrote s fl m t) := by
  rw [matrixWord_of h, hf] at e
  have kc := issueWord_core (s := s) wDrain fl h1 h2 h3 h4 hp hw hh hc
  have ks : (issueWord s v wDrain fl).seat = s.seat ∧ (issueWord s v wDrain fl).mem = v.mem
      ∧ (issueWord s v wDrain fl).empty = v.empty ∧ (issueWord s v wDrain fl).badLine = v.badLine := by
    have hs := State.unholdWord_same v
    unfold issueWord
    generalize v.unholdWord = u at hs
    rw [hs]
    exact ⟨h1, rfl, rfl, rfl⟩
  refine ⟨_, e, ?_, ?_, fun c hn => ?_⟩
  · unfold LinesWritten State.isEmpty State.isBad at *
    rw [ks.2.1, ks.2.2.1, ks.2.2.2]; exact hl
  · rw [State.here, ks.1, kc, if_pos rfl]; rfl
  · rw [kc, if_neg hn]; exact h5 c hn
theorem LinesWritten.congr {s t u : State} {line n : Nat} {byte byte2 : Nat → Nat → Byte} {bad bad2
    : Nat → Bool} (h : LinesWritten line n byte bad s t) (hm : u.mem = t.mem) (he : u.empty =
    t.empty) (hb : u.badLine = t.badLine)
    (hb1 : ∀ k < n, ∀ i < 128, byte k i = byte2 k i) (hb2 : ∀ k < n, bad k = bad2 k) : LinesWritten line n byte2 bad2 s u := by
  obtain ⟨a, b, c⟩ := h
  unfold LinesWritten State.isEmpty State.isBad at *
  rw [hm, he, hb]
  exact ⟨fun k hk => ⟨(a k hk).1, ((a k hk).2.1).trans (hb2 k hk), fun i hi => ((a k hk).2.2 i hi).trans (hb1 k hk i hi)⟩, b, c⟩
/-- A word that writes lines and leaves the unit. -/
theorem matrix_lines {s : State} (h : MatrixIssues s true) {i : Instr} {f : State → Mres} {fl :
    Flags} {line n : Nat} {byte : Nat → Nat → Byte} {bad : Nat → Bool} {publish : Bool} {body : List
    (List Byte × Bool)}
    (e : exec i s = matrixWord true s f) (hf : f s = .ok (s.lineWrites publish line body) wDrain fl) (hn : body.length = n) (h1 : ∀ x ∈ body, x.1.length = 128) 
    (hb1 : ∀ k < n, ∀ i < 128, ((body[k]?.map Prod.fst).getD [])[i]?.getD 0 = byte k i) (hb2 : ∀ k < n, (body[k]?.map Prod.snd).getD false = bad k) :
    Completes i s (fun t => LinesWritten line n byte bad s t ∧ MatrixWrote s fl s.here.mx t) := by
  obtain ⟨⟨a1, a2, a3, a4⟩, b⟩ := lineWrites_written publish body s line h1
  refine matrix_wrote h e hf a1 a2 a3 ?_ (fun c _ => a4 c) rfl rfl rfl rfl ((hn ▸ b).congr rfl rfl rfl hb1 hb2)
  rw [State.here, a1, a4]; rfl
theorem find_filter_range {α : Type} (N : Nat) (g : Nat → α) (p : α → Bool) (x : Nat) : Tbl.find
    (((List.range N).map (fun y => (y, g y))).filter (fun z => p z.2)) x = if x < N ∧ p (g x) = true
    then some (g x) else none := by
  induction N with
  | zero => simp [Tbl.find]
  | succ N ih =>
    rw [List.range_succ, List.map_append, List.filter_append]
    have app : ∀ (a b : Tbl α), Tbl.find (a ++ b) x = (Tbl.find a x).or (Tbl.find b x) := by
      intro a b
      induction a with
      | nil => simp
      | cons y r ih => rw [List.cons_append, Tbl.find_cons, Tbl.find_cons, ih]; split <;> simp
    rw [app, ih]
    by_cases hx : x < N
    · by_cases hp : p (g x) = true
      · simp [hx, hp, show x < N + 1 by omega]
      · have hf : p (g x) = false := by simpa using hp
        have : Tbl.find (List.filter (fun z => p z.2) [(N, g N)]) x = none := by
          simp only [List.filter_cons, List.filter_nil]
          split
          · rw [Tbl.find_cons, if_neg (by simp; omega)]; rfl
          · rfl
        simp [hf, this]
    · by_cases hN : x = N
      · subst hN
        by_cases hp : p (g x) = true
        · simp [hp, Tbl.find]
        · have hf : p (g x) = false := by simpa using hp
          simp [hf, Tbl.find]
      · have : Tbl.find (List.filter (fun z => p z.2) [(N, g N)]) x = none := by
          simp only [List.filter_cons, List.filter_nil]
          split
          · rw [Tbl.find_cons, if_neg (by simp; omega)]; rfl
          · rfl
        simp [hx, this, show ¬ x < N + 1 by omega]
theorem cells_getN {α : Type} [DecidableEq α] (d : α) (v : Nat → Nat → α) (N k : Nat) (hk : k < N) :
    Tbl.get d (((List.range N).map (fun x => (x, v (x / 64) (x % 64)))).filter (fun x => decide (x.2
    ≠ d))) k = v (k / 64) (k % 64) := by
  rw [Tbl.get_eq_find, find_filter_range N (fun x => v (x / 64) (x % 64)) (fun x => decide (x ≠ d)) k]
  by_cases h : v (k / 64) (k % 64) = d <;> simp [h, hk]
theorem cells_get {α : Type} [DecidableEq α] (d : α) (v : Nat → Nat → α) (i j : Nat) (hi : i < 64)
    (hj : j < 64) : Tbl.get d (cells d v) (64 * i + j) = v i j := by
  have e1 : (64 * i + j) / 64 = i := by omega
  have e2 : (64 * i + j) % 64 = j := by omega
  have key := cells_getN d v 4096 (64 * i + j) (by omega)
  rw [e1, e2] at key
  unfold cells
  exact key
theorem rowTable_get (v : Nat → Bool) (i : Nat) (hi : i < 64) : Tbl.get false (rowTable v) i = v i := by
  unfold rowTable
  rw [Tbl.get_eq_find]
  have := find_filter_range 64 v (fun x => x) i
  rw [this]
  cases h : v i <;> simp [hi]
/-- Of the cores only lanes differ, and those in whether they have stopped. -/
def LanesOnly (s t : State) : Prop := t.seat = s.seat ∧ t.mem = s.mem ∧ t.empty = s.empty ∧
    t.badLine = s.badLine ∧ (∀ c, t.core c = { s.core c with lanes := (t.core c).lanes })
  ∧ ∀ c n, (t.core c).lane n = { (s.core c).lane n with stopped := ((t.core c).lane n).stopped }
theorem LanesOnly.refl (s : State) : LanesOnly s s := ⟨rfl, rfl, rfl, rfl, fun _ => rfl, fun _ _ => rfl⟩
theorem LanesOnly.trans {s t u : State} (h : LanesOnly s t) (k : LanesOnly t u) : LanesOnly s u := by
  refine ⟨k.1.trans h.1, k.2.1.trans h.2.1, k.2.2.1.trans h.2.2.1, k.2.2.2.1.trans h.2.2.2.1, fun c => ?_, fun c n => ?_⟩
  · rw [k.2.2.2.2.1 c, h.2.2.2.2.1 c]
  · rw [k.2.2.2.2.2 c n, h.2.2.2.2.2 c n]
theorem foldl_lanesOnly {β : Type} (f : State → β → State) (h : ∀ s x, LanesOnly s (f s x)) (l :
    List β) (s : State) : LanesOnly s (l.foldl f s) := by
  induction l generalizing s with
  | nil => exact LanesOnly.refl s
  | cons x r ih => exact (h s x).trans (ih _)
/-- Nothing of the cores, of memory and of the lines differs. -/
theorem lanesOnly_of {s t : State} (h1 : t.seat = s.seat) (h2 : t.mem = s.mem) (h3 : t.empty =
    s.empty) (h4 : t.badLine = s.badLine) (h5 : t.cores = s.cores) : LanesOnly s t := by
  have : ∀ c, t.core c = s.core c := fun c => by unfold State.core; rw [h5]
  exact ⟨h1, h2, h3, h4, fun c => by rw [this], fun c n => by rw [this]⟩
theorem trigger_lanes (s : State) (cause : Nat) : LanesOnly s (s.trigger cause) := by
  unfold State.trigger; split
  · exact lanesOnly_of rfl rfl rfl rfl rfl
  · exact LanesOnly.refl s
theorem reportCore_lanes (s : State) (c o cause : Nat) (stall : Bool) (a : Nat) (ev : Word) :
    LanesOnly s (s.reportCore c o cause stall a ev) := by
  unfold State.reportCore
  dsimp only
  split
  · unfold State.reportFw
    dsimp only
    split
    · exact LanesOnly.trans (lanesOnly_of rfl rfl rfl rfl rfl) (trigger_lanes _ _)
    · exact LanesOnly.trans (lanesOnly_of rfl rfl rfl rfl rfl) (trigger_lanes _ _)
  · unfold State.report
    dsimp only
    split
    · exact LanesOnly.trans (lanesOnly_of rfl rfl rfl rfl rfl) (trigger_lanes _ _)
    · exact LanesOnly.trans (lanesOnly_of rfl rfl rfl rfl rfl) (trigger_lanes _ _)
theorem modStopped_lanes (s : State) (c n : Nat) : LanesOnly s (s.modLane c n (fun l => { l with
    stopped := true })) := by
  refine ⟨rfl, rfl, rfl, rfl, fun d => ?_, fun d m => ?_⟩
  · rw [State.modLane_eq, State.core_setCore]
    split
    · rename_i h; rw [h]
    · rfl
  · rw [State.modLane_eq, State.core_setCore]
    split
    · rename_i h; subst h
      unfold Core.lane
      dsimp only
      rw [Tbl.get_put]
      split
      · rename_i h; subst h; rfl
      · rfl
    · rfl
theorem laneStop_lanes (s : State) (c n : Nat) : LanesOnly s (s.laneStop c n) := by
  unfold State.laneStop
  exact (reportCore_lanes s c 3 15 false n (BitVec.ofNat 64 n)).trans (modStopped_lanes _ _ _)
theorem modLaunch_lanes (s : State) (n : Nat) (f : Launch → Launch) : LanesOnly s (s.modLaunch n f) := by
  unfold State.modLaunch
  split
  · exact lanesOnly_of rfl rfl rfl rfl rfl
  · exact LanesOnly.refl s
theorem checkControl_lanes (s : State) (l : Launch) (g : GGraph) (n p : Nat) : LanesOnly s
    (s.checkControl l g n p) := by
  unfold State.checkControl
  refine foldl_lanesOnly _ (fun s x => ?_) _ _
  split
  · split
    · split
      · split
        · exact LanesOnly.refl _
        · exact laneStop_lanes _ _ _
      · exact LanesOnly.refl _
    · exact LanesOnly.refl _
  · exact LanesOnly.refl _
theorem observe_lanes (s : State) (c n : Nat) (t : Token) : LanesOnly s (s.observe c n t) := by
  unfold State.observe
  split
  · exact (modLaunch_lanes _ _ _).trans (checkControl_lanes _ _ _ _ _)
  · exact LanesOnly.refl s
theorem emit_lanes (s : State) (c out : Nat) (t : Token) : ∃ u, u = s.modCore c (fun k => (k.routes
    out).foldl (fun k w => k.put t w) k) ∧ LanesOnly u (s.emit c out t) := ⟨_, rfl, observe_lanes _
    _ _ _⟩
theorem put_fold (t : Token) (l : List (BitVec 16)) (k : Core) (la : Tbl Lane) : (l.foldl (fun k w
    => k.put t w) { k with lanes := la }) = { l.foldl (fun k w => k.put t w) k with lanes := la } ∧
    (l.foldl (fun k w => k.put t w) k).region = k.region ∧ (l.foldl (fun k w => k.put t w) k).lanes
    = k.lanes := by
  have one : ∀ (k : Core) (la : Tbl Lane) w, ({ k with lanes := la } : Core).put t w = { k.put t w with lanes := la } ∧ (k.put t w).region = k.region ∧ (k.put t w).lanes = k.lanes := by
    intro k la w
    unfold Core.put
    split
    · exact ⟨rfl, rfl, rfl⟩
    · dsimp only
      split
      · exact ⟨rfl, rfl, rfl⟩
      · exact ⟨rfl, rfl, rfl⟩
  induction l generalizing k with
  | nil => exact ⟨rfl, rfl, rfl⟩
  | cons x r ih =>
    obtain ⟨i1, i2, i3⟩ := ih (k.put t x)
    obtain ⟨o1, o2, o3⟩ := one k la x
    refine ⟨by rw [List.foldl_cons, o1, i1, List.foldl_cons], i2.trans o2, i3.trans o3⟩
/-- What an emission of a lane does. -/
theorem emitLane_facts (s : State) (n : Nat) (e : Emit) (c : Nat) : 
    (s.emitLane c n e).seat = s.seat ∧ (s.emitLane c n e).mem = s.mem ∧ (s.emitLane c n e).core c = { sent s.cycle n e (s.core c) with lanes := ((s.emitLane c n e).core c).lanes }
    ∧ (∀ m, ((s.emitLane c n e).core c).lane m = { (s.core c).lane m with stopped := (((s.emitLane c n e).core c).lane m).stopped })
    ∧ ∀ d ≠ c, (s.emitLane c n e).core d = { s.core d with lanes := ((s.emitLane c n e).core d).lanes } := by
  have step : ∀ (b : Bool) (out : Nat) (u : State), let v := if b then u.emit c out e.tok else u
      v.seat = u.seat ∧ v.mem = u.mem ∧ (∃ la, v.core c = { (if b then (((u.core c).routes out).foldl (fun k w => k.put e.tok w) (u.core c)) else u.core c) with lanes := la })
      ∧ (∀ m, (v.core c).lane m = { (u.core c).lane m with stopped := ((v.core c).lane m).stopped })
      ∧ ∀ d ≠ c, v.core d = { u.core d with lanes := (v.core d).lanes } := by
    intro b out u
    cases b
    · exact ⟨rfl, rfl, ⟨_, rfl⟩, fun m => rfl, fun d _ => rfl⟩
    · obtain ⟨x, hx, h1, h2, h3, h4, h5, h6⟩ := emit_lanes u c out e.tok
      dsimp only
      rw [if_pos rfl, if_pos rfl]
      subst hx
      refine ⟨h1, h2, ⟨((u.emit c out e.tok).core c).lanes, ?_⟩, fun m => ?_, fun d hd => ?_⟩
      · have := h5 c
        rw [State.modCore_eq, State.core_setCore, if_pos rfl] at this
        exact this
      · have := h6 c m
        rw [State.modCore_eq, State.core_setCore, if_pos rfl] at this
        rw [this]
        unfold Core.lane
        rw [(put_fold e.tok ((u.core c).routes out) (u.core c) []).2.2]
      · have := h5 d
        rw [State.modCore_eq, State.core_setCore, if_neg hd] at this
        exact this
  unfold State.emitLane
  dsimp only
  generalize hu : s.modCore c (fun k => k.raise s.cycle e.flags) = u
  have u1 : u.seat = s.seat ∧ u.mem = s.mem ∧ u.core c = (s.core c).raise s.cycle e.flags ∧ ∀ d ≠ c, u.core d = s.core d := by
    subst hu
    refine ⟨rfl, rfl, by simp, fun d hd => by simp [hd]⟩
  obtain ⟨a1, a2, ⟨la, a3⟩, a4, a5⟩ := step e.arm0 n u
  generalize hv : (if e.arm0 then u.emit c n e.tok else u) = v at *
  obtain ⟨b1, b2, ⟨lb, b3⟩, b4, b5⟩ := step e.arm1 (n + 1) v
  generalize hw : (if e.arm1 then v.emit c (n + 1) e.tok else v) = w at *
  refine ⟨b1.trans (a1.trans u1.1), b2.trans (a2.trans u1.2.1), ?_, fun m => ?_, fun d hd => ?_⟩
  · have hl : (w.core c).lanes = lb := by rw [b3]
    rw [hl, b3, a3, u1.2.2.1]
    unfold sent
    dsimp only
    generalize (s.core c).raise s.cycle e.flags = K
    generalize hK : (if e.arm0 = true then List.foldl (fun k w => k.put e.tok w) K (K.routes n) else K) = K2
    cases e.arm1
    · rfl
    · rw [if_pos rfl, if_pos rfl]
      rw [show ({ K2 with lanes := la } : Core).routes (n + 1) = K2.routes (n + 1) from rfl, (put_fold e.tok _ K2 la).1]
  · rw [b4 m, a4 m, u1.2.2.1]; rfl
  · rw [b5 d hd, a5 d hd, u1.2.2.2 d hd]
theorem takeHeads_keeps (k : Core) (n : Nat) (qs : List Nat) : k.takeHeads n qs = { k with queues :=
    (k.takeHeads n qs).queues } := by
  unfold Core.takeHeads
  induction qs generalizing k with
  | nil => rfl
  | cons q r ih => rw [List.foldl_cons, ih]
theorem sent_lanes (cyc n : Nat) (e : Emit) (k : Core) (la : Tbl Lane) : sent cyc n e { k with lanes := la }
    = { sent cyc n e k with lanes := la } := by
  unfold sent
  dsimp only
  rw [show ({ k with lanes := la } : Core).raise cyc e.flags = { k.raise cyc e.flags with lanes := la } from rfl]
  generalize k.raise cyc e.flags = k
  have h0 : ∀ (l : List (BitVec 16)) (k : Core), l.foldl (fun k w => k.put e.tok w) { k with lanes := la }
      = { l.foldl (fun k w => k.put e.tok w) k with lanes := la } := fun l k => (put_fold e.tok l k la).1
  have r : ∀ (k : Core) m, ({ k with lanes := la } : Core).routes m = k.routes m := fun _ _ => rfl
  cases e.arm0 <;> cases e.arm1
  · rfl
  · simp only [Bool.false_eq_true, if_false, if_true]; rw [r]; exact h0 _ _
  · simp only [Bool.false_eq_true, if_false, if_true]; rw [r]; exact h0 _ _
  · simp only [if_true]
    rw [r, h0, r]
    exact h0 _ _
theorem room_kind (k : Core) (a b : Token) (h : a.kind = b.kind) (w : BitVec 16) : k.room a w =
    k.room b w := by
  unfold Core.room merges
  rw [h]
theorem ready_kind (k : Core) (n : Nat) (e f : Emit) (h0 : e.arm0 = f.arm0) (h1 : e.arm1 = f.arm1)
    (h : e.tok.kind = f.tok.kind) : k.ready n e = k.ready n f := by
  have : k.room e.tok = k.room f.tok := funext (room_kind k _ _ h)
  unfold Core.ready Core.roomAll
  rw [h0, h1, this]
theorem LaneReady.ready {s : State} {a0 a1 : Bool} {k : BitVec 3} (h : LaneReady s a0 a1 k) (e :
    Emit) (h0 : e.arm0 = a0) (h1 : e.arm1 = a1) (hk : e.tok.kind = k) : s.here.ready s.seat.lane e =
    true := by
  rw [← h.2]; exact ready_kind _ _ _ _ h0 h1 hk
theorem shoot_go {s : State} {i : Instr} {w : LaneArgs} {f : Core → Nat → Lane → Shot} {takes : List
    Nat} {outs : List Emit} {l : Lane} (e : exec i s = shoot w f s)
    (h : f s.here s.seat.lane (s.here.lane s.seat.lane) = .go takes outs l) (hd : takes.isEmpty = false → (s.here.lane s.seat.lane).due ≤ s.cycle) (hr : ∀ x ∈ outs.head?, s.here.ready s.seat.lane x = true)
    (hs : l.due = (s.here.lane s.seat.lane).due) (ho : outs = [] → l.out = []) : Completes i s (LaneFired w takes outs l s) := by
  unfold shoot at e
  dsimp only at e
  rw [h] at e
  dsimp only at e
  rw [if_neg (by
    simp only [Bool.and_eq_true, Bool.not_eq_true', decide_eq_true_eq, not_and]
    intro h; have := hd h; omega)] at e
  have tk : ∀ l' : Lane, (s.takeShot s.seat.core s.seat.lane w takes l').core s.seat.core = { s.here.takeHeads s.seat.lane takes with lanes := s.here.lanes.put s.seat.lane { l' with due := if takes.isEmpty then l'.due else s.cycle + w.rate.toNat + 1 } } := by
    intro l'
    unfold State.takeShot
    rw [State.modCore_eq, State.core_setCore, if_pos rfl]
    rw [State.core_seat]
    rw [takeHeads_keeps]
  have tc : ∀ l' : Lane, ∀ c ≠ s.seat.core, (s.takeShot s.seat.core s.seat.lane w takes l').core c = s.core c := by
    intro l' c hc
    unfold State.takeShot
    rw [State.modCore_eq, State.core_setCore, if_neg hc]
  have ll : ∀ l' : Lane, (Core.lane { s.here.takeHeads s.seat.lane takes with lanes := s.here.lanes.put s.seat.lane l' } s.seat.lane) = l' := fun l' => by
    unfold Core.lane; dsimp only; rw [Tbl.get_put_self]
  cases outs with
  | nil =>
    refine ⟨_, e, ?_⟩
    have hh : (s.takeShot s.seat.core s.seat.lane w takes l).here = _ := tk l
    refine ⟨?_, ?_, fun c hc => by rw [tc l c hc], rfl, fun a => rfl⟩
    · rw [hh]
    · rw [hh, ll]
      have := ho rfl
      cases l; simp only at this hs ⊢
      rw [this]; rfl
  | cons x r =>
    dsimp only at e
    rw [if_pos (hr x rfl)] at e
    refine ⟨_, e, ?_⟩
    have hl := tk { l with out := r }
    have hc := tc { l with out := r }
    have hcyc : (s.takeShot s.seat.core s.seat.lane w takes { l with out := r }).cycle = s.cycle := rfl
    have hseat : (s.takeShot s.seat.core s.seat.lane w takes { l with out := r }).seat = s.seat := rfl
    have hmem : (s.takeShot s.seat.core s.seat.lane w takes { l with out := r }).mem = s.mem := rfl
    generalize s.takeShot s.seat.core s.seat.lane w takes { l with out := r } = u at hl hc hcyc hseat hmem
    obtain ⟨e1, e2, e3, e4, e5⟩ := emitLane_facts u s.seat.lane x s.seat.core
    have hh : (u.emitLane s.seat.core s.seat.lane x).here = (u.emitLane s.seat.core s.seat.lane x).core s.seat.core := by rw [State.here, e1, hseat]
    refine ⟨?_, ?_, fun c h => by rw [e5 c h, hc c h], e1.trans hseat, fun a => by rw [e2, hmem]⟩
    · rw [hh, e3, hl, hcyc, sent_lanes]
    · rw [hh, e4, hl, ll]; rfl
theorem laneStop_facts (s : State) (c n : Nat) (hc : c = s.seat.core) : ((s.laneStop c n).here.lane
    n).stopped = true ∧ (s.laneStop c n).here.queues = s.here.queues ∧ (s.laneStop c n).here.ctl =
    s.here.ctl ∧ MemoryKept s (s.laneStop c n) := by
  obtain ⟨h1, h2, h3, h4, h5, h6⟩ := laneStop_lanes s c n
  have hh : (s.laneStop c n).here = (s.laneStop c n).core c := by rw [State.here, h1, hc]
  have hh2 : s.here = s.core c := by rw [State.here, hc]
  refine ⟨?_, ?_, ?_, fun a => by rw [h2]⟩
  · rw [hh]
    unfold State.laneStop
    rw [State.modLane_eq, State.core_setCore, if_pos rfl]
    unfold Core.lane
    dsimp only
    rw [Tbl.get_put_self]
  · rw [hh, h5, hh2]
  · rw [hh, h5, hh2]
theorem foldl_congr' {α β : Type} (f g : β → α → β) (l : List α) (h : ∀ b, ∀ x ∈ l, f b x = g b x)
    (b : β) : l.foldl f b = l.foldl g b := by
  induction l generalizing b with
  | nil => rfl
  | cons y r ih => rw [List.foldl_cons, List.foldl_cons, h b y (by simp), ih (fun b x hx => h b x (by simp [hx]))]
theorem find_mem {α : Type} {t : Tbl α} (hn : (t.map (·.1)).Nodup) {x : Nat × α} (h : x ∈ t) :
    Tbl.find t x.1 = some x.2 := by
  induction t with
  | nil => cases h
  | cons y r ih =>
    rw [Tbl.find_cons]
    rw [List.map_cons, List.nodup_cons] at hn
    rcases List.mem_cons.1 h with rfl | h
    · rw [if_pos rfl]
    · have : x.1 ≠ y.1 := fun e => hn.1 (e ▸ List.mem_map_of_mem h)
      rw [if_neg (fun e => this e.symm)]
      exact ih hn.2 h
theorem find_none {α : Type} {t : Tbl α} {k : Nat} (h : ∀ x ∈ t, x.1 ≠ k) : Tbl.find t k = none := by
  induction t with
  | nil => rfl
  | cons y r ih =>
    rw [Tbl.find_cons, if_neg (h y (by simp))]
    exact ih (fun x hx => h x (by simp [hx]))
theorem fold_write {W : List (Nat × Byte)} {m : Memory} {a : Nat} {v : Byte} (h : ∀ x ∈ W, x.1 = a → x.2 = v)
    (h2 : m.read a = v ∨ ∃ x ∈ W, x.1 = a) : (W.foldl (fun (m : Memory) x => m.write x.1 x.2) m).read a = v := by
  induction W generalizing m with
  | nil => simpa using h2
  | cons y r ih =>
    refine ih (fun x hx => h x (by simp [hx])) ?_
    rw [Memory.read_write]
    by_cases hy : y.1 = a
    · left; rw [if_pos hy.symm]; exact h y (by simp) hy
    · rw [if_neg (fun e => hy e.symm)]
      rcases h2 with h2 | ⟨x, hx, h2⟩
      · exact .inl h2
      · rcases List.mem_cons.1 hx with rfl | hx
        · exact absurd h2 hy
        · exact .inr ⟨x, hx, h2⟩
theorem store_one (s : State) (c off : Nat) (l : List Byte) (bad pub : Bool) (h0 : l ≠ []) (h : off
    % 128 + l.length ≤ 128) :
    s.spStore c off l bad pub = s.lineStore c (off / 128) (indexBytes (off % 128) l) bad pub := by
  unfold State.spStore
  have h1 : l.take (128 - off % 128) = l := List.take_of_length_le (by omega)
  have h2 : l.drop (128 - off % 128) = [] := List.drop_eq_nil_of_le (by omega)
  rw [h1, h2]
  dsimp only
  rw [if_neg (by simpa using h0)]
  rfl
theorem store_one_mem (s : State) (c off : Nat) (l : List Byte) (bad pub : Bool) (h0 : l ≠ []) (h :
    off % 128 + l.length ≤ 128) :
    (s.spStore c off l bad pub).mem = s.mem.writes (spKey c off) l := by
  rw [store_one s c off l bad pub h0 h]
  have := writes_index s.mem (spKey c (off / 128 * 128)) (off % 128) l
  rw [show spKey c (off / 128 * 128) + off % 128 = spKey c off by unfold spKey; omega] at this
  rw [← this]
  refine foldl_congr' _ _ _ (fun m x _ => ?_) _
  rw [show spKey c (off / 128 * 128 + x.1) = spKey c (off / 128 * 128) + x.1 by unfold spKey; omega]
theorem store_one_cores (s : State) (c off : Nat) (l : List Byte) (bad pub : Bool) (h0 : l ≠ []) (h
    : off % 128 + l.length ≤ 128) :
    (s.spStore c off l bad pub).cores = s.cores := by
  rw [store_one s c off l bad pub h0 h]; rfl
theorem store_one_bad (s : State) (c off : Nat) (l : List Byte) (bad pub : Bool) (h0 : l.length =
    128) (h : off % 128 = 0) :
    (s.spStore c off l bad pub).isBad (lineKey c (off / 128)) = bad := by
  rw [store_one s c off l bad pub (by intro h; rw [h] at h0; cases h0) (by omega)]
  unfold State.isBad State.lineStore
  dsimp only
  rw [Tbl.get_set, if_pos rfl]
  have hl : (indexBytes (off % 128) l).length = 128 := by rw [← h0, ← List.length_map (f := (·.1)), indexBytes_keys, List.length_range']
  rw [hl]; simp

end Sys2Proof.Machine
end

