-- ==== Sys2Proof/Tests/Slice0.lean ====
section
/-!
SUPPORT. Tests: words written out from the specification's encoding tables, words and terms that are refused, results
by hand from the rules, and for each statement a state and operands that meet the hypotheses of each of its clauses.
-/

namespace Sys2Proof

set_option Elab.async false

/-! ## Words -/

/-- Words of major 0x01 (R296): every field has a value of its own. -/
theorem test_words_alu : ∀ x ∈ ([
      (0x06F6C800, .add ⟨5, 1⟩ 27 12 16),
      (0x06F6C801, .sub ⟨5, 1⟩ 27 12 16),
      (0x06F6C802, .mul ⟨5, 1⟩ 27 12 16),
      (0x06F6C803, .mulh ⟨5, 1⟩ 27 12 16),
      (0x06F6C804, .mulhn ⟨5, 1⟩ 27 12 16),
      (0x06F6C805, .div ⟨5, 1⟩ 27 12 16),
      (0x06F6C806, .divn ⟨5, 1⟩ 27 12 16),
      (0x06F6C807, .rem ⟨5, 1⟩ 27 12 16),
      (0x06F6C808, .remn ⟨5, 1⟩ 27 12 16),
      (0x06F6C809, .and ⟨5, 1⟩ 27 12 16),
      (0x06F6C80A, .or ⟨5, 1⟩ 27 12 16),
      (0x06F6C80B, .xor ⟨5, 1⟩ 27 12 16),
      (0x06F6C80C, .shl ⟨5, 1⟩ 27 12 16),
      (0x06F6C80D, .shr ⟨5, 1⟩ 27 12 16),
      (0x06F6C80E, .sra ⟨5, 1⟩ 27 12 16),
      (0x06F6C80F, .rot ⟨5, 1⟩ 27 12 16),
      (0x06F6C810, .min ⟨5, 1⟩ 27 12 16),
      (0x06F6C811, .max ⟨5, 1⟩ 27 12 16),
      (0x06F6C812, .minn ⟨5, 1⟩ 27 12 16),
      (0x06F6C813, .maxn ⟨5, 1⟩ 27 12 16),
      (0x06F6C014, .clz ⟨5, 1⟩ 27 12),
      (0x06F6C015, .ctz ⟨5, 1⟩ 27 12),
      (0x06F6C016, .popc ⟨5, 1⟩ 27 12),
      (0x06F6C817, .bextZReg ⟨5, 1⟩ 27 12 16),
      (0x06F6C818, .binsReg ⟨5, 1⟩ 27 12 16),
      (0x06F6C81A, .bextSReg ⟨5, 1⟩ 27 12 16),
      (0x06F6C822, .sel ⟨5, 1⟩ 2 27 12 16)] : List (W32 × Instr)), decodeControl x.1 = .ok x.2 ∧ encode x.2 = [x.1] := by
  decide +kernel

/-- Words of majors 0x02-0x0E (R294, R295): every field has a value of its own. -/
theorem test_words_immediate : ∀ x ∈ ([
      (0x0AF6C3D0, .addi ⟨5, 1⟩ 27 12 976),
      (0x0EF6C3D0, .andi ⟨5, 1⟩ 27 12 976),
      (0x12F6C3D0, .ori ⟨5, 1⟩ 27 12 976),
      (0x16F6C3D0, .xori ⟨5, 1⟩ 27 12 976),
      (0x1AF6CC0A, .shi ⟨5, 1⟩ .rot 27 12 10),
      (0x1EF6C40A, .bextZ ⟨5, 1⟩ 27 12 16 10),
      (0x22F6C40A, .bextS ⟨5, 1⟩ 27 12 16 10),
      (0x26F6C40A, .bins ⟨5, 1⟩ 27 12 16 10),
      (0x2AF61F2C, .li ⟨5, 1⟩ 27 7980),
      (0x2EF61F2C, .lui ⟨5, 1⟩ 27 7980),
      (0x32C6C803, .cmp ⟨5, 1⟩ .ge 3 12 16),
      (0x36C6C8CA, .cmpi ⟨5, 1⟩ .ltn 3 12 202),
      (0x3AC64080, .pand ⟨5, 1⟩ 3 4 1),
      (0x3AC64081, .por ⟨5, 1⟩ 3 4 1),
      (0x3AC64002, .pnot ⟨5, 1⟩ 3 4)] : List (W32 × Instr)), decodeControl x.1 = .ok x.2 ∧ encode x.2 = [x.1] := by
  decide +kernel

/-- Words of majors 0x10-0x19 (R295): every field has a value of its own. -/
theorem test_words_memory : ∀ x ∈ ([
      (0x42F6C6CA, .ldZ ⟨5, 1⟩ .h 27 12 714),
      (0x46F6C6CA, .ldS ⟨5, 1⟩ .h 27 12 714),
      (0x4AF6C6CA, .st ⟨5, 1⟩ .h 27 12 714),
      (0x52C1B000, .fsetFull ⟨5, 1⟩ 27),
      (0x52C1B001, .fsetEmpty ⟨5, 1⟩ 27),
      (0x52C6C002, .ftest ⟨5, 1⟩ 3 12),
      (0x56C1B650, .ldg ⟨5, 1⟩ 27 12 80),
      (0x5AC1B650, .stg ⟨5, 1⟩ 27 12 80),
      (0x5EF6C000, .tlook ⟨5, 1⟩ 27 12),
      (0x5EC1B601, .tset ⟨5, 1⟩ 27 12),
      (0x5EC1B002, .tclr ⟨5, 1⟩ 27),
      (0x62F6C867, .amo ⟨5, 1⟩ .xor .w true 27 12 16),
      (0x66F6C570, .amocas ⟨5, 1⟩ .d true 27 12 10)] : List (W32 × Instr)), decodeControl x.1 = .ok x.2 ∧ encode x.2 = [x.1] := by
  decide +kernel

/-- Words of majors 0x1C-0x28 (R295, R64): every field has a value of its own. -/
theorem test_words_flow : ∀ x ∈ ([
      (0x72C00D9B, .b ⟨5, 1⟩ 3483),
      (0x76C00D9B, .call ⟨5, 1⟩ 3483),
      (0x7AC00000, .ret ⟨5, 1⟩),
      (0x7AC1B601, .jt ⟨5, 1⟩ 27 12),
      (0x7EC00D9B, .lpad ⟨5, 1⟩ 3483),
      (0x82F6C080, .recv ⟨5, 1⟩ 27 12 1),
      (0x86C6C800, .send ⟨5, 1⟩ 3 12 16),
      (0x8AC1B600, .spawn ⟨5, 1⟩ 27 12),
      (0x8EC00000, .endTask ⟨5, 1⟩),
      (0x92C11F2C, .yield ⟨5, 1⟩ .bar 7980),
      (0x96C00D9B, .safe ⟨5, 1⟩ 3483),
      (0x9AC6C1A9, .waitc ⟨5, 1⟩ 3 12 1 10 9),
      (0x9EC69F2C, .forkMatrix ⟨5, 1⟩ 3 7980),
      (0x9EC71F2C, .forkStream ⟨5, 1⟩ 3 7980),
      (0xA2C00D9B, .rdv ⟨5, 1⟩ 3483)] : List (W32 × Instr)), decodeControl x.1 = .ok x.2 ∧ encode x.2 = [x.1] := by
  decide +kernel

/-- Words of majors 0x29-0x36 (R295, R131, R179): every field has a value of its own. -/
theorem test_words_stream_sync : ∀ x ∈ ([
      (0xA6C6C800, .sbind ⟨5, 1⟩ 3 12 16),
      (0xAAC6C800, .scopy ⟨5, 1⟩ 3 12 16),
      (0xAEC6C800, .sim2c ⟨5, 1⟩ 3 12 16),
      (0xB2C6C84A, .sgath ⟨5, 1⟩ 3 12 16 74),
      (0xB6F60601, .sstop ⟨5, 1⟩ 27 12 true),
      (0xC2C09B2C, .fence ⟨5, 1⟩ 44 155),
      (0xC6C1B000, .bar ⟨5, 1⟩ 27),
      (0xC6C6C001, .bartest ⟨5, 1⟩ 3 12),
      (0xCAF6C800, .subs ⟨5, 1⟩ 27 12 16),
      (0xCAC1B001, .unsubs ⟨5, 1⟩ 27),
      (0xCAC00002, .sflush ⟨5, 1⟩),
      (0xD2C1B600, .nlook ⟨5, 1⟩ 27 12),
      (0xD2F6C001, .nins ⟨5, 1⟩ 27 12),
      (0xD2F6C002, .nevict ⟨5, 1⟩ 27 12),
      (0xDAF6C800, .qpost ⟨5, 1⟩ 27 12 16),
      (0xDAF6C001, .cnct ⟨5, 1⟩ 27 12),
      (0xDAC1B002, .cncl ⟨5, 1⟩ 27)] : List (W32 × Instr)), decodeControl x.1 = .ok x.2 ∧ encode x.2 = [x.1] := by
  decide +kernel

/-- Words of majors 0x3C-0x3E (R295, R225): every field has a value of its own. -/
theorem test_words_system : ∀ x ∈ ([
      (0xF2F60180, .mfs ⟨5, 1⟩ 27 384),
      (0xF6C1B030, .mts ⟨5, 1⟩ 27 48),
      (0xFAC00000, .nop ⟨5, 1⟩),
      (0xFAC08D9B, .trap ⟨5, 1⟩ 3483),
      (0xFAC10000, .brk ⟨5, 1⟩),
      (0xFAC18000, .eret ⟨5, 1⟩)] : List (W32 × Instr)), decodeControl x.1 = .ok x.2 ∧ encode x.2 = [x.1] := by
  decide +kernel

/-- Matrix words (R300): every field has a value of its own. -/
theorem test_words_matrix : ∀ x ∈ ([
      (0x08000000, .mza),
      (0x10000000, .mzo),
      (0x1F480000, .mwin 233),
      (0x21698000, .mfmt 11 19),
      (0x2ABA4000, .mldaScratchpad 2793),
      (0x2C002400, .mldaPort 9),
      (0x35748000, .mldb 2793),
      (0x3E9D4000, .mmul 105 53),
      (0x4695356C, .mgmul 105 1333 27),
      (0x4D74A9A8, .mscale 2793 1333),
      (0x48000004, .mscaleUnit),
      (0x5522CA00, .mrd true false 9 5 37),
      (0x5D4D46A4, .mst true 1333 6 41),
      (0x654D766C, .mxpose true 1333 3483),
      (0x6D2B0000, .mtopk 41 1 3),
      (0x7574EAD8, .mtpld 2793 53 27),
      (0x7D74EA00, .mbal 2793 53),
      (0x85748000, .mtpstPlan 2793),
      (0x8574A000, .mtpstPotentials 2793),
      (0x8574C000, .mtpstRelease 2793),
      (0x8D74A9A8, .mtdist 2793 1333),
      (0x90000000, .mjoin),
      (0x9C000000, .mcoopOn),
      (0x98000000, .mcoopOff)] : List (W32 × Instr)), decodeMatrix x.1 = .ok x.2 ∧ encode x.2 = [x.1] := by
  decide +kernel

/-- Lane words of the element operations (R78, R79, R302). -/
theorem test_words_lane_elements : ∀ x ∈ ([
      (0x01D19F85, .eiadd ⟨6, 2, 0, true, 9, 0xF85⟩),
      (0x02F29000, .eisub ⟨7, 2, 1, false, 9, 0x000⟩),
      (0x03F29000, .eimul ⟨7, 2, 1, false, 9, 0x000⟩),
      (0x04F29000, .eimac ⟨7, 2, 1, false, 9, 0x000⟩),
      (0x05F29000, .eimin ⟨7, 2, 1, false, 9, 0x000⟩),
      (0x06F29000, .eimax ⟨7, 2, 1, false, 9, 0x000⟩),
      (0x07F29000, .eiand ⟨7, 2, 1, false, 9, 0x000⟩),
      (0x08F29000, .eior ⟨7, 2, 1, false, 9, 0x000⟩),
      (0x09F29000, .eixor ⟨7, 2, 1, false, 9, 0x000⟩),
      (0x0AF29000, .eishl ⟨7, 2, 1, false, 9, 0x000⟩),
      (0x0BF29000, .eishr ⟨7, 2, 1, false, 9, 0x000⟩),
      (0x0CF29000, .eisra ⟨7, 2, 1, false, 9, 0x000⟩),
      (0x0D245003, .eicmp ⟨1, 0, 2, false, 5, 0x003⟩),
      (0x20529000, .efadd ⟨2, 2, 1, false, 9, 0x000⟩),
      (0x21529000, .efsub ⟨2, 2, 1, false, 9, 0x000⟩),
      (0x226943F8, .efmul ⟨3, 1, 0, true, 4, 0x3F8⟩),
      (0x23529000, .effma ⟨2, 2, 1, false, 9, 0x000⟩),
      (0x24529000, .efmin ⟨2, 2, 1, false, 9, 0x000⟩),
      (0x25529000, .efmax ⟨2, 2, 1, false, 9, 0x000⟩),
      (0x26AC411C, .efcmp ⟨5, 1, 2, false, 4, 0x11C⟩),
      (0x275822E3, .ecvt ⟨2, 3, 0, false, 2, 0x2E3⟩),
      (0x28586000, .eexp2 ⟨2, 3, 0, false, 6, 0x000⟩),
      (0x29586000, .elog2 ⟨2, 3, 0, false, 6, 0x000⟩),
      (0x2A586000, .ercp ⟨2, 3, 0, false, 6, 0x000⟩),
      (0x2B586000, .else2 ⟨2, 3, 0, false, 6, 0x000⟩)] : List (W32 × Instr)), decodeLane x.1 = .ok (some x.2) ∧ encode x.2 = [x.1] := by
  decide +kernel

/-- The other lane words (R78, R79, R302). -/
theorem test_words_lane_others : ∀ x ∈ ([
      (0x40ACB000, .esel ⟨5, 1, 2, false, 11, 0x000⟩),
      (0x41F01000, .esteer ⟨7, 2, 0, false, 1, 0x000⟩),
      (0x42921000, .emerge ⟨4, 2, 1, false, 1, 0x000⟩),
      (0x43F01000, .eexit ⟨7, 2, 0, false, 1, 0x000⟩),
      (0x44662000, .erep ⟨3, 0, 3, false, 2, 0x000⟩),
      (0x45083005, .emark ⟨0, 1, 0, false, 3, 0x005⟩),
      (0x46083006, .estrip ⟨0, 1, 0, false, 3, 0x006⟩),
      (0x47586000, .ecount ⟨2, 3, 0, false, 6, 0x000⟩),
      (0x48580004, .ered ⟨2, 3, 0, false, 0, 0x004⟩),
      (0x49497402, .econst ⟨2, 1, 0, true, 7, 0x402⟩),
      (0x4A586000, .epass ⟨2, 3, 0, false, 6, 0x000⟩),
      (0x4B586000, .edrop ⟨2, 3, 0, false, 6, 0x000⟩),
      (0x60380020, .eld ⟨1, 3, 0, false, 0, 0x020⟩),
      (0x615A0030, .est ⟨2, 3, 1, false, 0, 0x030⟩),
      (0x62520019, .ermw ⟨2, 2, 1, false, 0, 0x019⟩),
      (0x7048801B, .ebq ⟨2, 1, 0, false, 8, 0x01B⟩),
      (0x7148801B, .ebdq ⟨2, 1, 0, false, 8, 0x01B⟩)] : List (W32 × Instr)), decodeLane x.1 = .ok (some x.2) ∧ encode x.2 = [x.1] := by
  decide +kernel

/-- The stream sequencer reads its words with guard 0 and, for a stream command, d zero; `end` is the join (R299). -/
theorem test_words_stream : ∀ x ∈ ([
      (0x8C000000, .ok .endJoin), (0xF8000000, .ok (.nop ⟨0, 0⟩)), (0xA4004280, .ok (.sbind ⟨0, 0⟩ 0 4 5)),
      (0xA8004280, .ok (.scopy ⟨0, 0⟩ 0 4 5)), (0xAC004280, .ok (.sim2c ⟨0, 0⟩ 0 4 5)),
      (0xB0004287, .ok (.sgath ⟨0, 0⟩ 0 4 5 7)), (0xB4000281, .ok (.sstop ⟨0, 0⟩ 0 5 true)),
      (0x8C800000, .error .notStream), (0xF8008005, .error .notStream), (0xA4024280, .error .notStream),
      (0x04064285, .error .notStream)] : List (W32 × Except Reject Instr)), decodeStream x.1 = x.2 := by
  decide +kernel

/-- The reasons for which the decoders refuse a word, one or more words each (R93, R95, R291, R293, R295-R301). -/
theorem test_rejected_words :
    (∀ x ∈ ([(0, .reservedWord), (0xFFFFFFFF, .reservedWord), (0x3C000000, .illegalMajor), (0xFC000000, .illegalMajor),
        (0x04464285, .guardNotQ0), (0x04064294, .nonzeroField), (0x50225002, .nonzeroField), (0x04064299, .illegalCode),
        (0x30024286, .illegalCode), (0x34026C00, .illegalCode), (0x600C3279, .illegalCode), (0x600C3250, .illegalCode),
        (0x640A34B0, .illegalCode), (0x90018000, .illegalCode), (0x9C000000, .illegalCode), (0xC0000200, .illegalCode),
        (0xC0000001, .illegalCode), (0xF0100023, .illegalCode)] : List (W32 × Reject)),
      decodeControl x.1 = .error x.2)
    ∧ (∀ x ∈ ([(0, .illegalMajor), (0xFFFFFFFF, .illegalMajor), (0x08000001, .nonzeroField), (0x28004400, .nonzeroField),
        (0x2C004400, .nonzeroField), (0x4800000C, .nonzeroField), (0x80006000, .illegalCode), (0x5000FE00, .illegalCode),
        (0x580001FC, .illegalCode), (0x20000000, .illegalCode)] : List (W32 × Reject)),
      decodeMatrix x.1 = .error x.2)
    ∧ (∀ x ∈ ([(0, 1), (0xFFFFFFFF, 1), (0x0E000000, 1), (0x00000001, 1), (0x01410000, 2), (0x45000000, 3), (0x01030001, 4),
        (0x01000000, 5), (0x23580000, 5)] : List (W32 × Nat)), decodeLane x.1 = .error (.laneCheck x.2))
    ∧ decodeLane 0x0000F000 = .ok none := by
  decide +kernel

/-- The words of "Decoding by example" (spec/14_encoding.md) and of its lane examples. -/
theorem test_decoding_by_example :
    decodeControl 0x30024282 = .ok (.cmp ⟨0, 0⟩ .lt 1 4 5) ∧ decodeControl 0x340467FD = .ok (.cmpi ⟨0, 0⟩ .ge 2 6 0x1FD)
    ∧ (decodeControl 0x30124282).isOk = false ∧ decodeControl 0x04400000 = .error .guardNotQ0
    ∧ (decodeControl 0x040642B9).isOk = false ∧ decodeControl 0x0C064280 = .ok (.andi ⟨0, 0⟩ 3 4 0x280)
    ∧ decodeControl 0x4C000000 = .error .illegalMajor ∧ decodeControl 0x90004120 = .ok (.yield ⟨0, 0⟩ .cnt 0x120)
    ∧ (decodeMatrix 0x90004120).isOk = false ∧ (decodeMatrix 0xA0000000).isOk = false
    ∧ decodeControl 0x80000000 = .ok (.recv ⟨0, 0⟩ 0 0 0)
    ∧ decodeLane 0x01010001 = .ok (some (.eiadd ⟨0, 0, 0, true, 0, 1⟩)) ∧ decodeLane 0x01420000 = .error (.laneCheck 2)
    ∧ decodeLane 0x22400000 = .error (.laneCheck 5) ∧ (decodeLane 0x70400000).isOk = true := by
  decide +kernel

/-! ## Terms that no word or event may hold -/

/-- One or more ill-formed instructions for each check, which the check refuses: the guard (!q0), an odd b of
`amocas`, an empty class set, a special register that is not listed, a format code, rows past 64, checks 2 to 5 of
a lane word, and the ranges of an event's arguments. -/
theorem test_wellformed_refuses : ∀ i ∈ ([
      .add ⟨0, 1⟩ 3 4 5, .nop ⟨0, 1⟩, .amocas ⟨0, 0⟩ .d false 5 3 9, .fence ⟨0, 0⟩ 0 1, .fence ⟨0, 0⟩ 1 0,
      .mfs ⟨0, 0⟩ 3 0x008, .mfs ⟨0, 0⟩ 3 0x0FF, .mts ⟨0, 0⟩ 3 0x200, .mfmt 0x00 0x07, .mfmt 0x07 0x31, .mfmt 0x38 0x07,
      .mrd true true 0 1 63, .mst false 0 63 1,
      .eiadd ⟨2, 0, 1, false, 0, 0⟩, .efadd ⟨0, 0, 1, false, 0, 0⟩, .emark ⟨0, 0, 0, false, 0, 0⟩,
      .efadd ⟨5, 0, 1, false, 0, 0⟩, .eiadd ⟨6, 0, 0, true, 0, 0x080⟩, .eiadd ⟨0, 0, 1, true, 0, 1⟩,
      .efcmp ⟨2, 0, 0, true, 0, 0⟩, .eiadd ⟨0, 1, 1, false, 0, 0⟩, .effma ⟨2, 3, 1, false, 0, 0⟩,
      .eexp2 ⟨2, 0, 1, false, 0, 0⟩, .ermw ⟨0, 0, 1, false, 0, 0x019⟩,
      .matrixPass 3072, .detentAtomic 32, .pageWalk 32 0 0, .commandRead 1024, .linkRetransmit 30, .keyUpdate 18,
      .readTemperatures 5, .setPowerLimit 199, .setPowerLimit 2401] : List Instr), i.wf = false := by
  decide +kernel

/-- Words at the edges of the checks pass. -/
theorem test_wellformed_accepts : ∀ i ∈ ([
      .add ⟨0, 0⟩ 3 4 5, .nop ⟨1, 1⟩, .amocas ⟨0, 0⟩ .d false 5 3 8, .fence ⟨0, 0⟩ 1 1, .mfs ⟨0, 0⟩ 3 0x007,
      .mts ⟨0, 0⟩ 3 0x1FF, .mfmt 0x01 0x30, .mrd true true 0 0 63, .mst false 0 63 0, .eiadd ⟨0, 0, 0, true, 0, 1⟩,
      .efadd ⟨5, 0, 1, false, 0, 3⟩, .eiadd ⟨6, 0, 0, true, 0, 0xF80⟩, .ermw ⟨2, 0, 1, false, 0, 0x019⟩,
      .matrixPass 3071, .detentAtomic 31, .setPowerLimit 200, .setPowerLimit 2400] : List Instr), i.wf = true := by
  decide +kernel

end Sys2Proof

namespace Sys2Proof.Machine.Tests

set_option Elab.async false

/-! ## States for the tests -/

/-- The guard of an unguarded word. -/
def g0 : Guard := ⟨0, 0⟩

/-- The state after reset, with core 0 as given. -/
def on (k : Core) : State := State.reset.setCore 0 k

/-- A control sequencer that runs the task of slot 0 at word 8 with these general registers. -/
def ctlOf (g : Tbl Word) : Ctl := { slot := some 0, pc := 8, g := g }

/-- Core 0 runs a task with these general registers. -/
def task (g : Tbl Word) : State := on { ctl := ctlOf g, slots := [(0, { st := .running })] }

/-- Core 0 runs a task, and its core is changed as given. -/
def taskOn (g : Tbl Word) (f : Core → Core) : State := (task g).modCore 0 f

/-- Core 0's matrix sequencer runs with this unit. -/
def matrixOn (f : Mx → Mx) : State :=
  { on { mx := f { active := true, pc := 8 } } with seat := ⟨0, 0, .matrix⟩, opSeq := 1 }

/-- Local and cluster addresses. -/
def loc (o : Nat) : Word := BitVec.ofNat 64 (2 ^ 60 + o)
def peer (k o : Nat) : Word := BitVec.ofNat 64 (2 ^ 61 + k * 0x80000 + o)

/-- An atomic waits at the port of the core for the last word of the scratchpad. -/
def portBusy (k : Core) : Core := { k with portq := [{ core := 0, owed := 9, op := 0, size := 8, off := 0x7FFF8, b := 0 }] }

theorem witness_AluResults : Issues (task [(4, 7), (5, 2)]) g0 [.g 3, .g 4, .g 5]
    ∧ Issues (task []) g0 [.g 31, .g 0] ∧ Issues (task []) g0 [.q 7, .g 0, .g 31, .g 31] := by
  unfold Issues; and_intros <;> decide +kernel

theorem witness_BitFieldResults :
    Issues (task []) g0 [.g 3, .g 4]
    ∧ (Issues (task [(5, 0x1000)]) g0 [.g 3, .g 4, .g 5] ∧ ((task [(5, 0x1000)]).reg 5).toNat / 64 % 128 = 64)
    ∧ (Issues (task [(5, 0x1040)]) g0 [.g 3, .g 4, .g 5] ∧ 64 < ((task [(5, 0x1040)]).reg 5).toNat / 64 % 128) := by
  unfold Issues; and_intros <;> decide +kernel

theorem witness_ImmediateWordResults : Issues (task []) g0 [.g 3, .g 4] ∧ Issues (task []) g0 [.g 31] := by
  unfold Issues; and_intros <;> decide +kernel

theorem witness_CompareAndPredicateResults : Issues (task []) g0 [.q 1, .g 4, .g 5] ∧ Issues (task []) g0 [.q 7, .g 31]
    ∧ Issues (task []) g0 [.q 0, .q 1, .q 7] ∧ Issues (task []) g0 [.q 1, .q 0] := by
  unfold Issues; and_intros <;> decide +kernel

/-- A task that has issued n instructions since its last safe point. -/
def counted (n : Nat) : State := taskOn [] (fun k => { k with ctl := { k.ctl with safecnt := n } })

theorem witness_FalseGuardHasNoEffect :
    guardOf (.endTask ⟨1, 0⟩) = some ⟨1, 0⟩ ∧ guardOf (.safe ⟨1, 0⟩ 3) = some ⟨1, 0⟩ ∧ (counted 2047).seat.seq = .control
      ∧ (counted 2047).here.ctl.slot ≠ none ∧ (counted 2047).here.ctl.killed = false ∧ (counted 2047).here.owed = []
      ∧ (counted 2047).here.ctl.safecnt < 2048 ∧ (counted 2047).guard ⟨1, 0⟩ = false
      ∧ Sys2Proof.field (0x04464285 : W32) 22 4 = 1 := by
  and_intros <;> decide +kernel

theorem witness_SafePointOverrunTraps :
    (guardOf (.nop g0) = some g0 ∧ (counted 2048).guard g0 = true)
      ∧ (guardOf (.endTask ⟨1, 0⟩) = some ⟨1, 0⟩ ∧ (counted 2048).guard ⟨1, 0⟩ = false)
      ∧ (counted 2048).seat.seq = .control ∧ (counted 2048).here.ctl.slot ≠ none
      ∧ (counted 2048).here.ctl.killed = false ∧ (counted 2048).here.owed = [] ∧ 2048 ≤ (counted 2048).here.ctl.safecnt := by
  and_intros <;> decide +kernel

/-- A task whose g3 and q1 are owed. -/
def owing : State := taskOn [] (fun k => { k with owed := [⟨0, 0, .g 3, none, false⟩, ⟨1, 0, .q 1, none, false⟩] })

theorem witness_OwedResultStallsIssue :
    owing.seat.seq = .control ∧ owing.here.ctl.slot ≠ none ∧ owing.here.ctl.killed = false
      ∧ (owing.here.owes (.q 1) = true ∧ guardOf (.nop ⟨1, 0⟩) = some ⟨1, 0⟩) ∧ owing.here.owes (.g 3) = true := by
  and_intros <;> decide +kernel

/-- Both sides of each edge of each window. -/
theorem witness_AddressSpacesAndWindows :
    placeOf 100 (BitVec.ofNat 64 (2 ^ 52 - 8)) 8 = .global ∧ placeOf 100 (BitVec.ofNat 64 (2 ^ 52 - 7)) 8 = .bad
      ∧ placeOf 100 (loc 0x7FFF8) 8 = .scratch 100 0x7FFF8 ∧ placeOf 100 (loc 0x7FFF9) 8 = .bad
      ∧ placeOf 100 (peer 95 0x7FFFF) 1 = .scratch 191 0x7FFFF ∧ placeOf 100 (peer 95 0x7FFFF) 2 = .bad
      ∧ placeOf 100 (peer 96 0) 1 = .bad ∧ placeOf 100 (BitVec.ofNat 64 (3 * 2 ^ 60)) 1 = .bad := by
  and_intros <;> decide +kernel

def ldOwn : State := task [(4, loc 0x7FFF8)]
def ldPeer : State := task [(4, peer 95 0x7FFF8)]
def ldHole : State := { ldOwn with empty := [(4095, true)] }
def ldHeld : State := ldHole.modCtl 0 (fun k => { k with work := { settled := true } })
def ldBad : State := { ldOwn with badLine := [(4095, true)] }

theorem witness_LoadsReadOrFault :
    (Issues ldOwn g0 [.g 3, .g 4] ∧ Readable ldOwn (memAddr (ldOwn.reg 4) .d 0) 8 0 0x7FFF8)
    ∧ (Issues ldPeer g0 [.g 3, .g 4] ∧ Readable ldPeer (memAddr (ldPeer.reg 4) .d 0) 8 95 0x7FFF8)
    ∧ placeOf 0 (memAddr (ldOwn.reg 4) .d 1) 8 = .bad
    ∧ (Issues (task []) g0 [.g 3, .g 4] ∧ placeOf 0 (memAddr ((task []).reg 4) .d 0) 8 = .global)
    ∧ (placeOf 0 (memAddr (loc 0x7FFF7) .h 0) 2 = .scratch 0 0x7FFF7 ∧ (memAddr (loc 0x7FFF7) .h 0).toNat % 2 ≠ 0)
    ∧ (Issues ldHole g0 [.g 3, .g 4] ∧ ldHole.isEmpty (lineKey 0 (0x7FFF8 / 128)) = true
      ∧ ldHole.here.ctl.work.settled = false ∧ ldHole.here.ctl.work.ovfl = false)
    ∧ (Issues ldHeld g0 [.g 3, .g 4] ∧ ldHeld.isEmpty (lineKey 0 (0x7FFF8 / 128)) = true
      ∧ ldHeld.here.ctl.work.settled = true)
    ∧ (Issues ldBad g0 [.g 3, .g 4] ∧ ldBad.isEmpty (lineKey 0 (0x7FFF8 / 128)) = false
      ∧ ldBad.isBad (lineKey 0 (0x7FFF8 / 128)) = true ∧ Tbl.find ldBad.here.ctl.work.wbuf 0x7FFF8 = none
      ∧ ldBad.here.ctl.work.reads.length < 128) := by
  unfold Issues Readable Unordered; and_intros <;> decide +kernel

theorem witness_StoreWaitsInWriteBuffer :
    (Issues ldOwn g0 [.g 3, .g 4] ∧ placeOf 0 (memAddr (ldOwn.reg 4) .d 0) 8 = .scratch 0 0x7FFF8
      ∧ (memAddr (ldOwn.reg 4) .d 0).toNat % 8 = 0 ∧ ldOwn.here.ctl.work.ovfl = false
      ∧ ldOwn.here.bufferFull (0 * 4096 + 0x7FFF8 / 128) = false)
    ∧ placeOf 0 (memAddr (ldOwn.reg 4) .d 1) 8 = .bad ∧ placeOf 0 (memAddr ((task []).reg 4) .d 0) 8 = .global
    ∧ ((memAddr (loc 1) .h 0).toNat % 2 ≠ 0 ∧ placeOf 0 (memAddr (loc 1) .h 0) 2 = .scratch 0 1) := by
  unfold Issues; and_intros <;> decide +kernel

def tagged : State :=
  taskOn [(4, 255), (5, 256)] (fun k => { k with tags := [(4, 255), (7, 255)], tagcfg := 3 })

theorem witness_TagTableWords :
    Issues tagged g0 [.g 3, .g 4] ∧ (Issues tagged g0 [.g 4, .g 5] ∧ Unordered tagged ∧ (tagged.reg 4).toNat ≤ 255)
      ∧ (Issues tagged g0 [.g 5, .g 4] ∧ 255 < (tagged.reg 5).toNat)
      ∧ Issues tagged g0 [.g 4] ∧ Issues tagged g0 [.g 5] := by
  unfold Issues Unordered; and_intros <;> decide +kernel

/-- A fence holds class T behind an earlier peer `fset`. -/
def fencedT : State :=
  { taskOn [(4, loc 0)] (fun k => { k with holds := [⟨1, 1, 5, []⟩], ring0 := [.fset 1 0 0 true 4] }) with opSeq := 9 }

def lines (a b : Word) : State := task [(4, a), (5, b)]
def linesMany : State := taskOn [(4, loc 0)] (fun k => { k with chains := [(0, { ld := 65535 })] })
def linesFull : State :=
  (task [(4, loc 0)]).modCtl 0 (fun k => { k with work := { stgs := List.replicate 32 ⟨0, 0, 1⟩ } })

theorem witness_LineWordsAndTransfers :
    (Issues fencedT g0 [.q 1, .g 4] ∧ fencedT.fenced 0 0 9 = true)
    ∧ (Issues ldOwn g0 [.q 1, .g 4] ∧ ldOwn.fenced 0 0 ldOwn.opSeq = false ∧ Unordered ldOwn
      ∧ placeOf 0 (ldOwn.reg 4) 1 = .scratch 0 0x7FFF8)
    ∧ (Issues ldPeer g0 [.q 1, .g 4] ∧ ldPeer.fenced 0 0 ldPeer.opSeq = false ∧ Unordered ldPeer
      ∧ placeOf 0 (ldPeer.reg 4) 1 = .scratch 95 0x7FFF8)
    ∧ (Issues (lines (peer 96 0) 0) g0 [.q 1, .g 4] ∧ (lines (peer 96 0) 0).fenced 0 0 0 = false
      ∧ placeOf 0 (peer 96 0) 1 = .bad)
    ∧ (Issues (lines (loc 0x7FF80) (BitVec.ofNat 64 (2 ^ 52 - 128))) g0 [.g 4, .g 5]
      ∧ (loc 0x7FF80).toNat % 2 ^ 60 + 128 * 1 ≤ 0x80000 ∧ (loc 0x7FF80).toNat % 2 ^ 60 + 128 * 2 > 0x80000
      ∧ (BitVec.ofNat 64 (2 ^ 52 - 128)).toNat + 128 * 1 ≤ 2 ^ 52 ∧ 2 ^ 52 < (BitVec.ofNat 64 (2 ^ 52 - 128)).toNat + 128 * 2)
    ∧ (Issues (lines (loc 0x40) 0x40) g0 [.g 4, .g 5] ∧ (loc 0x40).toNat % 128 ≠ 0 ∧ (0x40 : Word).toNat % 128 ≠ 0)
    ∧ (Issues linesMany g0 [.g 4, .g 5] ∧ (linesMany.here.chain linesMany.here.ctl.chain).ld = 65535)
    ∧ (Issues linesFull g0 [.g 4, .g 5] ∧ linesFull.here.ctl.work.stgs.length = 32) := by
  unfold Issues Unordered; and_intros <;> decide +kernel

def amoWide : State := task [(4, BitVec.ofNat 64 (2 ^ 52 - 8)), (3, loc 0x7FFF8)]

theorem witness_AtomicsIssue :
    (Unordered ldPeer ∧ Issues ldPeer g0 [.g 3, .g 4, .g 8] ∧ Issues ldPeer g0 [.g 3, .g 4, .g 8, .g (8 + 1)]
      ∧ placeOf 0 (ldPeer.reg 4) 8 = .scratch 95 0x7FFF8 ∧ (ldPeer.reg 4).toNat % 8 = 0
      ∧ ldPeer.isBad (lineKey 95 4095) = false)
    ∧ placeOf 0 (peer 95 0x7FFFC) 8 = .bad
    ∧ (placeOf 0 (peer 95 0x7FFF4) 8 ≠ .bad ∧ (peer 95 0x7FFF4).toNat % 8 ≠ 0)
    ∧ ldBad.isBad (lineKey 0 (0x7FFF8 / 128)) = true
    ∧ (Issues amoWide g0 [.g 3, .g 4, .g 8] ∧ placeOf 0 (amoWide.reg 4) 8 = .global ∧ (amoWide.reg 4).toNat % 8 = 0
      ∧ (amoWide.reg 3).toNat / 2 ^ 60 = 1 ∧ (amoWide.reg 3).toNat % 2 ^ 60 + 8 ≤ 0x80000 ∧ (amoWide.reg 3).toNat % 8 = 0
      ∧ (amoWide.here.chain amoWide.here.ctl.chain).ld ≠ 65535)
    ∧ (0x80000 < (loc 0x7FFF9).toNat % 2 ^ 60 + 8 ∧ (loc 0x7FFF4).toNat % 8 ≠ 0) := by
  unfold Issues Unordered; and_intros <;> decide +kernel

/-- A jump table at local address 0: label 7, two entries, of words 2 and 16384; `lpad label=7` stands at word 2. -/
def jump (i : Word) : State :=
  { taskOn [(4, i), (5, loc 0)] (fun k => { k with store := [(2, 0x7C000007)] }) with
    mem := Memory.writes [] (spKey 0 0) [7, 0, 0, 0, 2, 0, 0, 0, 2, 0, 0, 0, 0, 0x40, 0, 0] }

/-- A table whose reserved half is not zero. -/
def badTable : State := { jump 0 with mem := (jump 0).mem.write (spKey 0 2) 1 }

theorem witness_ControlTransfersAndJumpTable :
    (Issues (task []) g0 [] ∧ Issues (task [(31, 16383)]) g0 [.g 31])
    ∧ ((0 : Int) ≤ (task []).here.ctl.pc + (0x3FFFF8 : BitVec 22).toInt
      ∧ (task []).here.ctl.pc + (0x3FFFF7 : BitVec 22).toInt < 0
      ∧ (task []).here.ctl.pc + (0x003FF7 : BitVec 22).toInt ≤ 16383
      ∧ 16383 < (task []).here.ctl.pc + (0x003FF8 : BitVec 22).toInt)
    ∧ (Issues (jump 0) g0 [.g 4, .g 5] ∧ Readable (jump 0) ((jump 0).reg 5) 8 0 0
      ∧ (jump 0).taskNat 0 0 8 / 2 ^ 16 % 2 ^ 16 = 0 ∧ ((jump 0).reg 4).toNat < (jump 0).taskNat 0 0 8 / 2 ^ 32
      ∧ Readable (jump 0) ((jump 0).reg 5 + 8 + 4 * (jump 0).reg 4) 4 0 8 ∧ (jump 0).taskNat 0 8 4 = 2
      ∧ decodeControl (Tbl.get 0 (jump 0).here.store 2) = .ok (.lpad g0 7))
    ∧ (Issues (jump 1) g0 [.g 4, .g 5] ∧ Readable (jump 1) ((jump 1).reg 5 + 8 + 4 * (jump 1).reg 4) 4 0 12
      ∧ 16383 < (jump 1).taskNat 0 12 4)
    ∧ (Issues (jump 2) g0 [.g 4, .g 5] ∧ (jump 2).taskNat 0 0 8 / 2 ^ 32 ≤ ((jump 2).reg 4).toNat)
    ∧ (Issues badTable g0 [.g 4, .g 5] ∧ Readable badTable (badTable.reg 5) 8 0 0
      ∧ badTable.taskNat 0 0 8 / 2 ^ 16 % 2 ^ 16 ≠ 0) := by
  unfold Issues Readable Unordered; and_intros <;> decide +kernel

/-- A closing marker waits on channel 31, and a task may send one to channel 31 of core 95 or to sink port 15. -/
def chan (p : Bool) : State := taskOn [(4, 0x700000000), (5, 95 * 32 + 31), (6, 0x4000000F)]
  (fun k => { k with vcs := [(31, { q := [⟨⟨p, 7, 0⟩, 0, 0⟩], arrived := 1 })] })
def sinkFull : State := (chan false).modCore 0 (fun k => { k with ports := [(31, { resv := 8 })] })

theorem witness_ChannelWords :
    (Issues (chan false) g0 [.g 3, .q 1] ∧ ((chan false).here.vc 0).q = []
      ∧ ((chan false).here.vc 31).q = [⟨⟨false, 7, 0⟩, 0, 0⟩] ∧ ((chan true).here.vc 31).q = [⟨⟨true, 7, 0⟩, 0, 0⟩])
    ∧ (Issues (chan false) g0 [.q 1, .g 4, .g 5] ∧ (chan false).reg 4 = ((7 : BitVec 3) ++ (0 : W32)).setWidth 64
      ∧ (chan false).reg 5 = BitVec.ofNat 64 (32 * 95 + 31) ∧ (chan false).reg 6 = BitVec.ofNat 64 (2 ^ 30 + 15)
      ∧ (chan false).here.sinkRouted 15 = false ∧ (chan false).here.ctl.work.sends < 16
      ∧ ((chan false).here.port (16 + 15)).buf.length + ((chan false).here.port (16 + 15)).resv < 8)
    ∧ (2 ^ 35 ≤ (0x800000000 : Word).toNat ∧ (0x100000001 : Word).toNat / 2 ^ 32 ≠ 0)
    ∧ (Issues sinkFull g0 [.q 1, .g 4, .g 6]
      ∧ ¬ (sinkFull.here.port (16 + 15)).buf.length + (sinkFull.here.port (16 + 15)).resv < 8) := by
  unfold Issues; and_intros <;> decide +kernel

/-- A word that names no channel and no sink port. -/
theorem witness_ChannelWords_target : (¬ ∃ k < 96, ∃ v < 32, (3072 : Word) = BitVec.ofNat 64 (32 * k + v))
    ∧ ¬ ∃ p < 16, (3072 : Word) = BitVec.ofNat 64 (2 ^ 30 + p) := by
  constructor
  · rintro ⟨k, hk, v, hv, h⟩; bv_omega
  · rintro ⟨p, hp, h⟩; bv_omega

/-- A task of an ordered domain with stamp 9 may spawn entry 31. -/
def spawner : State := taskOn [(4, 0x3FFF001F), (5, 9)] (fun k => { k with
  tasks := [(0, { valid := true, ord := true }), (31, { valid := true, ord := true })], ctl := { k.ctl with stamp := 9 } })
def spawnFull : State := spawner.modCore 0 (fun k => { k with slots := (List.range 64).map (fun n => (n, {})) })

theorem witness_SpawnReservesSlot :
    (Issues spawner g0 ([.g 4, .g 5] ++ carryRegs.map .g) ∧ spawner.reg 4 = BitVec.ofNat 64 (2 ^ 16 * 16383 + 31)
      ∧ (spawner.here.task 31).valid = true ∧ spawner.here.taskOrd = true
      ∧ spawner.here.ctl.stamp.toNat ≤ (spawner.reg 5).toNat)
    ∧ (Tbl.find spawner.here.slots 1 = none ∧ ∀ m < 1, Tbl.find spawner.here.slots m ≠ none)
    ∧ (Issues spawnFull g0 ([.g 4, .g 5] ++ carryRegs.map .g) ∧ ∀ n < 64, Tbl.find spawnFull.here.slots n ≠ none)
    ∧ (Issues spawner g0 ([.g 4, .g 6] ++ carryRegs.map .g) ∧ (spawner.reg 6).toNat < spawner.here.ctl.stamp.toNat
      ∧ (spawner.here.task 31).ord = true)
    ∧ (spawner.here.task 30).valid = false := by
  unfold Issues; and_intros <;> decide +kernel

/-- The stream sequencer runs. -/
def streamOn (f : Core → Core) : State := { on (f { ss := { active := true } }) with seat := ⟨0, 0, .stream⟩ }

/-- A task whose g24 is the word that `yield` and the barrier words read. -/
def yielding (v : Word) : State := task [(4, v), (24, v)]

theorem witness_EndsOfTasks :
    Issues (task []) g0 []
    ∧ (Issues (yielding (loc 0x7FFFF)) g0 (carryRegs.map .g) ∧ (yielding (loc 0x7FFFF)).here.ctl.slot = some 0
      ∧ Tbl.find (yielding (loc 0x7FFFF)).here.slots 0 = some { st := .running }
      ∧ ((yielding (loc 0x7FFFF)).reg 24).toNat / 2 ^ 60 = 1
      ∧ ((yielding (loc 0x7FFFF)).reg 24).toNat % 2 ^ 60 < 0x80000)
    ∧ (Issues (yielding (loc 0x80000)) g0 (carryRegs.map .g)
      ∧ 0x80000 ≤ ((yielding (loc 0x80000)).reg 24).toNat % 2 ^ 60)
    ∧ BarrierFits (yielding 0x60FF) ((yielding 0x60FF).reg 24)
    ∧ ((streamOn id).seat.seq = .stream ∧ (streamOn id).here.ss.active = true ∧ (streamOn id).here.ss.halt = false
      ∧ (streamOn id).here.frozen = false) := by
  unfold Issues BarrierFits; and_intros <;> decide +kernel

/-- A barrier word of 97 arrivals, and one of none, do not fit. -/
theorem witness_EndsOfTasks_barrier : Issues (yielding 0x6100) g0 (carryRegs.map .g)
    ∧ ¬ BarrierFits (yielding 0x6100) ((yielding 0x6100).reg 24) ∧ ¬ BarrierFits (yielding 0) ((yielding 0).reg 24) := by
  unfold Issues BarrierFits; and_intros <;> decide +kernel

def debugAsked : State := taskOn [] (fun k => { k with dbgReq := true })
def preemptAsked : State := taskOn [] (fun k => { k with preempt := some 0 })
def forked : State := taskOn [] (fun k => { k with mx := { k.mx with active := true }, ss := { active := true } })

theorem witness_SafePointsTestsAndForks :
    (Issues (task []) g0 [] ∧ (task []).here.dbgReq = false ∧ (task []).here.preempt = none)
    ∧ (Issues debugAsked g0 [] ∧ debugAsked.here.halted = none ∧ debugAsked.here.dbgReq = true)
    ∧ (Issues preemptAsked g0 [] ∧ preemptAsked.here.halted = none ∧ preemptAsked.here.dbgReq = false
      ∧ preemptAsked.here.preempt ≠ none ∧ preemptAsked.here.ctl.slot = some 0
      ∧ Tbl.find preemptAsked.here.slots 0 = some { st := .running })
    ∧ (Issues (task []) g0 [.q 1] ∧ Unordered (task []) ∧ (task []).here.mx.active = false)
    ∧ (Issues forked g0 [.q 1] ∧ Unordered forked ∧ forked.here.mx.active = true)
    ∧ (Issues forked g0 (.q 1 :: allRegs.map .g) ∧ forked.here.ss.active = true)
    ∧ (Issues (task []) g0 (.q 1 :: allRegs.map .g) ∧ (task []).here.ss.active = false) := by
  unfold Issues Unordered; and_intros <;> decide +kernel

/-- A launch whose barrier 5 has counted `n` arrivals of a round of 2; the task's chain arrived first. -/
def barred (n : Nat) : State :=
  { taskOn [(4, 0x205)] (fun k => { k with chains := [(0, { bars := [(5, 0)] })] }) with
    launches := [(0, { serial := 0, job := 0, gr := 0, node := 0, part := 0, obj := 0, graph := 0, base := 0, bars := [(5, 2, n)] })] }

theorem witness_FencesAndBarriers :
    (Issues (task []) g0 [] ∧ (0x02 : BitVec 8).getLsbD 6 = false)
    ∧ (Issues (yielding 0x6000) g0 [.q 1, .g 4] ∧ Unordered (yielding 0x6000)
      ∧ BarrierFits (yielding 0x6000) ((yielding 0x6000).reg 4)
      ∧ Tbl.find ((yielding 0x6000).here.chain 0).bars 0 = none)
    ∧ (Issues (barred 1) g0 [.q 1, .g 4] ∧ Unordered (barred 1) ∧ BarrierFits (barred 1) ((barred 1).reg 4)
      ∧ Tbl.find ((barred 1).here.chain 0).bars 5 = some 0 ∧ ((barred 1).barrier 0 5).2 < (0 / 2 + 1) * 2
      ∧ Tbl.find (barred 1).launches 0 ≠ none)
    ∧ (Issues (barred 2) g0 [.q 1, .g 4] ∧ BarrierFits (barred 2) ((barred 2).reg 4)
      ∧ Tbl.find ((barred 2).here.chain 0).bars 5 = some 0 ∧ (0 / 2 + 1) * 2 ≤ ((barred 2).barrier 0 5).2
      ∧ (Tbl.find (barred 2).launches 0).map (·.pend) = some [])
    ∧ (Issues (yielding 0x6100) g0 [.q 1, .g 4] ∧ ¬ BarrierFits (yielding 0x6100) ((yielding 0x6100).reg 4)) := by
  unfold Issues Unordered BarrierFits; and_intros <;> decide +kernel

/-- A core of the firmware runs a task at supervisor level. -/
def firm (v : Word) : State := taskOn [(4, v)] (fun k => { k with firmware := true })

theorem witness_SpecialRegisterReads :
    (Issues (task []) g0 [.g 3] ∧ (0x007 : BitVec 12).toNat = 0x007 ∧ (0x050 : BitVec 12).toNat = 0x050
      ∧ (0x021 : BitVec 12).toNat = 0x021 ∧ (0x040 : BitVec 12).toNat = 0x040 ∧ (task []).here.supervisor = false)
    ∧ (Issues (firm 0) g0 [.g 3] ∧ (firm 0).here.supervisor = true)
    ∧ (0x100 ≤ (0x100 : BitVec 12).toNat ∧ (0x1FF : BitVec 12).toNat ≤ 0x1FF ∧ (0x180 : BitVec 12).toNat = 0x180
      ∧ (0x19F : BitVec 12).toNat ≤ 0x19F ∧ (0x1A0 : BitVec 12).toNat = 0x1A0 ∧ ¬ (0x1A1 : BitVec 12).toNat ≤ 0x1A0)
    ∧ ((0x008 : BitVec 12).toNat ∉ [0x000, 0x001, 0x002, 0x003, 0x004, 0x005, 0x006, 0x007, 0x010, 0x011, 0x012, 0x013,
        0x020, 0x021, 0x022, 0x030, 0x040, 0x050] ∧ ¬ 0x100 ≤ (0x0FF : BitVec 12).toNat ∧ ¬ (0x200 : BitVec 12).toNat ≤ 0x1FF) := by
  unfold Issues; and_intros <;> decide +kernel

theorem witness_SpecialRegisterWrites :
    (Issues (yielding 0x3F08) g0 [.g 4] ∧ Unordered (yielding 0x3F08) ∧ (yielding 0x3F08).here.supervisor = false
      ∧ ((yielding 0x3F08).reg 4).toNat < 2 ^ 14 ∧ ((yielding 0x3F08).reg 4).toNat / 16 % 16 = 0
      ∧ ((yielding 0x3F08).reg 4).toNat % 16 ≤ 8)
    ∧ (2 ^ 14 ≤ (0x4000 : Word).toNat ∧ (0x10 : Word).toNat / 16 % 16 ≠ 0 ∧ 8 < (0x9 : Word).toNat % 16)
    ∧ (Issues (firm 1) g0 [.g 4] ∧ Unordered (firm 1) ∧ (firm 1).here.supervisor = true) := by
  unfold Issues Unordered; and_intros <;> decide +kernel

/-- A partition under `dbg`, and a core that has halted for debug. -/
def dbgOn : State := { task [] with parts := [(0, { dbg := true })] }
def haltedCore : State := taskOn [] (fun k => { k with halted := some {} })

theorem witness_SystemWords :
    (Issues (task []) g0 [] ∧ ((task []).part 0).dbg = false ∧ (task []).here.halted = none
      ∧ (task []).here.firmware = false)
    ∧ (Issues dbgOn g0 [] ∧ (dbgOn.part dbgOn.here.part).dbg = true ∧ dbgOn.here.supervisor = false)
    ∧ (Issues haltedCore g0 [] ∧ haltedCore.here.halted = some {})
    ∧ (Issues (firm 0) g0 [] ∧ (firm 0).here.halted = none ∧ (firm 0).here.firmware = true
      ∧ (firm 0).here.supervisor = true)
    ∧ ((streamOn id).seat.seq = .stream ∧ (streamOn id).here.ss.active = true ∧ (streamOn id).here.ss.halt = false
      ∧ (streamOn id).here.frozen = false)
    ∧ ((task []).seat.seq = .control ∧ (task []).here.ctl.slot ≠ none ∧ (task []).here.ctl.killed = false)
    ∧ ((matrixOn id).seat.seq = .matrix ∧ (matrixOn id).here.mx.active = true ∧ (matrixOn id).here.mx.halt = false
      ∧ (matrixOn id).here.frozen = false) := by
  unfold Issues; and_intros <;> decide +kernel

/-- A descriptor of 4-byte elements (R127). -/
def desc : BitVec 512 := 2 <<< 416

/-- A task that names the port code p and the descriptor block at local address 0x7FFC0. -/
def binding (p : Nat) : State :=
  { task [(4, loc 0x7FFC0), (5, BitVec.ofNat 64 p)] with mem := Memory.writes [] (spKey 0 0x7FFC0) (leBytes desc.toNat 64) }
def bindingBusy : State := (binding 0).modCore 0 (fun k => { k with ports := [(0, { circuit := true })] })
def bindingBad : State := { binding 0 with badLine := [(4095, true)] }

theorem witness_StreamBinding :
    (Issues (binding 31) g0 [.q 1, .g 4, .g 5] ∧ Unordered (binding 31) ∧ ((binding 31).reg 5).toNat = 31
      ∧ ((binding 31).reg 4).toNat / 2 ^ 60 = 1 ∧ ((binding 31).reg 4).toNat % 2 ^ 60 + 64 ≤ 0x80000
      ∧ ((binding 31).reg 4).toNat % 64 = 0 ∧ ((binding 31).here.port 31).q = [] ∧ ((binding 31).here.port 31).run = none
      ∧ ((binding 31).here.port 31).circuit = false
      ∧ (binding 31).isEmpty (lineKey 0 (((binding 31).reg 4).toNat % 2 ^ 60 / 128)) = false
      ∧ (binding 31).isBad (lineKey 0 (((binding 31).reg 4).toNat % 2 ^ 60 / 128)) = false
      ∧ BitVec.ofNat 512 (leNat ((binding 31).spBytes 0 0x7FFC0 64)) = desc ∧ MayBind desc true)
    ∧ (Issues (binding 32) g0 [.q 1, .g 4, .g 5] ∧ 32 ≤ ((binding 32).reg 5).toNat)
    ∧ (0x80000 < (loc 0x7FFC1).toNat % 2 ^ 60 + 64 ∧ (loc 0x7FFA0).toNat % 64 ≠ 0)
    ∧ (Issues bindingBusy g0 [.q 1, .g 4, .g 5] ∧ (bindingBusy.here.port 0).circuit = true)
    ∧ (Issues bindingBad g0 [.q 1, .g 4, .g 5] ∧ bindingBad.isBad (lineKey 0 ((loc 0x7FFC0).toNat % 2 ^ 60 / 128)) = true)
    ∧ ((streamOn id).seat.seq = .stream ∧ (streamOn id).here.ss.active = true ∧ (streamOn id).here.ss.halt = false
      ∧ (streamOn id).here.frozen = false) := by
  unfold Issues Unordered MayBind; and_intros <;> decide +kernel

/-- A bound port, with its queue and its chain as given; g4 is a local list of 4 bytes. -/
def bound (p n cp : Nat) : State := taskOn [(4, loc 0x7FFFC), (5, BitVec.ofNat 64 p), (6, 0xFFFFFFFF), (7, 0x100000000)]
  (fun k => { k with
    ports := [(p, { desc := some desc, q := List.replicate n ⟨.copy, desc, 0, 0⟩ })], chains := [(0, { cp := cp })] })
def boundHole : State := { bound 15 0 0 with empty := [(4095, true)] }
def boundBad : State := { bound 15 0 0 with badLine := [(4095, true)] }

theorem witness_StreamCommandsAndStop :
    (Issues (bound 15 7 0) g0 [.q 1, .g 4, .g 5] ∧ Unordered (bound 15 7 0) ∧ (bound 15 7 0).here.ctl.chain = 0
      ∧ ((bound 15 7 0).reg 5).toNat = 15 ∧ ((bound 15 7 0).here.port 15).desc = some desc
      ∧ ((bound 15 7 0).here.port 15).q.length < 8 ∧ Desc.drain desc = false
      ∧ ((bound 15 7 0).here.chain 0).cp ≠ 65535 ∧ ((bound 15 7 0).reg 6).toNat < 2 ^ 32
      ∧ ((bound 15 7 0).reg 4).toNat / 2 ^ 60 = 1 ∧ ((bound 15 7 0).reg 4).toNat % 2 ^ 60 + 4 * 1 ≤ 0x80000
      ∧ ((bound 15 7 0).reg 4).toNat % 4 = 0)
    ∧ (Issues (bound 31 0 0) g0 [.q 1, .g 4, .g 5] ∧ ((bound 31 0 0).reg 5).toNat = 31
      ∧ ((bound 31 0 0).here.port 31).desc = some desc)
    ∧ (16 ≤ ((bound 16 0 0).reg 5).toNat ∧ 32 ≤ ((bound 32 0 0).reg 5).toNat ∧ 2 ^ 32 ≤ ((bound 15 0 0).reg 7).toNat)
    ∧ ((bound 15 0 0).here.port 14).desc = none
    ∧ (Issues (bound 15 8 0) g0 [.q 1, .g 4, .g 5] ∧ 8 ≤ ((bound 15 8 0).here.port 15).q.length)
    ∧ (Issues (bound 15 0 65535) g0 [.q 1, .g 4, .g 5] ∧ ((bound 15 0 65535).here.chain 0).cp = 65535)
    ∧ (Issues boundHole g0 [.q 1, .g 4, .g 5] ∧ spLines 0 ((loc 0x7FFFC).toNat % 2 ^ 60) (4 * 1) = [4095]
      ∧ boundHole.isEmpty 4095 = true)
    ∧ (Issues boundBad g0 [.q 1, .g 4, .g 5] ∧ boundBad.isEmpty 4095 = false ∧ boundBad.isBad 4095 = true)
    ∧ Issues (bound 15 7 0) g0 [.g 3, .g 5] := by
  unfold Issues Unordered; and_intros <;> decide +kernel

/-- A task that asks core 95 for its last line; and its core with a full table. -/
def subscribing : State := task [(4, peer 95 0x7FF80), (5, 0x0FFF), (6, 15), (7, 16)]
def aSub (i : Nat) : Sub :=
  { id := i, pub := 95, pubLine := 0, pubIdx := i, sub := 0, subLine := 8 * i, subIdx := i, lines := 1, fill := false
    state := 2, ask := false }
def subscribed : State := { subscribing with subs := (List.range 16).map aSub }

theorem witness_SubscriptionWords :
    (Unordered subscribing ∧ Issues subscribing g0 [.g 3, .g 4, .g 5] ∧ (subscribing.reg 4).toNat / 2 ^ 60 = 2
      ∧ (subscribing.reg 4).toNat % 2 ^ 60 < 96 * 0x80000 ∧ (subscribing.reg 4).toNat % 128 = 0
      ∧ (subscribing.reg 5).toNat < 2 ^ 25 ∧ (subscribing.reg 5).toNat / 2 ^ 21 % 8 = 0
      ∧ 0 / 96 * 96 + (subscribing.reg 4).toNat % 2 ^ 60 / 0x80000 = 95
      ∧ (subscribing.reg 4).toNat % 0x80000 / 128 = 4095 ∧ (subscribing.reg 5).toNat % 4096 = 4095
      ∧ (subscribing.reg 5).toNat / 4096 % 512 + 1 = 1 ∧ subscribing.freeEntryAt 0 = some 0
      ∧ subscribing.freeEntryAt 95 = some 0 ∧ subscribing.overlaps 0 4095 1 = false)
    ∧ (Unordered subscribed ∧ Issues subscribed g0 [.g 3, .g 4, .g 5] ∧ subscribed.freeEntryAt 0 = none)
    ∧ (96 * 0x80000 ≤ (peer 96 0).toNat % 2 ^ 60 ∧ (peer 95 0x7FFC0).toNat % 128 ≠ 0 ∧ 2 ^ 25 ≤ (0x2000000 : Word).toNat
      ∧ (0x200000 : Word).toNat / 2 ^ 21 % 8 ≠ 0)
    ∧ (Issues subscribed g0 [.g 6] ∧ (subscribed.reg 6).toNat < 16 ∧ aSub 15 ∈ subscribed.subs
      ∧ (aSub 15).closed = false ∧ (aSub 15).sub = subscribed.seat.core ∧ (aSub 15).subIdx = (subscribed.reg 6).toNat)
    ∧ (Issues subscribed g0 [.g 7] ∧ 16 ≤ (subscribed.reg 7).toNat) ∧ Issues subscribed g0 [] := by
  unfold Issues Unordered; and_intros <;> decide +kernel

/-- A task with a local name or block in g4 and a result block in g5; queue 1023 has room for a command. -/
def naming (a b : Word) : State := task [(4, a), (5, b)]
def queued (en : Bool) (tail : W32) : State :=
  { naming (loc 0x7FFC0) 1023 with queues := [(1023, { en := en, tail := tail })] }
/-- A task of a launch, with a handle in g4. -/
def leveled (v : Word) : State :=
  { task [(4, v)] with launches := [(0, { serial := 0, job := 0, gr := 0, node := 0, part := 0, obj := 0, graph := 0, base := 0 })] }

theorem witness_NameAndLevelWords :
    (Issues (naming (loc 0x7FFF0) (loc 0x7FFC0)) g0 [.g 3, .g 4, .g 5] ∧ Unordered (naming (loc 0x7FFF0) (loc 0x7FFC0))
      ∧ LocalIn (loc 0x7FFF0) 16 ∧ LocalIn (loc 0x7FFC0) 64 ∧ (loc 0x7FFF0).toNat % 16 = 0 ∧ (loc 0x7FFC0).toNat % 64 = 0
      ∧ ((naming (loc 0x7FFF0) (loc 0x7FFC0)).here.chain 0).ld ≠ 65535)
    ∧ (¬ LocalIn (loc 0x7FFF1) 16 ∧ ¬ LocalIn (loc 0x7FFC1) 64 ∧ (loc 0x7FFE8).toNat % 16 ≠ 0
      ∧ (loc 0x7FFA0).toNat % 64 ≠ 0)
    ∧ (Issues linesMany g0 [.g 4, .g 5] ∧ (linesMany.here.chain linesMany.here.ctl.chain).ld = 65535)
    ∧ (Issues (queued true 0) g0 [.g 3, .g 4, .g 5] ∧ ((queued true 0).reg 5).toNat = 1023
      ∧ (queueAt (queued true 0) 1023).en = true ∧ (queueAt (queued true 0) 1023).part.toNat = (queued true 0).here.part
      ∧ ((queueAt (queued true 0) 1023).tail - (queueAt (queued true 0) 1023).head).toNat
          < (queueAt (queued true 0) 1023).capacity)
    ∧ (queueAt (queued false 0) 1023).en = false
    ∧ (queueAt (queued true 16) 1023).capacity
        ≤ ((queueAt (queued true 16) 1023).tail - (queueAt (queued true 16) 1023).head).toNat
    ∧ 1024 ≤ (1024 : Word).toNat
    ∧ (Issues (leveled 0) g0 [.g 3, .g 4] ∧ Unordered (leveled 0) ∧ HandleFits 0 ∧ (leveled 0).reg 4 = 0)
    ∧ (Issues (leveled 0x2000000000000000) g0 [.g 3, .g 4] ∧ ((leveled 0x2000000000000000).reg 4).toNat = 2 ^ 61
      ∧ (leveled 0x2000000000000000).ownLaunch ≠ none)
    ∧ (Issues (leveled 0x8000000000000007) g0 [.g 4] ∧ ((leveled 0x8000000000000007).reg 4).toNat = 2 ^ 63 + 7
      ∧ (leveled 0x8000000000000007).liveJob 0 7 = none)
    ∧ (¬ HandleFits 0xA000000000000000 ∧ ¬ HandleFits 0x100000000 ∧ ¬ HandleFits 1) := by
  unfold Issues Unordered LocalIn HandleFits; and_intros <;> decide +kernel

/-- A loaded transport tile; accumulators in use; a core of the cooperative tile. -/
def mxTile : State := matrixOn (fun m => { m with tp := true, rows := 64, cols := 64 })
def mxDirty : State := matrixOn (fun m => { m with dirty := true })
def mxCoop : State := matrixOn (fun m => { m with coop := true })
/-- The matrix unit beside a scratchpad in which line 0 is empty, or poisoned. -/
def mxHole : State := { matrixOn id with empty := [(0, true)] }
def mxBad : State := { matrixOn id with badLine := [(0, true)] }

theorem witness_MatrixSettings :
    (MatrixIssues (matrixOn id) true ∧ MatrixIssues (matrixOn id) false ∧ (matrixOn id).here.mx.tp = false
      ∧ (matrixOn id).here.mx.dirty = false ∧ (matrixOn id).here.mx.prod = false)
    ∧ (MatrixIssues mxTile true ∧ mxTile.here.mx.tp = true)
    ∧ (MatrixIssues mxDirty false ∧ mxDirty.here.mx.dirty = true) := by
  unfold MatrixIssues; and_intros <;> decide +kernel

/-- Line 0 lists firing 0 as row 63 into row 63, or into row 64. -/
def mxList (b : Byte) : State := { matrixOn id with mem := Memory.writes (Memory.write [] (spKey 0 0) 63) (spKey 0 64) [b] }

theorem witness_MatrixProducts :
    (MatrixIssues (matrixOn id) false ∧ (matrixOn id).here.mx.coop = false ∧ productFault (matrixOn id) = false
      ∧ (matrixOn id).isEmpty (lineKey 0 0) = false ∧ (matrixOn id).isBad (lineKey 0 0) = false)
    ∧ (MatrixIssues mxTile false ∧ mxTile.here.mx.coop = false ∧ productFault mxTile = true)
    ∧ (MatrixIssues mxHole false ∧ productFault mxHole = false ∧ mxHole.isEmpty (lineKey 0 0) = true)
    ∧ (MatrixIssues mxBad false ∧ mxBad.isEmpty (lineKey 0 0) = false ∧ mxBad.isBad (lineKey 0 0) = true)
    ∧ (MatrixIssues (mxList 63) false ∧ ((mxList 63).mem.read (spKey 0 (0 * 128 + (64 + 0)))).toNat ≤ 63
      ∧ ((mxList 63).mem.read (spKey 0 (0 * 128 + 0))).toNat ≤ 63)
    ∧ (MatrixIssues (mxList 64) false ∧ 63 < ((mxList 64).mem.read (spKey 0 (0 * 128 + (64 + 0)))).toNat)
    ∧ (MatrixIssues mxCoop true ∧ mxCoop.here.mx.coop = true)
    ∧ (MatrixIssues (matrixOn id) true ∧ MatrixIssues mxTile true) := by
  unfold MatrixIssues; and_intros <;> decide +kernel

def mxBuffered : State := matrixOn (fun m => { m with obuf := [{}] })
/-- A switch word feeds sink port 3. -/
def mxRouted : State := (matrixOn id).modCore 0 (fun k => { k with region := { sw := [0x0430] } })

theorem witness_MatrixScaleAndRead :
    (MatrixIssues (matrixOn id) true ∧ (matrixOn id).here.mx.tp = false ∧ (matrixOn id).isEmpty (lineKey 0 4095) = false
      ∧ (matrixOn id).here.sinkRouted 3 = false ∧ (matrixOn id).here.mx.obuf = [])
    ∧ (MatrixIssues mxTile true ∧ mxTile.here.mx.tp = true) ∧ (MatrixIssues mxHole true ∧ mxHole.isEmpty (lineKey 0 0) = true)
    ∧ (MatrixIssues mxBuffered true ∧ mxBuffered.here.mx.obuf ≠ [])
    ∧ (MatrixIssues mxRouted false ∧ mxRouted.here.sinkRouted 3 = true) := by
  unfold MatrixIssues; and_intros <;> decide +kernel

theorem witness_MatrixStores :
    (MatrixIssues (matrixOn id) true ∧ (matrixOn id).here.mx.tp = false ∧ 3968 + 2 * 64 ≤ 4096 ∧ 4096 < 3969 + 2 * 64
      ∧ 4032 + 64 ≤ 4096)
    ∧ (MatrixIssues mxTile true ∧ mxTile.here.mx.tp = true)
    ∧ mPlanes (matrixOn id).here.mx.fa = 8
    ∧ (4080 + 16 ≤ 4096 ∧ 4064 + 2 * 8 ≤ 4096 ∧ 4064 + 2 * 8 ≤ 4080)
    ∧ ¬ (4081 + 16 ≤ 4096) ∧ (MatrixIssues mxHole true ∧ mxHole.isEmpty (lineKey 0 (0 + 0)) = true) := by
  unfold MatrixIssues; and_intros <;> decide +kernel

/-- The gate tile ends at line 4095 and its records before it. -/
def mxGate : State := matrixOn (fun m => { m with aline := 4088, bline := 4087 })
def mxGateHole : State := { mxGate with empty := [(4095, true)] }
def mxGateClash : State := matrixOn (fun m => { m with aline := 4088, bline := 4095 })

theorem witness_GateRecords :
    (MatrixIssues mxGate true ∧ mxGate.here.mx.coop = false ∧ mxGate.here.mx.asrc = false
      ∧ 4088 + 8 * 1 ≤ 4096 ∧ mxGate.here.mx.aline.toNat = 4088 ∧ mxGate.here.mx.bline.toNat + 1 ≤ 4088
      ∧ ∀ x < 8 * 1, mxGate.isEmpty (lineKey 0 (4088 + x)) = false)
    ∧ (MatrixIssues mxGateHole true ∧ mxGateHole.isEmpty (lineKey 0 (4088 + 7)) = true)
    ∧ (MatrixIssues mxGateClash true ∧ ¬ (mxGateClash.here.mx.bline.toNat + 1 ≤ 4088 ∨ 4088 + 8 ≤ mxGateClash.here.mx.bline.toNat))
    ∧ (MatrixIssues mxCoop true ∧ mxCoop.here.mx.coop = true)
    ∧ (8 ≤ 8 ∧ ([0x3F800000, 0x7FC00000] : List Nat).length ≤ 256) := by
  unfold MatrixIssues; and_intros <;> decide +kernel

def mxTileHole : State := { mxTile with empty := [(4095, true)] }

theorem witness_TransportTile :
    (MatrixIssues (matrixOn id) true ∧ (matrixOn id).here.mx.coop = false ∧ (matrixOn id).here.mx.tp = false
      ∧ 3964 + 2 * 64 + 4 ≤ 4096 ∧ 4096 < 3965 + 2 * 64 + 4
      ∧ ∀ x < 132, (matrixOn id).isEmpty (lineKey 0 (3964 + x)) = false
        ∧ (matrixOn id).isBad (lineKey 0 (3964 + x)) = false)
    ∧ (MatrixIssues mxHole true ∧ mxHole.isEmpty (lineKey 0 (0 + 0)) = true)
    ∧ (MatrixIssues mxBad true ∧ mxBad.isEmpty (lineKey 0 (0 + 0)) = false ∧ mxBad.isBad (lineKey 0 (0 + 0)) = true)
    ∧ (MatrixIssues mxTile true ∧ mxTile.here.mx.coop = false ∧ mxTile.here.mx.tp = true
      ∧ 3968 + 2 * mxTile.here.mx.rows ≤ 4096 ∧ 4096 < 3969 + 2 * mxTile.here.mx.rows ∧ 4092 + 4 ≤ 4096 ∧ 4094 + 2 ≤ 4096
      ∧ ∀ x < 2 * mxTile.here.mx.rows, mxTile.isEmpty (lineKey 0 (3968 + x)) = false)
    ∧ (3967 < 3968 ∧ 3968 + 2 * mxTile.here.mx.rows ≤ 4096) ∧ (3968 ≤ 4095 ∧ 4095 < 3968 + 2 * mxTile.here.mx.rows)
    ∧ (MatrixIssues mxTileHole true ∧ mxTileHole.isEmpty (lineKey 0 (3968 + 127)) = true) := by
  unfold MatrixIssues; and_intros <;> decide +kernel

/-- Two firings of step 127, whose blocks of MXINT8 planes end at line 4095. -/
def aFiring (i : Nat) : Firing :=
  { word := 0, s := 127, a := 0, i := i, fa := 7, fb := 7, win := 0, asrc := false, aline := 2048, aport := 0, bline := 2048 }
def firing : State := matrixOn (fun m => { m with todo := [aFiring 0, aFiring 63] })
def fired : State := matrixOn (fun m => { m with pass := [aFiring 63] })

theorem witness_MatrixPassesAndRowFirings :
    ((firing.core 0).mx.pass = [] ∧ (firing.core 0).mx.todo ≠ [] ∧ (firing.core 0).frozen = false
      ∧ ∀ f ∈ (firing.core 0).mx.todo, f.s < 128 ∧ 2048 + 2 * mPlanes f.fb * f.s + 2 * mPlanes f.fb = 4096 ∧ f.bline = 2048
        ∧ f.aline = 2048)
    ∧ (fired.core 0).mx.pass = aFiring 63 :: [] := by
  and_intros <;> decide +kernel

/-- The output buffer has a token, and its sink port room for one or none. -/
def draining (n : Nat) : State := matrixOn (fun m => { m with obuf := [{}] })
  |>.modCore 0 (fun k => { k with ports := [(16, { buf := List.replicate n {} })] })
def word (kind : Nat) (todo : List Firing) : State :=
  matrixOn (fun m => { m with words := [{ id := 0, kind := kind }], todo := todo, coopW := some false })
/-- `mcoop on=0` stands on core 0, and every core of the cluster has issued as many `mcoop` words. -/
theorem witness_MatrixWordsComplete :
    (((draining 7).core 0).mx.obuf = {} :: [] ∧ ((draining 7).core 0).frozen = false
      ∧ (((draining 7).core 0).port (16 + 0)).buf.length + (((draining 7).core 0).port (16 + 0)).resv < 8)
    ∧ (merges (((draining 8).core 0).port (16 + 0)).buf {} = false
      ∧ 8 ≤ (((draining 8).core 0).port (16 + 0)).buf.length + (((draining 8).core 0).port (16 + 0)).resv)
    ∧ ((((word wProduct []).core 0).mx.words = { id := 0, kind := wProduct } :: [])
      ∧ ((word wProduct []).core 0).mx.todo ++ ((word wProduct []).core 0).mx.pass = [])
    ∧ (((word wCoop []).core 0).mx.words = [{ id := 0, kind := wCoop }] ∧ ((word wCoop []).core 0).mx.coopW = some false
      ∧ ∀ k < 96, ((word wCoop []).core 0).mx.coopN ≤ ((word wCoop []).core (clusterOf 0 * 96 + k)).mx.coopN)
    ∧ (((word wProduct [aFiring 0]).core 0).mx.words = [{ id := 0, kind := wProduct }]
      ∧ ∃ f ∈ ((word wProduct [aFiring 0]).core 0).mx.todo, f.word = 0) := by
  and_intros <;> decide +kernel

/-- Lane 0 with a token, or none, at the head of queues 0, 1 and 3, and its state between firings. -/
def lanes (a b c : Option Token) (f : Lane → Lane) : State :=
  on { queues := (a.toList.map (fun t => (0, [t]))) ++ (b.toList.map (fun t => (1, [t]))) ++ (c.toList.map (fun t => (3, [t])))
       lanes := [(0, f {})] }
def dat (v : W32) : Token := { value := v }
def bad : Token := { poison := true }
def mark (k : BitVec 3) : Token := { kind := k }
/-- A lane word that reads A from queue 0 and B from queue 1; and one whose B is the immediate. -/
def abc : LaneArgs := ⟨2, 0, 1, false, 0, 0⟩
def abi : LaneArgs := ⟨2, 0, 0, true, 0, 0x402⟩
def abcLane : State := lanes (some (dat 1)) (some (dat 2)) (some (dat 3)) id

theorem witness_LaneResults :
    (LaneData abcLane abc false (dat 1) (dat 2) (dat 3) ∧ LaneData abcLane abc true (dat 1) (dat 2) (dat 3))
    ∧ LaneData (lanes (some (dat 1)) none none id) abi false (dat 1) (dat 0x40200000) (dat 0)
    ∧ LaneReady abcLane true false 0 := by
  unfold LaneData LaneReady; and_intros <;> decide +kernel

theorem witness_LaneMarkersAndPoison :
    (Instr.efadd abc ∈ [Instr.eiadd abc, .eisub abc, .efadd abc] ∧ laneUses abc true false = [0, 1]
      ∧ laneUses abc true true = [0, 1, 3])
    ∧ (lanes (some (dat 1)) none none id).here.head 0 1 = none
    ∧ (heads (lanes (some (mark 1)) (some (mark 7)) none id).here 0 [0, 1] = some [mark 1, mark 7]
      ∧ ((lanes (some (mark 1)) (some (mark 7)) none id).here.lane 0).due ≤ 0
      ∧ (lanes (some (mark 1)) (some (mark 7)) none id).here.ready 0 (own (markTok (topRank [mark 1, mark 7]))) = true)
    ∧ heads (lanes (some (dat 1)) (some (mark 1)) none id).here 0 [0, 1] = some [dat 1, mark 1]
    ∧ (heads (lanes (some (dat 1)) (some bad) none id).here 0 [0, 1] = some [dat 1, bad]
      ∧ LaneReady (lanes (some (dat 1)) (some bad) none id) true false 0) := by
  unfold LaneReady; and_intros <;> decide +kernel

theorem witness_LaneSteering :
    (abcLane.here.head 0 (laneA abc) = some (dat 1) ∧ abcLane.here.head 0 3 = some (dat 3)
      ∧ LaneReady abcLane false true 0 ∧ LaneReady abcLane true true 0
      ∧ abcLane.here.head 0 (if (3 : W32) = 0 then laneA abc else laneB abc) = some (dat 2))
    ∧ ((lanes (some (dat 1)) none (some (dat 0)) id).here.head 0 3 = some (dat 0)
      ∧ LaneReady (lanes (some (dat 1)) none (some (dat 0)) id) true false 0
      ∧ (lanes (some (dat 1)) none (some (dat 0)) id).here.head 0 (if (0 : W32) = 0 then laneA abc else laneB abc)
          = some (dat 1))
    ∧ ((lanes (some (dat 1)) none (some bad) id).here.head 0 3 = some bad
      ∧ LaneReady (lanes (some (dat 1)) none (some bad) id) true true 0)
    ∧ ((lanes (some (mark 1)) none (some (mark 7)) id).here.head 0 3 = some (mark 7)
      ∧ LaneReady (lanes (some (mark 1)) none (some (mark 7)) id) true true 7)
    ∧ ((lanes (some (mark 1)) none (some (dat 0)) id).here.head 0 (laneA abc) = some (mark 1)
      ∧ LaneReady (lanes (some (mark 1)) none (some (dat 0)) id) true false 1)
    ∧ (lanes none none (some (dat 0)) id).here.head 0 (if (0 : W32) = 0 then laneA abc else laneB abc) = none := by
  unfold LaneReady; and_intros <;> decide +kernel

/-- `emark rank=1 n=2`, which reads queue 0. -/
def marks : LaneArgs := ⟨2, 0, 0, false, 0, 0x011⟩
def holding2 : State := lanes (some (dat 7)) (some (dat 2)) none (fun l => { l with count := 2 })
def copying : State := lanes none none none (fun l => { l with buf := [dat 7], count := 1 })

theorem witness_LanePassingAndSegments :
    (abcLane.here.head 0 (laneA abc) = some (dat 1) ∧ LaneReady abcLane true false 0 ∧ (abcLane.here.lane 0).out = []
      ∧ (abcLane.here.lane 0).buf = [] ∧ (abcLane.here.lane 0).due ≤ abcLane.cycle
      ∧ (abcLane.here.lane 0).count < (marks.imm.extractLsb' 3 9).toNat)
    ∧ (holding2.here.head 0 (laneA marks) = some (dat 7) ∧ (marks.imm.extractLsb' 3 9).toNat ≤ (holding2.here.lane 0).count
      ∧ LaneReady holding2 true false 0)
    ∧ ((lanes (some (mark 1)) none none id).here.head 0 (laneA marks) = some (mark 1)
      ∧ LaneReady (lanes (some (mark 1)) none none id) true false 1 ∧ marks.imm.extractLsb' 0 3 = 1)
    ∧ (abi.bimm = true ∧ 2 ≤ immWord abi.fmt abi.imm)
    ∧ (holding2.here.head 0 (laneB abc) = some (dat 2) ∧ 2 ≤ (dat 2).value.toNat)
    ∧ ((lanes (some (dat 7)) (some (dat 0)) none id).here.head 0 (laneB abc) = some (dat 0)
      ∧ (lanes (some (dat 7)) (some (dat 1)) none id).here.head 0 (laneB abc) = some (dat 1)
      ∧ (lanes (some (dat 7)) (some bad) none id).here.head 0 (laneB abc) = some bad)
    ∧ ((copying.here.lane 0).buf = [dat 7] ∧ LaneReady copying true false 0)
    ∧ ((lanes (some (dat 1)) none none (fun l => { l with buf := List.replicate 256 (dat 0) })).here.head 0 0 = some (dat 1)
      ∧ 256 ≤ ((lanes (some (dat 1)) none none (fun l => { l with buf := List.replicate 256 (dat 0) })).here.lane 0).buf.length)
    ∧ ((lanes (some (dat 1)) none none (fun l => { l with buf := List.replicate 32 (dat 0) })).here.lane 0).buf
        = dat 0 :: List.replicate 31 (dat 0) := by
  unfold LaneReady; and_intros <;> decide +kernel

/-! ## Results by hand -/

/-- What a meaning leaves, as a reader sees it; `none` for a stop. -/
def after {α : Type} (i : Instr) (s : State) (f : State → α) : Option α :=
  match exec i s with
  | .next t => some (f t)
  | _ => none
def regAfter (i : Instr) (a b : Word) : Option Word := after i (task [(4, a), (5, b)]) (·.reg 3)

-- Results by hand from R315, R316, R324, R377, R397.
theorem test_add_wraps : regAfter (.add g0 3 4 5) 0xFFFFFFFFFFFFFFFF 2 = some 1 := by decide +kernel
theorem test_div_truncates : regAfter (.div g0 3 4 5) (-7) 2 = some (-3) := by decide +kernel
theorem test_rem_has_dividends_sign : regAfter (.rem g0 3 4 5) (-7) 2 = some (-1) := by decide +kernel
theorem test_divn_by_zero : regAfter (.divn g0 3 4 5) 9 0 = some 0xFFFFFFFFFFFFFFFF := by decide +kernel
theorem test_mulh_signed : regAfter (.mulh g0 3 4 5) (-1) 2 = some 0xFFFFFFFFFFFFFFFF := by decide +kernel
theorem test_mulhn_natural : regAfter (.mulhn g0 3 4 5) (-1) 2 = some 1 := by decide +kernel
theorem test_shl_amount_modulo_64 : regAfter (.shl g0 3 4 5) 3 65 = some 6 := by decide +kernel
theorem test_sra_keeps_sign : regAfter (.sra g0 3 4 5) 0x8000000000000000 63 = some 0xFFFFFFFFFFFFFFFF := by decide +kernel
theorem test_rot_left : regAfter (.rot g0 3 4 5) 0x8000000000000001 1 = some 3 := by decide +kernel
theorem test_clz_of_zero : regAfter (.clz g0 3 4) 0 0 = some 64 := by decide +kernel
theorem test_ctz : regAfter (.ctz g0 3 4) 8 0 = some 3 := by decide +kernel
theorem test_bext_s : regAfter (.bextS g0 3 4 4 3) 0x80 0 = some (-8) := by decide +kernel
theorem test_bins : after (.bins g0 3 4 8 7) (task [(3, 0xFFFFFF), (4, 0x12)]) (·.reg 3) = some 0xFF12FF := by decide +kernel
theorem test_lui_sign : regAfter (.lui g0 3 0x10000) 0 0 = some 0xFFFFFFFE00000000 := by decide +kernel
theorem test_addi_negative : regAfter (.addi g0 3 4 0xFFF) 5 0 = some 4 := by decide +kernel
theorem test_g0_discards : after (.addi g0 0 4 1) (task [(4, 5)]) (·.reg 0) = some 0 := by decide +kernel
theorem test_st_waits : after (.st g0 .w 5 4 0) (task [(4, loc 8), (5, 0x11223344)])
    (fun t => (t.here.ctl.work.wbuf.map (·.2), t.mem)) = some ([0x44, 0x33, 0x22, 0x11], []) := by decide +kernel
/-- 1.0 + 2.0 is 3.0 in FP32 (R32). -/
theorem test_efadd : after (.efadd ⟨2, 0, 1, false, 0, 0⟩)
    ((lanes (some (dat 0x3F800000)) (some (dat 0x40000000)) none id).modCore 0 (fun k => { k with ports := [(16, {})], region := { sw := [0x0400] } }))
    (fun t => (t.here.head 0 0, (t.here.port 16).buf)) = some (none, [dat 0x40400000]) := by decide +kernel

/-! ## Witnesses of further clauses -/

/-- A task of an ordered domain with stamp 5 and these registers; an instance of stamp n of the domain waits beside it. -/
def ordered (g : Tbl Word) (n : Word) : State := taskOn g (fun k => { k with
  tasks := [(0, { valid := true, ord := true })], ctl := { k.ctl with stamp := 5 }
  slots := [(0, { st := .running, stamp := 5 }), (1, { stamp := n })] })

/-- The oldest task of its domain, and one that is not. -/
theorem witness_ordered : ((ordered [] 9).here.taskOrd = true ∧ (ordered [] 9).here.ctl.work.irrev = false
      ∧ oldestHere (ordered [] 9) = true)
    ∧ ((ordered [] 4).here.taskOrd = true ∧ (ordered [] 4).here.ctl.work.irrev = false ∧ oldestHere (ordered [] 4) = false
      ∧ (ordered [] 4).here.ctl.slot = some 0 ∧ Tbl.find (ordered [] 4).here.slots 0 = some { st := .running, stamp := 5 }
      ∧ (ordered [] 4).here.ctl.work.outs = []) := by
  and_intros <;> decide +kernel

/-- An atomic stands at the port of core 0 on the last word of its scratchpad. -/
def ldWaits : State := ldOwn.modCore 0 portBusy

theorem witness_LoadsReadOrFault_waits : Issues ldWaits g0 [.g 3, .g 4]
    ∧ placeOf 0 (memAddr (ldWaits.reg 4) .d 0) 8 = .scratch 0 0x7FFF8 ∧ (ldWaits.core 0).wordHeld 0x7FFF8 8 = true
    ∧ (ldWaits.core 0).wordHeld 0x7FFF0 8 = false := by
  unfold Issues; and_intros <;> decide +kernel

/-- Writes of 256 lines stand in the buffer of a task. -/
def fullBuffer (s : State) : State := s.modCtl 0 (fun k => { k with
  work := { k.work with wbuf := (List.range 256).map (fun i => (i * 128, 0)) } })
def stFull : State := fullBuffer ldOwn
def stPast : State := ldOwn.modCtl 0 (fun k => { k with work := { ovfl := true } })

theorem witness_StoreWaitsInWriteBuffer_overflow :
    (Issues stFull g0 [.g 3, .g 4] ∧ Unordered stFull ∧ stFull.here.bufferFull (0 * 4096 + 0x7FFF8 / 128) = true
      ∧ stFull.here.ctl.work.ovfl = false ∧ (stFull.core 0).wordHeld 0x7FFF8 8 = false)
    ∧ (Issues stPast g0 [.g 3, .g 4] ∧ stPast.here.ctl.work.ovfl = true
      ∧ Issues (stPast.modCore 0 portBusy) g0 [.g 3, .g 4] ∧ ((stPast.modCore 0 portBusy).core 0).wordHeld 0x7FFF8 8 = true)
    ∧ (Issues (fullBuffer (ordered [(4, loc 0x7FFF8)] 4)) g0 [.g 3, .g 4]
      ∧ oldestHere (fullBuffer (ordered [(4, loc 0x7FFF8)] 4)) = false
      ∧ (fullBuffer (ordered [(4, loc 0x7FFF8)] 4)).here.bufferFull (0 * 4096 + 0x7FFF8 / 128) = true) := by
  unfold Issues Unordered; and_intros <;> decide +kernel

theorem witness_LineWordsAndTransfers_more :
    (Issues fencedT g0 [.g 4] ∧ Issues ldOwn g0 [.g 4] ∧ ldOwn.filledNow (lineKey 0 4095) = false)
    ∧ ({ ldOwn with filled := [lineKey 0 4095], filledAt := 0 }.filledNow (lineKey 0 4095) = true)
    ∧ (Issues (ordered [(4, loc 0), (5, 0)] 4) g0 [.g 4, .g 5] ∧ Issues (ordered [(4, loc 0), (5, 0)] 4) g0 [.g 4]
      ∧ (ordered [(4, loc 0), (5, 0)] 4).fenced 0 0 0 = false)
    ∧ (Issues (fullBuffer (ordered [(4, loc 0), (5, 0)] 4)) g0 [.g 4, .g 5]
      ∧ (fullBuffer (ordered [(4, loc 0), (5, 0)] 4)).here.ctl.work.stgs.length ≠ 32
      ∧ 256 ≤ (bufLines (fullBuffer (ordered [(4, loc 0), (5, 0)] 4)).here.ctl.work.wbuf).length
        + (fullBuffer (ordered [(4, loc 0), (5, 0)] 4)).here.ctl.work.stgs.length)
    ∧ placeOf 0 (0 : Word) 1 = .global := by
  unfold Issues; and_intros <;> decide +kernel

/-- An atomic on global memory without a deposit, and one with a full counter. -/
theorem witness_AtomicsIssue_more :
    (Issues (ordered [(4, loc 0)] 4) g0 [.g 3, .g 4, .g 8]
      ∧ Issues (ordered [(4, loc 0)] 4) g0 [.g 3, .g 4, .g 8, .g (8 + 1)])
    ∧ (amoWide.modCore 0 (fun k => { k with chains := [(0, { ld := 65535 })] })).here.ctl.slot ≠ none
    ∧ ((amoWide.modCore 0 (fun k => { k with chains := [(0, { ld := 65535 })] })).here.chain 0).ld = 65535 := by
  unfold Issues; and_intros <;> decide +kernel

theorem witness_TagTableWords_ordered : Issues (ordered [] 4) g0 [.g 4, .g 5] ∧ Issues (ordered [] 4) g0 [.g 4] := by
  unfold Issues; and_intros <;> decide +kernel

theorem witness_ControlTransfersAndJumpTable_reads : (jump 0).here.ctl.work.reads.length < 127 := by decide +kernel

theorem witness_SafePointsTestsAndForks_ordered : Issues (ordered [] 4) g0 [.q 1]
    ∧ Issues (ordered [] 4) g0 (.q 1 :: allRegs.map .g) := by
  unfold Issues; and_intros <;> decide +kernel

theorem witness_FencesAndBarriers_ordered : Issues (ordered [(4, 0x6000)] 4) g0 [.g 4] ∧ Issues (yielding 0x6000) g0 [.g 4] := by
  unfold Issues; and_intros <;> decide +kernel

/-- Flags that a lane raised in this cycle, and before it. -/
theorem witness_SpecialRegisterReads_lstat :
    (taskOn [] (fun k => { k with raised := 3, raisedAt := 0 })).here.raisedAt = (taskOn [] id).cycle
    ∧ ({ taskOn [] (fun k => { k with raised := 3, raisedAt := 0 }) with cycle := 1 }).here.raisedAt ≠ 1
    ∧ (0x000 : BitVec 12).toNat = 0x000 ∧ (0x110 : BitVec 12).toNat = 0x110 ∧ (0x111 : BitVec 12).toNat = 0x111 := by
  and_intros <;> decide +kernel

theorem witness_SpecialRegisterWrites_more :
    Issues (ordered [(4, 0)] 4) g0 [.g 4]
    ∧ (Issues ((ordered [(4, 0)] 4).modCore 0 (fun k => { k with firmware := true })) g0 [.g 4]
      ∧ ((ordered [(4, 0)] 4).modCore 0 (fun k => { k with firmware := true })).here.supervisor = true)
    ∧ (∃ x ∈ ({ firm 1 with jobs := [(8, { id := 8, q := 0, part := 0, obj := 3, cpl := 0, names := [], phases := [] })] }).jobs,
        x.2.part = (firm 1).here.part ∧ x.2.status = none)
    ∧ (∀ x ∈ (firm 1).jobs, x.2.part = (firm 1).here.part → x.2.status ≠ none)
    ∧ ((0x041 : BitVec 12).toNat ∉ [0x020, 0x021, 0x022, 0x030] ∧ (0x112 : BitVec 12).toNat ≠ 0x110) := by
  unfold Issues; and_intros <;> decide +kernel

/-- A halted task of slot 0, and a subscription of its core that is live, or has a backlog. -/
def haltedTask (st : BitVec 2) : State := { taskOn [] (fun k => { k with halted := some { slot := some 0 } }) with
  subs := [{ id := 4, pub := 1, pubLine := 0, pubIdx := 0, sub := 0, subLine := 0, subIdx := 0, lines := 1, fill := true, state := st }] }

theorem witness_SystemWords_eret :
    (Issues (haltedTask 2) g0 [] ∧ (haltedTask 2).here.halted = some { slot := some 0 }
      ∧ ∀ u ∈ (haltedTask 2).subs, u.sub = 0 → u.state = 2 ∧ u.backlog = [])
    ∧ (Issues (haltedTask 3) g0 [] ∧ (haltedTask 3).here.halted = some { slot := some 0 }
      ∧ Tbl.find (haltedTask 3).here.slots 0 = some { st := .running })
    ∧ (¬ ∀ u ∈ (haltedTask 3).subs, u.sub = 0 → u.state = 2 ∧ u.backlog = [])
    ∧ (∃ x ∈ (matrixOn (fun m => { m with words := [{ id := 1, kind := wDrain }] })).here.mx.words, x.drains = true)
    ∧ ∀ x ∈ (matrixOn id).here.mx.words, x.drains = false := by
  unfold Issues; and_intros <;> decide +kernel

/-- A fence holds class N behind an earlier `stg`. -/
def fencedN (s : State) : State :=
  { s.modCore 0 (fun k => { k with holds := [⟨1, 0xFF, 5, []⟩], ring0 := [.fset 1 0 0 true 4] }) with opSeq := 9 }

theorem witness_StreamBinding_more :
    (Issues (fencedN (binding 31)) g0 [.q 1, .g 4, .g 5] ∧ (fencedN (binding 31)).fenced 0 1 9 = true)
    ∧ (binding 31).fenced 0 1 (binding 31).opSeq = false
    ∧ (Issues (ordered [] 4) g0 [.q 1, .g 4, .g 5] ∧ (ordered [] 4).fenced 0 1 (ordered [] 4).opSeq = false)
    ∧ ¬ MayBind (1 <<< 448) true := by
  unfold Issues MayBind; and_intros <;> decide +kernel

/-- The stream sequencer at a word, and behind a fence. -/
theorem witness_StreamCommandsAndStop_more :
    (StreamIssues (streamOn id) g0 [.q 1, .g 5, .g 4] ∧ (streamOn id).seat.seq = .stream ∧ (streamOn id).here.ss.chain = 0)
    ∧ (StreamIssues (bound 15 7 0) g0 [.q 1, .g 5, .g 4] ∧ StreamIssues (bound 15 7 0) g0 [.g 3, .g 5])
    ∧ (Issues (ordered [] 4) g0 [.q 1, .g 5, .g 4] ∧ (ordered [] 4).fenced 0 3 (ordered [] 4).opSeq = false
      ∧ Issues (ordered [] 4) g0 [.g 3, .g 5])
    ∧ (Issues (fencedN (bound 15 0 0)) g0 [.q 1, .g 5, .g 4] ∧ Unordered (fencedN (bound 15 0 0))
      ∧ (fencedN (bound 15 0 0)).fenced 0 3 9 = true ∧ (bound 15 0 0).fenced 0 3 (bound 15 0 0).opSeq = false) := by
  unfold StreamIssues Issues Unordered
  refine ⟨⟨.inr (by and_intros <;> decide +kernel), by decide +kernel, by decide +kernel⟩,
    ⟨.inl (by and_intros <;> decide +kernel), .inl (by and_intros <;> decide +kernel)⟩, ?_, ?_⟩ <;>
  and_intros <;> decide +kernel

theorem witness_SubscriptionWords_ordered : Issues (ordered [] 4) g0 [.g 3, .g 4, .g 5] ∧ Issues (ordered [] 4) g0 [.g 6]
    ∧ Issues (ordered [] 4) g0 [] ∧ subscribing.freeEntryAt 95 = some 0
    ∧ (∀ u ∈ ({ subscribing with subs := [{ aSub 3 with pub := 0, pubIdx := 3, sub := 95 }] }).subs, u.closed = false ∧ u.pub = 0) := by
  unfold Issues; and_intros <;> decide +kernel

/-- A task of a launch of graph 6, job 8; and queue 1023 with the command block at local address 0x7FFC0. -/
def inJob (v : Word) : State :=
  { leveled v with
    graphs := [(0, { job := 8, phase := 0, order := 0, obj := 3, lg := 0 })]
    jobs := [(8, { id := 7, q := 1023, part := 0, obj := 3, cpl := 0, names := [], phases := [[0]] })] }
def runsBlock (loc_ : Bool) (base : Word) (op : Byte) : State :=
  { queued true 0 with
    queues := [(1023, { en := true, loc := loc_, base := base })]
    mem := Memory.writes [] (spKey 0 0x7FFC0) [0, 0, 0, 0, op, 0, 1]
    tlb := [⟨0, 0, 0, 0, 0x10000, 0x20000, true, true⟩, ⟨4, 0, 0, 0, 0x10000, 0x20000, true, true⟩] }

theorem witness_NameAndLevelWords_more :
    (Issues (naming (loc 0x7FFF0) (loc 0x7FFC0)) g0 [.g 3, .g 4]
      ∧ (naming (loc 0x7FFF0) (loc 0x7FFC0)).fenced 0 1 (naming (loc 0x7FFF0) (loc 0x7FFC0)).opSeq = false
      ∧ Issues (fencedN (naming (loc 0x7FFF0) (loc 0x7FFC0))) g0 [.g 3, .g 4]
      ∧ Issues (fencedN (naming (loc 0x7FFF0) (loc 0x7FFC0))) g0 [.g 4, .g 5]
      ∧ (fencedN (naming (loc 0x7FFF0) (loc 0x7FFC0))).fenced 0 1 9 = true)
    ∧ (Issues (ordered [(4, loc 0x7FFC0)] 4) g0 [.g 3, .g 4] ∧ (ordered [(4, loc 0x7FFC0)] 4).fenced 0 1 1 = false
      ∧ Issues (ordered [(4, loc 0x7FFC0)] 4) g0 [.g 3, .g 4, .g 5] ∧ Issues (ordered [(4, 0)] 4) g0 [.g 4])
    ∧ ((queueAt (queued true 0) 1023).postTail 0 - 0 = 0
      ∧ ((queueAt (queued true 16) 1023).postTail 0 - 0).toNat = 16 ∧ (queueAt (queued true 16) 1023).capacity = 16)
    ∧ ((runsBlock false 0x1000 0).parseCommand 0 ((runsBlock false 0x1000 0).spBytes 0 0x7FFC0 64) false).2.ok = false
    ∧ ((runsBlock false 0x1000 2).parseCommand 0 ((runsBlock false 0x1000 2).spBytes 0 0x7FFC0 64) false).2.ok = true
    ∧ (((runsBlock true 0x1000 2).parseCommand 0 ((runsBlock true 0x1000 2).spBytes 0 0x7FFC0 64) false).1.regWrite 0 0x1000
        (List.replicate 64 0) false).isSome = true
    ∧ ((runsBlock true 0x10000 2).parseCommand 0 ((runsBlock true 0x10000 2).spBytes 0 0x7FFC0 64) false).1.regWrite 0 0x10000
        (List.replicate 64 0) false = none
    ∧ (Issues (inJob 0x6000000000000000) g0 [.g 3, .g 4] ∧ handleLevel 0x6000000000000000 = 3 ∧ handleLevel 0x4000000000000000 = 2
      ∧ (inJob 0).ownLaunch ≠ none ∧ ((inJob 0).ownLaunch.bind (fun l => (inJob 0).graphs.find l.gr)).isSome = true
      ∧ ((inJob 0).jobs.find 8).isSome = true)
    ∧ (Issues (inJob 0x8000000000000007) g0 [.g 4] ∧ handleLevel 0x8000000000000007 = 4
      ∧ (inJob 0x8000000000000007).liveJob 0 7 ≠ none)
    ∧ (Issues (task [(4, 0x2000000000000000)]) g0 [.g 3, .g 4] ∧ (task [(4, 0x2000000000000000)]).ownLaunch = none) := by
  unfold Issues; and_intros <;> decide +kernel

/-- A word that waits at the sequencer; and a core of a row group that has issued another product word. -/
def mxWaiting : State := matrixOn (fun m => { m with held := true })
def mxClash (sig : List Nat) : State :=
  { (matrixOn (fun m => { m with coop := true })).setCore 1 { mx := { coop := true, coopLog := [sig] } } with
    seat := ⟨0, 0, .matrix⟩ }

theorem witness_MatrixProducts_clash :
    (MatrixIssues (mxClash [9]) false ∧ Clashes (mxClash [9]) [7, 0, 0] ∧ productFault (mxClash [9]) = false)
    ∧ (MatrixIssues (matrixOn id) false ∧ ¬ Clashes (matrixOn id) [7, 0, 0])
    ∧ (MatrixIssues mxWaiting true ∧ MatrixIssues { mxTile with empty := [(0, true)] } false
      ∧ productFault { mxTile with empty := [(0, true)] } = true
      ∧ { mxTile with empty := [(0, true)] }.isEmpty (lineKey 0 0) = true) := by
  unfold MatrixIssues Clashes
  refine ⟨⟨by and_intros <;> decide +kernel, ⟨by decide +kernel, 1, by decide +kernel, by decide +kernel, [9], by decide +kernel, by decide⟩,
    by decide +kernel⟩, ⟨by and_intros <;> decide +kernel, fun h => absurd h.1 (by decide +kernel)⟩, by and_intros <;> decide +kernel⟩

theorem witness_MatrixScaleAndRead_copy :
    ((matrixOn (fun m => { m with copy := some ⟨true, 63, 1⟩ })).core 0).mx.copy = some ⟨true, 63, 1⟩
    ∧ ((matrixOn (fun m => { m with copy := some ⟨false, 62, 2⟩ })).core 0).mx.copy = some ⟨false, 62, 2⟩
    ∧ ((matrixOn id).core 0).frozen = false
    ∧ (((matrixOn (fun m => { m with copy := some ⟨true, 0, 1⟩ })).modCore 0 (fun k => { k with frozen := true })).core 0).frozen = true := by
  and_intros <;> decide +kernel

/-- An atomic stands at the port on the last line. -/
theorem witness_lines_held : (MatrixIssues ((matrixOn id).modCore 0 portBusy) true
      ∧ ((matrixOn id).modCore 0 portBusy).linesHeld 4095 1 = true ∧ ((matrixOn id).modCore 0 portBusy).linesHeld 4031 64 = false)
    ∧ (MatrixIssues (mxTile.modCore 0 portBusy) true ∧ (mxTile.modCore 0 portBusy).linesHeld 4094 2 = true
      ∧ (matrixOn id).linesHeld 0 4096 = false) := by
  unfold MatrixIssues; and_intros <;> decide +kernel

/-- One row's firings: step 1 of an earlier word comes before step 0 of a later one. -/
theorem witness_MatrixPassesAndRowFirings_more :
    ServesStep ((firing.core 0).mx) 127
    ∧ ((aFiring 0).lastLine ≤ 4095 ∧ 4095 < ({ aFiring 0 with a := 63, aline := 2049 }).lastLine
      ∧ 4096 < ({ aFiring 0 with bline := 2049 }).bline + 2 * mPlanes 7 * 127 + 2 * mPlanes 7) := by
  unfold ServesStep
  refine ⟨⟨⟨aFiring 0, ⟨[], [aFiring 63], rfl, by simp⟩, rfl⟩, fun f h => ?_⟩, by and_intros <;> decide +kernel⟩
  obtain ⟨a, b, h, -⟩ := h
  have hf : f ∈ [aFiring 0, aFiring 63] := by
    rw [show [aFiring 0, aFiring 63] = (firing.core 0).mx.todo from rfl, h]; simp
  rcases List.mem_pair.1 hf with rfl | rfl <;> decide

theorem witness_MatrixWordsComplete_more :
    (((draining 7).core 0).mx.copy = none ∧ (draining 7).nameAhead 0 (32 + 0) = true)
    ∧ WordDone (word wProduct []) 0 { id := 0, kind := wProduct }
    ∧ WordDone (word wCoop []) 0 { id := 0, kind := wCoop }
    ∧ ¬ WordDone (word wProduct [aFiring 0]) 0 { id := 0, kind := wProduct } := by
  unfold WordDone; and_intros <;> decide +kernel

/-- The last core, with a word at the last address and a sequencer, or a lane, whose turn it is. -/
def turnOf (t : Turn) (f : Core → Core) : State :=
  { State.reset.setCore 3071 (f { store := [(16383, 0x06F6C800)] }) with agenda := [t] }
def controlTurn : State :=
  turnOf (.issue 3071 .control) (fun k => { k with ctl := { slot := some 0, pc := 16383 } })
def matrixTurn : State := turnOf (.issue 3071 .matrix)
  (fun k => { k with store := [(16383, 0x08000000)], mx := { active := true, pc := 16383 } })
def streamTurn : State := turnOf (.issue 3071 .stream)
  (fun k => { k with store := [(16383, 0x8C000000)], ss := { active := true, pc := 16383 } })
def laneTurn : State := turnOf (.lane 3071 15) (fun k => { k with rowArmed := true, region := { lops := [(15, 0x03120000)] } })
def eventTurn : State := turnOf (.event (.scrub 3071)) id

theorem witness_StepRunsDecodedInstruction :
    (controlTurn.agenda = [.issue 3071 .control] ∧ 3071 < numCores ∧ (controlTurn.core 3071).ctl.slot ≠ none
      ∧ (controlTurn.core 3071).ctl.killed = false ∧ (controlTurn.core 3071).ctl.pc ≤ 16383
      ∧ (controlTurn.core 3071).badWords.contains 16383 = false
      ∧ decodeControl ((controlTurn.core 3071).word 16383) = .ok (.add ⟨5, 1⟩ 27 12 16))
    ∧ (matrixTurn.agenda = [.issue 3071 .matrix] ∧ (matrixTurn.core 3071).mx.active = true
      ∧ (matrixTurn.core 3071).mx.halt = false ∧ (matrixTurn.core 3071).frozen = false
      ∧ (matrixTurn.core 3071).badWords.contains 16383 = false
      ∧ decodeMatrix ((matrixTurn.core 3071).word 16383) = .ok .mza)
    ∧ (streamTurn.agenda = [.issue 3071 .stream] ∧ (streamTurn.core 3071).ss.active = true
      ∧ (streamTurn.core 3071).ss.halt = false ∧ (streamTurn.core 3071).frozen = false
      ∧ (streamTurn.core 3071).badWords.contains 16383 = false
      ∧ decodeStream ((streamTurn.core 3071).word 16383) = .ok .endJoin)
    ∧ (laneTurn.agenda = [.lane 3071 15] ∧ (laneTurn.core 3071).rowArmed = true ∧ (laneTurn.core 3071).frozen = false
      ∧ ((laneTurn.core 3071).lane 15).stopped = false ∧ (laneTurn.core 3071).badCfg = false
      ∧ ((laneTurn.core 3071).lane 15).out = []
      ∧ ({ laneTurn with agenda := [] }.sitLane 3071 15).requested 3071 15 = true
      ∧ (decodeLane (Tbl.get idleLaneWord (laneTurn.core 3071).region.lops 15)).isOk = true
      ∧ decodeLane (Tbl.get idleLaneWord (laneTurn.core 3071).region.lops 15) ≠ .ok none)
    ∧ (eventTurn.agenda = [.event (.scrub 3071)] ∧ (Instr.scrub 3071).kind = Kind.event ∧ (Instr.scrub 3071).wf = true)
    ∧ decodeTableWord 32 0x06F6C800 = some (.add ⟨5, 1⟩ 27 12 16) := by
  and_intros <;> decide +kernel

theorem witness_DecodeInvertsEncode :
    ((Instr.add ⟨5, 1⟩ 27 12 16).wf = true ∧ (Instr.add ⟨5, 1⟩ 27 12 16).kind = .control)
    ∧ (Instr.endJoin.wf = true ∧ Instr.endJoin.kind = .control) ∧ (Instr.mza.wf = true ∧ Instr.mza.kind = .matrix)
    ∧ ((Instr.efadd abc).wf = true ∧ (Instr.efadd abc).kind = .lane)
    ∧ ((Instr.scrub 3071).wf = true ∧ (Instr.scrub 3071).kind = Kind.event) := by
  decide +kernel

theorem witness_StepKeepsMemoryForm : State.reset.MemoryCanonical
    ∧ (match step { State.reset with agenda := [.event (.scrub 3071)] } with | .next _ => true | _ => false) = true := by
  unfold State.MemoryCanonical; decide +kernel

/-- Core 0 with instances; a task entry's channel holds one token. -/
def waiting (st : SlotState) (f : Core → Core) : State := on (f { slots := [(63, { st := st, start := 9, idx := 31 })] })
def triggered : State := on { armed := true, tasks := [(31, { entry := 9, valid := true, vc := 31 })], vcs := [(31, { q := [{ tok := dat 1 }] })] }
def asleep : State := on { slots := [(63, { st := .suspended, saved := some { pc := 9 } })] }
def stopping (w : Work) : State :=
  { on { ctl := { slot := some 63, work := w }, slots := [(63, { st := .running })], preempt := some 0 } with cycle := 4096 }

def waitingOld : State :=
  { on { slots := [(63, { st := .waitOldest, start := 9, idx := 31, oldAt := some 1, stamp := 7 })] } with cycle := 65537 }
/-- Entry 31 is of the ordered domain, which has committed a task with stamp 4. -/
def late : State :=
  { on { tasks := [(31, { ord := true, valid := true })] } with
    launches := [(0, { serial := 0, job := 0, gr := 0, node := 0, part := 0, obj := 0, graph := 0, base := 0, last := some (4, 0, 0) })] }

theorem witness_SchedulerEvents :
    (MayDispatch (waiting .ready id) 0 ∧ (∀ y ∈ (waiting .ready id).here.slots, y.2.saved = none)
      ∧ (least ((waiting .ready id).runnable 0)).map (·.2) = some (.slot 63)
      ∧ (waiting .ready id).here.slots.find 63 = some { st := .ready, start := 9, idx := 31 }
      ∧ ((waiting .ready id).here.task 31).ord = false ∧ (waiting .ready id).here.badTasks.contains 31 = false)
    ∧ (MayDispatch triggered 0 ∧ (∀ y ∈ triggered.here.slots, y.2.saved = none)
      ∧ (least (triggered.runnable 0)).map (·.2) = some (.entry 31) ∧ triggered.here.freeSlot = some 0
      ∧ (triggered.here.vc (triggered.here.task 31).vc.toNat).q = [{ tok := dat 1 }]
      ∧ (triggered.here.task 31).ord = false ∧ triggered.here.badTasks.contains 31 = false)
    ∧ (MayDispatch asleep 0
      ∧ asleep.here.slots.findSome? (fun y => y.2.saved.map (fun a => (y.1, a))) = some (63, { pc := 9 }))
    ∧ ({ waiting .ready id with cycle := 65536 }.here.slots.find 63 = some { st := .ready, start := 9, idx := 31 }
      ∧ (0 : Nat) + 65536 ≤ { waiting .ready id with cycle := 65536 }.cycle)
    ∧ ((waitingOld).here.slots.find 63 = some { st := .waitOldest, start := 9, idx := 31, oldAt := some 1, stamp := 7 }
      ∧ waitingOld.oldest (waitingOld.here.chain 0).launch 0 63 7 = true ∧ 1 + 65536 ≤ waitingOld.cycle)
    ∧ (late.here.badTasks.contains 31 = false ∧ Late late 0 { st := .ready, stamp := 3, idx := 31 } 0)
    ∧ ((triggered.modCore 0 (fun k => { k with badTasks := [31] })).here.badTasks.contains 31 = true)
    ∧ ({ triggered with cycle := 65536 }.here.triggered 31 = some 0
      ∧ { triggered with cycle := 65536 }.here.agedE.contains 31 = false)
    ∧ (waiting (.waitWake .imm) id).wakes 0 { st := .waitWake .imm, start := 9, idx := 31 } .imm = true
    ∧ ((stopping {}).here.preempt = some 0 ∧ 0 + 4096 ≤ (stopping {}).cycle ∧ (stopping {}).here.ctl.slot = some 63
      ∧ (stopping {}).here.slots.find 63 = some { st := .running } ∧ (stopping {}).here.halted = none
      ∧ (stopping { settled := true }).here.ctl.work.settled = true
      ∧ (stopping { ovfl := true }).here.ctl.work.settled = false ∧ (stopping { ovfl := true }).here.ctl.work.outs = []) := by
  unfold MayDispatch Late
  refine ⟨?_, ?_, ?_, ?_, ?_, ⟨?_, ?_, _, (4, 0, 0), rfl, rfl, ?_⟩, ?_⟩ <;> and_intros <;> decide +kernel

/-- Core 0 with one commit. -/
def committing (st : CommitStage) (w : Work) : State := on { commits := [{ id := 5, chain := 2, stage := st, work := w }] }
def unit (x : Chain) : State :=
  { on { chains := [(2, x)] } with launches := [(7, { serial := 0, job := 0, gr := 0, node := 0, part := 0, obj := 0, graph := 0, base := 0 })] }
/-- A commit that keeps slot 63, with or without a continuation; a unit that waits for its faulted forks. -/
def kept (y : Option Slot) : State :=
  on { commits := [{ id := 5, chain := 2, stage := .outs, slot := some 63, cont := y }], slots := [(63, { st := .ended })] }
def rendezvous : State :=
  on { chains := [(2, { status := .faulted })], slots := [(0, { st := .waitWake .rdv, chain := 2 })], mx := { active := true, halt := true, chain := 2 } }
def replying : State := on { owed := [⟨1, 0, .g 31, some 9, false⟩, ⟨2, 0, .q 7, some 1, true⟩] }

theorem witness_CommitsAndUnits_may : CommitMay (committing .waiting {}) 0 { id := 5, chain := 2 }
    ∧ ((committing .waiting {}).modCore 0 portBusy).actsDue 0 0 = true
    ∧ CommitMay (committing .waiting {}) 0 { id := 5, chain := 2, ord := true, launch := 7 } := by
  unfold CommitMay; and_intros <;> decide +kernel

theorem witness_CommitsAndUnits_outs :
    ((committing .outs { outs := [.sendVc 0 31 (dat 1)] }).here.commits[0]?.isSome = true
      ∧ (committing .outs {}).here.vctags.find 31 = none ∧ (committing .outs {}).here.commits[0]?.isSome = true
      ∧ ((committing .outs { outs := [.sendSink 15 (dat 1)] }).here.commits.map (·.work.outs) = [[.sendSink 15 (dat 1)]] ∧ (committing .outs {}).nameAhead 0 47 = true)
      ∧ (committing .outs { outs := [.spawn 63 31 9 7 []] }).here.commits.map (·.work.outs) = [[.spawn 63 31 9 7 []]])
    ∧ ((kept none).here.commits.map (fun m => (m.slot, m.cont)) = [(some 63, none)]
      ∧ (kept (some { st := .waitWake .imm })).here.commits.map (fun m => (m.slot, m.cont))
        = [(some 63, some { st := .waitWake .imm })]) := by
  and_intros <;> decide +kernel

theorem witness_CommitsAndUnits :
    ((committing .waiting {}).here.commits[0]? = some { id := 5, chain := 2 }
      ∧ (committing .waiting {}).fenced 0 0 0 = false ∧ (committing .waiting {}).oldest 0 0 64 0 = true)
    ∧ ((committing .scratch { wbuf := [(7, 1), (2 ^ 19, 2)] }).here.commits[0]?.isSome = true
      ∧ (([(7, 1), (2 ^ 19, 2)] : Tbl Byte).map (·.1)).Nodup
      ∧ (committing .scratch {}).here.commitHeld 0 [(7, 1), (2 ^ 19, 2)] = false
      ∧ (portBusy (committing .scratch {}).here).commitHeld 0 [(0x7FFFF, 1)] = true
      ∧ ∀ y ∈ (committing .scratch {}).here.commits, y.id = 5 → y = { id := 5, chain := 2, stage := .scratch })
    ∧ ((committing .stgs { stgs := [⟨4095, 0, 1⟩] }).here.commits[0]?.isSome = true
      ∧ ((committing .stgs {}).here.chain 2).st ≠ 65535 ∧ (committing .stgs {}).here.lineHeld (4095 + 0) = false
      ∧ (portBusy (committing .stgs {}).here).lineHeld (4095 + 0) = true
      ∧ (committing .stgs {}).here.commits[0]?.map (·.work.stgs) = some [])
    ∧ ((on { commits := [{ id := 5, chain := 2, dead := true }] }).here.commits[0]? = some { id := 5, chain := 2, dead := true })
    ∧ ((unit { ended := true }).here.chains.find 2 = some { ended := true } ∧ (unit {}).here.ctl.slot = none
      ∧ (unit {}).here.mx.active = false ∧ (unit {}).here.ss.active = false ∧ ∀ y ∈ (unit {}).here.commits, y.chain ≠ 2)
    ∧ ((unit { ended := true, status := .faulted, launch := 7 }).here.chains.find 2
        = some { ended := true, status := .faulted, launch := 7 } ∧ ((unit {}).launches.find 7).isSome = true)
    ∧ (rendezvous.here.chains.find 2 = some { status := .faulted } ∧ rendezvous.here.mx.halt = true
      ∧ ∃ y ∈ rendezvous.here.slots, y.2.chain = 2 ∧ y.2.st = .waitWake .rdv)
    ∧ ((replying.modCore 0 (fun k => { k with ctl := { k.ctl with run := 4 }, halted := some {} })).here.ctl.run ≠ 0
      ∧ (replying.modCore 0 (fun k => { k with halted := some {} })).here.halted.any (fun a => a.run == 0) = true)
    ∧ (replying.here.owed[0]? = some ⟨1, 0, .g 31, some 9, false⟩ ∧ replying.here.owed[1]? = some ⟨2, 0, .q 7, some 1, true⟩
      ∧ replying.here.ctl.run = 0)
    ∧ ({ State.reset with cancels := [(4, 0), (0, 3)] }.cancels[1]? = some (0, 3)
      ∧ ({ State.reset with cancels := [(0, 3)] }.part (State.cancelPart State.reset 0 3)).pre = .running
      ∧ ({ State.reset with parts := [(0, { pre := .saved })] }.part (State.cancelPart State.reset 0 3)).pre = .saved) := by
  and_intros <;> decide +kernel

/-- A page of 64 Kibit at address 0 for every die's partition 0, and a core that has tokens. -/
def paged (f : Core → Core) : State :=
  { on (f { bucket := 4 }) with tlb := [⟨0, 0, 0, 0, 0x10000, 0x20000, true, true⟩], cycle := 1 }
def aLdg : Ldg := { id := 4, chain := 2, line := 4095, va := 0xFF80, lines := 1 }
def loading : State := paged (fun k => { k with ldgs := [aLdg] })
def storing : State := paged (fun k => { k with stgs := [⟨4, 2, 0xFF80, List.replicate 128 7, [true], false, 0⟩] })
def atDetent : State := (paged id).modCluster 0 (fun x => { x with
  queue := [{ core := 0, part := 0, op := 0, size := 8, va := 0xFFF8, b := 1 }], hot := [⟨0x3FF, [(127, 1)]⟩] })
def atHome : State := atDetent.modCluster 0 (fun x => { x with hot := [⟨0x5FF, [(127, 1)]⟩] })
def atPort (size off : Nat) (op : BitVec 4) : State :=
  paged (fun k => { k with portq := [{ core := 0, owed := 1, op := op, size := size, off := off, b := 3 }] })
def deposited : State :=
  paged (fun k => { k with deposits := [⟨4, 2, 0x7FFF8, some (9, false), false⟩] })
def ringed : State := paged (fun k => { k with ring0 := [.fset 95 0 4095 true 0], ring1 := [.fset 0 0 0 false 0] })
/-- Tables for address 0 in physical memory: three table entries and a leaf. -/
def mapped : State :=
  { (on {}).modPart 0 (fun x => { x with root := 0x30000 }) with
    mem := [(0x30000, 1), (0x30002, 4), (0x40000, 1), (0x40002, 5), (0x50000, 1), (0x50002, 6), (0x60000, 0xF), (0x60002, 7)]
    waiters := [(1, .detent 0 0), (0, .ldg 0 4)], bstate := 3 }
def fullSlice : State := { mapped with tlb := List.replicate 4096 ⟨0, 0, 1, 0, 0x10000, 0, true, true⟩ }

theorem witness_MemoryTraffic :
    (loading.here.ldgs[0]? = some aLdg ∧ loading.fenced 0 1 0 = false
      ∧ loading.here.lineHeld 4095 = false ∧ (portBusy loading.here).lineHeld 4095 = true
      ∧ firstFault (on {}) 0 0 0xFF80 false 1 = some 0xFF80 ∧ ((on {}).takeTokens 0 128).2 = false
      ∧ firstFault loading 0 0 0xFF80 false 1 = none ∧ (loading.takeTokens 0 128).2 = true
      ∧ lineAddrs loading 0 0 0xFF80 false 1 = [0x2FF80] ∧ aLdg.named.contains 4095 = false
      ∧ { aLdg with named := [4095] }.named.contains 4095 = true ∧ aLdg.got + 1 = aLdg.lines)
    ∧ (storing.here.stgs[0]?.isSome = true ∧ storing.fenced 0 0 0 = false ∧ storing.here.stgs.take 0 = []
      ∧ firstFault storing 0 0 0xFF80 true 1 = none ∧ (storing.takeTokens 0 128).2 = true
      ∧ (stgWrites 0 0 0xFF80 (chunks 128 1 (List.replicate 128 7)) [true] (storing.takeTokens 0 128).1).isSome = true)
    ∧ ((atDetent.cluster 1).queue.find? atDetent.servable = none
      ∧ (atDetent.cluster 0).queue.find? atDetent.servable = some { core := 0, part := 0, op := 0, size := 8, va := 0xFFF8, b := 1 }
      ∧ atDetent.translateRw 0 0 0xFFF8 = some 0x2FFF8 ∧ (atDetent.takeTokens 0 8).2 = true
      ∧ { atDetent with tlb := [] }.translateRw 0 0 0xFFF8 = none
      ∧ ((atDetent.modCore 0 (fun k => { k with bucket := 0 })).takeTokens 0 8).2 = false)
    ∧ ((∀ x ∈ (atHome.clusters), x.1 ≠ 0 → ∀ y ∈ x.2.hot, y.line ≠ 0x2FFF8 / 128)
      ∧ (atHome.cluster 0).hot = [⟨0x5FF, [(127, 1)]⟩] ∧ (0x5FF : Nat) = 0x2FFF8 / 128
      ∧ Tbl.get false atHome.badUnit (0x2FFF8 / 64) = false ∧ (atHome.core 0).holds = [])
    ∧ (deposited.here.deposits[0]? = some ⟨4, 2, 0x7FFF8, some (9, false), false⟩ ∧ 0x7FFF8 % 8 = 0
      ∧ deposited.here.wordHeld 0x7FFF8 8 = false ∧ (portBusy deposited.here).wordHeld 0x7FFF8 8 = true)
    ∧ ((atDetent.cluster 0).hot.find? (fun h => h.line == 0x3FF) = some ⟨0x3FF, [(127, 1)]⟩
      ∧ (([(127, 1)] : Tbl Byte).map (·.1)).Nodup ∧ (∀ y ∈ ([(127, 1)] : Tbl Byte), y.1 < 128)
      ∧ (atDetent.cluster 0).hot.find? (fun h => h.line == 0) = none)
    ∧ ((atPort 8 0x7FFF8 11).here.portq = [{ core := 0, owed := 1, op := 11, size := 8, off := 0x7FFF8, b := 3 }]
      ∧ (atPort 8 0x7FFF8 11).fenced 0 6 0 = false ∧ (atPort 8 0x7FFF8 11).isBad (lineKey 0 4095) = false
      ∧ (atPort 4 0x7FFFC 0).here.portq.length = 1 ∧ 0x7FFFC % 4 = 0)
    ∧ (mapped.cached 0 0 0xFFFF = none ∧ walkFrom mapped 0xFFFF 4 1 (mapped.part 0).root = some (0x70000, 0x10000, true, true)
      ∧ (mapped.tlb.filter (fun t => t.die == 0 && t.slice == 0)).length < 4096
      ∧ (fullSlice.cached 0 0 0xFFFF = none ∧ 4096 ≤ (fullSlice.tlb.filter (fun t => t.die == 0 && t.slice == 0)).length
        ∧ fullSlice.tlb.findIdx? (fun t => t.die == 0 && t.slice == 0) = some 0)
      ∧ (atDetent.cached 0 0 0xFFFF).isSome = true ∧ walkFrom State.reset 0xFFFF 4 1 (State.reset.part 0).root = none)
    ∧ ((mapped.waiters.filter (fun x => x.1 == 0))[0]? = some (0, .ldg 0 4) ∧ mapped.bstate = 3)
    ∧ (ringed.here.ring0 = [.fset 95 0 4095 true 0] ∧ ringed.here.ring1 = [.fset 0 0 0 false 0]) := by
  and_intros <;> decide +kernel

/-- Lane 0 with A and B, and a base: A reaches the core's own scratchpad, a peer's, or global memory. -/
def node (base : Word) (b : Token) : State :=
  (lanes (some (dat 4)) (some b) none id).modCore 0 (fun k => { k with region := { bases := [(0, base)] } })
def inFlight (op : LaneOp) (b : Token) : State :=
  (node 0 b).modCore 0 (fun k => { k with memreqs := [{ lane := 0, op := op, addr := loc 0x7FFFC, b := b }] })

def stalledNode : State :=
  (node 0 bad).modCore 0 (fun k => { k with memreqs := [{ lane := 0, op := .eld, addr := loc 1, stalled := true }] })
/-- An access to global memory in flight, answered or not. -/
def globalAccess (op : LaneOp) (res : Option (W32 × Bool)) : State :=
  paged (fun k => { k with memreqs := [{ lane := 0, op := op, addr := 0xFFFC, res := res }] })

theorem witness_LaneMemoryNodes :
    (NodeHeads (lanes (some (mark 7)) none none id) .eld abc (mark 7) {}
      ∧ NodeHeads (lanes (some (mark 7)) (some (mark 6)) none id) .est abc (mark 7) (mark 6)
      ∧ LaneReady (lanes (some (mark 7)) none none id) true false 7 ∧ (node 0 bad).here.memreqs = []
      ∧ ∃ x ∈ (inFlight .eld {}).here.memreqs, x.lane = 0)
    ∧ (NodeHeads (node (loc 0x7FFF8) (mark 1)) .est abc (dat 4) (mark 1) ∧ ¬ ((dat 4).kind ≠ 0) ∧ (mark 1).kind ≠ 0)
    ∧ (NodeReady (node (loc 0x7FFF8) (dat 2)) .eld abc ∧ NodeReady (node (loc 0x7FFF8) (dat 2)) .ermw abc
      ∧ NodeReady (node (loc 0x7FFF8) bad) .est abc ∧ NodeHeads (node (loc 0x7FFF8) bad) .est abc (dat 4) bad
      ∧ ¬ NodeReady stalledNode .eld abc)
    ∧ NodeReady (lanes (some bad) none none id) .eld abc
    ∧ (placeOf 0 (nodeReq (node (loc 0x7FFF8) (dat 2)) abc .eld (dat 4) {}).addr 4 = .scratch 0 0x7FFFC
      ∧ placeOf 0 (nodeReq (node (peer 95 0x7FFF8) (dat 2)) abc .eld (dat 4) {}).addr 4 = .scratch 95 0x7FFFC
      ∧ placeOf 0 (nodeReq (node 0xFFFFFFFFFFFF8 (dat 2)) abc .eld (dat 4) {}).addr 4 = .global
      ∧ placeOf 0 (nodeReq (node (loc 0x7FFFC) (dat 2)) abc .eld (dat 4) {}).addr 4 = .bad)
    ∧ ((inFlight .eld {}).here.memreqs[0]? = some { lane := 0, op := .eld, addr := loc 0x7FFFC }
      ∧ placeOf 0 (loc 0x7FFFC) 4 = .scratch 0 0x7FFFC ∧ (loc 0x7FFFC).toNat % 4 = 0
      ∧ (inFlight .eld {}).fenced 0 3 0 = false ∧ (inFlight .eld {}).here.wordHeld 0x7FFFC 4 = false
      ∧ (portBusy (inFlight .eld {}).here).wordHeld 0x7FFFC 4 = true ∧ (loc 0x7FFFD).toNat % 4 ≠ 0)
    ∧ ((inFlight .est bad).isBad (lineKey 0 (0x7FFFC / 128)) = false
      ∧ { inFlight .ermw {} with badLine := [(4095, true)] }.isBad (lineKey 0 (0x7FFFC / 128)) = true)
    ∧ ((globalAccess .ermw (some (9, false))).here.memreqs[0]? = some { lane := 0, op := .ermw, addr := 0xFFFC, res := some (9, false) }
      ∧ placeOf 0 0xFFFC 4 = .global
      ∧ (globalAccess .eld none).translateAll 0 0 0xFFFC false 4 ≠ none
      ∧ (on {}).translateAll 0 0 0xFFFC false 4 = none ∧ ((globalAccess .eld none).takeTokens 0 4).2 = true
      ∧ ((globalAccess .eld none).gRead 0 0 0xFFFC 4).isSome = true
      ∧ ((globalAccess .est none).gWrite 0 0 0xFFFC [1, 2, 3, 4] false).isSome = true) := by
  unfold NodeReady NodeHeads LaneReady; and_intros <;> decide +kernel

/-- A command on elements of four bytes in the last line of the scratchpad. -/
def aCmd : Cmd := ⟨.copy, (2 : BitVec 512) <<< 416, 2, 0⟩
def inLine : List (Option Word) := [some (loc 0x7FFFC), none]
def srcRun (items : List Item) : State :=
  on { chains := [(2, { cp := 1 })], ports := [(15, { q := [aCmd], run := some { cmd := aCmd, items := items } })] }
def sinkRun (t : Token) : State := on { ports := [(31, { buf := [t], run := some { cmd := aCmd, items := [.data inLine] } })] }
/-- A circuit from sink port 15 to source port 15 of one core, with its stages, wave tokens and way back. -/
def circuits (f : Circuit → Circuit) (tag : Option RowTag) : State :=
  { on { ports := [(15, { circuit := true, tag := tag }), (31, { buf := [dat 3], circuit := true })] } with
    circuits := [f { launch := 7, core := 0, sink := 15, core2 := 0, src := 15 }]
    launches := [(7, { serial := 7, job := 0, gr := 0, node := 0, part := 0, obj := 3, graph := 0, base := 0 })]
    objects := [{ id := 3, part := 0, sects := [], graphs := [⟨[⟨[], 4, false, 0, 0, 0, [], 0, 0, 0, [], []⟩], []⟩], lgs := [], names := [] }] }
def plainCircuit (st : List (List Flit)) : State := circuits (fun y => { y with stages := st }) none
/-- A launch of a graph with no node. -/
def launched : State :=
  { on {} with
    launches := [(7, { serial := 0, job := 0, gr := 0, node := 0, part := 0, obj := 3, graph := 0, base := 0 })]
    objects := [{ id := 3, part := 0, sects := [], graphs := [⟨[], []⟩], lgs := [], names := [] }] }
def stoodPort : State := (srcRun [.mark 7]).modCore 0 (fun k => { k with frozen := true })

theorem witness_StreamEvents :
    ((on { ports := [(15, { q := [aCmd] })] }).here.port 15 = { q := [aCmd] }
      ∧ (∀ c < 8, (on { ports := [(15, { q := [aCmd] })] }).fenced 0 c 0 = false)
      ∧ (on { frozen := true }).here.frozen = true)
    ∧ ((srcRun [.mark 7]).requested 0 31 = true ∧ (srcRun [.mark 7]).here.portStands { cmd := aCmd } = false
      ∧ ((srcRun [.mark 7]).here.port 15).stalled = false ∧ ((srcRun [.mark 7]).here.port 15).tagStopped = false
      ∧ stoodPort.here.portStands { cmd := aCmd, items := [.mark 7] } = true
      ∧ (srcRun [.mark 7]).here.srcRoom 15 (markTok 7) = true
      ∧ (on { ports := [(15, { buf := List.replicate 512 {} })] }).here.srcRoom 15 (markTok 7) = false)
    ∧ ((srcRun [.data inLine]).here.srcRoom 15 {} = true ∧ Desc.size aCmd.d = 4
      ∧ (inLine.filterMap id).findSome? ((srcRun [.data inLine]).elemFault 0 false 4) = none
      ∧ (([some (loc 0x7FFFD)] : List (Option Word)).filterMap id).findSome? ((srcRun []).elemFault 0 false 4)
        = some (4, loc 0x7FFFD)
      ∧ (∀ y ∈ Item.lines 0 4 (.data inLine), (srcRun [.data inLine]).isEmpty y = false)
      ∧ (inLine.filterMap id).all (fun a => !(srcRun [.data inLine]).elemHeld 0 4 a) = true
      ∧ (portTokens (srcRun [.data inLine]) 0 4 inLine).2 = true
      ∧ (portTokens (srcRun []) 0 4 [some 0]).2 = false
      ∧ Desc.drain aCmd.d = false ∧ Desc.fill aCmd.d = false)
    ∧ ((srcRun []).here.port 15).tag = none
    ∧ ((srcRun []).demand 0 31 = some true ∧ (srcRun []).here.sourceRouted 15 = false)
    ∧ (((sinkRun (mark 7)).here.port 31).buf = [mark 7] ∧ ((sinkRun (mark 7)).here.port 31).stalled = false)
    ∧ (((sinkRun (dat 9)).here.port 31).buf = [dat 9]
      ∧ (inLine.filterMap id).findSome? ((sinkRun (dat 9)).elemFault 0 true 4) = none
      ∧ (inLine.filterMap id).any ((sinkRun (dat 9)).elemHeld 0 4) = false
      ∧ (on (portBusy {})).elemHeld 0 4 (loc 0x7FFFC) = true)
    ∧ ((srcRun []).here.port 15).run = some { cmd := aCmd, items := [] }
    ∧ ((plainCircuit [[], []]).circuits[0]?.isSome = true ∧ (stageOf [[], ([] : List Flit)] 0).length < 2
      ∧ ((plainCircuit [[], []]).here.port 31).buf = [dat 3]
      ∧ (circuits (fun y => { y with names := [0] }) none).circuits[0]?.map (·.names) = some [0]
      ∧ (Tbl.get ({} : Link) { plainCircuit [[]] with links := [(17, { rx := [dat 1] })] }.links 17).rx = [dat 1])
    ∧ ({ plainCircuit [[]] with links := [(17, ({ flits := 2 ^ 40 } : Link))] }.rekeying 17 = true
      ∧ (circuits (fun y => { y with stages := [[]], links := [(0, 17)] }) none).circuits[0]?.bind (fun y => y.link 0) = some 17)
    ∧ (stageOf [[.data (dat 1)], [Flit.data (dat 2)]] 0 = [.data (dat 1)])
    ∧ ((plainCircuit [[.data (dat 1)]]).endRoom { launch := 7, core := 0, sink := 15, core2 := 0, src := 15 } (dat 1) = true
      ∧ (plainCircuit [[]]).endRoom { launch := 7, core := 0, sink := 15, core2 := 0, src := 31, toVc := true } (dat 1) = true
      ∧ (circuits id (some {})).endRoom { launch := 7, core := 0, sink := 15, core2 := 0, src := 15 } (dat 1) = false
      ∧ ((plainCircuit [[]]).vcArrive 0 31 (dat 1)).2 = true)
    ∧ (((plainCircuit [[]]).waveArrive { launch := 7, core := 0, sink := 15, core2 := 0, src := 15 } 5).isSome = true
      ∧ (plainCircuit [[]]).waveArrive { launch := 8, core := 0, sink := 15, core2 := 0, src := 15 } 5 = none)
    ∧ (((plainCircuit [[]]).requestArrive { launch := 7, core := 0, sink := 15, core2 := 0, src := 15 } 0).isSome = true
      ∧ (stageOf [[], ([] : List (BitVec 131))] 0).length < 2)
    ∧ ((circuits (fun y => { y with stages := [[.data (dat 1)]] }) (some {})).circuits.findIdx?
        (fun z => z.core2 == 0 && z.src == 15 && !z.toVc && z.goes.isNone && !z.failed) = some 0
      ∧ ((circuits id (some {})).here.port 15).tag = some {} ∧ ((circuits id (some {})).here.port 15).tagStopped = false
      ∧ (circuits id (some {})).here.srcRoom 15 (dat 1) = true ∧ (circuits id (some {})).nameAhead 0 31 = true
      ∧ ((circuits id (some {})).srcDeliver 0 15 (dat 1)).isSome = true
      ∧ (circuits id (some { disp := some 5 })).srcDeliver 0 15 (dat 1) = none)
    ∧ ((launched.launches.find 7).isSome = true
      ∧ (launched.launches.find 7).bind launched.graphOf = some ⟨[], []⟩) := by
  and_intros <;> decide +kernel

def subbed (fifo : List Update) (f : Core → Core) : State :=
  { State.reset.setCore 3071 (f {}) with
    subs := [{ id := 4, pub := 0, pubLine := 0, pubIdx := 15, sub := 3071, subLine := 4095, subIdx := 15, lines := 1, fill := true, state := 2, fifo := fifo }] }
def anUpdate : Update := .line 0 [(0, 1), (127, 2)] true false 0 true 0

def aSub1 (fifo back : List Update) : Sub :=
  { id := 4, pub := 0, pubLine := 0, pubIdx := 15, sub := 3071, subLine := 4095, subIdx := 15, lines := 1, fill := true
    state := 2, fifo := fifo, backlog := back }

theorem witness_SubscriptionEvents :
    ((subbed [.snapshot (List.replicate 128 7) [true] 0] id).subs.find? (fun v => v.sub == 3071 && v.subIdx == 15)
        = some (aSub1 [.snapshot (List.replicate 128 7) [true] 0] [])
      ∧ AppliesNext (aSub1 [.snapshot (List.replicate 128 7) [true] 0] []) (.snapshot (List.replicate 128 7) [true] 0)
      ∧ (subbed [] id).takesUpdates 3071 = true ∧ (List.replicate 128 (7 : Byte)).length = 128 * 1
      ∧ (subbed [] id).fenced 0 5 0 = false ∧ ((subbed [] id).core 3071).wordHeld (4095 * 128) (1 * 128) = false
      ∧ (subbed [] (fun k => { k with halted := some {} })).takesUpdates 3071 = false)
    ∧ (AppliesNext (aSub1 [] [anUpdate]) anUpdate ∧ ((subbed [] id).core 3071).wordHeld ((4095 + 0) * 128) 128 = false
      ∧ (([(0, 1), (127, 2)] : Tbl Byte).map (·.1)).Nodup ∧ (∀ y ∈ ([(0, 1), (127, 2)] : Tbl Byte), y.1 < 128))
    ∧ AppliesNext (aSub1 [.line 0 [] false false 0 false 0] []) (.line 0 [] false false 0 false 0)
    ∧ (((subbed [anUpdate] (fun k => { k with halted := some {} })).core 3071).halted.isSome = true
      ∧ backlogSize ([] ++ [anUpdate]) ≤ 65536 ∧ ((subbed [anUpdate] id).core 3071).halted.isSome = false
      ∧ ((subbed [anUpdate] id).part ((subbed [anUpdate] id).core 3071).part).pre = .running
      ∧ 65536 < backlogSize (List.replicate 513 anUpdate))
    ∧ ((aSub1 [.mark] []).fifo = .mark :: [] ∧ (aSub1 [.mark] []).backlog = []
      ∧ (aSub1 [.mark] [anUpdate]).backlog = anUpdate :: [])
    ∧ ({ State.reset with reds := [⟨1, 8, .fp32, false, 3, false⟩, ⟨1, 8, .fp32, false, 4, true⟩] }.reds[0]?
        = some ⟨1, 8, .fp32, false, 3, false⟩
      ∧ { State.reset with reds := [⟨1, 8, .fp32, false, 3, false⟩, ⟨1, 8, .int, true, 4, true⟩] }.reds[1]?
        = some ⟨1, 8, .int, true, 4, true⟩) := by
  unfold AppliesNext; and_intros <;> decide +kernel

/-- A graph of a source, a lane that retains its output, and a sink, in a row; and a launch of it. -/
def gport (out retain : Bool) (rank : Nat) : GPort := ⟨0, out, 0, 0, rank, retain, none, none, false⟩
def gnode (kind : Nat) (vol : Bool) (ports : List GPort) : GNode := ⟨[], kind, vol, 0, 0, 0, ports, 0, 0, 0x03120000, [], []⟩
def source0 : GNode := gnode 3 false [gport true false 0]
def sink0 : GNode := gnode 4 false [gport false false 0]
def laneNode (rank : Nat) : GNode := gnode 1 false [gport false false 0, gport true true rank]
def graph3 (vol : Bool) (rank : Nat) : GGraph :=
  ⟨[source0, { laneNode rank with vol := vol }, sink0], [⟨0, 0, 1, 0, false⟩, ⟨1, 0, 2, 0, false⟩]⟩
/-- Two sources, one of them the control of a steer or merge, whose control port may be declared multiple. -/
def control3 : GPort := { gport false false 0 with num := 3 }
def steer (eop : W32) (multi : Bool) : GNode :=
  { gnode 1 false [gport false false 0, { control3 with multi := multi }, gport true false 0] with word := eop <<< 24 }
def graphC (eop : W32) (multi : Bool) : GGraph :=
  ⟨[source0, source0, steer eop multi, sink0], [⟨0, 0, 2, 0, false⟩, ⟨1, 0, 2, 3, true⟩, ⟨2, 0, 3, 0, false⟩]⟩
/-- The lane's output takes its shape word from the source. -/
def shapedNode : GNode := gnode 1 false [gport false false 0, { gport true true 1 with shape := some (1, 5) }]
def graphS : GGraph :=
  ⟨[source0, shapedNode, sink0], [⟨0, 0, 1, 0, false⟩, ⟨0, 0, 1, 5, false⟩, ⟨1, 0, 2, 0, false⟩]⟩
def aLaunch (objs : List Obj) : Launch :=
  { serial := 7, job := 8, gr := 6, node := 0, part := 0, obj := 3, graph := 0, base := 0, objs := objs }
def aJob : Job := { id := 8, q := 1023, part := 0, obj := 3, cpl := 0x8000000000001000, names := [5], phases := [[0]] }
def waved (g : GGraph) (objs : List Obj) : State :=
  { paged (fun k => { k with launch := 7 }) with
    parts := [(0, { clusters := [0] })], launches := [(7, aLaunch objs)], jobs := [(8, aJob)]
    objects := [{ id := 3, part := 0, sects := [], graphs := [g], lgs := [], names := [(0, 0, 0)] }] }
def named0 : Obj := { node := 0, port := 0, name := .named 5 }
def ctl1 : Obj := { node := 1, port := 0, name := .named 9, toks := [dat 1] }
def lane1 (x : Obj → Obj) : Obj := x { node := 1, port := 0, name := .named 6 }
def anEntry : Entry := { name := 6, va := 0xFFF8, length := 8 }
/-- The domain's table of 8 entries and its index lie at 0x80000; one entry is stored. -/
def aDomain : DomainCfg := { key := [], hashKey := 0, tbase := 0x80000, t := 3, heapBase := 0, heapSize := 0x10000 }
def stored (e : Entry) (st : State) : State :=
  { st.modPart 0 (fun p => { p with dom := { cfg := some aDomain } }) with mem := Memory.writes st.mem 0x80000 e.bytes }
def asking (op : NameOp) (bad : Bool) : State :=
  stored anEntry ((waved (graph3 false 0) []).modPart 0 (fun p => { p with nreqs := [{ core := 0, op := op, name := 6, bad := bad }] }))
/-- The control object of the steer, served from the store, with this many bytes. -/
def ctlStored (n : W32) : Obj := { ctl1 with anchor := some { anEntry with length := n } }

theorem witness_NamesAndWave_naming :
    State.reset.waveAt 7 0 = none
    ∧ (((waved (graph3 false 0) []).waveAt 7 0).isSome = true ∧ (graph3 false 0).kind 0 ≠ 4 ∧ (graph3 false 0).kind 2 = 4
      ∧ (∃ p ∈ source0.ports, p.out = true ∧ p.num = 0)
      ∧ nextPlace (graph3 false 0) 0 source0 0 [] = some (0, []) ∧ nextPlace (graph3 false 0) 0 source0 0 [named0] = none)
    ∧ (controlObj (graphC 0x41 false) (aLaunch [ctlStored 8]) 2 0 [] = some (ctlStored 8) ∧ (8 : W32) ≠ 4
      ∧ controlObj (graphC 0x41 false) (aLaunch [ctlStored 4]) 2 0 [] = some (ctlStored 4)
      ∧ controlObj (graph3 false 0) (aLaunch []) 0 0 [] = none)
    ∧ (prevName [] 1 0 0 = some 0 ∧ (laneNode 0).kind ≠ 3
      ∧ inNames (graph3 false 0) (aLaunch [{ named0 with name := .void }]) 1 0 [] = [.void]
      ∧ inNames (graph3 false 0) (aLaunch []) 1 0 [] = [.unknown]
      ∧ inNames (graph3 false 0) (aLaunch [{ named0 with name := .poison }]) 1 0 [] = [.poison]
      ∧ inNames (graph3 false 0) (aLaunch [named0]) 1 0 [] = [.named 5]
      ∧ (graph3 false 0).edges.find? (fun e => e.dst == 1 && e.ctl) = none)
    ∧ ((graphC 0x41 true).edges.find? (fun e => e.dst == 2 && e.ctl) = some ⟨1, 0, 2, 3, true⟩
      ∧ (graphC 0x41 true).control 2 = none ∧ (graphC 0x41 false).control 2 ≠ none
      ∧ inNames (graphC 0x41 true) (aLaunch [named0, ctl1]) 2 0 [] = [.named 5]
      ∧ inputObj (graphC 0x41 true) [named0, ctl1] ⟨1, 0, 2, 3, true⟩ 0 [] = some ctl1
      ∧ (graphC 0x41 false).nodes[1]? = some source0 ∧ ctl1.settled source0 = true
      ∧ ({ ctl1 with name := .open_ } : Obj).settled source0 = false)
    ∧ ((waved (graphC 0x41 false) []).ctlToken 0 0 0 ctl1 = some (dat 1)
      ∧ (waved (graphC 0x41 false) []).ctlToken 0 0 0 { ctl1 with toks := [] } = none
      ∧ (waved (graphC 0x41 false) []).ctlToken 0 0 0 { ctl1 with toks := [bad] } = some bad
      ∧ (waved (graphC 0x41 false) []).ctlToken 0 0 0 (ctlStored 4) = some (dat 0)
      ∧ laneEop (steer 0x41 false) ≠ 0x42 ∧ (isSteer (steer 0x42 false) && laneEop (steer 0x42 false) == 0x42) = true)
    ∧ (prevName [lane1 (fun o => { o with name := .open_ })] 1 0 1 = none ∧ prevName [lane1 id] 1 0 1 = some 6)
    ∧ (source0.kind = 3 ∧ (graph3 false 0).crossing 0 = none ∧ ({ source0 with vol := true } : GNode).vol = true)
    ∧ ((waved (graph3 false 0) []).shapeTok (aLaunch []) (graph3 false 0) 1 (laneNode 0) 0 0 [] = none
      ∧ (waved graphS []).shapeTok (aLaunch []) graphS 1 shapedNode 0 0 [] = some none
      ∧ (waved graphS []).shapeTok (aLaunch [{ named0 with toks := [dat 3] }]) graphS 1 shapedNode 0 0 [] = some (some (dat 3)))
    ∧ ((waved (graph3 false 0) []).nameOf (aLaunch []) (graph3 false 0) 0 source0 0 0 [] = .named 5
      ∧ (waved (graph3 false 0) []).nameOf (aLaunch []) (graph3 false 0) 1 (laneNode 0) 0 0 [] = .unknown) := by
  and_intros <;> decide +kernel

/-- What an object is once its name has been looked up and found, or missed; a graph whose sink feeds a circuit to a
source on another core; and one with a lane before that sink. -/
def served (o : Obj) : Obj := { o with asked := true, looked := true, anchor := some anEntry }
def whole1 : Obj := lane1 (fun o => { o with asked := true, looked := true, closed := true, toks := [dat 1] })
def farGraph : GGraph := ⟨[sink0, { source0 with core := 1 }], [⟨0, 0, 1, 0, false⟩]⟩
def feedGraph : GGraph :=
  ⟨[source0, laneNode 0, sink0, { source0 with core := 1 }], [⟨0, 0, 1, 0, false⟩, ⟨1, 0, 2, 0, false⟩, ⟨2, 0, 3, 0, false⟩]⟩
def anAlias : Entry := { name := 8, fp := 6, kind := 2 }

theorem witness_NamesAndWave_lookup :
    ((∀ o ∈ objsOf [] 1 0, o.looked = true ∨ o.known = false)
      ∧ (objsOf [lane1 id] 1 0).find? (fun o => !o.looked && o.known) = some (lane1 id)
      ∧ memoisable { laneNode 0 with vol := true } 0 = false ∧ memoisable (laneNode 0) 0 = true
      ∧ ((waved (graph3 false 0) []).lookup 0 0 6).2 = none
      ∧ ((stored anEntry (waved (graph3 false 0) [])).lookup 0 0 6).2 = some anEntry
      ∧ (stored anEntry (waved (graph3 false 0) [])).entry 0 6 = some anEntry ∧ anEntry.kind ≠ 2)
    ∧ ((lane1 (fun o => { o with name := .open_ })).name = .open_ ∧ (lane1 id).settled (laneNode 0) = false
      ∧ (lane1 (fun o => { o with looked := true })).settled (laneNode 0) = true
      ∧ (lane1 (fun o => { o with looked := true, asked := true })).anchor = none)
    ∧ ((waved (graph3 false 0) [lane1 id]).waveAt 7 2 = some (aLaunch [lane1 id], graph3 false 0, sink0)
      ∧ (graph3 false 0).into 2 = [⟨1, 0, 2, 0, false⟩] ∧ (graph3 false 0).fromEnd 2 = false ∧ farGraph.fromEnd 0 = true
      ∧ (graph3 false 0).into 1 = [⟨0, 0, 1, 0, false⟩])
    ∧ (openObj 0 ((graph3 false 0).inLoop 1) ([lane1 served].filter (fun o => !o.served)) = some (lane1 served)
      ∧ (waved (graph3 false 0) []).nodeCore (aLaunch []) (laneNode 0) = some 0
      ∧ (¬ ∃ x ∈ [lane1 served], x.beside (laneNode 0) (lane1 served) = true ∧ x.wanted (laneNode 0) = true)
      ∧ shapeKinds anEntry.shape (anEntry.length.toNat / 4) = [none, none]
      ∧ (shapeKinds 1 1)[1]? = some (some 1) ∧ (shapeKinds 0 2)[2]? = none
      ∧ ((waved (graph3 false 0) []).core 0).outRoom (outOf (laneNode 0) 0) {} = true
      ∧ (((waved (graph3 false 0) []).gRead 0 0 0xFFF8 4).map (·.2)) = some ([0, 0, 0, 0], false)
      ∧ rankOf (laneNode 1) 0 ≠ 0 ∧ rankOf (laneNode 0) 0 = 0)
    ∧ ((waved (graph3 false 1) []).due (aLaunch [whole1]) (graph3 false 1) (laneNode 1) whole1 = true
      ∧ (objsOf [lane1 id] 1 0).find? ((waved (graph3 false 1) []).due (aLaunch []) (graph3 false 1) (laneNode 1)) = none
      ∧ (laneNode 1).ports.find? (fun p => p.out && p.num == 0) = some (gport true true 1)
      ∧ followsShape 1 0 [dat 1] = true ∧ (∃ t ∈ [bad], t.kind = 0 ∧ t.poison = true) ∧ followsShape 0 1 [dat 1] = false)
    ∧ ((graph3 false 0).edges.filter (fun e => e.src == 0 && e.sport == 0 && (graph3 false 0).fromEnd e.dst) = []
      ∧ feedGraph.edges.filter (fun e => e.src == 1 && e.sport == 0 && feedGraph.fromEnd e.dst) = [⟨1, 0, 2, 0, false⟩])
    ∧ ((lane1 id).asked = false ∧ (lane1 id).name ≠ .unknown ∧ (lane1 id).name ≠ .void ∧ farGraph.kind 0 = 4) := by
  and_intros <;> decide +kernel

theorem witness_NamesAndWave_engine :
    (((asking (.look 64) false).part 0).nreqs[0]? = some { core := 0, op := .look 64, name := 6 }
      ∧ (asking (.look 64) false).fenced 0 1 0 = false ∧ ((asking (.look 64) false).lookup 0 0 6).2 = some anEntry
      ∧ ((asking (.look 64) false).core 0).wordHeld 64 64 = false ∧ 64 % 64 = 0
      ∧ (portBusy {}).wordHeld 0x7FFC0 64 = true)
    ∧ ((asking (.ins []) true).part 0).nreqs[0]? = some { core := 0, op := .ins [], name := 6, bad := true }
    ∧ (Entry.malformed (Entry.ofBytes (List.replicate 64 0)) = true ∧ Entry.malformed (Entry.ofBytes anEntry.bytes) = false
      ∧ (Entry.ofBytes anEntry.bytes).1 = anEntry ∧ Entry.malformed (Entry.ofBytes anAlias.bytes) = false
      ∧ (asking (.ins []) false).entry 0 8 = none ∧ (asking (.ins []) false).entry 0 6 = some anEntry
      ∧ (asking (.ins []) false).entry 0 9 = none ∧ anAlias.kind = 2 ∧ anAlias.fp = 6
      ∧ (asking (.ins []) false).room 0 anAlias = true ∧ (waved (graph3 false 0) []).room 0 anAlias = false
      ∧ ((asking (.ins []) false).content 0 0 { anEntry with name := 8 }).isSome = true
      ∧ ((on {}).content 0 0 anEntry) = none)
    ∧ ((asking .evict false).entry 0 6 = some anEntry ∧ (asking .evict false).held 0 6 = false
      ∧ { asking .evict false with holds := [(7, 0, 6)] }.held 0 6 = true)
    ∧ ((({ waved (graph3 false 0) [] with holds := [(9, 0, 6), (7, 0, 6)] } : State).holds.filter (fun h => h.2.1 == 0))[0]? = some (9, 0, 6)
      ∧ (waved (graph3 false 0) []).launches.find 9 = none
      ∧ (waved (graph3 false 0) [lane1 served]).launches.find 7 = some (aLaunch [lane1 served])
      ∧ (lane1 served).served = false ∧ (lane1 served).anchor = some anEntry) := by
  and_intros <;> decide +kernel

/-- A launch graph of one job, whose node 0 has a kind and a state; the dispatch port has granted it. Die 4's translation
is the Regulator's. -/
def aNode (st : NodeState) (kind : Nat) : Node := { kind := kind, npred := 0, succ := [], alt := [], arg0 := 0xFFF8, arg1 := 0xFF00, arg2 := 1, st := st }
def aGraph (st : NodeState) (kind : Nat) : Graph := { job := 8, phase := 0, order := 0, obj := 3, lg := 0, loaded := true, nodes := [aNode st kind] }
def withNode (st : NodeState) (kind : Nat) : State :=
  { waved (graph3 false 0) [] with
    launches := [], graphs := [(6, aGraph st kind)], grant := some (.node 1023 6 0), bstate := 3
    tlb := [⟨4, 0, 0, 0, 0x10000, 0x20000, true, true⟩] }

/-- A queue's command block at the place that the queue gives: a run of no graph is malformed, a cancel is not. -/
def aQueue (f : Queue → Queue) : State :=
  setQueue { State.reset with dial := 4096, mem := [(hostKey 4 + 2 ^ 12, 2), (hostKey 6 + 2 ^ 12, 1)], bstate := 3 } 1023
    (f { base := 0x1000, en := true, tail := 1, active := true })
def aCommand (op : Nat) (ok : Bool) : Command := { op := op, tickets := 1, job := 8, cpl := 0x8000000000001000, ok := ok, obj := 3 }
def withCommand (c : Command) (jobs : Tbl Job) : State :=
  { aQueue (fun x => { x with cmd := some c }) with
    jobs := jobs, objects := [{ id := 3, part := 0, sects := [], graphs := [], lgs := [], names := [] }] }
def stillLoading : State :=
  { withCommand (aCommand 1 true) [] with
    objects := [{ id := 3, part := 0, sects := [], graphs := [], lgs := [], names := [], pending := [⟨0, 0, false, 0, 0, 0, [], 0⟩] }] }

theorem witness_WorkQueues :
    (12 < (0x340 : BitVec 256).toNat / 64 % 16 ∧ (2 : BitVec 256).toNat / 2 % 32 ≠ 0 ∧ (0x10000 : BitVec 256).toNat / 65536 % 2 ^ 80 ≠ 0
      ∧ (0x301 : BitVec 256).toNat / 64 % 16 ≤ 12 ∧ (0x301 : BitVec 256).toNat / 2 % 32 = 0
      ∧ (0x301 : BitVec 256).toNat / 65536 % 2 ^ 80 = 0 ∧ (aQueue id).bstate = 3 ∧ State.reset.bstate ≠ 3)
    ∧ ((queueAt State.reset 1023).en = false ∧ (queueAt (aQueue id) 1023).en = true ∧ (queueAt (aQueue id) 1023).capacity = 16
      ∧ ((16 : W32) - (queueAt (aQueue id) 1023).head).toNat ≤ 16 ∧ 16 < ((17 : W32) - (queueAt (aQueue id) 1023).head).toNat)
    ∧ ((aQueue id).grant = none ∧ (∀ z ∈ (aQueue id).queues, z.1 = 1023 ∧ z.2.active = true ∧ z.2.since < (aQueue id).dial)
      ∧ (aQueue id).dispatchable 1023 = true ∧ (aQueue id).queueNode 1023 = none ∧ State.reset.queues = [])
    ∧ ((withNode .ready 1).queueNode 1023 = some (6, 0) ∧ (withNode .ready 1).grant ≠ none)
    ∧ ({ aQueue id with grant := some (.command 1023) }.grant = some (.command 1023)
      ∧ ((aQueue id).readRing (queueAt (aQueue id) 1023) 0).2.2 = false
      ∧ field ((aQueue id).readRing (queueAt (aQueue id) 1023) 0).2.1 0 4 = (queueAt (aQueue id) 1023).seq.toNat
      ∧ field ((aQueue id).readRing (queueAt (aQueue id) 1023) 0).2.1 0 4 ≠ (queueAt (aQueue (fun x => { x with seq := 1 })) 1023).seq.toNat)
    ∧ ((queueAt (aQueue (fun x => { x with tries := 8, due := 4096 })) 1023).tries ≠ 0
      ∧ (queueAt (aQueue (fun x => { x with tries := 8, due := 4096 })) 1023).torn = false
      ∧ (queueAt (aQueue (fun x => { x with tries := 8, due := 4096 })) 1023).due ≤ (aQueue id).dial
      ∧ (queueAt (aQueue (fun x => { x with tries := 9 })) 1023).tries = 9 ∧ ((aQueue id).part 0).pre = .running)
    ∧ ((queueAt (withCommand (aCommand 1 true) []) 1023).cmd = some (aCommand 1 true)
      ∧ ((withCommand (aCommand 1 true) []).part 0).rep = none ∧ (withCommand (aCommand 1 true) []).liveJob 0 8 = none
      ∧ ((withCommand (aCommand 1 true) []).object 3).isSome = true
      ∧ (¬ ∃ o, (withCommand (aCommand 1 true) []).object 3 = some o ∧ o.pending ≠ [])
      ∧ (stillLoading.object 3).any (fun o => !o.pending.isEmpty) = true ∧ State.reset.object 3 = none)
    ∧ ((aCommand 1 false).cpl.getLsbD 63 = true ∧ (0xFFE0 : Word).getLsbD 63 = false
      ∧ ((withNode .ready 1).regWrite 0 0xFFE0 (completionBytes 8 0 0 0) false).isSome = true
      ∧ State.reset.regWrite 0 0xFFE0 (completionBytes 8 0 0 0) false = none)
    ∧ (withCommand (aCommand 2 true) [(5, aJob)]).liveJob 0 8 = some (5, aJob)
    ∧ ((({ waved (graph3 false 0) [] with dial := 1024 } : State).parts.flatMap (fun y => (y.2.clusters.filter (· < 32)).flatMap
        (fun cl => (List.range 96).map (cl * 96 + ·)))).Nodup
      ∧ ((waved (graph3 false 0) []).refill + 1) * 1024 ≤ 1024) := by
  refine ⟨?_, ?_, ?_, ?_, ?_, ?_, ⟨?_, ?_, ?_, ?_, ?_, ?_⟩, ?_⟩
  case refine_11 => rintro ⟨o, h, hp⟩; cases h; exact hp rfl
  all_goals and_intros <;> decide +kernel

/-- The launch graph with other nodes, and node 0 given up to a fault or a cancel, or to none. -/
def withNodes (l : List Node) : State :=
  { withNode .ready 1 with graphs := [(6, { aGraph .ready 1 with nodes := l })] }
def predicated (a : Word) (badWord : Bool) (mapped : Bool) : State :=
  { withNodes [{ aNode .running 4 with arg0 := a }] with
    badUnit := if badWord then [(0x2FFF8 / 64, true)] else [], tlb := if mapped then [⟨4, 0, 0, 0, 0x10000, 0x20000, true, true⟩] else [] }

theorem witness_LaunchGraphNodes :
    ((Granted (withNode .ready 1) 6 0 1 (aGraph .ready 1) (aNode .ready 1) aJob
        ∧ ((withNode .ready 1).object 3).isSome = true)
      ∧ (withNodes [{ aNode .ready 1 with arg0 := 0, arg1 := 0 }]).launchCores (aGraph .ready 1) 0
          { aNode .ready 1 with arg0 := 0, arg1 := 0 } = some [0]
      ∧ (withNode .ready 1).launchCores (aGraph .ready 1) 0 (aNode .ready 1) = none)
    ∧ Granted (withNode .ready 2) 6 0 2 (aGraph .ready 2) (aNode .ready 2) aJob
    ∧ Granted (withNode .ready 3) 6 0 3 (aGraph .ready 3) (aNode .ready 3) aJob
    ∧ Granted (withNode .ready 4) 6 0 4 (aGraph .ready 4) (aNode .ready 4) aJob
    ∧ Granted (withNode .ready 5) 6 0 5 (aGraph .ready 5) (aNode .ready 5) aJob
    ∧ Granted (withNode .ready 6) 6 0 6 (aGraph .ready 6) (aNode .ready 6) aJob
    ∧ ((0xFFF9 : Word).toNat % 8 ≠ 0 ∧ (0x10000 : Word).toNat % 8 = 0 ∧ (predicated 0x10000 false true).regRead 0 0x10000 8 = none
      ∧ ((predicated 0xFFF8 true true).regRead 0 0xFFF8 8).map (·.2.2) = some true
      ∧ ((predicated 0xFFF8 false true).regRead 0 0xFFF8 8).map (·.2) = some (List.replicate 8 0, false))
    ∧ ((withNode .running 2).graphs.find 6 = some (aGraph .running 2) ∧ (aGraph .running 2).nodes[0]? = some (aNode .running 2)
      ∧ (withNode .running 2).jobs.find 8 = some aJob ∧ (withNode .running 2).firstBad 0 0x10000 1 false = some 0x10000
      ∧ (withNode .running 2).firstBad 0 0xFFF8 1 false = none ∧ (withNode .running 2).firstBad 0 0x10000 1 true = some 0x10000
      ∧ (withNode .running 2).firstBad 0 0xFF00 1 true = none)
    ∧ ((withNode .running 4).graphs.find 6 = some (aGraph .running 4) ∧ (aGraph .running 4).status = none
      ∧ ∀ y ∈ (aGraph .running 4).nodes, y.encl = 0 + 1 → y.passed = true)
    ∧ ((aNode (.ended .done) 2).passed = false ∧ (aNode .skipped 2).st = .skipped ∧ (aNode (.ended .faulted) 2).st = .ended .faulted
      ∧ (aNode (.ended .cancelled) 2).st = .ended .cancelled) := by
  unfold Granted
  refine ⟨⟨⟨⟨⟨1023, by decide +kernel⟩, ?_⟩, ?_⟩, ?_⟩, ⟨⟨1023, by decide +kernel⟩, ?_⟩, ⟨⟨1023, by decide +kernel⟩, ?_⟩,
    ⟨⟨1023, by decide +kernel⟩, ?_⟩, ⟨⟨1023, by decide +kernel⟩, ?_⟩, ⟨⟨1023, by decide +kernel⟩, ?_⟩, ?_⟩ <;> decide +kernel

/-- A launch that is cancelled and has no unit left; a job at the end of its phase; and a replica copy. -/
def cancelled : State := { waved (graph3 false 0) [] with launches := [(7, { aLaunch [] with cancel := true })] }
def ending (j : Job) (r : Option RepRun) : State :=
  { withNode .ready 6 with
    jobs := [(8, j)], graphs := [(6, { aGraph .ready 6 with status := some .done })]
    parts := [(0, { clusters := [0], rep := r, reserve := [(0, (0, 95, 1, 0))] })]
    copies := [⟨0, 9, 0, 5⟩], replicas := [(0, ⟨0, 9, 0, 0, 0, 1, 1⟩)] }
def aRun : RepRun := { job := 8, todo := [], sums := [], did := [] }

/-- A launch that is over, recorded or not, at Dial value 5, and one of the same partition that ended before it. -/
def endedLaunch (noted : Bool) : State :=
  { waved (graph3 false 0) [] with
    dial := 6, launches := [(7, { aLaunch [] with status := some .done, dial1 := 5, noted := noted })] }
def overAfter : State :=
  { endedLaunch false with launches := (endedLaunch false).launches ++ [(9, { aLaunch [] with serial := 9, status := some .done, dial1 := 4 })] }
def subsOf (s : State) : State := { s with subs := [{ aSub 0 with launch := 7 }] }

theorem witness_JobsAndPhases :
    (cancelled.launches.find 7 = some { aLaunch [] with cancel := true } ∧ ({ aLaunch [] with cancel := true } : Launch).status = none
      ∧ cancelled.launchOver { aLaunch [] with cancel := true } = true ∧ cancelled.subsStand (aLaunch []) = false
      ∧ (waved (graph3 false 0) []).launchOver { aLaunch [] with swept := true } = true ∧ (waved (graph3 false 0) []).launchOver (aLaunch []) = false
      ∧ (subsOf cancelled).subsStand (aLaunch []) = true)
    ∧ ((endedLaunch false).launches.find 7 = some { aLaunch [] with status := some .done, dial1 := 5 }
      ∧ ¬ ((endedLaunch false).dial ≤ 5) ∧ (∀ y ∈ (endedLaunch false).launches, ¬ y.2.dial1 < 5 ∧ ¬ (endedLaunch false).homeSrc y.2 < (endedLaunch false).homeSrc (aLaunch []))
      ∧ (∃ y ∈ overAfter.launches, y.2.part = 0 ∧ y.2.status ≠ none ∧ y.2.noted = false ∧ y.2.dial1 < 5)
      ∧ (endedLaunch true).launches.find 7 = some { aLaunch [] with status := some .done, dial1 := 5, noted := true })
    ∧ (((endedLaunch false).part 0).nrec + 1) % 256 ≠ 0
    ∧ ((((endedLaunch false).modPart 0 (fun p => { p with nrec := 255 })).part 0).nrec + 1) % 256 = 0
    ∧ ((ending { aJob with phases := [[0], [0]] } none).jobs.find 8 = some { aJob with phases := [[0], [0]] }
      ∧ (∀ x ∈ (ending { aJob with phases := [[0], [0]] } none).phaseGraphs 8, x.2.status ≠ none)
      ∧ (ending aJob none).phaseGraphs 8 ≠ [] ∧ ((ending aJob none).part 0).rep = none ∧ ((ending aJob none).part 0).pre = .running
      ∧ ({ aJob with phases := [[0], [0]] } : Job).phase + 1 < ({ aJob with phases := [[0], [0]] } : Job).phases.length)
    ∧ (aJob.phases.length ≤ aJob.phase + 1 ∧ aJob.status = none ∧ aJob.fault = false ∧ aJob.cancel = false)
    ∧ ((((ending aJob none).modPart 0 (fun p => { p with detNext := some true })).part 0).detNext = some true
      ∧ (((ending aJob none).modPart 0 (fun p => { p with pendRep := [⟨0, 9, 0, 0, 0, 1, 1⟩] })).part 0).pendRep = [⟨0, 9, 0, 0, 0, 1, 1⟩])
    ∧ ((ending aJob (some aRun)).copies.find? (fun c => c.part == 0) = some ⟨0, 9, 0, 5⟩
      ∧ ((ending aJob (some aRun)).part 0).rep = some aRun
      ∧ (ending aJob (some aRun)).replicas.find? (fun x => x.2.part == 0 && x.2.expert == 9 && x.2.state == 1)
          = some (0, ⟨0, 9, 0, 0, 0, 1, 1⟩)
      ∧ ((ending aJob (some aRun)).part 0).reserve.find 0 = some (0, 95, 1, 0) ∧ (ending aJob (some aRun)).freeReplica = some 1
      ∧ (1 : Nat) ≤ 1) := by
  and_intros <;> decide +kernel

/-- The lines of an expert are the implementation's (notes/assumptions/13.md); where it has room for them, a copy completes. -/
theorem witness_JobsAndPhases_lines (h : Config.expertLines 0 9 ≤ 4096) :
    (ending aJob (some aRun)).replicaLine 0 0 0 + Config.expertLines 0 9 ≤ 4096 ∧ 0 + Config.expertLines 0 9 ≤ 4096 := by
  have : (ending aJob (some aRun)).replicaLine 0 0 0 = 0 := by decide +kernel
  omega

/-- A partition of clusters 0 and 31 at a stage of a pre-emption. -/
def preempting (st : PreState) (f : Part → Part) (k : Core) : State :=
  { on k with parts := [(0, f { clusters := [0, 31], pre := st, shape := [0, 3] })] }
def parkedPart : State :=
  { State.reset with parts := [(0, { clusters := [parkedCluster 0 0, parkedCluster 0 1], pre := .saved, shape := [0, 3], resumeRq := some [31, 0] })] }

theorem witness_PreemptionAndResume :
    (((preempting .running id {}).part 0).pre = .running ∧ ((preempting .quiet id {}).part 0).pre ≠ .running)
    ∧ (((preempting .stopping id {}).part 0).pre = .stopping ∧ (preempting .stopping id {}).coreQuiet 0 = true
      ∧ 0 ∈ (preempting .stopping id {}).partCores 0
      ∧ (preempting .stopping id { ctl := { slot := some 0 } }).coreQuiet 0 = false)
    ∧ (∀ c ∈ ({ State.reset with parts := [(0, { pre := .stopping })] }).partCores 0,
        State.coreQuiet { State.reset with parts := [(0, { pre := .stopping })] } c = true)
    ∧ ((State.reset.core 0).firmware = false ∧ ((on { ctl := { slot := some 0 } }).core 0).ctl.slot ≠ none
      ∧ ((on { halted := some {} }).core 0).halted ≠ none ∧ ((on { mx := { pass := [aFiring 0] } }).core 0).mx.pass ≠ []
      ∧ (srcRun []).midLine 0 15 { run := some { cmd := aCmd, items := [.data inLine], last := some (lineOf (loc 0x7FFFC)) } } = true)
    ∧ (((preempting .quiet id {}).part 0).clusters[1]? = some 31 ∧ ((preempting .saving id {}).part 0).clusters[0]? = some 0
      ∧ ((preempting .quiet id {}).cores.map (·.1)).Nodup
      ∧ ∀ x ∈ (preempting .quiet id {}).cores, clusterOf x.1 ≠ parkedCluster 0 1)
    ∧ ((parkedPart.part 0).resumeRq = some [31, 0] ∧ (parkedPart.part 0).pre = .saved
      ∧ sameShape (parkedPart.part 0).shape [31, 0] = true ∧ (∀ x ∈ [31, 0], x < 32) ∧ ([31, 0] : List Nat).Nodup
      ∧ sameShape (parkedPart.part 0).shape [0, 1] = false ∧ ¬ ([0, 0] : List Nat).Nodup
      ∧ parkedCluster 0 0 * 96 ∈ parkedPart.partCores 0 ∧ (∀ c ∈ parkedPart.partCores 0, (parkedPart.core c).owed = [])
      ∧ ((parkedPart.setCore (parkedCluster 0 0 * 96) { owed := [⟨1, 0, .g 1, none, true⟩] }).core (parkedCluster 0 0 * 96)).owed ≠ [])
    ∧ (({ parkedPart with saves := [{ id := 1, part := 0, base := 0x20000, size := 64, written := [0x20000] }] } : State).saves.any
        (fun a => a.part == 0 && a.live && !a.written.isEmpty) = true)
    ∧ (((preempting .quiet id {}).part 0).resumeRq = none ∧ (State.reset.core 0).supervisor = false) := by
  and_intros <;> decide +kernel

def aRec : FRec := ⟨0, 385, 6, 0, 0, 0, 0, 0⟩
def recording (f : FaultQ → FaultQ) : State :=
  { withNode .ready 1 with dial := 256, parts := [(0, { clusters := [0], fq := f { base := 0xF800, held := [aRec], en := true } })] }

def aLink (x : Link) : State := { State.reset with bstate := 3, links := [(17, x)] }

theorem witness_SupervisorRegisters :
    (10 < (0xB00 : BitVec 128).toNat / 256 % 16 ∧ (0x1000 : BitVec 128).toNat / 4096 % 16 ≠ 0 ∧ (2 : BitVec 128).toNat / 2 % 128 ≠ 0
      ∧ (0xA01 : BitVec 128).toNat / 256 % 16 ≤ 10 ∧ (0xA01 : BitVec 128).toNat / 4096 % 16 = 0 ∧ (0xA01 : BitVec 128).toNat / 2 % 128 = 0
      ∧ (recording id).bstate = 3 ∧ State.reset.bstate ≠ 3 ∧ (fqAt (recording id) (.part 0)).held ≠ []
      ∧ (fqAt State.reset (.part 0)).held = [])
    ∧ FirstHeld (fqAt (recording id) (.part 0)) aRec
    ∧ (aRec.dial + 256 ≤ (recording id).dial ∧ State.reset.dial < aRec.dial + 256
      ∧ (fqAt (recording id) (.part 0)).en = true ∧ (fqAt (recording (fun q => { q with en := false })) (.part 0)).en = false
      ∧ ((fqAt (recording id) (.part 0)).tail - (fqAt (recording id) (.part 0)).head).toNat < 64
      ∧ 64 ≤ ((fqAt (recording (fun q => { q with tail := 64 })) (.part 0)).tail - 0).toNat)
    ∧ (((recording id).writeRec (.part 0) 0xF800 (aRec.bytes false)).isSome = true
      ∧ (recording id).writeRec (.part 0) 0x10000 (aRec.bytes false) = none)
    ∧ ((recording id).jobs.any (fun j => j.2.part == 0 && j.2.status.isNone) = true
      ∧ State.reset.jobs.any (fun j => j.2.part == 0 && j.2.status.isNone) = false)
    ∧ (0x180 ≤ (0x180 : BitVec 12).toNat ∧ (0x19F : BitVec 12).toNat ≤ 0x19F ∧ 255 < 256)
    ∧ (3 ≤ aDomain.t ∧ aDomain.t ≤ 26 ∧ ({ aDomain with t := 2 } : DomainCfg).t < 3 ∧ 26 < ({ aDomain with t := 27 } : DomainCfg).t)
    ∧ (17 < 18 ∧ (Tbl.get {} (aLink { session := 1 }).links 17).session ≠ 0
      ∧ (Tbl.get {} (aLink { session := 1 }).links 17).failed = false ∧ (Tbl.get {} (aLink {}).links 17).session = 0) := by
  unfold FirstHeld; and_intros <;> decide +kernel

theorem witness_ErrorsLinksAndChronograph :
    ((3071 < 3072 ∧ 4095 < 4096) ∧ State.reset.physical (0x5FFFFFFFC0 / 64 * 64) = true
      ∧ State.reset.physical (0x6000000000 / 64 * 64) = false
      ∧ { State.reset with cxl := 64 }.physical (0x010000000000 / 64 * 64) = true)
    ∧ ((({ State.reset with caches := [(3, 0, 5), (2, 0, 6)] } : State).caches.filter (fun x => x.1 == 2))[0]? = some (2, 0, 6))
    ∧ ((withNode .ready 1).graphs.find 6 = some (aGraph .ready 1) ∧ (withNode .ready 1).jobs.find 8 = some aJob
      ∧ (aGraph .ready 1).status = none ∧ (aGraph .ready 1).loaded = true)
    ∧ 4096 * ((State.reset.core 0).scrub + 1) ≤ ({ State.reset with cycle := 4096 } : State).cycle
    ∧ ((Tbl.get {} (aLink { tries := 15 }).links 17).tries < 16 ∧ 16 ≤ (Tbl.get {} (aLink { tries := 16 }).links 17).tries
      ∧ (Tbl.get {} (aLink { tries := 16 }).links 17).failed = false ∧ (Tbl.get {} (aLink { failed := true }).links 17).failed = true)
    ∧ ((∀ y ∈ (plainCircuit [[]]).circuits, y.over 17 = false)
      ∧ (∃ y ∈ (circuits (fun y => { y with links := [(2, 17)] }) none).circuits, y.over 17 = true)
      ∧ 2 ^ 40 ≤ (Tbl.get {} (aLink { flits := 2 ^ 40 }).links 17).flits
      ∧ (Tbl.get {} (aLink { flits := 2 ^ 40 - 1 }).links 17).flits < 2 ^ 40)
    ∧ (({ State.reset with chronT := some 9, dial := 9 } : State).chronT = some 9
      ∧ ({ State.reset with chronT := some 9, dial := 8 } : State).chronT ≠ some 8 ∧ State.reset.snaps = []
      ∧ State.reset.chronT = none ∧ State.reset.dial ≤ (0 : BitVec 64).toNat
      ∧ (7 : BitVec 64).toNat < ({ State.reset with dial := 8 } : State).dial
      ∧ ({ State.reset with snaps := [⟨9, 0, true, false, 0⟩] } : State).snaps ≠ []) := by
  and_intros <;> decide +kernel

/-- A machine in a state of bring-up whose host sees pages of memory through BAR2. -/
def bringUp (b : BitVec 4) : State :=
  { withNode .ready 1 with bstate := b, parts := [(0, { windows := [(0, 0x10000, 0)] })] }

theorem witness_HostAccessAndBringUp :
    ((bringUp 3).bstate ≠ 1 ∧ (bringUp 1).bstate = 1 ∧ (0x400001 : W32).toNat > 2 ^ 22 ∧ (0x400000 : W32).toNat ≤ 2 ^ 22
      ∧ (0x400000 : W32) ≠ 0)
    ∧ ((bringUp 2).bstate ≠ 3 ∧ 0x3FFFFF + ([7] : List Byte).length ≤ 2 ^ 22 ∧ 2 ^ 22 ≤ 0x400000)
    ∧ ((bringUp 3).bstate = 3 ∧ (∀ i < 4, (bringUp 3).bar2 (0x10000 + i) true = none)
      ∧ (bringUp 3).bar2 0xFFFE true = some (0x2FFFE, some 0) ∧ (bringUp 3).bar2 0xFFFF true = some (0x2FFFF, some 0))
    ∧ (0x3FF000 < 0x400000 ∧ 0x3FF000 % 0x1000 = 0 ∧ ([1, 0, 0, 0] : List Byte).length = 4 ∧ 0x3FF004 % 0x1000 ≠ 0)
    ∧ (0x400000 ≤ 0x400004 ∧ 0x400008 ≤ 0x400004 + ([1, 0, 0, 0] : List Byte).length ∧ 0x400000 + 4 < 0x400008
      ∧ 0x400004 < 0x400008) := by
  and_intros <;> decide +kernel

/-- A signed object with no section: its header, its signature, and the key that it was signed with. -/
def aKey : List Byte := beBytes 0xd88d4b16df0e0acac3fd323d1d662644e0e1b5a53923a74f0e63e2ece379c061 32 ++ beBytes 0x925e26bbbd4975d32856565cdf99484dee5d40c4ff5798772e99cc184d498cb1 32
def anObject : List Byte :=
  [0x43, 0x4C, 0x46, 1] ++ ([1, 0, 64, 0, 0, 0, 0, 0, 0, 64, 192, 0, 0, 0, 0] : List Nat).flatMap (leBytes · 4)
    ++ beBytes 0x3faa003d77333afaa15cfcf8633cb89ae2eea5258e17bdc8d97fa710c18d48ed 32 ++ beBytes 0x3faa003d77333afaa15cfcf8633cb89ae2eea5258e17bdc8d97fa710c18d48ed 32 ++ aKey

/-- A signed object of one task node whose ports have ranks 1 and 2; and one of a volatile node that retains a port. -/
def badRankObject : List Byte :=
  beBytes 0x434c4601010000000100000040000000000000000000000000000000000000000000000000000000d100000051010000000000000000000000000000000000000000000006030007ffffffff0000000000000000000000006000000070000000 96
    ++ beBytes 0x00000000010002000000000000000000c3c07fa6a2ca80b3105e57eee1539dbe1e0e6b234f7d2de61a8bac8fcb1e22340000000002000000ff020000000000000000000000000000000000002000000000000000010000000000000000000000 96
    ++ beBytes 0x01010000020000000000000000000000008048b89496d6b243d49193b4adbb884477e17bc40489f62331aea4607b271fbf8048b89496d6b243d49193b4adbb884477e17bc40489f62331aea4607b271fbfbc5441f2513e1e55285586125dce8f 96
    ++ beBytes 0x9c6d5f999b50439a69e9c8f91b49cb29213c13cefe85acca5e051fd7732cae159412dc840f9a157b5321dc0c55c389d5b0 49
def badRetainObject : List Byte :=
  beBytes 0x434c4601010000000100000040000000000000000000000000000000000000000000000000000000c100000041010000000000000000000000000000000000000000000006030007ffffffff0000000000000000000000006000000060000000 96
    ++ beBytes 0x00000000010001000000000000000000c36c85686e624a6cace2b436ea26f4ab80a38577f2bd203cc317011864716a9c0000000002010000ff010000000000000000000000000000000000001000000000010000010100000000000000000000 96
    ++ beBytes 0x009267729cd686c8ed79bc8f9060bb8ce906cb464a8d8765a01af9c298617d12e59267729cd686c8ed79bc8f9060bb8ce906cb464a8d8765a01af9c298617d12e5b35f763eb0479273f10e52a39e0878b12212c99837c2f3f322c86e5ab48c22 96
    ++ beBytes 0x7dc65540f47d0bb88f857de174e87cbc470291a6621618f65151dc2ce0b19cfc9d 33
def keyOf (f : List Byte) : List Byte := f.drop (f.length - 64)

theorem witness_ManagementAndObjects :
    ((200 ≤ 200 ∧ 2400 ≤ 2400 ∧ 199 < 200 ∧ 2400 < 2401)
      ∧ (800 ≤ 800 ∧ 800 ≤ 3300 ∧ 3300 ≤ 3300 ∧ 800 % 25 = 0 ∧ 3300 % 25 = 0) ∧ ¬ (800 ≤ 775) ∧ ¬ (825 ≤ 800) ∧ ¬ (3325 ≤ 3300)
      ∧ ¬ (801 % 25 = 0))
    ∧ (65536 * ((State.reset.cluster 31).win + 1) ≤ ({ State.reset with dial := 65536 } : State).dial
      ∧ State.reset.dial < 65536 * ((State.reset.cluster 31).win + 1)
      ∧ 3 < 4 * 1 ∧ 20 * 1 < 21 ∧ State.reset.overPow = false ∧ 4 * 1 ≤ 20 ∧ 20 ≤ 20 * 1)
    ∧ (1000000 * (State.reset.powerMs + 1) ≤ ({ State.reset with dial := 1000000 } : State).dial
      ∧ State.reset.dial < 1000000 * (State.reset.powerMs + 1) ∧ 2399 < State.reset.power ∧ State.reset.power < 2401
      ∧ State.reset.overPow = false ∧ ({ State.reset with overPow := true } : State).overPow = true)
    ∧ (loadFault 1 [aKey] anObject = none ∧ loadFault 1 [] anObject = some (1, 0)
      ∧ loadFault 1 [keyOf badRankObject] badRankObject = some (7, 0)
      ∧ check7rank (clfGraphs (clfSections badRankObject)) = some 0
      ∧ loadFault 1 [keyOf badRetainObject] badRetainObject = some (7, 0)
      ∧ check7rank (clfGraphs (clfSections badRetainObject)) = none)
    ∧ (stillLoading.bstate = 3 ∧ State.reset.bstate ≠ 3
      ∧ (stillLoading.objects.find? (fun o => o.part == 0 && !o.pending.isEmpty && o.file == [])).isSome = true
      ∧ ∀ o ∈ (withNode .ready 1).objects, o.part = 0 → o.file = anObject → o.pending = [])
    ∧ ((∃ j ∈ (withNode .ready 1).jobs, j.2.obj = 3 ∧ j.2.status = none)
      ∧ ∀ j ∈ (withNode .ready 1).jobs, j.2.obj = 4 → j.2.status ≠ none) := by
  and_intros <;> decide +kernel

theorem witness_ByteFormats :
    ((⟨3, false, false⟩ : B8).decode 0x80 = .nan false ∧ (⟨4, true, true⟩ : B8).decode 0xFE = .inf false
      ∧ (⟨4, false, true⟩ : B8).decode 0xFF = .inf true ∧ (⟨7, false, false⟩ : B8).decode 0 = .fin false 0 (-6)) := by
  decide +kernel

end Sys2Proof.Machine.Tests
end

section
/-!
SUPPORT. An ordered-domain task before an irrevocable effect (R174): with the oldest stamp the word acts on
the task made irrevocable, else the task is undone in its slot.
-/

namespace Sys2Proof.Machine

/-! ## The task made irrevocable -/

theorem irrevocably_eq (s : State) : irrevocably s = s.setCore s.seat.core { s.here with
    ctl := { s.here.ctl with work := { s.here.ctl.work with irrev := true } } } := by
  simp [irrevocably]

@[simp] theorem irrevocably_seat (s : State) : (irrevocably s).seat = s.seat := rfl
@[simp] theorem irrevocably_opSeq (s : State) : (irrevocably s).opSeq = s.opSeq := rfl

@[simp] theorem irrevocably_here (s : State) : (irrevocably s).here = { s.here with
    ctl := { s.here.ctl with work := { s.here.ctl.work with irrev := true } } } := by
  rw [irrevocably_eq, State.here_setCore, if_pos rfl]

@[simp] theorem irrevocably_core (s : State) (c : Nat) : (irrevocably s).core c =
    if c = s.seat.core then { s.here with ctl := { s.here.ctl with work := { s.here.ctl.work with irrev := true } } }
    else s.core c := by
  rw [irrevocably_eq, State.core_setCore]

@[simp] theorem irrevocably_reg (s : State) (r : Reg) : (irrevocably s).reg r = s.reg r := by
  unfold State.reg
  rw [irrevocably_seat, irrevocably_here]
  rfl

theorem irrevocably_unordered (s : State) : Unordered (irrevocably s) := .inr (by simp)

theorem Issues.irrevocably {s : State} {g : Guard} {uses : List Dest} (h : Issues s g uses) :
    Issues (irrevocably s) g uses := by
  unfold Issues State.stalled State.guard State.pred at *
  rw [irrevocably_seat, irrevocably_here]
  exact h

/-! ## The task undone -/

/-- Giving up a promise keeps every slot but the one that a `spawn` has reserved. -/
theorem State.release_slot (s : State) (c n : Nat) (o : Out)
    (h : ∀ m e a st cy, o = Out.spawn m e a st cy → m ≠ n) :
    Tbl.find ((s.release c o).core c).slots n = Tbl.find (s.core c).slots n := by
  cases o with
  | sendVc d v t =>
    simp only [State.release, State.modVc_eq, State.core_setCore]
    split <;> simp_all
  | sendSink p t => simp [State.release]
  | spawn m e a st cy =>
    have hm : n ≠ m := Ne.symm (h m e a st cy rfl)
    simp [State.release, Tbl.find_drop, hm]

theorem State.giveBack_slots (s : State) (c : Nat) (l : List (Nat × VcToken)) :
    ((s.giveBack c l).core c).slots = (s.core c).slots := by
  unfold State.giveBack
  generalize l.reverse = r
  induction r generalizing s with
  | nil => rfl
  | cons x r ih => rw [List.foldl_cons, ih]; simp

/-- Discarding a task's work keeps every slot that its `spawn` words have not reserved. -/
theorem State.discard_slot (s : State) (c n : Nat) (w : Work) (back : Bool)
    (h : ∀ m e a st cy, Out.spawn m e a st cy ∈ w.outs → m ≠ n) :
    Tbl.find ((s.discard c w back).core c).slots n = Tbl.find (s.core c).slots n := by
  have outs : ∀ (l : List Out) (u : State), (∀ m e a st cy, Out.spawn m e a st cy ∈ l → m ≠ n) →
      Tbl.find ((l.foldl (fun s o => s.release c o) u).core c).slots n = Tbl.find (u.core c).slots n := by
    intro l
    induction l with
    | nil => intro u _; rfl
    | cons o r ih =>
      intro u hl
      rw [List.foldl_cons, ih _ (fun m e a st cy hm => hl m e a st cy (.tail _ hm)),
        State.release_slot u c n o (fun m e a st cy ho => hl m e a st cy (ho ▸ .head _))]
  unfold State.discard
  cases back
  · exact outs w.outs s h
  · simp only [if_true, State.giveBack_slots]
    exact outs w.outs s h

/-- A task that is undone leaves its sequencer idle and waits in its slot, in the state given (R65, R174). -/
theorem State.unwind_undone (s : State) (c n : Nat) (x : Slot) (st : SlotState) (hn : (s.core c).ctl.slot = some n)
    (hx : Tbl.find (s.core c).slots n = some x)
    (h : ∀ m e a st cy, Out.spawn m e a st cy ∈ (s.core c).ctl.work.outs → m ≠ n) :
    ((s.unwind c st).core c).ctl = (s.core c).ctl.idle ∧ (s.unwind c st).mem = s.mem ∧ (s.unwind c st).seat = s.seat
      ∧ Tbl.find ((s.unwind c st).core c).slots n = some { x.ready (s.discard c (s.core c).ctl.work true).cycle with
          st := st, oldAt := none, irrev := x.irrev || (s.core c).ctl.work.irrev } := by
  obtain ⟨hc, -, -, -, -, hs, hm⟩ := State.discard_keeps s c c (s.core c).ctl.work true
  have hf := State.discard_slot s c n (s.core c).ctl.work true h
  rw [hx] at hf
  unfold State.unwind
  simp only [hn]
  generalize s.discard c (s.core c).ctl.work true = u at *
  simp [State.modSlot, hf, hc, hs, hm]

/-! ## The word before and after -/

theorem State.irrevocable_of_oldest {s : State} (ht : s.here.taskOrd = true) (hi : s.here.ctl.work.irrev = false)
    (ho : oldestHere s = true) (f : State → State) : s.irrevocable f = f (irrevocably s) := by
  unfold oldestHere at ho
  simp [State.irrevocable, ht, hi, ho, irrevocably]

theorem State.irrevocable_of_later {s : State} (ht : s.here.taskOrd = true) (hi : s.here.ctl.work.irrev = false)
    (ho : oldestHere s = false) (f : State → State) : s.irrevocable f = s.unwind s.seat.core .waitOldest := by
  unfold oldestHere at ho
  simp [State.irrevocable, ht, hi, ho]

/-- A word that goes through the ordered-domain check makes the task irrevocable first. -/
theorem irrevocableFirst_of {i : Instr} {s : State} {g : Guard} {uses : List Dest} {F f : State → State}
    (h : Issues s g uses) (e : ∀ u, exec i u = control g uses u F) (hs : F s = s.irrevocable f)
    (hu : F (irrevocably s) = f (irrevocably s)) : IrrevocableFirst i s := by
  intro ht hi
  refine ⟨fun ho => ?_, fun ho n x hn hx hw => ?_⟩
  · rw [e, e, control_of_issues h, control_of_issues h.irrevocably, hs, State.irrevocable_of_oldest ht hi ho, hu]
  · obtain ⟨hc, hm, hseat, hf⟩ := State.unwind_undone s s.seat.core n x .waitOldest hn hx hw
    refine ⟨_, by rw [e, control_of_issues h, hs, State.irrevocable_of_later ht hi ho], ?_, fun a => by rw [hm], ?_⟩
    · rw [State.here, hseat, hc]; rfl
    · rw [State.here, hseat]
      exact ⟨_, hf, rfl, rfl, rfl⟩

/-- A settling word makes the task irrevocable first (R66, R174). -/
theorem irrevocableFirst_of_settling {i : Instr} {s : State} {g : Guard} {uses : List Dest} {F f : State → State}
    (h : Issues s g uses) (e : ∀ u, exec i u = control g uses u F) (hs : F s = s.settling f)
    (hu : F (irrevocably s) = (irrevocably s).settling f) : IrrevocableFirst i s :=
  irrevocableFirst_of h e hs (by rw [hu, State.settling_of_unordered (irrevocably_unordered s)]; rfl)

end Sys2Proof.Machine
end

section
/-!
O21: the writes of the special registers.
-/

namespace Sys2Proof.Machine

/-! ## Going on after a change of the core's record -/

/-- A settled task goes on after its core's record has changed, the registers apart. -/
theorem settled_setCore_stepPc {s : State} (hq : s.seat.seq = .control) (k : Core)
    (hk : k.ctl = s.settled.here.ctl) :
    let t := (s.settled.setCore s.seat.core k).stepPc
    NextWord s t ∧ MemoryKept s t ∧ OnlyCore s.seat.core s t ∧ t.here = { k with ctl := k.ctl.stepPc } := by
  have hh : (s.settled.setCore s.seat.core k).here = k := by simp
  refine ⟨nextWord_stepPc hq rfl ?_, fun a => rfl, ?_, by simp⟩
  · rw [hh, hk]; simp
  · simp [OnlyCore, State.settled_eq]

theorem settled_stepPc {s : State} (hq : s.seat.seq = .control) :
    NextWord s s.settled.stepPc ∧ TaskOnly s s.settled.stepPc := by
  refine ⟨nextWord_stepPc hq rfl (by simp), by simp [OnlyCtl, State.settled_eq], by simp [Ctl.stepPc], fun a => rfl⟩

@[simp] theorem State.settled_modHere (s : State) (f : Core → Core) :
    s.settled.modHere f = s.settled.setCore s.seat.core (f s.settled.here) := rfl

/-! ## The issue of `mts` -/

variable {s : State} {g : Guard} {a : Reg} {n : BitVec 12}

theorem execMts_tenant (h : Issues s g [.g a]) (hn : 0x100 ≤ n.toNat ∧ n.toNat ≤ 0x1FF)
    (hp : s.here.supervisor = false) : exec (.mts g a n) s = .next (s.trap 2 (n.setWidth 64)) := by
  rw [exec_mts, execMts, control_of_issues h, if_pos ⟨hn.1, hn.2, by rw [hp]; rfl⟩]

/-- What `mts` does once the running code may name the register. -/
theorem execMts_allowed (h : Issues s g [.g a])
    (hp : 0x100 ≤ n.toNat ∧ n.toNat ≤ 0x1FF → s.here.supervisor = true) (hu : Unordered s) :
    exec (.mts g a n) s = .next (match s.settled.writeSpecial n.toNat (s.reg a) with
      | some t => t
      | none => s.settled.trap 1 s.settled.thisWord) := by
  have hneg : ¬ (0x100 ≤ n.toNat ∧ n.toNat ≤ 0x1FF ∧ (!s.here.supervisor) = true) := by
    rintro ⟨h1, h2, h3⟩
    rw [hp ⟨h1, h2⟩] at h3
    exact absurd h3 (by decide)
  rw [exec_mts, execMts, control_of_issues h, if_neg hneg, State.settling_of_unordered hu, State.settled_reg] <;> rfl

theorem irrevocableFirst_mts (h : Issues s g [.g a])
    (hp : 0x100 ≤ n.toNat ∧ n.toNat ≤ 0x1FF → s.here.supervisor = true) : IrrevocableFirst (.mts g a n) s := by
  have hneg : ∀ u : State, u.here.supervisor = s.here.supervisor →
      ¬ (0x100 ≤ n.toNat ∧ n.toNat ≤ 0x1FF ∧ (!u.here.supervisor) = true) := by
    rintro u hu ⟨h1, h2, h3⟩
    rw [hu, hp ⟨h1, h2⟩] at h3
    exact absurd h3 (by decide)
  refine irrevocableFirst_of_settling h (fun u => rfl) (if_neg (hneg s rfl)) (if_neg (hneg _ ?_))
  rw [irrevocably_here]
  rfl

/-- The write of a register that stands in the core's record. -/
theorem mts_core (h : Issues s g [.g a]) (hp : 0x100 ≤ n.toNat ∧ n.toNat ≤ 0x1FF → s.here.supervisor = true)
    (hu : Unordered s) (k : Core) (hk : k.ctl = s.settled.here.ctl)
    (hw : s.settled.writeSpecial n.toNat (s.reg a) = some (s.settled.setCore s.seat.core k).stepPc)
    {P : State → Prop} (hP : ∀ t : State, t.here = { k with ctl := k.ctl.stepPc } → P t) :
    Completes (.mts g a n) s (fun t => NextWord s t ∧ MemoryKept s t ∧ OnlyCore s.seat.core s t ∧ P t) := by
  obtain ⟨h1, h2, h3, h4⟩ := settled_setCore_stepPc h.1 k hk
  exact ⟨_, by rw [execMts_allowed h hp hu, hw], h1, h2, h3, hP _ h4⟩

/-- The table's configuration is malformed (R122). -/
theorem tagcfg_refused_iff (v : Word) :
    (v.extractLsb' 14 50 ≠ 0 ∨ v.extractLsb' 4 4 ≠ 0 ∨ 8 < (v.extractLsb' 0 4).toNat) ↔
      (2 ^ 14 ≤ v.toNat ∨ v.toNat / 16 % 16 ≠ 0 ∨ 8 < v.toNat % 16) := by
  have := v.isLt
  rw [extract_ne, extract_ne, extract_nat]
  omega

/-- A write of the mode register: `dbg` at once; `det` at the next phase boundary, or at once with no live job (R13). -/
theorem part_setMode (u : State) (p : Nat) (dbg det : Bool) :
    ((u.setMode p dbg det).part p).dbg = dbg
    ∧ ((∃ x ∈ u.jobs, x.2.part = p ∧ x.2.status = none) →
      ((u.setMode p dbg det).part p).det = (u.part p).det ∧ ((u.setMode p dbg det).part p).detNext = some det)
    ∧ ((∀ x ∈ u.jobs, x.2.part = p → x.2.status ≠ none) →
      ((u.setMode p dbg det).part p).det = det ∧ ((u.setMode p dbg det).part p).detNext = none) := by
  have live : (u.jobs.any (fun j => j.2.part == p && j.2.status.isNone) = true) ↔
      ∃ x ∈ u.jobs, x.2.part = p ∧ x.2.status = none := by
    simp only [List.any_eq_true, Bool.and_eq_true, beq_iff_eq, Option.isNone_iff_eq_none]
  simp only [State.setMode, State.part_modPart, if_true]
  refine ⟨by split <;> rfl, fun h => ?_, fun h => ?_⟩
  · rw [if_pos (live.2 h)]; exact ⟨rfl, rfl⟩
  · rw [if_neg (fun hl => by obtain ⟨x, hx, hp, hn⟩ := live.1 hl; exact h x hx hp hn)]; exact ⟨rfl, rfl⟩

/-! ## The statement's parts -/

/-- The registers that a tenant may write (R48, R54, R111, R112, R122). -/
theorem mts_tenant_registers (h : Issues s g [.g a]) (hu : Unordered s) :
    (n.toNat = 0x020 → Completes (.mts g a n) s (fun t => NextWord s t ∧ MemoryKept s t ∧ OnlyCore s.seat.core s t
      ∧ ∀ cyc, s.cycle < cyc → t.here.flagsAt cyc
          = (s.reg a).setWidth 5 ||| (if s.here.raisedAt = s.cycle then s.here.raised else 0)))
    ∧ (n.toNat = 0x022 → Completes (.mts g a n) s (fun t => NextWord s t ∧ MemoryKept s t ∧ OnlyCore s.seat.core s t
      ∧ t.here.mx = { s.here.mx with flags := (s.reg a).setWidth 5 }))
    ∧ (n.toNat = 0x021 → Completes (.mts g a n) s (fun t => NextWord s t ∧ MemoryKept s t ∧ OnlyCore s.seat.core s t
      ∧ t.here.mx = { s.here.mx with
          err := (s.reg a).extractLsb' 32 32, sweeps := (s.reg a).extractLsb' 19 13
          conv := (s.reg a).getLsbD 18, infeas := (s.reg a).getLsbD 17 }))
    ∧ (n.toNat = 0x030 →
      (2 ^ 14 ≤ (s.reg a).toNat ∨ (s.reg a).toNat / 16 % 16 ≠ 0 ∨ 8 < (s.reg a).toNat % 16 →
        Completes (.mts g a n) s (Traps 7 (s.reg a) s))
      ∧ ((s.reg a).toNat < 2 ^ 14 → (s.reg a).toNat / 16 % 16 = 0 → (s.reg a).toNat % 16 ≤ 8 →
        Completes (.mts g a n) s (fun t => NextWord s t ∧ MemoryKept s t ∧ OnlyCore s.seat.core s t
          ∧ t.here.tagcfg = s.reg a ∧ t.here.tags = []))) := by
  refine ⟨fun hn => ?_, fun hn => ?_, fun hn => ?_, fun hn => ⟨fun hb => ?_, fun h1 h2 h3 => ?_⟩⟩
  · refine mts_core h (by omega) hu { s.settled.here with
        lstat := (s.reg a).setWidth 5, raised := if s.here.raisedAt = s.cycle then s.here.raised else 0 } rfl ?_
      (fun t ht cyc hc => ?_)
    · rw [hn, State.writeSpecial, if_pos rfl, State.settled_modHere, State.settled_here]
      rfl
    · rw [ht]
      simp only [Core.flagsAt, State.settled_here]
      split
      · rename_i hr
        rw [if_neg (by omega)]; simp
      · rfl
  · exact mts_core h (by omega) hu { s.settled.here with mx := { s.here.mx with flags := (s.reg a).setWidth 5 } } rfl
      (by rw [hn]; simp [State.writeSpecial]) (fun t ht => by rw [ht])
  · exact mts_core h (by omega) hu { s.settled.here with mx := { s.here.mx with
        err := (s.reg a).extractLsb' 32 32, sweeps := (s.reg a).extractLsb' 19 13
        conv := (s.reg a).getLsbD 18, infeas := (s.reg a).getLsbD 17 } } rfl
      (by rw [hn]; simp [State.writeSpecial]) (fun t ht => by rw [ht])
  · refine ⟨_, by rw [execMts_allowed h (by omega) hu], ?_⟩
    rw [hn, State.writeSpecial, if_neg (by decide), if_neg (by decide), if_neg (by decide), if_pos rfl,
      if_pos ((tagcfg_refused_iff _).2 hb)]
    exact State.trap_settled 7 _
  · exact mts_core h (by omega) hu { s.settled.here with tagcfg := s.reg a, tags := [] } rfl
      (by rw [hn, State.writeSpecial, if_neg (by decide), if_neg (by decide), if_neg (by decide), if_pos rfl,
            if_neg (fun hr => by have := (tagcfg_refused_iff _).1 hr; omega)]; rfl)
      (fun t ht => by rw [ht]; exact ⟨rfl, rfl⟩)

/-- The supervisor's registers (R13, R54, R383). -/
theorem mts_supervisor_registers (h : Issues s g [.g a]) (hu : Unordered s) (hp : s.here.supervisor = true) :
    (n.toNat = 0x110 → Completes (.mts g a n) s (fun t => NextWord s t ∧ MemoryKept s t
      ∧ (t.part s.here.part).dbg = (s.reg a).getLsbD 0
      ∧ ((∃ x ∈ s.jobs, x.2.part = s.here.part ∧ x.2.status = none) →
        (t.part s.here.part).det = (s.part s.here.part).det
          ∧ (t.part s.here.part).detNext = some ((s.reg a).getLsbD 1))
      ∧ ((∀ x ∈ s.jobs, x.2.part = s.here.part → x.2.status ≠ none) →
        (t.part s.here.part).det = (s.reg a).getLsbD 1 ∧ (t.part s.here.part).detNext = none)))
    ∧ (n.toNat = 0x111 → Completes (.mts g a n) s (fun t => NextWord s t ∧ MemoryKept s t
      ∧ OnlyCore s.seat.core s t ∧ t.here.dbgEntry = s.reg a))
    ∧ (0x180 ≤ n.toNat → n.toNat ≤ 0x19F → Completes (.mts g a n) s (fun t => NextWord s t ∧ MemoryKept s t
      ∧ OnlyCore s.seat.core s t
      ∧ ∀ j, Tbl.get 0 t.here.dbgG j = if j = n.toNat - 0x180 then s.reg a else Tbl.get 0 s.here.dbgG j))
    ∧ (n.toNat = 0x1A0 → Completes (.mts g a n) s (fun t => NextWord s t ∧ MemoryKept s t
      ∧ OnlyCore s.seat.core s t ∧ t.here.dbgQ = s.reg a))
    ∧ (0x100 ≤ n.toNat ∧ n.toNat ≤ 0x1FF → n.toNat ≠ 0x110 → n.toNat ≠ 0x111 →
      ¬ (0x180 ≤ n.toNat ∧ n.toNat ≤ 0x1A0) → Completes (.mts g a n) s (fun t => NextWord s t ∧ TaskOnly s t)) := by
  refine ⟨fun hn => ?_, fun hn => ?_, fun h1 h2 => ?_, fun hn => ?_, fun hr h1 h2 h3 => ?_⟩
  · refine ⟨(s.settled.setMode s.here.part ((s.reg a).getLsbD 0) ((s.reg a).getLsbD 1)).stepPc, ?_, ?_, fun x => rfl, ?_⟩
    · rw [execMts_allowed h (fun _ => hp) hu, hn]; simp [State.writeSpecial]
    · exact nextWord_stepPc h.1 rfl (by simp [State.setMode])
    · exact part_setMode s.settled s.here.part _ _
  · exact mts_core h (fun _ => hp) hu { s.settled.here with dbgEntry := s.reg a } rfl
      (by rw [hn]; simp [State.writeSpecial]) (fun t ht => by rw [ht])
  · refine mts_core h (fun _ => hp) hu { s.settled.here with dbgG := Tbl.set 0 s.here.dbgG (n.toNat - 0x180) (s.reg a) }
      rfl ?_ (fun t ht j => by rw [ht]; exact Tbl.get_set ..)
    rw [State.writeSpecial, if_neg (by omega), if_neg (by omega), if_neg (by omega), if_neg (by omega),
      if_pos (by omega), if_neg (by omega), if_neg (by omega), if_pos (by omega)]
    simp
  · exact mts_core h (fun _ => hp) hu { s.settled.here with dbgQ := s.reg a } rfl
      (by rw [hn]; simp [State.writeSpecial]) (fun t ht => by rw [ht])
  · refine ⟨s.settled.stepPc, ?_, settled_stepPc h.1⟩
    rw [execMts_allowed h (fun _ => hp) hu, State.writeSpecial, if_neg (by omega), if_neg (by omega),
      if_neg (by omega), if_neg (by omega), if_pos (by omega), if_neg (by omega), if_neg (by omega),
      if_neg (by omega), if_neg (by omega)]

/-- A number that names no register that `mts` writes is the illegal trap (R383). -/
theorem mts_illegal (h : Issues s g [.g a]) (hu : Unordered s) (hn : n.toNat ∉ [0x020, 0x021, 0x022, 0x030])
    (hs : ¬ (0x100 ≤ n.toNat ∧ n.toNat ≤ 0x1FF)) :
    Completes (.mts g a n) s (Traps 1 ((Tbl.get 0 s.here.store s.here.ctl.pc).setWidth 64) s) := by
  simp only [List.mem_cons, List.not_mem_nil, or_false, not_or] at hn
  obtain ⟨h20, h21, h22, h30⟩ := hn
  have hnone : s.settled.writeSpecial n.toNat (s.reg a) = none := by
    rw [State.writeSpecial, if_neg h20, if_neg h22, if_neg h21, if_neg h30, if_neg hs]
  have hw : s.settled.thisWord = (Tbl.get 0 s.here.store s.here.ctl.pc).setWidth 64 := by
    rw [State.thisWord, State.settled_here]
  exact ⟨_, by rw [execMts_allowed h (fun hc => absurd hc hs) hu, hnone], by rw [hw]; exact State.trap_settled 1 _⟩

/-- Settles O21, by the parts of `mts`: the tenant's trap, the ordered-domain check, and each register's write. -/
theorem specialRegisterWrites : Obligations.SpecialRegisterWrites := by
  unfold Obligations.SpecialRegisterWrites
  intro s g a n h super
  refine ⟨fun hs hp => ⟨_, execMts_tenant h hs hp, State.trap_traps s 2 _⟩,
    fun _ hp => irrevocableFirst_mts h (fun _ => hp), fun hs => irrevocableFirst_mts h (fun hc => absurd hc hs),
    fun hu => ?_⟩
  obtain ⟨h20, h22, h21, h30⟩ := mts_tenant_registers (n := n) h hu
  exact ⟨h20, h22, h21, h30, fun hp => mts_supervisor_registers h hu hp, fun hn hs => mts_illegal h hu hn hs⟩

end Sys2Proof.Machine
end

section
/-!
SUPPORT. What applying a commit's bytes to a core does (R169), the aborts of later readers among it (R173).
-/

namespace Sys2Proof.Machine

/-! ## Aborts keep memory and every commit that has begun (R173) -/

/-- Memory and the commits of every core are the same. -/
def SameCommits (s t : State) : Prop := t.mem = s.mem ∧ ∀ c, (t.core c).commits = (s.core c).commits

theorem SameCommits.refl (s : State) : SameCommits s s := ⟨rfl, fun _ => rfl⟩

theorem SameCommits.trans {s t u : State} (h : SameCommits s t) (g : SameCommits t u) : SameCommits s u :=
  ⟨g.1.trans h.1, fun c => (g.2 c).trans (h.2 c)⟩

theorem State.modCore_sameCommits (s : State) (c : Nat) (f : Core → Core) (h : ∀ k, (f k).commits = k.commits) :
    SameCommits s (s.modCore c f) := by
  refine ⟨rfl, fun d => ?_⟩
  rw [State.modCore_eq, State.core_setCore]
  split
  · rename_i hd; rw [h, hd]
  · rfl

theorem State.release_sameCommits (s : State) (c : Nat) (o : Out) : SameCommits s (s.release c o) := by
  cases o <;> exact State.modCore_sameCommits _ _ _ (fun _ => rfl)

theorem foldl_sameCommits {β : Type} (f : State → β → State) (h : ∀ s x, SameCommits s (f s x)) (l : List β)
    (s : State) : SameCommits s (l.foldl f s) := by
  induction l generalizing s with
  | nil => exact SameCommits.refl s
  | cons x r ih => exact (h s x).trans (ih _)

theorem State.discard_sameCommits (s : State) (c : Nat) (w : Work) (back : Bool) :
    SameCommits s (s.discard c w back) := by
  have outs := foldl_sameCommits (fun s o => s.release c o) (fun s o => s.release_sameCommits c o) w.outs s
  unfold State.discard
  cases back
  · exact outs
  · exact outs.trans (foldl_sameCommits (fun s (x : Nat × VcToken) => s.modVc c x.1 (fun v => { v with q := x.2 :: v.q }))
      (fun s x => s.modCore_sameCommits c _ (fun _ => rfl)) _ _)

theorem State.modSlot_sameCommits (s : State) (c n : Nat) (f : Slot → Slot) : SameCommits s (s.modSlot c n f) := by
  unfold State.modSlot
  split
  · exact State.modCore_sameCommits _ _ _ (fun _ => rfl)
  · exact SameCommits.refl s

theorem State.unwind_sameCommits (s : State) (c : Nat) (st : SlotState) : SameCommits s (s.unwind c st) := by
  unfold State.unwind
  dsimp only
  refine SameCommits.trans ?_ (State.modCore_sameCommits _ c _ (fun _ => rfl))
  split
  · exact (s.discard_sameCommits ..).trans (State.modSlot_sameCommits ..)
  · exact s.discard_sameCommits ..

/-- The core's only commit of its identifier. -/
def SoleCommit (c : Nat) (m : Commit) (s : State) : Prop :=
  m ∈ (s.core c).commits ∧ ∀ y ∈ (s.core c).commits, y.id = m.id → y = m

theorem SameCommits.sole {s t : State} {c : Nat} {m : Commit} (h : SameCommits s t) (hm : SoleCommit c m s) :
    SoleCommit c m t := by
  unfold SoleCommit
  rw [h.2 c]
  exact hm

theorem State.modChain_sameCommits (s : State) (c n : Nat) (f : Chain → Chain) : SameCommits s (s.modChain c n f) :=
  s.modCore_sameCommits c _ (fun _ => rfl)

theorem SoleCommit.dropCommit {s : State} {c d i : Nat} {m : Commit} (h : SoleCommit c m s)
    (hi : d = c → m.id ≠ i) :
    SoleCommit c m (s.modCore d (fun k => { k with commits := k.commits.filter (fun y => y.id != i) })) := by
  unfold SoleCommit
  rw [State.modCore_eq, State.core_setCore]
  split
  · rename_i hc
    subst hc
    exact ⟨List.mem_filter.2 ⟨h.1, by simpa using hi rfl⟩, fun y hy => h.2 y (List.mem_of_mem_filter hy)⟩
  · exact h

/-- An abort takes back a commit only while it waits. -/
theorem State.abortSlot_sole (s : State) (c d n : Nat) {m : Commit} (hs : m.stage ≠ .waiting)
    (hm : SoleCommit c m s) : (s.abortSlot d n).mem = s.mem ∧ SoleCommit c m (s.abortSlot d n) := by
  have of_same : ∀ {t}, SameCommits s t → t.mem = s.mem ∧ SoleCommit c m t := fun h => ⟨h.1, h.sole hm⟩
  unfold State.abortSlot
  dsimp only
  split
  · exact of_same (s.unwind_sameCommits ..)
  · split
    · exact of_same (SameCommits.refl s)
    · split
      · refine of_same (SameCommits.trans ?_ (State.modSlot_sameCommits ..))
        exact (s.discard_sameCommits ..).trans (State.modCore_sameCommits _ _ _ (fun _ => rfl))
      · split
        · rename_i w hw
          have hid : d = c → m.id ≠ w.id := by
            rintro rfl e
            have hwait := List.find?_some hw
            simp only [Bool.and_eq_true, beq_iff_eq] at hwait
            exact hs (by rw [← hm.2 w (List.mem_of_find?_eq_some hw) e.symm]; exact hwait.2)
          have hdis := s.discard_sameCommits d w.work true
          have hdrop := (hdis.sole hm).dropCommit hid
          have hend : ∀ (u : State) (f : Slot → Slot),
              SameCommits u ((u.modChain d w.chain (fun y => { y with ended := false })).modSlot d n f) :=
            fun u f => (u.modChain_sameCommits ..).trans (State.modSlot_sameCommits ..)
          exact ⟨(hend _ _).1.trans hdis.1, (hend _ _).sole hdrop⟩
        · split
          · exact of_same ((s.discard_sameCommits ..).trans (State.modSlot_sameCommits ..))
          · exact of_same (SameCommits.refl s)

theorem State.abortReaders_sole (s : State) (c ln line : Nat) (key : Nat × Nat × Nat) {m : Commit}
    (hs : m.stage ≠ .waiting) (hm : SoleCommit c m s) :
    (s.abortReaders ln line key).mem = s.mem ∧ SoleCommit c m (s.abortReaders ln line key) := by
  unfold State.abortReaders
  dsimp only
  generalize s.cores.flatMap _ = hits
  induction hits generalizing s with
  | nil => exact ⟨rfl, hm⟩
  | cons h r ih =>
    obtain ⟨h1, h2⟩ := s.abortSlot_sole c h.1 h.2 hs hm
    obtain ⟨h3, h4⟩ := ih _ h2
    exact ⟨h3.trans h1, h4⟩

/-! ## The bytes of one core (R169) -/

/-- The bytes that a write buffer holds for a core, each with the place where memory keeps it. -/
def bytesFor (tgt : Nat) (w : Tbl Byte) : List (Nat × Byte) :=
  let mine := w.filter (fun x => x.1 / 2 ^ 19 == tgt)
  ((mine.map (fun x => x.1 / 128)).eraseDups).flatMap (fun l =>
    (mine.filter (fun x => x.1 / 128 == l)).map (fun x => (spKey tgt (l % 4096 * 128 + x.1 % 128), x.2)))

theorem mem_bytesFor (tgt : Nat) (w : Tbl Byte) (x : Nat × Byte) :
    x ∈ bytesFor tgt w ↔ ∃ y ∈ w, y.1 / 2 ^ 19 = tgt ∧ x = (spKey tgt (y.1 % 2 ^ 19), y.2) := by
  have place : ∀ y : Nat × Byte, y.1 / 128 % 4096 * 128 + y.1 % 128 = y.1 % 2 ^ 19 := fun y => by omega
  simp only [bytesFor, List.mem_flatMap, List.mem_map, List.mem_filter, beq_iff_eq, mem_eraseDups' _ _ le_rfl]
  constructor
  · rintro ⟨l, -, y, ⟨⟨hy, ht⟩, rfl⟩, rfl⟩
    exact ⟨y, hy, ht, by rw [place]⟩
  · rintro ⟨y, hy, ht, rfl⟩
    exact ⟨_, ⟨y, ⟨hy, ht⟩, rfl⟩, y, ⟨⟨hy, ht⟩, rfl⟩, by rw [place]⟩

/-- The step of `State.applyTo` for one line: the bytes of `mine` that lie in it, and the aborts. -/
def State.applyLine (s : State) (c tgt : Nat) (m : Commit) (mine : Tbl Byte) (l : Nat) : State :=
  let s := s.lineStore tgt (l % 4096) ((mine.filter (fun x => x.1 / 128 == l)).map (fun x => (x.1 % 128, x.2))) false true
  if m.ord then s.abortReaders m.launch l (ordKey c (m.slot.getD 64) m.stamp) else s

theorem State.applyTo_eq (s : State) (c tgt : Nat) (m : Commit) :
    let mine := m.work.wbuf.filter (fun x => x.1 / 2 ^ 19 == tgt)
    s.applyTo c tgt m = ((mine.map (fun x => x.1 / 128)).eraseDups).foldl (fun s l => s.applyLine c tgt m mine l) s :=
  rfl

theorem State.applyLine_sole (s : State) (c tgt : Nat) {m : Commit} (mine : Tbl Byte) (l : Nat)
    (hs : m.stage ≠ .waiting) (hm : SoleCommit c m s) :
    (s.applyLine c tgt m mine l).mem = ((mine.filter (fun x => x.1 / 128 == l)).map (fun x =>
        (spKey tgt (l % 4096 * 128 + x.1 % 128), x.2))).foldl (fun m x => Memory.write m x.1 x.2) s.mem
      ∧ SoleCommit c m (s.applyLine c tgt m mine l) := by
  have hmem : ∀ b : Tbl Byte, (s.lineStore tgt (l % 4096) (b.map (fun x => (x.1 % 128, x.2))) false true).mem
      = (b.map (fun x => (spKey tgt (l % 4096 * 128 + x.1 % 128), x.2))).foldl
        (fun m x => Memory.write m x.1 x.2) s.mem := fun b => by
    rw [State.lineStore, List.foldl_map, List.foldl_map]
  have hline : ∀ b : Tbl Byte, SoleCommit c m (s.lineStore tgt (l % 4096) b false true) := fun _ => hm
  unfold State.applyLine
  dsimp only
  split
  · obtain ⟨h1, h2⟩ := State.abortReaders_sole _ c m.launch l (ordKey c (m.slot.getD 64) m.stamp) hs (hline _)
    exact ⟨h1.trans (hmem _), h2⟩
  · exact ⟨hmem _, hline _⟩

/-- Memory after the bytes for a core; the commit that applies them stays its core's only one. -/
theorem State.applyTo_sole (s : State) (c tgt : Nat) {m : Commit} (hs : m.stage ≠ .waiting)
    (hm : SoleCommit c m s) :
    (s.applyTo c tgt m).mem = (bytesFor tgt m.work.wbuf).foldl (fun m x => Memory.write m x.1 x.2) s.mem
      ∧ SoleCommit c m (s.applyTo c tgt m) := by
  rw [State.applyTo_eq]
  unfold bytesFor
  dsimp only
  generalize m.work.wbuf.filter (fun x => x.1 / 2 ^ 19 == tgt) = mine
  generalize (mine.map (fun x => x.1 / 128)).eraseDups = lines
  induction lines generalizing s with
  | nil => exact ⟨rfl, hm⟩
  | cons l r ih =>
    obtain ⟨h1, h2⟩ := s.applyLine_sole c tgt mine l hs hm
    obtain ⟨h3, h4⟩ := ih _ h2
    exact ⟨by rw [List.foldl_cons, List.flatMap_cons, List.foldl_append, h3, h1], h4⟩

theorem Tbl.mem_of_find {α : Type} {t : Tbl α} {k : Nat} {v : α} (h : t.find k = some v) : (k, v) ∈ t := by
  induction t with
  | nil => cases h
  | cons x r ih =>
    rw [Tbl.find_cons] at h
    split at h
    · rename_i hx
      rw [← Option.some.inj h, ← hx]
      exact .head _
    · exact .tail _ (ih h)

/-- A core's scratchpad after the bytes for it: a buffered byte, else what it held. -/
theorem read_bytesFor (mem : Memory) (tgt : Nat) {w : Tbl Byte} (hw : (w.map (·.1)).Nodup) {a : Nat}
    (ha : a < 2 ^ 19) :
    ((bytesFor tgt w).foldl (fun m x => Memory.write m x.1 x.2) mem).read (spKey tgt a) =
      (Tbl.find w (tgt * 2 ^ 19 + a)).getD (mem.read (spKey tgt a)) := by
  have key : ∀ x ∈ bytesFor tgt w, x.1 = spKey tgt a → Tbl.find w (tgt * 2 ^ 19 + a) = some x.2 := by
    intro x hx he
    obtain ⟨y, hy, ht, rfl⟩ := (mem_bytesFor tgt w x).1 hx
    have : y.1 = tgt * 2 ^ 19 + a := by simp only [spKey] at he; omega
    rw [← this]
    exact find_mem hw hy
  cases hf : Tbl.find w (tgt * 2 ^ 19 + a) with
  | none =>
    exact Memory.read_foldl_of_ne _ _ _ _ _ (fun x hx he => by rw [key x hx he] at hf; cases hf)
  | some v =>
    refine fold_write (fun x hx he => by rw [key x hx he] at hf; exact Option.some.inj hf) (.inr ?_)
    have hmem : (tgt * 2 ^ 19 + a, v) ∈ w := Tbl.mem_of_find hf
    exact ⟨_, (mem_bytesFor tgt w _).2 ⟨_, hmem, by simp only; omega, rfl⟩, by simp only [spKey]; omega⟩

/-- The bytes for a core leave every byte outside its scratchpad. -/
theorem read_bytesFor_outside (mem : Memory) (tgt : Nat) (w : Tbl Byte) {a : Nat}
    (ha : a < spKey tgt 0 ∨ spKey tgt (2 ^ 19) ≤ a) :
    ((bytesFor tgt w).foldl (fun m x => Memory.write m x.1 x.2) mem).read a = mem.read a := by
  refine Memory.read_foldl_of_ne _ _ _ _ _ (fun x hx he => ?_)
  obtain ⟨y, -, -, rfl⟩ := (mem_bytesFor tgt w x).1 hx
  simp only [spKey] at he ha
  omega

end Sys2Proof.Machine
end

section
/-!
O46: commits, replies, the completion of units, and cancels.
-/

namespace Sys2Proof.Machine

variable {s : State} {c i ch : Nat} {m : Commit}

/-! ## The steps of a commit that no cancel has reached (R168-R172) -/

theorem State.modCommit_eq (s : State) (c id : Nat) (f : Commit → Commit) : s.modCommit c id f =
    s.setCore c { s.core c with commits := (s.core c).commits.map (fun m => if m.id = id then f m else m) } := rfl

theorem commitMay_iff : CommitMay s c m ↔ (s.fenced c 0 m.seq || s.actsDue c m.run
    || (m.ord && (!s.oldest m.launch c (m.slot.getD 64) m.stamp || s.domainBusy m))) = false := by
  unfold CommitMay
  cases m.ord <;> simp [and_assoc]

section
variable (hm : (s.core c).commits[i]? = some m) (hd : m.dead = false)
include hm hd

theorem taskCommit_waits (hst : m.stage = .waiting) (h : ¬ CommitMay s c m) :
    exec (.taskCommit c i) s = .next s := by
  rw [commitMay_iff, Bool.not_eq_false] at h
  simp [execTaskCommit, hm, hd, hst, h]

theorem taskCommit_begins (hst : m.stage = .waiting) (h : CommitMay s c m) : exec (.taskCommit c i) s =
    .next ((s.commitBegins c m).modCommit c m.id (fun y => { y with stage := .scratch })) := by
  rw [commitMay_iff] at h
  simp [execTaskCommit, hm, hd, hst, h]

theorem taskCommit_held {b r} (hst : m.stage = .scratch) (hw : m.work.wbuf = b :: r)
    (h : (s.core (b.1 / 2 ^ 19)).commitHeld (b.1 / 2 ^ 19) m.work.wbuf = true) :
    exec (.taskCommit c i) s = .next s := by
  rw [exec_taskCommit, execTaskCommit, hm]
  simp only [hd, hst, hw, Bool.false_eq_true, if_false]
  exact if_pos (hw ▸ h)

theorem taskCommit_applies {b r} (hst : m.stage = .scratch) (hw : m.work.wbuf = b :: r)
    (h : (s.core (b.1 / 2 ^ 19)).commitHeld (b.1 / 2 ^ 19) m.work.wbuf = false) :
    exec (.taskCommit c i) s = .next ((s.applyTo c (b.1 / 2 ^ 19) m).modCommit c m.id (fun y =>
      { y with work := { y.work with wbuf := y.work.wbuf.filter (fun x => x.1 / 2 ^ 19 != b.1 / 2 ^ 19) } })) := by
  rw [exec_taskCommit, execTaskCommit, hm]
  simp only [hd, hst, hw, Bool.false_eq_true, if_false]
  exact if_neg (by rw [← hw, h]; decide)

theorem taskCommit_applied (hst : m.stage = .scratch) (hw : m.work.wbuf = []) : exec (.taskCommit c i) s =
    .next (s.setCore c { s.core c with commits := atStage m.id .stgs (s.core c).commits }) := by
  simp [execTaskCommit, hm, hd, hst, hw, State.modCommit_eq, atStage]

theorem taskCommit_stored (hst : m.stage = .stgs) (hw : m.work.stgs = []) : exec (.taskCommit c i) s =
    .next (s.setCore c { s.core c with commits := atStage m.id .outs (s.core c).commits }) := by
  simp [execTaskCommit, hm, hd, hst, hw, State.modCommit_eq, atStage]

/-- The `stg` at the head is held by a full counter or an atomic at the port (R139, R169). -/
theorem taskCommit_stgHeld {x r} (hst : m.stage = .stgs) (hw : m.work.stgs = x :: r)
    (h : ¬ (((s.core c).chain m.chain).st ≠ 65535 ∧ ∀ i < x.lines, (s.core c).lineHeld (x.line + i) = false)) :
    exec (.taskCommit c i) s = .next s := by
  have h' : ((s.core c).chain m.chain).st = 65535 ∨ ∃ j < x.lines, (s.core c).lineHeld (x.line + j) = true := by
    by_contra hn
    simp only [not_or, not_exists, not_and, Bool.not_eq_true] at hn
    exact h hn
  simp [execTaskCommit, hm, hd, hst, hw, h']

/-- The `stg` command that a commit issues for a recorded word (R126, R169). -/
def issuedStg (s : State) (c : Nat) (m : Commit) (x : Stg) : StgCmd :=
  { id := s.fresh, chain := m.chain, va := x.va, data := s.spBytes c (x.line * 128) (x.lines * 128)
    bad := (List.range x.lines).map (fun i => s.isBad (lineKey c (x.line + i))), seq := m.seq }

theorem taskCommit_issuesStg {x r} (hst : m.stage = .stgs) (hw : m.work.stgs = x :: r)
    (h : ((s.core c).chain m.chain).st ≠ 65535 ∧ ∀ i < x.lines, (s.core c).lineHeld (x.line + i) = false) :
    exec (.taskCommit c i) s = .next
      ((((s.modCore c (fun k => { k with stgs := k.stgs ++ [issuedStg s c m x] })).modChain c m.chain
        (fun y => { y with st := y.st + 1 })).next).modCommit c m.id
          (fun y => { y with work := { y.work with stgs := r } })) := by
  obtain ⟨h1, h2⟩ := h
  have h' : (decide (((s.core c).chain m.chain).st = 65535)
      || (List.range x.lines).any (fun i => (s.core c).lineHeld (x.line + i))) = false := by simpa [h1] using h2
  rw [exec_taskCommit, execTaskCommit, hm]
  simp only [hd, hst, hw, Bool.false_eq_true, if_false, h']
  rfl

theorem taskCommit_delivers {o r u} (hst : m.stage = .outs) (hw : m.work.outs = o :: r)
    (h : s.deliverOut c m.launch o = (u, true)) :
    exec (.taskCommit c i) s = .next (u.modCommit c m.id (fun y => { y with work := { y.work with outs := r } })) := by
  simp [execTaskCommit, hm, hd, hst, hw, h]

theorem taskCommit_undelivered {o r u} (hst : m.stage = .outs) (hw : m.work.outs = o :: r)
    (h : s.deliverOut c m.launch o = (u, false)) : exec (.taskCommit c i) s = .next u := by
  simp [execTaskCommit, hm, hd, hst, hw, h]

theorem taskCommit_finishes (hst : m.stage = .outs) (hw : m.work.outs = []) :
    exec (.taskCommit c i) s = .next (s.finishCommit c m) := by
  simp [execTaskCommit, hm, hd, hst, hw]

end

/-! ## What each step leaves -/

theorem State.find_modLaunch (s : State) (n : Nat) (f : Launch → Launch) (j : Nat) :
    (s.modLaunch n f).launches.find j = if j = n then (s.launches.find n).map f else s.launches.find j := by
  unfold State.modLaunch
  split
  · rename_i l h
    rw [h]
    exact Tbl.find_put _ _ _ _
  · rename_i h
    split
    · rename_i hj; rw [hj, h]; rfl
    · rfl

/-- A commit of an ordered domain becomes the last that its launch has committed, unless a later one has (R172). -/
theorem commitBegins_ord (s : State) (c : Nat) {m : Commit} (ho : m.ord = true) :
    ∃ f : Launch → Launch, s.commitBegins c m = s.modLaunch m.launch f ∧ ∀ l, f l = { l with
      last := if l.last.any (fun y => !ordLt y (ordKey c (m.slot.getD 64) m.stamp)) then l.last
        else some (ordKey c (m.slot.getD 64) m.stamp) } := by
  refine ⟨_, by rw [State.commitBegins, if_pos ho], fun l => ?_⟩
  cases hl : l.last with
  | none => simp
  | some y => cases hlt : ordLt y (ordKey c (m.slot.getD 64) m.stamp) <;> simp [hlt]

/-- The beginning of a commit (R172). -/
theorem commitBegun (hm : (s.core c).commits[i]? = some m) (hd : m.dead = false) (hst : m.stage = .waiting)
    (h : CommitMay s c m) : Completes (.taskCommit c i) s (fun t => t.mem = s.mem
      ∧ t.core c = { s.core c with commits := atStage m.id .scratch (s.core c).commits }
      ∧ (m.ord = false → t = s.setCore c (t.core c))
      ∧ (∀ l, m.ord = true → s.launches.find m.launch = some l → t.launches.find m.launch = some { l with
          last := if l.last.any (fun y => !ordLt y (ordKey c (m.slot.getD 64) m.stamp)) then l.last
            else some (ordKey c (m.slot.getD 64) m.stamp) })) := by
  refine ⟨_, taskCommit_begins hm hd hst h, ?_⟩
  cases ho : m.ord
  · rw [State.commitBegins, ho, if_neg (by decide), State.modCommit_eq]
    refine ⟨rfl, ?_, fun _ => ?_, fun l hl => absurd hl (by decide)⟩
    · rw [State.core_setCore, if_pos rfl]; rfl
    · rw [State.core_setCore, if_pos rfl]
  · obtain ⟨f, he, hf⟩ := commitBegins_ord s c ho
    have hsame := s.modLaunch_same m.launch f
    rw [he, State.modCommit_eq]
    refine ⟨hsame.2.2, ?_, fun hn => absurd hn (by decide), fun l _ hl => ?_⟩
    · rw [State.core_setCore, if_pos rfl, hsame.core]; rfl
    · rw [State.setCore_launches, State.find_modLaunch, if_pos rfl, hl, Option.map_some, hf]

/-- The bytes for one core are applied in one step (R169). -/
theorem commitApplied {b r} (hm : (s.core c).commits[i]? = some m) (hd : m.dead = false) (hst : m.stage = .scratch)
    (hw : m.work.wbuf = b :: r) (h : (s.core (b.1 / 2 ^ 19)).commitHeld (b.1 / 2 ^ 19) m.work.wbuf = false)
    (hnd : (m.work.wbuf.map (·.1)).Nodup) (hid : ∀ y ∈ (s.core c).commits, y.id = m.id → y = m) :
    Completes (.taskCommit c i) s (fun t =>
      (∀ a < 2 ^ 19, t.mem.read (spKey (b.1 / 2 ^ 19) a) =
        (Tbl.find m.work.wbuf (b.1 / 2 ^ 19 * 2 ^ 19 + a)).getD (s.mem.read (spKey (b.1 / 2 ^ 19) a)))
      ∧ (∀ a, (a < spKey (b.1 / 2 ^ 19) 0 ∨ spKey (b.1 / 2 ^ 19) (2 ^ 19) ≤ a) → t.mem.read a = s.mem.read a)
      ∧ { m with work := { m.work with wbuf := m.work.wbuf.filter (fun x => x.1 / 2 ^ 19 != b.1 / 2 ^ 19) } }
        ∈ (t.core c).commits) := by
  have hsole : SoleCommit c m s := ⟨List.mem_of_getElem? hm, hid⟩
  obtain ⟨hmem, hsole'⟩ := s.applyTo_sole c (b.1 / 2 ^ 19) (by rw [hst]; decide) hsole
  refine ⟨_, taskCommit_applies hm hd hst hw h, ?_⟩
  rw [State.modCommit_eq]
  refine ⟨fun a ha => ?_, fun a ha => ?_, ?_⟩
  · rw [State.setCore_mem, hmem, read_bytesFor _ _ hnd ha]
  · rw [State.setCore_mem, hmem, read_bytesFor_outside _ _ _ ha]
  · rw [State.core_setCore, if_pos rfl]
    exact List.mem_map.2 ⟨m, hsole'.1, if_pos rfl⟩

theorem commitIssuesStg {x r} (hm : (s.core c).commits[i]? = some m) (hd : m.dead = false) (hst : m.stage = .stgs)
    (hw : m.work.stgs = x :: r)
    (h : ((s.core c).chain m.chain).st ≠ 65535 ∧ ∀ i < x.lines, (s.core c).lineHeld (x.line + i) = false) :
    Completes (.taskCommit c i) s (fun t => t.mem = s.mem
      ∧ (t.core c).stgs = (s.core c).stgs ++ [issuedStg s c m x]
      ∧ (t.core c).chain m.chain = { (s.core c).chain m.chain with st := ((s.core c).chain m.chain).st + 1 }) := by
  refine ⟨_, taskCommit_issuesStg hm hd hst hw h, rfl, ?_, ?_⟩
  · simp [State.modCommit_eq]
  · simp [State.modCommit_eq, Core.chain]

/-- A `send` to a channel without row tags arrives there (R422). -/
theorem commitSendsToVc {tgt v w r} (hm : (s.core c).commits[i]? = some m) (hd : m.dead = false)
    (hst : m.stage = .outs) (hw : m.work.outs = .sendVc tgt v w :: r) (ht : (s.core tgt).vctags.find v = none) :
    Completes (.taskCommit c i) s (fun t => t.mem = s.mem
      ∧ ((t.core tgt).vc v).q = ((s.core tgt).vc v).q ++ [⟨w, ((s.core tgt).vc v).arrived, s.cycle⟩]
      ∧ ((t.core tgt).vc v).resv = ((s.core tgt).vc v).resv - 1) := by
  have hout : s.deliverOut c m.launch (.sendVc tgt v w) =
      ((s.vcPut tgt v w).modVc tgt v (fun x => { x with resv := x.resv - 1 }), true) := by
    simp [State.deliverOut, State.vcArrive, ht]
  have hvcs : ∀ (u : State) f, ((u.modCommit c m.id f).core tgt).vcs = (u.core tgt).vcs := by
    intro u f
    rw [State.modCommit_eq, State.core_setCore]
    split
    · rename_i hc; rw [hc]
    · rfl
  refine ⟨_, taskCommit_delivers hm hd hst hw hout, rfl, ?_, ?_⟩
  · simp only [Core.vc, hvcs]
    simp [State.vcPut, Core.vc]
  · simp only [Core.vc, hvcs]
    simp [State.vcPut, Core.vc]

/-- A `send` to a sink port waits for the name of its object and then stands at the port's end (R149, R422). -/
theorem commitSendsToSink {p w r} (hm : (s.core c).commits[i]? = some m) (hd : m.dead = false)
    (hst : m.stage = .outs) (hw : m.work.outs = .sendSink p w :: r) :
    (s.nameAhead c (32 + p) = false → exec (.taskCommit c i) s = .next s)
    ∧ (s.nameAhead c (32 + p) = true → Completes (.taskCommit c i) s (fun t => t.mem = s.mem
      ∧ ((t.core c).port (16 + p)).buf = pushTok ((s.core c).port (16 + p)).buf w
      ∧ ((t.core c).port (16 + p)).resv = ((s.core c).port (16 + p)).resv - 1)) := by
  refine ⟨fun hn => ?_, fun hn => ?_⟩
  · exact taskCommit_undelivered hm hd hst hw (u := s) (by simp [State.deliverOut, hn])
  · have hout : s.deliverOut c m.launch (.sendSink p w) =
        ((s.modPort c (16 + p) (fun x => { x with resv := x.resv - 1 })).sinkPut c p w, true) := by
      simp only [State.deliverOut, hn, if_true]
    refine ⟨_, taskCommit_delivers hm hd hst hw hout, ?_⟩
    obtain ⟨-, hmem, -, -, hcore, -⟩ := observe_lanes
      ((s.modPort c (16 + p) (fun x => { x with resv := x.resv - 1 })).modPort c (16 + p)
        (fun x => { x with buf := pushTok x.buf w })) c (32 + p) w
    simp only [State.modCommit_eq, State.sinkPut, State.setCore_mem, State.core_setCore, if_true, Core.port]
    rw [hmem, hcore c]
    simp [Core.port]

/-- A `spawn` starts its task, with a chain of its own (R425). -/
theorem commitSpawns {n e start stamp carry r} (hm : (s.core c).commits[i]? = some m) (hd : m.dead = false)
    (hst : m.stage = .outs) (hw : m.work.outs = .spawn n e start stamp carry :: r) :
    Completes (.taskCommit c i) s (fun t => t.mem = s.mem
      ∧ (t.core c).chain s.fresh = { idx := e, launch := m.launch }
      ∧ (t.core c).slots.find n = some { st := .ready, start := start, idx := e, how := 1, stamp := stamp
                                         carry := carry, chain := s.fresh, since := s.cycle }) := by
  refine ⟨_, taskCommit_delivers hm hd hst hw rfl, rfl, ?_, ?_⟩
  · simp [State.modCommit_eq, Core.chain]
  · simp [State.modCommit_eq]

/-- The finished commit is gone; its slot is free, or the continuation's (R170, R172). -/
theorem finishCommit_cases (s : State) (c : Nat) (m : Commit) (hd : m.dead = false) :
    let k := s.core c
    let left := k.commits.filter (fun y => y.id != m.id)
    (m.slot = none → s.finishCommit c m = s.setCore c { k with commits := left })
    ∧ (∀ n, m.slot = some n → m.cont = none →
      s.finishCommit c m = s.setCore c { k with commits := left, slots := k.slots.drop n })
    ∧ (∀ n y w, m.slot = some n → m.cont = some y → y.st = .waitWake w →
      let y' : Slot := if (s.setCore c { k with commits := left }).wakes c y w
        then { y with st := .ready, since := s.cycle } else y
      s.finishCommit c m = s.setCore c { k with commits := left, slots := k.slots.put n y' }) := by
  refine ⟨fun h => ?_, fun n h hc => ?_, fun n y w h hc hy => ?_⟩
  · simp [State.finishCommit, h]
  · simp [State.finishCommit, h, hc]
  · simp [State.finishCommit, h, hc, hy, hd]

/-! ## Units, replies and cancels -/

theorem Tbl.get_of_find {α : Type} {t : Tbl α} {k : Nat} {x : α} (d : α) (h : t.find k = some x) :
    Tbl.get d t k = x := by rw [Tbl.get_eq_find, h]; rfl

/-- A unit completes once its task, its commits, its forks and its counters are finished (R18, R69). -/
theorem unitCompletion_done {x : Chain} (hx : (s.core c).chains.find ch = some x) (hp : x.posted = false)
    (hrun : (s.core c).ctl.slot = none ∨ (s.core c).ctl.chain ≠ ch)
    (hmx : (s.core c).mx.active = false ∨ (s.core c).mx.halt = true ∨ (s.core c).mx.chain ≠ ch)
    (hss : (s.core c).ss.active = false ∨ (s.core c).ss.halt = true ∨ (s.core c).ss.chain ≠ ch)
    (hld : x.ld = 0) (hst : x.st = 0) (hcp : x.cp = 0) (hmt : x.mt = 0) (hcom : ∀ y ∈ (s.core c).commits, y.chain ≠ ch)
    (he : x.ended = true
      ∨ (x.status = .faulted ∧ ∃ y ∈ (s.core c).slots, y.2.chain = ch ∧ y.2.st = .waitWake .rdv)) :
    let u := s.setCore c ((({ s.core c with chains := (s.core c).chains.put ch { x with posted := true } } :
      Core).unfork ch).dropRdv ch)
    exec (.unitCompletion c ch) s = if x.status = .faulted ∧ x.launch ≠ 0 then
      .next ((u.modLaunch x.launch (fun l => { l with fault := true })).askCancel 1 x.launch) else .next u := by
  have running : ((s.core c).ctl.slot.isSome && (s.core c).ctl.chain == ch) = false := by
    obtain h | h := hrun <;> simp [h]
  have forkM : ((s.core c).mx.active && !(s.core c).mx.halt && (s.core c).mx.chain == ch) = false := by
    obtain h | h | h := hmx <;> simp [h]
  have forkS : ((s.core c).ss.active && !(s.core c).ss.halt && (s.core c).ss.chain == ch) = false := by
    obtain h | h | h := hss <;> simp [h]
  have commits : (s.core c).commits.any (fun m => m.chain == ch) = false := by
    simpa [List.any_eq_false] using hcom
  have finished : (x.ended || (x.status == .faulted
      && (s.core c).slots.any (fun y => y.2.chain == ch && y.2.st == .waitWake .rdv))) = true := by
    obtain h | ⟨h, y, hy, h1, h2⟩ := he
    · simp [h]
    · have : (s.core c).slots.any (fun y => y.2.chain == ch && y.2.st == .waitWake .rdv) = true :=
        List.any_eq_true.2 ⟨y, hy, by simp [h1, h2]⟩
      simp [h, this]
  simp [execUnitCompletion, hx, hp, running, forkM, forkS, hld, hst, hcp, hmt, commits, finished, Core.chain,
    Tbl.get_of_find _ hx]

/-- A reply reaches the run that runs (R314). -/
theorem registerReply_running {o : Owed} {v : Word} (ho : (s.core c).owed[i]? = some o) (hv : o.val = some v)
    (hr : (s.core c).ctl.run = o.run) : exec (.registerReplyArrival c i) s = .next (s.setCore c { s.core c with
      owed := (s.core c).owed.filter (fun y => y.id != o.id), ctl := (s.core c).ctl.setDest o.dst v }) := by
  simp [execRegisterReplyArrival, ho, hv, hr]

/-- The copy of a halted task's register does not depend on the outstanding replies. -/
theorem Core.setCopy_owed (k : Core) (l : List Owed) (d : Dest) (v : Word) :
    ({ k with owed := l } : Core).setCopy d v = { k.setCopy d v with owed := l } := by
  cases d <;> simp only [Core.setCopy] <;> split <;> rfl

/-- The copy of a register leaves the tasks that the core has suspended. -/
theorem Core.setCopy_keeps (k : Core) (d : Dest) (v : Word) :
    (k.setCopy d v).halted = k.halted ∧ (k.setCopy d v).slots = k.slots := by
  cases d <;> simp only [Core.setCopy] <;> split <;> exact ⟨rfl, rfl⟩

/-- A reply reaches a run that is suspended or halted (R239, R243). -/
theorem registerReply_suspended {o : Owed} {v : Word} (ho : (s.core c).owed[i]? = some o) (hv : o.val = some v)
    (hr : (s.core c).ctl.run ≠ o.run) :
    exec (.registerReplyArrival c i) s = .next (s.setCore c
      { (if (s.core c).halted.any (fun a => a.run == o.run) then (s.core c).setCopy o.dst v else s.core c) with
        owed := (s.core c).owed.filter (fun y => y.id != o.id)
        halted := (s.core c).halted.map (fun a => if a.run = o.run then a.setDest o.dst v else a)
        slots := (s.core c).slots.map (fun y => (y.1, { y.2 with
          saved := y.2.saved.map (fun a => if a.run = o.run then a.setDest o.dst v else a) })) }) := by
  obtain ⟨h1, h2⟩ := (s.core c).setCopy_keeps o.dst v
  rw [exec_registerReplyArrival, execRegisterReplyArrival, ho]
  simp only [hv, State.modCore_eq, hr, if_false, Core.setCopy_owed]
  split <;> simp [h1, h2]

/-- Settles O46, by the stages of a commit and one lemma for each of its events. -/
theorem commitsAndUnits : Obligations.CommitsAndUnits := by
  unfold Obligations.CommitsAndUnits
  intro s c i ch m x o k left
  refine ⟨fun hm hd => ⟨fun hst => ⟨taskCommit_waits hm hd hst, commitBegun hm hd hst⟩, ?_,
      taskCommit_applied hm hd, ?_, taskCommit_stored hm hd, ?_, ?_, ?_, fun hst hw => ?_⟩, ?_, ?_, fun v ho hv => ?_,
      fun lvl id hc => ?_⟩
  · rintro tgt b r hst hw rfl
    exact ⟨taskCommit_held hm hd hst hw, commitApplied hm hd hst hw⟩
  · exact fun g r hst hw => ⟨taskCommit_stgHeld hm hd hst hw, commitIssuesStg hm hd hst hw⟩
  · exact fun tgt v w r hst hw ht => commitSendsToVc hm hd hst hw ht
  · exact fun p w r hst hw => commitSendsToSink hm hd hst hw
  · exact fun n e start stamp carry r hst hw => commitSpawns hm hd hst hw
  · rw [taskCommit_finishes hm hd hst hw]
    obtain ⟨h1, h2, h3⟩ := finishCommit_cases s c m hd
    exact ⟨fun h => by rw [h1 h], fun n h hc => by rw [h2 n h hc], fun n y w h hc hy => by rw [h3 n y w h hc hy]⟩
  · intro hm hd hw hslot
    simp [execTaskCommit, hm, hd, hw, State.finishCommit, hslot, k, left]
  · intro hx hp hrun hmx hss hld hst hcp hmt hcom he ends
    have hdone := unitCompletion_done hx hp hrun hmx hss hld hst hcp hmt hcom he
    refine ⟨fun hn => ?_, fun l hf hl hfind => ?_⟩
    · rw [hdone, if_neg (by rintro ⟨h1, h2⟩; exact hn.elim (fun h => h h1) h2)]
    · refine ⟨_, by rw [hdone, if_pos ⟨hf, hl⟩], ?_⟩
      have hsame := (s.setCore c ends).modLaunch_same x.launch (fun l => { l with fault := true })
      refine ⟨hsame.2.2, ?_, ?_, ?_⟩
      · rw [State.askCancel_launches, State.find_modLaunch, if_pos rfl, State.setCore_launches, hfind]; rfl
      · rw [State.askCancel_cancels]
        congr 1
        unfold State.modLaunch
        split <;> rfl
      · rw [State.core_askCancel, hsame.core, State.core_setCore, if_pos rfl]
  · refine ⟨registerReply_running ho hv, fun u hr hu => ?_⟩
    rw [registerReply_suspended ho hv hr, hu]
  · refine ⟨fun hp => ?_, fun h1 h2 => ?_⟩
    · rw [exec_cancelArrival, execCancelArrival, hc]
      exact if_pos (by obtain h | h := hp <;> simp [h])
    · rw [exec_cancelArrival, execCancelArrival, hc]
      exact if_neg (by simp [h1, h2])

end Sys2Proof.Machine
end

section
/-!
SUPPORT. Recalls and walks (R118, R166), tokens (R202), and line fills (R364): what they leave unchanged.
-/

namespace Sys2Proof.Machine

/-! ## Recalls and walks (R118, R166) -/

/-- Only memory and the Detents differ. -/
def RecallsOnly (s t : State) : Prop := t = { s with mem := t.mem, clusters := t.clusters }

theorem RecallsOnly.refl (s : State) : RecallsOnly s s := rfl

theorem RecallsOnly.trans {s t u : State} (h : RecallsOnly s t) (g : RecallsOnly t u) : RecallsOnly s u := by
  unfold RecallsOnly at *
  rw [g, h]

theorem RecallsOnly.core {s t : State} (h : RecallsOnly s t) (c : Nat) : t.core c = s.core c := by
  unfold RecallsOnly at h
  rw [h]
  rfl

theorem RecallsOnly.tlb {s t : State} (h : RecallsOnly s t) : t.tlb = s.tlb := by
  unfold RecallsOnly at h
  rw [h]

theorem foldl_recalls {β : Type} (f : State → β → State) (h : ∀ s x, RecallsOnly s (f s x)) (l : List β) (s : State) :
    RecallsOnly s (l.foldl f s) := by
  induction l generalizing s with
  | nil => exact RecallsOnly.refl s
  | cons x r ih => exact (h s x).trans (ih _)

theorem State.writeBack_recalls (s : State) (cl line : Nat) : RecallsOnly s (s.writeBack cl line) := by
  unfold State.writeBack
  dsimp only
  split
  · exact RecallsOnly.refl s
  · rfl

theorem State.recall_recalls (s : State) (line : Nat) : RecallsOnly s (s.recall line) := by
  refine foldl_recalls _ (fun s x => ?_) _ _
  split
  · exact s.writeBack_recalls _ _
  · exact RecallsOnly.refl s

theorem State.walked_recalls (s : State) (die p va : Nat) : RecallsOnly s (s.walked die p va) := by
  unfold State.walked
  split
  · exact RecallsOnly.refl s
  · exact foldl_recalls _ (fun s x => s.recall_recalls _) _ _

theorem State.walkedLines_recalls (s : State) (die p va n : Nat) : RecallsOnly s (s.walkedLines die p va n) :=
  foldl_recalls _ (fun s _ => s.walked_recalls _ _ _) _ _

/-- A Detent that does not hold the line has nothing to write back. -/
theorem State.writeBack_of_not_hot (s : State) (cl line : Nat) (h : ∀ y ∈ (s.cluster cl).hot, y.line ≠ line) :
    s.writeBack cl line = s := by
  have : (s.cluster cl).hot.find? (fun h => h.line == line) = none := by
    simpa [List.find?_eq_none] using h
  simp [State.writeBack, this]

/-- The bytes of a hot line are home, and the Detent has let go of it (R140, R166). -/
theorem State.writeBack_of_hot (s : State) (cl line : Nat) {h : Hot}
    (hf : (s.cluster cl).hot.find? (fun h => h.line == line) = some h) :
    (s.writeBack cl line).mem =
        h.changed.foldl (fun (m : Memory) x => m.write (line * 128 + x.1) x.2) s.mem
      ∧ ((s.writeBack cl line).cluster cl).hot = (s.cluster cl).hot.filter (fun h => h.line != line) := by
  unfold State.writeBack
  simp only [hf]
  refine ⟨rfl, ?_⟩
  rw [State.cluster_modCluster, if_pos rfl]
  rfl

/-- Bytes written by their offsets in a line read back. -/
theorem Memory.read_offsets (m : Memory) (base o : Nat) {w : Tbl Byte} (hw : (w.map (·.1)).Nodup) :
    (w.foldl (fun (m : Memory) x => m.write (base + x.1) x.2) m).read (base + o) =
      (Tbl.find w o).getD (m.read (base + o)) := by
  cases hf : Tbl.find w o with
  | none =>
    refine Memory.read_foldl_of_ne (fun x : Nat × Byte => base + x.1) Prod.snd w m _ (fun x hx he => ?_)
    have : x.1 = o := Nat.add_left_cancel he
    rw [← this, find_mem hw hx] at hf
    cases hf
  | some v =>
    rw [← List.foldl_map (f := fun x : Nat × Byte => (base + x.1, x.2)) (g := fun (m : Memory) x => m.write x.1 x.2)]
    refine fold_write (fun x hx he => ?_) (.inr ⟨_, List.mem_map_of_mem (Tbl.mem_of_find hf), rfl⟩)
    obtain ⟨y, hy, rfl⟩ := List.mem_map.1 hx
    have : y.1 = o := Nat.add_left_cancel he
    rw [← this, find_mem hw hy] at hf
    exact Option.some.inj hf

/-! ## Tokens (R202) -/

/-- Of a core only its bucket differs after its tokens are taken. -/
theorem State.takeTokens_core (s : State) (c n d : Nat) :
    ((s.takeTokens c n).1.core d) = { s.core d with bucket := ((s.takeTokens c n).1.core d).bucket } := by
  unfold State.takeTokens
  dsimp only
  split
  · rfl
  · simp only [State.core_modPart, State.modCore_eq, State.core_setCore]
    split
    · rename_i h; rw [h]
    · rfl

/-! ## Fills (R364) -/

@[simp] theorem State.fillLine_mem (s : State) (l : Nat) : (s.fillLine l).mem = s.mem := rfl
@[simp] theorem State.isBad_fillLine (s : State) (l j : Nat) : (s.fillLine l).isBad j = s.isBad j := rfl
@[simp] theorem State.isEmpty_fillLine (s : State) (l j : Nat) :
    (s.fillLine l).isEmpty j = if j = l then false else s.isEmpty j := by
  simp [State.fillLine, State.setFull, State.isEmpty, Tbl.get_set]

theorem State.core_fillLine (s : State) (l c : Nat) :
    (s.fillLine l).core c = { s.core c with slots := wakeSlots l s.cycle (s.core c).slots } := s.core_setFull l c

/-- A store to a scratchpad leaves every core's record. -/
theorem State.spStore_cores (s : State) (c off : Nat) (l : List Byte) (bad pub : Bool) :
    (s.spStore c off l bad pub).cores = s.cores := by
  have lines : ∀ (ch : List (List Byte)) (a : State × Nat), ((ch.foldl (fun (a : State × Nat) b =>
      (a.1.lineStore c a.2 (indexBytes 0 b) bad pub, a.2 + 1)) a).1).cores = a.1.cores := by
    intro ch
    induction ch with
    | nil => intro a; rfl
    | cons b r ih => intro a; rw [List.foldl_cons, ih]; rfl
  unfold State.spStore
  dsimp only
  rw [lines]
  split <;> rfl

/-- The poison of a line after a store that lies in it (R233). -/
theorem store_one_isBad (s : State) (c off : Nat) (l : List Byte) (bad pub : Bool) (h0 : l ≠ [])
    (h : off % 128 + l.length ≤ 128) :
    (s.spStore c off l bad pub).isBad (lineKey c (off / 128)) =
      (bad || (s.isBad (lineKey c (off / 128)) && l.length != 128)) := by
  have hl : (indexBytes (off % 128) l).length = l.length := by
    rw [← List.length_map (f := (·.1)), indexBytes_keys, List.length_range']
  rw [store_one s c off l bad pub h0 h, State.isBad, State.lineStore, Tbl.get_set, if_pos rfl, hl]

end Sys2Proof.Machine
end

section
/-!
O47: what each request of the memory traffic does when it is served.
-/

namespace Sys2Proof.Machine

variable {s : State} {c i : Nat}

/-! ## `ldg` commands (R125, R370) -/

/-- The physical lines of an `ldg`: those it has noted, or the translation of its range (R370). -/
def ldgPages (u : State) (c p : Nat) (r : Ldg) : List Nat :=
  if r.pas = [] then lineAddrs u (dieOf c) p r.va.toNat false r.lines else r.pas

/-- The machine once an `ldg` has noted its physical lines (R118, R370). -/
def ldgWalked (u : State) (c p : Nat) (r : Ldg) : State :=
  if r.pas = [] then (u.walkedLines (dieOf c) p r.va.toNat r.lines).modLdg c r.id
    (fun y => { y with pas := ldgPages u c p r }) else u

/-- The fault of an `ldg` that has not noted its pages (R119, R370). -/
def ldgFault (s : State) (c : Nat) (r : Ldg) : Option Nat :=
  if r.pas = [] then firstFault s (dieOf c) (s.core c).part r.va.toNat false r.lines else none

theorem ldgWalked_part (u : State) (c p : Nat) (r : Ldg) : ((ldgWalked u c p r).core c).part = (u.core c).part := by
  unfold ldgWalked
  split
  · simp [State.modLdg, (u.walkedLines_recalls _ _ _ _).core]
  · rfl

section
variable {r : Ldg} (hr : (s.core c).ldgs[i]? = some r)
include hr

theorem ldgLineArrival_held (h : r.stalled = true ∨ s.fenced c 1 r.seq = true
    ∨ (s.core c).lineHeld (r.line + r.got) = true) : exec (.ldgLineArrival c i) s = .next s := by
  rw [exec_ldgLineArrival, execLdgLineArrival, hr]
  exact if_pos (by obtain h | h | h := h <;> simp [h])

/-- What an `ldg` comes to that nothing holds. -/
theorem ldgLineArrival_served (h : ¬ (r.stalled = true ∨ s.fenced c 1 r.seq = true
    ∨ (s.core c).lineHeld (r.line + r.got) = true)) :
    (∀ va, ldgFault s c r = some va → exec (.ldgLineArrival c i) s = .next
      ((s.modLdg c r.id (fun y => { y with stalled := true })).stallSlice c (BitVec.ofNat 64 va) (.ldg c r.id)))
    ∧ (∀ u, ldgFault s c r = none → s.takeTokens c 128 = (u, false) → exec (.ldgLineArrival c i) s = .next u)
    ∧ (∀ u, ldgFault s c r = none → s.takeTokens c 128 = (u, true) → exec (.ldgLineArrival c i) s = .next
      ((ldgWalked u c (s.core c).part r).ldgLine c r ((ldgPages u c (s.core c).part r)[r.got]?.getD 0))) := by
  have hf : (r.stalled || s.fenced c 1 r.seq || (s.core c).lineHeld (r.line + r.got)) = false := by
    simpa [not_or, and_assoc] using h
  refine ⟨fun va hva => ?_, fun u hva ht => ?_, fun u hva ht => ?_⟩ <;>
    simp only [exec_ldgLineArrival, execLdgLineArrival, hr, hf, Bool.false_eq_true, if_false, ldgFault,
      List.isEmpty_iff] at hva ⊢
  · simp only [hva]
  · simp only [hva, ht]
  · simp only [hva, ht, ldgWalked, ldgPages]
    split <;> rfl

end

/-- The arrival of an `ldg`'s next line (R125, R364, R370). -/
theorem ldgLine_arrives {r : Ldg} {w v : State} {pa : Nat} {bytes : List Byte} {bad : Bool}
    (hv : (w.keyed (w.core c).part ((List.range 128).map (pa + ·)) false).physRead ((List.range 128).map (pa + ·))
      = (v, bytes, bad)) :
    let line := r.line + r.got
    let t := w.ldgLine c r pa
    (r.named.contains line = false → t.mem = v.mem.writes (spKey c (line * 128)) bytes
      ∧ t.isEmpty (lineKey c line) = false ∧ t.isBad (lineKey c line) = bad)
    ∧ (r.named.contains line = true → t.mem = v.mem ∧ t.empty = v.empty ∧ t.badLine = v.badLine)
    ∧ (r.got + 1 = r.lines → (t.core c).ldgs = (v.core c).ldgs.filter (fun y => y.id != r.id)
      ∧ (t.core c).chain r.chain = { (v.core c).chain r.chain with ld := ((v.core c).chain r.chain).ld - 1 })
    ∧ (r.got + 1 ≠ r.lines → (t.core c).ldgs =
        (v.core c).ldgs.map (fun y => if y.id = r.id then { y with got := y.got + 1 } else y)) := by
  intro line t
  have hlen : bytes.length = 128 := by
    have := congrArg (fun x => x.2.1.length) hv
    simpa [State.physRead] using this.symm
  have hne : bytes ≠ [] := fun h => by rw [h] at hlen; cases hlen
  have hfit : line * 128 % 128 + bytes.length ≤ 128 := by omega
  -- the machine after the line's bytes, before the command is counted
  obtain ⟨x, hx⟩ : ∃ x, x = if r.named.contains line then v
      else (v.spStore c (line * 128) bytes bad false).fillLine (lineKey c line) := ⟨_, rfl⟩
  have ht : t = if r.got + 1 = r.lines then
      (x.modCore c (fun k => { k with ldgs := k.ldgs.filter (fun y => y.id != r.id) })).modChain c r.chain
        (fun y => { y with ld := y.ld - 1 })
      else x.modLdg c r.id (fun y => { y with got := y.got + 1 }) := by
    simp only [t, State.ldgLine, hv, hx, line]
  have keep : t.mem = x.mem ∧ t.empty = x.empty ∧ t.badLine = x.badLine := by
    rw [ht]; split <;> exact ⟨rfl, rfl, rfl⟩
  have hcore : (x.core c).ldgs = (v.core c).ldgs ∧ (x.core c).chains = (v.core c).chains := by
    rw [hx]
    split
    · exact ⟨rfl, rfl⟩
    · rw [State.core_fillLine, State.core, store_one_cores _ _ _ _ _ _ hne hfit]
      exact ⟨rfl, rfl⟩
  refine ⟨fun hn => ?_, fun hn => ?_, fun hg => ?_, fun hg => ?_⟩
  · rw [if_neg (by rw [hn]; decide)] at hx
    refine ⟨?_, ?_, ?_⟩
    · rw [keep.1, hx, State.fillLine_mem, store_one_mem _ _ _ _ _ _ hne hfit]
    · rw [State.isEmpty, keep.2.1, ← State.isEmpty, hx, State.isEmpty_fillLine, if_pos rfl]
    · rw [State.isBad, keep.2.2, ← State.isBad, hx, State.isBad_fillLine]
      have := store_one_bad v c (line * 128) bytes bad false hlen (by omega)
      rwa [Nat.mul_div_cancel _ (by decide)] at this
  · rw [if_pos hn] at hx
    rw [keep.1, keep.2.1, keep.2.2, hx]
    exact ⟨rfl, rfl, rfl⟩
  · rw [ht, if_pos hg]
    simp [Core.chain, hcore]
  · rw [ht, if_neg hg]
    simp [State.modLdg, hcore]

/-! ## `stg` commands (R126) -/

section
variable {r : StgCmd} (hr : (s.core c).stgs[i]? = some r)
include hr

theorem stgWriteComplete_held (h : r.stalled = true ∨ s.fenced c 0 r.seq = true ∨ ∃ y ∈ (s.core c).stgs.take i,
    y.va.toNat < r.va.toNat + r.data.length ∧ r.va.toNat < y.va.toNat + y.data.length) :
    exec (.stgWriteComplete c i) s = .next s := by
  rw [exec_stgWriteComplete, execStgWriteComplete, hr]
  refine if_pos ?_
  obtain h | h | ⟨y, hy, h⟩ := h
  · simp [h]
  · simp [h]
  · have : (((s.core c).stgs.take i).any (fun y => decide (y.va.toNat < r.va.toNat + r.data.length)
        && decide (r.va.toNat < y.va.toNat + y.data.length))) = true :=
      List.any_eq_true.2 ⟨y, hy, by simpa using h⟩
    simp [this]

/-- What an `stg` comes to that nothing holds. -/
theorem stgWriteComplete_served (h : ¬ (r.stalled = true ∨ s.fenced c 0 r.seq = true
    ∨ ∃ y ∈ (s.core c).stgs.take i,
      y.va.toNat < r.va.toNat + r.data.length ∧ r.va.toNat < y.va.toNat + y.data.length)) :
    let fault := firstFault s (dieOf c) (s.core c).part r.va.toNat true (r.data.length / 128)
    (∀ va, fault = some va → exec (.stgWriteComplete c i) s = .next ((s.setCore c { s.core c with
      stgs := (s.core c).stgs.map (fun y => if y.id = r.id then { y with stalled := true } else y) }).stallSlice c
        (BitVec.ofNat 64 va) (.stg c r.id)))
    ∧ (∀ u, fault = none → s.takeTokens c r.data.length = (u, false) → exec (.stgWriteComplete c i) s = .next u)
    ∧ (∀ u v, fault = none → s.takeTokens c r.data.length = (u, true) →
      stgWrites (dieOf c) (s.core c).part r.va.toNat (chunks 128 (r.data.length / 128) r.data) r.bad u = some v →
      exec (.stgWriteComplete c i) s = .next ((v.modCore c (fun k => { k with
        stgs := k.stgs.filter (fun x => x.id != r.id) })).modChain c r.chain (fun x => { x with st := x.st - 1 }))) := by
  have hf : (r.stalled || (((s.core c).stgs.take i).any (fun y => decide (y.va.toNat < r.va.toNat + r.data.length)
      && decide (r.va.toNat < y.va.toNat + y.data.length))) || s.fenced c 0 r.seq) = false := by
    simp only [not_or, not_exists, not_and, Bool.not_eq_true] at h
    obtain ⟨h1, h2, h3⟩ := h
    rw [h1, h2, Bool.or_false, Bool.false_or, List.any_eq_false]
    intro y hy
    simpa using h3 y hy
  intro fault
  refine ⟨fun va hva => ?_, fun u hva ht => ?_, fun u v hva ht hw => ?_⟩ <;>
    simp only [exec_stgWriteComplete, execStgWriteComplete, hr, hf, Bool.false_eq_true, if_false, fault] at hva ⊢
  · simp only [hva, State.modCore_eq]
  · simp only [hva, ht]
  · simp only [hva, ht, hw]

end

/-! ## The Detent (R138, R140, R166) -/

theorem detentAtomic_served {a : Atomic} (ha : (s.cluster c).queue.find? s.servable = some a) :
    (s.translateRw (c / 8) a.part a.va.toNat = none → exec (.detentAtomic c) s = .next (s.detentFault c a))
    ∧ (∀ pa u, s.translateRw (c / 8) a.part a.va.toNat = some pa → s.takeTokens a.core a.size = (u, false) →
      exec (.detentAtomic c) s = .next u)
    ∧ (∀ pa u, s.translateRw (c / 8) a.part a.va.toNat = some pa → s.takeTokens a.core a.size = (u, true) →
      exec (.detentAtomic c) s = .next ((((u.walked (c / 8) a.part a.va.toNat).modCluster c (fun x =>
        { x with queue := x.queue.filter (fun y => y.id != a.id) })).keyed a.part
          ((List.range a.size).map (pa + ·)) true).detentAt c a pa)) := by
  refine ⟨fun h => ?_, fun pa u h ht => ?_, fun pa u h ht => ?_⟩ <;>
    simp only [exec_detentAtomic, execDetentAtomic, ha, h]
  · simp only [ht]
  · simp only [ht]

/-- A line that its Detent alone holds is taken as it stands. -/
theorem takeLine_of_hot (s : State) (c line : Nat) {h : Hot}
    (hother : ∀ x ∈ s.clusters, x.1 ≠ c → ∀ y ∈ x.2.hot, y.line ≠ line) (hh : (s.cluster c).hot = [h])
    (hl : h.line = line) : s.takeLine c line = s := by
  have hothers : ∀ l : List (Nat × Cluster), (∀ x ∈ l, x ∈ s.clusters) →
      l.foldl (fun s x => if x.1 != c then s.writeBack x.1 line else s) s = s := by
    intro l
    induction l with
    | nil => intro _; rfl
    | cons x r ih =>
      intro hx
      have hstep : (if x.1 != c then s.writeBack x.1 line else s) = s := by
        split
        · rename_i hne
          refine s.writeBack_of_not_hot _ _ ?_
          cases hfind : Tbl.find s.clusters x.1 with
          | none => rw [State.cluster, Tbl.get_eq_find, hfind]; intro y hy; cases hy
          | some k =>
            rw [State.cluster, Tbl.get_of_find _ hfind]
            exact hother _ (Tbl.mem_of_find hfind) (by simpa using hne)
        · rfl
      rw [List.foldl_cons, hstep]
      exact ih (fun y hy => hx y (.tail _ hy))
  rw [State.takeLine, hothers s.clusters (fun _ hx => hx)]
  exact if_pos (by simp [hh, hl])

/-- An atomic on a line that its Detent holds: the old value is answered, and the changed bytes stay there. -/
theorem detentAt_hot (s : State) (c : Nat) (a : Atomic) (pa : Nat) (h : Hot)
    (hother : ∀ x ∈ s.clusters, x.1 ≠ c → ∀ y ∈ x.2.hot, y.line ≠ pa / 128) (hh : (s.cluster c).hot = [h])
    (hl : h.line = pa / 128) (hbad : Tbl.get false s.badUnit (pa / 64) = false) (ha : a.bad = false)
    (hhold : ∀ y ∈ (s.core a.core).holds, y.before.getLsbD 6 = false) :
    let old := leNat ((List.range a.size).map (fun j =>
      (Tbl.find h.changed (pa % 128 + j)).getD (s.mem.read (pa / 128 * 128 + (pa % 128 + j)))))
    let new := atomicNew a.op a.cas a.size old (a.b.toNat % 2 ^ (8 * a.size)) (a.cmp.toNat % 2 ^ (8 * a.size))
    let u := s.detentAt c a pa
    u.mem = s.mem
    ∧ (u.cluster c).hot = [{ h with changed := mergeBytes h.changed (indexBytes (pa % 128) (leBytes new a.size)) }]
    ∧ (∀ d, a.deposit = some d → (u.core a.core).deposits = (s.core a.core).deposits.map (fun x =>
        if x.id = d then { x with val := some (BitVec.ofNat 64 old, false) } else x))
    ∧ (∀ l, a.deposit = none → a.lane = some l → (u.core a.core).memreqs = (s.core a.core).memreqs.map (fun m =>
        if m.lane = l ∧ m.seq = a.seq then { m with res := some (BitVec.ofNat 32 old, false) } else m)) := by
  intro old new u
  have hfind : (s.cluster c).hot.find? (fun h => h.line == pa / 128) = some h := by simp [hh, hl]
  have hkeep : (s.core a.core).holds.any (fun h => h.before.getLsbD 6 && decide (a.seq < h.seq)) = false := by
    rw [List.any_eq_false]
    intro y hy
    rw [hhold y hy, Bool.false_and]
    decide
  -- the machine with the changed bytes, before the answer
  obtain ⟨v, hv⟩ : ∃ v, v = s.modCluster c (fun k => { k with hot := k.hot.map (fun h =>
      if h.line = pa / 128 then { h with changed := mergeBytes h.changed (indexBytes (pa % 128) (leBytes new a.size)) }
      else h) }) := ⟨_, rfl⟩
  have hu : u = match a.deposit, a.lane with
      | some d, _ => v.modCore a.core (fun k => { k with deposits := k.deposits.map (fun x =>
          if x.id = d then { x with val := some (BitVec.ofNat 64 old, false) } else x) })
      | none, some l => v.modCore a.core (fun k => { k with memreqs := k.memreqs.map (fun m =>
          if m.lane = l ∧ m.seq = a.seq then { m with res := some ((BitVec.ofNat 64 old).setWidth 32, false) } else m) })
      | none, none => v := by
    simp only [u, State.detentAt, takeLine_of_hot s c _ hother hh hl, hfind, hbad, ha, Bool.false_eq_true, if_false,
      State.core_modCluster, hkeep, hv, new, old, hotByte] <;> rfl
  have keep : u.mem = v.mem ∧ u.cluster c = v.cluster c := by
    rw [hu]; split <;> exact ⟨rfl, rfl⟩
  refine ⟨by rw [keep.1, hv]; rfl, ?_, fun d hd => ?_, fun l hd hl => ?_⟩
  · rw [keep.2, hv, State.cluster_modCluster, if_pos rfl]
    simp [hh, hl]
  · rw [hu, hd, hv]
    simp
  · rw [hu, hd, hl, hv]
    simp [BitVec.setWidth_ofNat_of_le]

/-! ## Deposits, recalls and the scratchpad port (R139, R166, R317) -/

/-- The arrival of a deposit (R317, R329). -/
theorem atomicDepositArrival_arrives {d : Deposit} {w : Word} {bad : Bool} (hd : (s.core c).deposits[i]? = some d)
    (hv : d.val = some (w, bad)) :
    ((s.core c).wordHeld d.off 8 = true → exec (.atomicDepositArrival c i) s = .next s)
    ∧ ((s.core c).wordHeld d.off 8 = false → Completes (.atomicDepositArrival c i) s (fun t =>
      (d.dead = true → t.mem = s.mem)
      ∧ (d.dead = false → d.off % 8 = 0 → t.mem = s.mem.writes (spKey c d.off) (leBytes w.toNat 8)
        ∧ t.isEmpty (lineKey c (d.off / 128)) = false
        ∧ t.isBad (lineKey c (d.off / 128)) = (bad || s.isBad (lineKey c (d.off / 128))))
      ∧ (t.core c).deposits = (s.core c).deposits.filter (fun y => y.id != d.id)
      ∧ (t.core c).chain d.chain = { (s.core c).chain d.chain with ld := ((s.core c).chain d.chain).ld - 1 })) := by
  refine ⟨fun hw => ?_, fun hw => ?_⟩
  · rw [exec_atomicDepositArrival, execAtomicDepositArrival, hd]
    simp only [hv, hw, if_true]
  -- the machine with the deposit's bytes, before `cnt.ld` counts it
  obtain ⟨x, hx⟩ : ∃ x, x = s.modCore c (fun k => { k with deposits := k.deposits.filter (fun y => y.id != d.id) }) :=
    ⟨_, rfl⟩
  obtain ⟨y, hy⟩ : ∃ y, y = if d.dead then x
      else (x.spStore c d.off (leBytes w.toNat 8) bad false).fillLine (lineKey c (d.off / 128)) := ⟨_, rfl⟩
  have hcore : (y.core c).deposits = (s.core c).deposits.filter (fun z => z.id != d.id)
      ∧ (y.core c).chains = (s.core c).chains := by
    rw [hy]
    split
    · simp [hx]
    · rw [State.core_fillLine, State.core, State.spStore_cores, hx]
      exact ⟨by simp [State.setCore], by simp [State.setCore]⟩
  refine ⟨y.modChain c d.chain (fun z => { z with ld := z.ld - 1 }), ?_, fun hdead => ?_, fun hdead hoff => ?_, ?_, ?_⟩
  · rw [exec_atomicDepositArrival, execAtomicDepositArrival, hd]
    simp only [hv, hw, Bool.false_eq_true, if_false, hy, hx]
  · rw [State.modChain_eq, State.setCore_mem, hy, if_pos hdead, hx]; rfl
  · rw [if_neg (by rw [hdead]; decide)] at hy
    have hlen : (leBytes w.toNat 8).length = 8 := length_leBytes _ _
    have hfit : d.off % 128 + (leBytes w.toNat 8).length ≤ 128 := by omega
    have hne : leBytes w.toNat 8 ≠ [] := fun h => by rw [h] at hlen; cases hlen
    refine ⟨?_, ?_, ?_⟩
    · rw [State.modChain_eq, State.setCore_mem, hy, State.fillLine_mem, store_one_mem _ _ _ _ _ _ hne hfit, hx]; rfl
    · rw [State.modChain_eq, State.isEmpty_setCore, hy, State.isEmpty_fillLine, if_pos rfl]
    · rw [State.modChain_eq, State.isBad_setCore, hy, State.isBad_fillLine, store_one_isBad _ _ _ _ _ _ hne hfit, hlen, hx]
      simp
  · simp [hcore]
  · simp [Core.chain, hcore]

/-- A recall writes the line's changed bytes home (R166). -/
theorem homeRecall_writes {h : Hot} (hf : (s.cluster c).hot.find? (fun h => h.line == i) = some h)
    (hnd : (h.changed.map (·.1)).Nodup) (hlt : ∀ y ∈ h.changed, y.1 < 128) :
    Completes (.homeRecall c i) s (fun t =>
      (∀ o < 128, t.mem.read (i * 128 + o) = (Tbl.find h.changed o).getD (s.mem.read (i * 128 + o)))
      ∧ (∀ a, (a < i * 128 ∨ i * 128 + 128 ≤ a) → t.mem.read a = s.mem.read a)
      ∧ (t.cluster c).hot = (s.cluster c).hot.filter (fun h => h.line != i)) := by
  obtain ⟨hmem, hhot⟩ := s.writeBack_of_hot c i hf
  refine ⟨s.writeBack c i, rfl, fun o _ => ?_, fun a ha => ?_, hhot⟩
  · rw [hmem, Memory.read_offsets _ _ _ hnd]
  · rw [hmem]
    refine Memory.read_foldl_of_ne (fun x : Nat × Byte => i * 128 + x.1) Prod.snd _ _ _ (fun x hx he => ?_)
    have := hlt x hx
    omega

/-- The port performs the request at its head as one step (R139). -/
theorem scratchpadAtomicStep_acts {r : PortReq} {q : List PortReq} (hq : (s.core c).portq = r :: q) :
    (s.fenced r.core 6 r.seq = true → exec (.scratchpadAtomicStep c) s = .next s)
    ∧ (s.fenced r.core 6 r.seq = false → (r.size = 4 ∨ r.size = 8) → r.off % r.size = 0 →
      Completes (.scratchpadAtomicStep c) s (fun t =>
        t.mem = (if s.isBad (lineKey c (r.off / 128)) then s.mem else s.mem.writes (spKey c r.off) (leBytes
          (atomicNew r.op r.cas r.size (leNat (s.spBytes c r.off r.size)) (r.b.toNat % 2 ^ (8 * r.size))
            (r.cmp.toNat % 2 ^ (8 * r.size))) r.size))
        ∧ (t.core c).portq = q
        ∧ (t.core r.core).owed = (s.core r.core).owed.map (fun o => if o.id = r.owed then
            { o with val := some (BitVec.ofNat 64 (leNat (s.spBytes c r.off r.size))) } else o))) := by
  refine ⟨fun hf => ?_, fun hf hsize hoff => ?_⟩
  · simp [execScratchpadAtomicStep, hq, hf]
  obtain ⟨old, hold⟩ : ∃ old, old = leNat (s.spBytes c r.off r.size) := ⟨_, rfl⟩
  obtain ⟨new, hnew⟩ : ∃ new, new = atomicNew r.op r.cas r.size old (r.b.toNat % 2 ^ (8 * r.size))
    (r.cmp.toNat % 2 ^ (8 * r.size)) := ⟨_, rfl⟩
  have hlen : (leBytes new r.size).length = r.size := length_leBytes _ _
  have hfit : r.off % 128 + (leBytes new r.size).length ≤ 128 := by
    rw [hlen]; obtain h | h := hsize <;> rw [h] at hoff ⊢ <;> omega
  have hne : leBytes new r.size ≠ [] := fun h => by rw [h] at hlen; simp at hlen; omega
  -- the machine after the write, before the answer
  obtain ⟨u, hu⟩ : ∃ u, u = if s.isBad (lineKey c (r.off / 128)) then s.modCore c (fun k => { k with portq := q })
      else (s.modCore c (fun k => { k with portq := q })).spStore c r.off (leBytes new r.size) false false := ⟨_, rfl⟩
  have hcore : ∀ d, u.core d = (s.modCore c (fun k => { k with portq := q })).core d := fun d => by
    rw [hu]
    split
    · rfl
    · rw [State.core, State.spStore_cores]; rfl
  refine ⟨u.answer r.core r.owed (BitVec.ofNat 64 old), ?_, ?_, ?_, ?_⟩
  · rw [exec_scratchpadAtomicStep, execScratchpadAtomicStep, hq]
    simp only [hf, Bool.false_eq_true, if_false, hu, hnew, hold]
    rfl
  · rw [State.answer, State.modCore_eq, State.setCore_mem, hu, ← hold, ← hnew]
    split
    · rfl
    · rw [store_one_mem _ _ _ _ _ _ hne hfit]; rfl
  · rw [State.answer, State.modCore_eq, State.core_setCore]
    split
    · rename_i h; rw [← h]; simp [hcore]
    · simp [hcore]
  · rw [State.answer, State.modCore_eq, State.core_setCore, if_pos rfl, ← hold]
    simp only [hcore, State.modCore_eq, State.core_setCore]
    split
    · rename_i h; rw [h]
    · rfl

/-! ## Walks, retries and the ring (R10, R117, R118, R231) -/

/-- A page walk caches its entry in its slice, which keeps 4,096 (R118). -/
theorem pageWalk_caches (p die : Nat) (va : Word) (hc : s.cached die p va.toNat = none) {base size : Nat} {rd wr : Bool}
    (hw : walkFrom s va.toNat 4 1 (s.part p).root = some (base, size, rd, wr)) :
    let slice := s.tlb.filter (fun t => t.die == die && t.slice == va.toNat / 65536 % 16)
    let u := s.walked die p va.toNat
    let e : Tlb := ⟨die, va.toNat / 65536 % 16, p, va.toNat / size * size, size, base, rd, wr⟩
    (slice.length < 4096 → exec (.pageWalk p die va) s = .next { u with tlb := s.tlb ++ [e] })
    ∧ (∀ j, 4096 ≤ slice.length → s.tlb.findIdx? (fun t => t.die == die && t.slice == va.toNat / 65536 % 16) = some j →
      exec (.pageWalk p die va) s = .next { u with tlb := dropAt s.tlb j ++ [e] }) := by
  have htlb := (s.walked_recalls die p va.toNat).tlb
  refine ⟨fun hlt => ?_, fun j hle hj => ?_⟩
  · simp only [exec_pageWalk, execPageWalk, hc, hw, htlb, sliceOf, if_neg (Nat.not_le.2 hlt)]
  · simp only [exec_pageWalk, execPageWalk, hc, hw, htlb, sliceOf, if_pos hle, hj]

theorem booted_of (h : s.bstate = 3) : s.booted = true := by simp [State.booted, h]

/-- Settles O47, by one lemma for what each kind of request does. -/
theorem memoryTraffic : Obligations.MemoryTraffic := by
  unfold Obligations.MemoryTraffic
  intro s c i k
  refine ⟨fun r hr => ?_, fun r hr => ?_, fun h => ?_, fun a ha => detentAtomic_served ha,
    fun a pa h => detentAt_hot s c a pa h, fun d w bad hd hv => atomicDepositArrival_arrives hd hv,
    fun h hf hnd hlt => homeRecall_writes hf hnd hlt, fun hf => ?_, fun r q hq => scratchpadAtomicStep_acts hq,
    fun p die va => ⟨fun h => ?_, fun h hw => ?_, fun base size rd wr h hw => pageWalk_caches p die va h hw⟩,
    fun p va hb => ?_, fun p w hw hb => ?_, fun id => ⟨rfl, rfl, rfl, rfl⟩, fun ring free hf => if_pos hf,
    fun ring free tgt run l full q r hf hp => ?_⟩
  · intro line held fault
    refine ⟨ldgLineArrival_held hr, fun va hh hva => (ldgLineArrival_served hr hh).1 va hva,
      fun u hh hva ht => (ldgLineArrival_served hr hh).2.1 u hva ht, ?_⟩
    rintro u w v pas bytes bad hh hva ht rfl rfl hread
    have hpart : ((ldgWalked u c k.part r).core c).part = k.part := by
      rw [ldgWalked_part]
      have := s.takeTokens_core c 128 c
      rw [ht] at this
      rw [this]
    refine ⟨_, (ldgLineArrival_served hr hh).2.2 u hva ht, ?_⟩
    refine ldgLine_arrives (w := ldgWalked u c k.part r) (pa := (ldgPages u c k.part r)[r.got]?.getD 0) ?_
    rw [hpart]
    exact hread
  · intro held fault
    refine ⟨stgWriteComplete_held hr, fun va hh hva => (stgWriteComplete_served hr hh).1 va hva,
      fun u hh hva ht => (stgWriteComplete_served hr hh).2.1 u hva ht, fun u v hh hva ht hw =>
      ⟨_, (stgWriteComplete_served hr hh).2.2 u v hva ht hw, rfl, by simp, by simp [Core.chain]⟩⟩
  · rw [exec_detentAtomic, execDetentAtomic, h]
  · rw [exec_homeRecall, execHomeRecall, State.writeBack]
    simp only [hf]
  · obtain ⟨t, ht⟩ := Option.isSome_iff_exists.1 h
    rw [exec_pageWalk, execPageWalk, ht]
  · rw [exec_pageWalk, execPageWalk, h]
    simp only [hw]
  · rw [exec_translationInvalidate, execTranslationInvalidate, State.fw, if_pos (booted_of hb)]
  · rw [exec_supervisorRetry, execSupervisorRetry, hw]
    simp only [State.fw, booted_of hb, if_true]
  · rw [exec_ringPacketEntry, execRingPacketEntry, if_neg (by omega)]
    simp only [hp, k]
    rfl

end Sys2Proof.Machine
end

section
/-!
SUPPORT. Subscriptions (R135-R137): what the writes of an update change, what waits for updates, and an update that has
been applied.
-/

namespace Sys2Proof.Machine

variable (s t : State) (u : Sub)

/-! ## What waits for updates (R136, R180, R309) -/

/-- What waits for updates, and the subscriptions, are the same in both. -/
def WaitsKept (s t : State) : Prop :=
  t.subs = s.subs ∧ t.launches = s.launches ∧ ∀ c, (t.core c).holds = (s.core c).holds

theorem WaitsKept.trans {s t v : State} (h : WaitsKept s t) (g : WaitsKept t v) : WaitsKept s v := by
  obtain ⟨h1, h2, h3⟩ := h
  obtain ⟨g1, g2, g3⟩ := g
  exact ⟨g1.trans h1, g2.trans h2, fun c => (g3 c).trans (h3 c)⟩

/-- What a table lists once every value went through a function of its key. -/
theorem Tbl.find_mappedAt {α : Type} (f : Nat → α → α) (l : Tbl α) (k : Nat) :
    Tbl.find (l.map (fun x => (x.1, f x.1 x.2))) k = (Tbl.find l k).map (f k) := by
  induction l with
  | nil => rfl
  | cons x r ih =>
    rw [List.map_cons, Tbl.find_cons, Tbl.find_cons, ih]
    split
    · rename_i h; rw [← h]; rfl
    · rfl

theorem State.core_settleBy (p : Nat → Bool) (f : Nat → Nat) (c : Nat) :
    (s.settleBy p f).core c = { s.core c with holds := (s.core c).holds.map (fun h =>
      { h with upd := h.upd.map (fun y => if p y.1 then (y.1, f y.2) else y) }) } := by
  unfold State.core State.settleBy
  exact Tbl.get_map (fun k : Core => { k with holds := k.holds.map (fun h =>
    { h with upd := h.upd.map (fun y => if p y.1 then (y.1, f y.2) else y) }) }) rfl s.cores c

theorem State.find_settleBy (p : Nat → Bool) (f : Nat → Nat) (n : Nat) :
    (s.settleBy p f).launches.find n = (s.launches.find n).map (fun l => { l with pend := l.pend.map (fun y =>
      if p y.2.2.1 then (y.1, y.2.1, y.2.2.1, f y.2.2.2) else y) }) :=
  Tbl.find_mappedAt (fun _ (l : Launch) => { l with pend := l.pend.map (fun y =>
    if p y.2.2.1 then (y.1, y.2.1, y.2.2.1, f y.2.2.2) else y) }) s.launches n

variable {s t} in
/-- After `n` updates of a subscription, what waits for them waits for `n` fewer. -/
theorem WaitsKept.settle (h : WaitsKept s t) (id n : Nat) (p : Sub → Bool) (f : Sub → Sub) :
    NowWaits id n s ((t.modSubs p f).settle id n) := by
  obtain ⟨-, hl, hh⟩ := h
  refine ⟨fun c x hx => ?_, fun ln l hf => ⟨{ l with pend := l.pend.map (fun y => if y.2.2.1 = id then (y.1, y.2.1, y.2.2.1, y.2.2.2 - n) else y) }, ?_, rfl⟩⟩
  · rw [State.settle, State.core_settleBy]
    refine List.mem_map.2 ⟨x, by rw [← hh] at hx; exact hx, ?_⟩
    simp
  · rw [State.settle, State.find_settleBy]
    rw [show (t.modSubs p f).launches = s.launches from hl, hf]
    simp

/-! ## An update that has been applied -/

theorem Sub.applied_eq : u.applied = afterUpdate u := by
  unfold Sub.applied afterUpdate
  cases hb : u.backlog with
  | nil => simp
  | cons x r => simp

/-! ## The write of an update (R135, R137) -/

@[simp] theorem State.fillEntry_mem (k : Nat) : (s.fillEntry u k).mem = s.mem := by
  unfold State.fillEntry
  split <;> rfl

@[simp] theorem State.isBad_fillEntry (k l : Nat) : (s.fillEntry u k).isBad l = s.isBad l := by
  unfold State.fillEntry
  split <;> rfl

@[simp] theorem State.isEmpty_fillEntry (k l : Nat) : (s.fillEntry u k).isEmpty l =
    if l = lineKey u.sub (u.subLine + k) ∧ u.fill = true then false else s.isEmpty l := by
  unfold State.fillEntry
  by_cases hf : u.fill = true
  · simp [hf]
  · simp [hf]

theorem State.fillEntry_waits (k : Nat) : WaitsKept s (s.fillEntry u k) := by
  unfold State.fillEntry
  split
  · refine ⟨rfl, rfl, fun c => ?_⟩
    rw [State.core_fillLine]
  · exact ⟨rfl, rfl, fun _ => rfl⟩

/-- The bytes of an update written into a line of the entry, which is then full, where the entry says so. -/
def State.putUpdate (k : Nat) (bytes : Tbl Byte) (bad : Bool) : State :=
  (s.lineStore u.sub (u.subLine + k) bytes bad false).fillEntry u k

variable (k : Nat) (bytes : Tbl Byte) (bad : Bool)

theorem State.putUpdate_waits : WaitsKept s (s.putUpdate u k bytes bad) :=
  WaitsKept.trans (t := s.lineStore u.sub (u.subLine + k) bytes bad false) ⟨rfl, rfl, fun _ => rfl⟩
    (State.fillEntry_waits _ u k)

theorem State.isEmpty_putUpdate (l : Nat) : (s.putUpdate u k bytes bad).isEmpty l =
    if l = lineKey u.sub (u.subLine + k) ∧ u.fill = true then false else s.isEmpty l :=
  State.isEmpty_fillEntry _ u k l

theorem State.isBad_putUpdate (l : Nat) : (s.putUpdate u k bytes bad).isBad l =
    if l = lineKey u.sub (u.subLine + k) then bad || (s.isBad l && bytes.length != 128) else s.isBad l := by
  rw [State.putUpdate, State.isBad_fillEntry]
  simp only [State.lineStore, State.isBad, Tbl.get_set]
  split
  · rename_i h; rw [h]
  · rfl

theorem State.putUpdate_mem : (s.putUpdate u k bytes bad).mem =
    bytes.foldl (fun (m : Memory) x => m.write (spKey u.sub ((u.subLine + k) * 128) + x.1) x.2) s.mem := by
  rw [State.putUpdate, State.fillEntry_mem]
  show bytes.foldl _ s.mem = _
  congr 1
  funext m x
  rw [show spKey u.sub ((u.subLine + k) * 128 + x.1) = spKey u.sub ((u.subLine + k) * 128) + x.1 by
    unfold spKey; omega]

variable {k bytes}

/-- A byte of the line that an update writes. -/
theorem State.read_putUpdate (hn : (bytes.map (·.1)).Nodup) (j : Nat) :
    (s.putUpdate u k bytes bad).mem.read (spKey u.sub ((u.subLine + k) * 128 + j)) =
      (Tbl.find bytes j).getD (s.mem.read (spKey u.sub ((u.subLine + k) * 128 + j))) := by
  rw [State.putUpdate_mem, show spKey u.sub ((u.subLine + k) * 128 + j) = spKey u.sub ((u.subLine + k) * 128) + j by
    unfold spKey; omega]
  exact s.mem.read_offsets _ j hn

/-- A byte outside the line. -/
theorem State.read_putUpdate_outside (hlt : ∀ y ∈ bytes, y.1 < 128) {a : Nat}
    (ha : a < spKey u.sub ((u.subLine + k) * 128) ∨ spKey u.sub ((u.subLine + k + 1) * 128) ≤ a) :
    (s.putUpdate u k bytes bad).mem.read a = s.mem.read a := by
  rw [State.putUpdate_mem]
  refine Memory.read_foldl_of_ne (fun x : Nat × Byte => spKey u.sub ((u.subLine + k) * 128) + x.1) Prod.snd bytes s.mem _
    (fun x hx he => ?_)
  have := hlt x hx
  unfold spKey at *
  omega

/-! ## A snapshot (R135) -/

/-- Line k of a snapshot's data. -/
def snapLine (data : List Byte) (k : Nat) : List Byte := (data.drop (128 * k)).take 128

theorem length_snapLine {data : List Byte} {n k : Nat} (hd : data.length = 128 * n) (hk : k < n) :
    (snapLine data k).length = 128 := by
  rw [snapLine, List.length_take, List.length_drop]
  omega

theorem find_snapLine (data : List Byte) (k : Nat) {j : Nat} (hj : j < 128) :
    Tbl.find (indexBytes 0 (snapLine data k)) j = data[128 * k + j]? := by
  rw [find_indexBytes, if_pos (Nat.zero_le j), Nat.sub_zero, snapLine, List.getElem?_take_of_lt hj, List.getElem?_drop]

/-- A snapshot's data is its lines, numbered. -/
theorem enum_chunks {data : List Byte} {n : Nat} (hd : data.length = 128 * n) :
    enum (chunks 128 n data) = (List.range n).map (fun k => (k, snapLine data k)) := by
  have hc : chunks 128 n data = (List.range n).map (snapLine data) := by
    induction n generalizing data with
    | zero => rfl
    | succ n ih =>
      have hne : data ≠ [] := by rintro rfl; simp at hd
      rw [chunks, if_neg (by simp [hne]), ih (data := data.drop 128) (by rw [List.length_drop]; omega),
        List.range_succ_eq_map, List.map_cons, List.map_map]
      congr 1
      refine List.map_congr_left (fun k _ => ?_)
      simp only [snapLine, List.drop_drop, Function.comp, Nat.succ_eq_add_one, Nat.mul_add]
      rw [Nat.add_comm]
  rw [enum, hc, List.length_map, List.length_range, List.zip_map_right, List.zip_eq_zipWith, List.zipWith_self,
    List.map_map]
  rfl

/-- The lines of a snapshot's first n lines. -/
def State.putLines (data : List Byte) (bads : List Bool) (n : Nat) : State :=
  (List.range n).foldl (fun v k => v.putUpdate u k (indexBytes 0 (snapLine data k)) (bads[k]?.getD false)) s

theorem State.applySnapshot_eq {data : List Byte} (bads : List Bool) (hd : data.length = 128 * u.lines) :
    s.applySnapshot u data bads = s.putLines u data bads u.lines := by
  rw [State.applySnapshot, enum_chunks hd, List.foldl_map]
  rfl

theorem State.putLines_succ (data : List Byte) (bads : List Bool) (n : Nat) : s.putLines u data bads (n + 1) =
    (s.putLines u data bads n).putUpdate u n (indexBytes 0 (snapLine data n)) (bads[n]?.getD false) := by
  simp [State.putLines, List.range_succ]

theorem State.putLines_waits (data : List Byte) (bads : List Bool) (n : Nat) : WaitsKept s (s.putLines u data bads n) := by
  induction n with
  | zero => exact ⟨rfl, rfl, fun _ => rfl⟩
  | succ n ih => rw [State.putLines_succ]; exact ih.trans (State.putUpdate_waits _ u _ _ _)

theorem indexBytes_lt {l : List Byte} {n : Nat} (h : l.length = n) : ∀ y ∈ indexBytes 0 l, y.1 < n := by
  intro y hy
  have := List.mem_map_of_mem (f := (·.1)) hy
  rw [indexBytes_keys, List.mem_range'_1] at this
  omega

theorem nodup_indexBytes (l : List Byte) : ((indexBytes 0 l).map (·.1)).Nodup := by
  rw [indexBytes_keys]
  exact List.nodup_range'

/-- The first n lines of a snapshot in the subscriber's lines, and no byte elsewhere. -/
theorem State.putLines_written {data : List Byte} {m : Nat} (bads : List Bool) (hd : data.length = 128 * m) {n : Nat}
    (hn : n ≤ m) :
    (∀ k < n, (s.putLines u data bads n).isBad (lineKey u.sub (u.subLine + k)) = bads[k]?.getD false
      ∧ ((s.putLines u data bads n).isEmpty (lineKey u.sub (u.subLine + k)) =
          if u.fill then false else s.isEmpty (lineKey u.sub (u.subLine + k)))
      ∧ ∀ j < 128, (s.putLines u data bads n).mem.read (spKey u.sub ((u.subLine + k) * 128 + j)) =
          data[128 * k + j]?.getD 0)
    ∧ (∀ k ≥ n, (s.putLines u data bads n).isEmpty (lineKey u.sub (u.subLine + k)) =
        s.isEmpty (lineKey u.sub (u.subLine + k)))
    ∧ ∀ a, (a < spKey u.sub (u.subLine * 128) ∨ spKey u.sub ((u.subLine + n) * 128) ≤ a) →
        (s.putLines u data bads n).mem.read a = s.mem.read a := by
  induction n with
  | zero => exact ⟨fun k hk => absurd hk (Nat.not_lt_zero k), fun _ _ => rfl, fun _ _ => rfl⟩
  | succ n ih =>
    obtain ⟨hin, hlater, hout⟩ := ih (by omega)
    have hl : (snapLine data n).length = 128 := length_snapLine hd (by omega)
    rw [State.putLines_succ]
    generalize s.putLines u data bads n = v at *
    have hne : ∀ k, k ≠ n → lineKey u.sub (u.subLine + k) ≠ lineKey u.sub (u.subLine + n) := by
      intro k hk he
      unfold lineKey at he
      omega
    refine ⟨fun k hk => ?_, fun k hk => ?_, fun a ha => ?_⟩
    · by_cases he : k = n
      · subst he
        refine ⟨?_, ?_, fun j hj => ?_⟩
        · have hx : (indexBytes 0 (snapLine data k)).length = 128 := by
            rw [← hl, ← List.length_map (f := (·.1)), indexBytes_keys, List.length_range']
          rw [State.isBad_putUpdate, if_pos rfl, hx]
          simp
        · rw [State.isEmpty_putUpdate, hlater k (Nat.le_refl k)]
          simp
        · rw [State.read_putUpdate v u _ (nodup_indexBytes _), find_snapLine data k hj,
            List.getElem?_eq_getElem (by omega)]
          rfl
      · obtain ⟨hbad, hemp, hmem⟩ := hin k (by omega)
        refine ⟨?_, ?_, fun j hj => ?_⟩
        · rw [State.isBad_putUpdate, if_neg (hne k he), hbad]
        · rw [State.isEmpty_putUpdate, if_neg (fun h => hne k he h.1), hemp]
        · rw [State.read_putUpdate_outside v u _ (indexBytes_lt hl) (.inl (by unfold spKey; omega)), hmem j hj]
    · rw [State.isEmpty_putUpdate, if_neg (fun h => hne k (by omega) h.1), hlater k (by omega)]
    · rw [State.read_putUpdate_outside v u _ (indexBytes_lt hl) (by unfold spKey at *; omega),
        hout a (by unfold spKey at *; omega)]

end Sys2Proof.Machine
end

section
/-!
A subscription's course and the merge of reductions (R12, R135-R137, R430): the obligation O50.
-/

namespace Sys2Proof.Machine

variable {s : State} {c i : Nat} {u : Sub}

/-! ## The entry of a subscriber -/

theorem sub_of_find (h : s.subs.find? (fun v => v.sub == c && v.subIdx == i) = some u) :
    s.subAt c i = some u ∧ u.sub = c := by
  refine ⟨h, ?_⟩
  have := List.find?_some h
  simp only [Bool.and_eq_true, beq_iff_eq] at this
  exact this.1

/-- An update may be applied (R139, R180, R244). -/
theorem updateFree_iff (s : State) (u : Sub) (first n seq : Nat) : s.updateFree u first n seq = true ↔
    s.takesUpdates u.sub = true ∧ s.fenced u.pub 5 seq = false
      ∧ (s.core u.sub).wordHeld (first * 128) (n * 128) = false := by
  simp [State.updateFree, and_assoc]

/-! ## Snapshots (R135, R137) -/

theorem snapshotApply_of {data : List Byte} {bad : List Bool} {n : Nat} (h : s.subAt c i = some u)
    (hn : AppliesNext u (.snapshot data bad n)) : exec (.snapshotApply c i) s =
      if s.updateFree u u.subLine u.lines n = true then
        .next (((s.applySnapshot u data bad).modSubs (fun v => v.id == u.id)
          (fun v => Sub.applied { v with state := 2, lost := 0 })).settle u.id (u.lost + 1))
      else .next s := by
  have hn : u.head = some (.snapshot data bad n) := hn
  rw [exec_snapshotApply, execSnapshotApply]
  simp only [h, hn]
  cases s.updateFree u u.subLine u.lines n <;> rfl

/-- An entry's snapshot is written whole, the entry is live, and the lost updates are no longer waited for. -/
theorem snapshot_applied (s : State) (u : Sub) {data : List Byte} (bads : List Bool)
    (hd : data.length = 128 * u.lines) :
    let t := ((s.applySnapshot u data bads).modSubs (fun v => v.id == u.id)
      (fun v => Sub.applied { v with state := 2, lost := 0 })).settle u.id (u.lost + 1)
    (∀ k < u.lines, t.isBad (lineKey u.sub (u.subLine + k)) = bads[k]?.getD false
      ∧ (t.isEmpty (lineKey u.sub (u.subLine + k)) =
          if u.fill then false else s.isEmpty (lineKey u.sub (u.subLine + k)))
      ∧ ∀ j < 128, t.mem.read (spKey u.sub ((u.subLine + k) * 128 + j)) = data[128 * k + j]?.getD 0)
    ∧ (∀ a, (a < spKey u.sub (u.subLine * 128) ∨ spKey u.sub ((u.subLine + u.lines) * 128) ≤ a) →
        t.mem.read a = s.mem.read a)
    ∧ NowWaits u.id (u.lost + 1) s t
    ∧ t.subs = s.subs.map (fun v => if v.id = u.id then afterUpdate { v with state := 2, lost := 0 } else v) := by
  rw [s.applySnapshot_eq u bads hd]
  obtain ⟨hin, -, hout⟩ := s.putLines_written u bads hd (Nat.le_refl _)
  have hw := s.putLines_waits u data bads u.lines
  refine ⟨hin, hout, hw.settle _ _ _ _, ?_⟩
  rw [← hw.1]
  simp only [State.settle, State.settleBy, State.modSubs, Sub.applied_eq, beq_iff_eq]

/-! ## Updates of a line (R135, R137) -/

theorem updateApply_of {k : Nat} {bytes : Tbl Byte} {bad w : Bool} {o n : Nat} (h : s.subAt c i = some u)
    (hc : u.sub = c) (hn : AppliesNext u (.line k bytes bad w o true n)) : exec (.subscriptionUpdateApply c i) s =
      if s.updateFree u (u.subLine + k) 1 n = true then
        .next (((s.putUpdate u k bytes bad).modSubs (fun v => v.id == u.id) Sub.applied).settle u.id 1)
      else .next s := by
  have hn : u.head = some (.line k bytes bad w o true n) := hn
  subst hc
  rw [exec_subscriptionUpdateApply, execSubscriptionUpdateApply]
  simp only [h, hn, State.putUpdate]
  cases s.updateFree u (u.subLine + k) 1 n <;> rfl

/-- An update whose window is open waits at the head. -/
theorem updateApply_open {k : Nat} {bytes : Tbl Byte} {bad w : Bool} {o n : Nat} (h : s.subAt c i = some u)
    (hn : AppliesNext u (.line k bytes bad w o false n)) : exec (.subscriptionUpdateApply c i) s = .next s := by
  have hn : u.head = some (.line k bytes bad w o false n) := hn
  rw [exec_subscriptionUpdateApply, execSubscriptionUpdateApply]
  simp only [h, hn]

/-- A line's update is written whole, and it is no longer waited for. -/
theorem update_applied (s : State) (u : Sub) (k : Nat) {bytes : Tbl Byte} (bad : Bool)
    (hn : (bytes.map (·.1)).Nodup) (hlt : ∀ y ∈ bytes, y.1 < 128) :
    let t := ((s.putUpdate u k bytes bad).modSubs (fun v => v.id == u.id) Sub.applied).settle u.id 1
    (∀ j < 128, t.mem.read (spKey u.sub ((u.subLine + k) * 128 + j)) =
      (Tbl.find bytes j).getD (s.mem.read (spKey u.sub ((u.subLine + k) * 128 + j))))
    ∧ (∀ a, (a < spKey u.sub ((u.subLine + k) * 128) ∨ spKey u.sub ((u.subLine + k + 1) * 128) ≤ a) →
        t.mem.read a = s.mem.read a)
    ∧ (t.isBad (lineKey u.sub (u.subLine + k)) =
        (bad || (s.isBad (lineKey u.sub (u.subLine + k)) && bytes.length != 128)))
    ∧ (t.isEmpty (lineKey u.sub (u.subLine + k)) =
        if u.fill then false else s.isEmpty (lineKey u.sub (u.subLine + k)))
    ∧ NowWaits u.id 1 s t
    ∧ t.subs = s.subs.map (fun v => if v.id = u.id then afterUpdate v else v) := by
  have hw := s.putUpdate_waits u k bytes bad
  have hbad := s.isBad_putUpdate u k bytes bad (lineKey u.sub (u.subLine + k))
  have hemp := s.isEmpty_putUpdate u k bytes bad (lineKey u.sub (u.subLine + k))
  rw [if_pos rfl] at hbad
  refine ⟨fun j _ => s.read_putUpdate u bad hn j, fun a ha => s.read_putUpdate_outside u bad hlt ha, hbad, ?_,
    hw.settle _ _ _ _, ?_⟩
  · exact hemp.trans (by simp)
  · rw [← hw.1]
    simp only [State.settle, State.settleBy, State.modSubs, Sub.applied_eq, beq_iff_eq]

/-! ## The backlog (R137, R244) -/

/-- A core takes no update of its subscriptions in its scratchpad, but in its backlog (R137, R244). -/
def SubscriberAway (s : State) (c : Nat) : Prop :=
  (s.core c).halted.isSome = true ∨ (s.part (s.core c).part).pre ≠ .running

theorem Sub.keep_eq (u : Sub) (x : Update) : u.keep x =
    if u.state = 3 then { u with lost := u.lost + 1 }
    else if backlogSize (u.backlog ++ [x]) ≤ 65536 then { u with backlog := u.backlog ++ [x] }
    else { u with lost := u.lost + u.backlog.length + 1, backlog := [], state := 3 } := by
  unfold Sub.keep
  by_cases hb : backlogSize (u.backlog ++ [x]) ≤ 65536
  · rw [if_pos hb, if_neg (show ¬ 65536 < _ by omega)]
  · rw [if_neg hb, if_pos (show 65536 < _ by omega)]

theorem backlogWrite_of {x : Update} {r : List Update} (h : s.subAt c i = some u) (hf : u.fifo = x :: r)
    (hm : x ≠ .mark) (hl : ∀ k bytes bad w o n, x ≠ .line k bytes bad w o false n) : exec (.backlogWrite c i) s =
      if (s.core c).halted.isNone && (s.part (s.core c).part).pre == .running then .next s
      else .next (s.modSubs (fun v => v.id == u.id) (fun v => { v with fifo := v.fifo.drop 1 }.keep x)) := by
  rw [exec_backlogWrite, execBacklogWrite]
  simp only [h, hf]

theorem away_iff (s : State) (c : Nat) : SubscriberAway s c ↔
    ¬ ((s.core c).halted.isNone && (s.part (s.core c).part).pre == .running) = true := by
  unfold SubscriberAway
  cases (s.core c).halted <;> simp

/-! ## Removal (R430) -/

theorem removalMarkPass_of {r : List Update} (h : s.subAt c i = some u) (hf : u.fifo = .mark :: r)
    (hb : u.backlog = []) : exec (.removalMarkPass c i) s = .next (s.dropSubs (fun v => v.id == u.id)) := by
  rw [exec_removalMarkPass, execRemovalMarkPass]
  simp only [h, hf, hb]

theorem removalMarkPass_backlog {x : Update} {r l : List Update} (h : s.subAt c i = some u)
    (hf : u.fifo = .mark :: r) (hb : u.backlog = x :: l) : exec (.removalMarkPass c i) s = .next s := by
  rw [exec_removalMarkPass, execRemovalMarkPass]
  simp only [h, hf, hb]

/-- The identities of the subscriptions that leave with an entry are its own. -/
theorem goneIds_contains {l : List Sub} (hu : u ∈ l) (id : Nat) :
    ((l.filter (fun v => v.id == u.id)).map (·.id)).contains id = decide (id = u.id) := by
  rw [Bool.eq_iff_iff, List.contains_iff_mem, decide_eq_true_iff, List.mem_map]
  constructor
  · rintro ⟨v, hv, rfl⟩
    exact beq_iff_eq.1 (List.mem_filter.1 hv).2
  · rintro rfl
    exact ⟨u, List.mem_filter.2 ⟨hu, beq_self_eq_true _⟩, rfl⟩

/-- An entry that is over is gone, and nothing waits for its updates (R136, R180). -/
theorem dropSubs_entry (hu : u ∈ s.subs) :
    let t := s.dropSubs (fun v => v.id == u.id)
    t.mem = s.mem
    ∧ t.subs = s.subs.filter (fun v => v.id != u.id)
    ∧ (∀ d h, h ∈ (s.core d).holds → { h with upd := h.upd.map (fun y => if y.1 = u.id then (y.1, 0) else y) }
      ∈ (t.core d).holds)
    ∧ ∀ ln l, s.launches.find ln = some l → ∃ m, t.launches.find ln = some m
      ∧ m.pend = l.pend.map (fun y => if y.2.2.1 = u.id then (y.1, y.2.1, y.2.2.1, 0) else y) := by
  refine ⟨rfl, rfl, fun d h hh => ?_, fun ln l hl => ⟨{ l with pend := l.pend.map (fun y =>
    if y.2.2.1 = u.id then (y.1, y.2.1, y.2.2.1, 0) else y) }, ?_, rfl⟩⟩
  · rw [State.dropSubs, State.core_settleBy]
    refine List.mem_map.2 ⟨h, hh, ?_⟩
    simp only [goneIds_contains hu, decide_eq_true_eq]
  · rw [State.dropSubs, State.find_settleBy]
    simp only [goneIds_contains hu, decide_eq_true_eq]
    rw [hl]
    rfl

/-! ## Reductions (R12) -/

/-- Two packets to one address in one router merge into their sum, or nothing happens. -/
theorem reductionMerge_of {j : Nat} {a b : Reduction} (ha : s.reds[i]? = some a) (hb : s.reds[j]? = some b) :
    exec (.reductionMerge i j) s =
      if i = j ∨ a.router ≠ b.router ∨ a.addr ≠ b.addr ∨ a.kind ≠ b.kind
        ∨ (a.kind = .fp32 ∧ (a.det ∨ b.det)) then .next s
      else .next { s with reds := dropAt (s.reds.set i
        { a with value := mergeSum a.kind a.value b.value, bad := a.bad || b.bad }) j } := by
  rw [exec_reductionMerge, execReductionMerge]
  simp only [ha, hb]

/-- Settles O50: each event of a subscription by its own rule, and the merge of two packets. -/
theorem subscriptionEvents : Obligations.SubscriptionEvents := by
  unfold Obligations.SubscriptionEvents
  intro s c i u
  refine ⟨rfl, rfl, rfl, fun h => ?_, fun j a b ha hb => ?_⟩
  · have hu := List.mem_of_find?_eq_some h
    obtain ⟨h, rfl⟩ := sub_of_find h
    refine ⟨fun data bad n hn => ?_, fun k bytes bad w o n hn => ?_, fun k bytes bad w o n hn => updateApply_open h hn,
      fun x r hf hm hl => ?_, fun r hf hb => ⟨_, removalMarkPass_of h hf hb, dropSubs_entry hu⟩,
      fun x r hf hb => removalMarkPass_backlog h hf hb⟩
    · rw [snapshotApply_of h hn, ← updateFree_iff]
      exact ⟨fun hf => if_neg hf, fun hf hd => ⟨_, (snapshotApply_of h hn).trans (if_pos hf), snapshot_applied s u bad hd⟩⟩
    · have free := updateFree_iff s u (u.subLine + k) 1 n
      rw [Nat.one_mul] at free
      rw [updateApply_of h rfl hn, ← free]
      exact ⟨fun hf => if_neg hf, fun hf hnd hlt =>
        ⟨_, (updateApply_of h rfl hn).trans (if_pos hf), update_applied s u k bad hnd hlt⟩⟩
    · have away := away_iff s u.sub
      unfold SubscriberAway at away
      rw [backlogWrite_of h hf hm hl]
      simp only [Sub.keep_eq]
      exact ⟨fun ha => if_pos (not_not.1 (mt away.2 ha)), fun ha => if_neg (away.1 ha)⟩
  · rw [reductionMerge_of ha hb]
    refine ⟨fun hm => if_pos ?_, fun ⟨h1, h2, h3, h4, h5⟩ => if_neg ?_⟩
    · by_contra hne
      simp only [not_or, not_and, not_not, Bool.not_eq_true] at hne
      exact hm ⟨hne.1, hne.2.1, hne.2.2.1, hne.2.2.2.1, hne.2.2.2.2⟩
    · rintro (e | e | e | e | ⟨e, d⟩)
      · exact h1 e
      · exact e h2
      · exact e h3
      · exact e h4
      · obtain ⟨ha, hb⟩ := h5 e
        simp [ha, hb] at d

end Sys2Proof.Machine
end

section
/-!
SUPPORT. Which queues are backlogged (R191), and the cores that a launch leaves (R308).
-/

namespace Sys2Proof.Machine

/-! ## Backlogged queues (R191) -/

/-- The least of some numbers is one of them. -/
theorem leastBy_mem {α : Type} (lt : α → α → Bool) {l : List α} {m : α} (h : leastBy lt l = some m) : m ∈ l := by
  induction l generalizing m with
  | nil => cases h
  | cons a r ih =>
    rw [leastBy] at h
    cases hr : leastBy lt r with
    | none => simp_all
    | some b =>
      simp only [hr] at h
      split at h
      · exact List.mem_cons_of_mem _ (ih (hr.trans h))
      · cases h; exact List.mem_cons_self

theorem leastBy_none {α : Type} (lt : α → α → Bool) {l : List α} (h : leastBy lt l = none) : l = [] := by
  cases l with
  | nil => rfl
  | cons a r =>
    rw [leastBy] at h
    cases hr : leastBy lt r with
    | none => simp [hr] at h
    | some b => simp only [hr] at h; split at h <;> cases h

/-- No pass value is below the least. -/
theorem leastBy_le {l : List (BitVec 64)} {m : BitVec 64} (h : leastBy (fun a b => decide (a < b)) l = some m) :
    ∀ x ∈ l, m ≤ x := by
  induction l generalizing m with
  | nil => cases h
  | cons a r ih =>
    rw [leastBy] at h
    cases hr : leastBy (fun (a b : BitVec 64) => decide (a < b)) r with
    | none =>
      cases leastBy_none _ hr
      simp only [hr, Option.some.injEq] at h
      subst h
      simp
    | some b =>
      simp only [hr, decide_eq_true_eq] at h
      have hle := ih hr
      split at h
      · rename_i hlt
        cases h
        exact fun x hx => (List.mem_cons.1 hx).elim (fun e => e ▸ BitVec.le_of_lt hlt) (hle x)
      · rename_i hge
        cases h
        exact fun x hx => (List.mem_cons.1 hx).elim (fun e => e ▸ BitVec.le_refl _)
          (fun hx => BitVec.le_trans (BitVec.not_lt.1 hge) (hle x hx))

/-- A queue that is backlogged no longer is idle. -/
def State.idled (s : State) (q : Nat) (x : Queue) : Queue :=
  if x.active && !s.backlogged q then { x with active := false } else x

/-- The pass value that a queue takes when it becomes backlogged. -/
def State.startPass (s : State) : BitVec 64 :=
  ((minPass (s.queues.map (fun x => (x.1, s.idled x.1 x.2)))).orElse (fun _ => s.lastPass)).getD 0

/-- A queue once it has been noted whether it is backlogged. -/
def State.requeued (s : State) (q : Nat) (x : Queue) : Queue :=
  if !(s.idled q x).active && s.backlogged q then
    { s.idled q x with active := true, since := s.dial, pass := s.startPass }
  else s.idled q x

theorem State.refresh_eq (s : State) :
    s.refresh = { s with queues := s.queues.map (fun x => (x.1, s.requeued x.1 x.2)) } := by
  rw [State.refresh]
  simp only [List.map_map]
  rfl

/-- A queue is backlogged when it was and still is, before another becomes so. -/
theorem State.idled_active (s : State) (q : Nat) (x : Queue) :
    (s.idled q x).active = true ↔ x.active = true ∧ s.backlogged q = true := by
  unfold State.idled
  cases hx : x.active <;> cases hb : s.backlogged q <;> simp [hx]

theorem State.idled_pass (s : State) (q : Nat) (x : Queue) : (s.idled q x).pass = x.pass := by
  unfold State.idled
  split <;> rfl

/-- The pass values of the queues that stay backlogged. -/
theorem mem_passes (s : State) (p : BitVec 64) :
    p ∈ ((s.queues.map (fun x => (x.1, s.idled x.1 x.2))).filter (·.2.active)).map (·.2.pass) ↔
      ∃ z ∈ s.queues, z.2.active = true ∧ s.backlogged z.1 = true ∧ z.2.pass = p := by
  simp only [List.mem_map, List.mem_filter]
  constructor
  · rintro ⟨_, ⟨⟨z, hz, rfl⟩, ha⟩, rfl⟩
    rw [State.idled_active] at ha
    exact ⟨z, hz, ha.1, ha.2, (s.idled_pass _ _).symm⟩
  · rintro ⟨z, hz, ha, hb, rfl⟩
    exact ⟨_, ⟨⟨z, hz, rfl⟩, (s.idled_active _ _).2 ⟨ha, hb⟩⟩, s.idled_pass _ _⟩

/-- The pass value of a queue that becomes backlogged (R191). -/
theorem State.startPass_least (s : State) :
    (∃ z ∈ s.queues, z.2.active = true ∧ s.backlogged z.1 = true ∧ z.2.pass = s.startPass
      ∧ ∀ w ∈ s.queues, w.2.active = true → s.backlogged w.1 = true → s.startPass ≤ w.2.pass)
    ∨ ((∀ z ∈ s.queues, ¬ (z.2.active = true ∧ s.backlogged z.1 = true)) ∧ s.startPass = s.lastPass.getD 0) := by
  have hm := mem_passes s
  cases h : minPass (s.queues.map (fun x => (x.1, s.idled x.1 x.2))) with
  | none =>
    refine .inr ⟨fun z hz hab => ?_, by rw [State.startPass, h]; rfl⟩
    have := (hm z.2.pass).2 ⟨z, hz, hab.1, hab.2, rfl⟩
    rw [leastBy_none _ h] at this
    cases this
  | some p =>
    have hp : s.startPass = p := by rw [State.startPass, h]; rfl
    obtain ⟨z, hz, ha, hb, he⟩ := (hm p).1 (leastBy_mem _ h)
    rw [hp]
    exact .inl ⟨z, hz, ha, hb, he, fun w hw ha hb => leastBy_le h _ ((hm w.2.pass).2 ⟨w, hw, ha, hb, rfl⟩)⟩

theorem State.refresh_restarted (u : State) : Restarted u u.refresh := by
  rw [State.refresh_eq]
  refine ⟨rfl, fun q x hx => ⟨u.requeued q x, by rw [Tbl.find_mappedAt, hx]; rfl, ?_, fun h => ?_, fun ha hb => ?_⟩⟩
  · unfold State.requeued State.idled
    cases ha : x.active <;> cases hb : u.backlogged q <;> simp [ha] <;> rw [← ha]
  · unfold State.requeued State.idled
    cases ha : x.active <;> cases hb : u.backlogged q <;> simp_all
  · have hn : u.requeued q x = { x with active := true, since := u.dial, pass := u.startPass } := by
      unfold State.requeued State.idled
      simp [ha, hb]
    rw [hn]
    exact ⟨rfl, u.startPass_least⟩

theorem Settles.of_refresh {i : Instr} {s u : State} (h : exec i s = .next u.refresh) : Settles i s u :=
  ⟨h, u.refresh_restarted⟩

/-! ## Cores changed one after another -/

theorem foldl_modCore_eq (f : Core → Core) (l : List Nat) (s : State) :
    l.foldl (fun s c => s.modCore c f) s = { s with cores := (l.foldl (fun s c => s.modCore c f) s).cores } := by
  induction l generalizing s with
  | nil => rfl
  | cons c r ih => rw [List.foldl_cons, ih]; rfl

/-- Each of some cores is changed once, though it is listed more often. -/
theorem core_foldl_modCore {f : Core → Core} (hf : ∀ k, f (f k) = f k) (l : List Nat) (s : State) (d : Nat) :
    (l.foldl (fun s c => s.modCore c f) s).core d = if d ∈ l then f (s.core d) else s.core d := by
  induction l generalizing s with
  | nil => rfl
  | cons c r ih =>
    rw [List.foldl_cons, ih, State.modCore_eq, State.core_setCore]
    by_cases hd : d = c
    · subst hd
      simp [hf]
    · simp [hd]

end Sys2Proof.Machine
end

section
/-!
The ends of launches, phases and jobs, and replica copies (R13, R18, R190, R199, R215, R259, R260, R308): the obligation
O54.
-/

namespace Sys2Proof.Machine

variable {s : State} {ln k p : Nat} {l : Launch} {j : Job}

/-! ## Launches (R18, R259, R308) -/

/-- The machine as a launch's subscriptions and circuits go (R308). -/
def State.launchDrops (s : State) (ln : Nat) : State :=
  let t := s.dropSubs (fun u => u.launch == ln)
  { t with circuits := t.circuits.filter (fun x => x.launch != ln) }

/-- Nothing of a launch's cores is armed any more (R308). -/
def State.disarmLaunch (s : State) (ln : Nat) : State :=
  (s.coresOf ln).foldl (fun s c => s.modCore c (disarmed ln)) s

theorem State.closeLaunch_eq (s : State) (l : Launch) :
    s.closeLaunch l = ((s.launchDrops l.serial).disarmLaunch l.serial).modLaunch l.serial (fun m => { m with
      status := some (if l.fault then .faulted else if l.cancel then .cancelled else .done)
      dial1 := ((s.launchDrops l.serial).disarmLaunch l.serial).dial }) := rfl

theorem State.disarmLaunch_eq (s : State) (ln : Nat) :
    s.disarmLaunch ln = { s with cores := (s.disarmLaunch ln).cores } := foldl_modCore_eq _ _ _

theorem State.core_launchDrops (s : State) (ln d : Nat) :
    (s.launchDrops ln).core d = { s.core d with holds := ((s.launchDrops ln).core d).holds } := by
  have h : (s.launchDrops ln).core d = (s.dropSubs (fun u => u.launch == ln)).core d := rfl
  rw [h, State.dropSubs, State.core_settleBy]
  rfl

/-- The subscriptions that go leave the launch's cores. -/
theorem State.coresOf_launchDrops (s : State) (ln n : Nat) : (s.launchDrops n).coresOf ln = s.coresOf ln := by
  simp only [State.coresOf, State.launchDrops, State.dropSubs, State.settleBy, List.filter_map, List.map_map]
  rfl

theorem disarmed_disarmed (ln : Nat) (k : Core) : disarmed ln (disarmed ln k) = disarmed ln k := by
  simp [disarmed, List.filter_filter]

theorem State.core_closeLaunch (s : State) (l : Launch) (d : Nat) : (s.closeLaunch l).core d =
    if d ∈ s.coresOf l.serial then disarmed l.serial ((s.launchDrops l.serial).core d)
    else (s.launchDrops l.serial).core d := by
  rw [State.closeLaunch_eq, (State.modLaunch_same _ _ _).core, State.disarmLaunch,
    core_foldl_modCore (disarmed_disarmed l.serial), State.coresOf_launchDrops]

theorem State.modLaunch_eq (s : State) (n : Nat) (f : Launch → Launch) :
    s.modLaunch n f = { s with launches := (s.modLaunch n f).launches } := by
  unfold State.modLaunch
  split <;> rfl

/-- A launch stands as its subscriptions, circuits and cores go. -/
theorem State.find_launchDrops (s : State) (n : Nat) {k : Nat} {m : Launch} (hm : s.launches.find k = some m) :
    ∃ m', ((s.launchDrops n).disarmLaunch n).launches.find k = some m' := by
  have h := State.find_settleBy { s with subs := s.subs.filter (fun u => !(u.launch == n)) }
    ((s.subs.filter (fun u => u.launch == n)).map (·.id)).contains (fun _ => 0) k
  rw [State.disarmLaunch_eq]
  exact ⟨_, h.trans (congrArg (Option.map _) hm)⟩

/-- A launch that completes: its subscriptions and circuits go, its status is taken and its cores are disarmed. -/
theorem closeLaunch_leaves (s : State) (l : Launch) :
    let u := s.closeLaunch l
    u.mem = s.mem ∧ u.subs = s.subs.filter (fun v => v.launch != l.serial)
    ∧ u.circuits = s.circuits.filter (fun v => v.launch != l.serial)
    ∧ (∀ m, s.launches.find l.serial = some m → ∃ m', u.launches.find l.serial = some m' ∧ m'.dial1 = s.dial
      ∧ m'.status = some (if l.fault = true then .faulted else if l.cancel = true then .cancelled else .done))
    ∧ (∀ d ∈ s.coresOf l.serial, (u.core d).armed = false ∧ (u.core d).rowArmed = false ∧ (u.core d).launch = 0
      ∧ (u.core d).tasks = [] ∧ (u.core d).region = {})
    ∧ ∀ d, d ∉ s.coresOf l.serial → u.core d = { s.core d with holds := (u.core d).holds } := by
  have hu : s.closeLaunch l = { s.launchDrops l.serial with
      cores := ((s.launchDrops l.serial).disarmLaunch l.serial).cores
      launches := (s.closeLaunch l).launches } := by
    rw [State.closeLaunch_eq, State.modLaunch_eq, State.disarmLaunch_eq]
  refine ⟨by rw [hu]; rfl, by rw [hu]; rfl, by rw [hu]; rfl, fun m hm => ?_, fun d hd => ?_, fun d hd => ?_⟩
  · obtain ⟨m1, h1⟩ := s.find_launchDrops l.serial hm
    refine ⟨_, by rw [State.closeLaunch_eq, State.find_modLaunch, if_pos rfl, h1]; rfl, ?_, rfl⟩
    show ((s.launchDrops l.serial).disarmLaunch l.serial).dial = s.dial
    rw [State.disarmLaunch_eq]
    rfl
  · rw [State.core_closeLaunch, if_pos hd]
    exact ⟨rfl, rfl, rfl, rfl, rfl⟩
  · rw [State.core_closeLaunch, if_neg hd]
    exact s.core_launchDrops l.serial d

section
variable (hl : s.launches.find ln = some l)
include hl

theorem launchCompletion_open (hst : l.status = none) : exec (.launchCompletion ln) s =
    if !s.launchOver l then .next s
    else if !l.cancel && s.subsStand l then .next (s.modSubs (fun u => u.launch == ln && !u.closed) Sub.remove)
    else .next (s.closeLaunch l).refresh := by
  rw [exec_launchCompletion, execLaunchCompletion]
  simp only [hl, hst]

theorem launchCompletion_ended {st : Status} (hst : l.status = some st) : exec (.launchCompletion ln) s =
    if l.noted || s.dial ≤ l.dial1 || s.launches.any (fun x => s.recordsFirst x.2 l) then .next s
    else .next ((((s.record l st).modLaunch ln (fun l => { l with noted := true })).endNode l.gr l.node st).refresh) := by
  rw [exec_launchCompletion, execLaunchCompletion]
  simp only [hl, hst]

end

/-- Does a record have to wait (R259)? -/
theorem recordWaits_iff (s : State) (l : Launch) :
    (l.noted || s.dial ≤ l.dial1 || s.launches.any (fun x => s.recordsFirst x.2 l)) = true ↔
      l.noted = true ∨ s.dial ≤ l.dial1 ∨ ∃ y ∈ s.launches, y.2.part = l.part ∧ y.2.status ≠ none ∧ y.2.noted = false
        ∧ (y.2.dial1 < l.dial1 ∨ (y.2.dial1 = l.dial1 ∧ s.homeSrc y.2 < s.homeSrc l)) := by
  simp [State.recordsFirst, Option.isSome_iff_ne_none, or_assoc, and_assoc]

/-! ## Records (R259, R260) -/

/-- The machine with a launch's record appended, before the checkpoint that may follow. -/
def recorded (s : State) (l : Launch) (code : Nat) : State :=
  (s.toRing l.part (recordBytes s l code)).modPart l.part (fun y =>
    { y with prev := sha256 (recordBytes s l code), nrec := y.nrec + 1, lastSer := l.serial })

theorem State.record_eq (s : State) (l : Launch) (st : Status) : s.record l st =
    if ((s.part l.part).nrec + 1) % 256 = 0 then
      (recorded s l (match st with | .done => 0 | .cancelled => 1 | .faulted => 2)).checkpoint l.part
    else recorded s l (match st with | .done => 0 | .cancelled => 1 | .faulted => 2) := rfl

/-! ## Phases and jobs (R18, R190, R199) -/

theorem phaseEnded_iff (s : State) (k : Nat) :
    s.phaseEnded k = true ↔ ∀ x ∈ s.phaseGraphs k, x.2.status ≠ none := by
  simp [State.phaseEnded, Option.isSome_iff_ne_none]

/-- The next phase may begin (R199). -/
theorem phaseHeld_iff (s : State) (k : Nat) (j : Job) :
    (j.status.isSome || j.fault || j.cancel || j.phases.length ≤ j.phase + 1 || !s.phaseEnded k
        || (s.part j.part).rep.isSome || (s.part j.part).pre != .running) = true ↔
      ¬ (j.status = none ∧ j.fault = false ∧ j.cancel = false ∧ j.phase + 1 < j.phases.length
        ∧ (∀ x ∈ s.phaseGraphs k, x.2.status ≠ none) ∧ (s.part j.part).rep = none ∧ (s.part j.part).pre = .running) := by
  rw [← phaseEnded_iff, ← Bool.not_eq_false, not_iff_not]
  simp only [Bool.or_eq_false_iff, Option.isSome_eq_false_iff, Option.isNone_iff_eq_none, decide_eq_false_iff_not,
    Bool.not_eq_false', bne_eq_false_iff_eq, not_le, and_assoc]

/-- The job may not complete yet (R190). -/
theorem jobHeld_iff (s : State) (k : Nat) (j : Job) :
    (j.status.isSome || !s.phaseEnded k || !(j.fault || j.cancel || j.phases.length ≤ j.phase + 1)) = true ↔
      ¬ (j.status = none ∧ (∀ x ∈ s.phaseGraphs k, x.2.status ≠ none)
        ∧ (j.fault = true ∨ j.cancel = true ∨ j.phases.length ≤ j.phase + 1)) := by
  rw [← phaseEnded_iff, ← Bool.not_eq_false, not_iff_not]
  simp only [Bool.or_eq_false_iff, Option.isSome_eq_false_iff, Option.isNone_iff_eq_none, Bool.not_eq_false',
    Bool.or_eq_true, decide_eq_true_eq, and_assoc, or_assoc]

section
variable (hj : s.jobs.find k = some j)
include hj

theorem phaseBoundary_of : exec (.phaseBoundary k) s =
    if j.status.isSome || j.fault || j.cancel || j.phases.length ≤ j.phase + 1 || !s.phaseEnded k
        || (s.part j.part).rep.isSome || (s.part j.part).pre != .running then .next s
    else .next (((s.modPart j.part applyDet).modJob k (fun x => { x with phase := x.phase + 1 })).beginPhase k).refresh := by
  rw [exec_phaseBoundary, execPhaseBoundary]
  simp only [hj]

theorem jobCompletion_of {st : Status} {code : Nat}
    (hs : (st, code) = (if j.fault then (Status.faulted, 2) else if j.cancel then (.cancelled, 1) else (.done, 0))) :
    exec (.jobCompletion k) s =
      if j.status.isSome || !s.phaseEnded k || !(j.fault || j.cancel || j.phases.length ≤ j.phase + 1) then .next s
      else .next ((s.complete j.part j.cpl j.id code j.phase).modJob k (fun x => { x with status := some st })).refresh := by
  rw [exec_jobCompletion, execJobCompletion]
  simp only [hj]
  cases hf : j.fault <;> cases hc : j.cancel <;> (simp only [hf, hc] at hs; cases hs; rfl)

end

/-! ## Replicas (R215) -/

/-- One original enters the table at a phase boundary. -/
theorem applyReplicas_one {e : Replica} {i : Nat} (he : (s.part p).pendRep = [e]) (hi : s.freeReplica = some i) :
    s.applyReplicas p = (withReplica s i e).modPart p (fun x => { x with pendRep := [] }) := by
  rw [State.applyReplicas, he, List.foldl_cons, List.foldl_nil, hi]
  simp only [State.modPart, withReplica]
  rw [show State.part { s with replicas := s.replicas.put i e } p = s.part p from rfl, he]
  rfl

/-- A copy that ends with an error: it is reported, and the procedure goes on. -/
def copyFailed (s : State) (p : Nat) (c : CopyJob) (r : RepRun) : Result :=
  let u : State := { s with copies := s.copies.filter (fun x => x.part != p) }
  .next (repGo p r r.todo (u.report p regSrc 18 6 0 (BitVec.ofNat 64 c.expert) 0 0)).refresh

/-- A copy that ends well: the lines are the replica's, and the table has its entry. -/
def copyDone (s : State) (p : Nat) (c : CopyJob) (r : RepRun) (o : Replica) (vcl core first i : Nat) : Result :=
  let u : State := { s with copies := s.copies.filter (fun x => x.part != p) }
  .next (repGo p { r with sums := r.sums.put c.die (Tbl.get 0 r.sums c.die + c.load) } r.todo
    (withReplica (u.copyExpert p (Config.expertLines p c.expert) (s.replicaLine p c.die first) o vcl core) i
      ⟨s.replicaLine p c.die first, c.expert, p, vcl, core, o.ncore, 2⟩)).refresh

section
variable {c : CopyJob} {r : RepRun} (hc : s.copies.find? (fun c => c.part == p) = some c) (hr : (s.part p).rep = some r)
include hc hr

theorem replicaCopyComplete_error : exec (.replicaCopyComplete p false) s = copyFailed s p c r := by
  rw [exec_replicaCopyComplete, execReplicaCopyComplete]
  simp only [hc, hr] <;> rfl

theorem replicaCopyComplete_copied {i vcl core ncore first : Nat} {o : Nat × Replica}
    (ho : s.replicas.find? (fun x => x.2.part == p && x.2.expert == c.expert && x.2.state == 1) = some o)
    (hv : (s.part p).reserve.find c.die = some (vcl, core, ncore, first)) (hi : s.freeReplica = some i) :
    exec (.replicaCopyComplete p true) s =
      if ncore < o.2.ncore || 4096 < s.replicaLine p c.die first + Config.expertLines p c.expert
        || 4096 < o.2.line + Config.expertLines p c.expert then copyFailed s p c r
      else copyDone s p c r o.2 vcl core first i := by
  obtain ⟨a, o⟩ := o
  rw [exec_replicaCopyComplete, execReplicaCopyComplete]
  have hv : Tbl.find (State.part { s with copies := s.copies.filter (fun x => x.part != p) } p).reserve c.die = _ := hv
  have hi : State.freeReplica { s with copies := s.copies.filter (fun x => x.part != p) } = _ := hi
  simp only [hc, hr, ho, hv, hi] <;> rfl

end

/-- Settles O54: each end by its own rule, once the conditions of the statement are read as the model's tests. -/
theorem jobsAndPhases : Obligations.JobsAndPhases := by
  unfold Obligations.JobsAndPhases
  intro s ln k p l j c r
  refine ⟨fun hl hst => ?_, fun st hl hst => ?_, fun st code hcode => ?_, fun head hh => ?_, fun hj => ?_,
    fun d hd => ?_, fun e i he hi => applyReplicas_one he hi, fun hc hr => ?_⟩
  · rw [launchCompletion_open hl hst]
    refine ⟨fun ho => by rw [ho]; rfl, fun ho hc hs => by rw [ho, hc, hs]; rfl, fun u ho hc hu => ?_⟩
    subst hu
    refine ⟨.of_refresh ?_, closeLaunch_leaves s l⟩
    rw [launchCompletion_open hl hst, ho]
    obtain hc | hc := hc <;> simp [hc]
  · have waits := recordWaits_iff s l
    rw [launchCompletion_ended hl hst, ← waits]
    exact ⟨fun hw => if_pos hw, fun hw => .of_refresh ((launchCompletion_ended hl hst).trans (if_neg hw))⟩
  · subst hcode
    exact ⟨fun hn => (s.record_eq l st).trans (if_neg hn), fun hn =>
      (congrArg Host.Outcome.next ((s.record_eq l st).trans (if_pos hn))).symm⟩
  · subst hh
    rfl
  · have held := phaseHeld_iff s k j
    have jheld := jobHeld_iff s k j
    refine ⟨fun hn => (phaseBoundary_of hj).trans (if_pos (held.2 hn)), fun hn =>
      (phaseBoundary_of hj).trans (if_neg (fun hx => held.1 hx hn)),
      fun hn => (jobCompletion_of hj rfl).trans (if_pos (jheld.2 hn)), fun st code hn hs =>
        .of_refresh ((jobCompletion_of hj hs).trans (if_neg (fun hx => jheld.1 hx hn)))⟩
  · simp only [State.modPart, applyDet, hd]
  · refine ⟨replicaCopyComplete_error hc hr, fun i o vcl core ncore first ho hv hi => ?_⟩
    rw [replicaCopyComplete_copied hc hr ho hv hi]
    refine ⟨fun hf => if_pos ?_, fun ⟨h1, h2, h3⟩ => if_neg ?_⟩
    · by_contra hx
      simp only [Bool.or_eq_true, decide_eq_true_eq, not_or, not_lt] at hx
      exact hf ⟨hx.1.1, hx.1.2, hx.2⟩
    · simp only [Bool.or_eq_true, decide_eq_true_eq, not_or, not_lt]
      exact ⟨⟨h1, h2⟩, h3⟩

end Sys2Proof.Machine
end

section
/-!
Line words and transfers (R121, R124, R361, R363-R365, R369, R370, R427): the obligation O12.
-/

namespace Sys2Proof.Machine

/-! ## A fence and the ordered-domain check (R174, R361) -/

/-- What a table gives at a key is listed, unless it is the default. -/
theorem Tbl.any_of_get {α : Type} {d : α} {t : Tbl α} {k : Nat} {P : α → Bool} (hd : P d = false)
    (h : P (Tbl.get d t k) = true) : t.any (fun x => P x.2) = true := by
  induction t with
  | nil => rw [show Tbl.get d [] k = d from rfl, hd] at h; cases h
  | cons x r ih =>
    rw [Tbl.get_cons] at h
    rw [List.any_cons, Bool.or_eq_true]
    split at h
    · exact .inl h
    · exact .inr (ih h)

/-- Listing a value of which a test says what it says of the old one changes no test of the whole table. -/
theorem Tbl.any_put {α : Type} {d : α} {t : Tbl α} {k : Nat} {v : α} {P : α → Bool} (hd : P d = false)
    (hv : P v = P (Tbl.get d t k)) : (t.put k v).any (fun x => P x.2) = t.any (fun x => P x.2) := by
  induction t with
  | nil =>
    rw [show Tbl.get d [] k = d from rfl, hd] at hv
    simp [Tbl.put, hv]
  | cons x r ih =>
    have hany := Tbl.any_of_get (t := x :: r) (k := k) hd
    rw [← hv] at hany
    rw [Tbl.get_cons] at hv
    rw [Tbl.put]
    split
    · rw [List.any_cons]
      cases hp : P v
      · rfl
      · rw [hany hp]; rfl
    · split
      · rename_i hk
        rw [if_pos hk.symm] at hv
        rw [List.any_cons, List.any_cons, hv]
      · rename_i hk
        rw [if_neg (Ne.symm hk)] at hv
        rw [List.any_cons, List.any_cons, ih hv]

/-- A task that becomes irrevocable changes nothing that a fence waits for. -/
theorem irrevocably_inFlight (s : State) (c cls seq : Nat) :
    (irrevocably s).inFlight c cls seq = s.inFlight c cls seq := by
  have hc : (irrevocably s).core c = { s.core c with ctl := ((irrevocably s).core c).ctl } := by
    rw [irrevocably_core]
    split
    · rename_i h; rw [h]; rfl
    · rfl
  have hp : (irrevocably s).cores.any (fun y => y.2.portq.any (fun r => r.core == c && decide (r.seq < seq))) =
      s.cores.any (fun y => y.2.portq.any (fun r => r.core == c && decide (r.seq < seq))) := by
    rw [irrevocably_eq]
    exact Tbl.any_put (d := ({} : Core)) (P := fun k => k.portq.any (fun r => r.core == c && decide (r.seq < seq))) rfl rfl
  unfold State.inFlight
  rw [hc, hp]
  rfl

theorem irrevocably_fenced (s : State) (c cls seq : Nat) :
    (irrevocably s).fenced c cls seq = s.fenced c cls seq := by
  have hh : ((irrevocably s).core c).holds = (s.core c).holds := by
    rw [irrevocably_core]
    split
    · rename_i h; rw [h]; rfl
    · rfl
  simp only [State.fenced, hh, irrevocably_inFlight]

/-! ## Going on after a change that leaves the task's registers -/

/-- A reply that is owed to a register or a predicate (R314). -/
theorem State.owe_stepPc {s : State} (hq : s.seat.seq = .control) (d : Dest) (v : Option Word) (unb : Bool) :
    NextWord s (s.owe s.seat.core d v unb).stepPc ∧ MemoryKept s (s.owe s.seat.core d v unb).stepPc
      ∧ (s.owe s.seat.core d v unb).stepPc.here.owed = s.here.owed ++ [⟨s.fresh, s.here.ctl.run, d, v, unb⟩] := by
  have hu : s.core s.seat.core = s.here := rfl
  refine ⟨nextWord_stepPc hq rfl ?_, fun a => rfl, ?_⟩
  · simp [State.owe, hu]
  · simp [State.owe, hu]

/-! ## `fset` (R121, R363, R364) -/

section
variable {s : State} {g : Guard} {a : Reg} {d : Pred}

/-- The word that fills or empties a line. -/
abbrev fsetWord (g : Guard) (a : Reg) (full : Bool) : Instr := if full then .fsetFull g a else .fsetEmpty g a

/-- A core with a packet on one of its rings (R9). -/
def Core.onRing (k : Core) (ring : Nat) (p : Packet) : Core :=
  if ring = 0 then { k with ring0 := k.ring0 ++ [p] } else { k with ring1 := k.ring1 ++ [p] }

@[simp] theorem Core.onRing_ctl (k : Core) (ring : Nat) (p : Packet) : (k.onRing ring p).ctl = k.ctl := by
  unfold Core.onRing
  split <;> rfl

/-- An `fset` that no fence holds, once its task may act. -/
def fsetActs (a : Reg) (full : Bool) (s : State) : State :=
  match placeOf s.seat.core (s.reg a) 1 with
  | .scratch t off =>
    if t = s.seat.core then (s.setLine (lineKey t (off / 128)) full).stepPc
    else (s.modHere (fun k => k.onRing (ringOf s.seat.core t)
      (.fset t s.here.ctl.run (lineKey t (off / 128)) full s.opSeq))).bump.stepPc
  | _ => s.trap 4 (s.reg a)

theorem exec_fset (g : Guard) (a : Reg) (full : Bool) (s : State) : exec (fsetWord g a full) s =
    control g [.g a] s (fun s => if s.fenced s.seat.core 0 s.opSeq then s else s.settling (fsetActs a full)) := by
  cases full <;> rfl

theorem fset_held (full : Bool) (h : Issues s g [.g a]) (hf : s.fenced s.seat.core 0 s.opSeq = true) :
    exec (fsetWord g a full) s = .next s := by
  rw [exec_fset, control_of_issues h, if_pos hf]

theorem fset_of (full : Bool) (h : Issues s g [.g a]) (hf : s.fenced s.seat.core 0 s.opSeq = false) (hu : Unordered s) :
    exec (fsetWord g a full) s = .next (fsetActs a full s.settled) := by
  rw [exec_fset, control_of_issues h, if_neg (by rw [hf]; decide), State.settling_of_unordered hu]

theorem fset_irrevocable (full : Bool) (h : Issues s g [.g a]) (hf : s.fenced s.seat.core 0 s.opSeq = false) :
    IrrevocableFirst (fsetWord g a full) s := by
  refine irrevocableFirst_of_settling h (exec_fset g a full) (if_neg (by rw [hf]; decide)) (if_neg ?_)
  rw [irrevocably_seat, irrevocably_opSeq, irrevocably_fenced, hf]
  decide

/-- A local line is full or empty, and no other (R363, R364). -/
theorem fsetActs_local (full : Bool) (hq : s.seat.seq = .control) {o : Nat}
    (hp : placeOf s.seat.core (s.reg a) 1 = .scratch s.seat.core o) :
    let t := fsetActs a full s.settled
    NextWord s t ∧ MemoryKept s t
      ∧ ∀ l, t.isEmpty l = if l = lineKey s.seat.core (o / 128) ∧ (full = true ∨ s.filledNow l = false) then !full
          else s.isEmpty l := by
  have e : fsetActs a full s.settled = (s.settled.setLine (lineKey s.seat.core (o / 128)) full).stepPc := by
    simp only [fsetActs, State.settled_seat, State.settled_reg, hp, if_true]
  rw [e]
  refine ⟨nextWord_stepPc hq (State.setLine_seat _ _) ?_, fun x => ?_, fun l => ?_⟩
  · rw [State.here_setLine_ctl, State.settled_here]
    exact ⟨rfl, rfl, rfl, rfl⟩
  · rw [State.stepPc_eq, State.setCore_mem, State.setLine_mem, State.settled_mem]
  · rw [State.stepPc_eq, State.isEmpty_setCore, State.isEmpty_setLine]
    by_cases hl : l = lineKey s.seat.core (o / 128)
    · subst hl; rfl
    · rw [if_neg (fun h => hl h.1), if_neg (fun h => hl h.1), State.settled_isEmpty]

/-- A peer's line: a packet on the ring of the shorter way (R9, R364). -/
theorem fsetActs_peer (full : Bool) (hq : s.seat.seq = .control) {t o : Nat}
    (hp : placeOf s.seat.core (s.reg a) 1 = .scratch t o) (ht : t ≠ s.seat.core) :
    let u := fsetActs a full s.settled
    let p := Packet.fset t s.here.ctl.run (lineKey t (o / 128)) full s.opSeq
    NextWord s u ∧ MemoryKept s u ∧ (∀ l, u.isEmpty l = s.isEmpty l)
      ∧ (if ringOf s.seat.core t = 0 then u.here.ring0 = s.here.ring0 ++ [p] ∧ u.here.ring1 = s.here.ring1
        else u.here.ring1 = s.here.ring1 ++ [p] ∧ u.here.ring0 = s.here.ring0) := by
  intro u p
  have e : u = (s.settled.setCore s.seat.core (s.settled.here.onRing (ringOf s.seat.core t) p)).bump.stepPc := by
    simp only [u, p, fsetActs, State.settled_seat, State.settled_reg, hp, if_neg ht, State.settled_modHere,
      State.settled_here, State.settled_opSeq]
  have hh : (s.settled.setCore s.seat.core (s.settled.here.onRing (ringOf s.seat.core t) p)).bump.here =
      s.settled.here.onRing (ringOf s.seat.core t) p := by simp
  rw [e]
  refine ⟨nextWord_stepPc hq rfl ?_, fun x => rfl, fun l => rfl, ?_⟩
  · rw [hh]
    simp
  · simp only [State.stepPc_eq, State.here_setCore, if_true, hh]
    unfold Core.onRing
    split <;> simp

/-- No line of a scratchpad: the address fault (R361). -/
theorem fsetActs_fault (full : Bool)
    (hp : placeOf s.seat.core (s.reg a) 1 = .global ∨ placeOf s.seat.core (s.reg a) 1 = .bad) :
    Traps 4 (s.reg a) s (fsetActs a full s.settled) := by
  have e : fsetActs a full s.settled = s.settled.trap 4 (s.reg a) := by
    obtain hp | hp := hp <;> simp only [fsetActs, State.settled_seat, State.settled_reg, hp]
  rw [e]
  exact s.trap_settled 4 (s.reg a)

/-! ## `ftest` (R365) -/

theorem ftest_held (h : Issues s g [.q d, .g a]) (hf : s.fenced s.seat.core 0 s.opSeq = true) :
    exec (.ftest g d a) s = .next s := by
  rw [exec_ftest, execFtest, control_of_issues h, if_pos hf]

theorem ftest_of (h : Issues s g [.q d, .g a]) (hf : s.fenced s.seat.core 0 s.opSeq = false) :
    exec (.ftest g d a) s = .next (match placeOf s.seat.core (s.reg a) 1 with
      | .scratch t off =>
        if t = s.seat.core then s.resultQ d (!s.isEmpty (lineKey t (off / 128)))
        else (s.owe s.seat.core (.q d) (some (if s.isEmpty (lineKey t (off / 128)) then 0 else 1)) false).stepPc
      | _ => s.trap 4 (s.reg a)) := by
  rw [exec_ftest, execFtest, control_of_issues h, if_neg (by rw [hf]; decide)]
  cases placeOf s.seat.core (s.reg a) 1 with
  | global => rfl
  | bad => rfl
  | scratch t off =>
    cases he : s.isEmpty (lineKey t (off / 128)) <;> simp [he]

end

/-! ## The checks of `ldg` and `stg` (R369) -/

/-- The first failure of the address checks, by the numbers that the addresses are (R369). -/
theorem lineCheck_eq (a b : Word) {n : Nat} (hn : 0 < n) : lineCheck a b n =
    if ¬ (a.toNat / 2 ^ 60 = 1 ∧ a.toNat % 2 ^ 60 + 128 * n ≤ 0x80000) then some (4, a)
    else if 2 ^ 52 < b.toNat + 128 * n then some (4, b)
    else if a.toNat % 128 ≠ 0 then some (5, a)
    else if b.toNat % 128 ≠ 0 then some (5, b)
    else none := by
  obtain ⟨hspace, hoff⟩ := spaceNat a
  have ha : (a.extractLsb' 60 4 ≠ 1 ∨ 0x80000 < (a.extractLsb' 0 60).toNat + 128 * n) ↔
      ¬ (a.toNat / 2 ^ 60 = 1 ∧ a.toNat % 2 ^ 60 + 128 * n ≤ 0x80000) := by
    rw [hspace, show (a.extractLsb' 0 60).toNat = a.toNat % 2 ^ 60 from hoff]
    omega
  have hb : (b.extractLsb' 52 12 ≠ 0 ∨ 2 ^ 52 < b.toNat + 128 * n) ↔ 2 ^ 52 < b.toNat + 128 * n := by
    refine or_iff_right_of_imp (fun h => ?_)
    have hne : (b.extractLsb' 52 12).toNat ≠ 0 := fun h0 => h (BitVec.eq_of_toNat_eq h0)
    rw [BitVec.extractLsb'_toNat, Nat.shiftRight_eq_div_pow] at hne
    omega
  simp only [lineCheck, ha, hb]

/-- The order of the checks, from what the word does where one fails and where none does (R369). -/
theorem lineChecks_of {i : Instr} {s : State} {a b : Word} {n : Nat} {ok : Prop} (hn : 0 < n)
    (hbad : ∀ cause v, lineCheck a b n = some (cause, v) → Completes i s (Traps cause v s))
    (hok : lineCheck a b n = none → ok) : LineChecks i s a b n ok := by
  have e := lineCheck_eq a b hn
  refine ⟨fun h => hbad _ _ (e.trans (if_pos h)), fun h1 h2 => ?_⟩
  rw [if_neg (not_not.2 ⟨h1, h2⟩)] at e
  refine ⟨fun h => hbad _ _ (e.trans (if_pos h)), fun h => ?_⟩
  rw [if_neg (Nat.not_lt.2 h)] at e
  refine ⟨fun h => hbad _ _ (e.trans (if_pos h)), fun h3 h4 => ?_, fun h3 h4 => hok ?_⟩
  · rw [if_neg (not_not.2 h3)] at e
    exact hbad _ _ (e.trans (if_pos h4))
  · rw [if_neg (not_not.2 h3), if_neg (not_not.2 h4)] at e
    exact e

/-! ## `ldg` (R124, R370) -/

section
variable {s : State} {g : Guard} {a b : Reg} {lines : BitVec 7}

/-- Lines of a core are empty. -/
def State.emptyLines (s : State) (c line n : Nat) : State :=
  (List.range n).foldl (fun s i => s.setEmpty (lineKey c (line + i))) s

theorem State.emptyLines_eq (s : State) (c line n : Nat) :
    s.emptyLines c line n = { s with empty := (s.emptyLines c line n).empty } := by
  induction n with
  | zero => rfl
  | succ n ih =>
    have e : s.emptyLines c line (n + 1) = (s.emptyLines c line n).setEmpty (lineKey c (line + n)) := by
      simp [State.emptyLines, List.range_succ]
    rw [e, ih]
    rfl

@[simp] theorem State.emptyLines_seat (s : State) (c line n : Nat) : (s.emptyLines c line n).seat = s.seat := by
  rw [State.emptyLines_eq]

@[simp] theorem State.emptyLines_mem (s : State) (c line n : Nat) : (s.emptyLines c line n).mem = s.mem := by
  rw [State.emptyLines_eq]

@[simp] theorem State.core_emptyLines (s : State) (c line n d : Nat) :
    (s.emptyLines c line n).core d = s.core d := by
  rw [State.emptyLines_eq]
  rfl

theorem State.isEmpty_emptyLines (s : State) (c line n l : Nat) : (s.emptyLines c line n).isEmpty l =
    (s.isEmpty l || decide (lineKey c line ≤ l ∧ l < lineKey c line + n)) := by
  induction n with
  | zero =>
    rw [decide_eq_false (by omega), Bool.or_false]
    rfl
  | succ n ih =>
    have e : s.emptyLines c line (n + 1) = (s.emptyLines c line n).setEmpty (lineKey c (line + n)) := by
      simp [State.emptyLines, List.range_succ]
    rw [e, State.isEmpty_setEmpty, ih, show lineKey c (line + n) = lineKey c line + n by unfold lineKey; omega]
    by_cases hl : l = lineKey c line + n
    · rw [if_pos hl, decide_eq_true (by omega), Bool.or_true]
    · rw [if_neg hl]
      congr 1
      exact decide_eq_decide.2 (by omega)

/-- What `ldg` does once its task may act. -/
def ldgActs (a b : Reg) (n : Nat) (s : State) : State :=
  let c := s.seat.core
  let ch := s.here.ctl.chain
  match lineCheck (s.reg a) (s.reg b) n with
  | some (cause, v) => s.trap cause v
  | none =>
    if (s.here.chain ch).ld = 65535 then s.trap 11 0
    else
      let line := localOff (s.reg a) / 128
      let r : Ldg := { id := s.fresh, chain := ch, line := line, va := s.reg b, lines := n, seq := s.opSeq }
      let s := (s.modCore c (fun k => { k with ldgs := k.ldgs.map (fun x => x.cover line n) })).emptyLines c line n
      let s := s.modCore c (fun k => { k with ldgs := k.ldgs ++ [r] })
      (s.modChain c ch (fun x => { x with ld := x.ld + 1 })).next.bump.stepPc

theorem exec_ldg_eq (g : Guard) (a b : Reg) (lines : BitVec 7) (s : State) : exec (.ldg g a b lines) s =
    control g [.g a, .g b] s (fun s => s.settling (ldgActs a b (lines.toNat + 1))) := rfl

theorem ldg_of (h : Issues s g [.g a, .g b]) (hu : Unordered s) : exec (.ldg g a b lines) s =
    .next (ldgActs a b (lines.toNat + 1) s.settled) := by
  rw [exec_ldg_eq, control_of_issues h, State.settling_of_unordered hu]

theorem ldgActs_fails {n cause : Nat} {v : Word} (hl : lineCheck (s.reg a) (s.reg b) n = some (cause, v)) :
    Traps cause v s (ldgActs a b n s.settled) := by
  have e : ldgActs a b n s.settled = s.settled.trap cause v := by
    simp only [ldgActs, State.settled_reg, hl]
  rw [e]
  exact s.trap_settled cause v

theorem ldgActs_full {n : Nat} (hl : lineCheck (s.reg a) (s.reg b) n = none)
    (hc : (s.here.chain s.here.ctl.chain).ld = 65535) : Traps 11 0 s (ldgActs a b n s.settled) := by
  have hc : (s.settled.here.chain s.settled.here.ctl.chain).ld = 65535 := by rw [State.settled_here]; exact hc
  have e : ldgActs a b n s.settled = s.settled.trap 11 0 := by
    simp only [ldgActs, State.settled_reg, hl, if_pos hc]
  rw [e]
  exact s.trap_settled 11 0

/-- The core's record once an `ldg` has issued (R370). -/
def ldgCore (s : State) (r : Ldg) : Core :=
  { s.settled.here with
    ldgs := s.here.ldgs.map (fun x => x.cover r.line r.lines) ++ [r]
    chains := s.here.chains.put r.chain { s.here.chain r.chain with ld := (s.here.chain r.chain).ld + 1 } }

theorem ldgActs_issues (hq : s.seat.seq = .control) {n : Nat} (hl : lineCheck (s.reg a) (s.reg b) n = none)
    (hc : (s.here.chain s.here.ctl.chain).ld ≠ 65535) :
    LdgIssued s (ldgActs a b n s.settled) ((s.reg a).toNat % 2 ^ 60 / 128) n (s.reg b) := by
  have hc : (s.settled.here.chain s.settled.here.ctl.chain).ld ≠ 65535 := by rw [State.settled_here]; exact hc
  rw [← (spaceNat (s.reg a)).2]
  generalize hline : localOff (s.reg a) / 128 = line
  let r : Ldg := { id := s.fresh, chain := s.here.ctl.chain, line := line, va := s.reg b, lines := n, seq := s.opSeq }
  have e : ∃ u : State, ldgActs a b n s.settled = u.stepPc ∧ u.seat = s.seat ∧ u.mem = s.mem
      ∧ u.core s.seat.core = ldgCore s r ∧ ∀ l, u.isEmpty l = (s.isEmpty l
        || decide (lineKey s.seat.core line ≤ l ∧ l < lineKey s.seat.core line + n)) := by
    refine ⟨_, by simp only [ldgActs, State.settled_reg, hl, if_neg hc, hline]; rfl, ?_, ?_, ?_, fun l => ?_⟩
    · simp
    · simp
    · simp [ldgCore, r, Core.chain]
    · exact State.isEmpty_emptyLines _ _ _ _ _
  obtain ⟨u, hu, hseat, hmem, hcore, hemp⟩ := e
  have hhere : u.here = ldgCore s r := by rw [State.here, hseat, hcore]
  rw [hu]
  refine ⟨nextWord_stepPc hq hseat (by rw [hhere]; simp [ldgCore]), fun x => ?_, hemp, ?_, ?_⟩
  · rw [State.stepPc_eq, State.setCore_mem, hmem]
  · simp [hhere, ldgCore, r, Core.chain]
  · simp [hhere, ldgCore, r]

/-! ## `stg` (R126, R427) -/

/-- The record of an `stg` in its task (R427). -/
def stgPut (a b : Reg) (n : Nat) (s : State) : State :=
  (s.modCtl s.seat.core (fun x => { x with work := { x.work with
    stgs := x.work.stgs ++ [⟨localOff (s.reg a) / 128, s.reg b, n⟩] } })).stepPc

/-- What `stg` does at issue. -/
def stgActs (a b : Reg) (n : Nat) (s : State) : State :=
  match lineCheck (s.reg a) (s.reg b) n with
  | some (cause, v) => s.trap cause v
  | none =>
    if s.here.ctl.work.stgs.length = 32 then s.trap 7 (s.reg a)
    else if 256 < (bufLines s.here.ctl.work.wbuf).length + s.here.ctl.work.stgs.length + 1 then
      s.irrevocable (stgPut a b n)
    else stgPut a b n s

theorem exec_stg_eq (g : Guard) (a b : Reg) (lines : BitVec 7) (s : State) : exec (.stg g a b lines) s =
    control g [.g a, .g b] s (stgActs a b (lines.toNat + 1)) := rfl

theorem stgActs_later {n : Nat} (hl : lineCheck (s.reg a) (s.reg b) n = none) (hs : s.here.ctl.work.stgs.length ≠ 32)
    (hb : 256 ≤ (bufLines s.here.ctl.work.wbuf).length + s.here.ctl.work.stgs.length) :
    stgActs a b n s = s.irrevocable (stgPut a b n) := by
  simp only [stgActs, hl]
  rw [if_neg hs, if_pos (by omega)]

theorem stg_irrevocable (h : Issues s g [.g a, .g b]) (hl : lineCheck (s.reg a) (s.reg b) (lines.toNat + 1) = none)
    (hs : s.here.ctl.work.stgs.length ≠ 32)
    (hb : 256 ≤ (bufLines s.here.ctl.work.wbuf).length + s.here.ctl.work.stgs.length) :
    IrrevocableFirst (.stg g a b lines) s := by
  refine irrevocableFirst_of h (exec_stg_eq g a b lines) (stgActs_later hl hs hb) ?_
  rw [stgActs_later (by simpa using hl) (by simpa using hs) (by simpa using hb),
    State.irrevocable_of_unordered (irrevocably_unordered s)]

theorem stgPut_records (hq : s.seat.seq = .control) (a b : Reg) (n : Nat) :
    TaskOnly s (stgPut a b n s) ∧ NextWord s (stgPut a b n s) ∧ (stgPut a b n s).here.ctl.work.stgs =
      s.here.ctl.work.stgs ++ [⟨(s.reg a).toNat % 2 ^ 60 / 128, s.reg b, n⟩] := by
  rw [stgPut, State.modCtl_eq, (spaceNat (s.reg a)).2]
  have hu : s.core s.seat.core = s.here := rfl
  have ht := TaskOnly.stepPc hq (u := s.setCore s.seat.core { s.here with ctl := { s.here.ctl with
    work := { s.here.ctl.work with stgs := s.here.ctl.work.stgs ++ [⟨(s.reg a).toNat % 2 ^ 60 / 128, s.reg b, n⟩] } } })
    ⟨by simp [OnlyCtl], by simp, fun x => rfl⟩ rfl (by simp)
  exact ⟨ht.1, ht.2, by simp [Ctl.stepPc, hu]⟩

end

/-- Settles O12: each word by what it does once it issues, after the ordered-domain check. -/
theorem lineWordsAndTransfers : Obligations.LineWordsAndTransfers := by
  unfold Obligations.LineWordsAndTransfers
  refine ⟨fun s g d a full => ?_, fun s g a b lines h => ⟨?_, fun hu => ?_, ?_⟩⟩
  · refine ⟨fun h hf => ⟨s, fset_held full h hf, rfl⟩, fun h hf => ⟨fset_irrevocable full h hf, fun hu => ?_⟩,
      fun h hf => ⟨s, ftest_held h hf, rfl⟩, fun h hf => ⟨fun o hp => ?_, fun t o hp ht => ?_, fun hp => ?_⟩⟩
    · exact ⟨fun o hp => ⟨_, fset_of full h hf hu, fsetActs_local full h.1 hp⟩,
        fun t o hp ht => ⟨_, fset_of full h hf hu, fsetActs_peer full h.1 hp ht⟩,
        fun hp => ⟨_, fset_of full h hf hu, fsetActs_fault full hp⟩⟩
    · refine ⟨_, ftest_of h hf, ?_⟩
      simp only [hp, if_true]
      exact State.resultQ_writes h.1 d _
    · refine ⟨_, ftest_of h hf, ?_⟩
      simp only [hp, if_neg ht]
      exact State.owe_stepPc h.1 _ _ _
    · refine ⟨_, ftest_of h hf, ?_⟩
      obtain hp | hp := hp <;> rw [hp] <;> exact s.trap_traps 4 (s.reg a)
  · exact irrevocableFirst_of_settling h (exec_ldg_eq g a b lines) rfl rfl
  · exact lineChecks_of (Nat.succ_pos _) (fun cause v hl => ⟨_, ldg_of h hu, ldgActs_fails hl⟩) (fun hl =>
      ⟨fun hc => ⟨_, ldg_of h hu, ldgActs_full hl hc⟩, fun hc => ⟨_, ldg_of h hu, ldgActs_issues h.1 hl hc⟩⟩)
  · have e : exec (.stg g a b lines) s = .next (stgActs a b (lines.toNat + 1) s) := by
      rw [exec_stg_eq, control_of_issues h]
    refine lineChecks_of (Nat.succ_pos _) (fun cause v hl => ⟨_, e, ?_⟩) (fun hl =>
      ⟨fun hs => ⟨_, e, ?_⟩, fun hs hb => stg_irrevocable h hl hs hb, fun hs ho => ⟨_, e, ?_⟩⟩)
    · simp only [stgActs, hl]
      exact s.trap_traps cause v
    · simp only [stgActs, hl, if_pos hs]
      exact s.trap_traps 7 (s.reg a)
    · have hput : stgActs a b (lines.toNat + 1) s = stgPut a b (lines.toNat + 1) s := by
        simp only [stgActs, hl, if_neg hs]
        split
        · obtain ho | ho := ho
          · exact State.irrevocable_of_unordered ho _
          · omega
        · rfl
      rw [hput]
      exact stgPut_records h.1 a b _

end Sys2Proof.Machine
end

section
/-!
O60: the codes of the byte formats b8pP (R28-R30).
-/

namespace Sys2Proof.Machine

/-! ## Fields of a code (R28) -/

/-- The exponent field and trailing significand of a code, without its sign. -/
def B8.mag (f : B8) (code : Nat) : Nat := if f.nat then code else code % 128

/-- The sign of a code: a natural variant has none. -/
def B8.negative (f : B8) (code : Nat) : Bool := !f.nat && decide (128 ≤ code)

/-- The value that the fields give, whether or not the code is a special one. -/
def B8.fieldsValue (f : B8) (code : Nat) : Fl :=
  let ex := f.mag code / 2 ^ (f.p - 1)
  let t := f.mag code % 2 ^ (f.p - 1)
  if ex ≠ 0 then .fin (f.negative code) (2 ^ (f.p - 1) + t) ((ex : Int) - f.bias - ((f.p : Int) - 1))
  else .fin (f.negative code) t (1 - (f.bias : Int) - ((f.p : Int) - 1))

/-- The special codes come first, and every other code has the value of its fields (R29, R30). -/
theorem B8.decode_eq (f : B8) {code : Nat} (hc : code < 256) : f.decode code =
    if code = f.nanCode then .nan false
    else if f.inf = true ∧ code = f.infCode false then .inf false
    else if f.inf = true ∧ f.nat = false ∧ code = 0xFF then .inf true
    else f.fieldsValue code := by
  have hneg : (!f.nat && code / 128 == 1) = f.negative code := by
    have h1 : code / 128 = 1 ↔ 128 ≤ code := by omega
    simp [B8.negative, Bool.beq_eq_decide_eq, h1]
  unfold B8.decode
  dsimp only
  rw [hneg]
  simp only [beq_iff_eq, Bool.and_eq_true, Bool.not_eq_true', and_assoc]
  refine if_congr Iff.rfl rfl (if_congr Iff.rfl rfl (if_congr Iff.rfl rfl ?_))
  unfold B8.fieldsValue B8.mag B8.emin
  dsimp only
  by_cases hex : (if f.nat then code else code % 128) / 2 ^ (f.p - 1) = 0
  · rw [if_pos hex, if_neg (not_not.2 hex)]
  · rw [if_neg hex, if_pos hex, Nat.add_comm]
    congr 1
    push_cast [Nat.one_le_iff_ne_zero.2 hex]
    ring

/-- A variant without infinities has one special code, the NaN. -/
theorem B8.decode_of_noInf {f : B8} (hi : f.inf = false) {code : Nat} (hc : code < 256) :
    f.decode code = if code = f.nanCode then .nan false else f.fieldsValue code := by
  simp [f.decode_eq hc, hi]

/-- A code with a finite value is no special code. -/
theorem B8.decode_fin {f : B8} {code : Nat} (hc : code < 256) {n : Bool} {m : Nat} {e : Int}
    (h : f.decode code = .fin n m e) : code ≠ f.nanCode ∧ f.fieldsValue code = .fin n m e := by
  rw [f.decode_eq hc] at h
  split at h
  · cases h
  · rename_i hn
    split at h
    · cases h
    · split at h
      · cases h
      · exact ⟨hn, h⟩

/-! ## The order of the finite values -/

/-- A magnitude code's value in units of the least positive one. -/
def b8Units (p mag : Nat) : Nat :=
  if mag / 2 ^ (p - 1) ≠ 0 then (2 ^ (p - 1) + mag % 2 ^ (p - 1)) * 2 ^ (mag / 2 ^ (p - 1) - 1)
  else mag % 2 ^ (p - 1)

/-- Below the next power of two of its exponent field. -/
theorem b8Units_lt (p mag : Nat) : b8Units p mag < 2 ^ (p - 1) * 2 ^ (mag / 2 ^ (p - 1)) := by
  have ht : mag % 2 ^ (p - 1) < 2 ^ (p - 1) := Nat.mod_lt _ (by positivity)
  unfold b8Units
  split
  · rename_i hex
    obtain ⟨k, hk⟩ := Nat.exists_eq_succ_of_ne_zero hex
    rw [hk, Nat.succ_sub_one, Nat.pow_succ, ← Nat.mul_assoc, Nat.mul_right_comm]
    exact Nat.mul_lt_mul_of_pos_right (by omega) (by positivity)
  · exact lt_of_lt_of_le ht (Nat.le_mul_of_pos_right _ (by positivity))

/-- A greater exponent field gives at least its power of two. -/
theorem le_b8Units {p mag k : Nat} (h : k < mag / 2 ^ (p - 1)) : 2 ^ (p - 1) * 2 ^ k ≤ b8Units p mag := by
  unfold b8Units
  rw [if_pos (by omega)]
  exact Nat.mul_le_mul (Nat.le_add_right _ _) (Nat.pow_le_pow_right (by decide) (by omega))

/-- The finite values rise with their codes. -/
theorem b8Units_mono (p : Nat) {a b : Nat} (h : a ≤ b) : b8Units p a ≤ b8Units p b := by
  obtain hlt | heq := Nat.lt_or_eq_of_le (Nat.div_le_div_right (c := 2 ^ (p - 1)) h)
  · exact (b8Units_lt p a).le.trans (le_b8Units hlt)
  · have ht : a % 2 ^ (p - 1) ≤ b % 2 ^ (p - 1) := by
      have ha := Nat.div_add_mod a (2 ^ (p - 1))
      have hb := Nat.div_add_mod b (2 ^ (p - 1))
      rw [heq] at ha
      omega
    unfold b8Units
    rw [heq]
    split
    · exact Nat.mul_le_mul_right _ (Nat.add_le_add_left ht _)
    · exact ht

/-- A finite value's magnitude is its units times the least positive value. -/
theorem B8.fieldsValue_units {f : B8} {code : Nat} {n : Bool} {m : Nat} {e : Int}
    (h : f.fieldsValue code = .fin n m e) :
    n = f.negative code ∧ (m : Rat) * 2 ^ e = b8Units f.p (f.mag code) * 2 ^ f.emin := by
  unfold B8.fieldsValue at h
  dsimp only at h
  unfold b8Units B8.emin
  split at h
  · rename_i hex
    obtain ⟨rfl, rfl, rfl⟩ := Fl.fin.inj h
    refine ⟨rfl, ?_⟩
    have hexp : ((f.mag code / 2 ^ (f.p - 1) : Nat) : Int) - f.bias - ((f.p : Int) - 1)
        = ((f.mag code / 2 ^ (f.p - 1) - 1 : Nat) : Int) + (1 - f.bias - ((f.p : Int) - 1)) := by
      push_cast [Nat.one_le_iff_ne_zero.2 hex]
      ring
    rw [if_pos hex, hexp, zpow_add₀ (by norm_num), zpow_natCast]
    push_cast
    ring
  · rename_i hex
    obtain ⟨rfl, rfl, rfl⟩ := Fl.fin.inj h
    exact ⟨rfl, by rw [if_neg hex]⟩

/-- No finite value of a variant without infinities exceeds that of a code with no lesser a magnitude code. -/
theorem B8.value_le {f : B8} {c d : Nat} (h : f.mag c ≤ f.mag d) {n n' : Bool} {m m' : Nat} {e e' : Int}
    (hc : f.fieldsValue c = .fin n m e) (hd : f.fieldsValue d = .fin n' m' e') :
    (m : Rat) * 2 ^ e ≤ (m' : Rat) * 2 ^ e' := by
  rw [(fieldsValue_units hc).2, (fieldsValue_units hd).2]
  have := b8Units_mono f.p h
  gcongr

/-! ## The statement's parts -/

/-- A zero is the code 0, and there is no negative one (R29). -/
theorem B8.zero_code {f : B8} {code : Nat} (hc : code < 256) {n : Bool} {e : Int} (h : f.decode code = .fin n 0 e) :
    code = 0 ∧ n = false := by
  obtain ⟨hn, hv⟩ := decode_fin hc h
  have hmag : f.mag code = 0 := by
    unfold fieldsValue at hv
    dsimp only at hv
    have hpow : 0 < 2 ^ (f.p - 1) := by positivity
    split at hv
    · obtain ⟨-, h0, -⟩ := Fl.fin.inj hv
      omega
    · rename_i hex
      obtain ⟨-, h0, -⟩ := Fl.fin.inj hv
      rw [← Nat.div_add_mod (f.mag code) (2 ^ (f.p - 1)), not_not.1 hex, h0, Nat.mul_zero]
  have hcode : code = 0 := by
    unfold mag at hmag
    unfold nanCode at hn
    cases hnat : f.nat
    · simp only [hnat, Bool.false_eq_true, if_false] at hmag hn
      omega
    · simpa only [hnat, if_true] using hmag
  refine ⟨hcode, ?_⟩
  rw [(fieldsValue_units hv).1, hcode]
  simp [negative]

/-- The greatest magnitude code of a variant without infinities. -/
theorem B8.mag_le_max {f : B8} {code : Nat} (hc : code < 256) (hn : code ≠ f.nanCode) :
    f.mag code ≤ f.mag (if f.nat then 0xFE else 0x7F) := by
  unfold mag
  unfold nanCode at hn
  cases hnat : f.nat
  · simp only [Bool.false_eq_true, if_false]
    omega
  · simp only [hnat, if_true] at hn ⊢
    omega

/-- With a sign, the code 0xFF has the opposite value of 0x7F. -/
theorem B8.fieldsValue_negative {f : B8} (hnat : f.nat = false) {n : Bool} {m : Nat} {e : Int}
    (h : f.fieldsValue 0x7F = .fin n m e) : f.fieldsValue 0xFF = .fin true m e := by
  have hmag : f.mag 0xFF = f.mag 0x7F := by simp [mag, hnat]
  have hneg : f.negative 0xFF = true := by simp [negative, hnat]
  unfold fieldsValue at h ⊢
  rw [hmag, hneg]
  dsimp only at h ⊢
  split at h <;> rename_i hex
  · obtain ⟨-, rfl, rfl⟩ := Fl.fin.inj h
    exact if_pos hex
  · obtain ⟨-, rfl, rfl⟩ := Fl.fin.inj h
    exact if_neg hex

/-- The largest finite values of a variant without infinities (R30). -/
theorem B8.largest {f : B8} (hi : f.inf = false) {code : Nat} (hc : code < 256) {n n' : Bool} {m m' : Nat}
    {e e' : Int} (h : f.decode code = .fin n m e) (h' : f.decode (if f.nat then 0xFE else 0x7F) = .fin n' m' e') :
    (m : Rat) * 2 ^ e ≤ (m' : Rat) * 2 ^ e' ∧ n' = false ∧ (f.nat = false → f.decode 0xFF = .fin true m' e') := by
  have hmax : (if f.nat then 0xFE else 0x7F) < 256 := by split <;> decide
  obtain ⟨hn, hv⟩ := decode_fin hc h
  obtain ⟨-, hv'⟩ := decode_fin hmax h'
  refine ⟨value_le (mag_le_max hc hn) hv hv', ?_, fun hnat => ?_⟩
  · rw [(fieldsValue_units hv').1]
    unfold negative
    cases f.nat <;> rfl
  · have hff : f.decode 0xFF = f.fieldsValue 0xFF := by
      rw [decode_of_noInf hi (by decide), if_neg]
      simp [nanCode, hnat]
    simp only [hnat, Bool.false_eq_true, if_false] at hv'
    rw [hff, fieldsValue_negative hnat hv']

/-- Settles O60: the special codes and the fields of every other code, and the order of the finite values. -/
theorem byteFormats : Obligations.ByteFormats := by
  unfold Obligations.ByteFormats
  intro p nat inf code _ _ hc
  refine ⟨?_, fun n e h => B8.zero_code hc h, fun n m e n' m' e' h hi h' => B8.largest hi hc h h'⟩
  have key := B8.decode_eq ⟨p, nat, inf⟩ hc
  unfold B8.nanCode B8.infCode B8.fieldsValue B8.mag B8.negative B8.bias at key
  dsimp only at key ⊢
  rw [key]
  simp only [if_false, Bool.false_eq_true]
  split_ifs <;> rfl

end Sys2Proof.Machine
end

section
/-!
O20: the reads of the special registers.
-/

namespace Sys2Proof.Machine

variable {s : State} {g : Guard} {d : Reg} {n : BitVec 12}

/-! ## What `mfs` comes to -/

theorem execMfs_tenant (h : Issues s g [.g d]) (hn : 0x100 ≤ n.toNat ∧ n.toNat ≤ 0x1FF)
    (hp : s.here.supervisor = false) : Completes (.mfs g d n) s (Traps 2 (n.setWidth 64) s) :=
  ⟨_, by rw [exec_mfs, execMfs, control_of_issues h, if_pos ⟨hn.1, hn.2, by rw [hp]; rfl⟩], s.trap_traps 2 _⟩

/-- The running code may name the register: the supervisor's are the supervisor's alone. -/
def MayName (s : State) (n : BitVec 12) : Prop := 0x100 ≤ n.toNat ∧ n.toNat ≤ 0x1FF → s.here.supervisor = true

theorem MayName.not_refused (hp : MayName s n) :
    ¬ (0x100 ≤ n.toNat ∧ n.toNat ≤ 0x1FF ∧ (!s.here.supervisor) = true) := by
  rintro ⟨h1, h2, h3⟩
  rw [hp ⟨h1, h2⟩] at h3
  exact absurd h3 (by decide)

theorem mfs_reads (h : Issues s g [.g d]) (hp : MayName s n) {v : Word} (hv : s.special n.toNat = some v) :
    Completes (.mfs g d n) s (WritesReg d v s) :=
  ⟨_, by rw [exec_mfs, execMfs, control_of_issues h, if_neg hp.not_refused, hv], State.result_writes h.1 d v⟩

theorem mfs_illegal (h : Issues s g [.g d]) (hp : MayName s n) (hv : s.special n.toNat = none) :
    Completes (.mfs g d n) s (Traps 1 s.thisWord s) :=
  ⟨_, by rw [exec_mfs, execMfs, control_of_issues h, if_neg hp.not_refused, hv], s.trap_traps 1 _⟩

/-- A register below the supervisor's. -/
theorem mfs_reads_tenant (h : Issues s g [.g d]) {num : Nat} (hn : n.toNat = num) (hlt : num < 0x100) {v : Word}
    (hv : s.special num = some v) : Completes (.mfs g d n) s (WritesReg d v s) :=
  mfs_reads h (fun hr => by omega) (hn ▸ hv)

/-! ## The values -/

/-- `task` (R55): the core's source number above the task word. -/
theorem taskReg_eq (c : Nat) (w : Word) :
    taskReg c w = BitVec.ofNat 64 (2 ^ 32 * (srcOf c 0 % 2 ^ 16) + w.toNat % 2 ^ 32) := by
  refine BitVec.eq_of_toNat_eq ?_
  have h : w.toNat % 2 ^ 32 < 2 ^ 32 := Nat.mod_lt _ (by decide)
  simp only [taskReg, BitVec.toNat_setWidth, BitVec.toNat_append, BitVec.toNat_ofNat, BitVec.extractLsb'_toNat,
    Nat.shiftRight_zero, Nat.shiftLeft_eq]
  rw [Nat.mul_comm, Nat.two_pow_add_eq_or_of_lt h]

/-- The fields of `mstat` (R111). -/
theorem Mx.stat_fields (m : Mx) :
    m.stat.extractLsb' 0 4 = m.fcode ∧ m.stat.getLsbD 4 = m.sat ∧ m.stat.getLsbD 5 = m.dirty
      ∧ m.stat.getLsbD 6 = false ∧ m.stat.getLsbD 7 = m.busy ∧ m.stat.extractLsb' 8 8 = m.win
      ∧ m.stat.getLsbD 16 = m.tp ∧ m.stat.getLsbD 17 = m.infeas ∧ m.stat.getLsbD 18 = m.conv
      ∧ m.stat.extractLsb' 19 13 = m.sweeps ∧ m.stat.extractLsb' 32 32 = m.err := by
  unfold Mx.stat
  rw [BitVec.setWidth_eq]
  and_intros
  all_goals simp (disch := omega) only [BitVec.getLsbD_append, BitVec.getLsbD_ofBool,
    BitVec.extractLsb'_append_eq_of_le, BitVec.extractLsb'_append_eq_of_add_le, BitVec.extractLsb'_eq_self,
    Nat.reduceSub, Nat.reduceLT, if_false, if_true, decide_true, Bool.true_and]
  · rfl

/-- A bit of a view's entry: the state's bit where the index names the entry. -/
theorem shifted_state_bit (st : BitVec 2) (i e : Nat) {b : Nat} (he : e < 32) (hb : b < 2) :
    ((st.setWidth 64 : Word) <<< (2 * i)).getLsbD (2 * e + b) = (decide (i = e) && st.getLsbD b) := by
  rw [BitVec.getLsbD_shiftLeft, BitVec.getLsbD_setWidth]
  by_cases hi : i = e
  · subst hi
    simp [show 2 * i + b < 64 by omega, show b < 64 by omega]
  · rw [decide_eq_false hi, Bool.false_and]
    by_cases hlt : 2 * e + b < 2 * i
    · simp [hlt]
    · rw [BitVec.getLsbD_of_ge st _ (by omega)]
      simp

/-- One entry's part in a core's view of its subscriptions (R137). -/
def substStep (c : Nat) (w : Word) (u : Sub) : Word :=
  let v : Word := u.state.setWidth 64
  let w := if u.sub = c then w ||| (v <<< (2 * u.subIdx)) else w
  if u.pub = c ∧ !u.closed then w ||| (v <<< (2 * u.pubIdx)) else w

theorem State.subst_eq (s : State) (c : Nat) : s.subst c = s.subs.foldl (substStep c) 0 := rfl

/-- An entry shows in a core's view as its subscriber's or its publisher's. -/
def ShowsIn (c e : Nat) (u : Sub) : Prop :=
  (u.sub = c ∧ u.subIdx = e) ∨ (u.pub = c ∧ u.closed = false ∧ u.pubIdx = e)

theorem substStep_bit (c : Nat) (w : Word) (u : Sub) {e b : Nat} (he : e < 32) (hb : b < 2) :
    (substStep c w u).getLsbD (2 * e + b) = true ↔
      w.getLsbD (2 * e + b) = true ∨ (u.state.getLsbD b = true ∧ ShowsIn c e u) := by
  unfold substStep ShowsIn
  dsimp only
  by_cases h1 : u.sub = c <;> by_cases h2 : u.pub = c <;> cases h3 : u.closed <;>
    simp [h1, h2, shifted_state_bit _ _ e he hb] <;> tauto

/-- A bit of `subst` is set where some entry in that state shows (R137). -/
theorem State.subst_bit (s : State) (c : Nat) {e b : Nat} (he : e < 32) (hb : b < 2) :
    (s.subst c).getLsbD (2 * e + b) = true ↔ ∃ u ∈ s.subs, u.state.getLsbD b = true ∧ ShowsIn c e u := by
  have fold : ∀ (l : List Sub) (w : Word), (l.foldl (substStep c) w).getLsbD (2 * e + b) = true ↔
      w.getLsbD (2 * e + b) = true ∨ ∃ u ∈ l, u.state.getLsbD b = true ∧ ShowsIn c e u := by
    intro l
    induction l with
    | nil => simp
    | cons u r ih =>
      intro w
      rw [List.foldl_cons, ih, substStep_bit c w u he hb, List.exists_mem_cons_iff, or_assoc]
  rw [State.subst_eq, fold]
  simp

/-! ## The supervisor's registers -/

/-- The supervisor's registers (R54, R111): those of the debug unit, the mode register, and zeros at the rest. -/
theorem special_supervisor (s : State) {num : Nat} (h : 0x100 ≤ num ∧ num ≤ 0x1FF) :
    s.special num = some (
      if num = 0x110 then (s.part s.here.part).mode
      else if num = 0x111 then s.here.dbgEntry
      else if 0x180 ≤ num ∧ num ≤ 0x19F then Tbl.get 0 s.here.dbgG (num - 0x180)
      else if num = 0x1A0 then s.here.dbgQ else 0) := by
  unfold State.special
  dsimp only
  iterate 17 rw [if_neg (by omega)]
  simp only [h, and_self, if_true, apply_ite some]

/-- The numbers of R54 that every task reads. -/
abbrev taskRegisters : List Nat := [0x000, 0x001, 0x002, 0x003, 0x004, 0x005, 0x006, 0x007, 0x010, 0x011, 0x012, 0x013,
  0x020, 0x021, 0x022, 0x030, 0x040, 0x050]

/-- No other number below or above the supervisor's names a register. -/
theorem special_unlisted (s : State) {num : Nat} (hl : num ∉ taskRegisters) (hr : ¬ (0x100 ≤ num ∧ num ≤ 0x1FF)) :
    s.special num = none := by
  simp only [List.mem_cons, List.not_mem_nil, or_false, not_or] at hl
  unfold State.special
  dsimp only
  simp only [hl, hr, or_self, if_false]
  rw [if_neg (by omega), if_neg (by omega), if_neg (by omega), if_neg (by omega)]

/-- Settles O20: each register's value, and the traps of those that may not be read. -/
theorem specialRegisterReads : Obligations.SpecialRegisterReads := by
  unfold Obligations.SpecialRegisterReads
  intro s g d n h
  refine ⟨fun x hx hn => ?_, fun hn => ?_, fun hn => ?_, fun hn => ?_, fun h1 h2 => ⟨fun hp => ?_, fun hp => ?_⟩,
    fun hn hr => ?_⟩
  · simp only [List.mem_cons, List.not_mem_nil, or_false] at hx
    obtain rfl | rfl | rfl | rfl | rfl | rfl | rfl | rfl | rfl | rfl | rfl | rfl | rfl | rfl | rfl := hx
    all_goals exact mfs_reads_tenant h hn (by norm_num) rfl
  · exact mfs_reads_tenant h hn (by decide) (congrArg some (taskReg_eq _ _))
  · exact ⟨_, mfs_reads_tenant h hn (by decide) rfl, s.here.mx.stat_fields⟩
  · exact ⟨_, mfs_reads_tenant h hn (by decide) rfl, fun e he b hb => s.subst_bit s.seat.core he hb⟩
  · exact execMfs_tenant h ⟨h1, h2⟩ hp
  · have hs := special_supervisor s ⟨h1, h2⟩
    have reads := mfs_reads h (fun _ => hp) hs
    refine ⟨fun hn => ?_, fun hn => ?_, fun h3 h4 => ?_, fun hn => ?_, fun h3 h4 h5 => ?_⟩
    · rwa [if_pos hn] at reads
    · rwa [if_neg (by omega), if_pos hn] at reads
    · rwa [if_neg (by omega), if_neg (by omega), if_pos ⟨h3, h4⟩] at reads
    · rwa [if_neg (by omega), if_neg (by omega), if_neg (by omega), if_pos hn] at reads
    · rwa [if_neg h3, if_neg h4, if_neg (by omega), if_neg (by omega)] at reads
  · exact mfs_illegal h (fun h' => absurd h' hr) (special_unlisted s hn hr)

end Sys2Proof.Machine
end

section
/-!
O29: the updates of `mscale` and the rows that `mrd` gives (R42, R105, R107, R390, R391).
-/

namespace Sys2Proof.Machine

/-! ## `mscale` (R42, R105, R391) -/

/-- Flags gathered over a list are those that some element raises. -/
theorem foldl_or_getLsbD {α : Type} (f : α → Flags) (l : List α) (z : Flags) (b : Nat) :
    (l.foldl (fun fl x => fl ||| f x) z).getLsbD b = true ↔ z.getLsbD b = true ∨ ∃ x ∈ l, (f x).getLsbD b = true := by
  induction l generalizing z with
  | nil => simp
  | cons x r ih => rw [List.foldl_cons, ih, BitVec.getLsbD_or, Bool.or_eq_true, List.exists_mem_cons_iff, or_assoc]

/-- Numbers of the 4,096 cells by row and column. -/
theorem exists_cell_iff (P : Nat → Nat → Prop) :
    (∃ x ∈ List.range 4096, P (x / 64) (x % 64)) ↔ ∃ i < 64, ∃ j < 64, P i j := by
  constructor
  · rintro ⟨x, hx, h⟩
    have := List.mem_range.1 hx
    exact ⟨x / 64, by omega, x % 64, by omega, h⟩
  · rintro ⟨i, hi, j, hj, h⟩
    refine ⟨64 * i + j, List.mem_range.2 (by omega), ?_⟩
    rwa [show (64 * i + j) / 64 = i by omega, show (64 * i + j) % 64 = j by omega]

theorem Mx.outerAt_cells {m : Mx} {v : Nat → Nat → Nat} (hf : m.free = none)
    (ho : m.outer = cells 0 (fun i j => BitVec.ofNat 32 (v i j))) {i j : Nat} (hi : i < 64) (hj : j < 64) :
    m.outerAt i j = v i j % 2 ^ 32 := by
  unfold Mx.outerAt
  rw [hf, ho]
  exact (congrArg BitVec.toNat (cells_get 0 _ i j hi hj)).trans (BitVec.toNat_ofNat _ _)

theorem Mx.poutAt_rowTable {m : Mx} {v : Nat → Bool} (hf : m.free = none) (hp : m.pout = rowTable v) {i : Nat}
    (hi : i < 64) : m.poutAt i = v i := by
  unfold Mx.poutAt
  rw [hf, hp]
  exact rowTable_get v i hi

/-- A cell of the tile by R42. -/
def Mx.cellScaled (m : Mx) (sa sb : Nat → Nat) (i j : Nat) : Nat × Flags :=
  scaleCell m.win.toInt (m.innerAt i j) (m.tagAt i j) (m.outerAt i j) (sa i) (sb j)

theorem Mx.scale_eq (m : Mx) (sa sb : Nat → Nat) (q : Bool) : m.scale sa sb q =
    ({ m with
        outer := cells 0 (fun i j => BitVec.ofNat 32 (m.cellScaled sa sb i j).1)
        pout := rowTable (fun i => m.poutAt i || m.pinAt i || q)
        free := none, inner := [], tag := [], pin := [], dirty := false, prod := false },
      (List.range 4096).foldl (fun f x => f ||| (m.cellScaled sa sb (x / 64) (x % 64)).2) 0) := by
  unfold scale cellScaled
  rfl

/-- The whole tile by R42. -/
theorem Mx.scale_scaled (s : State) (sa sb : Nat → Nat) (q : Bool) :
    Scaled sa sb q s (s.here.mx.scale sa sb q).2 (s.here.mx.scale sa sb q).1 := by
  rw [Mx.scale_eq]
  unfold Scaled
  dsimp only
  refine ⟨rfl, fun i hi j hj => ?_, fun i hi => ?_, fun b _ => ?_⟩
  · refine Mx.outerAt_cells (v := fun i j => (s.here.mx.cellScaled sa sb i j).1) ?_ ?_ hi hj <;> dsimp only
  · refine Mx.poutAt_rowTable (v := fun i => s.here.mx.poutAt i || s.here.mx.pinAt i || q) ?_ ?_ hi <;> dsimp only
  · rw [foldl_or_getLsbD, exists_cell_iff (fun i j => (s.here.mx.cellScaled sa sb i j).2.getLsbD b = true)]
    simp [Mx.cellScaled]

section
variable {s : State} {sa sb : BitVec 12} (h : MatrixIssues s true)
include h

theorem mscale_tile (ht : s.here.mx.tp = true) :
    Completes (.mscale sa sb) s (MatrixFaults s 3) ∧ Completes .mscaleUnit s (MatrixFaults s 3) :=
  ⟨matrix_faults h (exec_mscale s) (if_pos ht), matrix_faults h (exec_mscaleUnit s) (if_pos ht)⟩

theorem mscale_waits (ht : s.here.mx.tp = false)
    (he : s.isEmpty (lineKey s.seat.core sa.toNat) = true ∨ s.isEmpty (lineKey s.seat.core sb.toNat) = true) :
    Completes (.mscale sa sb) s (MatrixWaits true s) := by
  refine matrix_waits h (exec_mscale s) ?_
  dsimp only
  rw [if_neg (by simp [ht]), if_pos (by simpa using he)]

/-- A word that leaves the tile scaled. -/
theorem scale_issued {i : Instr} {f : State → Mres} {ca cb : Nat → Nat} {q : Bool}
    (e : exec i s = matrixWord true s f)
    (hf : f s = .ok (s.modMx s.seat.core (fun _ => (s.here.mx.scale ca cb q).1)) wDrain (s.here.mx.scale ca cb q).2) :
    Completes i s (fun t => ∃ fl m, MatrixIssued s wDrain fl m t ∧ Scaled ca cb q s fl m) := by
  obtain ⟨t, ht, hi⟩ := matrix_issued h e hf rfl rfl rfl rfl
  exact ⟨t, ht, _, _, hi, Mx.scale_scaled s ca cb q⟩

theorem mscale_scales (ht : s.here.mx.tp = false) (ha : s.isEmpty (lineKey s.seat.core sa.toNat) = false)
    (hb : s.isEmpty (lineKey s.seat.core sb.toNat) = false) : Completes (.mscale sa sb) s (fun t =>
      ∃ fl m, MatrixIssued s wDrain fl m t ∧ Scaled
        (fun i => (s.mem.read (spKey s.seat.core (sa.toNat * 128 + i))).toNat)
        (fun j => (s.mem.read (spKey s.seat.core (sb.toNat * 128 + j))).toNat)
        (s.isBad (lineKey s.seat.core sa.toNat) || s.isBad (lineKey s.seat.core sb.toNat)) s fl m) := by
  refine scale_issued h (exec_mscale s) ?_
  dsimp only
  rw [if_neg (by simp [ht]), if_neg (by simp [ha, hb])]

theorem mscaleUnit_scales (ht : s.here.mx.tp = false) : Completes .mscaleUnit s (fun t =>
    ∃ fl m, MatrixIssued s wDrain fl m t ∧ Scaled (fun _ => 127) (fun _ => 127) false s fl m) := by
  refine scale_issued h (exec_mscaleUnit s) ?_
  dsimp only
  rw [if_neg (by simp [ht])]

end

/-! ## `mrd` (R107, R389, R390) -/

section
variable {s : State} {acc drain : Bool} {sk : BitVec 4} {row0 rows : BitVec 6} (h : MatrixIssues s drain)
include h

theorem mrd_refused (hr : (acc = true ∧ s.here.mx.tp = true) ∨ s.here.sinkRouted sk.toNat = true) :
    Completes (.mrd acc drain sk row0 rows) s (MatrixFaults s 3) :=
  matrix_faults h (exec_mrd s) (if_pos (by simpa using hr))

theorem mrd_waits (hr : ¬ ((acc = true ∧ s.here.mx.tp = true) ∨ s.here.sinkRouted sk.toNat = true))
    (ho : s.here.mx.obuf ≠ []) : Completes (.mrd acc drain sk row0 rows) s (MatrixWaits drain s) := by
  refine matrix_waits h (exec_mrd s) ?_
  dsimp only
  rw [if_neg (by simpa using hr), if_pos (by simpa using ho)]

theorem mrd_issued (hr : ¬ ((acc = true ∧ s.here.mx.tp = true) ∨ s.here.sinkRouted sk.toNat = true))
    (ho : s.here.mx.obuf = []) : Completes (.mrd acc drain sk row0 rows) s
      (MatrixIssued s (if drain then wReadDrain else wRead) 0 { s.here.mx with
        copy := some ⟨acc, row0.toNat, rows.toNat + 1⟩, oport := sk.toNat, oword := s.fresh }) := by
  refine matrix_issued h (exec_mrd s) ?_ rfl rfl rfl rfl
  dsimp only
  rw [if_neg (by simpa using hr), if_neg (by simp [ho])]
  rfl

end

/-! ## The rows (R107, R390) -/

/-- The upper word of an inner accumulator: tag, sign extension, and the value's upper four bits. -/
def innerHigh (t : BitVec 2) (v : BitVec 36) : W32 :=
  t ++ (if v.getLsbD 35 then BitVec.allOnes 26 else (0 : BitVec 26)) ++ v.extractLsb' 32 4

theorem innerHigh_tag (t : BitVec 2) (v : BitVec 36) : (innerHigh t v).extractLsb' 30 2 = t := by
  unfold innerHigh
  simp (disch := omega) only [BitVec.extractLsb'_append_eq_of_le, Nat.reduceSub, BitVec.extractLsb'_eq_self]

theorem innerHigh_sign (t : BitVec 2) (v : BitVec 36) {b : Nat} (hb : b < 26) :
    (innerHigh t v).getLsbD (4 + b) = v.getLsbD 35 := by
  unfold innerHigh
  rw [BitVec.getLsbD_append, if_neg (by omega), BitVec.getLsbD_append, if_pos (by omega)]
  cases v.getLsbD 35
  · simp
  · rw [if_pos rfl, BitVec.getLsbD_allOnes, Nat.add_sub_cancel_left, decide_eq_true hb]

theorem innerHigh_value (t : BitVec 2) (v : BitVec 36) {b : Nat} (hb : b < 4) :
    (innerHigh t v).getLsbD b = v.getLsbD (32 + b) := by
  unfold innerHigh
  rw [BitVec.getLsbD_append, if_pos hb, BitVec.getLsbD_extractLsb', decide_eq_true hb, Bool.true_and]

/-- The code of a tag in the upper word (R390). -/
def Tag.code : Tag → BitVec 2
  | .finite => 0
  | .pinf => 1
  | .ninf => 2
  | .nan => 3

/-- The two tokens of an inner accumulator (R390). -/
def Mx.innerTokens (m : Mx) (i j : Nat) : List Token :=
  [⟨m.pinAt i, 0, (BitVec.ofInt 36 (m.innerAt i j)).extractLsb' 0 32⟩,
    ⟨m.pinAt i, 0, innerHigh (m.tagAt i j).code (BitVec.ofInt 36 (m.innerAt i j))⟩]

theorem Mx.rowTokens_outer (m : Mx) (i : Nat) : m.rowTokens true i =
    (List.range 64).map (fun j => ⟨m.poutAt i, 0, BitVec.ofNat 32 (m.outerAt i j)⟩) := rfl

theorem Mx.rowTokens_inner (m : Mx) (i : Nat) : m.rowTokens false i = (List.range 64).flatMap (m.innerTokens i) := by
  unfold rowTokens
  rw [if_neg (by decide)]
  refine congrArg (fun f => (List.range 64).flatMap f) (funext fun j => ?_)
  unfold innerTokens innerHigh Tag.code
  cases m.tagAt i j <;> rfl

theorem Mx.rowTokens_rows (m : Mx) (acc : Bool) (i : Nat) : RowTokens m acc i (m.rowTokens acc i) := by
  refine ⟨?_, ?_⟩ <;> rintro rfl
  · rw [rowTokens_outer]
    exact ⟨by simp, fun j hj => by simp [hj]⟩
  · rw [rowTokens_inner]
    have two : ∀ j ∈ List.range 64, (m.innerTokens i j).length = 2 := fun _ _ => rfl
    refine ⟨by rw [flatMap_len _ 2 _ two, List.length_range], fun j hj =>
      ⟨innerHigh (m.tagAt i j).code (BitVec.ofInt 36 (m.innerAt i j)), ?_, ?_, ?_, fun b hb => innerHigh_sign _ _ hb,
        fun b hb => innerHigh_value _ _ hb⟩⟩
    · have := flatMap_get (m.innerTokens i) 2 _ two j 0 (by simpa using hj) (by decide)
      rw [Nat.add_zero] at this
      rw [this, List.getElem_range]
      rfl
    · rw [flatMap_get (m.innerTokens i) 2 _ two j 1 (by simpa using hj) (by decide), List.getElem_range]
      rfl
    · rw [innerHigh_tag]
      cases m.tagAt i j <;> rfl

/-- `MRD_OUTPUT_DRAIN` with rows left to copy: the buffer takes the next one, unless the core stands still (R390). -/
theorem mrdOutputDrain_copies {s : State} {c : Nat} {y : RowCopy} (hy : (s.core c).mx.copy = some y) :
    exec (.mrdOutputDrain c) s =
      if (s.core c).frozen then .next s else .next (s.modMx c (fun m => m.copyRow y)) := by
  rw [exec_mrdOutputDrain, execMrdOutputDrain]
  dsimp only
  rw [hy]

/-- Settles O29: `mscale` by what the tile becomes, `mrd` by its issue and by each row's copy. -/
theorem matrixScaleAndRead : Obligations.MatrixScaleAndRead := by
  unfold Obligations.MatrixScaleAndRead
  refine ⟨fun s sa sb h => ⟨mscale_tile h, mscale_waits h, mscale_scales h, mscaleUnit_scales h⟩,
    fun s acc drain sk row0 rows h => ⟨mrd_refused h, mrd_waits h, mrd_issued h⟩, fun s c y hy => ⟨fun hf => ?_,
      fun hf => ⟨_, Mx.rowTokens_rows _ _ _, ?_⟩⟩⟩
  · rw [mrdOutputDrain_copies hy, if_pos hf]
  · rw [mrdOutputDrain_copies hy, if_neg (by simp [hf]), State.modMx_eq]
    rfl

end Sys2Proof.Machine
end

section
/-!
SUPPORT. The firings of a lane (R82), the elements of a word (R33), and the operations that give one token (R79, R83).
-/

namespace Sys2Proof.Machine

/-! ## Firings that emit, and firings that emit nothing (R82) -/

/-- A token of a kind on the lane's own output alone. -/
def OwnToken (k : BitVec 3) (x : Emit) : Prop := x.arm0 = true ∧ x.arm1 = false ∧ x.tok.kind = k

theorem ownToken_own (t : Token) : OwnToken t.kind (own t) := ⟨rfl, rfl, rfl⟩

section
variable {s : State} {w : LaneArgs} {i : Instr} {f : Core → Nat → Lane → Shot} {takes : List Nat} {l : Lane}

theorem shoot_fires_list {outs : List Emit} {k : BitVec 3} (e : exec i s = shoot w f s)
    (h : f s.here s.seat.lane (s.here.lane s.seat.lane) = .go takes outs l) (hr : LaneReady s true false k)
    (hne : outs ≠ []) (hx : ∀ x ∈ outs.head?, OwnToken k x) (hd : l.due = (s.here.lane s.seat.lane).due) :
    Completes i s (LaneFired w takes outs l s) :=
  shoot_go e h (fun _ => hr.1) (fun x hm => have ⟨h0, h1, hk⟩ := hx x hm; hr.ready x h0 h1 hk) hd
    (fun h => absurd h hne)

theorem shoot_fires {x : Emit} {r : List Emit} {k : BitVec 3} (e : exec i s = shoot w f s)
    (h : f s.here s.seat.lane (s.here.lane s.seat.lane) = .go takes (x :: r) l) (hr : LaneReady s true false k)
    (hx : OwnToken k x) (hd : l.due = (s.here.lane s.seat.lane).due) :
    Completes i s (LaneFired w takes (x :: r) l s) :=
  shoot_fires_list e h hr (List.cons_ne_nil _ _) (fun y hy => by cases hy; exact hx) hd

/-- A firing that emits nothing needs no room (notes/assumptions/78.md). -/
theorem shoot_absorbs (e : exec i s = shoot w f s)
    (h : f s.here s.seat.lane (s.here.lane s.seat.lane) = .go takes [] l)
    (hc : (s.here.lane s.seat.lane).due ≤ s.cycle) (hd : l.due = (s.here.lane s.seat.lane).due) (ho : l.out = []) :
    Completes i s (LaneFired w takes [] l s) :=
  shoot_go e h (fun _ => hc) (fun x hx => by cases hx) hd (fun _ => ho)

theorem shoot_stops (e : exec i s = shoot w f s) (h : f s.here s.seat.lane (s.here.lane s.seat.lane) = .mismatch) :
    Completes i s (LaneStops s) := by
  unfold shoot at e
  dsimp only at e
  rw [h] at e
  exact ⟨_, e, laneStop_facts s _ _ rfl⟩

end

/-! ## Elements of a word (R33) -/

/-- An element width divides a word. -/
theorem fmtWidth_mul (f : BitVec 3) : fmtWidth f * (32 / fmtWidth f) = 32 := by
  unfold fmtWidth
  split_ifs <;> rfl

theorem joinElems_cons (wd : Nat) (x : Nat × Flags) (r : List (Nat × Flags)) : joinElems wd (x :: r) =
    (x.1 % 2 ^ wd + 2 ^ wd * (joinElems wd r).1, x.2 ||| (joinElems wd r).2) := rfl

theorem joinElems_lt (wd : Nat) (l : List (Nat × Flags)) : (joinElems wd l).1 < 2 ^ (wd * l.length) := by
  induction l with
  | nil => simp [joinElems]
  | cons x r ih =>
    have hx : x.1 % 2 ^ wd < 2 ^ wd := Nat.mod_lt _ (by positivity)
    rw [joinElems_cons, List.length_cons, Nat.mul_succ, Nat.pow_add, Nat.mul_comm (2 ^ (wd * r.length))]
    calc x.1 % 2 ^ wd + 2 ^ wd * (joinElems wd r).1 < 2 ^ wd * ((joinElems wd r).1 + 1) := by
          rw [Nat.mul_succ]
          omega
      _ ≤ 2 ^ wd * 2 ^ (wd * r.length) := Nat.mul_le_mul_left _ ih

/-- Element i of joined elements is the i-th, modulo the width. -/
theorem elemAt_joinElems (wd : Nat) (l : List (Nat × Flags)) {i : Nat} (hi : i < l.length) :
    elemAt wd (joinElems wd l).1 i = l[i].1 % 2 ^ wd := by
  unfold elemAt
  induction l generalizing i with
  | nil => cases hi
  | cons x r ih =>
    rw [joinElems_cons]
    cases i with
    | zero => simp
    | succ i =>
      have hx : x.1 % 2 ^ wd < 2 ^ wd := Nat.mod_lt _ (by positivity)
      rw [Nat.mul_succ, Nat.add_comm (wd * i), Nat.pow_add, ← Nat.div_div_eq_div_mul,
        Nat.add_mul_div_left _ _ (by positivity), Nat.div_eq_of_lt hx, Nat.zero_add]
      exact ih (by simpa using hi)

/-- The flags of joined elements are those that some element raises. -/
theorem joinElems_flags (wd : Nat) (l : List (Nat × Flags)) (b : Nat) :
    (joinElems wd l).2.getLsbD b = true ↔ ∃ x ∈ l, x.2.getLsbD b = true := by
  induction l with
  | nil => simp [joinElems]
  | cons x r ih => rw [joinElems_cons, BitVec.getLsbD_or, Bool.or_eq_true, ih, List.exists_mem_cons_iff]

/-- A token of joined elements holds them, with their flags. -/
theorem joinElems_are (f : BitVec 3) (g : Nat → Nat × Flags) :
    let r := joinElems (fmtWidth f) ((List.range (32 / fmtWidth f)).map g)
    ElementsAre (fmtWidth f) g (dataTok r.1) r.2 := by
  intro r
  have hlt : r.1 < 2 ^ 32 := by
    have := joinElems_lt (fmtWidth f) ((List.range (32 / fmtWidth f)).map g)
    rwa [List.length_map, List.length_range, fmtWidth_mul] at this
  refine ⟨rfl, rfl, fun i hi => ?_, fun b _ => ?_⟩
  · have hv : (dataTok r.1).value.toNat = r.1 := Nat.mod_eq_of_lt hlt
    rw [hv, elemAt_joinElems _ _ (by simpa using hi), List.getElem_map, List.getElem_range]
  · rw [joinElems_flags]
    simp

/-- An operation that does not read its third operand maps the same elements for any. -/
theorem mapElems_third {wd : Nat} {op : Nat → Nat → Nat → Nat × Flags} (h : ∀ x y z z', op x y z = op x y z')
    (a b c c' : Nat) : mapElems wd op a b c = mapElems wd op a b c' := by
  unfold mapElems
  refine congrArg (joinElems wd) (List.map_congr_left fun i _ => h _ _ _ _)

/-! ## Operations that give one token (R79, R83) -/

section
variable {s : State} {w : LaneArgs} {useC : Bool} {a b c : Token}

/-- Clean data at every head that an element operation reads: it gives the operation's elements. -/
theorem elementShot_data (h : LaneData s w useC a b c) {op : Nat → Nat → Nat → Nat × Flags}
    (hop : useC = false → ∀ x y z z', op x y z = op x y z') (l : Lane) :
    elementShot w true useC op s.here s.seat.lane l = .go (laneUses w true useC)
      [{ own (dataTok (mapElems (fmtWidth w.fmt) op a.value.toNat b.value.toNat c.value.toNat).1) with
        flags := (mapElems (fmtWidth w.fmt) op a.value.toNat b.value.toNat c.value.toNat).2 }] l := by
  obtain ⟨ha, hak, hap, hb, hc, -⟩ := h
  unfold elementShot laneUses
  cases hi : w.bimm <;> cases useC
  case false.false =>
    simp only [hi, Bool.false_eq_true, if_false] at hb
    obtain ⟨hb, hbk, hbp⟩ := hb
    simp [heads, together, ha, hak, hap, hb, hbk, hbp, mapElems_third (hop rfl) _ _ 0 c.value.toNat]
  case false.true =>
    simp only [hi, Bool.false_eq_true, if_false] at hb
    obtain ⟨hb, hbk, hbp⟩ := hb
    obtain ⟨hc, hck, hcp⟩ := hc rfl
    simp [heads, together, ha, hak, hap, hb, hbk, hbp, hc, hck, hcp]
  case true.false =>
    simp only [hi, if_true] at hb
    simp [heads, together, ha, hak, hap, hb, mapElems_third (hop rfl) _ _ 0 c.value.toNat]
  case true.true =>
    simp only [hi, if_true] at hb
    obtain ⟨hc, hck, hcp⟩ := hc rfl
    simp [heads, together, ha, hak, hap, hb, hc, hck, hcp]

/-- An element operation that is `f` on elements gives `f` of the operands' elements. -/
theorem element_gives {i : Instr} {op f : Nat → Nat → Nat → Nat × Flags} (h : LaneData s w useC a b c)
    (e : exec i s = elementOp w true useC op s) (hf : ∀ x y z, op x y z = f x y z)
    (hop : useC = false → ∀ x y z z', f x y z = f x y z') : Completes i s (LaneGives w useC a b c f s) := by
  obtain rfl : op = f := funext fun x => funext fun y => funext fun z => hf x y z
  have hr : LaneReady s true false 0 := h.2.2.2.2.2
  obtain ⟨t, ht, hl⟩ := shoot_fires e (elementShot_data h hop _) hr ⟨rfl, rfl, rfl⟩ rfl
  exact ⟨t, ht, _, _, joinElems_are w.fmt _, hl⟩

/-- An operation on A and B alone. -/
theorem element_gives_two {i : Instr} {op : Nat → Nat → Nat → Nat × Flags} {f : Nat → Nat → Nat × Flags}
    (h : LaneData s w false a b c) (e : exec i s = elementOp w true false op s) (hf : ∀ x y z, op x y z = f x y) :
    Completes i s (LaneGives w false a b c (fun x y _ => f x y) s) :=
  element_gives h e hf (fun _ _ _ _ _ => rfl)

/-- An operation on clean data in A as a whole word fires with its result. -/
theorem word_fires {i : Instr} {op : Nat → Nat × Flags} (e : exec i s = shoot w (wordShot w op) s)
    (ha : s.here.head s.seat.lane (laneA w) = some a) (hk : a.kind = 0) (hp : a.poison = false)
    (hr : LaneReady s true false 0) : Completes i s (LaneFired w [laneA w]
      [{ own (dataTok (op a.value.toNat).1) with flags := (op a.value.toNat).2 }] (s.here.lane s.seat.lane) s) := by
  refine shoot_fires e ?_ hr ⟨rfl, rfl, rfl⟩ rfl
  simp [wordShot, ha, hk, hp]

end

end Sys2Proof.Machine
end

section
/-!
O35: the results of the element operations and of the operations on a whole word.
-/

namespace Sys2Proof.Machine

theorem intLe_iff (f : BitVec 3) (x y : Nat) : intLe f x y = true ↔
    intVal (fmtSigned f) (fmtWidth f) x ≤ intVal (fmtSigned f) (fmtWidth f) y := decide_eq_true_iff

/-- `eicmp`'s third condition is written through its fourth (R80). -/
theorem intCond_lt (f : BitVec 3) (x y : Nat) : intCond f 2 x y =
    decide (intVal (fmtSigned f) (fmtWidth f) x < intVal (fmtSigned f) (fmtWidth f) y) :=
  decide_not.symm.trans (decide_eq_decide.2 not_le)

theorem bitVec2_cases (c : BitVec 2) : c = 0 ∨ c = 1 ∨ c = 2 ∨ c = 3 := by
  revert c
  decide

/-- Every element of a word converted (R341). -/
theorem convertWord_are (w : LaneArgs) (v : Nat) : ElementsAre (fmtWidth (w.imm.extractLsb' 7 3))
    (fun i => if i < 32 / fmtWidth w.fmt
      then convert w.fmt (w.imm.extractLsb' 7 3) w.imm (Mode.ofCode (w.imm.extractLsb' 5 2))
        (elemAt (fmtWidth w.fmt) v i)
      else (0, 0)) (dataTok (convertWord w v).1) (convertWord w v).2 := by
  unfold convertWord
  exact joinElems_are _ _

/-- Settles O35: each operation by its function on elements, or on the whole word. -/
theorem laneResults : Obligations.LaneResults := by
  unfold Obligations.LaneResults
  intro s w a b c wd
  refine ⟨fun h => ⟨?_, ?_, ?_, ?_, ?_, ?_, ?_, ?_, ?_, ?_, ?_, ?_⟩, fun h => ⟨?_, ?_, ?_⟩,
    fun h => ⟨?_, ?_, ?_, ?_, ?_, ?_⟩, fun ha hk hp hr => ⟨?_, ?_, ?_, ?_, ?_⟩⟩
  · exact element_gives_two h (exec_eiadd s) (fun _ _ _ => rfl)
  · exact element_gives_two h (exec_eisub s) (fun _ _ _ => rfl)
  · exact element_gives_two h (exec_eimul s) (fun _ _ _ => rfl)
  · exact element_gives_two h (exec_eimin s) (fun x y _ => by simp only [intLe_iff, wd])
  · exact element_gives_two h (exec_eimax s) (fun x y _ => by simp only [intLe_iff, wd])
  · exact element_gives_two h (exec_eiand s) (fun _ _ _ => rfl)
  · exact element_gives_two h (exec_eior s) (fun _ _ _ => rfl)
  · exact element_gives_two h (exec_eixor s) (fun _ _ _ => rfl)
  · exact element_gives_two h (exec_eishl s) (fun _ _ _ => rfl)
  · exact element_gives_two h (exec_eishr s) (fun _ _ _ => rfl)
  · exact element_gives_two h (exec_eisra s) (fun _ _ _ => rfl)
  · refine element_gives_two h (exec_eicmp s) (fun x y _ => ?_)
    dsimp only
    generalize w.imm.extractLsb' 0 2 = cc
    obtain rfl | rfl | rfl | rfl := bitVec2_cases cc
    · rfl
    · rfl
    · rw [intCond_lt]
      rfl
    · rfl
  · exact element_gives h (exec_eimac s) (fun _ _ _ => rfl) nofun
  · exact element_gives h (exec_esel s) (fun x y z => by simp only [bne_iff_ne, ne_eq]) nofun
  · exact element_gives h (exec_effma s) (fun _ _ _ => rfl) nofun
  · exact element_gives_two h (exec_efadd s) (fun _ _ _ => rfl)
  · exact element_gives_two h (exec_efsub s) (fun _ _ _ => rfl)
  · exact element_gives_two h (exec_efmul s) (fun _ _ _ => rfl)
  · exact element_gives_two h (exec_efmin s) (fun _ _ _ => rfl)
  · exact element_gives_two h (exec_efmax s) (fun _ _ _ => rfl)
  · exact element_gives_two h (exec_efcmp s) (fun _ _ _ => rfl)
  · obtain ⟨t, ht, hl⟩ := word_fires (op := convertWord w) (exec_ecvt s) ha hk hp hr
    exact ⟨t, ht, _, _, convertWord_are w _, hl⟩
  · exact word_fires (op := fun _ => (quietWord w.fmt (immWord w.fmt w.imm), 0)) (exec_econst s) ha hk hp hr
  · rintro r rfl
    exact word_fires (op := fun v => exp2F (fp32.decode v)) (exec_eexp2 s) ha hk hp hr
  · rintro r rfl
    exact word_fires (op := fun v => log2F (fp32.decode v)) (exec_elog2 s) ha hk hp hr
  · rintro r rfl
    exact word_fires (op := fun v => rcpF (fp32.decode v)) (exec_ercp s) ha hk hp hr

end Sys2Proof.Machine
end

section
/-!
O38: the lane operations that pass or repeat A, and those over segments and blocks.
-/

namespace Sys2Proof.Machine

/-! ## Operations that pass or repeat A (R342, R351, R355) -/

section
variable {s : State} {w : LaneArgs} {a b : Token} (ha : s.here.head s.seat.lane (laneA w) = some a)

section
variable {data : Bool} {least : BitVec 3} {l : Lane}
include ha

theorem passShot_data (hk : a.kind = 0) :
    passShot w data least s.here s.seat.lane l = .go [laneA w] (if data then [own a] else []) l := by
  simp [passShot, ha, hk]

theorem passShot_passes_mark (hk : a.kind ≠ 0) (hl : least < a.kind) :
    passShot w data least s.here s.seat.lane l = .go [laneA w] [own (markTok a.kind)] l := by
  simp only [passShot, ha, ne_eq, hk, not_false_eq_true, if_true, hl]

theorem passShot_drops_mark (hk : a.kind ≠ 0) (hl : a.kind ≤ least) :
    passShot w data least s.here s.seat.lane l = .go [laneA w] [] l := by
  simp only [passShot, ha, ne_eq, hk, not_false_eq_true, if_true, BitVec.not_lt.2 hl, if_false]

theorem markShot_mark (hk : a.kind ≠ 0) :
    markShot w s.here s.seat.lane l = .go [laneA w] [own (markTok a.kind)] { l with count := 0 } := by
  simp only [markShot, ha, ne_eq, hk, not_false_eq_true, if_true]

theorem markShot_closes (hk : a.kind = 0) (hc : (w.imm.extractLsb' 3 9).toNat ≤ l.count) :
    markShot w s.here s.seat.lane l =
      .go [laneA w] [own a, own (markTok (w.imm.extractLsb' 0 3))] { l with count := 0 } := by
  simp only [markShot, ha, hk, ne_eq, not_true, if_false, hc, if_true]

theorem markShot_counts (hk : a.kind = 0) (hc : l.count < (w.imm.extractLsb' 3 9).toNat) :
    markShot w s.here s.seat.lane l = .go [laneA w] [own a] { l with count := l.count + 1 } := by
  simp only [markShot, ha, hk, ne_eq, not_true, if_false, Nat.not_le.2 hc]

theorem repShot_mark (hi : w.bimm = true) (hb : l.buf = []) (hk : a.kind ≠ 0) :
    repShot w s.here s.seat.lane l = .go [laneA w] [own (markTok a.kind)] l := by
  simp only [repShot, hb, hi, ha, ne_eq, hk, not_false_eq_true, if_true]

theorem repShot_immediate (hi : w.bimm = true) (hb : l.buf = []) (hk : a.kind = 0) :
    repShot w s.here s.seat.lane l = repeatShot [laneA w] a (immWord w.fmt w.imm) l := by
  simp [repShot, hb, hi, ha, hk]

theorem repShot_poison (hi : w.bimm = false) (hB : s.here.head s.seat.lane (laneB w) = some b) (hb : l.buf = [])
    (hka : a.kind = 0) (hkb : b.kind = 0) (hp : b.poison = true) :
    repShot w s.here s.seat.lane l = .go [laneA w, laneB w] [own poisonTok] l := by
  simp [repShot, together, hb, hi, ha, hB, hka, hkb, hp]

theorem repShot_count (hi : w.bimm = false) (hB : s.here.head s.seat.lane (laneB w) = some b) (hb : l.buf = [])
    (hka : a.kind = 0) (hkb : b.kind = 0) (hp : b.poison = false) :
    repShot w s.here s.seat.lane l = repeatShot [laneA w, laneB w] a b.value.toNat l := by
  simp [repShot, together, hb, hi, ha, hB, hka, hkb, hp]

end

theorem repeatShot_none (qs : List Nat) (a : Token) (l : Lane) : repeatShot qs a 0 l = .go qs [] l := rfl

theorem repeatShot_one (qs : List Nat) (a : Token) (l : Lane) :
    repeatShot qs a 1 l = .go qs [own a] { l with count := 0, buf := [] } := rfl

theorem repeatShot_many (qs : List Nat) (a : Token) {m : Nat} (hm : 2 ≤ m) (l : Lane) :
    repeatShot qs a m l = .go qs [own a] { l with count := m - 1, buf := [a] } := by
  unfold repeatShot
  rw [if_neg (by omega), if_neg (by omega)]

theorem repShot_copy {l : Lane} {x : Token} (hb : l.buf = [x]) : repShot w s.here s.seat.lane l =
    .go [] [own x] { l with count := l.count - 1, buf := if l.count ≤ 1 then [] else [x] } := by
  simp only [repShot, hb]

include ha

/-- Data in A passes, and `emark` closes after its count (R342, R351). -/
theorem lane_passes_data (hk : a.kind = 0) (hr : LaneReady s true false 0) :
    let l := s.here.lane s.seat.lane
    Completes (.epass w) s (LaneFired w [laneA w] [own a] l s)
    ∧ Completes (.estrip w) s (LaneFired w [laneA w] [own a] l s)
    ∧ ((w.imm.extractLsb' 3 9).toNat ≤ l.count → Completes (.emark w) s
        (LaneFired w [laneA w] [own a, own (markTok (w.imm.extractLsb' 0 3))] { l with count := 0 } s))
    ∧ (l.count < (w.imm.extractLsb' 3 9).toNat → Completes (.emark w) s
        (LaneFired w [laneA w] [own a] { l with count := l.count + 1 } s)) := by
  have hx : OwnToken 0 (own a) := hk ▸ ownToken_own a
  exact ⟨shoot_fires (exec_epass s) (passShot_data ha hk) hr hx rfl,
    shoot_fires (exec_estrip s) (passShot_data ha hk) hr hx rfl,
    fun hc => shoot_fires (exec_emark s) (markShot_closes ha hk hc) hr hx rfl,
    fun hc => shoot_fires (exec_emark s) (markShot_counts ha hk hc) hr hx rfl⟩

/-- A marker in A passes; `estrip` passes those above its rank (R342, R351, R355). -/
theorem lane_passes_marks (hk : a.kind ≠ 0) (hr : LaneReady s true false a.kind) :
    let l := s.here.lane s.seat.lane
    Completes (.epass w) s (LaneFired w [laneA w] [own (markTok a.kind)] l s)
    ∧ Completes (.edrop w) s (LaneFired w [laneA w] [own (markTok a.kind)] l s)
    ∧ (w.imm.extractLsb' 0 3 < a.kind → Completes (.estrip w) s (LaneFired w [laneA w] [own (markTok a.kind)] l s))
    ∧ Completes (.emark w) s (LaneFired w [laneA w] [own (markTok a.kind)] { l with count := 0 } s)
    ∧ (w.bimm = true → l.buf = [] → Completes (.erep w) s (LaneFired w [laneA w] [own (markTok a.kind)] l s)) := by
  have hx : OwnToken a.kind (own (markTok a.kind)) := ownToken_own (markTok a.kind)
  have h0 : 0 < a.kind := by bv_omega
  exact ⟨shoot_fires (exec_epass s) (passShot_passes_mark ha hk h0) hr hx rfl,
    shoot_fires (exec_edrop s) (passShot_passes_mark ha hk h0) hr hx rfl,
    fun hl => shoot_fires (exec_estrip s) (passShot_passes_mark ha hk hl) hr hx rfl,
    shoot_fires (exec_emark s) (markShot_mark ha hk) hr hx rfl,
    fun hi hb => shoot_fires (exec_erep s) (repShot_mark ha hi hb hk) hr hx rfl⟩

/-- `erep` with its count in B (R355). -/
theorem erep_counted (hi : w.bimm = false) (hB : s.here.head s.seat.lane (laneB w) = some b) (hka : a.kind = 0)
    (hkb : b.kind = 0) (hb : (s.here.lane s.seat.lane).buf = []) :
    let l := s.here.lane s.seat.lane
    (b.poison = true → LaneReady s true false 0 →
      Completes (.erep w) s (LaneFired w [laneA w, laneB w] [own poisonTok] l s))
    ∧ (b.poison = false → b.value = 0 → l.due ≤ s.cycle → l.out = [] →
      Completes (.erep w) s (LaneFired w [laneA w, laneB w] [] l s))
    ∧ (b.poison = false → b.value = 1 → LaneReady s true false 0 →
      Completes (.erep w) s (LaneFired w [laneA w, laneB w] [own a] { l with count := 0, buf := [] } s))
    ∧ (b.poison = false → 2 ≤ b.value.toNat → LaneReady s true false 0 →
      Completes (.erep w) s
        (LaneFired w [laneA w, laneB w] [own a] { l with count := b.value.toNat - 1, buf := [a] } s)) := by
  have hx : OwnToken 0 (own a) := hka ▸ ownToken_own a
  refine ⟨fun hp hr => ?_, fun hp hv hc ho => ?_, fun hp hv hr => ?_, fun hp hv hr => ?_⟩
  · exact shoot_fires (exec_erep s) (repShot_poison ha hi hB hb hka hkb hp) hr (ownToken_own poisonTok) rfl
  all_goals have count := repShot_count ha hi hB hb hka hkb hp
  · rw [hv] at count
    exact shoot_absorbs (exec_erep s) count hc rfl ho
  · rw [hv] at count
    exact shoot_fires (exec_erep s) count hr hx rfl
  · rw [repeatShot_many _ _ hv] at count
    exact shoot_fires (exec_erep s) count hr hx rfl

end

/-! ## Segments (R337-R339) -/

section
variable {s : State} {w : LaneArgs} {a : Token} (ha : s.here.head s.seat.lane (laneA w) = some a) {l : Lane}

/-- The result of a segment comes first when it closes: data, or a poisoned token. -/
theorem ownToken_result (bad : Bool) (r : Nat) (fl : Flags) :
    OwnToken 0 (if bad then own poisonTok else { own (dataTok r) with flags := fl }) := by
  cases bad <;> exact ⟨rfl, rfl, rfl⟩

include ha

theorem countShot_data (hk : a.kind = 0) : countShot w s.here s.seat.lane l =
    .go [laneA w] [] { l with count := l.count + 1, bad := l.bad || a.poison } := by
  simp only [countShot, ha, hk, ne_eq, not_true, if_false]

theorem countShot_mark (hk : a.kind ≠ 0) :
    countShot w s.here s.seat.lane l = closeSegment w l a.kind l.count 0 := by
  simp only [countShot, ha, ne_eq, hk, not_false_eq_true, if_true]

theorem redShot_first (hk : a.kind = 0) (hc : l.count = 0) : redShot w s.here s.seat.lane l =
    .go [laneA w] [] { l with acc := a.value, count := 1, bad := l.bad || a.poison } := by
  simp only [redShot, ha, hk, ne_eq, not_true, if_false, hc, if_true]

theorem redShot_step (hk : a.kind = 0) (hc : l.count ≠ 0) : redShot w s.here s.seat.lane l =
    .go [laneA w] [] { l with
      acc := BitVec.ofNat 32 (redStep w.fmt (w.imm.extractLsb' 0 3) l.acc.toNat a.value.toNat).1
      count := l.count + 1, bad := l.bad || a.poison
      flags := l.flags ||| (redStep w.fmt (w.imm.extractLsb' 0 3) l.acc.toNat a.value.toNat).2 } := by
  simp only [redShot, ha, hk, ne_eq, not_true, if_false, hc]

theorem redShot_mark (hk : a.kind ≠ 0) : redShot w s.here s.seat.lane l =
    closeSegment w l a.kind (redResult w.fmt (w.imm.extractLsb' 0 3) l).1
      (redResult w.fmt (w.imm.extractLsb' 0 3) l).2 := by
  simp only [redShot, ha, ne_eq, hk, not_false_eq_true, if_true]

theorem lseShot_data (hk : a.kind = 0) (hl : l.buf.length < 256) :
    lseShot w s.here s.seat.lane l = .go [laneA w] [] { l with buf := l.buf ++ [a] } := by
  simp only [lseShot, ha, hk, ne_eq, not_true, if_false, Nat.not_le.2 hl]

theorem lseShot_full (hk : a.kind = 0) (hl : 256 ≤ l.buf.length) : lseShot w s.here s.seat.lane l = .mismatch := by
  simp only [lseShot, ha, hk, ne_eq, not_true, if_false, hl, if_true]

theorem lseShot_mark (hk : a.kind ≠ 0) : lseShot w s.here s.seat.lane l =
    closeSegment w { l with bad := l.buf.any (·.poison) } a.kind (lse2F (l.buf.map (fun t => t.value.toNat))).1
      (lse2F (l.buf.map (fun t => t.value.toNat))).2 := by
  simp only [lseShot, ha, ne_eq, hk, not_false_eq_true, if_true]

/-! ## Blocks (R87, R333-R335) -/

theorem quantShot_data (hk : a.kind = 0) (hl : l.buf.length < 31) :
    quantShot w s.here s.seat.lane l = .go [laneA w] [] { l with buf := l.buf ++ [a] } := by
  simp only [quantShot, ha, hk, ne_eq, not_true, if_false, Nat.not_le.2 hl]

theorem quantShot_full (hk : a.kind = 0) (hl : 31 ≤ l.buf.length) : quantShot w s.here s.seat.lane l =
    .go [laneA w] (blockOut (quantBlock w (l.buf ++ [a])).1 (quantBlock w (l.buf ++ [a])).2 0) l.fresh := by
  simp only [quantShot, ha, hk, ne_eq, not_true, if_false, hl, if_true]

theorem quantShot_mark (hk : a.kind ≠ 0) : quantShot w s.here s.seat.lane l =
    .go [laneA w] (blockOut (quantBlock w l.buf).1 (quantBlock w l.buf).2 a.kind) l.fresh := by
  simp only [quantShot, ha, ne_eq, hk, not_false_eq_true, if_true]

theorem dequantShot_data (hk : a.kind = 0) (hl : l.buf.length < 32) :
    dequantShot w s.here s.seat.lane l = .go [laneA w] [] { l with buf := l.buf ++ [a] } := by
  unfold dequantShot
  rw [ha]
  cases hb : l.buf with
  | nil => simp [hk]
  | cons sc es =>
    have hes : ¬ 31 ≤ es.length := by
      rw [hb, List.length_cons] at hl
      omega
    simp [hk, hes]

theorem dequantShot_full (hk : a.kind = 0) {sc : Token} {es : List Token} (hb : l.buf = sc :: es)
    (hl : 31 ≤ es.length) : dequantShot w s.here s.seat.lane l =
      .go [laneA w] (blockOut (dequantBlock w sc (es ++ [a])).1 (dequantBlock w sc (es ++ [a])).2 0) l.fresh := by
  simp only [dequantShot, ha, hb, hk, ne_eq, not_true, if_false, hl, if_true]

theorem dequantShot_mark (hk : a.kind ≠ 0) {sc : Token} {es : List Token} (hb : l.buf = sc :: es) :
    dequantShot w s.here s.seat.lane l =
      .go [laneA w] (blockOut (dequantBlock w sc es).1 (dequantBlock w sc es).2 a.kind) l.fresh := by
  simp only [dequantShot, ha, hb, ne_eq, hk, not_false_eq_true, if_true]

theorem dequantShot_empty_mark (hk : a.kind ≠ 0) (hb : l.buf = []) :
    dequantShot w s.here s.seat.lane l = .go [laneA w] [own (markTok a.kind)] l := by
  simp only [dequantShot, ha, hb, ne_eq, hk, not_false_eq_true, if_true]

end

theorem quantBlock_kind (w : LaneArgs) (l : List Token) : ∀ x ∈ (quantBlock w l).1, x.kind = 0 := by
  unfold quantBlock
  split
  · rintro x hx
    rw [List.eq_of_mem_replicate hx]
    rfl
  · rintro x hx
    obtain ⟨v, -, rfl⟩ := List.mem_map.1 hx
    rfl

theorem quantBlock_ne_nil (w : LaneArgs) (l : List Token) : (quantBlock w l).1 ≠ [] := by
  unfold quantBlock
  split <;> simp

theorem dequantBlock_kind (w : LaneArgs) (sc : Token) (es : List Token) :
    ∀ x ∈ (dequantBlock w sc es).1, x.kind = 0 := by
  intro x hx
  unfold dequantBlock at hx
  obtain ⟨y, hy, rfl⟩ := List.mem_map.1 hx
  obtain ⟨e, -, rfl⟩ := List.mem_map.1 hy
  split <;> rfl

theorem dequantBlock_ne_nil (w : LaneArgs) (sc : Token) (es : List Token) : (dequantBlock w sc es).1 ≠ [] := by
  refine List.ne_nil_of_length_pos ?_
  simp only [dequantBlock, List.length_map, List.length_append, List.length_replicate]
  omega

theorem blockOut_ne_nil {l : List Token} (hl : l ≠ []) (fl : Flags) (mark : BitVec 3) : blockOut l fl mark ≠ [] := by
  unfold blockOut
  simp [List.getLast?_eq_some_getLast hl]

/-- The first token of a block is data. -/
theorem blockOut_head {l : List Token} (hl : l ≠ []) (hk : ∀ x ∈ l, x.kind = 0) (fl : Flags) (mark : BitVec 3) :
    ∀ x ∈ (blockOut l fl mark).head?, OwnToken 0 x := by
  unfold blockOut
  match l, hl with
  | [t], _ =>
    rintro x hx
    cases hx
    exact ⟨rfl, rfl, hk t (by simp)⟩
  | t :: u :: r, _ =>
    rintro x hx
    cases hx
    exact ⟨rfl, rfl, hk t (by simp)⟩

/-- A block goes out, its first token data. -/
theorem shoot_fires_block {s : State} {w : LaneArgs} {i : Instr} {f : Core → Nat → Lane → Shot}
    {q : List Token × Flags} {mark : BitVec 3}
    (e : exec i s = shoot w f s) (h : f s.here s.seat.lane (s.here.lane s.seat.lane) =
      .go [laneA w] (blockOut q.1 q.2 mark) (s.here.lane s.seat.lane).fresh) (hr : LaneReady s true false 0)
    (hne : q.1 ≠ []) (hk : ∀ x ∈ q.1, x.kind = 0) :
    Completes i s (LaneFired w [laneA w] (blockOut q.1 q.2 mark) (s.here.lane s.seat.lane).fresh s) :=
  shoot_fires_list e h hr (blockOut_ne_nil hne _ _) (blockOut_head hne hk _ _) rfl

/-- Settles O38: each operation by what its head comes to. -/
theorem lanePassingAndSegments : Obligations.LanePassingAndSegments := by
  unfold Obligations.LanePassingAndSegments
  refine ⟨?_, ?_⟩
  · intro s w a b n l ha
    refine ⟨lane_passes_data ha, fun hk hc ho => ?_, lane_passes_marks ha, fun hk hl hc ho => ?_,
      fun hi hk hb hm hr => ?_,
      fun hi hB hka hkb hb => erep_counted ha hi hB hka hkb hb, fun x hb hk hr => ?_⟩
    · exact shoot_absorbs (exec_edrop s) (passShot_data ha hk) hc rfl ho
    · exact shoot_absorbs (exec_estrip s) (passShot_drops_mark ha hk hl) hc rfl ho
    · exact shoot_fires (exec_erep s) ((repShot_immediate ha hi hb hk).trans (repeatShot_many _ _ hm _)) hr
        (hk ▸ ownToken_own a) rfl
    · exact shoot_fires (exec_erep s) (repShot_copy hb) hr (hk ▸ ownToken_own x) rfl
  · intro s w a n l o ha hc ho
    refine ⟨fun hk => ⟨?_, ?_, ?_, ?_, ?_, ?_, ?_, ?_, ?_⟩, fun hk hr res => ⟨?_, ?_, ?_, ?_, ?_⟩,
      fun hk hr hb => ?_⟩
    · exact shoot_absorbs (exec_ecount s) (countShot_data ha hk) hc rfl ho
    · exact fun h => shoot_absorbs (exec_ered s) (redShot_first ha hk h) hc rfl ho
    · exact fun h => shoot_absorbs (exec_ered s) (redShot_step ha hk h) hc rfl ho
    · exact fun h => shoot_absorbs (exec_else2 s) (lseShot_data ha hk h) hc rfl ho
    · exact fun h => shoot_stops (exec_else2 s) (lseShot_full ha hk h)
    · exact fun h => shoot_absorbs (exec_ebq s) (quantShot_data ha hk h) hc rfl ho
    · exact fun h => shoot_absorbs (exec_ebdq s) (dequantShot_data ha hk h) hc rfl ho
    · rintro h hr q rfl
      exact ⟨quantBlock_kind _ _, shoot_fires_block (exec_ebq s) (quantShot_full ha hk h) hr (quantBlock_ne_nil _ _)
        (quantBlock_kind _ _)⟩
    · rintro hr sc es q hb h rfl
      exact ⟨dequantBlock_kind _ _ _, shoot_fires_block (exec_ebdq s) (dequantShot_full ha hk hb h) hr
        (dequantBlock_ne_nil _ _ _) (dequantBlock_kind _ _ _)⟩
    · rintro rfl
      exact shoot_fires (exec_ecount s) (countShot_mark ha hk) hr (ownToken_result _ _ _) rfl
    · rintro rfl
      exact shoot_fires (exec_ered s) (redShot_mark ha hk) hr (ownToken_result _ _ _) rfl
    · rintro rfl
      exact shoot_fires (exec_else2 s) (lseShot_mark ha hk) hr (ownToken_result _ _ _) rfl
    · rintro q rfl
      exact shoot_fires_block (exec_ebq s) (quantShot_mark ha hk) hr (quantBlock_ne_nil _ _) (quantBlock_kind _ _)
    · rintro sc es q hb rfl
      exact shoot_fires_block (exec_ebdq s) (dequantShot_mark ha hk hb) hr (dequantBlock_ne_nil _ _ _)
        (dequantBlock_kind _ _ _)
    · exact shoot_fires (exec_ebdq s) (dequantShot_empty_mark ha hk hb) hr (ownToken_own (markTok a.kind)) rfl

end Sys2Proof.Machine
end

section
/-!
O6: the safe-point overrun trap.
-/
namespace Sys2Proof.Machine

/-- Settles O6: a guarded word that is no safe point finds the count full, whichever way it is issued (R67). -/
theorem safePointOverrunTraps : Obligations.SafePointOverrunTraps := by
  intro s i g hg hq hslot hkilled howed hcount hsafe hend
  obtain ⟨uses, f, e⟩ | ⟨⟨uses, f, e⟩, hi⟩ := exec_issue (s := s) hg hq hsafe
  · exact ⟨_, by rw [e, control_over hq hslot hkilled howed hcount], State.trap_traps s 9 2048⟩
  · have hguard : s.guard g = false := by
      rw [← Bool.not_eq_true]
      intro h
      obtain ⟨hne, hny, hnr⟩ := hend h
      obtain rfl | ⟨k, t, rfl⟩ | ⟨t, rfl⟩ := hi
      exacts [hne rfl, hny k t rfl, hnr t rfl]
    exact ⟨_, by rw [e, controlEnd_over hq hslot hkilled howed hcount hguard], State.trap_traps s 9 2048⟩

end Sys2Proof.Machine
end

section
/-!
O9: loads (R65, R66, R116, R139, R368).
-/
namespace Sys2Proof.Machine

/-! ## A task's read that faults or waits (R65, R66, R139) -/

section
variable {s : State} {addr : Word} {n : Nat} (k : State → Nat → Nat → State)

theorem State.taskRead_outside (hp : placeOf s.seat.core addr n = .bad ∨ placeOf s.seat.core addr n = .global) :
    s.taskRead addr n k = s.trap 4 addr := by
  unfold State.taskRead
  obtain hp | hp := hp <;> simp only [hp]

variable {t o : Nat} (hp : placeOf s.seat.core addr n = .scratch t o)
include hp

theorem State.taskRead_misaligned (ha : addr.toNat % n ≠ 0) : s.taskRead addr n k = s.trap 5 addr := by
  unfold State.taskRead
  simp only [hp, if_pos ha]

theorem State.taskRead_held (ha : addr.toNat % n = 0) (hw : (s.core t).wordHeld o n = true) :
    s.taskRead addr n k = s := by
  unfold State.taskRead
  simp only [hp, if_neg (not_not.2 ha), if_pos hw]

/-- A read of an empty line: the task goes back to its start, unless it is settled (R65, R66). -/
theorem State.taskRead_empty (ha : addr.toNat % n = 0) (hw : (s.core t).wordHeld o n = false)
    (he : s.isEmpty (lineKey t (o / 128)) = true) : s.taskRead addr n k =
      if s.here.ctl.work.settled then s.trap 8 (addr &&& ~~~127) else s.rewind (lineKey t (o / 128)) := by
  unfold State.taskRead
  simp only [hp, if_neg (not_not.2 ha), hw, Bool.false_eq_true, if_false, if_pos he]
end

/-! ## The loaded value -/

/-- The signed reading of a code is that of its bit vector (R24). -/
theorem intVal_eq_toInt {w : Nat} (hw : 0 < w) (v : Nat) : intVal true w v = (BitVec.ofNat w v).toInt := by
  obtain ⟨m, rfl⟩ := Nat.exists_eq_succ_of_ne_zero hw.ne'
  have h2 : 2 ^ (m + 1) = 2 * 2 ^ m := pow_succ' 2 m
  simp only [intVal, BitVec.toInt_eq_toNat_cond, BitVec.toNat_ofNat, Nat.succ_eq_add_one, Nat.add_sub_cancel,
    Bool.true_and, decide_eq_true_eq, ge_iff_le]
  split <;> split <;> omega

theorem signed_load (sz : Size) (v : Nat) : BitVec.ofInt 64 (intVal true (8 * sizeBytes sz) v) =
    (BitVec.ofNat (8 * sizeBytes sz) v).signExtend 64 := by
  rw [intVal_eq_toInt (by cases sz <;> decide)]
  rfl

/-! ## The two loads as one (R368) -/

variable {s : State} {g : Guard} {sz : Size} {d a : Reg} {off : BitVec 10}

/-- A load of `n` bytes, whose value `val` extends. -/
def State.loadTo (s : State) (d : Reg) (val : Nat → Word) (addr : Word) (n : Nat) : State :=
  s.taskRead addr n (fun u v t => u.loaded d (val v) t)

theorem ldZ_loadTo (h : Issues s g [.g d, .g a]) : exec (.ldZ g sz d a off) s =
    .next (s.loadTo d (BitVec.ofNat 64) (memAddr (s.reg a) sz off) (sizeBytes sz)) := by
  rw [exec_ldZ, execLdZ, control_of_issues h]
  rfl

theorem ldS_loadTo (h : Issues s g [.g d, .g a]) : exec (.ldS g sz d a off) s =
    .next (s.loadTo d (fun v => (BitVec.ofNat (8 * sizeBytes sz) v).signExtend 64) (memAddr (s.reg a) sz off)
      (sizeBytes sz)) := by
  rw [exec_ldS, execLdS, control_of_issues h]
  simp only [signed_load]
  rfl

theorem RegistersOnly.taskOnly {s t : State} (h : RegistersOnly s t) : TaskOnly s t := by
  obtain ⟨hc, hk, hm⟩ := h
  exact ⟨hc, by rw [hk], hm⟩

variable {addr : Word} {n t o : Nat} (val : Nat → Word)

/-- From the core's own scratchpad the value is written at once (R116). -/
theorem State.loadTo_own (hq : s.seat.seq = .control) (hr : Readable s addr n s.seat.core o) :
    let u := s.loadTo d val addr n
    TaskOnly s u ∧ StepsPc s u ∧ (∀ p, u.pred p = s.pred p)
      ∧ (∀ r, u.reg r = if r = d ∧ r ≠ 0 then val (s.taskNat s.seat.core o n) else s.reg r)
      ∧ u.here.ctl.work.wbuf = s.here.ctl.work.wbuf := by
  intro u
  have hu : u = (s.noted (lineKey s.seat.core (o / 128))).result d (val (s.taskNat s.seat.core o n)) :=
    (State.taskRead_of_readable hr _).trans (if_pos rfl)
  obtain ⟨hpc, hg, hqs, hcnt, hseat, -, -, -, hw⟩ := noted_facts (s := s) (lineKey s.seat.core (o / 128))
  have hn := noted_taskOnly (s := s) (lineKey s.seat.core (o / 128))
  rw [hu]
  generalize s.noted (lineKey s.seat.core (o / 128)) = v at *
  obtain ⟨wr, wp, ws, wo⟩ := State.result_writes (s := v) (hseat ▸ hq) d (val (s.taskNat s.seat.core o n))
  refine ⟨hn.trans wo.taskOnly hseat, ⟨by rw [ws.1, hpc], by rw [ws.2, hcnt]⟩, fun p => ?_, fun r => ?_, ?_⟩
  · rw [wp]; simp only [State.pred, Ctl.pred, hqs]
  · rw [wr, State.reg_of_control hq, State.reg_of_control (hseat ▸ hq)]; simp only [Ctl.reg, hg]
  · rw [wo.2.1, hw]

/-- From a peer's scratchpad the register is owed the value (R116, notes/assumptions/17.md). -/
theorem State.loadTo_peer (hq : s.seat.seq = .control) (hr : Readable s addr n t o) (ht : t ≠ s.seat.core) :
    let u := s.loadTo d val addr n
    MemoryKept s u ∧ NextWord s u ∧ u.here.owed = s.here.owed
      ++ [⟨s.fresh, s.here.ctl.run, .g d, some (val (s.taskNat t o n)), false⟩] := by
  intro u
  obtain ⟨hpc, hg, hqs, hcnt, hseat, hmem, -⟩ := noted_facts (s := s) (lineKey t (o / 128))
  have hu : u = ((s.noted (lineKey t (o / 128))).owe s.seat.core (.g d) (some (val (s.taskNat t o n))) false).stepPc :=
    (State.taskRead_of_readable hr _).trans (if_neg ht)
  obtain ⟨r, er⟩ := State.noted_eq (s := s) (lineKey t (o / 128))
  obtain ⟨hnext, howed, hm⟩ := owesReg hq hseat ⟨hg, hqs, hpc, hcnt⟩ (by rw [er]; simp) (by rw [er]; simp) d
    (some (val (s.taskNat t o n))) false s.fresh (by rw [er]; rfl)
  exact ⟨fun x => by rw [hu, hm, hmem], hu ▸ hnext, hu ▸ howed⟩

/-- Settles O9: both loads are one task's read, which writes or owes its value, or takes the first of its faults. -/
theorem loadsReadOrFault : Obligations.LoadsReadOrFault := by
  unfold Obligations.LoadsReadOrFault
  refine ⟨fun s g sz d a off t o h hr => ⟨?_, fun ht => ⟨?_, ?_⟩⟩, fun s g sz d a off h i hi => ?_⟩
  · rintro rfl
    exact ⟨⟨_, ldZ_loadTo h, State.loadTo_own _ h.1 hr⟩, ⟨_, ldS_loadTo h, State.loadTo_own _ h.1 hr⟩⟩
  · exact ⟨_, ldZ_loadTo h, State.loadTo_peer _ h.1 hr ht⟩
  · exact ⟨_, ldS_loadTo h, State.loadTo_peer _ h.1 hr ht⟩
  · intro addr n
    obtain ⟨val, e⟩ : ∃ val, exec i s = .next (s.loadTo d val addr n) := by
      obtain rfl | rfl := hi
      exacts [⟨_, ldZ_loadTo h⟩, ⟨_, ldS_loadTo h⟩]
    refine ⟨fun hp => ⟨_, e, ?_⟩, fun t o hp => ⟨fun ha => ⟨_, e, ?_⟩, fun ha hw => ?_,
      fun ha hw he => ⟨fun hset => ⟨_, e, ?_⟩,
      fun hset => ⟨_, e, ?_⟩⟩, fun ha hw he hb hk hu => ⟨_, e, ?_⟩⟩⟩
    · rw [State.loadTo, State.taskRead_outside _ hp]
      exact State.trap_traps ..
    · rw [State.loadTo, State.taskRead_misaligned _ hp ha]
      exact State.trap_traps ..
    · rw [e, State.loadTo, State.taskRead_held _ hp ha hw]
    · rw [State.loadTo, State.taskRead_empty _ hp ha hw he, if_pos hset]
      exact State.trap_traps ..
    · rw [State.loadTo, State.taskRead_empty _ hp ha hw he, if_neg (by rw [hset]; decide)]
      exact ⟨rfl, State.rewind_idle s _⟩
    · rw [State.loadTo, State.taskRead_of_poisoned hp ha hw he hb hk hu]
      obtain ⟨hpc, -, -, -, -, hmem, -⟩ := noted_facts (s := s) (lineKey t (o / 128))
      exact State.trap_traps_of hpc hmem _ _

end Sys2Proof.Machine
end

section
/-!
O14: control transfers and the jump table (R51, R272, R320, R325, R366, R367, R372, R412).
-/

namespace Sys2Proof.Machine

variable {s : State} {g : Guard} {a b : Reg} {t o : Nat}

/-! ## Transfers (R51) -/

/-- g31 gets the word after this one, where the transfer links (R320). -/
def State.linked (s : State) (link : Bool) : State :=
  if link then s.setReg 31 (BitVec.ofNat 64 (s.here.ctl.pc + 1)) else s

@[simp] theorem Ctl.reg_jump (k : Ctl) (n : Nat) (r : Reg) : (k.jump n).reg r = k.reg r := rfl
@[simp] theorem Ctl.pred_jump (k : Ctl) (n : Nat) (p : Pred) : (k.jump n).pred p = k.pred p := rfl
@[simp] theorem Ctl.jump_pc (k : Ctl) (n : Nat) : (k.jump n).pc = n := rfl
@[simp] theorem Ctl.jump_safecnt (k : Ctl) (n : Nat) : (k.jump n).safecnt = k.safecnt + 1 := rfl

theorem State.linked_jump (hq : s.seat.seq = .control) (n : Nat) (link : Bool) :
    GoesTo n link s ((s.linked link).jump n) := by
  cases link
  · refine ⟨fun r => ?_, fun p => ?_, ?_, ?_, ?_, ?_, fun x => rfl⟩
    · simp [State.linked, State.reg, hq]
    all_goals simp [State.linked, State.pred, OnlyCtl]
    simp [Ctl.jump]
  · refine ⟨fun r => ?_, fun p => ?_, ?_, ?_, ?_, ?_, fun x => rfl⟩
    · rw [State.reg_of_control hq, State.reg_of_control (by simp [State.linked, hq])]
      simp only [State.linked, State.setReg_eq, State.jump_eq, State.here_setCore, if_true, Ctl.reg_jump,
        Ctl.reg_setReg, State.setCore_seat]
      exact if_congr ⟨fun h => ⟨trivial, h.1⟩, fun h => ⟨h.2, h.2 ▸ by decide⟩⟩ rfl rfl
    all_goals simp [State.linked, State.pred, OnlyCtl]
    rw [Ctl.setReg_eq]
    simp [Ctl.jump]

theorem transferTo_of {i : Instr} {target : Int} {link : Bool} (hq : s.seat.seq = .control)
    (e : exec i s = .next (s.transfer target (fun u => u.linked link))) : TransferTo i s target link := by
  refine ⟨fun h0 h1 => ⟨_, e, ?_⟩, fun h => ⟨_, e, ?_⟩⟩
  · rw [State.transfer, if_neg (by omega)]
    exact State.linked_jump hq _ _
  · rw [State.transfer, if_pos h]
    exact State.trap_traps ..

theorem b_transfers (h : Issues s g []) (off : BitVec 22) :
    TransferTo (.b g off) s (s.here.ctl.pc + off.toInt) false :=
  transferTo_of h.1 (by rw [exec_b, execB, control_of_issues h]; rfl)

theorem call_transfers (h : Issues s g [.g 31]) (off : BitVec 22) :
    TransferTo (.call g off) s (s.here.ctl.pc + off.toInt) true :=
  transferTo_of h.1 (by rw [exec_call, execCall, control_of_issues h]; rfl)

theorem ret_transfers (h : Issues s g [.g 31]) : TransferTo (.ret g) s (s.reg 31).toNat false :=
  transferTo_of h.1 (by rw [exec_ret, execRet, control_of_issues h]; rfl)

theorem lpad_nextWord (h : Issues s g []) (label : BitVec 16) :
    Completes (.lpad g label) s (fun t => NextWord s t ∧ RegistersOnly s t) :=
  ⟨_, by rw [exec_lpad, execLpad, control_of_issues h], State.stepPc_next s, State.stepPc_registersOnly s⟩

/-! ## The jump table (R366, R367) -/

theorem isLpad_iff (w : W32) (label : Nat) :
    isLpad w label = true ↔ ∃ g l, decodeControl w = .ok (.lpad g l) ∧ l.toNat = label := by
  unfold isLpad
  split
  next g l h => simp [h]
  next h => simp only [Bool.false_eq_true, false_iff]; rintro ⟨g, l, hw, -⟩; exact h g l hw

/-- What `jt` does with the entry's target (R366). -/
def jumpEntry (label : Nat) (s : State) (target _ : Nat) : State :=
  if 16383 < target then s.trap 3 (BitVec.ofNat 64 target)
  else if s.here.badWords.contains target then s.trap 22 (Config.structureNumber 0)
  else if isLpad (Tbl.get 0 s.here.store target) label then s.jump target
  else s.trap 13 (BitVec.ofNat 64 target)

/-- What `jt` does with the table's header (R366). -/
def jumpHeader (gi gt : Word) (s : State) (h _ : Nat) : State :=
  if h / 2 ^ 16 % 2 ^ 16 ≠ 0 then s.trap 7 gt
  else if h / 2 ^ 32 ≤ gi.toNat then s.stepPc
  else s.taskRead (gt + 8 + 4 * gi) 4 (jumpEntry (h % 2 ^ 16))

theorem jt_header (h : Issues s g [.g a, .g b]) (hr : Readable s (s.reg b) 8 t o) : exec (.jt g a b) s =
    .next (jumpHeader (s.reg a) (s.reg b) (s.noted (lineKey t (o / 128))) (s.taskNat t o 8) t) := by
  rw [exec_jt, execJt, control_of_issues h]
  exact congrArg _ (State.taskRead_of_readable hr _)

/-- The state of a task that has noted lines it read: at its word, with its registers and its store. -/
def Reads (s u : State) : Prop :=
  TaskOnly s u ∧ u.seat = s.seat ∧ u.mem = s.mem ∧ u.here.ctl.g = s.here.ctl.g ∧ u.here.ctl.q = s.here.ctl.q
    ∧ u.here.ctl.pc = s.here.ctl.pc ∧ u.here.ctl.safecnt = s.here.ctl.safecnt
    ∧ u.here.badWords = s.here.badWords ∧ u.here.store = s.here.store

theorem reads_noted (l : Nat) : Reads s (s.noted l) := by
  obtain ⟨hpc, hg, hq, hcnt, hseat, hmem, hbad, hstore, -⟩ := noted_facts (s := s) l
  exact ⟨noted_taskOnly l, hseat, hmem, hg, hq, hpc, hcnt, hbad, hstore⟩

theorem Reads.trans {u v : State} (h : Reads s u) (k : Reads u v) : Reads s v := by
  obtain ⟨t1, a1, a2, a3, a4, a5, a6, a7, a8⟩ := h
  obtain ⟨t2, b1, b2, b3, b4, b5, b6, b7, b8⟩ := k
  exact ⟨t1.trans t2 a1, b1.trans a1, b2.trans a2, b3.trans a3, b4.trans a4, b5.trans a5, b6.trans a6, b7.trans a7,
    b8.trans a8⟩

theorem Reads.traps {u : State} (h : Reads s u) (cause : Nat) (ev : Word) : Traps cause ev s (u.trap cause ev) := by
  obtain ⟨-, -, hm, -, -, hpc, -⟩ := h
  exact State.trap_traps_of hpc hm cause ev

theorem Reads.nextWord {u : State} (hq : s.seat.seq = .control) (h : Reads s u) :
    TaskOnly s u.stepPc ∧ NextWord s u.stepPc := by
  obtain ⟨ht, hs, -, hg, hp, hpc, hcnt, -⟩ := h
  exact ht.stepPc hq hs ⟨hg, hp, hpc, hcnt⟩

theorem Reads.jumps {u : State} (hq : s.seat.seq = .control) (h : Reads s u) (n : Nat) :
    TaskOnly s (u.jump n) ∧ (∀ r, (u.jump n).reg r = s.reg r) ∧ (∀ p, (u.jump n).pred p = s.pred p)
      ∧ (u.jump n).here.ctl.pc = n ∧ (u.jump n).here.ctl.safecnt = s.here.ctl.safecnt + 1 := by
  obtain ⟨ht, hs, -, hg, hp, -, hcnt, -⟩ := h
  obtain ⟨jr, jp, jpc, jcnt, jo⟩ := State.linked_jump (s := u) (hs ▸ hq) n false
  refine ⟨ht.trans jo.taskOnly hs, fun r => (jr r).trans ?_, fun p => (jp p).trans ?_, jpc, jcnt.trans (by rw [hcnt])⟩
  · rw [if_neg (by simp), State.reg_of_control hq, State.reg_of_control (hs ▸ hq)]; simp only [Ctl.reg, hg]
  · simp only [State.pred, Ctl.pred, hp]

theorem jumpsByTable_of {u : State} {i : Instr} {label target n : Nat} (hq : s.seat.seq = .control) (h : Reads s u)
    (e : exec i s = .next (jumpEntry label u target n)) : JumpsByTable i s label target := by
  have ⟨_, _, _, _, _, _, _, hbad, hstore⟩ := h
  rw [jumpEntry, hbad, hstore] at e
  refine ⟨fun hb => ⟨_, e, ?_⟩, fun hb hw => ⟨_, e, ?_⟩, fun hb hw => ⟨fun g l hd hl => ⟨_, e, ?_⟩, fun hn => ⟨_, e, ?_⟩⟩⟩
  · rw [if_pos hb]
    exact h.traps ..
  · rw [if_neg (Nat.not_lt.2 hb), if_pos hw]
    exact h.traps ..
  · rw [if_neg (Nat.not_lt.2 hb), hw, if_neg (by decide), if_pos ((isLpad_iff _ _).2 ⟨g, l, hd, hl⟩)]
    exact h.jumps hq target
  · rw [if_neg (Nat.not_lt.2 hb), hw, if_neg (by decide), if_neg (fun hl => hn ((isLpad_iff _ _).1 hl))]
    exact h.traps ..

/-- Settles O14: transfers by their target, `jt` by its header and then its entry, each a task's read. -/
theorem controlTransfersAndJumpTable : Obligations.ControlTransfersAndJumpTable := by
  unfold Obligations.ControlTransfersAndJumpTable
  refine ⟨fun s g off label => ⟨fun h => ⟨b_transfers h off, lpad_nextWord h label⟩,
    fun h => ⟨call_transfers h off, ret_transfers h⟩⟩, fun s g a b t o h hr => ⟨fun hres => ⟨_, jt_header h hr, ?_⟩,
      fun hres => ⟨fun hle => ⟨_, jt_header h hr, ?_⟩, fun t' o' hlt hr' hroom => ?_⟩⟩⟩
  · rw [jumpHeader, if_pos hres]
    exact (reads_noted _).traps ..
  · rw [jumpHeader, if_neg (not_not.2 hres), if_pos hle]
    exact (reads_noted _).nextWord h.1
  · have e := jt_header h hr
    rw [jumpHeader, if_neg (not_not.2 hres), if_neg (Nat.not_le.2 hlt),
      State.taskRead_of_readable (noted_readable _ hr' hroom), noted_taskNat] at e
    exact jumpsByTable_of h.1 ((reads_noted _).trans (reads_noted _)) e

end Sys2Proof.Machine
end


section
/-!
O17: the ends of tasks (R63, R71, R169, R353, R354, R409, R434).
-/

namespace Sys2Proof.Machine

variable {s : State} {g : Guard}

/-! ## What the end of a task leaves of its core (R59, R169) -/

theorem freeEntry_eq (cyc n : Nat) (k : Core) : ∃ f, freeEntry cyc n k = { k with freed := f } := by
  unfold freeEntry
  split
  · split
    exacts [⟨_, rfl⟩, ⟨k.freed, rfl⟩]
  · exact ⟨k.freed, rfl⟩

/-- The commit of a task that ends. -/
def State.commitOf (s : State) (cont : Option Slot) : Commit :=
  { id := s.fresh, chain := s.here.ctl.chain, run := s.here.ctl.run
    slot := if s.here.taskOrd || cont.isSome then s.here.ctl.slot else none
    ord := s.here.taskOrd, stamp := s.here.ctl.stamp, launch := (s.here.chain s.here.ctl.chain).launch
    work := s.here.ctl.work, cont := cont, seq := s.opSeq }

/-- The slots once the task of slot `n` has ended: its slot is kept as ended, or free (R59). -/
def endedSlots (keep : Bool) (n : Nat) (t : Tbl Slot) : Tbl Slot :=
  match t.find n with
  | some x => if keep then t.put n { x with st := .ended } else t.drop n
  | none => t

theorem find_endedSlots {keep : Bool} {n : Nat} {t : Tbl Slot} {x : Slot} (h : t.find n = some x) :
    (endedSlots keep n t).find n = if keep then some { x with st := .ended } else none := by
  unfold endedSlots
  rw [h]
  cases keep
  · exact (Tbl.find_drop t n n).trans (if_pos rfl)
  · exact Tbl.find_put_self t n _

theorem find_endedSlots_of_ne {keep : Bool} {n m : Nat} (t : Tbl Slot) (h : m ≠ n) :
    (endedSlots keep n t).find m = t.find m := by
  unfold endedSlots
  split
  · cases keep
    · exact (Tbl.find_drop t n m).trans (if_neg h)
    · exact (Tbl.find_put t n _ m).trans (if_neg h)
  · rfl

/-- The core once its task has ended, its chain apart (R59, R169). -/
def Core.taskEnded (cyc : Nat) (keep : Bool) (m : Commit) (k : Core) : Core :=
  { k with
    freed := (freeEntry cyc (k.ctl.slot.getD 64) k).freed
    slots := endedSlots keep (k.ctl.slot.getD 64) k.slots
    commits := k.commits ++ [m]
    ctl := k.ctl.idle }

theorem State.endTask_eq (s : State) (cont : Option Slot) : s.endTask cont =
    (if cont.isSome || s.here.halted.isSome then
        s.setCore s.seat.core (s.here.taskEnded s.cycle (s.here.taskOrd || cont.isSome) (s.commitOf cont))
      else (s.setCore s.seat.core (s.here.taskEnded s.cycle (s.here.taskOrd || cont.isSome) (s.commitOf cont))).modChain
        s.seat.core s.here.ctl.chain (fun x => { x with ended := true })).next.bump := by
  obtain ⟨f, hf⟩ := freeEntry_eq s.cycle (s.here.ctl.slot.getD 64) s.here
  have hfreed : (freeEntry s.cycle (s.here.ctl.slot.getD 64) s.here).freed = f := by rw [hf]
  unfold State.endTask Core.taskEnded endedSlots State.commitOf
  simp only [State.modCore_eq, State.core_seat, hfreed]
  rw [hf]
  cases hx : s.here.slots.find (s.here.ctl.slot.getD 64) with
  | none => rfl
  | some x => cases hk : s.here.taskOrd || cont.isSome <;> rfl

theorem State.endTask_here (s : State) (cont : Option Slot) : ∃ ch, (s.endTask cont).here =
    { s.here.taskEnded s.cycle (s.here.taskOrd || cont.isSome) (s.commitOf cont) with chains := ch } := by
  rw [State.endTask_eq]
  split
  · exact ⟨s.here.chains, by simp [Core.taskEnded]⟩
  · exact ⟨_, by rw [State.here_bump, State.here_next, State.modChain_setCore, State.here_setCore,
      if_pos rfl]⟩

theorem State.endTask_mem (s : State) (cont : Option Slot) : (s.endTask cont).mem = s.mem := by
  rw [State.endTask_eq]
  split <;> rfl

theorem State.endTask_ends (hs : s.here.ctl.slot ≠ none) (cont : Option Slot) : TaskEnds cont s (s.endTask cont) := by
  obtain ⟨m, hm⟩ := Option.ne_none_iff_exists'.1 hs
  obtain ⟨ch, e⟩ := State.endTask_here s cont
  have hslots : (s.endTask cont).here.slots = endedSlots (s.here.taskOrd || cont.isSome) m s.here.slots := by
    rw [e]
    simp only [Core.taskEnded, hm, Option.getD_some]
  refine ⟨by rw [e]; rfl, fun a => by rw [State.endTask_mem], by rw [e]; rfl, fun n x hn hx => ?_, fun n hn => ?_⟩
  · obtain rfl : m = n := Option.some.inj (hm.symm.trans hn)
    rw [hslots]
    exact find_endedSlots hx
  · rw [hslots]
    exact find_endedSlots_of_ne _ (fun h => hn (hm.trans (congrArg some h.symm)))

/-! ## Continuations (R63, R71) -/

theorem State.continuation_eq {n : Nat} {x : Slot} (hn : s.here.ctl.slot = some n) (hx : s.here.slots.find n = some x)
    (k : WakeCode) (tgt : BitVec 14) : s.continuation k tgt = Continues s k tgt x := by
  simp only [State.continuation, hn, Option.getD_some, hx]
  rfl

theorem barrierId_eq (v : Word) : barrierId v = if v.toNat < 65536 ∧ 1 ≤ v.toNat / 256 ∧ v.toNat / 256 ≤ 96
    then some (v.toNat % 256, v.toNat / 256) else none := by
  have hv := v.isLt
  unfold barrierId
  simp only [extract_ne, extract_nat]
  by_cases h : v.toNat < 65536
  · have h2 : v.toNat / 2 ^ 8 % 2 ^ 8 = v.toNat / 256 := by omega
    rw [h2]
    by_cases h3 : 1 ≤ v.toNat / 256 ∧ v.toNat / 256 ≤ 96
    · rw [if_neg (by omega), if_pos ⟨h, h3⟩]
      simp
    · rw [if_pos (by omega), if_neg (fun h => h3 h.2)]
  · rw [if_pos (by left; omega), if_neg (fun hc => h hc.1)]

/-- The model refuses the barrier words that do not fit (R309). -/
theorem barrierOf_isNone_iff (s : State) (v : Word) :
    (s.barrierOf s.seat.core s.here.ctl.chain v).isNone = true ↔ ¬ BarrierFits s v := by
  unfold State.barrierOf BarrierFits
  rw [barrierId_eq]
  by_cases h : v.toNat < 65536 ∧ 1 ≤ v.toNat / 256 ∧ v.toNat / 256 ≤ 96
  · obtain ⟨h1, h2, h3⟩ := h
    cases hx : s.barrier (s.here.chain s.here.ctl.chain).launch (v.toNat % 256) with
    | mk m cnt =>
      simp only [h1, h2, h3, and_self, if_true, true_and, State.core_seat, hx]
      by_cases hc : cnt ≠ 0 ∧ m ≠ v.toNat / 256
      · rw [if_pos hc]
        exact ⟨fun _ hf => hc.2 (hf hc.1), fun _ => rfl⟩
      · rw [if_neg hc]
        exact ⟨fun hn => by simp at hn, fun hn => absurd (fun h0 => not_not.1 fun h1 => hc ⟨h0, h1⟩) hn⟩
  · rw [if_neg h]
    simp only [Option.isNone_none, true_iff]
    exact fun hf => h ⟨hf.1, hf.2.1, hf.2.2.1⟩

theorem endTask_issued (h : Issues s g []) : exec (.endTask g) s = .next (s.endTask none) := by
  rw [exec_endTask, execEndTask, controlEnd_of_issues h]

theorem rdv_issued {tgt : BitVec 14} (h : Issues s g (carryRegs.map .g)) :
    exec (.rdv g tgt) s = .next (s.endTask (some (s.continuation .rdv tgt))) := by
  rw [exec_rdv, execRdv, controlEnd_of_issues h]

section
variable {wake : WakeCode} {tgt : BitVec 14} (h : Issues s g (carryRegs.map .g))
include h

theorem yield_line_fault (hl : (s.reg 24).toNat / 2 ^ 60 ≠ 1 ∨ 0x80000 ≤ (s.reg 24).toNat % 2 ^ 60) :
    exec (.yield g .line tgt) s = .next (s.trap 4 (s.reg 24)) := by
  rw [exec_yield, execYield, controlEnd_of_issues h]
  simp only [(spaceNat _).1, (spaceNat _).2, if_pos hl]

theorem yield_bar_fault (hb : ¬ BarrierFits s (s.reg 24)) :
    exec (.yield g .bar tgt) s = .next (s.trap 7 (s.reg 24)) := by
  rw [exec_yield, execYield, controlEnd_of_issues h]
  dsimp only
  rw [if_pos ((barrierOf_isNone_iff s _).2 hb)]

theorem yield_ends (hl : wake = .line → (s.reg 24).toNat / 2 ^ 60 = 1 ∧ (s.reg 24).toNat % 2 ^ 60 < 0x80000)
    (hb : wake = .bar → BarrierFits s (s.reg 24)) :
    exec (.yield g wake tgt) s = .next (s.endTask (some (s.continuation wake tgt))) := by
  rw [exec_yield, execYield, controlEnd_of_issues h]
  cases wake with
  | line =>
    obtain ⟨h1, h2⟩ := hl rfl
    simp only [(spaceNat _).1, (spaceNat _).2, if_neg (not_or.2 ⟨not_not.2 h1, Nat.not_le.2 h2⟩)]
  | bar =>
    dsimp only
    rw [if_neg (fun hn => (barrierOf_isNone_iff s _).1 hn (hb rfl))]
  | imm | cnt | chan | rdv => rfl
end

/-! ## The join (R354) -/

theorem endJoin_joins (hq : s.seat.seq = .stream) (ha : s.here.ss.active = true) (hh : s.here.ss.halt = false)
    (hf : s.here.frozen = false) : Completes .endJoin s (fun t => MemoryKept s t ∧ t.here.ss.active = false
      ∧ t.here.ctl = s.here.ctl ∧ (t.here.chain s.here.ss.chain).forkS = false) := by
  have e : exec .endJoin s = .next (s.setCore s.seat.core { s.here with
      ss := { s.here.ss with active := false, pc := s.here.ss.pc + 1 }
      chains := s.here.chains.put s.here.ss.chain { s.here.chain s.here.ss.chain with forkS := false } }) := by
    rw [exec_endJoin, execEndJoin]
    dsimp only
    rw [if_neg (by simp [hq, ha, hh, hf]), State.modHere_eq, State.setCore_seat, State.modChain_setCore]
    rfl
  refine ⟨_, e, fun a => rfl, ?_, ?_, ?_⟩
  · simp
  · simp
  · simp [Core.chain]

/-- Settles O17: what the end of a task leaves, with no continuation or with the one that its word places. -/
theorem endsOfTasks : Obligations.EndsOfTasks := by
  unfold Obligations.EndsOfTasks
  intro s g tgt wake n x
  refine ⟨fun h => ⟨_, endTask_issued h, State.endTask_ends h.2.1 none⟩, fun h hn hx => ⟨⟨_, rdv_issued h, ?_⟩, ?_, ?_,
    fun hl hb => ⟨_, yield_ends h hl hb, ?_⟩⟩, endJoin_joins⟩
  · rw [State.continuation_eq hn hx]
    exact State.endTask_ends h.2.1 _
  · rintro rfl hl
    exact ⟨_, yield_line_fault h hl, State.trap_traps ..⟩
  · rintro rfl hb
    exact ⟨_, yield_bar_fault h hb, State.trap_traps ..⟩
  · rw [State.continuation_eq hn hx]
    exact State.endTask_ends h.2.1 _

end Sys2Proof.Machine
end


section
/-!
O18: safe points, counter tests and forks (R67-R69, R73, R132, R362, R374, R413).
-/

namespace Sys2Proof.Machine

variable {s : State} {g : Guard}

/-! ## Safe points (R67, R68) -/

theorem Tbl.get_filter {α : Type} (d : α) (t : Tbl α) (p : Nat → Bool) (k : Nat) :
    Tbl.get d (t.filter (fun x => p x.1)) k = if p k then Tbl.get d t k else d := by
  induction t with
  | nil => simp
  | cons x r ih =>
    rw [Tbl.get_cons, List.filter_cons]
    by_cases hx : x.1 = k
    · subst hx
      cases hp : p x.1 <;> simp [hp, ih, Tbl.get_cons]
    · cases hp : p x.1 <;> simp [hx, ih, Tbl.get_cons]

/-- A live mask keeps the registers that it covers; the others read 0 (R68). -/
theorem liveCtl_reg (live : BitVec 17) (k : Ctl) (r : Reg) :
    (liveCtl live k).reg r = if live.getLsbD (r.toNat / 2) = true then k.reg r else 0 := by
  unfold liveCtl Ctl.reg
  dsimp only
  rw [Tbl.get_filter 0 k.g (fun i => live.getLsbD (i / 2))]
  split_ifs <;> rfl

theorem liveCtl_pred (live : BitVec 17) (k : Ctl) {p : Pred} (hp : p ≠ 0) :
    (liveCtl live k).pred p = (live.getLsbD 16 && k.pred p) := by
  unfold liveCtl Ctl.pred
  dsimp only
  rw [if_neg hp, if_neg hp]
  cases live.getLsbD 16
  · rfl
  · exact (Bool.true_and _).symm

/-- The task after a `safe` that only resets its count (R67). -/
def Ctl.pastSafe (k : Ctl) : Ctl := { k with pc := k.pc + 1, safecnt := 0 }

theorem safe_issued (h : Issues s g []) (live : BitVec 17) : exec (.safe g live) s =
    if s.here.halted.isSome then .next (s.setCore s.seat.core { s.here with ctl := s.here.ctl.pastSafe })
    else if s.here.dbgReq then
      .next ((s.setCore s.seat.core { s.here with ctl := { s.here.ctl with safecnt := 0 } }).debugHalt s.seat.core)
    else if s.here.preempt.isSome then
      .next ((s.setCore s.seat.core { s.here with
        ctl := s.here.ctl.pastSafe
        owed := s.here.owed.filter (fun o => o.run != s.here.ctl.run || liveDest live o.dst) }).suspend s.seat.core
          (liveCtl live s.here.ctl.pastSafe))
    else .next (s.setCore s.seat.core { s.here with ctl := s.here.ctl.pastSafe }) := by
  obtain ⟨hq, hslot, hkilled, howed, -, hguard⟩ := h
  rw [exec_safe, execSafe, if_neg (by simp [hq, hslot]), if_neg (by simp [hkilled]), if_neg (by simp [howed])]
  simp only [hguard, Bool.not_true, Bool.false_or, State.modCtl_eq, State.modHere_eq, State.core_setCore,
    State.here_setCore, State.setCore_seat, if_true, State.setCore_setCore, State.core_seat]
  rfl

theorem pastSafe_frame (hq : s.seat.seq = .control) :
    let t := s.setCore s.seat.core { s.here with ctl := s.here.ctl.pastSafe }
    RegistersOnly s t ∧ (∀ r, t.reg r = s.reg r) ∧ (∀ p, t.pred p = s.pred p)
      ∧ t.here.ctl.pc = s.here.ctl.pc + 1 ∧ t.here.ctl.safecnt = 0 := by
  refine ⟨⟨?_, ?_, fun a => rfl⟩, fun r => ?_, fun p => ?_, ?_, ?_⟩
  · simp [OnlyCtl]
  · simp [Ctl.pastSafe]
  · rw [State.reg_of_control hq, State.reg_of_control (by simpa using hq)]
    simp [Ctl.pastSafe, Ctl.reg]
  · simp [State.pred, Ctl.pastSafe, Ctl.pred]
  · simp [Ctl.pastSafe]
  · simp [Ctl.pastSafe]

theorem safe_goes_on (h : Issues s g []) (live : BitVec 17)
    (hn : s.here.halted ≠ none ∨ (s.here.dbgReq = false ∧ s.here.preempt = none)) : exec (.safe g live) s =
      .next (s.setCore s.seat.core { s.here with ctl := s.here.ctl.pastSafe }) := by
  rw [safe_issued h]
  obtain hh | ⟨hd, hp⟩ := hn
  · rw [if_pos (Option.isSome_iff_ne_none.2 hh)]
  · simp [hd, hp]

/-- A requested debug halt takes effect at the `safe` (R243). -/
theorem safe_halts (h : Issues s g []) (live : BitVec 17) (hh : s.here.halted = none) (hd : s.here.dbgReq = true) :
    Completes (.safe g live) s (fun t => t.here.halted = some { s.here.ctl with safecnt := 0 }
      ∧ t.here.epc = BitVec.ofNat 64 s.here.ctl.pc ∧ t.here.ctl.pc = s.here.dbgEntry.toNat ∧ t.here.frozen = true
      ∧ MemoryKept s t) := by
  refine ⟨_, (safe_issued h live).trans ((if_neg (by simp [hh])).trans (if_pos hd)), ?_⟩
  simp only [State.debugHalt, State.modCore_eq, State.here_next, State.setCore_setCore, State.core_setCore, if_true,
    State.here_setCore, true_and]
  exact fun a => rfl

/-- A pending pre-emption suspends the task at the `safe`, with the registers of its mask (R68). -/
theorem safe_suspends (h : Issues s g []) (live : BitVec 17) (hh : s.here.halted = none) (hd : s.here.dbgReq = false)
    (hp : s.here.preempt ≠ none) {n : Nat} {x : Slot} (hn : s.here.ctl.slot = some n)
    (hx : Tbl.find s.here.slots n = some x) : Completes (.safe g live) s (fun t =>
      t.here.ctl.slot = none ∧ MemoryKept s t
        ∧ ∃ k, Tbl.find t.here.slots n = some { x with st := .suspended, saved := some k }
          ∧ k.pc = s.here.ctl.pc + 1 ∧ k.safecnt = 0
          ∧ (∀ r, k.reg r = if live.getLsbD (r.toNat / 2) = true then s.reg r else 0)
          ∧ ∀ p, p ≠ 0 → k.pred p = (live.getLsbD 16 && s.pred p)) := by
  have hslot : s.here.ctl.pastSafe.slot = some n := hn
  refine ⟨_, (safe_issued h live).trans ((if_neg (by simp [hh])).trans ((if_neg (by simp [hd])).trans
    (if_pos (Option.isSome_iff_ne_none.2 hp)))), ?_⟩
  simp only [State.suspend, State.modSlot, State.core_setCore, if_true, hslot, hx, State.modCore_eq, State.modCtl_eq,
    State.setCore_setCore, State.here_setCore]
  refine ⟨rfl, fun a => rfl, liveCtl live s.here.ctl.pastSafe, Tbl.find_put_self .., rfl, rfl, fun r => ?_, fun p hp => ?_⟩
  · rw [liveCtl_reg, State.reg_of_control h.1]
    rfl
  · rw [liveCtl_pred _ _ hp]
    rfl

/-! ## waitc (R73) -/

theorem waitTest_eq (x : Chain) (ld st cp mt : BitVec 4) : waitTest x ld st cp mt =
    (nibbleHolds ld x.ld && nibbleHolds st x.st && nibbleHolds cp x.cp && nibbleHolds mt x.mt) := by
  have one : ∀ (n : BitVec 4) (v : Nat), (n == 15 || decide (v ≤ n.toNat)) = nibbleHolds n v := by
    intro n v
    rw [nibbleHolds, Bool.decide_or]
    rfl
  simp only [waitTest, one]

/-! ## fork (R69, R132, R362, R374) -/

section
variable {d : Pred} {tgt : BitVec 14}

/-- A settled task's answer after a change of its core that leaves its registers. -/
theorem settled_answers (hq : s.seat.seq = .control) (k : Core) (hk : k.ctl = s.settled.here.ctl) (v : Bool) :
    AnswersPred d v s ((s.settled.setCore s.seat.core k).resultQ d v)
      ∧ ((s.settled.setCore s.seat.core k).resultQ d v).here = { k with ctl := (k.ctl.setPred d v).stepPc } := by
  have hh : (s.settled.setCore s.seat.core k).here = k := by simp
  refine ⟨answers (u := s.settled.setCore s.seat.core k) hq rfl ?_ rfl d v, ?_⟩
  · rw [hh, hk]
    simp
  · rw [State.resultQ_eq, hh]
    exact (State.here_setCore _ _ _).trans (if_pos rfl)

/-- A core whose task has started the matrix sequencer (R69, R374). -/
def Core.matrixForked (tgt : BitVec 14) (k : Core) : Core :=
  { k with
    mx := { k.mx with active := true, halt := false, pc := tgt.toNat, chain := k.ctl.chain, fcode := 0 }
    chains := k.chains.put k.ctl.chain { k.chain k.ctl.chain with forkM := true } }

/-- A core whose task has started the stream sequencer, with a snapshot of its registers (R69, R132). -/
def Core.streamForked (tgt : BitVec 14) (snap : List Word) (k : Core) : Core :=
  { k with
    ss := { active := true, halt := false, pc := tgt.toNat, chain := k.ctl.chain, snap := snap }
    chains := k.chains.put k.ctl.chain { k.chain k.ctl.chain with forkS := true } }

theorem forkMatrix_of (h : Issues s g [.q d]) (hu : Unordered s) : exec (.forkMatrix g d tgt) s = .next
    (if s.here.mx.active then s.settled.resultQ d false
    else (s.settled.setCore s.seat.core (s.settled.here.matrixForked tgt)).resultQ d true) := by
  rw [exec_forkMatrix, execForkMatrix, control_of_issues h, State.settling_of_unordered hu]
  simp only [State.settled_here, State.modMx_eq, State.settled_seat, State.setCore_seat, State.modChain_setCore,
    State.settled_core, if_true]
  rfl

theorem forkStream_of (h : Issues s g (.q d :: allRegs.map .g)) (hu : Unordered s) :
    exec (.forkStream g d tgt) s = .next
    (if s.here.ss.active then s.settled.resultQ d false
    else (s.settled.setCore s.seat.core (s.settled.here.streamForked tgt (allRegs.map s.reg))).resultQ d true) := by
  have hsnap : allRegs.map s.settled.reg = allRegs.map s.reg := List.map_congr_left (fun r _ => State.settled_reg r)
  rw [exec_forkStream, execForkStream, control_of_issues h, State.settling_of_unordered hu]
  simp only [State.settled_here, State.modHere_eq, State.settled_seat, State.setCore_seat, State.modChain_setCore, hsnap]
  rfl

/-- A refused fork writes false and changes nothing of the core but the task. -/
theorem fork_refused (hq : s.seat.seq = .control) : AnswersPred d false s (s.settled.resultQ d false)
    ∧ (s.settled.resultQ d false).here.mx = s.here.mx ∧ (s.settled.resultQ d false).here.ss = s.here.ss := by
  refine ⟨answers (u := s.settled) hq rfl (by simp) rfl d false, ?_, ?_⟩ <;> simp [State.resultQ_eq]

theorem forkMatrix_answers (h : Issues s g [.q d]) (hu : Unordered s) :
    Completes (.forkMatrix g d tgt) s (fun t => AnswersPred d (!s.here.mx.active) s t
      ∧ (s.here.mx.active = true → t.here.mx = s.here.mx)
      ∧ (s.here.mx.active = false → t.here.mx = { s.here.mx with
            active := true, halt := false, pc := tgt.toNat, chain := s.here.ctl.chain, fcode := 0 }
        ∧ (t.here.chain s.here.ctl.chain).forkM = true)) := by
  refine ⟨_, forkMatrix_of h hu, ?_⟩
  cases hm : s.here.mx.active
  · rw [if_neg (by decide)]
    obtain ⟨ha, hh⟩ := settled_answers (d := d) h.1 (s.settled.here.matrixForked tgt) rfl true
    refine ⟨ha, fun hc => absurd hc (by decide), fun _ => ?_⟩
    rw [hh, State.settled_here]
    exact ⟨rfl, congrArg _ (Tbl.get_put_self ..)⟩
  · rw [if_pos rfl]
    obtain ⟨ha, hmx, -⟩ := fork_refused (d := d) h.1
    exact ⟨ha, fun _ => hmx, fun hc => absurd hc (by decide)⟩

theorem forkStream_answers (h : Issues s g (.q d :: allRegs.map .g)) (hu : Unordered s) :
    Completes (.forkStream g d tgt) s (fun t => AnswersPred d (!s.here.ss.active) s t
      ∧ (s.here.ss.active = true → t.here.ss = s.here.ss)
      ∧ (s.here.ss.active = false → t.here.ss = {
            active := true, halt := false, pc := tgt.toNat, chain := s.here.ctl.chain, snap := allRegs.map s.reg }
        ∧ (t.here.chain s.here.ctl.chain).forkS = true)) := by
  refine ⟨_, forkStream_of h hu, ?_⟩
  cases hm : s.here.ss.active
  · rw [if_neg (by decide)]
    obtain ⟨ha, hh⟩ := settled_answers (d := d) h.1 (s.settled.here.streamForked tgt (allRegs.map s.reg)) rfl true
    refine ⟨ha, fun hc => absurd hc (by decide), fun _ => ?_⟩
    rw [hh, State.settled_here]
    exact ⟨rfl, congrArg _ (Tbl.get_put_self ..)⟩
  · rw [if_pos rfl]
    obtain ⟨ha, -, hss⟩ := fork_refused (d := d) h.1
    exact ⟨ha, fun _ => hss, fun hc => absurd hc (by decide)⟩
end

/-- Settles O18: `safe` by what is pending, `waitc` by its test, a fork after the ordered-domain check. -/
theorem safePointsTestsAndForks : Obligations.SafePointsTestsAndForks := by
  unfold Obligations.SafePointsTestsAndForks
  refine fun s g live d tgt ld st cp mt => ⟨fun h => ⟨fun hn => ⟨_, safe_goes_on h live hn, pastSafe_frame h.1⟩,
      safe_halts h live, fun hh hd hp n x hn hx => safe_suspends h live hh hd hp hn hx⟩,
    fun h => ⟨⟨_, by rw [exec_waitc, execWaitc, control_of_issues h], ?_⟩,
      irrevocableFirst_of_settling h (fun _ => rfl) rfl rfl, forkMatrix_answers h⟩,
    fun h => ⟨irrevocableFirst_of_settling h (fun _ => rfl) rfl rfl, forkStream_answers h⟩⟩
  rw [waitTest_eq]
  exact State.resultQ_writes h.1 _ _

end Sys2Proof.Machine
end


section
/-!
O34: the drain of a read, and the completion of a matrix word (R72, R76, R102, R112, R149, R390).
-/

namespace Sys2Proof.Machine

variable {s : State} {c : Nat}

/-! ## The drain of a read (R390) -/

/-- The token of a core's output buffer may enter its sink port (R76, R149). -/
def MayDrain (s : State) (c : Nat) (x : Token) : Prop :=
  (s.core c).frozen = false ∧ s.nameAhead c (32 + (s.core c).mx.oport) = true
    ∧ (merges ((s.core c).port (16 + (s.core c).mx.oport)).buf x = true
      ∨ ((s.core c).port (16 + (s.core c).mx.oport)).buf.length + ((s.core c).port (16 + (s.core c).mx.oport)).resv < 8)

theorem not_mayDrain_iff (s : State) (c : Nat) (x : Token) : ¬ MayDrain s c x ↔
    ((s.core c).frozen || !(merges ((s.core c).port (16 + (s.core c).mx.oport)).buf x
        || decide (((s.core c).port (16 + (s.core c).mx.oport)).buf.length
          + ((s.core c).port (16 + (s.core c).mx.oport)).resv < 8))
      || !s.nameAhead c (32 + (s.core c).mx.oport)) = true := by
  unfold MayDrain
  cases (s.core c).frozen
  · cases s.nameAhead c (32 + (s.core c).mx.oport)
    · simp
    · cases merges ((s.core c).port (16 + (s.core c).mx.oport)).buf x <;> simp
  · simp

section
variable {x : Token} {r : List Token} (hc : (s.core c).mx.copy = none) (ho : (s.core c).mx.obuf = x :: r)
include hc ho

theorem mrdOutputDrain_waits (h : ¬ MayDrain s c x) : exec (.mrdOutputDrain c) s = .next s := by
  rw [exec_mrdOutputDrain, execMrdOutputDrain]
  simp only [hc, ho]
  exact if_pos ((not_mayDrain_iff s c x).1 h)

theorem mrdOutputDrain_drains (h : MayDrain s c x) : exec (.mrdOutputDrain c) s =
    .next ((s.modMx c (fun m => { m with obuf := r })).sinkPut c (s.core c).mx.oport x) := by
  rw [exec_mrdOutputDrain, execMrdOutputDrain]
  simp only [hc, ho]
  exact if_neg (fun hb => (not_mayDrain_iff s c x).2 hb h)
end

/-- A token put into a sink port stands at its end; of the core nothing else differs but lanes (R76). -/
theorem State.sinkPut_core (s : State) (c p : Nat) (x : Token) :
    (s.sinkPut c p x).mem = s.mem ∧ ∃ l, (s.sinkPut c p x).core c = { s.core c with
      ports := (s.core c).ports.put (16 + p)
        { (s.core c).port (16 + p) with buf := pushTok ((s.core c).port (16 + p)).buf x }
      lanes := l } := by
  obtain ⟨-, hmem, -, -, hcore, -⟩ := observe_lanes
    (s.modPort c (16 + p) (fun y => { y with buf := pushTok y.buf x })) c (32 + p) x
  refine ⟨hmem, ((s.sinkPut c p x).core c).lanes, (hcore c).trans ?_⟩
  rw [State.modPort_eq, State.core_setCore, if_pos rfl]
  rfl

theorem mrdOutputDrain_moves {x : Token} {r : List Token} (hc : (s.core c).mx.copy = none)
    (ho : (s.core c).mx.obuf = x :: r) (h : MayDrain s c x) : Completes (.mrdOutputDrain c) s (fun t =>
      (t.core c).mx = { (s.core c).mx with obuf := r }
      ∧ ((t.core c).port (16 + (s.core c).mx.oport)).buf = pushTok ((s.core c).port (16 + (s.core c).mx.oport)).buf x
      ∧ (t.core c).ctl = (s.core c).ctl ∧ MemoryKept s t) := by
  obtain ⟨hmem, l, e⟩ := State.sinkPut_core (s.modMx c (fun m => { m with obuf := r })) c (s.core c).mx.oport x
  rw [State.modMx_eq, State.core_setCore, if_pos rfl] at e
  refine ⟨_, mrdOutputDrain_drains hc ho h, ?_⟩
  rw [State.modMx_eq] at hmem ⊢
  refine ⟨by rw [e], ?_, by rw [e], fun a => by rw [hmem]; rfl⟩
  rw [e, Core.port, Tbl.get_put_self]
  rfl

/-! ## The completion of a word (R102) -/

/-- The model's test whether a word's effect is complete. -/
def doneWord (s : State) (c : Nat) (w : MWord) : Bool :=
  let m := (s.core c).mx
  if w.kind = wProduct then !(m.todo ++ m.pass).any (fun f => f.word == w.id)
  else if w.kind = wRead ∨ w.kind = wReadDrain then m.oword != w.id || (m.obuf.isEmpty && m.copy.isNone)
  else if w.kind = wCoop then m.coopW.isNone
    || (List.range 96).all (fun k => m.coopN ≤ (s.core (clusterOf c * 96 + k)).mx.coopN)
  else true

theorem doneWord_iff (s : State) (c : Nat) (w : MWord) : doneWord s c w = true ↔ WordDone s c w := by
  unfold doneWord WordDone
  by_cases hp : w.kind = wProduct
  · simp [hp, wProduct, wRead, wReadDrain, wCoop, or_imp, forall_and]
  by_cases hr : w.kind = wRead ∨ w.kind = wReadDrain
  · have hcoop : w.kind ≠ wCoop := by rintro h; rw [h] at hr; revert hr; decide
    simp only [hp, hr, hcoop, if_false, if_true, false_implies, true_implies, true_and, and_true]
    by_cases h : (s.core c).mx.oword = w.id <;> simp [h]
  by_cases hk : w.kind = wCoop
  · rw [if_neg hp, if_neg hr, if_pos hk]
    simp only [hp, hr, false_implies, true_and]
    cases (s.core c).mx.coopW <;> simp [hk]
  · simp [hp, hr, hk]

/-- The unit once a word has completed (R102, R112, R375). -/
def Mx.completed (m : Mx) (w : MWord) : Mx :=
  { m with
    words := m.words.filter (fun x => x.id != w.id), flags := m.flags ||| w.flags
    coop := if w.kind = wCoop then m.coopW.getD m.coop else m.coop
    coopW := if w.kind = wCoop then none else m.coopW }

theorem matrixWordComplete_of_done {w : MWord} (h : (s.core c).mx.words.find? (doneWord s c) = some w) :
    exec (.matrixWordComplete c) s = .next (s.setCore c { s.core c with
      mx := (s.core c).mx.completed w
      chains := (s.core c).chains.put w.chain
        { (s.core c).chain w.chain with mt := ((s.core c).chain w.chain).mt - 1 } }) := by
  rw [exec_matrixWordComplete]
  unfold execMatrixWordComplete
  dsimp only
  split
  next hn => exact absurd (h.symm.trans hn) (by simp)
  next v hv =>
    obtain rfl : w = v := Option.some.inj (h.symm.trans hv)
    rw [State.modMx_eq, State.modChain_setCore]
    unfold Mx.completed
    by_cases hk : w.kind = wCoop
    · cases (s.core c).mx.coopW <;> simp [hk] <;> rfl
    · simp only [if_neg hk]
      rfl

theorem matrixWordComplete_none (h : ∀ w ∈ (s.core c).mx.words, ¬ WordDone s c w) :
    exec (.matrixWordComplete c) s = .next s := by
  have hnone : (s.core c).mx.words.find? (doneWord s c) = none :=
    List.find?_eq_none.2 (fun w hw hd => h w hw ((doneWord_iff s c w).1 hd))
  rw [exec_matrixWordComplete]
  unfold execMatrixWordComplete
  dsimp only
  split
  next => rfl
  next v hv => exact absurd (hnone.symm.trans hv) (by simp)

/-- The first word that is done is the one found, and the only one with its identifier. -/
theorem firstDone {pre post : List MWord} {w : MWord} (hw : (s.core c).mx.words = pre ++ w :: post)
    (hid : ∀ x ∈ pre ++ post, x.id ≠ w.id) (hpre : ∀ x ∈ pre, ¬ WordDone s c x) (hd : WordDone s c w) :
    (s.core c).mx.words.find? (doneWord s c) = some w
      ∧ (s.core c).mx.words.filter (fun x => x.id != w.id) = pre ++ post := by
  have hkeep : ∀ l : List MWord, (∀ x ∈ l, x.id ≠ w.id) → l.filter (fun x : MWord => x.id != w.id) = l :=
    fun l hl => List.filter_eq_self.2 (fun x hx => by simpa using hl x hx)
  rw [hw]
  refine ⟨?_, ?_⟩
  · rw [List.find?_append, List.find?_eq_none.2 (fun x hx h => hpre x hx ((doneWord_iff s c x).1 h)), Option.none_or,
      List.find?_cons_of_pos ((doneWord_iff s c w).2 hd)]
  · rw [List.filter_append, List.filter_cons_of_neg (by simp), hkeep pre (fun x hx => hid x (by simp [hx])),
      hkeep post (fun x hx => hid x (by simp [hx]))]

/-- Settles O34: the drain by what may enter the port, the completion by the first word that is done. -/
theorem matrixWordsComplete : Obligations.MatrixWordsComplete := by
  unfold Obligations.MatrixWordsComplete
  refine fun s c => ⟨fun x r hc ho => ⟨mrdOutputDrain_moves hc ho, mrdOutputDrain_waits hc ho⟩,
    fun pre w post hw hid hpre hd => ?_, matrixWordComplete_none⟩
  obtain ⟨hfind, hwords⟩ := firstDone hw hid hpre hd
  refine ⟨_, matrixWordComplete_of_done hfind, ?_⟩
  beta_reduce
  rw [State.core_setCore, if_pos rfl]
  refine ⟨?_, congrArg _ (Tbl.get_put_self ..), rfl, fun a => rfl⟩
  rw [Mx.completed, hwords]

end Sys2Proof.Machine
end


section
/-! O39: what a turn fetches, and on which sequencer a table word runs. -/
namespace Sys2Proof.Machine

/-- Every word that a decoder accepts is one of the sequencer's. -/
def DecodesFor (q : Seq) (r : Except Reject Instr) : Prop := ∀ i, r = .ok i → fetchSeq i = q

@[simp] theorem decodesFor_ok (q : Seq) (i : Instr) : DecodesFor q (.ok i) ↔ fetchSeq i = q :=
  ⟨fun h => h i rfl, fun h _ e => by cases e; exact h⟩

@[simp] theorem decodesFor_error (q : Seq) (e : Reject) : DecodesFor q (.error e) := fun _ h => nomatch h

theorem decodesFor_ite {q : Seq} {p : Prop} [Decidable p] {x y : Except Reject Instr}
    (hx : DecodesFor q x) (hy : DecodesFor q y) : DecodesFor q (if p then x else y) := by
  split <;> assumption

@[simp] theorem decodesFor_zeroed {q : Seq} {ok : Bool} {i : Instr} (h : fetchSeq i = q) :
    DecodesFor q (zeroed ok i) := decodesFor_ite ((decodesFor_ok q i).2 h) (decodesFor_error q _)

theorem decodeAlu_control (g : Guard) (d a b : Reg) (fn : BitVec 7) : DecodesFor .control (decodeAlu g d a b fn) := by
  unfold decodeAlu
  split
  all_goals simp [fetchSeq, Instr.kind, decodesFor_ite]

theorem decodeMajor_control (w : W32) : DecodesFor .control (decodeMajor w) := by
  unfold decodeMajor
  dsimp only
  split
  case h_1 => exact decodeAlu_control _ _ _ _ _
  all_goals (repeat' split) <;> simp [fetchSeq, Instr.kind]

theorem decodeControl_control (w : W32) : DecodesFor .control (decodeControl w) := by
  unfold decodeControl
  exact decodesFor_ite (decodesFor_error _ _) (decodesFor_ite (decodesFor_error _ _)
    (decodesFor_ite (decodesFor_error _ _) (decodeMajor_control w)))

theorem decodeMatrix_matrix (w : W32) : DecodesFor .matrix (decodeMatrix w) := by
  unfold decodeMatrix
  split
  all_goals (repeat' split) <;> simp [fetchSeq, Instr.kind]

/-- The stream sequencer's own reading is the join; its other words are the control sequencer's. -/
theorem decodeStream_ok {w : W32} {i : Instr} (h : decodeStream w = .ok i) :
    i = .endJoin ∨ decodeControl w = .ok i := by
  unfold decodeStream at h
  split at h
  · cases h
  next j hj =>
    rw [hj]
    split at h
    · cases h
    · grind

theorem moreFixed_some {x y : Option Instr} {i : Instr} (h : moreFixed x y = some i) : x = some i ∨ y = some i := by
  unfold moreFixed at h
  grind

theorem accepted_some {r : Except Reject Instr} {i : Instr} : accepted r = some i ↔ r = .ok i := by
  cases r <;> simp [accepted]

/-- The decoder of a sequencer. -/
def decodeOn : Seq → W32 → Except Reject Instr
  | .control => decodeControl
  | .matrix => decodeMatrix
  | .stream => decodeStream

/-- The reading that a table word is given is that of the sequencer on which it is placed. -/
theorem decodeOn_fetchSeq {w : Nat} {i : Instr} (h : decodeTableWord 32 w = some i) :
    decodeOn (fetchSeq i) (BitVec.ofNat 32 w) = .ok i := by
  have control (hi : decodeControl (BitVec.ofNat 32 w) = .ok i) :
      decodeOn (fetchSeq i) (BitVec.ofNat 32 w) = .ok i := by
    rw [decodeControl_control _ i hi]; exact hi
  unfold decodeTableWord at h
  split at h
  · rcases moreFixed_some h with h | h
    · rcases moreFixed_some h with h | h
      · exact control (accepted_some.1 h)
      · have hs := accepted_some.1 h
        rcases decodeStream_ok hs with rfl | hi
        · exact hs
        · exact control hi
    · have hm := accepted_some.1 h
      rw [decodeMatrix_matrix _ i hm]; exact hm
  · cases h

/-! What a turn runs. -/

theorem legal_ok {w : W32} {r : Except Reject Instr} {i : Instr} (h : r = .ok i) : legal w r = i := by
  rw [h]; rfl

theorem step_issue_run {s : State} {c : Nat} {q : Seq} {r : List Turn} {i : Instr} (ha : s.agenda = .issue c q :: r)
    (hc : c < numCores) (h : ({ s with agenda := r, seat := ⟨c, 0, q⟩ } : State).issue = .run i) :
    step s = exec i { s with agenda := r, seat := ⟨c, 0, q⟩ } := by
  have hn : s.nextTurn = (.issue c q, { s with agenda := r }) := by unfold State.nextTurn; rw [ha]
  have ht : ({ s with agenda := r } : State).turn (.issue c q)
      = (.run i, { s with agenda := r, seat := ⟨c, 0, q⟩ }) := by
    unfold State.turn State.sit
    dsimp only
    rw [if_pos hc, h]
  unfold step
  rw [hn, ht]

theorem issueControl_run {s : State} {i : Instr} (hs : s.here.ctl.slot ≠ none) (hk : s.here.ctl.killed = false)
    (hp : s.here.ctl.pc ≤ 16383) (hb : s.here.badWords.contains s.here.ctl.pc = false)
    (hd : decodeControl (s.here.word s.here.ctl.pc) = .ok i) : s.issueControl = .run i := by
  unfold State.issueControl
  dsimp only
  rw [if_neg (by simpa using hs), if_neg (by simp [hk]), if_neg (by omega), if_neg (Bool.eq_false_iff.1 hb), legal_ok hd]

theorem issueMatrix_run {s : State} {i : Instr} (ha : s.here.mx.active = true) (hh : s.here.mx.halt = false)
    (hf : s.here.frozen = false) (hp : s.here.mx.pc ≤ 16383) (hb : s.here.badWords.contains s.here.mx.pc = false)
    (hd : decodeMatrix (s.here.word s.here.mx.pc) = .ok i) : s.issueMatrix = .run i := by
  unfold State.issueMatrix
  dsimp only
  rw [if_neg (by simp [ha, hh, hf]), if_neg (by omega), if_neg (Bool.eq_false_iff.1 hb), legal_ok hd]

theorem issueStream_run {s : State} {i : Instr} (ha : s.here.ss.active = true) (hh : s.here.ss.halt = false)
    (hf : s.here.frozen = false) (hp : s.here.ss.pc ≤ 16383) (hb : s.here.badWords.contains s.here.ss.pc = false)
    (hd : decodeStream (s.here.word s.here.ss.pc) = .ok i) : s.issueStream = .run i := by
  unfold State.issueStream
  dsimp only
  rw [if_neg (by simp [ha, hh, hf]), if_neg (by omega), if_neg (Bool.eq_false_iff.1 hb), legal_ok hd]

theorem laneIssue_run {s : State} {i : Instr} (ha : s.here.rowArmed = true) (hf : s.here.frozen = false)
    (hs : (s.here.lane s.seat.lane).stopped = false) (hb : s.here.badCfg = false)
    (ho : (s.here.lane s.seat.lane).out = []) (hr : s.requested s.seat.core s.seat.lane = true)
    (hd : decodeLane (Tbl.get idleLaneWord s.here.region.lops s.seat.lane) = .ok (some i)) :
    s.laneIssue = .run i := by
  unfold State.laneIssue
  dsimp only
  rw [if_neg (by simp [ha, hf, hs]), if_neg (by simp [hb]), ho]
  dsimp only
  rw [if_neg (by simp [hr]), hd]

theorem step_lane_run {s : State} {c n : Nat} {r : List Turn} {i : Instr} (ha : s.agenda = .lane c n :: r)
    (hc : c < numCores) (h : ({ s with agenda := r, seat := ⟨c, n, .control⟩ } : State).laneIssue = .run i) :
    step s = exec i { s with agenda := r, seat := ⟨c, n, .control⟩ } := by
  have hn : s.nextTurn = (.lane c n, { s with agenda := r }) := by unfold State.nextTurn; rw [ha]
  have ht : ({ s with agenda := r } : State).turn (.lane c n)
      = (.run i, { s with agenda := r, seat := ⟨c, n, .control⟩ }) := by
    unfold State.turn State.sitLane
    dsimp only
    rw [if_pos hc, h]
  unfold step
  rw [hn, ht]

theorem step_event_run {s : State} {r : List Turn} {i : Instr} (ha : s.agenda = .event i :: r)
    (hk : i.kind = .event) (hw : i.wf = true) : step s = exec i { s with agenda := r } := by
  have hn : s.nextTurn = (.event i, { s with agenda := r }) := by unfold State.nextTurn; rw [ha]
  unfold step
  rw [hn]
  dsimp only [State.turn]
  rw [if_pos ⟨hk, hw⟩]

/-! A placed word is the one that its sequencer fetches. -/

/-- The state in which a placed word runs: the turn is taken from the agenda and the sequencer sits at core 0. -/
def State.placed (s : State) (w : W32) (q : Seq) : State :=
  { s.placeWord w q with agenda := [], seat := ⟨0, 0, q⟩ }

theorem State.here_placed (s : State) (w : W32) (q : Seq) : (s.placed w q).here =
    { (s.core 0).runAt0 q with
      store := (s.core 0).store.put 0 w, badWords := (s.core 0).badWords.filter (fun a => a != 0) } :=
  Tbl.get_put_self _ _ _ _

theorem State.word_placed (s : State) (w : W32) (q : Seq) : (s.placed w q).here.word 0 = w := by
  rw [State.here_placed]
  exact Tbl.get_put_self _ _ _ _

theorem State.badWords_placed (s : State) (w : W32) (q : Seq) : (s.placed w q).here.badWords.contains 0 = false := by
  rw [State.here_placed]
  simp

theorem State.issue_placed {s : State} {w : W32} {q : Seq} {i : Instr} (hd : decodeOn q w = .ok i) :
    (s.placed w q).issue = .run i := by
  have hh := s.here_placed w q
  have hb := s.badWords_placed w q
  have hw := s.word_placed w q
  cases q with
  | control =>
    have hpc : (s.placed w .control).here.ctl.pc = 0 := by rw [hh]; rfl
    exact issueControl_run (by rw [hh]; exact Option.some_ne_none _) (by rw [hh]; rfl) (by omega)
      (hpc ▸ hb) (by rw [hpc, hw]; exact hd)
  | matrix =>
    have hpc : (s.placed w .matrix).here.mx.pc = 0 := by rw [hh]; rfl
    exact issueMatrix_run (by rw [hh]; rfl) (by rw [hh]; rfl) (by rw [hh]; rfl) (by omega)
      (hpc ▸ hb) (by rw [hpc, hw]; exact hd)
  | stream =>
    have hpc : (s.placed w .stream).here.ss.pc = 0 := by rw [hh]; rfl
    exact issueStream_run (by rw [hh]; rfl) (by rw [hh]; rfl) (by rw [hh]; rfl) (by omega)
      (hpc ▸ hb) (by rw [hpc, hw]; exact hd)

theorem step_withFetchWord {s : State} {w : Nat} {i : Instr} (h : decodeTableWord 32 w = some i) :
    step (s.withFetchWord 32 w) = exec i (s.placed (BitVec.ofNat 32 w) (fetchSeq i)) := by
  have hf : s.withFetchWord 32 w = s.placeWord (BitVec.ofNat 32 w) (fetchSeq i) := by
    unfold State.withFetchWord; rw [h]
  rw [hf]
  exact step_issue_run rfl (by decide) (State.issue_placed (decodeOn_fetchSeq h))

/-- Settles O39: each kind of turn runs what its own fetch reads, and a placed word is fetched by the sequencer whose
decoder accepts it. -/
theorem stepRunsDecodedInstruction : Obligations.StepRunsDecodedInstruction := by
  unfold Obligations.StepRunsDecodedInstruction
  refine ⟨?control, ?matrix, ?stream, ?lane, ?event, ?placed⟩
  case control =>
    intro s c r i ha hc hs hk hp hb hd
    exact step_issue_run ha hc (issueControl_run hs hk hp hb hd)
  case matrix =>
    intro s c r i ha hc hact hh hf hp hb hd
    exact step_issue_run ha hc (issueMatrix_run hact hh hf hp hb hd)
  case stream =>
    intro s c r i ha hc hact hh hf hp hb hd
    exact step_issue_run ha hc (issueStream_run hact hh hf hp hb hd)
  case lane =>
    intro s c n r i ha hc harm hf hs hb ho hr hd
    exact step_lane_run ha hc (laneIssue_run harm hf hs hb ho hr hd)
  case event =>
    intro s r i ha hk hw
    exact step_event_run ha hk hw
  case placed =>
    intro s w i h
    exact ⟨_, s.word_placed _ _, rfl, step_withFetchWord h⟩

end Sys2Proof.Machine
end


section
/-! O44: what the machine reads right after reset. -/
namespace Sys2Proof.Machine

/-- Reset lists no core, so each reads as the default one. -/
theorem State.reset_core (c : Nat) : State.reset.core c = {} := rfl

theorem State.reset_reg (r : Reg) : State.reset.reg r = 0 := by
  change (if r = 0 then 0 else 0) = (0 : Word)
  exact ite_self 0

theorem State.reset_pred (p : Pred) : State.reset.pred p = (p == 0) := by
  change (if p = 0 then true else false) = (p == 0)
  by_cases h : p = 0
  · rw [if_pos h]; exact (beq_iff_eq.2 h).symm
  · rw [if_neg h]; exact (beq_eq_false_iff_ne.2 h).symm

/-- Settles O44: reset lists nothing, so every table reads its default entry. -/
theorem resetState : Obligations.ResetState := by
  unfold Obligations.ResetState
  refine ⟨fun c => ?core, fun _ => ⟨rfl, rfl, rfl, rfl, rfl⟩, fun _ => ⟨rfl, rfl⟩, rfl, rfl, rfl, rfl,
    State.reset_reg, State.reset_pred, fun _ => rfl, State.wf_reset⟩
  case core =>
    have mstat : Mx.stat {} = 0 := by decide
    have word (pc : Nat) : (State.reset.core c).word pc = 0 := rfl
    have counters (ch : Nat) : ((State.reset.core c).chain ch).ld = 0 ∧ ((State.reset.core c).chain ch).st = 0
        ∧ ((State.reset.core c).chain ch).cp = 0 ∧ ((State.reset.core c).chain ch).mt = 0 := ⟨rfl, rfl, rfl, rfl⟩
    have poison (i : Nat) : Tbl.get false (State.reset.core c).mx.pin i = false
        ∧ Tbl.get false (State.reset.core c).mx.pout i = false := ⟨rfl, rfl⟩
    have port (p : Nat) : ((State.reset.core c).port p).desc = none ∧ ((State.reset.core c).port p).posted = 0
        ∧ ((State.reset.core c).port p).read = 0 := ⟨rfl, rfl, rfl⟩
    exact ⟨rfl, rfl, rfl, rfl, mstat, rfl, rfl, rfl, rfl, rfl, rfl, rfl, word, counters,
      rfl, rfl, rfl, rfl, rfl, rfl, rfl, rfl, poison, port⟩

end Sys2Proof.Machine
end


section
/-!
O45: the scheduler's events (R53, R60, R61, R63, R68, R74, R172, R237, R246).
-/

namespace Sys2Proof.Machine

variable {s : State} {c n : Nat} {x : Slot}

/-! ## Dispatch (R53, R60, R61) -/

theorem State.trap_mem_seat (s : State) (cause : Nat) (ev : Word) :
    (s.trap cause ev).mem = s.mem ∧ (s.trap cause ev).seat = s.seat := by
  obtain ⟨y, hy, hs⟩ := State.trap_shape s cause ev
  obtain ⟨hseat, hmem, -, -, -⟩ := State.trap_registers s cause ev _
    (State.reportCore_same s s.seat.core 0 cause false s.here.ctl.pc ev)
  obtain ⟨-, -, -, -, -, yseat, ymem⟩ := hy
  have idle_mem : (y.modCtl s.seat.core Ctl.idle).mem = s.mem := ymem.trans hmem
  have idle_seat : (y.modCtl s.seat.core Ctl.idle).seat = s.seat := yseat.trans hseat
  rcases hs with hs | hs
  · rw [hs]; exact ⟨idle_mem, idle_seat⟩
  · obtain ⟨-, -, -, -, -, fseat, fmem⟩ :=
      State.faultUnit_keeps (y.modCtl s.seat.core Ctl.idle) s.seat.core s.seat.core s.here.ctl.chain
    rw [hs]
    exact ⟨fmem.trans idle_mem, fseat.trans idle_seat⟩

/-- The core with a slot's task running on it (R53, R55). -/
def Core.started (k : Core) (c n run : Nat) (x : Slot) : Core :=
  { k with
    slots := k.slots.put n { x with st := .running, irrev := x.irrev || x.st == .waitOldest, oldAt := none }
    ctl := { slot := some n, run := run, pc := x.start.toNat, g := startRegs x.carry
             task := taskWord c x.start (k.task x.idx) x.how x.idx, stamp := x.stamp, chain := x.chain
             work := { irrev := x.irrev || x.st == .waitOldest } } }

/-- The state in which a slot's task has been given the core, before the tests that may trap it. -/
def State.started (s : State) (c n : Nat) (x : Slot) : State :=
  ((s.sit c .control).setCore c ((s.core c).started c n s.fresh x)).next

theorem State.core_started (s : State) (c n : Nat) (x : Slot) :
    (s.started c n x).core c = (s.core c).started c n s.fresh x :=
  Tbl.get_put_self _ _ _ _

/-- The tests of a dispatch in their order. -/
theorem State.startSlot_eq (s : State) (c n : Nat) (x : Slot) : s.startSlot c n x =
    (if (s.core c).badTasks.contains x.idx then (s.started c n x).trap 22 (Config.structureNumber 1)
    else if ((s.core c).task x.idx).ord then
      match s.launches.find ((s.core c).chain x.chain).launch with
      | some l => match l.last with
        | some y => if x.stamp.toNat < y.1 then (s.started c n x).trap 12 x.stamp else s.started c n x
        | none => s.started c n x
      | none => s.started c n x
    else s.started c n x) := rfl

theorem State.startSlot_bad (h : (s.core c).badTasks.contains x.idx = true) :
    s.startSlot c n x = (s.started c n x).trap 22 (Config.structureNumber 1) := if_pos h

theorem State.startSlot_late (hb : (s.core c).badTasks.contains x.idx = false)
    (h : Late s c x ((s.core c).chain x.chain).launch) :
    s.startSlot c n x = (s.started c n x).trap 12 x.stamp := by
  obtain ⟨hord, l, y, hl, hlast, hlt⟩ := h
  rw [State.startSlot_eq, if_neg (Bool.eq_false_iff.1 hb), if_pos hord, hl]
  dsimp only
  rw [hlast]
  exact if_pos hlt

theorem State.startSlot_started (hb : (s.core c).badTasks.contains x.idx = false)
    (h : ¬ Late s c x ((s.core c).chain x.chain).launch) : s.startSlot c n x = s.started c n x := by
  rw [State.startSlot_eq, if_neg (Bool.eq_false_iff.1 hb)]
  split
  next hord =>
    split
    next l hl =>
      split
      next y hy => exact if_neg (fun hlt => h ⟨hord, l, y, hl, hy, hlt⟩)
      · rfl
    · rfl
  · rfl

theorem State.started_trap (s : State) (c n : Nat) (x : Slot) (cause : Nat) (ev : Word) :
    DispatchTraps c cause ev s ((s.started c n x).trap cause ev) := by
  obtain ⟨hcause, -, hevalue, hslot, -⟩ := (s.started c n x).trap_traps cause ev
  obtain ⟨hmem, hseat⟩ := (s.started c n x).trap_mem_seat cause ev
  have here : ((s.started c n x).trap cause ev).here = ((s.started c n x).trap cause ev).core c := by
    rw [State.here, hseat]; rfl
  rw [here] at hcause hevalue hslot
  exact ⟨hcause, hevalue, hslot, hmem⟩

/-- A dispatch that starts the slot's task in a state that differs from the first in what the entry's new chain and its
age are. -/
theorem dispatches_of {i : Instr} {u : State} {ch : Tbl Chain} {ag : List Nat} {run launch : Nat} {P : State → Prop}
    (e : exec i s = .next (u.startSlot c n x)) (hk : u.core c = { s.core c with chains := ch, agedE := ag })
    (hl : u.launches = s.launches) (hm : u.mem = s.mem) (hf : u.fresh = run)
    (hch : ((u.core c).chain x.chain).launch = launch) (hP : P (u.started c n x)) :
    Dispatches i c n x run launch s P := by
  have hbad : (u.core c).badTasks = (s.core c).badTasks := by rw [hk]
  have hlate : Late u c x ((u.core c).chain x.chain).launch ↔ Late s c x launch := by
    unfold Late
    rw [hch, hl, hk]
    rfl
  have traps (cause : Nat) (ev : Word) : DispatchTraps c cause ev s ((u.started c n x).trap cause ev) := by
    obtain ⟨hcause, hevalue, hslot, hmem⟩ := u.started_trap c n x cause ev
    exact ⟨hcause, hevalue, hslot, hmem.trans hm⟩
  refine ⟨fun hb => ?bad, fun hb h => ?late, fun hb h => ?starts⟩
  case bad => exact ⟨_, e.trans (congrArg _ (State.startSlot_bad (hbad ▸ hb))), traps 22 _⟩
  case late => exact ⟨_, e.trans (congrArg _ (State.startSlot_late (hbad ▸ hb) (hlate.2 h))), traps 12 _⟩
  case starts =>
    refine ⟨_, e.trans (congrArg _ (State.startSlot_started (hbad ▸ hb) (fun g => h (hlate.1 g)))), ⟨?_, ?_, hm⟩, hP⟩
    · rw [State.core_started, hk, hf]; rfl
    · rw [State.core_started, hk]; rfl

theorem execTaskDispatch_of (h : MayDispatch s c) : execTaskDispatch c s =
    match (s.core c).slots.findSome? (fun x => x.2.saved.map (fun t => (x.1, t))) with
    | some (n, t) => .next (s.reinstall c n t)
    | none => match least (s.runnable c) with
    | none => .next s
    | some (_, .slot n) =>
      match (s.core c).slots.find n with
      | some x => .next (s.startSlot c n x)
      | none => .next s
    | some (_, .entry e) =>
      match (s.core c).freeSlot, ((s.core c).vc ((s.core c).task e).vc.toNat).q with
      | some n, t :: _ => .next ((s.modCore c (fun k => { k with
          chains := k.chains.put s.fresh { idx := e, launch := k.launch }
          agedE := k.agedE.filter (· != e) })).next.startSlot c n
          { start := ((s.core c).task e).entry, idx := e, how := 0
            stamp := ((s.core c).task e).sbase + BitVec.ofNat 64 (t.n * ((s.core c).task e).sinc.toNat)
            chain := s.fresh, since := ((s.core c).triggered e).getD 0, aged := (s.core c).agedE.contains e })
      | _, _ => .next s := by
  obtain ⟨hslot, hpre, hfrozen, hpart, hsubs⟩ := h
  have hres : s.resyncing c = false := by
    unfold State.resyncing
    simpa [List.any_eq_false] using hsubs
  have hp : ((s.part (s.core c).part).pre != .running) = false := by rw [hpart]; rfl
  unfold execTaskDispatch
  dsimp only
  rw [if_neg (by simp [hslot, hpre, hfrozen, hp, hres])]
  rfl

theorem findSome_saved_eq_none {t : Tbl Slot} (h : ∀ y ∈ t, y.2.saved = none) :
    t.findSome? (fun y => y.2.saved.map (fun a => (y.1, a))) = none :=
  List.findSome?_eq_none_iff.2 fun y hy => by rw [h y hy]; rfl

theorem taskDispatch_slot {key : List Nat} (h : MayDispatch s c) (hsaved : ∀ y ∈ (s.core c).slots, y.2.saved = none)
    (hl : least (s.runnable c) = some (key, .slot n)) (hx : (s.core c).slots.find n = some x) :
    Dispatches (.taskDispatch c) c n x s.fresh ((s.core c).chain x.chain).launch s (fun _ => True) := by
  refine dispatches_of (u := s) ?_ rfl rfl rfl rfl rfl trivial
  rw [exec_taskDispatch, execTaskDispatch_of h, findSome_saved_eq_none hsaved]
  dsimp only
  rw [hl]
  dsimp only
  rw [hx]

/-- The chain of a unit that a channel's word has started, on its core. -/
def State.entryChain (s : State) (c e : Nat) : State :=
  (s.modCore c (fun k => { k with
    chains := k.chains.put s.fresh { idx := e, launch := k.launch }
    agedE := k.agedE.filter (· != e) })).next

theorem State.core_entryChain (s : State) (c e : Nat) : (s.entryChain c e).core c = { s.core c with
    chains := (s.core c).chains.put s.fresh { idx := e, launch := (s.core c).launch }
    agedE := (s.core c).agedE.filter (· != e) } :=
  Tbl.get_put_self _ _ _ _

theorem State.chain_entryChain (s : State) (c e : Nat) :
    ((s.entryChain c e).core c).chain s.fresh = { idx := e, launch := (s.core c).launch } := by
  rw [State.core_entryChain]
  exact Tbl.get_put_self _ _ _ _

theorem taskDispatch_entry {key : List Nat} {e : Nat} {t : VcToken} {r : List VcToken} (h : MayDispatch s c)
    (hsaved : ∀ y ∈ (s.core c).slots, y.2.saved = none) (hl : least (s.runnable c) = some (key, .entry e))
    (hn : (s.core c).freeSlot = some n) (hq : ((s.core c).vc ((s.core c).task e).vc.toNat).q = t :: r)
    (hx : x = { start := ((s.core c).task e).entry, idx := e, how := 0, chain := s.fresh
                stamp := ((s.core c).task e).sbase + BitVec.ofNat 64 (t.n * ((s.core c).task e).sinc.toNat)
                since := ((s.core c).triggered e).getD 0, aged := (s.core c).agedE.contains e }) :
    Dispatches (.taskDispatch c) c n x (s.fresh + 1) (s.core c).launch s
      (fun u => (u.core c).chain s.fresh = { idx := e, launch := (s.core c).launch }) := by
  have hchain : x.chain = s.fresh := by rw [hx]
  refine dispatches_of (u := s.entryChain c e) ?_ (s.core_entryChain c e) rfl rfl rfl ?_ ?_
  · rw [exec_taskDispatch, execTaskDispatch_of h, findSome_saved_eq_none hsaved]
    dsimp only
    rw [hl]
    dsimp only
    rw [hn, hq, hx]
    rfl
  · rw [hchain, State.chain_entryChain]
  · rw [State.core_started]
    exact s.chain_entryChain c e

theorem taskDispatch_suspended {a : Ctl} (h : MayDispatch s c)
    (hs : (s.core c).slots.findSome? (fun y => y.2.saved.map (fun a => (y.1, a))) = some (n, a)) :
    Completes (.taskDispatch c) s (fun u => (u.core c).ctl = a ∧ u.mem = s.mem) := by
  refine ⟨s.reinstall c n a, ?_, ?_, rfl⟩
  · rw [exec_taskDispatch, execTaskDispatch_of h, hs]
  · unfold State.reinstall
    rw [State.modCore_eq, State.core_setCore, if_pos rfl]

/-! ## Aging and waking (R60, R63, R74) -/

theorem State.modSlot_of_find {f : Slot → Slot} (h : (s.core c).slots.find n = some x) :
    s.modSlot c n f = s.setCore c { s.core c with slots := (s.core c).slots.put n (f x) } := by
  unfold State.modSlot
  rw [h]
  rfl

theorem instanceAged_slot (hx : (s.core c).slots.find n = some x) (hn : n < 64) (ha : x.aged = false)
    (hable : x.st = .ready
      ∨ x.st = .waitOldest ∧ s.oldest ((s.core c).chain x.chain).launch c n x.stamp = true)
    (ht : x.readyAt s.cycle + 65536 ≤ s.cycle) : exec (.instanceAged c n) s = .next (s.setCore c { s.core c with
      slots := (s.core c).slots.put n { x with aged := true, since := x.readyAt s.cycle } }) := by
  have able : (x.st == .ready
      || (x.st == .waitOldest && s.oldest ((s.core c).chain x.chain).launch c n x.stamp)) = true := by
    simpa using hable
  rw [exec_instanceAged, execInstanceAged, if_pos hn]
  dsimp only
  rw [hx]
  dsimp only
  rw [if_pos ⟨able, by rw [ha]; rfl, ht⟩, State.modSlot_of_find hx]

theorem Slot.readyAt_of_ready (h : x.st = .ready) (cyc : Nat) : x.readyAt cyc = x.since := by
  unfold Slot.readyAt
  rw [h]
  rfl

theorem Slot.readyAt_of_waitOldest {m : Nat} (h : x.st = .waitOldest) (ha : x.aged = false) (ho : x.oldAt = some m)
    (cyc : Nat) : x.readyAt cyc = m := by
  unfold Slot.readyAt
  rw [h, ha, ho]
  rfl

theorem instanceAged_entry {e : Nat} (ht : (s.core c).triggered e = some n) (hage : n + 65536 ≤ s.cycle)
    (ha : (s.core c).agedE.contains e = false) : exec (.instanceAged c (64 + e)) s =
      .next (s.setCore c { s.core c with agedE := e :: (s.core c).agedE }) := by
  have he : 64 + e - 64 = e := Nat.add_sub_cancel_left 64 e
  rw [exec_instanceAged, execInstanceAged, if_neg (by omega), he]
  dsimp only
  rw [ht]
  dsimp only
  rw [if_pos ⟨hage, by rw [ha]; rfl⟩]
  rfl

theorem continuationWake_wakes {w : WakeCode} (hx : (s.core c).slots.find n = some x) (hw : x.st = .waitWake w)
    (h : s.wakes c x w = true) : exec (.continuationWake c n) s = .next (s.setCore c { s.core c with
      slots := (s.core c).slots.put n { x with st := .ready, since := s.cycle } }) := by
  rw [exec_continuationWake, execContinuationWake, hx]
  dsimp only
  rw [hw]
  dsimp only
  rw [if_pos h, State.modSlot_of_find hx]

/-! ## The end of a pre-emption allowance (R237, R239) -/

theorem State.release_cycle (s : State) (c : Nat) (o : Out) : (s.release c o).cycle = s.cycle := by
  cases o <;> rfl

theorem State.giveBack_cycle (s : State) (c : Nat) (l : List (Nat × VcToken)) :
    (s.giveBack c l).cycle = s.cycle := by
  unfold State.giveBack
  generalize l.reverse = r
  induction r generalizing s with
  | nil => rfl
  | cons y r ih => exact ih _

theorem State.discard_cycle (s : State) (c : Nat) (w : Work) (back : Bool) : (s.discard c w back).cycle = s.cycle := by
  have outs (l : List Out) (u : State) : (l.foldl (fun s o => s.release c o) u).cycle = u.cycle := by
    induction l generalizing u with
    | nil => rfl
    | cons o r ih => rw [List.foldl_cons, ih, State.release_cycle]
  unfold State.discard
  cases back
  · exact outs w.outs s
  · exact (State.giveBack_cycle ..).trans (outs w.outs s)

theorem State.suspend_eq (hn : (s.core c).ctl.slot = some n) (hx : (s.core c).slots.find n = some x) (k : Ctl) :
    s.suspend c k = s.setCore c { s.core c with
      slots := (s.core c).slots.put n { x with st := .suspended, saved := some k }, ctl := (s.core c).ctl.idle } := by
  unfold State.suspend
  rw [hn]
  dsimp only
  rw [State.modSlot_of_find hx, State.modCtl_eq, State.setCore_setCore, State.core_setCore, if_pos rfl]

theorem execPreemptForcedStop_due {q : Nat} (hq : (s.core c).preempt = some q) (hdue : q + 4096 ≤ s.cycle)
    (hn : (s.core c).ctl.slot = some n) (hh : (s.core c).halted = none) : execPreemptForcedStop c s =
    if (s.core c).ctl.work.settled then .next (s.suspend c (s.core c).ctl) else .next (s.unwind c .ready) := by
  unfold execPreemptForcedStop
  dsimp only
  rw [hq]
  dsimp only
  rw [if_neg]
  simp [hn, hh, hdue]

/-- Settles O45, event by event. -/
theorem schedulerEvents : Obligations.SchedulerEvents := by
  unfold Obligations.SchedulerEvents
  intro s c n e x t r k
  refine ⟨?slot, ?entry, ?suspended, ?aged, ?agedEntry, ?wake, ?preempt⟩
  case slot => exact fun h hsaved ⟨key, hl⟩ hx => taskDispatch_slot h hsaved hl hx
  case entry => exact fun h hsaved ⟨key, hl⟩ hn hq hx => taskDispatch_entry h hsaved hl hn hq hx
  case suspended => exact fun a h hs => taskDispatch_suspended h hs
  case aged =>
    intro hx hn ha
    refine ⟨fun hr ht => ?_, fun m hw ho hm ht => ?_⟩
    · have hat := Slot.readyAt_of_ready hr s.cycle
      rw [instanceAged_slot hx hn ha (.inl hr) (by rw [hat]; exact ht), hat]
    · have hat := Slot.readyAt_of_waitOldest hw ha hm s.cycle
      rw [instanceAged_slot hx hn ha (.inr ⟨hw, ho⟩) (by rw [hat]; exact ht), hat]
  case agedEntry => exact instanceAged_entry
  case wake => exact fun w hx hw h => continuationWake_wakes hx hw h
  case preempt =>
    intro q hq hdue hn hx hh
    refine ⟨fun hset => ?_, fun hset houts => ?_⟩
    · rw [exec_preemptForcedStop, execPreemptForcedStop_due hq hdue hn hh, if_pos hset, State.suspend_eq hn hx]
    · obtain ⟨hctl, hmem, -, hslot⟩ := State.unwind_undone s c n x .ready hn hx houts
      rw [State.discard_cycle] at hslot
      refine ⟨_, ?_, hctl, hmem, hslot⟩
      rw [exec_preemptForcedStop, execPreemptForcedStop_due hq hdue hn hh, if_neg (Bool.eq_false_iff.1 hset)]

end Sys2Proof.Machine
end

section
/-!
SUPPORT. What the shared rules of the element operations come to (R83): waiting, markers, mixed heads and poison.
-/

namespace Sys2Proof.Machine

/-! ## Firings on either arm, and lanes that wait (R77, R82) -/

section
variable {s : State} {w : LaneArgs} {i : Instr} {f : Core → Nat → Lane → Shot}

theorem shoot_waits (e : exec i s = shoot w f s) (h : f s.here s.seat.lane (s.here.lane s.seat.lane) = .wait) :
    exec i s = .next s := by
  unfold shoot at e
  dsimp only at e
  rwa [h] at e

theorem shoot_fires_arms {takes : List Nat} {x : Emit} (e : exec i s = shoot w f s)
    (h : f s.here s.seat.lane (s.here.lane s.seat.lane) = .go takes [x] (s.here.lane s.seat.lane))
    (hr : LaneReady s x.arm0 x.arm1 x.tok.kind) :
    Completes i s (LaneFired w takes [x] (s.here.lane s.seat.lane) s) :=
  shoot_go e h (fun _ => hr.1) (fun y hy => by cases hy; exact hr.ready x rfl rfl rfl) rfl (fun h => by cases h)

end

/-! ## The highest rank (R76) -/

theorem topRank_concat (l : List Token) (t : Token) :
    topRank (l ++ [t]) = if topRank l ≤ t.kind then t.kind else topRank l := by
  unfold topRank
  rw [List.foldl_append]
  rfl

theorem topRank_singleton (a : Token) : topRank [a] = a.kind :=
  (topRank_concat [] a).trans (if_pos (show (0 : BitVec 3) ≤ a.kind by bv_omega))

theorem topRank_pair (a b : Token) : topRank [a, b] = if a.kind ≤ b.kind then b.kind else a.kind := by
  rw [← topRank_singleton a]
  exact topRank_concat [a] b

theorem le_topRank (l : List Token) : ∀ t ∈ l, t.kind ≤ topRank l := by
  induction l using List.reverseRecOn with
  | nil => nofun
  | append_singleton l x ih =>
    intro t ht
    rw [topRank_concat]
    rcases List.mem_append.1 ht with ht | ht
    · have := ih t ht
      split <;> bv_omega
    · obtain rfl := List.mem_singleton.1 ht
      split <;> bv_omega

theorem topRank_mem {l : List Token} (hl : l ≠ []) : ∃ t ∈ l, t.kind = topRank l := by
  induction l using List.reverseRecOn with
  | nil => exact absurd rfl hl
  | append_singleton l x ih =>
    rw [topRank_concat]
    by_cases hx : topRank l ≤ x.kind
    · exact ⟨x, by simp, (if_pos hx).symm⟩
    · have hne : l ≠ [] := by
        rintro rfl
        exact hx (show (0 : BitVec 3) ≤ x.kind by bv_omega)
      obtain ⟨t, ht, hk⟩ := ih hne
      exact ⟨t, List.mem_append_left _ ht, by rw [if_neg hx, hk]⟩

/-! ## The heads of several queues -/

theorem heads_eq_none {k : Core} {n : Nat} {qs : List Nat} (h : ∃ q ∈ qs, k.head n q = none) :
    heads k n qs = none := by
  induction qs with
  | nil => simp at h
  | cons q r ih =>
    unfold heads
    rcases (List.exists_mem_cons_iff ..).1 h with hq | hr
    · rw [hq]
    · rw [ih hr]
      cases k.head n q <;> rfl

theorem heads_length {k : Core} {n : Nat} {qs : List Nat} {hs : List Token} (h : heads k n qs = some hs) :
    hs.length = qs.length := by
  induction qs generalizing hs with
  | nil => cases h; rfl
  | cons q r ih =>
    unfold heads at h
    split at h
    next t l _ hl =>
      cases h
      rw [List.length_cons, List.length_cons, ih hl]
    · cases h

/-! ## Heads that agree, and heads that do not (R83) -/

section
variable {qs : List Nat} {l : Lane} {hs : List Token} {f : Shot}

theorem together_markers (h : ∀ t ∈ hs, t.kind ≠ 0) : together qs l hs f = .go qs [own (markTok (topRank hs))] l :=
  if_pos (List.all_eq_true.2 fun t ht => bne_iff_ne.2 (h t ht))

theorem together_mixed (hm : ∃ t ∈ hs, t.kind ≠ 0) (hd : ∃ t ∈ hs, t.kind = 0) :
    together qs l hs f = .mismatch := by
  unfold together
  rw [if_neg (by simpa using hd), if_neg (by simpa using hm)]

theorem together_data (hne : hs ≠ []) (h : ∀ t ∈ hs, t.kind = 0) : together qs l hs f = f := by
  obtain ⟨t, ht⟩ := List.exists_mem_of_ne_nil hs hne
  unfold together
  rw [if_neg (by simpa using ⟨t, ht, h t ht⟩), if_pos (by simpa using h)]

end

/-! ## The element operations by their rule -/

section
variable {s : State} {w : LaneArgs} {useC : Bool} {op : Nat → Nat → Nat → Nat × Flags} {l : Lane}

theorem elementShot_waits (h : ∃ q ∈ laneUses w true useC, s.here.head s.seat.lane q = none) :
    elementShot w true useC op s.here s.seat.lane l = .wait := by
  have none_ := heads_eq_none h
  unfold laneUses at none_
  unfold elementShot
  dsimp only
  rw [none_]

theorem elementShot_heads {hs : List Token} (h : heads s.here s.seat.lane (laneUses w true useC) = some hs) :
    ∃ f, elementShot w true useC op s.here s.seat.lane l = together (laneUses w true useC) l hs f
      ∧ ((∃ t ∈ hs, t.poison = true) → f = .go (laneUses w true useC) [own poisonTok] l) := by
  unfold laneUses at h ⊢
  unfold elementShot
  dsimp only
  rw [h]
  exact ⟨_, rfl, fun hp => if_pos (List.any_eq_true.2 hp)⟩

end

/-- The operations of R83 that read A and B, or A, B and C, are element operations. -/
theorem exec_elementOp {i : Instr} {w : LaneArgs} {useC : Bool}
    (h : (useC = false ∧ i ∈ [.eiadd w, .eisub w, .eimul w, .eimin w, .eimax w, .eiand w, .eior w, .eixor w, .eishl w,
        .eishr w, .eisra w, .eicmp w, .efadd w, .efsub w, .efmul w, .efmin w, .efmax w, .efcmp w])
      ∨ (useC = true ∧ i ∈ [.eimac w, .effma w, .esel w])) (s : State) :
    ∃ op, exec i s = shoot w (elementShot w true useC op) s := by
  rcases h with ⟨rfl, h⟩ | ⟨rfl, h⟩ <;>
  · fin_cases h <;> exact ⟨_, rfl⟩

/-- Settles O36, by the shared rule of the element operations. -/
theorem laneMarkersAndPoison : Obligations.LaneMarkersAndPoison := by
  unfold Obligations.LaneMarkersAndPoison
  intro s w i useC hi uses
  obtain ⟨op, e⟩ := exec_elementOp hi s
  refine ⟨fun h => shoot_waits e (elementShot_waits h), fun hs hh => ?_⟩
  have hne : hs ≠ [] := List.ne_nil_of_length_pos (by rw [heads_length hh]; simp [uses, laneUses])
  obtain ⟨f, hf, hpoison⟩ := elementShot_heads (op := op) (l := s.here.lane s.seat.lane) hh
  refine ⟨fun hm hdue hready => ⟨?_, le_topRank hs, topRank_mem hne⟩, fun hm hd => ?_, fun hd hp hr => ?_⟩
  · exact shoot_fires_arms e (hf.trans (together_markers hm)) ⟨hdue, (ready_kind _ _ _ _ rfl rfl rfl).trans hready⟩
  · exact shoot_stops e (hf.trans (together_mixed hm hd))
  · exact shoot_fires_arms e ((hf.trans (together_data hne hd)).trans (hpoison hp)) hr

end Sys2Proof.Machine
end

section
/-!
O37: the rows of the tables of R84, R85 and R86.
-/

namespace Sys2Proof.Machine

section
variable {k : Core} {n : Nat} {w : LaneArgs} {both : Bool} {l : Lane} {a b c : Token}

/-! ## Steer and exit (R84, R85) -/

section
variable (ha : k.head n (laneA w) = some a) (hc : k.head n 3 = some c)
include ha hc

theorem steerShot_arm0 (hka : a.kind = 0) (hkc : c.kind = 0) (hp : c.poison = false) (hv : c.value = 0) :
    steerShot w both k n l = .go [laneA w, 3] [own a] l := by
  simp [steerShot, ha, hc, hka, hkc, hp, hv]

theorem steerShot_arm1 (hka : a.kind = 0) (hkc : c.kind = 0) (hp : c.poison = false) (hv : c.value ≠ 0) :
    steerShot w both k n l = .go [laneA w, 3] [{ arm0 := false, arm1 := true, tok := a }] l := by
  simp only [steerShot, ha, hc, hka, hkc, hp, hv, ne_eq, not_true, and_self, or_self, Bool.false_eq_true, if_false]

theorem steerShot_poison (hka : a.kind = 0) (hkc : c.kind = 0) (hp : c.poison = true) :
    steerShot w both k n l = .go [laneA w, 3] [{ arm1 := both, tok := { a with poison := true } }] l := by
  simp [steerShot, ha, hc, hka, hkc, hp]

theorem steerShot_markers (hka : a.kind ≠ 0) (hkc : c.kind ≠ 0) : steerShot w both k n l =
    .go [laneA w, 3] [{ arm1 := true, tok := markTok (if a.kind ≤ c.kind then c.kind else a.kind) }] l := by
  simp only [steerShot, ha, hc, topRank_pair]
  exact if_pos ⟨hka, hkc⟩

theorem steerShot_mixed (h : (a.kind = 0 ∧ c.kind ≠ 0) ∨ (a.kind ≠ 0 ∧ c.kind = 0)) :
    steerShot w both k n l = .mismatch := by
  simp only [steerShot, ha, hc]
  rw [if_neg (by tauto), if_pos (by tauto)]

end

/-! ## Merge (R86) -/

section
variable (hc : k.head n 3 = some c)
include hc

theorem mergeShot_marker (hk : c.kind ≠ 0) : mergeShot w k n l = .go [3] [own (markTok c.kind)] l := by
  simp only [mergeShot, hc, ne_eq, hk, not_false_eq_true, if_true]

theorem mergeShot_poison (hk : c.kind = 0) (hp : c.poison = true) : mergeShot w k n l = .go [3] [own poisonTok] l := by
  simp [mergeShot, hc, hk, hp]

variable (hk : c.kind = 0) (hp : c.poison = false)
include hk hp

theorem mergeShot_waits (hb : k.head n (if c.value = 0 then laneA w else laneB w) = none) :
    mergeShot w k n l = .wait := by
  simp only [mergeShot, hc, hk, hp, hb, ne_eq, not_true, Bool.false_eq_true, if_false]

variable (hb : k.head n (if c.value = 0 then laneA w else laneB w) = some b)
include hb

theorem mergeShot_data (hkb : b.kind = 0) :
    mergeShot w k n l = .go [3, if c.value = 0 then laneA w else laneB w] [own b] l := by
  simp only [mergeShot, hc, hk, hp, hb, hkb, ne_eq, not_true, Bool.false_eq_true, if_false]

theorem mergeShot_chosen_marker (hkb : b.kind ≠ 0) :
    mergeShot w k n l = .go [if c.value = 0 then laneA w else laneB w] [own (markTok b.kind)] l := by
  simp only [mergeShot, hc, hk, hp, hb, hkb, ne_eq, not_true, not_false_eq_true, Bool.false_eq_true, if_true, if_false]

end

end

/-- Settles O37, row by row. -/
theorem laneSteering : Obligations.LaneSteering := by
  unfold Obligations.LaneSteering
  intro s w a b c n l
  refine ⟨fun ha hc => ⟨?data0, ?data1, ?poisonSteer, ?poisonExit, ?markers, ?mixed⟩,
    fun hc => ⟨?marker, ?poison, ?chosen, ?waits⟩⟩
  case data0 =>
    intro hka hkc hp hv hr
    have row (both : Bool) := steerShot_arm0 (both := both) (l := l) ha hc hka hkc hp hv
    exact ⟨shoot_fires_arms (exec_esteer s) (row true) (hka.symm ▸ hr),
      shoot_fires_arms (exec_eexit s) (row false) (hka.symm ▸ hr)⟩
  case data1 =>
    intro hka hkc hp hv hr
    have row (both : Bool) := steerShot_arm1 (both := both) (l := l) ha hc hka hkc hp hv
    exact ⟨shoot_fires_arms (exec_esteer s) (row true) (hka.symm ▸ hr),
      shoot_fires_arms (exec_eexit s) (row false) (hka.symm ▸ hr)⟩
  case poisonSteer =>
    intro hka hkc hp hr
    exact shoot_fires_arms (exec_esteer s) (steerShot_poison ha hc hka hkc hp) (hka.symm ▸ hr)
  case poisonExit =>
    intro hka hkc hp hr
    exact shoot_fires_arms (exec_eexit s) (steerShot_poison ha hc hka hkc hp) (hka.symm ▸ hr)
  case markers =>
    intro hka hkc hr
    have row (both : Bool) := steerShot_markers (both := both) (l := l) ha hc hka hkc
    exact ⟨shoot_fires_arms (exec_esteer s) (row true) hr, shoot_fires_arms (exec_eexit s) (row false) hr⟩
  case mixed =>
    intro h
    exact ⟨shoot_stops (exec_esteer s) (steerShot_mixed ha hc h), shoot_stops (exec_eexit s) (steerShot_mixed ha hc h)⟩
  case marker => exact fun hk hr => shoot_fires_arms (exec_emerge s) (mergeShot_marker hc hk) hr
  case poison => exact fun hk hp hr => shoot_fires_arms (exec_emerge s) (mergeShot_poison hc hk hp) hr
  case chosen =>
    intro hk hp hb
    exact ⟨fun hkb hr => shoot_fires_arms (exec_emerge s) (mergeShot_data hc hk hp hb hkb) (hkb.symm ▸ hr),
      fun hkb hr => shoot_fires_arms (exec_emerge s) (mergeShot_chosen_marker hc hk hp hb hkb) hr⟩
  case waits => exact fun hk hp hb => shoot_waits (exec_emerge s) (mergeShot_waits hc hk hp hb)

end Sys2Proof.Machine
end

section
/-!
SUPPORT. The accesses of a memory node: their done tokens, the tokens that leave the lane, and the order of accesses
(R82, R90, R91, R177, R350).
-/

namespace Sys2Proof.Machine

/-! ## Tokens that leave an output one after another (R81, R82) -/

/-- The core once each switch word of an output has put every token of a list at its destination. -/
def Core.emits (out : Nat) (l : List Token) (k : Core) : Core :=
  l.foldl (fun k t => (k.routes out).foldl (fun k w => k.put t w) k) k

/-- An update of a core that neither reads nor writes its lanes. -/
def LanesAside (F : Core → Core) : Prop :=
  ∀ k la, F { k with lanes := la } = { F k with lanes := la } ∧ (F k).lanes = k.lanes

theorem foldl_lanesAside {β : Type} {f : Core → β → Core} (hf : ∀ x, LanesAside (fun k => f k x)) (l : List β) :
    LanesAside (fun k => l.foldl f k) := by
  intro k la
  induction l generalizing k with
  | nil => exact ⟨rfl, rfl⟩
  | cons x r ih =>
    obtain ⟨hx, hlanes⟩ := hf x k la
    obtain ⟨ihl, ihk⟩ := ih (f k x)
    exact ⟨(congrArg (List.foldl f · r) hx).trans ihl, ihk.trans hlanes⟩

theorem LanesAside.comp {F G : Core → Core} (hF : LanesAside F) (hG : LanesAside G) :
    LanesAside (fun k => G (F k)) := by
  intro k la
  obtain ⟨hf, hfl⟩ := hF k la
  obtain ⟨hg, hgl⟩ := hG (F k) la
  exact ⟨(congrArg G hf).trans hg, hgl.trans hfl⟩

theorem Core.emits_lanes (out : Nat) (l : List Token) : LanesAside (Core.emits out l) :=
  foldl_lanesAside (fun t k la => have ⟨hput, _, hlanes⟩ := put_fold t (k.routes out) k la; ⟨hput, hlanes⟩) l

/-- An update that leaves the lanes alone keeps what differs in the lanes only. -/
theorem LanesOnly.modCore {s t : State} (h : LanesOnly s t) (c : Nat) {F : Core → Core} (hF : LanesAside F) :
    LanesOnly (s.modCore c F) (t.modCore c F) := by
  obtain ⟨hseat, hmem, hempty, hbad, hcore, hlane⟩ := h
  refine ⟨hseat, hmem, hempty, hbad, fun d => ?_, fun d n => ?_⟩
  · simp only [State.modCore_eq, State.core_setCore]
    split
    · rw [hcore c, (hF (s.core c) _).1]
    · exact hcore d
  · simp only [State.modCore_eq, State.core_setCore]
    split
    next hd =>
      have lane (k : Core) : (F k).lane n = k.lane n := by rw [Core.lane, (hF k []).2]; rfl
      rw [lane, lane]
      exact hlane c n
    · exact hlane d n

theorem State.emits_lanes (c out : Nat) (l : List Token) (s : State) :
    LanesOnly (s.modCore c (fun k => k.emits out l)) (l.foldl (fun s t => s.emit c out t) s) := by
  induction l generalizing s with
  | nil =>
    rw [State.modCore_eq]
    refine ⟨rfl, rfl, rfl, rfl, fun d => ?_, fun d n => ?_⟩ <;> rw [State.core_setCore] <;> split
    next hd => rw [hd]; rfl
    · rfl
    next hd => rw [hd]; rfl
    · rfl
  | cons t r ih =>
    obtain ⟨u, hu, hl⟩ := emit_lanes s c out t
    have first := hl.modCore c (Core.emits_lanes out r)
    rw [hu] at first
    refine LanesOnly.trans ?_ (ih (s.emit c out t))
    simpa [Core.emits] using first

/-! ## Done tokens (R91) -/

theorem Core.giveDones_lanes (n : Nat) (scope : BitVec 2) : LanesAside (fun k => k.giveDones n scope) := by
  unfold Core.giveDones
  split
  · exact fun _ _ => ⟨rfl, rfl⟩
  · refine foldl_lanesAside (fun j k la => ?_) _
    dsimp only
    rw [show ({ k with lanes := la } : Core).waitsFor n j = k.waitsFor n j from rfl]
    split <;> exact ⟨rfl, rfl⟩

theorem Core.takeDones_keeps (k : Core) (n : Nat) : k.takeDones n = { k with dones := (k.takeDones n).dones } := by
  unfold Core.takeDones
  generalize List.range 16 = l
  induction l generalizing k with
  | nil => rfl
  | cons j r ih =>
    rw [List.foldl_cons, ih]
    split <;> rfl

/-! ## An access that has taken place (R82, R91) -/

/-- The accesses of a core with one of them answered. -/
def answeredReqs (m : MemReq) (v : Nat) (bad : Bool) (l : List MemReq) : List MemReq :=
  l.map (fun x => if x.lane = m.lane ∧ x.seq = m.seq then
    { x with seen := true, res := some (BitVec.ofNat 32 v, bad) } else x)

/-- The accesses of a lane that may leave it. -/
def Core.leaving (k : Core) (n : Nat) : List MemReq := (k.reqsOf n).takeWhile (·.seen)

/-- The core without the accesses that have left a lane. -/
def Core.left (n : Nat) (k : Core) : Core :=
  { k with memreqs := k.memreqs.filter (fun m => !((k.leaving n).any (fun x => x.lane == m.lane && x.seq == m.seq))) }

/-- The core with an access answered and its done tokens given. -/
def Core.noted (m : MemReq) (v : Nat) (bad : Bool) (k : Core) : Core :=
  ({ k with memreqs := answeredReqs m v bad k.memreqs } : Core).giveDones m.lane m.scope

theorem answered_eq (m : MemReq) (v : Nat) (bad : Bool) (k : Core) : answered m v bad k =
    ((k.noted m v bad).left m.lane).emits m.lane (((k.noted m v bad).leaving m.lane).filterMap nodeToken) := rfl

theorem answered_lanes (m : MemReq) (v : Nat) (bad : Bool) : LanesAside (answered m v bad) := by
  have noted : LanesAside (Core.noted m v bad) :=
    LanesAside.comp (F := fun k => { k with memreqs := answeredReqs m v bad k.memreqs }) (fun _ _ => ⟨rfl, rfl⟩)
      (Core.giveDones_lanes m.lane m.scope)
  exact noted.comp (G := fun k => (k.left m.lane).emits m.lane ((k.leaving m.lane).filterMap nodeToken))
    (fun k la => Core.emits_lanes m.lane ((k.leaving m.lane).filterMap nodeToken) (k.left m.lane) la)

/-- What leaves a lane are the tokens of its leading accesses that have taken place, in firing order. -/
theorem State.nodeFlush_eq (s : State) (c n : Nat) : s.nodeFlush c n =
    (((s.core c).leaving n).filterMap nodeToken).foldl (fun s t => s.emit c n t) (s.modCore c (Core.left n)) := by
  unfold State.nodeFlush
  dsimp only
  rw [List.foldl_filterMap]
  refine congrArg (fun f => List.foldl f _ _) (funext fun u => funext fun m => ?_)
  unfold nodeToken
  cases m.op <;> cases m.res <;> rfl

/-- An access that has taken place answers its core; of the lanes only whether R153 has stopped one may differ. -/
theorem State.nodeDone_lanes (s : State) (c : Nat) (m : MemReq) (v : Nat) (bad : Bool) :
    LanesOnly (s.modCore c (answered m v bad)) (s.nodeDone c m v bad) := by
  have done : s.nodeDone c m v bad = (s.modCore c (Core.noted m v bad)).nodeFlush c m.lane := rfl
  have flush := State.emits_lanes c m.lane ((((s.core c).noted m v bad).leaving m.lane).filterMap nodeToken)
    ((s.modCore c (Core.noted m v bad)).modCore c (Core.left m.lane))
  rw [done, State.nodeFlush_eq]
  simp only [State.modCore_eq, State.core_setCore, if_true, State.setCore_setCore, answered_eq] at flush ⊢
  exact flush

theorem State.nodeDone_accessDone (s : State) (c : Nat) (m : MemReq) (v : Nat) (bad : Bool) :
    AccessDone c m v bad (s.core c) (s.nodeDone c m v bad) := by
  obtain ⟨-, -, -, -, hcore, -⟩ := s.nodeDone_lanes c m v bad
  have := hcore c
  rwa [State.modCore_eq, State.core_setCore, if_pos rfl] at this

@[simp] theorem State.nodeDone_mem (s : State) (c : Nat) (m : MemReq) (v : Nat) (bad : Bool) :
    (s.nodeDone c m v bad).mem = s.mem :=
  have ⟨_, hmem, _⟩ := s.nodeDone_lanes c m v bad
  hmem

theorem State.nodeDone_memoryKept (s : State) (c : Nat) (m : MemReq) (v : Nat) (bad : Bool) :
    MemoryKept s (s.nodeDone c m v bad) := fun _ => by rw [State.nodeDone_mem]

@[simp] theorem State.isBad_nodeDone (s : State) (c : Nat) (m : MemReq) (v : Nat) (bad : Bool) (l : Nat) :
    (s.nodeDone c m v bad).isBad l = s.isBad l := by
  obtain ⟨-, -, -, hbad, -, -⟩ := s.nodeDone_lanes c m v bad
  rw [State.isBad, hbad]
  rfl

end Sys2Proof.Machine
end

section
/-!
O48: what the memory nodes do at their word, and what an access does when it takes place.
-/

namespace Sys2Proof.Machine

/-! ## A memory node's operands (R90, R349, R350) -/

/-- The heads that a memory node reads: A, and B unless it is `eld`. -/
def nodeHeads (op : LaneOp) (a b : Token) : List Token := if op = .eld then [a] else [a, b]

theorem nodeHeads_head (op : LaneOp) (a b : Token) : (nodeHeads op a b).headD {} = a := by
  unfold nodeHeads
  split <;> rfl

theorem nodeHeads_all (op : LaneOp) (a b : Token) (p : Token → Bool) :
    (nodeHeads op a b).all p = true ↔ p a = true ∧ (op ≠ .eld → p b = true) := by
  unfold nodeHeads
  split
  next h => simp [h]
  next h => simp [h]

theorem nodeHeads_markers (op : LaneOp) (a b : Token) : (nodeHeads op a b).all (fun t => t.kind != 0) = true ↔
    a.kind ≠ 0 ∧ (op ≠ .eld → b.kind ≠ 0) := by
  rw [nodeHeads_all, bne_iff_ne, bne_iff_ne]

theorem nodeHeads_data (op : LaneOp) (a b : Token) : (nodeHeads op a b).all (fun t => t.kind == 0) = true ↔
    a.kind = 0 ∧ (op ≠ .eld → b.kind = 0) := by
  rw [nodeHeads_all, beq_iff_eq, beq_iff_eq]

section
variable {s : State} {op : LaneOp} {w : LaneArgs} {a b : Token} (h : NodeHeads s op w a b)
include h

theorem heads_nodeQueues : heads s.here s.seat.lane (nodeQueues op w) = some (nodeHeads op a b) := by
  obtain ⟨ha, hb⟩ := h
  unfold nodeQueues nodeHeads
  split
  · simp [heads, ha]
  next ho =>
    rw [if_neg ho] at hb
    simp [heads, ha, hb]

theorem nodeHeads_second : (nodeHeads op a b)[1]?.getD {} = b := by
  obtain ⟨-, hb⟩ := h
  unfold nodeHeads
  split
  next ho => rw [if_pos ho] at hb; exact hb.symm
  · rfl

theorem topRank_nodeHeads : topRank (nodeHeads op a b) = BitVec.ofNat 3 (max a.kind.toNat b.kind.toNat) := by
  obtain ⟨-, hb⟩ := h
  unfold nodeHeads
  split
  next ho =>
    rw [if_pos ho] at hb
    subst hb
    rw [topRank_singleton]
    simp
  next ho =>
    rw [topRank_pair]
    split
    next hle => rw [max_eq_right (BitVec.le_def.1 hle), BitVec.ofNat_toNat, BitVec.setWidth_eq]
    next hle =>
      have : b.kind.toNat ≤ a.kind.toNat := by bv_omega
      rw [max_eq_left this, BitVec.ofNat_toNat, BitVec.setWidth_eq]

end

/-! ## The word of a memory node -/

theorem nodeReady_iff (s : State) (op : LaneOp) (w : LaneArgs) : NodeReady s op w ↔
    (s.cycle < (s.here.lane s.seat.lane).due || !s.here.mayGive s.seat.lane (w.imm.extractLsb' 4 2)
        || (s.here.reqsOf s.seat.lane).any (·.stalled)) = false
      ∧ ¬ (op ≠ .est ∧ s.here.ready s.seat.lane (own poisonTok) = false) := by
  have room : s.here.ready s.seat.lane (own poisonTok) = s.here.ready s.seat.lane (own {}) :=
    ready_kind _ _ _ _ rfl rfl rfl
  unfold NodeReady LaneReady Core.reqsOf
  rw [room]
  simp only [own, Bool.or_eq_false_iff, decide_eq_false_iff_not, Nat.not_lt, Bool.not_eq_false', List.any_filter,
    List.any_eq_false, Bool.and_eq_true, beq_iff_eq, not_and, Bool.not_eq_true, Bool.not_eq_false]
  constructor
  · rintro ⟨hdue, hgive, hstall, hroom⟩
    exact ⟨⟨⟨hdue, hgive⟩, hstall⟩, fun ho => (hroom ho).2⟩
  · rintro ⟨⟨⟨hdue, hgive⟩, hstall⟩, hroom⟩
    exact ⟨hdue, hgive, hstall, fun ho => ⟨hdue, hroom ho⟩⟩

section
variable {s : State} {op : LaneOp} {w : LaneArgs} {a b : Token} (h : NodeHeads s op w a b)
include h

theorem memoryNode_markers (ha : a.kind ≠ 0) (hb : op ≠ .eld → b.kind ≠ 0) : memoryNode op w s =
    if (s.here.reqsOf s.seat.lane).isEmpty then
      shoot w (fun _ _ l => .go (nodeQueues op w) [own (markTok (topRank (nodeHeads op a b)))] l) s
    else .next s := by
  unfold memoryNode
  dsimp only
  rw [heads_nodeQueues h]
  dsimp only
  rw [if_pos ((nodeHeads_markers op a b).2 ⟨ha, hb⟩)]
  cases (s.here.reqsOf s.seat.lane).isEmpty <;> rfl

theorem memoryNode_mixed (ho : op ≠ .eld) (hk : a.kind = 0 ↔ b.kind ≠ 0) :
    memoryNode op w s = .next (s.laneStop s.seat.core s.seat.lane) := by
  have notMarkers : ¬ (nodeHeads op a b).all (fun t => t.kind != 0) = true := fun hm =>
    have ⟨ha, hb⟩ := (nodeHeads_markers op a b).1 hm
    ha (hk.2 (hb ho))
  have notData : (nodeHeads op a b).all (fun t => t.kind == 0) = false := Bool.eq_false_iff.2 fun hd =>
    have ⟨ha, hb⟩ := (nodeHeads_data op a b).1 hd
    hk.1 ha (hb ho)
  unfold memoryNode
  dsimp only
  rw [heads_nodeQueues h]
  dsimp only
  rw [if_neg notMarkers, notData]
  rfl

section
variable (ha : a.kind = 0) (hb : b.kind = 0)
include ha hb

theorem memoryNode_waits (hr : ¬ NodeReady s op w) : memoryNode op w s = .next s := by
  rw [nodeReady_iff, not_and_or, not_not, Bool.not_eq_false] at hr
  unfold memoryNode
  dsimp only
  rw [heads_nodeQueues h]
  dsimp only
  rw [if_neg (mt (nodeHeads_markers op a b).1 (fun hm => hm.1 ha)), (nodeHeads_data op a b).2 ⟨ha, fun _ => hb⟩,
    if_neg (by decide)]
  rcases hr with hr | hr
  · rw [if_pos hr]
  · rw [if_pos hr, ite_self]

/-- A node that may fire on data passes a poisoned offset, waits for done tokens, or makes its access. -/
theorem memoryNode_fires (hr : NodeReady s op w) : memoryNode op w s =
    if a.poison then .next ((s.takeShot s.seat.core s.seat.lane w (nodeQueues op w)
      (s.here.lane s.seat.lane)).nodePoison s.seat.core (nodeReq s w op a b))
    else if s.here.mayAccess s.seat.lane then .next ((s.takeShot s.seat.core s.seat.lane w (nodeQueues op w)
      (s.here.lane s.seat.lane)).nodeAccess s.seat.core s.seat.lane (nodeReq s w op a b))
    else .next s := by
  obtain ⟨hready, hroom⟩ := (nodeReady_iff s op w).1 hr
  unfold memoryNode
  dsimp only
  rw [heads_nodeQueues h]
  dsimp only
  rw [if_neg (mt (nodeHeads_markers op a b).1 (fun hm => hm.1 ha)), (nodeHeads_data op a b).2 ⟨ha, fun _ => hb⟩,
    if_neg (by decide), if_neg (Bool.eq_false_iff.1 hready), if_neg hroom, nodeHeads_head, nodeHeads_second h]
  cases s.here.mayAccess s.seat.lane <;> rfl

end

end

/-! ## A firing that passes or makes an access (R90, R91) -/

theorem State.takeShot_eq (s : State) (c n : Nat) (w : LaneArgs) (takes : List Nat) (l : Lane) :
    s.takeShot c n w takes l = s.setCore c { (s.core c).takeHeads n takes with
      lanes := (s.core c).lanes.put n
        { l with due := if takes.isEmpty then l.due else s.cycle + w.rate.toNat + 1 } } := by
  unfold State.takeShot
  rw [State.modCore_eq, takeHeads_keeps]

theorem Core.lane_put (k : Core) (n : Nat) (l : Lane) : ({ k with lanes := k.lanes.put n l } : Core).lane n = l :=
  Tbl.get_put_self _ _ _ _

theorem nodeQueues_isEmpty (op : LaneOp) (w : LaneArgs) : (nodeQueues op w).isEmpty = false := by
  unfold nodeQueues
  split <;> rfl

/-- A firing that passes a poisoned offset is an access that has taken place with a poisoned 0. -/
theorem nodePoison_done (s : State) (op : LaneOp) (w : LaneArgs) (m : MemReq) :
    let u := (s.takeShot s.seat.core s.seat.lane w (nodeQueues op w) (s.here.lane s.seat.lane)).nodePoison s.seat.core m
    MemoryKept s u ∧ (u.here.lane s.seat.lane).due = s.cycle + w.rate.toNat + 1
      ∧ AccessDone s.seat.core m 0 true
        { s.here.takeHeads s.seat.lane (nodeQueues op w) with memreqs := s.here.memreqs ++ [m] } u := by
  intro u
  obtain ⟨k, hk⟩ : ∃ k : Core, k = { s.here.takeHeads s.seat.lane (nodeQueues op w) with
    memreqs := s.here.memreqs ++ [m] } := ⟨_, rfl⟩
  obtain ⟨la, hla⟩ : ∃ la, la = s.here.lanes.put s.seat.lane
    { s.here.lane s.seat.lane with due := s.cycle + w.rate.toNat + 1 } := ⟨_, rfl⟩
  have begun : u = ((s.setCore s.seat.core { k with lanes := la }).bump).nodeDone s.seat.core m 0 true := by
    have memreqs : (s.here.takeHeads s.seat.lane (nodeQueues op w)).memreqs = s.here.memreqs := by rw [takeHeads_keeps]
    unfold u State.nodePoison
    rw [State.takeShot_eq, nodeQueues_isEmpty, hk, hla]
    simp [memreqs]
  obtain ⟨hseat, hmem, -, -, hcore, hlane⟩ :=
    ((s.setCore s.seat.core { k with lanes := la }).bump).nodeDone_lanes s.seat.core m 0 true
  rw [← begun] at hseat hmem hcore hlane
  have aside := answered_lanes m 0 true k la
  have here : u.here = u.core s.seat.core := by rw [State.here, hseat]; rfl
  have hcore := hcore s.seat.core
  have hlane := hlane s.seat.core s.seat.lane
  rw [State.modCore_eq, State.core_setCore, if_pos rfl] at hcore hlane
  refine ⟨fun a => by rw [hmem]; rfl, ?_, ?_⟩
  · rw [here, hlane]
    have : (answered m 0 true ((s.setCore s.seat.core { k with lanes := la }).bump.core s.seat.core)).lane s.seat.lane
        = { s.here.lane s.seat.lane with due := s.cycle + w.rate.toNat + 1 } := by
      rw [State.core_bump, State.core_setCore, if_pos rfl, aside.1, Core.lane, hla]
      exact Tbl.get_put_self _ _ _ _
    rw [this]
  · rw [← hk]
    rw [State.core_bump, State.core_setCore, if_pos rfl, aside.1] at hcore
    exact hcore

/-- The machine with a memory node's access among those in flight and its done tokens consumed. -/
def State.nodeQueued (s : State) (op : LaneOp) (w : LaneArgs) (m : MemReq) : State :=
  ((s.takeShot s.seat.core s.seat.lane w (nodeQueues op w) (s.here.lane s.seat.lane)).modCore s.seat.core (fun k =>
    { k.takeDones s.seat.lane with memreqs := k.memreqs ++ [m] })).bump

theorem State.nodeQueued_queued (s : State) (op : LaneOp) (w : LaneArgs) (m : MemReq) :
    NodeQueued w (nodeQueues op w) m s (s.nodeQueued op w m) := by
  refine ⟨?_, rfl, fun _ => rfl⟩
  unfold State.nodeQueued
  rw [State.takeShot_eq, nodeQueues_isEmpty]
  have memreqs : (s.here.takeHeads s.seat.lane (nodeQueues op w)).memreqs = s.here.memreqs := by rw [takeHeads_keeps]
  simp [memreqs]

/-- The request by which an `ermw` of the seat's lane asks its Detent (R138, R140). -/
def State.nodeAtomic (s : State) (m : MemReq) : Atomic :=
  { id := s.fresh, at_ := s.cycle, core := s.seat.core, lane := some s.seat.lane, part := s.here.part, op := m.amo
    size := 4, va := m.addr, b := m.b.value.setWidth 64, bad := m.b.poison, scope := m.scope, seq := m.seq }

/-- What a node's access does next depends on where it points. -/
theorem nodeAccess_place (s : State) (op : LaneOp) (w : LaneArgs) (m : MemReq) :
    let u := s.nodeQueued op w m
    let v := (s.takeShot s.seat.core s.seat.lane w (nodeQueues op w) (s.here.lane s.seat.lane)).nodeAccess s.seat.core
      s.seat.lane m
    (∀ t off, placeOf s.seat.core m.addr 4 = .scratch t off →
        v = if t = s.seat.core then u.nodeReply s.seat.core s.here.memreqs.length else u)
      ∧ (placeOf s.seat.core m.addr 4 = .bad → v = u.nodeReply s.seat.core s.here.memreqs.length)
      ∧ (placeOf s.seat.core m.addr 4 = .global → v = if m.op = .ermw ∧ m.addr.toNat % 4 = 0 then
        (u.modCluster (clusterOf s.seat.core) (fun x => { x with queue := arrive (s.nodeAtomic m) x.queue })).next
        else u) := by
  intro u v
  have reqs : ((s.takeShot s.seat.core s.seat.lane w (nodeQueues op w) (s.here.lane s.seat.lane)).core
      s.seat.core).memreqs = s.here.memreqs := by
    rw [State.takeShot_eq, takeHeads_keeps]
    simp
  have part : (u.core s.seat.core).part = s.here.part := by
    have here := (s.nodeQueued_queued op w m).1
    have : u.core s.seat.core = u.here := rfl
    rw [this, here, Core.takeDones_keeps, takeHeads_keeps]
  refine ⟨fun t off hp => ?_, fun hp => ?_, fun hp => ?_⟩
  all_goals
    unfold v State.nodeAccess
    dsimp only
    rw [hp]
  · rw [reqs]; rfl
  · rw [reqs]; rfl
  · dsimp only
    split
    · unfold State.nodeAtomic
      rw [← part]
      rfl
    · rfl

/-- The word of a memory node by its operands (R90, R91, R349, R350). -/
theorem nodeWord_of {i : Instr} {op : LaneOp} {w : LaneArgs} {s : State} (e : exec i s = memoryNode op w s) :
    NodeWord i op w s := by
  intro a b h n c qs m
  refine ⟨fun ha hb => ⟨fun ⟨x, hx, hxn⟩ => ?busy, fun hidle hr => ?marker⟩, fun ho hk => ?mixed,
    fun ha hb hr => e.trans (memoryNode_waits h ha hb hr), fun ha hb hr hp => ?poison, fun ha hb hr hp hmay => ?held,
    fun ha hb hr hp hmay => ?access⟩
  case busy =>
    have : (s.here.reqsOf n).isEmpty = false := by
      rw [List.isEmpty_eq_false_iff_exists_mem]
      exact ⟨x, List.mem_filter.2 ⟨hx, beq_iff_eq.2 hxn⟩⟩
    rw [e, memoryNode_markers h ha hb, this]
    rfl
  case marker =>
    have : (s.here.reqsOf n).isEmpty = true := by
      rw [List.isEmpty_iff]
      exact List.filter_eq_nil_iff.2 fun x hx => by simpa using hidle x hx
    rw [memoryNode_markers h ha hb, if_pos this, topRank_nodeHeads h] at e
    exact shoot_fires_arms e rfl hr
  case mixed => exact ⟨_, e.trans (memoryNode_mixed h ho hk), laneStop_facts s _ _ rfl⟩
  case poison =>
    rw [memoryNode_fires h ha hb hr, if_pos hp] at e
    exact ⟨_, e, nodePoison_done s op w m⟩
  case held => rw [e, memoryNode_fires h ha hb hr, if_neg (by simp [hp]), if_neg (by simpa using hmay)]
  case access =>
    rw [memoryNode_fires h ha hb hr, if_neg (by simp [hp]), if_pos hmay] at e
    obtain ⟨hscratch, hbad, hglobal⟩ := nodeAccess_place s op w m
    refine ⟨_, s.nodeQueued_queued op w m, fun t off hpl ht => ?_, fun off hpl => ?_, fun hpl ho => ?_,
      fun hpl ho hal => ?_⟩
    · rw [e, hscratch t off hpl, if_neg ht]
    · rw [e, exec_memoryNodeReply, execMemoryNodeReply]
      rcases hpl with hpl | hpl
      · rw [hscratch c off hpl, if_pos rfl]
      · rw [hbad hpl]
    · rw [e, hglobal hpl, if_neg fun ⟨hop, hal⟩ => ho.elim (fun h => h hop) (fun h => h hal)]
    · rw [e, hglobal hpl, if_pos ⟨ho, hal⟩]
      rfl

/-! ## An access that takes place (R119, R139, R177, R233, R350) -/

/-- An aligned access reaches an aligned offset of a scratchpad. -/
theorem placeOf_aligned {c t off : Nat} {a : Word} (hp : placeOf c a 4 = .scratch t off) (ha : a.toNat % 4 = 0) :
    off % 4 = 0 := by
  have low : (a.extractLsb' 0 60).toNat = a.toNat % 2 ^ 60 := by simp
  unfold placeOf at hp
  dsimp only at hp
  rw [low] at hp
  split_ifs at hp <;> cases hp <;> omega

/-- A store of one aligned word lies in one line. -/
theorem wordStore {t off : Nat} (ho : off % 4 = 0) (s : State) (v : Nat) (bad pub : Bool) :
    (s.spStore t off (leBytes v 4) bad pub).mem = s.mem.writes (spKey t off) (leBytes v 4)
      ∧ (s.spStore t off (leBytes v 4) bad pub).isBad (lineKey t (off / 128)) = (bad || s.isBad (lineKey t (off / 128)))
      ∧ ∀ c, (s.spStore t off (leBytes v 4) bad pub).core c = s.core c := by
  have len : (leBytes v 4).length = 4 := length_leBytes v 4
  have ne : leBytes v 4 ≠ [] := List.ne_nil_of_length_pos (by omega)
  have fits : off % 128 + (leBytes v 4).length ≤ 128 := by omega
  refine ⟨store_one_mem _ _ _ _ _ _ ne fits, ?_, fun c => by rw [State.core, State.spStore_cores]; rfl⟩
  rw [store_one_isBad _ _ _ _ _ _ ne fits, len]
  simp

/-- Nothing holds an access up: it has not stalled or taken place, no earlier one of its lane has stalled, and every
earlier one of its lane to its word has taken place (R119, R177, R350). -/
def MayTakePlace (k : Core) (i : Nat) (m : MemReq) : Prop :=
  m.stalled = false ∧ m.seen = false
    ∧ ∀ x ∈ k.memreqs.take i, x.lane = m.lane → x.stalled = false ∧ (x.seen = true ∨ x.addr / 4 ≠ m.addr / 4)

theorem mayTakePlace_iff (k : Core) (i : Nat) (m : MemReq) :
    MayTakePlace k i m ↔ (m.stalled || m.seen || !mayGo (k.memreqs.take i) m) = false := by
  unfold MayTakePlace mayGo
  simp only [Bool.or_eq_false_iff, Bool.not_eq_false', List.all_eq_true, Bool.or_eq_true, bne_iff_ne, ne_eq,
    Bool.and_eq_true, Bool.not_eq_true', and_assoc, or_iff_not_imp_left, not_not]

section
variable {s : State} {c i : Nat} {m : MemReq} (hm : (s.core c).memreqs[i]? = some m)
include hm

theorem nodeReply_held (h : ¬ MayTakePlace (s.core c) i m) : s.nodeReply c i = s := by
  rw [mayTakePlace_iff, Bool.not_eq_false] at h
  unfold State.nodeReply
  rw [hm]
  exact if_pos h

section
variable (h : MayTakePlace (s.core c) i m)
include h

theorem nodeReply_bad (hp : placeOf c m.addr 4 = .bad) :
    s.nodeReply c i = s.stallLane c m.lane m.seq 4 m.addr := by
  unfold State.nodeReply
  rw [hm]
  dsimp only
  rw [if_neg (Bool.eq_false_iff.1 ((mayTakePlace_iff _ _ _).1 h)), hp]
  rfl

theorem nodeReply_misaligned (hp : placeOf c m.addr 4 ≠ .bad) (ha : m.addr.toNat % 4 ≠ 0) :
    s.nodeReply c i = s.stallLane c m.lane m.seq 5 m.addr := by
  unfold State.nodeReply
  rw [hm]
  dsimp only
  rw [if_neg (Bool.eq_false_iff.1 ((mayTakePlace_iff _ _ _).1 h))]
  split
  next hb => exact absurd hb hp
  · exact if_pos ha
  · exact if_pos ha

theorem nodeReply_scratch {t off : Nat} (hp : placeOf c m.addr 4 = .scratch t off) (ha : m.addr.toNat % 4 = 0) :
    s.nodeReply c i = if s.fenced c 3 m.seq || (s.core t).wordHeld off 4 then s else s.nodeScratch c t off m := by
  unfold State.nodeReply
  rw [hm]
  dsimp only
  rw [if_neg (Bool.eq_false_iff.1 ((mayTakePlace_iff _ _ _).1 h)), hp]
  exact if_neg (not_not.2 ha)

section
variable (hp : placeOf c m.addr 4 = .global) (ha : m.addr.toNat % 4 = 0)
include hp ha

/-- An `ermw` on global memory takes place once its Detent has answered. -/
theorem nodeReply_detent (ho : m.op = .ermw) : s.nodeReply c i =
    (m.res.map (fun x => s.nodeDone c m x.1.toNat x.2)).getD s := by
  unfold State.nodeReply
  rw [hm]
  dsimp only
  rw [if_neg (Bool.eq_false_iff.1 ((mayTakePlace_iff _ _ _).1 h)), hp]
  dsimp only
  rw [if_neg (not_not.2 ha), ho]
  cases m.res <;> rfl

/-- A load or a store of global memory is held by a fence, stalls on its translation, or asks for tokens. -/
theorem nodeReply_global (ho : m.op = .eld ∨ m.op = .est) : s.nodeReply c i =
    if s.fenced c 3 m.seq then s
    else if (s.translateAll (dieOf c) (s.core c).part m.addr.toNat (m.op == .est) 4).isNone then
      s.stallLane c m.lane m.seq 6 m.addr
    else if (s.takeTokens c 4).2 = false then (s.takeTokens c 4).1
    else if m.op = .est then (((s.takeTokens c 4).1.gWrite (dieOf c) (s.core c).part m.addr.toNat
      (leBytes m.b.value.toNat 4) m.b.poison).map (fun v => v.nodeDone c m 0 false)).getD (s.takeTokens c 4).1
    else (((s.takeTokens c 4).1.gRead (dieOf c) (s.core c).part m.addr.toNat 4).map
      (fun v => v.1.nodeDone c m (leNat v.2.1) v.2.2)).getD (s.takeTokens c 4).1 := by
  unfold State.nodeReply
  rw [hm]
  dsimp only
  rw [if_neg (Bool.eq_false_iff.1 ((mayTakePlace_iff _ _ _).1 h)), hp]
  dsimp only
  rw [if_neg (not_not.2 ha)]
  obtain ⟨u, ok⟩ := s.takeTokens c 4
  rcases ho with ho | ho <;> rw [ho] <;> cases ok <;> dsimp only
  · rfl
  · cases u.gRead (dieOf c) (s.core c).part m.addr.toNat 4 <;> rfl
  · rfl
  · cases u.gWrite (dieOf c) (s.core c).part m.addr.toNat (leBytes m.b.value.toNat 4) m.b.poison <;> rfl

end

end

end

/-- The access of a lane at a scratchpad's port, by its operation (R90, R233, R349, R350). -/
theorem nodeScratch_done {s : State} {c t off : Nat} {m : MemReq} (ho : off % 4 = 0) :
    let u := s.nodeScratch c t off m
    let old := leNat (s.spBytes t off 4)
    let bad := s.isBad (lineKey t (off / 128))
    (m.op = .eld → MemoryKept s u ∧ AccessDone c m old bad (s.core c) u)
    ∧ (m.op = .est → AccessDone c m 0 false (s.core c) u
      ∧ u.mem = s.mem.writes (spKey t off) (leBytes m.b.value.toNat 4)
      ∧ u.isBad (lineKey t (off / 128)) = (m.b.poison || bad))
    ∧ (m.op = .ermw → AccessDone c m old bad (s.core c) u
      ∧ (bad = true → MemoryKept s u)
      ∧ (bad = false → u.isBad (lineKey t (off / 128)) = m.b.poison ∧ u.mem =
        s.mem.writes (spKey t off) (leBytes (atomicOp m.amo 32 old m.b.value.toNat) 4))) := by
  intro u old bad
  refine ⟨fun hop => ?_, fun hop => ?_, fun hop => ?_⟩
  all_goals
    unfold u State.nodeScratch
    rw [hop]
    dsimp only
  · exact ⟨s.nodeDone_memoryKept c m old bad, s.nodeDone_accessDone c m old bad⟩
  · obtain ⟨hmem, hbad, hcore⟩ := wordStore (t := t) ho s m.b.value.toNat m.b.poison true
    rw [State.nodeDone_mem, State.isBad_nodeDone, ← hcore c]
    exact ⟨State.nodeDone_accessDone _ c m 0 false, hmem, hbad⟩
  · obtain ⟨hmem, hbad, hcore⟩ := wordStore (t := t) ho s (atomicOp m.amo 32 old m.b.value.toNat) m.b.poison false
    split
    next hb =>
      exact ⟨s.nodeDone_accessDone c m old bad, fun _ => s.nodeDone_memoryKept c m old bad,
        fun clean => Bool.noConfusion (hb.symm.trans clean)⟩
    next hb =>
      have clean : bad = false := Bool.eq_false_iff.2 hb
      rw [State.nodeDone_mem, State.isBad_nodeDone, ← hcore c, hmem, hbad]
      refine ⟨State.nodeDone_accessDone _ c m old bad, fun h => absurd h hb, fun _ => ⟨?_, rfl⟩⟩
      rw [show s.isBad (lineKey t (off / 128)) = false from clean, Bool.or_false]

/-- Settles O48: the three words by `NodeWord`, and each access by where it points. -/
theorem laneMemoryNodes : Obligations.LaneMemoryNodes := by
  unfold Obligations.LaneMemoryNodes
  refine ⟨fun s w => ⟨nodeWord_of rfl, nodeWord_of rfl, nodeWord_of rfl⟩, ?_⟩
  intro s c i m k may word hm hop
  have reply : exec word s = .next (s.nodeReply c i) := rfl
  refine ⟨fun h => ?held, fun h hp => ?bad, fun h hp ha => ?misaligned,
    fun t off h hp ha => ⟨fun hw => ?_, fun hf hw => ?_⟩,
    fun h hp ha ho => ⟨fun hr => ?_, fun v bad hr => ?_⟩,
    fun u ok h hp ha ho => ⟨fun hf => ?_, fun hf hn => ?_, fun hf hn ht => ?_⟩⟩
  case held => rw [reply, nodeReply_held hm h]
  case bad => rw [reply, nodeReply_bad hm h hp]
  case misaligned => rw [reply, nodeReply_misaligned hm h hp ha]
  · rw [reply, nodeReply_scratch hm h hp ha, if_pos (by simpa using hw)]
  · rw [nodeReply_scratch hm h hp ha, if_neg (by simp [hf, hw])] at reply
    obtain ⟨eld, est, ermw⟩ := nodeScratch_done (s := s) (c := c) (t := t) (m := m) (placeOf_aligned hp ha)
    exact ⟨fun ho => ⟨_, reply, eld ho⟩, fun ho => ⟨_, reply, est ho⟩, fun ho => ⟨_, reply, ermw ho⟩⟩
  · rw [reply, nodeReply_detent hm h hp ha ho, hr]
    rfl
  · rw [nodeReply_detent hm h hp ha ho, hr] at reply
    exact ⟨_, reply, s.nodeDone_memoryKept c m v.toNat bad, s.nodeDone_accessDone c m v.toNat bad⟩
  all_goals
    have hop : m.op = .eld ∨ m.op = .est := by tauto
    rw [nodeReply_global hm h hp ha hop] at reply
  · rw [reply, if_pos hf]
  · rw [reply, if_neg (by simp [hf]), if_pos (by simpa using hn)]
  · rw [if_neg (by simp [hf]), if_neg (by simpa using hn), ht] at reply
    refine ⟨fun hok => ?_, fun v bytes bad hok ho hv => ?_, fun v hok ho hv => ?_⟩
    · rw [reply, if_pos hok]
    · rw [if_neg (by simp [hok]), if_neg (by simp [ho]), hv] at reply
      exact ⟨_, reply, State.nodeDone_mem .., v.nodeDone_accessDone c m (leNat bytes) bad⟩
    · rw [if_neg (by simp [hok]), if_pos ho, hv] at reply
      exact ⟨_, reply, State.nodeDone_mem .., v.nodeDone_accessDone c m 0 false⟩

end Sys2Proof.Machine
end

section
/-!
SUPPORT. Elastic circuits (R92): what leaves them as they are, and what a hop does.
-/

namespace Sys2Proof.Machine

/-! ## What leaves the circuits as they are -/

section
variable (s : State)

@[simp] theorem State.modLaunch_circuits (n : Nat) (f : Launch → Launch) :
    (s.modLaunch n f).circuits = s.circuits := by
  unfold State.modLaunch
  split <;> rfl

@[simp] theorem State.trigger_circuits (cause : Nat) : (s.trigger cause).circuits = s.circuits := by
  unfold State.trigger
  split <;> rfl

@[simp] theorem State.reportCore_circuits (c o cause : Nat) (stall : Bool) (a : Nat) (ev : Word) :
    (s.reportCore c o cause stall a ev).circuits = s.circuits := by
  unfold State.reportCore State.reportFw State.report
  dsimp only
  split <;> split <;> simp

@[simp] theorem State.laneStop_circuits (c n : Nat) : (s.laneStop c n).circuits = s.circuits := by
  simp [State.laneStop]

theorem foldl_circuits {β : Type} {f : State → β → State} (hf : ∀ s x, (f s x).circuits = s.circuits) (l : List β)
    (s : State) : (l.foldl f s).circuits = s.circuits := by
  induction l generalizing s with
  | nil => rfl
  | cons x r ih => exact (ih (f s x)).trans (hf s x)

@[simp] theorem State.checkControl_circuits (l : Launch) (g : GGraph) (n p : Nat) :
    (s.checkControl l g n p).circuits = s.circuits := by
  unfold State.checkControl
  refine foldl_circuits (fun s x => ?_) _ s
  split_ifs
  · split
    · split
      · split_ifs
        · rfl
        · exact s.laneStop_circuits _ _
      · rfl
    · rfl
  · rfl

@[simp] theorem State.observe_circuits (c out : Nat) (t : Token) : (s.observe c out t).circuits = s.circuits := by
  unfold State.observe
  split
  · simp
  · rfl

@[simp] theorem State.emit_circuits (c out : Nat) (t : Token) : (s.emit c out t).circuits = s.circuits := by
  simp [State.emit]

@[simp] theorem State.passOver_circuits (c out : Nat) (t : Token) : (s.passOver c out t).circuits = s.circuits := by
  unfold State.passOver
  split
  · split
    · split_ifs
      · exact s.modLaunch_circuits _ _
      · rfl
    · rfl
  · rfl

@[simp] theorem State.srcPut_circuits (c p : Nat) (t : Token) : (s.srcPut c p t).circuits = s.circuits := by
  unfold State.srcPut
  split_ifs <;> simp

theorem State.srcDeliver_circuits {c p : Nat} {t : Token} {v : State} (h : s.srcDeliver c p t = some v) :
    v.circuits = s.circuits := by
  unfold State.srcDeliver at h
  split at h
  · cases h
    simp
  · dsimp only at h
    split at h <;> cases h
    · split_ifs <;> simp [State.countRow]
    · split_ifs <;> simp [State.countDup]

theorem State.vcArrive_circuits (c v : Nat) (t : Token) : (s.vcArrive c v t).1.circuits = s.circuits := by
  unfold State.vcArrive
  split
  · simp [State.vcPut]
  · split_ifs
    · rfl
    · dsimp only
      split
      · split_ifs <;> simp [State.vcPut, State.countRow]
      · split_ifs <;> simp [State.countDup]
      · simp

theorem State.noteArrival_circuits (x : Circuit) (t : Token) : (s.noteArrival x t).circuits = s.circuits := by
  unfold State.noteArrival
  split
  · simp
  · rfl

theorem State.waveArrive_circuits {x : Circuit} {w : BitVec 131} {v : State} (h : s.waveArrive x w = some v) :
    v.circuits = s.circuits := by
  unfold State.waveArrive at h
  obtain ⟨y, -, h⟩ := Option.bind_eq_some_iff.1 h
  dsimp only at h
  split at h
  · cases h
    simp [State.setObj]
  · obtain ⟨p, -, rfl⟩ := Option.map_eq_some_iff.1 h
    simp [State.setObj]

theorem State.deliverEnd_circuits {x : Circuit} {f : Flit} {v : State} {ok : Bool}
    (h : s.deliverEnd x f = some (v, ok)) : v.circuits = s.circuits := by
  cases f with
  | wave w =>
    obtain ⟨u, hu, he⟩ := Option.map_eq_some_iff.1 h
    cases he
    exact s.waveArrive_circuits hu
  | data t =>
    unfold State.deliverEnd at h
    dsimp only at h
    split_ifs at h
    obtain rfl : (s.endPut x t).1 = v := congrArg Prod.fst (Option.some.inj h)
    unfold State.endPut
    split
    · rfl
    · split_ifs
      · rw [State.vcArrive_circuits, State.noteArrival_circuits]
      · exact s.srcPut_circuits _ _ _

end

/-! ## What the end of a circuit takes (R92, R254) -/

section
variable {s : State} {y : Circuit} {t : Token}

theorem deliverEnd_waits (h : s.endRoom y t = false) : s.deliverEnd y (.data t) = none :=
  if_neg (Bool.eq_false_iff.1 h)

theorem deliverEnd_room (h : s.endRoom y t = true) : s.deliverEnd y (.data t) = some (s.endPut y t) := if_pos h

theorem endRoom_link {l : Nat} (h : y.goes = some l) (s : State) (t : Token) : s.endRoom y t = true := by
  unfold State.endRoom
  rw [h]
  rfl

theorem endPut_link {l : Nat} (h : y.goes = some l) : s.endPut y t = (s.sendFlit l t, true) := by
  unfold State.endPut
  rw [h]

theorem endPut_port (h : y.goes = none) (hv : y.toVc = false) : s.endPut y t = (s.srcPut y.core2 y.src t, true) := by
  unfold State.endPut
  rw [h]
  exact if_neg (Bool.eq_false_iff.1 hv)

theorem endPut_vc (h : y.goes = none) (hv : y.toVc = true) :
    s.endPut y t = (s.noteArrival y t).vcArrive y.core2 y.src t := by
  unfold State.endPut
  rw [h]
  exact if_pos hv

end

/-! ## A hop of a circuit (R92, R254) -/

section
variable {s : State} {i h : Nat} {y : Circuit}

theorem State.modCircuit_of (hy : s.circuits[i]? = some y) (f : Circuit → Circuit) :
    s.modCircuit i f = { s with circuits := s.circuits.set i (f y) } := by
  unfold State.modCircuit
  rw [hy]

/-- The circuit's new state is written before or after its flit crosses the link. -/
theorem State.crossed_modCircuit (s : State) (y : Circuit) (h i : Nat) (f : Circuit → Circuit) :
    (s.crossed y h).modCircuit i f = (s.modCircuit i f).crossed y h := by
  unfold State.crossed
  cases y.link h with
  | none => rfl
  | some l =>
    unfold State.modCircuit
    rw [show (s.flit l).circuits = s.circuits from rfl]
    cases s.circuits[i]? <;> rfl

theorem crossed_modCircuit_eq_hopped {v : State} {z : Circuit} (hv : v.circuits[i]? = some z) (y : Circuit) (h : Nat)
    (f : Circuit → Circuit) : (v.modCircuit i f).crossed y h = hopped v i h y (f z) := by
  rw [State.modCircuit_of hv]
  rfl

/-- A hop writes its circuit's whole new state. -/
theorem hopped_set (s : State) (i h : Nat) (y w z : Circuit) :
    hopped { s with circuits := s.circuits.set i w } i h y z = hopped s i h y z := by
  unfold hopped
  dsimp only
  rw [List.set_set]

/-- What holds a hop: a link that has failed, or one that waits for its key update (R247, R254). -/
def HopHeld (s : State) (y : Circuit) (h : Nat) : Prop :=
  y.failed = true ∨ ∃ l, y.link h = some l ∧ s.rekeying l = true

theorem hopHeld_iff (s : State) (y : Circuit) (h : Nat) :
    HopHeld s y h ↔ (y.failed || (y.link h).any s.rekeying) = true := by
  rw [Bool.or_eq_true, Option.any_eq_true]
  rfl

section
variable (hy : s.circuits[i]? = some y)
include hy

theorem circuitHop_held (hh : HopHeld s y h) : exec (.circuitTokenTransfer i h) s = .next s := by
  rw [exec_circuitTokenTransfer, execCircuitTokenTransfer, hy]
  exact if_pos ((hopHeld_iff s y h).1 hh)

section
variable (hh : ¬ HopHeld s y h)
include hh

theorem circuitHop_forward (hn : h ≤ y.stages.length) : exec (.circuitTokenTransfer i h) s =
    .next (((s.dataHop i h y).map (fun u => u.crossed y h)).getD s) := by
  rw [exec_circuitTokenTransfer, execCircuitTokenTransfer, hy]
  dsimp only
  rw [if_neg (mt (hopHeld_iff s y h).2 hh), if_pos hn]
  cases s.dataHop i h y <;> rfl

theorem circuitHop_back {j : Nat} (hn : h = y.stages.length + 1 + j) : exec (.circuitTokenTransfer i h) s =
    .next (((s.requestHop i j y).map (fun u => u.crossed y h)).getD s) := by
  rw [exec_circuitTokenTransfer, execCircuitTokenTransfer, hy]
  dsimp only
  rw [if_neg (mt (hopHeld_iff s y h).2 hh), if_neg (by omega), show h - y.stages.length - 1 = j by omega]
  cases s.requestHop i j y <;> rfl

end

end

/-! ## Latch stages (R92) -/

section
variable {α : Type} {l : List (List α)} {t : α} {r : List α} {j : Nat}

theorem stageHead_of (hs : stageOf l j = t :: r) : stageHead j l = some t := by
  unfold stageOf at hs
  rw [stageHead, hs]
  rfl

theorem takeStage_of (hs : stageOf l j = t :: r) : takeStage j l = l.set j r := by
  unfold stageOf at hs
  rw [takeStage, hs]
  rfl

theorem stageRoom_iff : stageRoom j l = true ↔ j < l.length ∧ (stageOf l j).length < 2 := by
  rw [stageRoom, Bool.and_eq_true, decide_eq_true_iff, decide_eq_true_iff]

/-- A token that moves one stage on. -/
theorem putStage_takeStage (hj : 0 < j) (hs : stageOf l (j - 1) = t :: r) :
    putStage j t (takeStage (j - 1) l) = (l.set (j - 1) r).set j (stageOf l j ++ [t]) := by
  rw [takeStage_of hs, putStage, List.getElem?_set_ne (by omega)]

end

/-! ## The hops of the way forward -/

section
variable (hy : s.circuits[i]? = some y)
include hy

/-- The first hop takes what waits at the circuit's beginning. -/
theorem circuitHop_takes {f : Flit} {z : Circuit} (hh : ¬ HopHeld s y 0) (hn : 0 < y.stages.length)
    (hroom : (stageOf y.stages 0).length < 2) (hin : s.circuitIn y = some f)
    (htake : (s.circuitTake i y).circuits[i]? = some z) (hz : z.stages = y.stages) :
    exec (.circuitTokenTransfer i 0) s = .next (hopped (s.circuitTake i y) i 0 y
      { z with stages := y.stages.set 0 (stageOf y.stages 0 ++ [f]) }) := by
  rw [circuitHop_forward hy hh (Nat.zero_le _), State.dataHop]
  rw [if_pos rfl, hin, Option.bind_some, if_pos (stageRoom_iff.2 ⟨hn, hroom⟩), Option.map_some, Option.getD_some,
    crossed_modCircuit_eq_hopped htake, hz]
  rfl

/-- A wave token goes ahead of the data behind it (R149). -/
theorem circuitHop_takes_name {w : BitVec 131} {r : List (BitVec 131)} (hh : ¬ HopHeld s y 0)
    (hn : 0 < y.stages.length) (hroom : (stageOf y.stages 0).length < 2) (hw : y.names = w :: r) :
    exec (.circuitTokenTransfer i 0) s = .next (hopped s i 0 y
      { y with names := r, stages := y.stages.set 0 (stageOf y.stages 0 ++ [.wave w]) }) := by
  have hi : i < s.circuits.length := (List.getElem?_eq_some_iff.1 hy).1
  have hin : s.circuitIn y = some (.wave w) := by rw [State.circuitIn, hw]
  have htake : s.circuitTake i y = { s with circuits := s.circuits.set i { y with names := r } } := by
    rw [State.circuitTake, hw]
    exact State.modCircuit_of hy _
  rw [circuitHop_takes hy hh hn hroom hin (z := { y with names := r }) (by simp [htake, hi]) rfl, htake, hopped_set]

theorem circuitHop_takes_sink {t : Token} {r : List Token} (hh : ¬ HopHeld s y 0) (hn : 0 < y.stages.length)
    (hroom : (stageOf y.stages 0).length < 2) (hw : y.names = []) (hc : y.comes = none)
    (hb : ((s.core y.core).port (16 + y.sink)).buf = t :: r) :
    exec (.circuitTokenTransfer i 0) s = .next (hopped (s.modPort y.core (16 + y.sink) (fun q => { q with buf := r }))
      i 0 y { y with stages := y.stages.set 0 (stageOf y.stages 0 ++ [.data t]) }) := by
  have hin : s.circuitIn y = some (.data t) := by
    rw [State.circuitIn, hw]
    dsimp only
    rw [hc]
    dsimp only
    rw [hb]
    rfl
  have htake : s.circuitTake i y = s.modPort y.core (16 + y.sink) (fun q => { q with buf := r }) := by
    rw [State.circuitTake, hw]
    dsimp only
    rw [hc]
    dsimp only
    rw [State.modPort_eq, State.modPort_eq, hb]
    rfl
  rw [circuitHop_takes hy hh hn hroom hin (z := y) (by rw [htake]; exact hy) rfl, htake]

theorem circuitHop_takes_link {l : Nat} {t : Token} {r : List Token} (hh : ¬ HopHeld s y 0)
    (hn : 0 < y.stages.length) (hroom : (stageOf y.stages 0).length < 2) (hw : y.names = []) (hc : y.comes = some l)
    (hb : (Tbl.get {} s.links l).rx = t :: r) :
    exec (.circuitTokenTransfer i 0) s = .next (hopped (withLink s l { Tbl.get {} s.links l with rx := r })
      i 0 y { y with stages := y.stages.set 0 (stageOf y.stages 0 ++ [.data t]) }) := by
  have hin : s.circuitIn y = some (.data t) := by
    rw [State.circuitIn, hw]
    dsimp only
    rw [hc]
    dsimp only
    rw [hb]
    rfl
  have htake : s.circuitTake i y = withLink s l { Tbl.get {} s.links l with rx := r } := by
    rw [State.circuitTake, hw]
    dsimp only
    rw [hc]
    dsimp only
    rw [hb]
    rfl
  rw [circuitHop_takes hy hh hn hroom hin (z := y) (by rw [htake]; exact hy) rfl, htake]

theorem circuitHop_moves {f : Flit} {r : List Flit} (hh : ¬ HopHeld s y h) (h0 : 0 < h) (hn : h < y.stages.length)
    (hs : stageOf y.stages (h - 1) = f :: r) (hroom : (stageOf y.stages h).length < 2) :
    exec (.circuitTokenTransfer i h) s = .next (hopped s i h y
      { y with stages := (y.stages.set (h - 1) r).set h (stageOf y.stages h ++ [f]) }) := by
  rw [circuitHop_forward hy hh hn.le, State.dataHop]
  rw [if_neg (by omega), stageHead_of hs, Option.bind_some, if_pos hn, if_pos (stageRoom_iff.2 ⟨hn, hroom⟩),
    Option.map_some, Option.getD_some, crossed_modCircuit_eq_hopped hy, putStage_takeStage h0 hs]

/-- The last hop delivers, or waits. -/
theorem circuitHop_delivers {f : Flit} {r : List Flit} (hh : ¬ HopHeld s y h) (h0 : 0 < h) (hn : h = y.stages.length)
    (hs : stageOf y.stages (h - 1) = f :: r) :
    exec (.circuitTokenTransfer i h) s = .next (((s.deliverEnd y f).map (fun v =>
      if v.2 then hopped v.1 i h y { y with stages := y.stages.set (h - 1) r } else v.1.crossed y h)).getD s) := by
  rw [circuitHop_forward hy hh hn.le, State.dataHop]
  rw [if_neg (by omega), stageHead_of hs, Option.bind_some, if_neg (by omega)]
  cases hd : s.deliverEnd y f with
  | none => rfl
  | some v =>
    obtain ⟨v, ok⟩ := v
    cases ok
    · rfl
    · simp only [Option.map_some, Option.getD_some, if_true]
      rw [crossed_modCircuit_eq_hopped (s.deliverEnd_circuits hd ▸ hy), takeStage_of hs]

/-! ## The hops of the way back -/

theorem requestHop_takes {w : BitVec 131} {r : List (BitVec 131)} (hh : ¬ HopHeld s y h) (hn : h = y.stages.length + 1)
    (ha : y.asks = w :: r) (hb : 0 < y.back.length) (hroom : (stageOf y.back 0).length < 2) :
    exec (.circuitTokenTransfer i h) s =
      .next (hopped s i h y { y with asks := r, back := y.back.set 0 (stageOf y.back 0 ++ [w]) }) := by
  rw [circuitHop_back hy hh (j := 0) hn, State.requestHop]
  rw [if_pos rfl, ha]
  dsimp only
  rw [if_pos (stageRoom_iff.2 ⟨hb, hroom⟩), Option.map_some, Option.getD_some, crossed_modCircuit_eq_hopped hy]
  rfl

section
variable {j : Nat} {w : BitVec 131} {r : List (BitVec 131)} (hh : ¬ HopHeld s y h) (hn : h = y.stages.length + 1 + j)
  (h0 : 0 < j) (hs : stageOf y.back (j - 1) = w :: r)
include hh hn h0 hs

theorem requestHop_moves (hj : j < y.back.length) (hroom : (stageOf y.back j).length < 2) :
    exec (.circuitTokenTransfer i h) s = .next (hopped s i h y
      { y with back := (y.back.set (j - 1) r).set j (stageOf y.back j ++ [w]) }) := by
  rw [circuitHop_back hy hh hn, State.requestHop]
  rw [if_neg (by omega), stageHead_of hs, Option.bind_some, if_pos hj, if_pos (stageRoom_iff.2 ⟨hj, hroom⟩),
    Option.map_some, Option.getD_some, crossed_modCircuit_eq_hopped hy, putStage_takeStage h0 hs]

theorem requestHop_delivers {v : State} (hj : j = y.back.length) (hv : s.requestArrive y w = some v) :
    exec (.circuitTokenTransfer i h) s =
      .next ((v.modCircuit i (fun z => { z with back := takeStage (j - 1) z.back })).crossed y h) := by
  rw [circuitHop_back hy hh hn, State.requestHop]
  rw [if_neg (by omega), stageHead_of hs, Option.bind_some, if_neg (by omega), if_pos hj, hv, Option.map_some,
    Option.map_some, Option.getD_some]

end

end

end

end Sys2Proof.Machine
end

section
/-!
SUPPORT. Ports at work (R129, R130, R133, R212), and the commands that a sweep drops (R305).
-/

namespace Sys2Proof.Machine

variable {s : State} {c p : Nat}

/-! ## A source port's token (R129, R130, R151) -/

/-- A source port does nothing: its command stands still at a line's end, the port has stalled or stopped, or no one
asks for its node. -/
def SourceStands (s : State) (c p : Nat) (r : Running) : Prop :=
  (s.core c).portStands r = true ∨ ((s.core c).port p).stalled = true ∨ ((s.core c).port p).tagStopped = true
    ∨ s.requested c (16 + p) = false

/-- The machine once a source port has read the elements of its next token and has delivered it. -/
def State.sourceReads (u : State) (c p : Nat) (r : Running) (l : List (Option Word)) (rest : List Item) : State :=
  let n := Desc.size r.cmd.d
  let x := State.readElems c n (Desc.pad r.cmd.d) u l
  let w := x.1.modPort c p (fun y => { y with
    posted := y.posted + BitVec.ofNat 32 (n * l.length)
    read := y.read + BitVec.ofNat 32 (n * (l.filterMap id).length) })
  (if Desc.drain r.cmd.d = true then (finished c n (.data l) rest).foldl State.consumed w else w).srcAdvance c p
    ⟨x.2.2, 0, packElems n x.2.1⟩
    { r with items := rest, last := ((l.filterMap id).getLast?.map (fun a => a.toNat / 128)).or r.last }

theorem sourceStands_iff (hp : p < 16) (r : Running) : SourceStands s c p r ↔
    (decide (16 ≤ p) || (s.core c).portStands r || ((s.core c).port p).stalled || ((s.core c).port p).tagStopped
      || !s.requested c (16 + p)) = true := by
  unfold SourceStands
  simp [hp, or_assoc]

/-- A source port may read its next token: the token has room, every line that it reads is full, and no atomic at a
scratchpad port holds a word of it (R76, R120, R139). -/
def SourceMay (s : State) (c p n : Nat) (l : List (Option Word)) : Prop :=
  (s.core c).srcRoom p {} = true ∧ (∀ y ∈ Item.lines c n (.data l), s.isEmpty y = false)
    ∧ ∀ a ∈ l.filterMap id, s.elemHeld c n a = false

theorem not_sourceMay_iff (s : State) (c p n : Nat) (l : List (Option Word)) : ¬ SourceMay s c p n l ↔
    (!(s.core c).srcRoom p {} || (Item.lines c n (.data l)).any s.isEmpty || (l.filterMap id).any (s.elemHeld c n))
      = true := by
  rw [← Bool.not_eq_false, Bool.or_eq_false_iff, Bool.or_eq_false_iff, Bool.not_eq_false', List.any_eq_false,
    List.any_eq_false, and_assoc]
  simp only [SourceMay, Bool.not_eq_true]

section
variable {r : Running} (hr : ((s.core c).port p).run = some r) (hp : p < 16)
include hr hp

theorem sourceToken_stands (h : SourceStands s c p r) : exec (.streamSourceToken c p) s = .next s := by
  rw [exec_streamSourceToken, execStreamSourceToken]
  dsimp only
  rw [hr]
  exact if_pos ((sourceStands_iff hp r).1 h)

section
variable (h : ¬ SourceStands s c p r)
include h

theorem sourceToken_mark {rank : Nat} {rest : List Item} (hi : r.items = .mark rank :: rest) :
    exec (.streamSourceToken c p) s = .next (if (s.core c).srcRoom p { kind := BitVec.ofNat 3 rank } then
      s.srcAdvance c p { kind := BitVec.ofNat 3 rank } { r with items := rest } else s) := by
  rw [exec_streamSourceToken, execStreamSourceToken]
  dsimp only
  rw [hr]
  dsimp only
  rw [if_neg (mt (sourceStands_iff hp r).2 h), hi]
  dsimp only
  split <;> rfl

/-- Elements: a fault stalls the port; else it waits until it may read, asks for tokens, and reads. -/
theorem sourceToken_data {l : List (Option Word)} {rest : List Item} (hi : r.items = .data l :: rest) :
    let n := Desc.size r.cmd.d
    let fault := (l.filterMap id).findSome? (s.elemFault c false n)
    (∀ cause v, fault = some (cause, v) → exec (.streamSourceToken c p) s =
      .next ((s.modPort c p (fun x => { x with stalled := true })).stall c 2 p cause v (.port c p)))
    ∧ (fault = none → ¬ SourceMay s c p n l → exec (.streamSourceToken c p) s = .next s)
    ∧ (∀ u ok, fault = none → SourceMay s c p n l → portTokens s c n l = (u, ok) →
      exec (.streamSourceToken c p) s = .next (if ok then u.sourceReads c p r l rest else u)) := by
  intro n fault
  refine ⟨fun cause v hf => ?_, fun hf hm => ?_, fun u ok hf hm ht => ?_⟩
  all_goals
    rw [exec_streamSourceToken, execStreamSourceToken]
    dsimp only
    rw [hr]
    dsimp only
    rw [if_neg (mt (sourceStands_iff hp r).2 h), hi]
    have hf : (Item.inside (.data l)).findSome? (s.elemFault c false n) = _ := hf
    dsimp only
    rw [hf]
  · exact if_pos ((not_sourceMay_iff s c p n l).1 hm)
  · have ht : (if globalBytes n (Item.inside (.data l)) = 0 then (s, true)
      else s.takeTokens c (globalBytes n (Item.inside (.data l)))) = (u, ok) := ht
    refine (if_neg (mt (not_sourceMay_iff s c p n l).2 (not_not.2 hm))).trans ?_
    rw [ht]
    cases ok <;> rfl

end

end

/-! ## A sink port's token (R129, R130, R233) -/

/-- A sink port does nothing: its command stands still at a line's end, or the port has stalled. -/
def SinkStands (s : State) (c p : Nat) (r : Running) : Prop :=
  (s.core c).portStands r = true ∨ ((s.core c).port (16 + p)).stalled = true

/-- The machine once a sink port has written the elements of its next token. -/
def State.sinkWrites (u : State) (c p : Nat) (r : Running) (t : Token) (more : List Token) (l : List (Option Word))
    (rest : List Item) : State :=
  let n := Desc.size r.cmd.d
  let x := State.writeElems c n t.value.toNat t.poison (u, r.mask) l
  (if Desc.fill r.cmd.d = true then (finished c n (.data l) rest).foldl State.fillLine x.1 else x.1).modPort c (16 + p)
    (fun y => { y with
      buf := more, posted := y.posted + BitVec.ofNat 32 (n * l.length)
      run := some { cmd := r.cmd, items := rest, mask := x.2
                    last := ((l.filterMap id).getLast?.map (fun a => a.toNat / 128)).or r.last } })

theorem sinkStands_iff (hp : p < 16) (r : Running) : SinkStands s c p r ↔
    (decide (16 ≤ p) || (s.core c).portStands r || ((s.core c).port (16 + p)).stalled) = true := by
  unfold SinkStands
  simp [Nat.not_le.2 hp]

section
variable {r : Running} {t : Token} {more : List Token} (hr : ((s.core c).port (16 + p)).run = some r)
  (hb : ((s.core c).port (16 + p)).buf = t :: more) (hp : p < 16)
include hr hb hp

theorem sinkToken_stands (h : SinkStands s c p r) : exec (.streamSinkToken c p) s = .next s := by
  rw [exec_streamSinkToken, execStreamSinkToken]
  dsimp only
  rw [hr, hb]
  exact if_pos ((sinkStands_iff hp r).1 h)

section
variable (h : ¬ SinkStands s c p r)
include h

theorem sinkToken_mark (hk : t.kind ≠ 0) : exec (.streamSinkToken c p) s =
    .next (s.modPort c (16 + p) (fun x => { x with buf := more })) := by
  rw [exec_streamSinkToken, execStreamSinkToken]
  dsimp only
  rw [hr, hb]
  dsimp only
  rw [if_neg (mt (sinkStands_iff hp r).2 h), if_pos hk]

theorem sinkToken_done (hk : t.kind = 0) (hi : r.items = []) : exec (.streamSinkToken c p) s = .next s := by
  rw [exec_streamSinkToken, execStreamSinkToken]
  dsimp only
  rw [hr, hb]
  dsimp only
  rw [if_neg (mt (sinkStands_iff hp r).2 h), if_neg (not_not.2 hk), hi]

/-- Elements: a fault stalls the port; else it waits for atomics at a port, asks for tokens, and writes. -/
theorem sinkToken_data (hk : t.kind = 0) {l : List (Option Word)} {rest : List Item} (hi : r.items = .data l :: rest) :
    let n := Desc.size r.cmd.d
    let fault := (l.filterMap id).findSome? (s.elemFault c true n)
    let held := ∃ a ∈ l.filterMap id, s.elemHeld c n a = true
    (∀ cause v, fault = some (cause, v) → exec (.streamSinkToken c p) s =
      .next ((s.modPort c (16 + p) (fun x => { x with stalled := true })).stall c 2 p cause v (.port c (16 + p))))
    ∧ (fault = none → held → exec (.streamSinkToken c p) s = .next s)
    ∧ (∀ u ok, fault = none → ¬ held → portTokens s c n l = (u, ok) →
      exec (.streamSinkToken c p) s = .next (if ok then u.sinkWrites c p r t more l rest else u)) := by
  intro n fault held
  refine ⟨fun cause v hf => ?_, fun hf hh => ?_, fun u ok hf hh ht => ?_⟩
  all_goals
    rw [exec_streamSinkToken, execStreamSinkToken]
    dsimp only
    rw [hr, hb]
    dsimp only
    rw [if_neg (mt (sinkStands_iff hp r).2 h), if_neg (not_not.2 hk), hi]
    have hf : (Item.inside (.data l)).findSome? (s.elemFault c true n) = _ := hf
    dsimp only
    rw [hf]
  · exact if_pos (List.any_eq_true.2 hh)
  · have ht : (if globalBytes n (Item.inside (.data l)) = 0 then (s, true)
      else s.takeTokens c (globalBytes n (Item.inside (.data l)))) = (u, ok) := ht
    refine (if_neg (mt List.any_eq_true.1 hh)).trans ?_
    rw [ht]
    cases ok <;> rfl

end

end

/-! ## The delivery of a source port's token (R151, R212) -/

theorem srcDeliver_untagged (h : ((s.core c).port p).tag = none) (t : Token) :
    s.srcDeliver c p t = some (s.srcPut c p t) := by
  unfold State.srcDeliver
  rw [h]

theorem srcAdvance_eq (s : State) (c p : Nat) (t : Token) (r : Running) : s.srcAdvance c p t r =
    (((s.modPort c p (fun y => { y with run := some r })).srcDeliver c p t).getD
      ((s.modPort c p (fun y => { y with run := some r })).tagStop c p t)) := by
  unfold State.srcAdvance
  dsimp only
  cases (s.modPort c p (fun y => { y with run := some r })).srcDeliver c p t <;> rfl

/-! ## Commands dropped at once (R133, R305, R419) -/

/-- A port has no command. -/
def PortIdle (s : State) (d n : Nat) : Prop := ((s.core d).port n).q = [] ∧ ((s.core d).port n).run = none

/-- Commands have been dropped: memory, launches and partitions stand, and a port without a command has none. -/
def CommandsDropped (s t : State) : Prop :=
  t.mem = s.mem ∧ t.launches = s.launches ∧ t.parts = s.parts ∧ ∀ d n, PortIdle s d n → PortIdle t d n

theorem CommandsDropped.parts {t : State} (h : CommandsDropped s t) : t.parts = s.parts :=
  have ⟨_, _, hparts, _⟩ := h
  hparts

theorem CommandsDropped.idle {t : State} (h : CommandsDropped s t) {d n : Nat} (hidle : PortIdle s d n) :
    PortIdle t d n :=
  have ⟨_, _, _, keeps⟩ := h
  keeps d n hidle

theorem CommandsDropped.refl (s : State) : CommandsDropped s s := ⟨rfl, rfl, rfl, fun _ _ h => h⟩

theorem CommandsDropped.trans {t u : State} (h : CommandsDropped s t) (k : CommandsDropped t u) :
    CommandsDropped s u := by
  obtain ⟨hmem, hlaunches, hparts, hidle⟩ := h
  obtain ⟨kmem, klaunches, kparts, kidle⟩ := k
  exact ⟨kmem.trans hmem, klaunches.trans hlaunches, kparts.trans hparts, fun d n h => kidle d n (hidle d n h)⟩

theorem foldl_commandsDropped {β : Type} {f : State → β → State} (hf : ∀ s x, CommandsDropped s (f s x)) (l : List β)
    (s : State) : CommandsDropped s (l.foldl f s) := by
  induction l generalizing s with
  | nil => exact CommandsDropped.refl s
  | cons x r ih => exact (hf s x).trans (ih (f s x))

/-- The ports of every core, memory, launches and partitions stand. -/
def SamePorts (s t : State) : Prop :=
  t.mem = s.mem ∧ t.launches = s.launches ∧ t.parts = s.parts ∧ ∀ d, (t.core d).ports = (s.core d).ports

theorem SamePorts.trans {t u : State} (h : SamePorts s t) (k : SamePorts t u) : SamePorts s u := by
  obtain ⟨hmem, hlaunches, hparts, hports⟩ := h
  obtain ⟨kmem, klaunches, kparts, kports⟩ := k
  exact ⟨kmem.trans hmem, klaunches.trans hlaunches, kparts.trans hparts, fun d => (kports d).trans (hports d)⟩

theorem foldl_samePorts {β : Type} {f : State → β → State} (hf : ∀ s x, SamePorts s (f s x)) (l : List β) (s : State) :
    SamePorts s (l.foldl f s) := by
  induction l generalizing s with
  | nil => exact ⟨rfl, rfl, rfl, fun _ => rfl⟩
  | cons x r ih => exact (hf s x).trans (ih (f s x))

theorem consumed_samePorts (s : State) (l : Nat) : SamePorts s (s.consumed l) := by
  unfold State.consumed
  dsimp only
  split_ifs <;> exact ⟨rfl, rfl, rfl, fun _ => rfl⟩

theorem dropCmd_samePorts (s : State) (c : Nat) (m : Cmd) (rest : List Item) : SamePorts s (s.dropCmd c m rest) := by
  have chain (u : State) (f : Chain → Chain) : SamePorts u (u.modChain c m.chain f) := by
    refine ⟨rfl, rfl, rfl, fun d => ?_⟩
    rw [State.modChain_eq, State.core_setCore]
    split
    next h => rw [h]
    · rfl
  unfold State.dropCmd
  dsimp only
  split_ifs
  · exact (foldl_samePorts consumed_samePorts _ s).trans (chain _ _)
  · exact chain s _

theorem Core.port_put (k : Core) (p : Nat) (x : Port) (n : Nat) :
    ({ k with ports := k.ports.put p x } : Core).port n = if n = p then x else k.port n := Tbl.get_put _ _ _ _ _

/-- A port of a core keeps or loses its commands, and every other port stands. -/
theorem modPort_commandsDropped {f : Port → Port} (hf : ∀ x, x.q = [] → (f x).q = [])
    (hr : ∀ x, x.run = none → (f x).run = none) (s : State) (c p : Nat) : CommandsDropped s (s.modPort c p f) := by
  refine ⟨rfl, rfl, rfl, fun d n ⟨hq, hrun⟩ => ?_⟩
  unfold PortIdle
  rw [State.modPort_eq, State.core_setCore]
  split
  next h =>
    subst h
    rw [Core.port_put]
    split
    next h =>
      subst h
      exact ⟨hf _ hq, hr _ hrun⟩
    · exact ⟨hq, hrun⟩
  · exact ⟨hq, hrun⟩

theorem SamePorts.port {s t : State} (h : SamePorts s t) (d n : Nat) : (t.core d).port n = (s.core d).port n := by
  obtain ⟨-, -, -, hports⟩ := h
  rw [Core.port, hports d]
  rfl

theorem SamePorts.dropped {s t : State} (h : SamePorts s t) : CommandsDropped s t := by
  have ⟨hmem, hlaunches, hparts, _⟩ := h
  refine ⟨hmem, hlaunches, hparts, fun d n hidle => ?_⟩
  unfold PortIdle at hidle ⊢
  rwa [h.port d n]

theorem foldl_dropCmd_samePorts (s : State) (c : Nat) (l : List Cmd) :
    SamePorts s (l.foldl (fun s m => s.dropCmd c m m.items) s) :=
  foldl_samePorts (fun s m => dropCmd_samePorts s c m m.items) l s

/-- The machine once the running command of a port is dropped. -/
def State.dropRunning (s : State) (c p : Nat) (pick : Cmd → Bool) : State :=
  match ((s.core c).port p).run with
  | some r => if pick r.cmd then
      (s.dropCmd c r.cmd r.items).modPort c p (fun x => { x with run := none, stalled := false }) else s
  | none => s

theorem State.dropCmds_eq (s : State) (c p : Nat) (pick : Cmd → Bool) : s.dropCmds c p pick =
    ((((s.core c).port p).q.filter pick).foldl (fun s m => s.dropCmd c m m.items) (s.dropRunning c p pick)).modPort c p
      (fun x => { x with q := x.q.filter (fun m => !pick m) }) := rfl

theorem dropRunning_dropped (s : State) (c p : Nat) (pick : Cmd → Bool) :
    CommandsDropped s (s.dropRunning c p pick) := by
  unfold State.dropRunning
  split
  next r _ =>
    split_ifs
    · refine (dropCmd_samePorts s c r.cmd r.items).dropped.trans ?_
      exact modPort_commandsDropped (f := fun x => { x with run := none, stalled := false }) (fun _ h => h)
        (fun _ _ => rfl) _ c p
    · exact CommandsDropped.refl s
  · exact CommandsDropped.refl s

theorem dropRunning_run (s : State) (c p : Nat) :
    (((s.dropRunning c p (fun _ => true)).core c).port p).run = none := by
  unfold State.dropRunning
  split
  · rw [if_pos rfl, State.modPort_eq, State.core_setCore, if_pos rfl, Core.port_put, if_pos rfl]
  next h => exact h

theorem dropCmds_dropped (s : State) (c p : Nat) (pick : Cmd → Bool) : CommandsDropped s (s.dropCmds c p pick) := by
  rw [State.dropCmds_eq]
  refine (dropRunning_dropped s c p pick).trans
    ((foldl_dropCmd_samePorts _ c (((s.core c).port p).q.filter pick)).dropped.trans ?_)
  exact modPort_commandsDropped (f := fun x => { x with q := x.q.filter (fun m => !pick m) }) (fun x h => by simp [h])
    (fun _ h => h) _ c p

/-- All commands of a port dropped leave it without a command. -/
theorem dropCmds_idle (s : State) (c p : Nat) : PortIdle (s.dropCmds c p (fun _ => true)) c p := by
  unfold PortIdle
  rw [State.dropCmds_eq, State.modPort_eq, State.core_setCore, if_pos rfl, Core.port_put, if_pos rfl]
  refine ⟨by simp, ?_⟩
  dsimp only
  rw [(foldl_dropCmd_samePorts _ c _).port c p, dropRunning_run]

/-! ## The sweep of a launch whose sinks are complete (R305) -/

/-- A fold that keeps an invariant, and what it has reached for each element, has reached it for all. -/
theorem foldl_reaches {β : Type} {f : State → β → State} {I : State → Prop} {P : β → State → Prop}
    (hI : ∀ s x, I s → I (f s x)) (hself : ∀ s x, I s → P x (f s x)) (hkeep : ∀ s x y, P y s → P y (f s x))
    (l : List β) (s : State) (h : I s) : ∀ x ∈ l, P x (l.foldl f s) := by
  have kept (l : List β) (y : β) : ∀ s, P y s → P y (l.foldl f s) := by
    induction l with
    | nil => exact fun _ h => h
    | cons x r ih => exact fun s h => ih _ (hkeep s x y h)
  induction l generalizing s with
  | nil => nofun
  | cons x r ih =>
    intro y hy
    rcases List.mem_cons.1 hy with rfl | hy
    · exact kept r y _ (hself s y h)
    · exact ih _ (hI s x h) y hy

/-- The port of a source or sink node by the number that its graph gives. -/
def sweptPort (n : GNode) (w : GPort) : Nat := if n.kind = 3 then w.num else 16 + w.num

/-- Does a sweep complete the commands on the node's ports: a source node that is no start node and ends no circuit,
or an output of the launch (R305)? -/
def Swept (g : GGraph) (x : Nat × GNode) : Prop :=
  (x.2.kind = 3 ∧ g.isStart x.1 = false ∧ g.crossing x.1 = none) ∨ x.1 ∈ g.sinks

/-- The sweep of one node. -/
def State.sweepNode (l : Launch) (g : GGraph) (s : State) (x : Nat × GNode) : State :=
  if (x.2.kind = 3 ∧ g.isStart x.1 = false ∧ (g.crossing x.1).isNone) ∨ g.sinks.contains x.1 then
    match s.nodeCore l x.2 with
    | none => s
    | some c => x.2.ports.foldl (fun s w => s.dropCmds c (sweptPort x.2 w) (fun _ => true)) s
  else s

theorem sinkCompletionSweep_of {n : Nat} {l : Launch} {g : GGraph} (hl : s.launches.find n = some l)
    (hg : s.graphOf l = some g) : exec (.sinkCompletionSweep n) s =
    .next (if g.sinks.all (s.sinkDone l g) then
      ((enum g.nodes).foldl (State.sweepNode l g) s).modLaunch n (fun l => { l with swept := true }) else s) := by
  rw [exec_sinkCompletionSweep, execSinkCompletionSweep, hl]
  dsimp only
  rw [hg]
  dsimp only
  cases g.sinks.all (s.sinkDone l g) <;> rfl

theorem nodeCore_of_parts {t : State} (h : t.parts = s.parts) (l : Launch) (n : GNode) :
    t.nodeCore l n = s.nodeCore l n := by
  unfold State.nodeCore State.physCore State.part
  rw [h]

theorem sweepNode_dropped (l : Launch) (g : GGraph) (s : State) (x : Nat × GNode) :
    CommandsDropped s (s.sweepNode l g x) := by
  unfold State.sweepNode
  split_ifs
  · split
    · exact CommandsDropped.refl s
    · exact foldl_commandsDropped (fun s w => dropCmds_dropped s _ _ _) _ s
  · exact CommandsDropped.refl s

/-- The sweep of a node leaves each of its ports without a command. -/
theorem sweepNode_idle {l : Launch} {g : GGraph} {x : Nat × GNode} (hx : Swept g x) {d : Nat}
    (hd : s.nodeCore l x.2 = some d) : ∀ w ∈ x.2.ports, PortIdle (s.sweepNode l g x) d (sweptPort x.2 w) := by
  have cond : (x.2.kind = 3 ∧ g.isStart x.1 = false ∧ (g.crossing x.1).isNone) ∨ g.sinks.contains x.1 := by
    simpa [Swept] using hx
  unfold State.sweepNode
  rw [if_pos cond, hd]
  exact foldl_reaches (I := fun _ => True) (P := fun w s => PortIdle s d (sweptPort x.2 w)) (fun _ _ _ => trivial)
    (fun s w _ => dropCmds_idle s d _) (fun s w y h => (dropCmds_dropped s d _ _).idle h) x.2.ports s trivial

theorem sweep_idle (l : Launch) (g : GGraph) (s : State) : ∀ x ∈ enum g.nodes, Swept g x →
    ∀ d, s.nodeCore l x.2 = some d → ∀ w ∈ x.2.ports,
      PortIdle ((enum g.nodes).foldl (State.sweepNode l g) s) d (sweptPort x.2 w) := by
  refine foldl_reaches (I := fun t => t.parts = s.parts) (P := fun x t => Swept g x → ∀ d, s.nodeCore l x.2 = some d →
    ∀ w ∈ x.2.ports, PortIdle t d (sweptPort x.2 w)) (fun t x h => ?_) (fun t x h hx d hd => ?_)
    (fun t x y h hy d hd w hw => ?_) _ s rfl
  · exact (sweepNode_dropped l g t x).parts.trans h
  · exact sweepNode_idle hx ((nodeCore_of_parts h l x.2).trans hd)
  · exact (sweepNode_dropped l g t x).idle (h hy d hd w hw)

end Sys2Proof.Machine
end

section
/-!
O49: what the stream engine and the circuits do on their own.
-/

namespace Sys2Proof.Machine

variable {s : State} {c p : Nat}

/-! ## The start and the completion of a command (R131, R420) -/

/-- The class by which a fence holds a command: a gather reads its list, any other command its lines (R180). -/
def startClass (m : Cmd) : Nat := match m.kind with | .gath _ => 3 | _ => 1

/-- The walk of a command on a port: a sink takes the elements only (R129). -/
def startItems (p : Nat) (m : Cmd) : List Item :=
  if p < 16 then m.items else m.items.filter (fun y => match y with | .data _ => true | .mark _ => false)

theorem streamCommandStart_of {m : Cmd} {q : List Cmd} (hr : ((s.core c).port p).run = none)
    (hq : ((s.core c).port p).q = m :: q) : exec (.streamCommandStart c p) s =
      .next (if (s.core c).frozen || s.fenced c (startClass m) m.seq then s
        else s.modPort c p (fun x => { x with q := q, run := some { cmd := m, items := startItems p m } })) := by
  rw [exec_streamCommandStart, execStreamCommandStart]
  dsimp only
  rw [hr, hq]
  cases h : ((s.core c).frozen || s.fenced c (startClass m) m.seq)
  · exact if_neg (Bool.eq_false_iff.1 h)
  · exact if_pos h

theorem streamCommandComplete_of {r : Running} (hr : ((s.core c).port p).run = some r) :
    exec (.streamCommandComplete c p) s = .next (if r.items.isEmpty then
      (s.modPort c p (fun x => { x with run := none })).modChain c r.cmd.chain (fun x => { x with cp := x.cp - 1 })
    else s) := by
  rw [exec_streamCommandComplete, execStreamCommandComplete, hr]
  dsimp only
  cases r.items.isEmpty <;> rfl

/-- A command whose walk is done leaves its port, and its chain has one command less. -/
theorem streamCommandComplete_done {r : Running} (hr : ((s.core c).port p).run = some r)
    (hi : r.items = []) : Completes (.streamCommandComplete c p) s (fun t => t.mem = s.mem
      ∧ (t.core c).port p = { (s.core c).port p with run := none }
      ∧ (t.core c).chain r.cmd.chain =
        { (s.core c).chain r.cmd.chain with cp := ((s.core c).chain r.cmd.chain).cp - 1 }) := by
  have e := streamCommandComplete_of hr
  rw [hi, List.isEmpty_nil, if_pos rfl] at e
  refine ⟨_, e, rfl, ?_, ?_⟩ <;>
  · simp only [State.modChain_eq, State.modPort_eq, State.core_setCore, if_true]
    exact Tbl.get_put_self _ _ _ _

/-! ## Row tags (R212) -/

/-- A port with `rowtags` takes the token that waits at its circuit's end. -/
def RowTagMay (s : State) (c p : Nat) (y : Circuit) (t : Token) : Prop :=
  ((s.core c).port p).tag ≠ none ∧ ((s.core c).port p).tagStopped = false ∧ (s.core c).srcRoom p t = true
    ∧ s.nameAhead c (16 + p) = true ∧ ∀ l, y.link y.stages.length = some l → s.rekeying l = false

theorem not_rowTagMay_iff (s : State) (c p : Nat) (y : Circuit) (t : Token) : ¬ RowTagMay s c p y t ↔
    (((s.core c).port p).tag.isNone || ((s.core c).port p).tagStopped || !(s.core c).srcRoom p t
      || !s.nameAhead c (16 + p) || (y.link y.stages.length).any s.rekeying) = true := by
  rw [← Bool.not_eq_false, not_iff_not]
  simp only [RowTagMay, Bool.or_eq_false_iff, Bool.not_eq_false', and_assoc, ne_eq, Option.isNone_eq_false_iff,
    Option.isSome_iff_ne_none, Option.any_eq_false]

theorem rowTagArrival_of {i : Nat} {y : Circuit} {t : Token} {r : List Flit}
    (hi : s.circuits.findIdx? (fun z => z.core2 == c && z.src == p && !z.toVc && z.goes.isNone && !z.failed) = some i)
    (hy : s.circuits[i]? = some y) (hs : stageOf y.stages (y.stages.length - 1) = .data t :: r) :
    (¬ RowTagMay s c p y t → exec (.rowTagArrival c p) s = .next s)
    ∧ (RowTagMay s c p y t → s.srcDeliver c p t = none → exec (.rowTagArrival c p) s = .next (s.tagStop c p t))
    ∧ (∀ v, RowTagMay s c p y t → s.srcDeliver c p t = some v → exec (.rowTagArrival c p) s =
      .next (hopped v i y.stages.length y { y with stages := y.stages.set (y.stages.length - 1) r })) := by
  refine ⟨fun h => ?_, fun h hd => ?_, fun v h hd => ?_⟩
  all_goals
    rw [exec_rowTagArrival, execRowTagArrival, hi]
    dsimp only
    rw [hy]
    dsimp only
    rw [stageHead_of hs]
    dsimp only
  · exact if_pos ((not_rowTagMay_iff s c p y t).1 h)
  · rw [if_neg (mt (not_rowTagMay_iff s c p y t).2 (not_not.2 h)), hd]
  · rw [if_neg (mt (not_rowTagMay_iff s c p y t).2 (not_not.2 h)), hd]
    dsimp only
    rw [State.crossed_modCircuit, crossed_modCircuit_eq_hopped (s.srcDeliver_circuits hd ▸ hy), takeStage_of hs]

/-! ## A circuit's hops by where they stand (R92, R149, R254) -/

section
variable {i h : Nat} {y : Circuit}

/-- A first hop takes a wave token, the sink port's token or the link's (R92, R149, R254). -/
theorem circuitHop_first (hy : s.circuits[i]? = some y) (hh : ¬ HopHeld s y h)
    (h0 : h = 0) (hn : 0 < y.stages.length) (hroom : (stageOf y.stages 0).length < 2) :
    (∀ w r, y.names = w :: r → exec (.circuitTokenTransfer i h) s = .next (hopped s i h y
      { y with names := r, stages := y.stages.set 0 (stageOf y.stages 0 ++ [.wave w]) }))
    ∧ (∀ t r, y.names = [] → y.comes = none → ((s.core y.core).port (16 + y.sink)).buf = t :: r →
      exec (.circuitTokenTransfer i h) s = .next (hopped (s.modPort y.core (16 + y.sink) (fun q => { q with buf := r }))
        i h y { y with stages := y.stages.set 0 (stageOf y.stages 0 ++ [.data t]) }))
    ∧ (∀ l t r, y.names = [] → y.comes = some l → (Tbl.get {} s.links l).rx = t :: r →
      exec (.circuitTokenTransfer i h) s = .next (hopped (withLink s l { Tbl.get {} s.links l with rx := r })
        i h y { y with stages := y.stages.set 0 (stageOf y.stages 0 ++ [.data t]) })) := by
  subst h0
  exact ⟨fun _ _ hw => circuitHop_takes_name hy hh hn hroom hw,
    fun _ _ hw hc hb => circuitHop_takes_sink hy hh hn hroom hw hc hb,
    fun _ _ _ hw hc hb => circuitHop_takes_link hy hh hn hroom hw hc hb⟩

/-- A data token at the circuit's end goes to the link, the port or the virtual channel, or waits (R92, R237, R254). -/
theorem circuitHop_data {t : Token} {r : List Flit}
    (hy : s.circuits[i]? = some y) (hh : ¬ HopHeld s y h) (h0 : 0 < h) (hn : h = y.stages.length)
    (hs : stageOf y.stages (h - 1) = .data t :: r) :
    (s.endRoom y t = false → exec (.circuitTokenTransfer i h) s = .next s)
    ∧ (∀ l, y.goes = some l → exec (.circuitTokenTransfer i h) s =
      .next (hopped (s.sendFlit l t) i h y { y with stages := y.stages.set (h - 1) r }))
    ∧ (s.endRoom y t = true → y.goes = none → y.toVc = false → exec (.circuitTokenTransfer i h) s =
      .next (hopped (s.srcPut y.core2 y.src t) i h y { y with stages := y.stages.set (h - 1) r }))
    ∧ (∀ v ok, s.endRoom y t = true → y.goes = none → y.toVc = true →
      (s.noteArrival y t).vcArrive y.core2 y.src t = (v, ok) → exec (.circuitTokenTransfer i h) s =
        .next (if ok then hopped v i h y { y with stages := y.stages.set (h - 1) r } else v.crossed y h)) := by
  rw [circuitHop_delivers hy hh h0 hn hs]
  refine ⟨fun h => ?_, fun l hg => ?_, fun h hg hv => ?_, fun v ok h hg hv ha => ?_⟩
  · rw [deliverEnd_waits h]
    rfl
  · rw [deliverEnd_room (endRoom_link hg s t), endPut_link hg]
    rfl
  · rw [deliverEnd_room h, endPut_port hg hv]
    rfl
  · rw [deliverEnd_room h, endPut_vc hg hv, ha]
    rfl

/-- A wave token at the circuit's end arrives, or waits (R149). -/
theorem circuitHop_wave {w : BitVec 131} {r : List Flit}
    (hy : s.circuits[i]? = some y) (hh : ¬ HopHeld s y h) (h0 : 0 < h) (hn : h = y.stages.length)
    (hs : stageOf y.stages (h - 1) = .wave w :: r) :
    (s.waveArrive y w = none → exec (.circuitTokenTransfer i h) s = .next s)
    ∧ (∀ v, s.waveArrive y w = some v → exec (.circuitTokenTransfer i h) s =
      .next (hopped v i h y { y with stages := y.stages.set (h - 1) r })) := by
  rw [circuitHop_delivers hy hh h0 hn hs, show s.deliverEnd y (.wave w) = (s.waveArrive y w).map (·, true) from rfl]
  refine ⟨fun h => ?_, fun v h => ?_⟩ <;>
  · rw [h]
    rfl

end

/-! ## The sweep of a launch (R305) -/

/-- A launch whose sinks are complete is swept: the ports of its source and sink nodes have no command left. -/
theorem sinkCompletionSweep_swept {n : Nat} {l : Launch} {g : GGraph} (hl : s.launches.find n = some l)
    (hg : s.graphOf l = some g) (h : g.sinks.all (s.sinkDone l g) = true) :
    Completes (.sinkCompletionSweep n) s (fun t => t.mem = s.mem
      ∧ t.launches.find n = some { l with swept := true }
      ∧ ∀ x ∈ enum g.nodes, Swept g x → ∀ d, s.nodeCore l x.2 = some d → ∀ w ∈ x.2.ports,
        PortIdle t d (sweptPort x.2 w)) := by
  obtain ⟨hmem, hlaunches, -, -⟩ := foldl_commandsDropped (sweepNode_dropped l g) (enum g.nodes) s
  have e := sinkCompletionSweep_of hl hg
  rw [h, if_pos rfl, State.modLaunch, hlaunches, hl] at e
  exact ⟨_, e, hmem, Tbl.find_put_self _ _ _, sweep_idle l g s⟩

/-- Settles O49, event by event: a hop of a circuit, a step of a port, and the sweep as a fold over the nodes. -/
theorem streamEvents : Obligations.StreamEvents := by
  unfold Obligations.StreamEvents
  intro s c p k x
  refine ⟨?start, ?source, ?advance, ?put, ?sink, ?complete, ?circuit, ?rowTag, ?sweep⟩
  case start =>
    intro m q hr hq held items
    have e := streamCommandStart_of hr hq
    refine ⟨fun h => e.trans (congrArg _ (if_pos ?_)), fun h => e.trans (congrArg _ (if_neg ?_))⟩
    · exact Bool.or_eq_true_iff.2 h
    · exact mt Bool.or_eq_true_iff.1 h
  case source =>
    intro r hr hp stands n
    refine ⟨sourceToken_stands hr hp, fun rank rest h hi => ⟨fun hroom => ?_, fun hroom => ?_⟩, fun l rest h hi => ?_⟩
    · rw [sourceToken_mark hr hp h hi, if_neg (Bool.eq_false_iff.1 hroom)]
    · rw [sourceToken_mark hr hp h hi, if_pos hroom]
    · obtain ⟨hfault, hwait, hread⟩ := sourceToken_data hr hp h hi
      refine ⟨hfault, hwait, fun u hf hm ht => hread u false hf hm ht, fun u v vs bad hf hm ht hv => ?_⟩
      rw [hread u true hf hm ht, if_pos rfl, State.sourceReads]
      dsimp only
      rw [hv]
  case advance =>
    intro t r u
    rw [srcAdvance_eq]
    refine ⟨fun ht => ?_, fun v hv => ?_, fun hn => ?_⟩
    · have tag : ((u.core c).port p).tag = none := by
        simp only [u, State.modPort_eq, State.core_setCore, if_true, Core.port_put]
        exact ht
      rw [srcDeliver_untagged tag, Option.getD_some]
    · rw [hv, Option.getD_some]
    · rw [hn, Option.getD_none]
  case put =>
    intro t
    unfold State.srcPut
    exact ⟨fun h => if_pos h, fun h hr => by rw [if_neg h, if_pos hr],
      fun h hr => by rw [if_neg h, if_neg (Bool.eq_false_iff.1 hr)]⟩
  case sink =>
    intro r t more hr hb hp y stands n
    refine ⟨sinkToken_stands hr hb hp, fun h hk => sinkToken_mark hr hb hp h hk,
      fun h hk hi => sinkToken_done hr hb hp h hk hi, fun l rest h hk hi => ?_⟩
    obtain ⟨hfault, hwait, hwrite⟩ := sinkToken_data hr hb hp h hk hi
    refine ⟨hfault, hwait, fun u hf hh ht => hwrite u false hf hh ht, fun u v mask hf hh ht hv => ?_⟩
    rw [hwrite u true hf hh ht, if_pos rfl, State.sinkWrites, hv]
  case complete =>
    intro r hr
    refine ⟨fun hi => ?_, streamCommandComplete_done hr⟩
    rw [streamCommandComplete_of hr, if_neg (by simpa using hi)]
  case circuit =>
    intro i h y hy n b word held
    refine ⟨circuitHop_held hy, circuitHop_first hy,
      fun f r hh h0 hn hs hroom => circuitHop_moves hy hh h0 hn hs hroom,
      fun t r hh h0 hn hs => circuitHop_data hy hh h0 hn hs, fun w r hh h0 hn hs => circuitHop_wave hy hh h0 hn hs,
      fun w r hh hn ha hb hroom => requestHop_takes hy hh hn ha hb hroom,
      fun j w r hh hn h0 hs => ⟨fun hj hroom => requestHop_moves hy hh hn h0 hs hj hroom, fun v hj hv => ?_⟩⟩
    exact requestHop_delivers hy hh hn h0 hs hj hv
  case rowTag =>
    intro i y t r hi hy hn hs
    exact rowTagArrival_of hi hy hs
  case sweep =>
    intro n ln g hl hg
    refine ⟨fun h => ?_, sinkCompletionSweep_swept hl hg⟩
    rw [sinkCompletionSweep_of hl hg, h, if_neg Bool.false_ne_true]

end Sys2Proof.Machine
end

section
/-!
O27: the settings words, the clearing words and `mjoin` (R102, R103, R380, R386, R387, R398).
-/

namespace Sys2Proof.Machine

/-- A word that only changes the unit, and of it neither what the sequencer works with. -/
theorem matrix_sets {s : State} {drain : Bool} (h : MatrixIssues s drain) {i : Instr} {g : State → Mres} {f : Mx → Mx}
    {kind : Nat} (e : exec i s = matrixWord drain s g) (hg : g s = setMx s kind f) (hpc : (f s.here.mx).pc = s.here.mx.pc)
    (hwords : (f s.here.mx).words = s.here.mx.words) (hheld : (f s.here.mx).held = s.here.mx.held)
    (hchain : (f s.here.mx).chain = s.here.mx.chain) : Completes i s (MatrixIssued s kind 0 (f s.here.mx)) :=
  matrix_issued (m := f s.here.mx) h e hg hpc hwords hheld hchain

/-- A core whose chain's fork has joined: the matrix sequencer is idle (R386). -/
def Core.joined (k : Core) : Core :=
  { k with
    mx := { k.mx with active := false }
    chains := k.chains.put k.mx.chain { k.chain k.mx.chain with forkM := false } }

theorem mjoin_joins {s : State} (h : MatrixIssues s true) :
    exec .mjoin s = .next (issueWord s (s.setCore s.seat.core s.here.joined) wDrain 0) := by
  have hjoin : (s.modMx s.seat.core (fun m => { m with active := false })).modChain s.seat.core s.here.mx.chain
      (fun x => { x with forkM := false }) = s.setCore s.seat.core s.here.joined := by
    rw [State.modMx_eq, State.modChain_setCore]
    rfl
  rw [exec_mjoin, execMjoin, matrixWord_of h, ← hjoin]
  rfl

/-- The seat's core once a word has issued that had left it as `k`: the word is counted and stands among the issued. -/
theorem issueWord_here (s : State) (k : Core) (kind : Nat) (fl : Flags) :
    (issueWord s (s.setCore s.seat.core k) kind fl).here = { k.unheld with
      mx := { k.unheld.mx with
        pc := k.unheld.mx.pc + 1
        words := k.unheld.mx.words ++ [⟨s.fresh, k.unheld.mx.pc, kind, fl, s.here.mx.chain, s.opSeq⟩] }
      chains := k.unheld.chains.put s.here.mx.chain
        { k.unheld.chain s.here.mx.chain with mt := (k.unheld.chain s.here.mx.chain).mt + 1 } } := by
  unfold issueWord
  rw [State.unholdWord_setCore, State.modMx_setCore, State.modChain_setCore]
  exact (s.here_setCore s.seat.core _).trans (if_pos rfl)

theorem issueWord_mem (s v : State) (kind : Nat) (fl : Flags) : (issueWord s v kind fl).mem = v.mem := by
  unfold issueWord
  rw [State.bump_mem, State.next_mem, State.modChain_eq, State.setCore_mem, State.modMx_eq, State.setCore_mem,
    State.unholdWord_same]

/-- A fork that has joined is so while its word's count goes one down and one up. -/
theorem Core.joined_unheld_forkM (k : Core) : (k.joined.unheld.chain k.mx.chain).forkM = false := by
  unfold Core.unheld Core.joined Core.chain
  cases k.mx.held <;> simp

theorem mjoin_completes {s : State} (h : MatrixIssues s true) : Completes .mjoin s (fun t =>
    t.here.mx.active = false ∧ (t.here.chain s.here.mx.chain).forkM = false
      ∧ t.here.mx = { s.here.mx with
          active := false, held := false, pc := t.here.mx.pc, words := t.here.mx.words }
      ∧ t.here.ctl = s.here.ctl ∧ MemoryKept s t) := by
  refine ⟨_, mjoin_joins h, ?_⟩
  have hmem : MemoryKept s (issueWord s (s.setCore s.seat.core s.here.joined) wDrain 0) :=
    fun a => by rw [issueWord_mem, State.setCore_mem]
  beta_reduce
  rw [issueWord_here]
  refine ⟨rfl, ?_, rfl, rfl, hmem⟩
  rw [Core.chain, Tbl.get_put_self]
  exact s.here.joined_unheld_forkM

/-- Settles O27: each word by what it makes of the unit, the state faults of `mwin` and `mzo`, and the join. -/
theorem matrixSettings : Obligations.MatrixSettings := by
  unfold Obligations.MatrixSettings
  refine fun s w fa fb line sp => ⟨fun h => matrix_sets h (exec_mza s) rfl rfl rfl rfl rfl, fun h ht => ?_, fun h ht => ?_,
    fun h hd hp => ?_, fun h hd => ?_, fun h => matrix_sets h (exec_mfmt s) rfl rfl rfl rfl rfl,
    fun h => matrix_sets h (exec_mldaScratchpad s) rfl rfl rfl rfl rfl,
    fun h => matrix_sets h (exec_mldaPort s) rfl rfl rfl rfl rfl,
    fun h => matrix_sets h (exec_mldb s) rfl rfl rfl rfl rfl, mjoin_completes⟩
  · exact matrix_sets h (exec_mzo s) (if_neg (by simp [ht])) rfl rfl rfl rfl
  · exact matrix_faults h (exec_mzo s) (if_pos ht)
  · exact matrix_sets h (exec_mwin s) (if_neg (by simp [hd, hp])) rfl rfl rfl rfl
  · exact matrix_faults h (exec_mwin s) (if_pos (by simpa using hd))

end Sys2Proof.Machine
end

section
/-!
O28: which firings the product words issue, and their faults; the issue of `mcoop` (R104, R110, R379, R385, R388).
-/

namespace Sys2Proof.Machine

/-! ## What stopping a matrix sequencer does to the units (R113, R379) -/

theorem State.faultUnit_core (s : State) (c ch d : Nat) :
    (s.faultUnit c ch).core d = (s.modChain c ch (fun x => { x with status := .faulted })).core d := by
  unfold State.faultUnit
  dsimp only
  split
  · rfl
  · exact ((State.modLaunch_same _ _ _).trans (State.askCancel_same _ _ _)).core d

theorem State.faultUnit_seat (s : State) (c ch : Nat) : (s.faultUnit c ch).seat = s.seat :=
  (State.faultUnit_keeps s c c ch).2.2.2.2.2.1

/-- The unit of a core whose sequencer has stopped. -/
def Mx.stopped (m : Mx) (fc : BitVec 4) : Mx := { m with halt := true, fcode := fc }

/-- The state in which the matrix sequencer of a core has stopped and reported a cause. -/
def State.stopMatrix (s : State) (d cause : Nat) (ev : Word) (fc : BitVec 4) : State :=
  let u := s.reportCore d 1 cause false (s.core d).mx.pc ev
  (u.modMx d (fun m => m.stopped fc)).faultUnit d (s.core d).mx.chain

theorem State.matrixStop_eq (s : State) (cause : Nat) (ev : Word) (fc : BitVec 4) :
    s.matrixStop cause ev fc = s.stopMatrix s.seat.core cause ev fc := rfl

theorem State.stopMatrix_core (s : State) (d cause : Nat) (ev : Word) (fc : BitVec 4) (e : Nat) :
    (s.stopMatrix d cause ev fc).core e = if e = d then { s.core d with
        mx := (s.core d).mx.stopped fc
        chains := (s.core d).chains.put (s.core d).mx.chain
          { (s.core d).chain (s.core d).mx.chain with status := .faulted } }
      else s.core e := by
  have hr := State.reportCore_same s d 1 cause false (s.core d).mx.pc ev
  unfold State.stopMatrix
  dsimp only
  rw [State.faultUnit_core, State.modMx_eq, State.modChain_setCore, State.core_setCore, hr.core d, hr.core e]
  rfl

theorem State.stopMatrix_seat (s : State) (d cause : Nat) (ev : Word) (fc : BitVec 4) :
    (s.stopMatrix d cause ev fc).seat = s.seat := by
  have hr := State.reportCore_same s d 1 cause false (s.core d).mx.pc ev
  unfold State.stopMatrix
  rw [State.faultUnit_seat]
  exact hr.2.1

theorem State.stopMatrix_mem (s : State) (d cause : Nat) (ev : Word) (fc : BitVec 4) :
    (s.stopMatrix d cause ev fc).mem = s.mem := by
  have hr := State.reportCore_same s d 1 cause false (s.core d).mx.pc ev
  unfold State.stopMatrix
  exact (State.faultUnit_keeps _ d d _).2.2.2.2.2.2.trans hr.2.2

/-! ## The fault of a whole row group (R379) -/

/-- The matrix sequencer of a core has stopped with the mismatch fault. -/
def Mismatched (t : State) (d : Nat) : Prop := (t.core d).mx.halt = true ∧ (t.core d).mx.fcode = 4

theorem mismatched_stopMatrix {s : State} {d e cause : Nat} {ev : Word} (h : e = d ∨ Mismatched s e) :
    Mismatched (s.stopMatrix d cause ev 4) e := by
  unfold Mismatched
  rw [State.stopMatrix_core]
  split
  · exact ⟨rfl, rfl⟩
  · exact h.resolve_left ‹_›

theorem State.coopFault_eq (s : State) (c : Nat) : s.coopFault c =
    ((coopGroup c).filter (· != c)).foldl (fun u d => u.stopMatrix d 16 4 4) s := by
  unfold State.coopFault
  congr 1
  funext u d
  unfold State.stopMatrix
  dsimp only
  rw [(State.reportCore_same u d 1 16 false (u.core d).mx.pc 4).core d]
  rfl

theorem mismatched_foldl (l : List Nat) {s : State} {e : Nat} (h : e ∈ l ∨ Mismatched s e) :
    Mismatched (l.foldl (fun u d => u.stopMatrix d 16 4 4) s) e := by
  induction l generalizing s with
  | nil => simpa using h
  | cons d r ih =>
    refine ih ?_
    rcases h with h | h
    · rcases List.mem_cons.1 h with rfl | h
      · exact .inr (mismatched_stopMatrix (.inl rfl))
      · exact .inl h
    · exact .inr (mismatched_stopMatrix (.inr h))

theorem foldl_stopMatrix_seat (l : List Nat) (s : State) :
    (l.foldl (fun u d => u.stopMatrix d 16 4 4) s).seat = s.seat := by
  induction l generalizing s with
  | nil => rfl
  | cons d r ih => rw [List.foldl_cons, ih, State.stopMatrix_seat]

theorem groupFaults_stop (s : State) : GroupFaults s ((s.coopFault s.seat.core).matrixStop 16 4 4) := by
  intro d hd
  rw [State.coopFault_eq, State.matrixStop_eq, foldl_stopMatrix_seat]
  refine mismatched_stopMatrix ?_
  by_cases hc : d = s.seat.core
  · exact .inl hc
  · exact .inr (mismatched_foldl _ (.inl (List.mem_filter.2 ⟨hd, by simpa using hc⟩)))

/-! ## The issue of a product word (R110) -/

theorem coopClash_iff (s : State) (sig : List Nat) : s.coopClash s.seat.core sig = true ↔ Clashes s sig := by
  have hlog : ∀ d, (match (s.core d).mx.coopLog[s.here.mx.coopLog.length]? with | some x => x != sig | none => false) = true
      ↔ ∃ x, (s.core d).mx.coopLog[s.here.mx.coopLog.length]? = some x ∧ x ≠ sig := by
    intro d
    cases (s.core d).mx.coopLog[s.here.mx.coopLog.length]? <;> simp
  unfold State.coopClash Clashes
  simp only [Bool.and_eq_true, List.any_eq_true, bne_iff_ne]
  exact and_congr_right fun _ => exists_congr fun d => and_congr_right fun _ => and_congr_right fun _ => hlog d

theorem productWord_of_clash {s : State} {sig : List Nat} (h : MatrixIssues s false) (hc : Clashes s sig)
    (f : State → Mres) : productWord s sig f = .next ((s.coopFault s.seat.core).matrixStop 16 4 4) := by
  obtain ⟨hseq, hactive, hhalt, hfrozen, hdrains, -, -, hcopy, -⟩ := h
  exact if_pos ⟨hseq, hactive, by simp [hhalt], by simp [hfrozen], by simp only [hdrains]; decide, by simp [hcopy],
    (coopClash_iff s sig).2 hc⟩

theorem productWord_of_not_clash {s : State} {sig : List Nat} (hc : ¬ Clashes s sig) (f : State → Mres) :
    productWord s sig f = matrixWord false s f :=
  if_neg fun ⟨_, _, _, _, _, _, h⟩ => hc ((coopClash_iff s sig).1 h)

theorem product_groupFaults {s : State} {i : Instr} {sig : List Nat} {f : State → Mres} (h : MatrixIssues s false)
    (e : exec i s = productWord s sig f) (hc : Clashes s sig) : Completes i s (GroupFaults s) :=
  ⟨_, e.trans (productWord_of_clash h hc f), groupFaults_stop s⟩

/-! ## Firings (R104, R385, R388) -/

theorem enum_map_range {α : Type} (n : Nat) (g : Nat → α) :
    enum ((List.range n).map g) = (List.range n).map (fun t => (t, g t)) := by
  unfold enum
  rw [List.length_map, List.length_range, List.map_prod_left_eq_zip]

/-- The unit once a product word's firings have been issued: step by step, and in each step row by row. -/
def Mx.issued (m : Mx) (s : State) (sig : List Nat) (ks n : Nat) (a i : Nat → Nat) : Mx :=
  { m with
    prod := true, coopLog := logged m sig
    todo := m.todo ++ (List.range ks).flatMap (fun st => (List.range n).map (fun t => firingOf s st t (a t) (i t))) }

theorem issueFirings_range (s : State) (ks n : Nat) (a i : Nat → Nat) (sig : List Nat) :
    issueFirings s ks ((List.range n).map (fun t => (a t, i t))) sig
      = setMx s wProduct (fun m => m.issued s sig ks n a i) := by
  unfold issueFirings
  simp only [enum_map_range, List.map_map]
  rfl

theorem product_issues {s : State} {i : Instr} {sig : List Nat} {f : State → Mres} {ks n : Nat} {a r : Nat → Nat}
    (h : MatrixIssues s false) (e : exec i s = matrixWord false s f)
    (hf : f s = issueFirings s ks ((List.range n).map (fun t => (a t, r t))) sig) :
    Completes i s (MatrixIssued s wProduct 0 (s.here.mx.issued s sig ks n a r)) :=
  matrix_sets h e (hf.trans (issueFirings_range s ks n a r sig)) rfl rfl rfl rfl

theorem exec_mmul_of_not_clash {s : State} {ks : BitVec 7} {rows : BitVec 6}
    (hc : ¬ Clashes s [7, ks.toNat, rows.toNat]) : exec (.mmul ks rows) s = matrixWord false s (fun s =>
      if productFault s then .fault 3
      else issueFirings s (ks.toNat + 1) ((List.range (rows.toNat + 1)).map (fun t => (t, t)))
        [7, ks.toNat, rows.toNat]) := by
  rw [exec_mmul, execMmul, productWord_of_not_clash hc]

/-! ## `mgmul` (R385, R388) -/

/-- Byte t of the list line of `mgmul`. -/
abbrev listByte (s : State) (list : BitVec 12) (t : Nat) : Nat :=
  (s.mem.read (spKey s.seat.core (list.toNat * 128 + t))).toNat

/-- What `mgmul` has issued, as the row group compares it: its fields and the bytes of its lists. -/
abbrev listWord (s : State) (ks : BitVec 7) (list : BitVec 12) (n : BitVec 6) : List Nat :=
  [8, ks.toNat, n.toNat] ++ (List.range (n.toNat + 1)).map (listByte s list)
    ++ (List.range (n.toNat + 1)).map (fun t => listByte s list (64 + t))

/-- A list line of `mgmul` is bad: poisoned, or with a byte above 63 that the word uses. -/
def ListBad (s : State) (list : BitVec 12) (n : BitVec 6) : Prop :=
  s.isBad (lineKey s.seat.core list.toNat) = true
    ∨ ∃ t < n.toNat + 1, 63 < listByte s list (64 + t) ∨ (s.here.mx.asrc = false ∧ 63 < listByte s list t)

/-- The effect of `mgmul` in turn, with the lists that it has read at issue. -/
def mgmulRun (s : State) (ks : BitVec 7) (list : BitVec 12) (n : BitVec 6) (u : State) : Mres :=
  if productFault u then .fault 3
  else if s.isEmpty (lineKey s.seat.core list.toNat) then .wait
  else if u.isBad (lineKey s.seat.core list.toNat)
      || ((List.range (n.toNat + 1)).map (fun t => listByte s list (64 + t))).any (fun x => 63 < x)
      || (!u.here.mx.asrc && ((List.range (n.toNat + 1)).map (listByte s list)).any (fun x => 63 < x)) then .fault 2
  else issueFirings u (ks.toNat + 1)
    ((List.range (n.toNat + 1)).map (fun t => (listByte s list t, listByte s list (64 + t)))) (listWord s ks list n)

theorem listBad_iff (s : State) (list : BitVec 12) (n : BitVec 6) : ListBad s list n ↔
    (s.isBad (lineKey s.seat.core list.toNat)
      || ((List.range (n.toNat + 1)).map (fun t => listByte s list (64 + t))).any (fun x => 63 < x)
      || (!s.here.mx.asrc && ((List.range (n.toNat + 1)).map (listByte s list)).any (fun x => 63 < x))) = true := by
  unfold ListBad
  simp only [Bool.or_eq_true, Bool.and_eq_true, Bool.not_eq_true', List.any_map, List.any_eq_true, List.mem_range,
    Function.comp_apply, decide_eq_true_eq, and_or_left, exists_or, or_assoc, ← exists_and_left, and_left_comm]

/-- A line of the seat's scratchpad, byte by byte. -/
theorem lineBytes (s : State) (list : BitVec 12) :
    (s.spBytes s.seat.core (list.toNat * 128) 128).map BitVec.toNat = (List.range 128).map (listByte s list) := by
  rw [State.spBytes, reads_map, List.map_map]
  refine List.map_congr_left fun i _ => ?_
  rw [Function.comp_apply, show spKey s.seat.core (list.toNat * 128) + i = spKey s.seat.core (list.toNat * 128 + i) from
    Nat.add_assoc ..]

theorem lineBytes_take (s : State) (list : BitVec 12) {k : Nat} (hk : k ≤ 128) :
    ((List.range 128).map (listByte s list)).take k = (List.range k).map (listByte s list) := by
  rw [← List.map_take, List.take_range, Nat.min_eq_left hk]

theorem lineBytes_drop (s : State) (list : BitVec 12) {k : Nat} (hk : k ≤ 64) :
    (((List.range 128).map (listByte s list)).drop 64).take k
      = (List.range k).map (fun t => listByte s list (64 + t)) := by
  rw [show 128 = 64 + 64 from rfl, List.range_add, List.map_append,
    List.drop_left' (by simp), List.map_map, ← List.map_take, List.take_range, Nat.min_eq_left hk]
  rfl

/-- `mgmul` in its place: at a full list line as a product word, else as a word that waits (R385). -/
theorem exec_mgmul_run (s : State) (ks : BitVec 7) (list : BitVec 12) (n : BitVec 6) : exec (.mgmul ks list n) s =
    if s.isEmpty (lineKey s.seat.core list.toNat) = false then
      productWord s (listWord s ks list n) (mgmulRun s ks list n)
    else matrixWord false s (mgmulRun s ks list n) := by
  have hn : n.toNat + 1 ≤ 64 := n.isLt
  have hrun : mgmulRun s ks list n = fun u => mgmulRun s ks list n u := rfl
  rw [exec_mgmul, hrun]
  unfold execMgmul mgmulRun
  dsimp only
  rw [lineBytes, lineBytes_take s list (by omega), lineBytes_drop s list hn, Bool.not_not, List.zip_map']
  cases s.isEmpty (lineKey s.seat.core list.toNat) <;> rfl

section
variable {s : State} {ks : BitVec 7} {list : BitVec 12} {n : BitVec 6} (h : MatrixIssues s false)
include h

theorem mgmul_empty (he : ¬ s.isEmpty (lineKey s.seat.core list.toNat) = false) :
    (productFault s = true → Completes (.mgmul ks list n) s (MatrixFaults s 3))
    ∧ (productFault s = false → Completes (.mgmul ks list n) s (MatrixWaits false s)) := by
  have e := exec_mgmul_run s ks list n
  rw [if_neg he] at e
  refine ⟨fun hp => matrix_faults h e (if_pos hp), fun hp => matrix_waits h e ?_⟩
  rw [mgmulRun, if_neg (by simp [hp]), if_pos (by simpa using he)]

theorem mgmul_clashes (he : s.isEmpty (lineKey s.seat.core list.toNat) = false) (hc : Clashes s (listWord s ks list n)) :
    Completes (.mgmul ks list n) s (GroupFaults s) := by
  exact product_groupFaults h ((exec_mgmul_run s ks list n).trans (if_pos he)) hc

theorem mgmul_full (he : s.isEmpty (lineKey s.seat.core list.toNat) = false)
    (hc : ¬ Clashes s (listWord s ks list n)) :
    (productFault s = true → Completes (.mgmul ks list n) s (MatrixFaults s 3))
    ∧ (productFault s = false → ListBad s list n → Completes (.mgmul ks list n) s (MatrixFaults s 2))
    ∧ (productFault s = false → ¬ ListBad s list n → Completes (.mgmul ks list n) s (MatrixIssued s wProduct 0
        (s.here.mx.issued s (listWord s ks list n) (ks.toNat + 1) (n.toNat + 1) (listByte s list)
          (fun t => listByte s list (64 + t))))) := by
  have e := exec_mgmul_run s ks list n
  rw [if_pos he, productWord_of_not_clash hc] at e
  refine ⟨fun hp => matrix_faults h e (if_pos hp), fun hp hb => matrix_faults h e ?_,
    fun hp hb => product_issues h e ?_⟩
  · rw [mgmulRun, if_neg (by simp [hp]), if_neg (by simp [he]), if_pos ((listBad_iff s list n).1 hb)]
  · rw [mgmulRun, if_neg (by simp [hp]), if_neg (by simp [he]), if_neg (fun hl => hb ((listBad_iff s list n).2 hl))]

end

/-- Settles O28: `mmul` and `mgmul` by the group's fault, the state fault and their firings; `mcoop` by its issue. -/
theorem matrixProducts : Obligations.MatrixProducts := by
  unfold Obligations.MatrixProducts
  refine fun s ks rows n list => ⟨fun h => ⟨product_groupFaults h (exec_mmul s), fun hc hp => ?_, fun hc hp => ?_⟩,
    fun h => ⟨fun he => (mgmul_empty h he).1, fun he => (mgmul_empty h he).2, mgmul_clashes h,
      fun he hc => (mgmul_full h he hc).1, fun he hc => (mgmul_full h he hc).2.1,
      fun he hc => (mgmul_full h he hc).2.2⟩,
    fun h => ⟨fun hc ht => ?_, fun hc => ?_, fun hf => ?_, fun hc => ?_⟩⟩
  · exact matrix_faults h (exec_mmul_of_not_clash hc) (if_pos hp)
  · exact product_issues (a := fun t => t) (r := fun t => t) h (exec_mmul_of_not_clash hc) (if_neg (by simp [hp]))
  · exact matrix_sets h (exec_mcoopOn s) (if_neg (by simp [hc, ht])) rfl rfl rfl rfl
  · exact matrix_sets h (exec_mcoopOff s) (if_neg (by simp [hc])) rfl rfl rfl rfl
  · exact matrix_faults h (exec_mcoopOn s) (if_pos (by simpa using hf))
  · exact matrix_faults h (exec_mcoopOff s) (if_pos (by simp [hc]))

end Sys2Proof.Machine
end

section
/-!
O30: the lines that `mst` and `mxpose` write, their poison and their faults (R96, R106, R108, R376, R392, R399).
-/

namespace Sys2Proof.Machine

/-! ## Lines -/

theorem regionLines_any {c line n : Nat} {p : Nat → Bool} :
    (regionLines c line n).any p = true ↔ ∃ k < n, p (lineKey c (line + k)) = true := by
  simp [regionLines]

theorem regionLines_not_any {c line n : Nat} {p : Nat → Bool} :
    (regionLines c line n).any p = false ↔ ∀ k < n, p (lineKey c (line + k)) = false := by
  simp [regionLines]

/-- A word that writes lines and leaves the unit, unless an atomic at the port holds one of them (R139). -/
theorem unlessHeld_lines {s : State} (h : MatrixIssues s true) {i : Instr} {f : State → Mres} {fl : Flags}
    {line n : Nat} {byte : Nat → Nat → Byte} {bad : Nat → Bool} {publish : Bool} {body : List (List Byte × Bool)}
    (e : exec i s = matrixWord true s f)
    (hf : f s = if s.linesHeld line n = true then .wait else .ok (s.lineWrites publish line body) wDrain fl)
    (hlength : body.length = n) (hwhole : ∀ x ∈ body, x.1.length = 128)
    (hbyte : ∀ k < n, ∀ i < 128, ((body[k]?.map Prod.fst).getD [])[i]?.getD 0 = byte k i)
    (hbad : ∀ k < n, (body[k]?.map Prod.snd).getD false = bad k) :
    UnlessHeld i s line n (fun t => LinesWritten line n byte bad s t ∧ MatrixWrote s fl s.here.mx t) :=
  ⟨fun hl => matrix_waits h e (hf.trans (if_pos hl)),
    fun hl => matrix_lines h e (hf.trans (if_neg (by simp [hl]))) hlength hwhole hbyte hbad⟩

theorem UnlessHeld.mono {i : Instr} {s : State} {line n : Nat} {P Q : State → Prop} (h : UnlessHeld i s line n P)
    (hpq : ∀ t, P t → Q t) : UnlessHeld i s line n Q :=
  ⟨h.1, fun hl => (h.2 hl).imp fun t ht => ⟨ht.1, hpq t ht.2⟩⟩

/-- The same for a word whose flags are left open. -/
theorem unlessHeld_lines_flags {s : State} (h : MatrixIssues s true) {i : Instr} {f : State → Mres}
    {line n : Nat} {byte : Nat → Nat → Byte} {bad : Nat → Bool} {publish : Bool} {body : List (List Byte × Bool)}
    (e : exec i s = matrixWord true s f)
    (hf : ∃ fl, f s = if s.linesHeld line n = true then .wait else .ok (s.lineWrites publish line body) wDrain fl)
    (hlength : body.length = n) (hwhole : ∀ x ∈ body, x.1.length = 128)
    (hbyte : ∀ k < n, ∀ i < 128, ((body[k]?.map Prod.fst).getD [])[i]?.getD 0 = byte k i)
    (hbad : ∀ k < n, (body[k]?.map Prod.snd).getD false = bad k) :
    UnlessHeld i s line n (fun t => LinesWritten line n byte bad s t ∧ ∃ fl, MatrixWrote s fl s.here.mx t) := by
  obtain ⟨fl, hf⟩ := hf
  exact (unlessHeld_lines h e hf hlength hwhole hbyte hbad).mono fun t ht => ⟨ht.1, fl, ht.2⟩

/-! ## Rows of FP32 values, two lines each (R106) -/

/-- The lines of n rows of FP32 codes, each row with its poison. -/
def f32Rows (n : Nat) (vals : Nat → List Nat) (bad : Nat → Bool) : List (List Byte × Bool) :=
  (List.range n).flatMap (fun r => (f32Lines 2 (vals r)).map (fun b => (b, bad r)))

section
variable (n : Nat) (vals : Nat → List Nat) (bad : Nat → Bool)

theorem length_f32Rows : (f32Rows n vals bad).length = 2 * n :=
  (flatMap_len _ 2 _ fun r _ => by rw [List.length_map, f32Lines_len]).trans (by rw [List.length_range])

theorem f32Rows_whole : ∀ x ∈ f32Rows n vals bad, x.1.length = 128 := by
  intro x hx
  obtain ⟨r, -, hr⟩ := List.mem_flatMap.1 hx
  obtain ⟨b, hb, rfl⟩ := List.mem_map.1 hr
  exact f32Lines_all 2 _ b hb

variable {n} {k : Nat} (hk : k < 2 * n)
include hk

theorem getElem?_f32Rows :
    (f32Rows n vals bad)[k]? = ((f32Lines 2 (vals (k / 2)))[k % 2]?).map (fun b => (b, bad (k / 2))) := by
  have := flatMap_get (fun r => (f32Lines 2 (vals r)).map (fun b => (b, bad r))) 2 (List.range n)
    (fun r _ => by rw [List.length_map, f32Lines_len]) (k / 2) (k % 2) (by rw [List.length_range]; omega) (by omega)
  rwa [Nat.div_add_mod, List.getElem_range, List.getElem?_map] at this

theorem f32Rows_byte {i : Nat} (hi : i < 128) : (((f32Rows n vals bad)[k]?.map Prod.fst).getD [])[i]?.getD 0
    = byteOf ((vals (k / 2))[32 * (k % 2) + i / 4]?.getD 0) (i % 4) := by
  obtain ⟨b, hb, -, hbytes⟩ := f32Lines_get 2 (vals (k / 2)) (k % 2) (by omega)
  rw [getElem?_f32Rows vals bad hk, hb]
  exact congrArg (·.getD 0) (hbytes i hi)

theorem f32Rows_bad : ((f32Rows n vals bad)[k]?.map Prod.snd).getD false = bad (k / 2) := by
  obtain ⟨b, hb, -, -⟩ := f32Lines_get 2 (vals (k / 2)) (k % 2) (by omega)
  rw [getElem?_f32Rows vals bad hk, hb]
  rfl

end

/-! ## `mst` (R106, R392) -/

/-- The bytes of a line of bf16 codes. -/
def bf16Line (vals : List Nat) : List Byte := vals.flatMap (fun v => leBytes (bf16OfF v).1 2)

theorem length_bf16Line (vals : List Nat) : (bf16Line vals).length = 2 * vals.length :=
  flatMap_len _ 2 _ fun v _ => length_leBytes (bf16OfF v).1 2

theorem getElem?_bf16Line {vals : List Nat} {i : Nat} (hi : i / 2 < vals.length) :
    (bf16Line vals)[i]? = some (byteOf (bf16OfF vals[i / 2]).1 (i % 2)) := by
  have := flatMap_get (fun v => leBytes (bf16OfF v).1 2) 2 vals (fun v _ => length_leBytes (bf16OfF v).1 2) (i / 2) (i % 2)
    hi (by omega)
  rw [Nat.div_add_mod, getElem?_leBytes _ _ _ (by omega)] at this
  exact this

/-- The lines of n rows of bf16 codes, each row with its poison. -/
def bf16Rows (n : Nat) (vals : Nat → List Nat) (bad : Nat → Bool) : List (List Byte × Bool) :=
  (List.range n).flatMap (fun r => [bf16Line (vals r)].map (fun b => (b, bad r)))

theorem bf16Rows_eq (n : Nat) (vals : Nat → List Nat) (bad : Nat → Bool) :
    bf16Rows n vals bad = (List.range n).map (fun r => (bf16Line (vals r), bad r)) :=
  List.map_eq_flatMap.symm

/-- The outer values of a row. -/
def Mx.outerRow (m : Mx) (r : Nat) : List Nat := (List.range 64).map (fun j => m.outerAt r j)

theorem Mx.getElem?_outerRow (m : Mx) (r : Nat) {j : Nat} (hj : j < 64) :
    (m.outerRow r)[j]?.getD 0 = m.outerAt r j := by
  simp [Mx.outerRow, hj]

theorem Mx.length_outerRow (m : Mx) (r : Nat) : (m.outerRow r).length = 64 := by simp [Mx.outerRow]

section
variable {s : State} {bf : Bool} {line : BitVec 12} {row0 rows : BitVec 6} (h : MatrixIssues s true)
include h

theorem mst_tileFault (ht : s.here.mx.tp = true) : Completes (.mst bf line row0 rows) s (MatrixFaults s 3) :=
  matrix_faults h (exec_mst s) (if_pos ht)

theorem mst_addressFault (ht : s.here.mx.tp = false)
    (hl : 4096 < line.toNat + (rows.toNat + 1) * (if bf then 1 else 2)) :
    Completes (.mst bf line row0 rows) s (MatrixFaults s 1) :=
  matrix_faults h (exec_mst s) ((if_neg (by simp [ht])).trans (if_pos hl))

theorem mst_f32 (ht : s.here.mx.tp = false) (hl : line.toNat + 2 * (rows.toNat + 1) ≤ 4096) :
    UnlessHeld (.mst false line row0 rows) s line.toNat (2 * (rows.toNat + 1)) (fun t =>
      LinesWritten line.toNat (2 * (rows.toNat + 1))
          (fun k i => byteOf (s.here.mx.outerAt (row0.toNat + k / 2) (32 * (k % 2) + i / 4)) (i % 4))
          (fun k => s.here.mx.poutAt (row0.toNat + k / 2)) s t
        ∧ MatrixWrote s 0 s.here.mx t) := by
  let body := f32Rows (rows.toNat + 1) (fun r => s.here.mx.outerRow (row0.toNat + r))
    (fun r => s.here.mx.poutAt (row0.toNat + r))
  refine unlessHeld_lines (publish := true) (body := body) h (exec_mst s) ?_ (length_f32Rows _ _ _) (f32Rows_whole _ _ _)
    (fun k hk i hi => ?_) (fun k hk => f32Rows_bad _ _ hk)
  · rw [Nat.mul_comm 2] at hl ⊢
    refine (if_neg (by simp [ht])).trans ((if_neg (by simpa using hl)).trans ?_)
    rfl
  · rw [f32Rows_byte _ _ hk hi, Mx.getElem?_outerRow _ _ (by omega)]

theorem mst_bf16 (ht : s.here.mx.tp = false) (hl : line.toNat + (rows.toNat + 1) ≤ 4096) :
    UnlessHeld (.mst true line row0 rows) s line.toNat (rows.toNat + 1) (fun t =>
      LinesWritten line.toNat (rows.toNat + 1)
          (fun k i => byteOf (bf16OfF (s.here.mx.outerAt (row0.toNat + k) (i / 2))).1 (i % 2))
          (fun k => s.here.mx.poutAt (row0.toNat + k)) s t
        ∧ ∃ fl, MatrixWrote s fl s.here.mx t) := by
  let body := bf16Rows (rows.toNat + 1) (fun r => s.here.mx.outerRow (row0.toNat + r))
    (fun r => s.here.mx.poutAt (row0.toNat + r))
  have hbody : body = (List.range (rows.toNat + 1)).map (fun r =>
    (bf16Line (s.here.mx.outerRow (row0.toNat + r)), s.here.mx.poutAt (row0.toNat + r))) := bf16Rows_eq ..
  refine unlessHeld_lines_flags (publish := true) (body := body) h (exec_mst s) ⟨?_, ?effect⟩ ?_ ?_ (fun k hk i hi => ?_)
    (fun k hk => ?_)
  case effect =>
    refine (if_neg (by simp [ht])).trans ((if_neg (by simpa using hl)).trans ?_)
    rw [if_pos rfl, Nat.mul_one]
    rfl
  · rw [hbody, List.length_map, List.length_range]
  · rw [hbody]
    intro x hx
    obtain ⟨r, -, rfl⟩ := List.mem_map.1 hx
    rw [length_bf16Line, Mx.length_outerRow]
  · have hlen : i / 2 < (s.here.mx.outerRow (row0.toNat + k)).length := by rw [Mx.length_outerRow]; omega
    have hval := Mx.getElem?_outerRow s.here.mx (row0.toNat + k) (j := i / 2) (by omega)
    rw [List.getElem?_eq_getElem hlen] at hval
    rw [hbody, List.getElem?_map, List.getElem?_range hk]
    change (bf16Line (s.here.mx.outerRow (row0.toNat + k)))[i]?.getD 0 = _
    rw [getElem?_bf16Line hlen]
    exact congrArg (fun v => byteOf (bf16OfF v).1 (i % 2)) hval
  · rw [hbody]
    simp [hk]

end

/-! ## `mxpose` (R96, R108, R399) -/

/-- The number whose bit k is the lowest bit of `c k`, for k below n. -/
def bitsSum (c : Nat → Nat) (n : Nat) : Nat := (List.range n).foldl (fun v k => v + c k % 2 * 2 ^ k) 0

theorem bitsSum_succ (c : Nat → Nat) (n : Nat) : bitsSum c (n + 1) = bitsSum c n + c n % 2 * 2 ^ n := by
  unfold bitsSum
  rw [List.range_succ, List.foldl_append]
  rfl

theorem bitsSum_lt (c : Nat → Nat) (n : Nat) : bitsSum c n < 2 ^ n := by
  induction n with
  | zero => exact Nat.one_pos
  | succ n ih =>
    rw [bitsSum_succ, pow_succ]
    rcases Nat.mod_two_eq_zero_or_one (c n) with h | h <;> rw [h] <;> omega

theorem testBit_bitsSum (c : Nat → Nat) {n j : Nat} (hj : j < n) :
    (bitsSum c n).testBit j = decide (c j % 2 = 1) := by
  induction n with
  | zero => omega
  | succ n ih =>
    rw [bitsSum_succ, Nat.add_comm, Nat.mul_comm, Nat.testBit_two_pow_mul_add _ (bitsSum_lt c n)]
    split
    · exact ih ‹_›
    · obtain rfl : j = n := by omega
      rw [Nat.sub_self, Nat.testBit_zero, Nat.mod_mod]

theorem byteOf_getLsbD (v q : Nat) {b : Nat} (hb : b < 8) : (byteOf v q).getLsbD b = v.testBit (8 * q + b) := by
  unfold byteOf
  rw [BitVec.getLsbD_ofNat, decide_eq_true hb, Bool.true_and, show 256 = 2 ^ 8 from rfl, ← pow_mul,
    Nat.testBit_div_two_pow, Nat.add_comm]

/-- Line l of a plane block of the vectors whose codes are `code`. -/
def planeLine (code : Nat → Nat → Nat) (l : Nat) : List Byte :=
  (List.range 32).flatMap (fun w => leBytes (bitsSum (fun k => code (l % 2 * 32 + w) k / 2 ^ (l / 2)) 32) 4)

theorem planeBlock_eq (planes : Nat) (code : Nat → Nat → Nat) :
    planeBlock planes code = (List.range (2 * planes)).map (planeLine code) := rfl

theorem length_planeLine (code : Nat → Nat → Nat) (l : Nat) : (planeLine code l).length = 128 :=
  flatMap_len _ 4 (List.range 32) fun _ _ => length_leBytes _ 4

theorem planeLine_bit (code : Nat → Nat → Nat) (l : Nat) {i b : Nat} (hi : i < 128) (hb : b < 8) :
    ((planeLine code l)[i]?.getD 0).getLsbD b
      = (code (l % 2 * 32 + i / 4) (8 * (i % 4) + b)).testBit (l / 2) := by
  have hget := flatMap_get (fun w => leBytes (bitsSum (fun k => code (l % 2 * 32 + w) k / 2 ^ (l / 2)) 32) 4) 4
    (List.range 32) (fun _ _ => length_leBytes _ 4) (i / 4) (i % 4) (by rw [List.length_range]; omega) (by omega)
  rw [Nat.div_add_mod, List.getElem_range, getElem?_leBytes _ _ _ (by omega)] at hget
  rw [planeLine, hget]
  change (byteOf _ (i % 4)).getLsbD b = _
  rw [byteOf_getLsbD _ _ hb, testBit_bitsSum _ (by omega), Nat.testBit_eq_decide_div_mod_eq]

/-- The lines that `mxpose` reads and writes lie in the scratchpad and apart (R376). -/
def LinesApart (a n b m : Nat) : Prop := a + n ≤ 4096 ∧ b + m ≤ 4096 ∧ (b + m ≤ a ∨ a + n ≤ b)

theorem not_linesApart_iff (a n b m : Nat) :
    ¬ LinesApart a n b m ↔ 4096 < a + n ∨ 4096 < b + m ∨ (a < b + m ∧ b < a + n) := by
  unfold LinesApart
  omega

section
variable {s : State} {side : Bool} {src dst : BitVec 12} {planes : Nat} (h : MatrixIssues s true)
  (hplanes : planes = mPlanes (if side then s.here.mx.fb else s.here.mx.fa))
include h hplanes

theorem mxpose_addressFault (ha : ¬ LinesApart src.toNat 16 dst.toNat (2 * planes)) :
    Completes (.mxpose side src dst) s (MatrixFaults s 1) := by
  subst hplanes
  exact matrix_faults h (exec_mxpose s) (if_pos ((not_linesApart_iff ..).1 ha))

theorem mxpose_waits (ha : LinesApart src.toNat 16 dst.toNat (2 * planes))
    (he : ∃ k < 16, s.isEmpty (lineKey s.seat.core (src.toNat + k)) = true) :
    Completes (.mxpose side src dst) s (MatrixWaits true s) := by
  subst hplanes
  refine matrix_waits h (exec_mxpose s) ((if_neg (fun hn => (not_linesApart_iff ..).2 hn ha)).trans (if_pos ?_))
  rw [regionLines_any.2 he, Bool.true_or]

theorem mxpose_writes (ha : LinesApart src.toNat 16 dst.toNat (2 * planes))
    (he : ∀ k < 16, s.isEmpty (lineKey s.seat.core (src.toNat + k)) = false) :
    UnlessHeld (.mxpose side src dst) s dst.toNat (2 * planes) (fun t => ∃ byte bad,
        LinesWritten dst.toNat (2 * planes) byte (fun _ => bad) s t
        ∧ (bad = true ↔ ∃ k < 16, s.isBad (lineKey s.seat.core (src.toNat + k)) = true)
        ∧ (∀ k < 2 * planes, ∀ i < 128, ∀ b < 8, (byte k i).getLsbD b =
            (s.mem.read (spKey s.seat.core (src.toNat * 128 + 32 * (32 * (k % 2) + i / 4) + (8 * (i % 4) + b)))).getLsbD
              (k / 2))
        ∧ MatrixWrote s 0 s.here.mx t) := by
  subst hplanes
  let code := fun x k => (s.mem.read (spKey s.seat.core (src.toNat * 128 + 32 * x + k))).toNat
  let bad := (regionLines s.seat.core src.toNat 16).any s.isBad
  let body := (planeBlock (mPlanes (if side then s.here.mx.fb else s.here.mx.fa)) code).map (fun l => (l, bad))
  have hbody : body = (List.range (2 * mPlanes (if side then s.here.mx.fb else s.here.mx.fa))).map
    (fun l => (planeLine code l, bad)) := by
    unfold body
    rw [planeBlock_eq, List.map_map]
    rfl
  refine (unlessHeld_lines (publish := false) (body := body) (fl := 0) (byte := fun k i => (planeLine code k)[i]?.getD 0)
    (bad := fun _ => bad) (line := dst.toNat) (n := 2 * mPlanes (if side then s.here.mx.fb else s.here.mx.fa))
    h (exec_mxpose (sideB := side) (src := src) (dst := dst) s) ?_ ?_ ?_ (fun k hk i hi => ?_) (fun k hk => ?_)).mono
    fun t ⟨hw, hm⟩ => ⟨_, _, hw, regionLines_any, fun k _ i hi b hb => ?_, hm⟩
  rotate_right
  · rw [planeLine_bit code k hi hb, Nat.mul_comm (k % 2)]
    rfl
  · refine (if_neg (fun hn => (not_linesApart_iff ..).2 hn ha)).trans ?_
    rw [regionLines_not_any.2 he, Bool.false_or]
  · rw [hbody, List.length_map, List.length_range]
  · rw [hbody]
    intro x hx
    obtain ⟨l, -, rfl⟩ := List.mem_map.1 hx
    exact length_planeLine code l
  all_goals
    rw [hbody]
    simp [hk]

end

/-- Settles O30: each word by its faults and waits, and by the bytes and the poison of the lines that it writes. -/
theorem matrixStores : Obligations.MatrixStores := by
  unfold Obligations.MatrixStores
  exact fun s bf side line src dst row0 rows h => ⟨mst_tileFault h, mst_addressFault h, mst_f32 h, mst_bf16 h,
    mxpose_addressFault h rfl, mxpose_waits h rfl, mxpose_writes h rfl⟩

end Sys2Proof.Machine
end

section
/-!
O32: the transport words (R113, R139, R218-R222, R376, R378, R393, R395, R396).
-/

namespace Sys2Proof.Machine

/-! ## Registers and regions of FP32 codes -/

theorem reads_add (m : Memory) (a p q : Nat) : m.reads a (p + q) = m.reads a p ++ m.reads (a + p) q := by
  simp only [reads_map, List.range_add, List.map_append, List.map_map]
  refine congrArg _ (List.map_congr_left fun i _ => ?_)
  rw [Function.comp_apply, Nat.add_assoc]

/-- The FP32 codes of a scratchpad region, by number. -/
theorem getElem?_spWords (s : State) (off : Nat) {n i : Nat} (hi : i < n) :
    (s.spWords s.seat.core off n)[i]? = some (wordAt s (off + 4 * i)) := by
  obtain ⟨r, rfl⟩ := Nat.exists_eq_add_of_lt hi
  have hsplit : s.spBytes s.seat.core off (4 * (i + r + 1)) = s.spBytes s.seat.core off (4 * i)
      ++ (s.spBytes s.seat.core (off + 4 * i) 4 ++ s.spBytes s.seat.core (off + 4 * i + 4) (4 * r)) := by
    unfold State.spBytes spKey
    rw [show 4 * (i + r + 1) = 4 * i + (4 + 4 * r) by omega, reads_add, reads_add]
    simp only [Nat.add_assoc]
  have hlen : ∀ o n, (s.spBytes s.seat.core o n).length = n := fun o n => by
    rw [State.spBytes, reads_map, List.length_map, List.length_range]
  unfold State.spWords
  rw [List.getElem?_map, chunks_get 4 _ (by omega) _ i (by rw [hlen]; omega) (by omega), hsplit,
    List.drop_left' (hlen ..), List.take_left' (hlen ..)]
  rfl

theorem enum_eq_map {α : Type} (l : List α) (d : α) : enum l = (List.range l.length).map (fun i => (i, l[i]?.getD d)) := by
  have hl : l = (List.range l.length).map (fun i => l[i]?.getD d) := by
    refine List.ext_getElem (by simp) fun i hi _ => ?_
    simp [hi]
  rw [← enum_map_range, ← hl]

/-- A table of registers reads as the list that made it. -/
theorem get_regTable (l : List Nat) {i x : Nat} (hx : l[i]? = some x) : Tbl.get 0 (regTable l) i = BitVec.ofNat 32 x := by
  obtain ⟨hi, rfl⟩ := List.getElem?_eq_some_iff.1 hx
  have hf := find_filter_range l.length (fun i => BitVec.ofNat 32 (l[i]?.getD 0)) (fun v => v != 0) i
  rw [regTable, enum_eq_map l 0, List.map_map, Tbl.get_eq_find]
  rw [hx] at hf
  refine (congrArg (·.getD 0) hf).trans ?_
  by_cases hz : BitVec.ofNat 32 l[i] = 0
  · rw [if_neg (fun hn => bne_iff_ne.1 hn.2 hz)]
    exact hz.symm
  · rw [if_pos ⟨hi, bne_iff_ne.2 hz⟩]
    rfl

theorem getElem?_regList (t : Tbl W32) {n i : Nat} (hi : i < n) :
    (regList t n)[i]?.getD 0 = (Tbl.get 0 t i).toNat := by simp [regList, hi]

/-! ## `mtpld` (R218, R393) -/

section
variable {s : State} {line : BitVec 12} {rows cols : BitVec 6} (h : MatrixIssues s true)
include h

theorem mtpld_coopFault (hc : s.here.mx.coop = true) : Completes (.mtpld line rows cols) s (MatrixFaults s 3) :=
  matrix_faults h (exec_mtpld s) (if_pos hc)

variable (hc : s.here.mx.coop = false)
include hc

theorem mtpld_addressFault (hl : 4096 < line.toNat + 2 * (rows.toNat + 1) + 4) :
    Completes (.mtpld line rows cols) s (MatrixFaults s 1) :=
  matrix_faults h (exec_mtpld s) ((if_neg (by simp [hc])).trans (if_pos hl))

variable (hl : line.toNat + 2 * (rows.toNat + 1) + 4 ≤ 4096)
include hl

theorem mtpld_waits (he : ∃ x < 2 * (rows.toNat + 1) + 4, s.isEmpty (lineKey s.seat.core (line.toNat + x)) = true) :
    Completes (.mtpld line rows cols) s (MatrixWaits true s) :=
  matrix_waits h (exec_mtpld s) ((if_neg (by simp [hc])).trans ((if_neg (Nat.not_lt.2 hl)).trans
    (if_pos (regionLines_any.2 he))))

variable (he : ∀ x < 2 * (rows.toNat + 1) + 4, s.isEmpty (lineKey s.seat.core (line.toNat + x)) = false)
include he

theorem mtpld_poisonFault
    (hb : ∃ x < 2 * (rows.toNat + 1) + 4, s.isBad (lineKey s.seat.core (line.toNat + x)) = true) :
    Completes (.mtpld line rows cols) s (MatrixFaults s 3) :=
  matrix_faults h (exec_mtpld s) ((if_neg (by simp [hc])).trans ((if_neg (Nat.not_lt.2 hl)).trans
    ((if_neg (by rw [regionLines_not_any.2 he]; decide)).trans (if_pos (regionLines_any.2 hb)))))

theorem mtpld_loads (hb : ∀ x < 2 * (rows.toNat + 1) + 4, s.isBad (lineKey s.seat.core (line.toNat + x)) = false) :
    Completes (.mtpld line rows cols) s (fun t => ∃ v la lb, MatrixIssued s wDrain 0 { s.here.mx with
          outer := v, pout := [], free := none, rows := rows.toNat + 1, cols := cols.toNat + 1, la := la, lb := lb, f := []
          gp := [], tp := true, sweeps := 0, conv := false, infeas := false, err := 0 } t
        ∧ (∀ i < rows.toNat + 1, ∀ j < cols.toNat + 1, (Tbl.get 0 v (64 * i + j)).toNat
          = wordAt s ((line.toNat + 2 * i) * 128 + 4 * j) % 2 ^ 32)
        ∧ (∀ i < rows.toNat + 1, (Tbl.get 0 la i).toNat
          = wordAt s ((line.toNat + 2 * (rows.toNat + 1)) * 128 + 4 * i) % 2 ^ 32)
        ∧ (∀ j < cols.toNat + 1, (Tbl.get 0 lb j).toNat
          = wordAt s ((line.toNat + 2 * (rows.toNat + 1) + 2) * 128 + 4 * j) % 2 ^ 32)) := by
  let word := fun i j => BitVec.ofNat 32 (wordAt s ((line.toNat + 2 * i) * 128 + 4 * j))
  let v := cells 0 (fun i j => if i < rows.toNat + 1 ∧ j < cols.toNat + 1 then word i j else 0)
  let la := regTable (s.spWords s.seat.core ((line.toNat + 2 * (rows.toNat + 1)) * 128) (rows.toNat + 1))
  let lb := regTable (s.spWords s.seat.core ((line.toNat + 2 * (rows.toNat + 1) + 2) * 128) (cols.toNat + 1))
  obtain ⟨t, ht, hm⟩ := matrix_issued (m := { s.here.mx with
      outer := v, pout := [], free := none, rows := rows.toNat + 1, cols := cols.toNat + 1, la := la, lb := lb, f := []
      gp := [], tp := true, sweeps := 0, conv := false, infeas := false, err := 0 }) h
    (exec_mtpld (line := line) (rows := rows) (cols := cols) s)
    ((if_neg (by simp [hc])).trans ((if_neg (Nat.not_lt.2 hl)).trans
      ((if_neg (by rw [regionLines_not_any.2 he]; decide)).trans (if_neg (by rw [regionLines_not_any.2 hb]; decide)))))
    rfl rfl rfl rfl
  refine ⟨t, ht, v, la, lb, hm, fun i hi j hj => ?_, fun i hi => ?_, fun j hj => ?_⟩
  · have := rows.isLt
    have := cols.isLt
    rw [cells_get _ _ i j (by omega) (by omega), if_pos ⟨hi, hj⟩, BitVec.toNat_ofNat]
  · rw [get_regTable _ (getElem?_spWords s _ hi), BitVec.toNat_ofNat]
  · rw [get_regTable _ (getElem?_spWords s _ hj), BitVec.toNat_ofNat]

end

/-! ## `mbal` (R220, R378) -/

/-- The error of a sweep is below 2^-tol, and is a number (R220). -/
def ErrBelow (tol err : Nat) : Prop :=
  (fp32.decode err).isNaN = false ∧ (fp32.decode err).cmp false (.fin false 1 (-(tol : Int))) < 0

/-- The potentials after k sweeps. -/
def Mx.sweeps_ (m : Mx) (k : Nat) (b : Balance) : Balance := (List.range k).foldl (fun b _ => m.sweep b) b

theorem Mx.sweeps_succ (m : Mx) (k : Nat) (b : Balance) : m.sweeps_ (k + 1) b = m.sweeps_ k (m.sweep b) := by
  unfold Mx.sweeps_
  rw [List.range_succ_eq_map, List.foldl_cons, List.foldl_map]

/-- How many sweeps `mbal` makes: all of them, or up to the first after which the error is small enough. -/
theorem Mx.balance_sweeps (m : Mx) (tol n done : Nat) (b : Balance) :
    ∃ k ≤ n, (n ≠ 0 → 1 ≤ k) ∧ (m.balance tol n done b).1 = m.sweeps_ k b ∧ (m.balance tol n done b).2.1 = done + k
      ∧ ((m.balance tol n done b).2.2 = false → k = n)
      ∧ ((m.balance tol n done b).2.2 = true → ErrBelow tol (m.balance tol n done b).1.err) := by
  induction n generalizing done b with
  | zero => exact ⟨0, le_rfl, fun h => absurd rfl h, rfl, rfl, fun _ => rfl, fun h => absurd h Bool.false_ne_true⟩
  | succ n ih =>
    unfold Mx.balance
    dsimp only
    split
    · rename_i hsmall
      rw [Bool.and_eq_true, Bool.not_eq_true', decide_eq_true_eq] at hsmall
      exact ⟨1, by omega, fun _ => le_rfl, rfl, rfl, fun h => absurd h.symm Bool.false_ne_true, fun _ => hsmall⟩
    · obtain ⟨k, hk, -, hb, hd, hall, hsmall⟩ := ih (done + 1) (m.sweep b)
      exact ⟨k + 1, by omega, fun _ => by omega, by rw [hb, Mx.sweeps_succ], by rw [hd]; omega,
        fun hc => congrArg (· + 1) (hall hc), hsmall⟩

/-! ## What the words refuse (R376, R378) -/

theorem storeTile_fault {s : State} {line : BitVec 12} {n : Nat} {f : Unit → Mres}
    (hf : s.here.mx.coop = true ∨ s.here.mx.tp = false) : storeTile s line n f = .fault 3 :=
  if_pos (by simpa using hf)

theorem storeTile_of {s : State} {line : BitVec 12} {n : Nat} {f : Unit → Mres} (hc : s.here.mx.coop = false)
    (ht : s.here.mx.tp = true) : storeTile s line n f =
      if 4096 < line.toNat + n then .fault 1 else if s.linesHeld line.toNat n then .wait else f () :=
  if_neg (by simp [hc, ht])

theorem clean_f32Rows (n : Nat) (vals : Nat → List Nat) :
    clean ((List.range n).flatMap (fun r => f32Lines 2 (vals r))) = f32Rows n vals (fun _ => false) :=
  List.map_flatMap

theorem clean_two_f32Lines (a b : List Nat) :
    clean (f32Lines 2 a ++ f32Lines 2 b) = f32Rows 2 (fun r => if r = 0 then a else b) (fun _ => false) := by
  rw [← clean_f32Rows]
  simp [List.range_succ]

theorem clean_f32Lines (a : List Nat) : clean (f32Lines 2 a) = f32Rows 1 (fun _ => a) (fun _ => false) := by
  rw [← clean_f32Rows]
  simp

theorem lineWrites_free (publish : Bool) (body : List (List Byte × Bool)) (s : State) (line : Nat) :
    (s.lineWrites publish line body).free = s.free := by
  induction body generalizing s line with
  | nil => rfl
  | cons x r ih =>
    obtain ⟨b, bad⟩ := x
    unfold State.lineWrites
    exact (ih _ _).trans rfl

theorem issueWord_free (s v : State) (kind : Nat) (fl : Flags) : (issueWord s v kind fl).free = v.free := by
  unfold issueWord
  rw [State.bump_free, State.next_free, State.modChain_eq, State.setCore_free, State.modMx_eq, State.setCore_free,
    State.unholdWord_same]

/-- What `mtpst part=f` leaves besides its lines: the tile is released, and its outer values are free ones (R221). -/
def State.released (w : State) : State :=
  { w with free := w.free + 1 }.modMx w.seat.core (fun m => { m with tp := false, free := some w.free })

theorem State.released_core (w : State) (c : Nat) : w.released.core c = if c = w.seat.core then { w.core w.seat.core with
    mx := { (w.core w.seat.core).mx with tp := false, free := some w.free } } else w.core c :=
  State.core_setCore { w with free := w.free + 1 } w.seat.core c _

/-- The effect of `mtpst part=f` (R221, R396). -/
def releaseRun (line : BitVec 12) (s : State) : Mres :=
  storeTile s line 2 (fun _ =>
    .ok (s.lineWrites false line.toNat (clean (f32Lines 2 (regList s.here.mx.f 64)))).released wDrain 0)

theorem exec_mtpstRelease_eq (s : State) (line : BitVec 12) :
    exec (.mtpstRelease line) s = matrixWord true s (releaseRun line) := rfl

section
variable {s : State} {line cost out : BitVec 12} {sweeps : BitVec 12} {tol : BitVec 6} (h : MatrixIssues s true)
include h

theorem transport_refused (hf : s.here.mx.coop = true ∨ s.here.mx.tp = false) :
    Completes (.mbal sweeps tol) s (MatrixFaults s 3) ∧ Completes (.mtpstPlan line) s (MatrixFaults s 3)
      ∧ Completes (.mtpstPotentials line) s (MatrixFaults s 3) ∧ Completes (.mtpstRelease line) s (MatrixFaults s 3)
      ∧ Completes (.mtdist cost out) s (MatrixFaults s 3) :=
  ⟨matrix_faults h (exec_mbal s) (if_pos (by simpa using hf)), matrix_faults h (exec_mtpstPlan s) (storeTile_fault hf),
    matrix_faults h (exec_mtpstPotentials s) (storeTile_fault hf), matrix_faults h (exec_mtpstRelease s) (storeTile_fault hf),
    matrix_faults h (exec_mtdist s) (if_pos (by simpa using hf))⟩

variable (hc : s.here.mx.coop = false) (ht : s.here.mx.tp = true)
include hc ht

theorem mbal_balances : Completes (.mbal sweeps tol) s (fun t => ∃ (b : Balance) (k : Nat) (fl : Flags),
      MatrixIssued s wDrain fl { s.here.mx with
        f := regTable b.f, gp := regTable b.g, infeas := b.infeas, err := BitVec.ofNat 32 b.err
        sweeps := BitVec.ofNat 13 k, conv := t.here.mx.conv } t
      ∧ 1 ≤ k ∧ k ≤ sweeps.toNat + 1 ∧ (t.here.mx.conv = false → k = sweeps.toNat + 1)
      ∧ (t.here.mx.conv = true → ErrBelow tol.toNat b.err)
      ∧ b = s.here.mx.sweeps_ k { f := regList s.here.mx.f s.here.mx.rows, g := regList s.here.mx.gp s.here.mx.cols
                                  infeas := s.here.mx.infeas }) := by
  let b0 : Balance :=
    { f := regList s.here.mx.f s.here.mx.rows, g := regList s.here.mx.gp s.here.mx.cols, infeas := s.here.mx.infeas }
  let r := s.here.mx.balance tol.toNat (sweeps.toNat + 1) 0 b0
  obtain ⟨k, hk, hpos, hb, hd, hall, hsmall⟩ := s.here.mx.balance_sweeps tol.toNat (sweeps.toNat + 1) 0 b0
  obtain ⟨t, e, hi⟩ := matrix_issued (m := { s.here.mx with
        f := regTable r.1.f, gp := regTable r.1.g, infeas := r.1.infeas, err := BitVec.ofNat 32 r.1.err
        sweeps := BitVec.ofNat 13 r.2.1, conv := r.2.2 }) h
    (exec_mbal (sweeps := sweeps) (tol := tol) s) (if_neg (by simp [hc, ht])) rfl rfl rfl rfl
  have hconv : t.here.mx.conv = r.2.2 := congrArg Mx.conv hi.2.1
  have hcount : r.2.1 = k := hd.trans (Nat.zero_add k)
  rw [hcount, ← hconv] at hi
  exact ⟨t, e, r.1, k, _, hi, hpos (by omega), hk, fun hf => hall (hconv.symm.trans hf),
    fun hf => hsmall (hconv.symm.trans hf), hb⟩

/-! ## `mtpst` (R221, R395, R396) -/

/-- A word that stores rows of FP32 codes beside the tile. -/
theorem stores_rows {i : Instr} {f : State → Mres} {n : Nat} {vals : Nat → List Nat} {g : Unit → Mres} {fl : Flags}
    (e : exec i s = matrixWord true s f) (hf : f s = storeTile s line (2 * n) g)
    (hg : g () = .ok (s.lineWrites false line.toNat (f32Rows n vals (fun _ => false))) wDrain fl)
    (hl : line.toNat + 2 * n ≤ 4096) : UnlessHeld i s line.toNat (2 * n) (fun t =>
      LinesWritten line.toNat (2 * n) (fun k i => byteOf ((vals (k / 2))[32 * (k % 2) + i / 4]?.getD 0) (i % 4))
        (fun _ => false) s t ∧ MatrixWrote s fl s.here.mx t) := by
  refine unlessHeld_lines (publish := false) h e (hf.trans ?_) (length_f32Rows _ _ _) (f32Rows_whole _ _ _)
    (fun k hk i hi => f32Rows_byte _ _ hk hi) (fun k hk => f32Rows_bad _ (fun _ => false) hk)
  rw [storeTile_of hc ht, if_neg (Nat.not_lt.2 hl), hg]

theorem mtpst_addressFault :
    (4096 < line.toNat + 2 * s.here.mx.rows → Completes (.mtpstPlan line) s (MatrixFaults s 1))
    ∧ (4096 < line.toNat + 4 → Completes (.mtpstPotentials line) s (MatrixFaults s 1))
    ∧ (4096 < line.toNat + 2 → Completes (.mtpstRelease line) s (MatrixFaults s 1)) :=
  ⟨fun hl => matrix_faults h (exec_mtpstPlan s) ((storeTile_of hc ht).trans (if_pos hl)),
    fun hl => matrix_faults h (exec_mtpstPotentials s) ((storeTile_of hc ht).trans (if_pos hl)),
    fun hl => matrix_faults h (exec_mtpstRelease s) ((storeTile_of hc ht).trans (if_pos hl))⟩

theorem mtpstPlan_stores (hl : line.toNat + 2 * s.here.mx.rows ≤ 4096) :
    UnlessHeld (.mtpstPlan line) s line.toNat (2 * s.here.mx.rows) (fun t =>
      LinesWritten line.toNat (2 * s.here.mx.rows) (fun k i => byteOf
        (if 32 * (k % 2) + i / 4 < s.here.mx.cols then (s.here.mx.plan (k / 2) (32 * (k % 2) + i / 4)).1 else 0) (i % 4))
        (fun _ => false) s t ∧ ∃ fl, MatrixWrote s fl s.here.mx t) := by
  refine (stores_rows (vals := fun r => ((List.range s.here.mx.cols).map (s.here.mx.plan r)).map Prod.fst) h hc ht
    (exec_mtpstPlan s) rfl (congrArg (fun b => Mres.ok (s.lineWrites false line.toNat b) wDrain _) (clean_f32Rows _ _))
    hl).mono fun t hw => ⟨hw.1.congr rfl rfl rfl (fun k _ i _ => congrArg (byteOf · (i % 4)) ?_) (fun _ _ => rfl), _, hw.2⟩
  by_cases hj : 32 * (k % 2) + i / 4 < s.here.mx.cols <;> simp [hj]

theorem mtpstPotentials_stores (hl : line.toNat + 4 ≤ 4096) :
    UnlessHeld (.mtpstPotentials line) s line.toNat 4 (fun t =>
      LinesWritten line.toNat 4 (fun k i => byteOf
        (Tbl.get 0 (if k < 2 then s.here.mx.f else s.here.mx.gp) (32 * (k % 2) + i / 4)).toNat (i % 4)) (fun _ => false) s t
        ∧ MatrixWrote s 0 s.here.mx t) := by
  refine (stores_rows (n := 2) (fl := 0)
    (vals := fun r => if r = 0 then regList s.here.mx.f 64 else regList s.here.mx.gp 64) h hc ht
    (exec_mtpstPotentials s) rfl
    (congrArg (fun b => Mres.ok (s.lineWrites false line.toNat b) wDrain 0) (clean_two_f32Lines _ _))
    hl).mono fun t hw => ⟨hw.1.congr rfl rfl rfl (fun k _ i hi => congrArg (byteOf · (i % 4)) ?_) (fun _ _ => rfl), hw.2⟩
  have hj : 32 * (k % 2) + i / 4 < 64 := by omega
  by_cases hk : k < 2
  · rw [if_pos hk, if_pos (by omega), getElem?_regList _ hj]
  · rw [if_neg hk, if_neg (by omega), getElem?_regList _ hj]

theorem mtpstRelease_waits (hl : line.toNat + 2 ≤ 4096) (hw : s.linesHeld line.toNat 2 = true) :
    Completes (.mtpstRelease line) s (MatrixWaits true s) := by
  refine matrix_waits h (exec_mtpstRelease_eq s line) ?_
  rw [releaseRun, storeTile_of hc ht, if_neg (Nat.not_lt.2 hl), if_pos hw]

theorem mtpstRelease_releases (hl : line.toNat + 2 ≤ 4096) (hw : s.linesHeld line.toNat 2 = false) :
    Completes (.mtpstRelease line) s (fun t =>
      LinesWritten line.toNat 2 (fun k i => byteOf (Tbl.get 0 s.here.mx.f (32 * k + i / 4)).toNat (i % 4))
          (fun _ => false) s t
        ∧ MatrixWrote s 0 { s.here.mx with tp := false, free := some s.free } t ∧ t.free = s.free + 1) := by
  let body := f32Rows 1 (fun _ => regList s.here.mx.f 64) (fun _ => false)
  have hfree := lineWrites_free false body s line.toNat
  obtain ⟨⟨hseat, hfresh, hop, hcores⟩, hlines⟩ := lineWrites_written false body s line.toNat (f32Rows_whole _ _ _)
  have hok : releaseRun line s = .ok (s.lineWrites false line.toNat body).released wDrain 0 := by
    rw [releaseRun, storeTile_of hc ht, if_neg (Nat.not_lt.2 hl), hw, if_neg (by decide), clean_f32Lines]
  generalize s.lineWrites false line.toNat body = w at *
  have hcore := State.released_core w
  rw [hseat] at hcore
  have hhere : w.released.here = { s.here with
      slots := w.released.here.slots, mx := { s.here.mx with tp := false, free := some s.free } } := by
    have hh : w.released.here = w.released.core s.seat.core := congrArg (fun x : Seat => w.released.core x.core) hseat
    rw [hh, hcore, if_pos rfl, hcores s.seat.core, hfree]
    rfl
  have hothers : ∀ c ≠ s.seat.core, w.released.core c = { s.core c with slots := (w.released.core c).slots } :=
    fun c hne => by rw [hcore c, if_neg hne, hcores c]
  have hbytes : ∀ k < body.length, ∀ i < 128, ((body[k]?.map Prod.fst).getD [])[i]?.getD 0
      = byteOf (Tbl.get 0 s.here.mx.f (32 * k + i / 4)).toNat (i % 4) := by
    intro k hk i hi
    rw [length_f32Rows] at hk
    rw [f32Rows_byte _ _ hk hi, Nat.mod_eq_of_lt (by omega), getElem?_regList _ (by omega)]
  obtain ⟨t, e, hw, hm⟩ := matrix_wrote h (exec_mtpstRelease_eq s line) hok hseat hfresh hop hhere hothers
    rfl rfl rfl rfl (hlines.congr (u := w.released) (bad2 := fun _ => false) rfl rfl rfl hbytes
      fun k hk => f32Rows_bad _ (fun _ => false) (hk.trans_eq (length_f32Rows 1 _ _)))
  refine ⟨t, e, hw, hm, ?_⟩
  rw [exec_mtpstRelease_eq, matrixWord_of h, hok] at e
  rw [← Host.Outcome.next.inj e, issueWord_free]
  exact congrArg (· + 1) hfree

/-! ## `mtdist` (R222) -/

theorem mtdist_addressFault (hl : 4096 < cost.toNat + 2 * s.here.mx.rows
      ∨ (cost.toNat ≤ out.toNat ∧ out.toNat < cost.toNat + 2 * s.here.mx.rows)) :
    Completes (.mtdist cost out) s (MatrixFaults s 1) :=
  matrix_faults h (exec_mtdist s) ((if_neg (by simp [hc, ht])).trans (if_pos hl))

variable (hl : cost.toNat + 2 * s.here.mx.rows ≤ 4096)
  (ho : out.toNat < cost.toNat ∨ cost.toNat + 2 * s.here.mx.rows ≤ out.toNat)
include hl ho

theorem mtdist_waits (he : ∃ x < 2 * s.here.mx.rows, s.isEmpty (lineKey s.seat.core (cost.toNat + x)) = true) :
    Completes (.mtdist cost out) s (MatrixWaits true s) :=
  matrix_waits h (exec_mtdist s) ((if_neg (by simp [hc, ht])).trans ((if_neg (by omega)).trans
    (if_pos (by rw [regionLines_any.2 he, Bool.true_or]))))

theorem mtdist_writes (he : ∀ x < 2 * s.here.mx.rows, s.isEmpty (lineKey s.seat.core (cost.toNat + x)) = false) :
    UnlessHeld (.mtdist cost out) s out.toNat 1 (fun t => ∃ bad, LinesWritten out.toNat 1 (fun _ i => byteOf
          (if i < 4 then (s.here.mx.distance (fun i j => wordAt s ((cost.toNat + 2 * i) * 128 + 4 * j))).1 else 0) (i % 4))
          (fun _ => bad) s t
        ∧ (bad = true ↔ ∃ x < 2 * s.here.mx.rows, s.isBad (lineKey s.seat.core (cost.toNat + x)) = true)
        ∧ ∃ fl, MatrixWrote s fl s.here.mx t) := by
  let d := s.here.mx.distance (fun i j => wordAt s ((cost.toNat + 2 * i) * 128 + 4 * j))
  let bad := (regionLines s.seat.core cost.toNat (2 * s.here.mx.rows)).any s.isBad
  obtain ⟨b, hb, hlen, hbytes⟩ := f32Lines_get 1 [d.1] 0 (by decide)
  have hbody : f32Lines 1 [d.1] = [b] := by
    obtain ⟨x, hx⟩ := List.length_eq_one_iff.1 (f32Lines_len 1 [d.1])
    rw [hx] at hb ⊢
    exact congrArg (fun y => [y]) (Option.some.inj hb)
  refine (unlessHeld_lines (publish := false) (body := (f32Lines 1 [d.1]).map (fun b => (b, bad))) (fl := d.2)
    (bad := fun _ => bad) h (exec_mtdist s) ?_ ?_ ?_ (fun k hk i hi => ?_) (fun k hk => ?_)).mono
    fun t hw => ⟨bad, hw.1, regionLines_any, _, hw.2⟩
  · refine (if_neg (by simp [hc, ht])).trans ((if_neg (by omega)).trans ?_)
    rw [regionLines_not_any.2 he, Bool.false_or]
  · rw [List.length_map, f32Lines_len]
  · rw [hbody]
    intro x hx
    rw [List.mem_singleton.1 hx]
    exact hlen
  · obtain rfl : k = 0 := by omega
    rw [hbody]
    refine (congrArg (·.getD 0) (hbytes i hi)).trans (congrArg (byteOf · (i % 4)) ?_)
    by_cases h4 : i < 4
    · rw [if_pos h4, show 32 * 0 + i / 4 = 0 by omega]
      rfl
    · rw [if_neg h4, List.getElem?_eq_none (by rw [List.length_singleton]; omega)]
      rfl
  · obtain rfl : k = 0 := by omega
    rw [hbody]
    rfl

end

/-- Settles O32: what each word refuses, and waits for, and then what it loads, counts or writes. -/
theorem transportTile : Obligations.TransportTile := by
  unfold Obligations.TransportTile
  exact fun s line cost out rows cols sweeps tol h => ⟨mtpld_coopFault h, mtpld_addressFault h, mtpld_waits h,
    mtpld_poisonFault h,
    fun hc hl hx => mtpld_loads h hc hl (fun x hi => (hx x hi).1) (fun x hi => (hx x hi).2),
    transport_refused h, mbal_balances h,
    fun hc ht => (mtpst_addressFault h hc ht).1, mtpstPlan_stores h,
    fun hc ht => (mtpst_addressFault h hc ht).2.1, mtpstPotentials_stores h,
    fun hc ht => (mtpst_addressFault h hc ht).2.2,
    fun hc ht hl => ⟨mtpstRelease_waits h hc ht hl, mtpstRelease_releases h hc ht hl⟩,
    mtdist_addressFault h, mtdist_waits h, mtdist_writes h⟩

end Sys2Proof.Machine
end

section
/-!
O22: `nop`, `trap`, `brk`, `eret` and illegal words (R102, R137, R225, R226, R245, R298, R299, R356, R402).
-/

namespace Sys2Proof.Machine

variable {s : State} {g : Guard}

/-! ## `brk` (R243, R356) -/

theorem getLsbD_one_shift {n j : Nat} (hj : j < 64) : ((1 <<< n : Word)).getLsbD j = decide (n = j) := by
  rw [BitVec.natCast_eq_ofNat, BitVec.getLsbD_ofNat, decide_eq_true hj, Bool.true_and, Nat.one_shiftLeft,
    Nat.testBit_two_pow]

theorem getLsbD_bits (f : Nat → Bool) (n : Nat) {j : Nat} (hj : j < 64) :
    ((List.range n).foldl (fun w i => if f i then w ||| (1 <<< i : Word) else w) 0).getLsbD j
      = (decide (j < n) && f j) := by
  induction n with
  | zero => simp
  | succ n ih =>
    rw [List.range_succ, List.foldl_append, List.foldl_cons, List.foldl_nil]
    have hlt : decide (j < n + 1) = (decide (j < n) || decide (n = j)) := by
      rw [← Bool.decide_or]
      exact decide_eq_decide.2 (by omega)
    rw [hlt]
    by_cases hf : f n = true
    · rw [if_pos hf, BitVec.getLsbD_or, ih, getLsbD_one_shift hj]
      by_cases hn : n = j
      · subst hn
        simp [hf]
      · simp [hn]
    · rw [if_neg hf, ih]
      by_cases hn : n = j
      · subst hn
        simp [hf]
      · simp [hn]

theorem predBits_getLsbD (k : Ctl) (p : Pred) : (predBits k).getLsbD p.toNat = k.pred p := by
  have hp : p.toNat < 8 := p.isLt
  rw [predBits, getLsbD_bits (fun i => k.pred (BitVec.ofNat 3 i)) 8 (by omega), decide_eq_true hp, Bool.true_and,
    BitVec.ofNat_toNat, BitVec.setWidth_eq]

/-- A debug halt keeps the task and its registers, and runs the debug entry (R243). -/
theorem brk_halts (h : Issues s g []) (hdbg : (s.part s.here.part).dbg = true) (hsup : s.here.supervisor = false) :
    Completes (.brk g) s (fun t =>
        (∃ k, t.here.halted = some k ∧ k.g = s.here.ctl.g ∧ k.q = s.here.ctl.q ∧ k.pc = s.here.ctl.pc)
          ∧ t.here.epc = BitVec.ofNat 64 s.here.ctl.pc ∧ t.here.dbgG = s.here.ctl.g ∧ t.here.frozen = true
          ∧ (∀ p : Pred, t.here.dbgQ.getLsbD p.toNat = s.pred p)
          ∧ t.here.ctl.pc = s.here.dbgEntry.toNat ∧ t.here.supervisor = true ∧ MemoryKept s t) := by
  refine ⟨_, (exec_brk s).trans ((control_of_issues h _).trans (congrArg _ (if_pos (by simp [hdbg, hsup])))), ?_⟩
  simp only [State.debugHalt, State.modCtl_eq, State.modCore_eq, State.here_next, State.setCore_setCore,
    State.core_setCore, if_true, State.here_setCore]
  exact ⟨⟨_, rfl, rfl, rfl, rfl⟩, rfl, rfl, trivial, predBits_getLsbD _, rfl, Bool.or_true _, fun a => rfl⟩

theorem brk_traps (h : Issues s g []) (hn : (s.part s.here.part).dbg = false ∨ s.here.supervisor = true) :
    Completes (.brk g) s (Traps 19 (BitVec.ofNat 64 s.here.ctl.pc) s) := by
  refine ⟨_, (exec_brk s).trans ((control_of_issues h _).trans (congrArg _ (if_neg ?_))), State.trap_traps s _ _⟩
  rcases hn with hn | hn <;> simp [hn]

/-! ## `eret` (R137, R245) -/

/-- A core's tasks may go on: each of its subscriptions is live and has no backlog (R137). -/
def AllLive (s : State) (c : Nat) : Prop := ∀ u ∈ s.subs, u.sub = c → u.state = 2 ∧ u.backlog = []

/-- The machine once the subscriptions of a core go on (R137). -/
def State.resumed (s : State) (c : Nat) : State :=
  { s with subs := s.subs.map (fun u => if u.sub = c then u.resume else u) }

theorem Sub.resume_sub (u : Sub) : u.resume.sub = u.sub := by unfold Sub.resume; split <;> rfl

theorem Sub.resume_resync (u : Sub) : u.resume.resync = true ↔ ¬ (u.state = 2 ∧ u.backlog = []) := by
  unfold Sub.resume
  split
  · simp [*]
  · simp only [Bool.or_eq_true, bne_iff_ne, Bool.not_eq_true', List.isEmpty_eq_false_iff]
    tauto

theorem resyncing_resumed (s : State) (c : Nat) : (s.resumed c).resyncing c = true ↔ ¬ AllLive s c := by
  have hone : ∀ u : Sub, ((if u.sub = c then u.resume else u).sub == c && (if u.sub = c then u.resume else u).resync) = true
      ↔ ¬ (u.sub = c → u.state = 2 ∧ u.backlog = []) := by
    intro u
    by_cases hu : u.sub = c
    · rw [if_pos hu, Bool.and_eq_true, Sub.resume_resync, Sub.resume_sub]
      simp [hu]
    · simp [hu]
  unfold State.resyncing State.resumed AllLive
  simp only [List.any_map, List.any_eq_true, Function.comp_apply, hone, not_forall, exists_prop]

/-- The first n predicates reloaded. -/
def Ctl.loadPreds (k : Ctl) (f : Nat → Bool) (n : Nat) : Ctl :=
  (List.range n).foldl (fun t i => t.setPred (BitVec.ofNat 3 i) (f i)) k

theorem Ctl.loadPreds_succ (k : Ctl) (f : Nat → Bool) (n : Nat) :
    k.loadPreds f (n + 1) = (k.loadPreds f n).setPred (BitVec.ofNat 3 n) (f n) := by
  unfold Ctl.loadPreds
  rw [List.range_succ, List.foldl_append]
  rfl

theorem Ctl.loadPreds_eq (k : Ctl) (f : Nat → Bool) (n : Nat) :
    k.loadPreds f n = { k with q := (k.loadPreds f n).q } := by
  induction n with
  | zero => rfl
  | succ n ih =>
    rw [Ctl.loadPreds_succ, Ctl.setPred_eq]
    generalize k.loadPreds f n = t at ih
    rw [ih]

theorem Ctl.loadPreds_pred (k : Ctl) (f : Nat → Bool) {n : Nat} (hn : n ≤ 8) {p : Pred} (hp : p ≠ 0) :
    (k.loadPreds f n).pred p = if p.toNat < n then f p.toNat else k.pred p := by
  induction n with
  | zero => rfl
  | succ n ih =>
    have heq : p = BitVec.ofNat 3 n ↔ p.toNat = n := by
      rw [← BitVec.toNat_inj, BitVec.toNat_ofNat, Nat.mod_eq_of_lt (by omega)]
    rw [Ctl.loadPreds_succ, Ctl.pred_setPred, ih (by omega)]
    by_cases hpn : p.toNat = n
    · rw [if_pos ⟨heq.2 hpn, hp⟩, if_pos (by omega), hpn]
    · rw [if_neg (fun hc => hpn (heq.1 hc.1))]
      exact if_congr (by omega) rfl rfl

/-- The task that `eret` resumes has the registers of 0x180-0x1A0, at the word after `epc` (R245). -/
def Resumes (k : Core) (t : Ctl) : Prop :=
  t.pc = k.epc.toNat + 1 ∧ (∀ r, t.reg r = if r = 0 then 0 else Tbl.get 0 k.dbgG r.toNat)
    ∧ ∀ p, t.pred p = if p = 0 then true else k.dbgQ.getLsbD p.toNat

theorem Core.reloaded_eq (k : Core) (t : Ctl) :
    k.reloaded t = ({ t with g := k.dbgG, pc := k.epc.toNat + 1 } : Ctl).loadPreds (k.dbgQ.getLsbD ·) 8 := rfl

theorem Core.reloaded_slot (k : Core) (t : Ctl) : (k.reloaded t).slot = t.slot := by
  rw [Core.reloaded_eq, Ctl.loadPreds_eq]

theorem Core.reloaded_resumes (k : Core) (t : Ctl) : Resumes k (k.reloaded t) := by
  rw [Core.reloaded_eq]
  refine ⟨?_, fun r => ?_, fun p => ?_⟩
  · rw [Ctl.loadPreds_eq]
  · rw [Ctl.loadPreds_eq]
    rfl
  · by_cases hp : p = 0
    · rw [if_pos hp, hp]
      rfl
    · rw [if_neg hp, Ctl.loadPreds_pred _ _ le_rfl hp, if_pos p.isLt]

/-- A slot after the task t has been parked: the one that t runs in holds it suspended (R137). -/
def parkSlot (t : Ctl) (n : Nat) (x : Slot) : Slot :=
  if some n = t.slot then { x with st := .suspended, saved := some t } else x

theorem Core.find_park (k : Core) (t : Ctl) (n : Nat) :
    Tbl.find (k.park t).slots n = (Tbl.find k.slots n).map (parkSlot t n) := by
  have hslots : (k.park t).slots = k.slots.map (fun x => (x.1, parkSlot t x.1 x.2)) := by
    refine List.map_congr_left fun x _ => ?_
    unfold parkSlot
    split <;> rfl
  rw [hslots, Tbl.find_mappedAt]

/-- What `eret` makes of its core, given the task kept and whether it must wait (R245). -/
def Core.returned (k : Core) (t : Ctl) (wait : Bool) : Core :=
  let back := { k with halted := none, frozen := k.preempt.isSome }
  if t.slot = none then { back with ctl := back.ctl.idle }
  else if wait then back.park (k.reloaded t)
  else { back with ctl := k.reloaded t }

theorem eret_returns (h : Issues s g []) {t : Ctl} (ht : s.here.halted = some t) : exec (.eret g) s =
    .next ((s.resumed s.seat.core).setCore s.seat.core
      (s.here.returned t ((s.resumed s.seat.core).resyncing s.seat.core))) := by
  have hcore : (s.core s.seat.core).halted = some t := ht
  refine (exec_eret s).trans ((control_of_issues h _).trans (congrArg _ ((if_pos (by simp [ht])).trans ?_)))
  unfold State.eret
  rw [hcore]
  refine congrArg ((s.resumed s.seat.core).setCore s.seat.core) ?_
  unfold Core.returned
  by_cases hslot : t.slot = none
  · simp only [hslot, if_true]
    rfl
  · simp only [hslot, Core.reloaded_slot, if_false]
    rfl

/-- What every return from a debug halt leaves (R137, R237, R245). -/
def Returned (s t : State) : Prop :=
  t.here.halted = none ∧ t.here.frozen = s.here.preempt.isSome ∧ MemoryKept s t
    ∧ t.subs = s.subs.map (fun u => if u.sub = s.seat.core then u.resume else u)

theorem eret_completes (h : Issues s g []) {t : Ctl} (ht : s.here.halted = some t) {P : Core → Prop}
    (hP : P (s.here.returned t ((s.resumed s.seat.core).resyncing s.seat.core))) :
    Completes (.eret g) s (fun u => Returned s u ∧ P u.here) := by
  refine ⟨_, eret_returns h ht, ?_⟩
  have hhere : ∀ k, ((s.resumed s.seat.core).setCore s.seat.core k).here = k :=
    fun k => (State.here_setCore _ _ _).trans (if_pos rfl)
  beta_reduce
  unfold Returned
  rw [hhere]
  refine ⟨⟨?_, ?_, fun a => rfl, rfl⟩, hP⟩
  all_goals
    unfold Core.returned
    dsimp only
    split
    · rfl
    · split <;> rfl

section
variable (h : Issues s g []) {k : Ctl} (hk : s.here.halted = some k)
include h hk

theorem eret_nothing (hn : k.slot = none) :
    Completes (.eret g) s (fun t => Returned s t ∧ t.here.ctl.slot = none) :=
  eret_completes (P := fun c => c.ctl.slot = none) h hk (by rw [Core.returned, if_pos hn]; rfl)

variable {n : Nat} (hn : k.slot = some n)
include hn

theorem eret_resumes (hl : AllLive s s.seat.core) : Completes (.eret g) s (fun t => Returned s t
    ∧ t.here.ctl.slot = some n ∧ Resumes s.here t.here.ctl) := by
  have hwait : ¬ (s.resumed s.seat.core).resyncing s.seat.core = true := fun hw => (resyncing_resumed _ _).1 hw hl
  refine eret_completes (P := fun c => c.ctl.slot = some n ∧ Resumes s.here c.ctl) h hk ?_
  rw [Core.returned, if_neg (by simp [hn]), if_neg hwait]
  exact ⟨(Core.reloaded_slot _ _).trans hn, Core.reloaded_resumes _ _⟩

theorem eret_suspends {x : Slot} (hl : ¬ AllLive s s.seat.core) (hx : Tbl.find s.here.slots n = some x) :
    Completes (.eret g) s (fun t => Returned s t ∧ t.here.ctl.slot = none
      ∧ ∃ c, Tbl.find t.here.slots n = some { x with st := .suspended, saved := some c } ∧ Resumes s.here c) := by
  refine eret_completes (P := fun c => c.ctl.slot = none
    ∧ ∃ t, Tbl.find c.slots n = some { x with st := .suspended, saved := some t } ∧ Resumes s.here t) h hk ?_
  rw [Core.returned, if_neg (by simp [hn]), if_pos ((resyncing_resumed _ _).2 hl)]
  refine ⟨rfl, s.here.reloaded k, ?_, Core.reloaded_resumes _ _⟩
  rw [Core.find_park, hx, Option.map_some, parkSlot, if_pos ((Core.reloaded_slot _ _).trans hn).symm]

end

theorem eret_traps (h : Issues s g []) (hh : s.here.halted = none) :
    (s.here.firmware = true →
      Completes (.eret g) s (Traps 1 ((Tbl.get 0 s.here.store s.here.ctl.pc).setWidth 64) s))
    ∧ (s.here.firmware = false → Completes (.eret g) s (Traps 2 0 s)) := by
  have hrun := (exec_eret (g := g) s).trans ((control_of_issues h _).trans (congrArg _ (if_neg (by simp [hh]))))
  refine ⟨fun hf => ⟨_, hrun.trans (congrArg _ (if_pos hf)), State.trap_traps s _ _⟩,
    fun hf => ⟨_, hrun.trans (congrArg _ (if_neg (by simp [hf]))), State.trap_traps s _ _⟩⟩

/-! ## The stream sequencer (R299, R356) -/

/-- A stream sequencer that stops halts at its word, and its chain's unit is faulted (R299). -/
theorem State.streamStop_here (s : State) (cause : Nat) (ev : Word) (port : Option Nat) :
    (s.streamStop cause ev port).here = { s.here with
        ss := { s.here.ss with halt := true }
        chains := s.here.chains.put s.here.ss.chain { s.here.chain s.here.ss.chain with status := .faulted } }
      ∧ (s.streamStop cause ev port).mem = s.mem := by
  have hsame := State.reportCore_same { s with free := s.free + 1 } s.seat.core 2 cause false
    (port.getD ((Config.freeWord s.free).toNat % 2 ^ 14)) ev
  unfold State.streamStop
  dsimp only
  generalize ({ s with free := s.free + 1 } : State).reportCore _ _ _ _ _ _ = u at *
  have hhere : u.here = s.here := hsame.here
  obtain ⟨-, hseat, hmem⟩ := hsame
  have hseat : u.seat = s.seat := hseat
  rw [State.modHere_eq, hseat, hhere, State.modChain_setCore, State.here_setCore, hseat, if_pos rfl]
  exact ⟨rfl, hmem⟩

section
variable (hq : s.seat.seq = .stream) (ha : s.here.ss.active = true) (hh : s.here.ss.halt = false)
  (hf : s.here.frozen = false)
include hq ha hh hf

theorem nop_stream : Completes (.nop g) s (fun t => t = s.setCore s.seat.core { s.here with
    ss := { s.here.ss with pc := s.here.ss.pc + 1 } }) :=
  ⟨_, (exec_nop s).trans ((if_pos hq).trans (if_pos ⟨ha, by simp [hh], by simp [hf]⟩)), rfl⟩

theorem illegal_stream (w : BitVec 32) : Completes (.illegalInstruction w) s (fun t =>
    t.here.ss = { s.here.ss with halt := true } ∧ t.here.ctl = s.here.ctl ∧ MemoryKept s t
      ∧ (t.here.chain s.here.ss.chain).status = .faulted) := by
  refine ⟨s.streamStop 1 (w.setWidth 64) none, ?_, ?_⟩
  · rw [exec_illegalInstruction, execIllegalInstruction, hq]
    exact if_neg (by simp [ha, hh, hf])
  · obtain ⟨hhere, hmem⟩ := State.streamStop_here s 1 (w.setWidth 64) none
    rw [hhere]
    exact ⟨rfl, rfl, fun a => by rw [hmem], congrArg _ (Tbl.get_put_self ..)⟩

end

/-! ## The control and the matrix sequencer (R102, R298, R402) -/

theorem illegal_control (hq : s.seat.seq = .control) (hs : s.here.ctl.slot ≠ none) (hk : s.here.ctl.killed = false)
    (w : BitVec 32) : Completes (.illegalInstruction w) s (Traps 1 (w.setWidth 64) s) := by
  refine ⟨s.trap 1 (w.setWidth 64), ?_, State.trap_traps s _ _⟩
  rw [exec_illegalInstruction, execIllegalInstruction, hq]
  exact (if_neg hs).trans (if_neg (by simp [hk]))

section
variable (hq : s.seat.seq = .matrix) (ha : s.here.mx.active = true) (hh : s.here.mx.halt = false)
  (hf : s.here.frozen = false) (w : BitVec 32)
include hq

theorem illegal_matrix_drains (hd : ∃ x ∈ s.here.mx.words, x.drains = true) :
    exec (.illegalInstruction w) s = .next s := by
  rw [exec_illegalInstruction, execIllegalInstruction, hq]
  exact if_pos (by rw [List.any_eq_true.2 hd, Bool.or_true])

include ha hh hf

theorem illegal_matrix_stops (hd : ∀ x ∈ s.here.mx.words, x.drains = false) :
    Completes (.illegalInstruction w) s (fun t => t.here.mx = { s.here.mx with halt := true, fcode := 0 }
      ∧ t.here.ctl = s.here.ctl ∧ MemoryKept s t ∧ (t.here.chain s.here.mx.chain).status = .faulted) := by
  refine ⟨s.stopMatrix s.seat.core 1 (w.setWidth 64) 0, ?_, ?_⟩
  · rw [exec_illegalInstruction, execIllegalInstruction, hq]
    refine if_neg ?_
    have hnone : s.here.mx.words.any MWord.drains = false := List.any_eq_false.2 fun x hx => by simp [hd x hx]
    rw [hnone, ha, hh, hf]
    decide
  · have hhere : (s.stopMatrix s.seat.core 1 (w.setWidth 64) 0).here = _ :=
      (congrArg (fun x : Seat => (s.stopMatrix s.seat.core 1 (w.setWidth 64) 0).core x.core)
        (State.stopMatrix_seat ..)).trans ((State.stopMatrix_core ..).trans (if_pos rfl))
    beta_reduce
    rw [hhere]
    exact ⟨rfl, rfl, fun a => by rw [State.stopMatrix_mem], congrArg _ (Tbl.get_put_self ..)⟩

end

/-- Settles O22: the words of the control sequencer by what each does once it issues, and an illegal word by the
sequencer at which it stands. -/
theorem systemWords : Obligations.SystemWords := by
  unfold Obligations.SystemWords
  refine fun s g code w => ⟨fun h => ⟨⟨_, ?_, State.stepPc_next s, State.stepPc_registersOnly s⟩,
      ⟨_, (exec_trap s).trans (control_of_issues h _), State.trap_traps s _ _⟩, brk_halts h, brk_traps h,
      fun k hk => ⟨eret_nothing h hk, fun n hn => eret_resumes h hk hn, fun n x hn hl => eret_suspends h hk hn hl⟩,
      fun hh => (eret_traps h hh).1, fun hh => (eret_traps h hh).2⟩,
    fun hq ha hh hf => ⟨nop_stream hq ha hh hf, illegal_stream hq ha hh hf w⟩,
    fun hq hs hk => illegal_control hq hs hk w,
    fun hq ha hh hf => ⟨illegal_matrix_drains hq w, illegal_matrix_stops hq ha hh hf w⟩⟩
  rw [exec_nop, execNop, if_neg (by rw [h.1]; decide), control_of_issues h]

end Sys2Proof.Machine
end

section
/-!
O33: the firings that a pass takes, and what a firing adds to its row (R39, R40, R99, R104).
-/

namespace Sys2Proof.Machine

/-! ## The step that a pass serves (R99) -/

theorem mem_nextFirings {f : Firing} (l : List Firing) (rows : List Nat) :
    f ∈ nextFirings l rows ↔ ComesNext l f ∧ f.i ∉ rows := by
  induction l generalizing rows with
  | nil => simp [nextFirings, ComesNext]
  | cons x r ih =>
    have hcons : ComesNext (x :: r) f ↔ f = x ∨ (x.i ≠ f.i ∧ ComesNext r f) := by
      constructor
      · rintro ⟨a, b, hab, ha⟩
        cases a with
        | nil => exact .inl (List.cons.inj hab).1.symm
        | cons y a =>
          obtain ⟨rfl, hr⟩ := List.cons.inj hab
          exact .inr ⟨ha _ (by simp), a, b, hr, fun g hg => ha g (by simp [hg])⟩
      · rintro (rfl | ⟨hx, a, b, rfl, ha⟩)
        · exact ⟨[], r, rfl, by simp⟩
        · exact ⟨x :: a, b, rfl, by simpa using ⟨hx, ha⟩⟩
    unfold nextFirings
    rw [hcons]
    split
    · rename_i hc
      have hx : x.i ∈ rows := by simpa using hc
      rw [ih]
      constructor
      · rintro ⟨hn, hf⟩
        exact ⟨.inr ⟨fun e => hf (e ▸ hx), hn⟩, hf⟩
      · rintro ⟨rfl | ⟨-, hn⟩, hf⟩
        · exact absurd hx hf
        · exact ⟨hn, hf⟩
    · rename_i hc
      have hx : x.i ∉ rows := by simpa using hc
      rw [List.mem_cons, ih, List.mem_cons, not_or]
      constructor
      · rintro (rfl | ⟨hn, hi, hf⟩)
        · exact ⟨.inl rfl, hx⟩
        · exact ⟨.inr ⟨fun e => hi e.symm, hn⟩, hf⟩
      · rintro ⟨rfl | ⟨hi, hn⟩, hf⟩
        · exact .inl rfl
        · exact .inr ⟨hn, fun e => hi e.symm, hf⟩

theorem foldl_min_le (l : List Firing) (n : Nat) :
    l.foldl (fun n f => min n f.s) n ≤ n ∧ ∀ f ∈ l, l.foldl (fun n f => min n f.s) n ≤ f.s := by
  induction l generalizing n with
  | nil => simp
  | cons x r ih =>
    obtain ⟨hn, hr⟩ := ih (min n x.s)
    refine ⟨hn.trans (Nat.min_le_left ..), fun f hf => ?_⟩
    rcases List.mem_cons.1 hf with rfl | hf
    · exact hn.trans (Nat.min_le_right ..)
    · exact hr f hf

theorem le_foldl_min (l : List Firing) {n st : Nat} (hn : st ≤ n) (h : ∀ f ∈ l, st ≤ f.s) :
    st ≤ l.foldl (fun n f => min n f.s) n := by
  induction l generalizing n with
  | nil => exact hn
  | cons x r ih => exact ih (Nat.le_min.2 ⟨hn, h x (by simp)⟩) fun f hf => h f (by simp [hf])

/-- The model's step of a pass is the one it serves. -/
theorem ServesStep.step_eq {m : Mx} {st : Nat} (h : ServesStep m st) (hst : st < 128) :
    (nextFirings m.todo []).foldl (fun n f => min n f.s) 4096 = st := by
  obtain ⟨⟨f, hf, rfl⟩, hmin⟩ := h
  have hmem : ∀ g, g ∈ nextFirings m.todo [] ↔ ComesNext m.todo g := fun g => by simp [mem_nextFirings]
  exact Nat.le_antisymm ((foldl_min_le _ _).2 f ((hmem f).2 hf))
    (le_foldl_min _ (by omega) fun g hg => hmin g ((hmem g).1 hg))

theorem ServesStep.todo_ne_nil {m : Mx} {st : Nat} (h : ServesStep m st) : m.todo ≠ [] := by
  obtain ⟨⟨f, ⟨a, b, hab, -⟩, -⟩, -⟩ := h
  rw [hab]
  simp

/-! ## What a pass starts (R98, R99, R110) -/

/-- A firing's lines lie in the scratchpad (R99). -/
def InReach (s : State) (c : Nat) (f : Firing) : Prop :=
  f.bline + 2 * mPlanes f.fb * f.s + 2 * mPlanes f.fb ≤ 4096 ∧ (f.asrc = true ∨ s.follows c = true ∨ f.lastLine ≤ 4095)

theorem inReach_iff (s : State) (c : Nat) (f : Firing) : ¬ InReach s c f ↔
    (decide (4096 < f.bline + 2 * mPlanes f.fb * f.s + 2 * mPlanes f.fb)
      || (!f.asrc && !s.follows c && decide (4095 < f.lastLine))) = true := by
  unfold InReach
  cases f.asrc <;> cases s.follows c <;> simp [-not_and, Classical.not_and_iff_not_or_not]

theorem ready_of_not_inReach {s : State} {c : Nat} {f : Firing} (h : ¬ InReach s c f) : s.ready c f = .fault :=
  if_pos ((inReach_iff s c f).1 h)

theorem ready_of_inReach {s : State} {c : Nat} {f : Firing} (h : InReach s c f) : s.ready c f ≠ .fault := by
  unfold State.ready
  dsimp only
  rw [if_neg (fun hn => (inReach_iff s c f).2 hn h)]
  split_ifs
  · exact Ready.noConfusion
  · exact Ready.noConfusion
  · split <;> exact Ready.noConfusion
  · split <;> exact Ready.noConfusion
  · exact Ready.noConfusion
  · exact Ready.noConfusion

/-- Between two states the core's task, memory and the tile's mode are the same. -/
def Fed (c : Nat) (s t : State) : Prop :=
  (t.core c).ctl = (s.core c).ctl ∧ t.mem = s.mem ∧ (t.core c).mx.coop = (s.core c).mx.coop

theorem Fed.refl (c : Nat) (s : State) : Fed c s s := ⟨rfl, rfl, rfl⟩
theorem Fed.trans {c : Nat} {s t u : State} (h : Fed c s t) (k : Fed c t u) : Fed c s u :=
  ⟨k.1.trans h.1, k.2.1.trans h.2.1, k.2.2.trans h.2.2⟩
theorem Fed.follows {c : Nat} {s t : State} (h : Fed c s t) : t.follows c = s.follows c := by
  unfold State.follows
  rw [h.2.2]
theorem Fed.inReach {c : Nat} {s t : State} (h : Fed c s t) {f : Firing} : InReach t c f ↔ InReach s c f := by
  unfold InReach
  rw [h.follows]

theorem fed_coopIn (s : State) (c d : Nat) (g : List CoopRow → List CoopRow) :
    Fed c s (s.modMx d (fun m => { m with coopIn := g m.coopIn })) := by
  unfold Fed
  rw [State.modMx_eq, State.core_setCore]
  split
  · rename_i h
    rw [h]
    exact ⟨rfl, rfl, rfl⟩
  · exact ⟨rfl, rfl, rfl⟩

theorem fed_modPort (s : State) (c p : Nat) (g : Port → Port) : Fed c s (s.modPort c p g) := by
  unfold Fed
  rw [State.modPort_eq, State.core_setCore, if_pos rfl]
  exact ⟨rfl, rfl, rfl⟩

theorem takeA_fed (s : State) (c : Nat) (f : Firing) (data : List Byte) (bad : Bool) : Fed c s (s.takeA c f data bad) := by
  have hforward : ∀ (b : Bool) (u : State), Fed c u (if b then
      u.modMx (c + 1) (fun m => { m with coopIn := m.coopIn ++ [⟨f.ord, f.s, f.t, data, bad⟩] }) else u) := by
    intro b u
    cases b
    · exact Fed.refl c u
    · exact fed_coopIn u c (c + 1) (fun l => l ++ [⟨f.ord, f.s, f.t, data, bad⟩])
  unfold State.takeA
  dsimp only
  refine Fed.trans ?_ (hforward _ _)
  split_ifs
  · exact fed_coopIn s c c (fun l => l.filter (fun x => !x.isFor f))
  · exact fed_modPort s c _ _
  · exact Fed.refl c s

section
variable {c st : Nat} {f : Firing} {r : List Firing} {rows : List Nat} {hold : Bool} {kept run : List Firing} {s : State}

/-- A firing of the step at a row that the pass has not taken starts, or faults, or is left; any other is left. -/
theorem startAll_cons (hr : InReach s c f) :
    startAll c st (f :: r) rows hold kept run s
        = startAll c st r (f.i :: rows) (hold || (f.asrc || s.follows c)) (kept ++ [f]) run s
      ∨ f.s = st ∧ f.i ∉ rows ∧ ∃ data bad, startAll c st (f :: r) rows hold kept run s
        = startAll c st r (f.i :: rows) hold kept (run ++ [{ f with data := data, bad := bad }]) (s.takeA c f data bad) := by
  rw [startAll]
  split
  · exact .inl rfl
  · rename_i hn
    simp only [not_or, not_not] at hn
    obtain ⟨hs, hrows, -⟩ := hn
    have hready := ready_of_inReach hr
    cases hc : s.ready c f with
    | fault => exact absurd hc hready
    | no => exact .inl rfl
    | yes data bad => exact .inr ⟨hs, by simpa using hrows, data, bad, rfl⟩

theorem startAll_head (hs : f.s = st) {data : List Byte} {bad : Bool} (hr : s.ready c f = .yes data bad) :
    startAll c st (f :: r) [] false [] [] s
      = startAll c st r [f.i] false [] [{ f with data := data, bad := bad }] (s.takeA c f data bad) := by
  rw [startAll]
  rw [if_neg (by simp [hs]), hr]
  rfl

theorem startAll_faults (hs : f.s = st) (hr : ¬ InReach s c f) :
    startAll c st (f :: r) [] false [] [] s = (s, f :: r, [], some f) := by
  rw [startAll]
  rw [if_neg (by simp [hs]), ready_of_not_inReach hr]
  rfl

end

/-- What starting firings comes to: none faults, `started` are of the step and of different rows, and with those left
they are the firings that there were. -/
structure Starts (c st : Nat) (l : List Firing) (rows : List Nat) (kept run : List Firing) (s : State)
    (x : State × List Firing × List Firing × Option Firing) (left started : List Firing) : Prop where
  fed : Fed c s x.1
  left_eq : x.2.1 = kept ++ left
  started_eq : x.2.2.1 = run ++ started
  no_fault : x.2.2.2 = none
  step : ∀ f ∈ started, f.s = st
  fresh : ∀ f ∈ started, f.i ∉ rows
  nodup : (started.map (·.i)).Nodup
  sublist : left.Sublist l
  perm : ((left ++ started).map Firing.unread).Perm (l.map Firing.unread)

theorem startAll_starts (c st : Nat) (l : List Firing) (rows : List Nat) (hold : Bool) (kept run : List Firing)
    (s : State) (h : ∀ f ∈ l, InReach s c f) :
    ∃ left started, Starts c st l rows kept run s (startAll c st l rows hold kept run s) left started := by
  induction l generalizing rows hold kept run s with
  | nil =>
    exact ⟨[], [], Fed.refl c s, (List.append_nil _).symm, (List.append_nil _).symm, rfl, by simp, by simp, by simp,
      List.Sublist.refl _, List.Perm.refl _⟩
  | cons f r ih =>
    rcases startAll_cons (st := st) (r := r) (rows := rows) (hold := hold) (kept := kept) (run := run)
      (h f (by simp)) with he | ⟨hs, hrows, data, bad, he⟩
    · rw [he]
      obtain ⟨left, started, x⟩ := ih (f.i :: rows) (hold || (f.asrc || s.follows c)) (kept ++ [f]) run s
        (fun g hg => h g (by simp [hg]))
      exact ⟨f :: left, started, x.fed, by rw [x.left_eq, List.append_assoc]; rfl, x.started_eq, x.no_fault, x.step,
        fun g hg hm => x.fresh g hg (by simp [hm]), x.nodup, x.sublist.cons_cons f, x.perm.cons f.unread⟩
    · rw [he]
      have hfed := takeA_fed s c f data bad
      obtain ⟨left, started, x⟩ := ih (f.i :: rows) hold kept (run ++ [{ f with data := data, bad := bad }])
        (s.takeA c f data bad) (fun g hg => hfed.inReach.2 (h g (by simp [hg])))
      refine ⟨left, { f with data := data, bad := bad } :: started, hfed.trans x.fed, x.left_eq,
        by rw [x.started_eq, List.append_assoc]; rfl, x.no_fault, fun g hg => ?_, fun g hg => ?_, ?_,
        x.sublist.cons f, ?_⟩
      · rcases List.mem_cons.1 hg with rfl | hg
        · exact hs
        · exact x.step g hg
      · rcases List.mem_cons.1 hg with rfl | hg
        · exact hrows
        · exact fun hm => x.fresh g hg (by simp [hm])
      · refine List.nodup_cons.2 ⟨fun hm => ?_, x.nodup⟩
        obtain ⟨g, hg, hi⟩ := List.mem_map.1 hm
        exact x.fresh g hg (by rw [hi]; exact List.mem_cons_self)
      · exact (List.perm_middle.map Firing.unread).trans (x.perm.cons f.unread)

/-! ## `MATRIX_PASS` (R99) -/

/-- A pass that faults at its first firing has stopped the core's sequencer with the address fault. -/
theorem sit_matrixStop (s : State) (c : Nat) (g : Mx → Mx) :
    let t := ((s.modMx c g).sit c .matrix).matrixStop 16 1 1
    (t.core c).mx.halt = true ∧ (t.core c).mx.fcode = 1 ∧ (t.core c).ctl = (s.core c).ctl ∧ MemoryKept s t := by
  have hmem := State.stopMatrix_mem ((s.modMx c g).sit c .matrix) c 16 1 1
  have hcore := State.stopMatrix_core ((s.modMx c g).sit c .matrix) c 16 1 1 c
  have hctl : (((s.modMx c g).sit c .matrix).core c).ctl = (s.core c).ctl := by
    change ((s.modMx c g).core c).ctl = _
    rw [State.modMx_eq, State.core_setCore, if_pos rfl]
  rw [if_pos rfl] at hcore
  rw [State.matrixStop_eq, State.sit_seat]
  dsimp only
  rw [hcore]
  exact ⟨rfl, rfl, hctl, fun a => congrArg (·.read a) hmem⟩

section
variable {s : State} {c st : Nat} (hpass : (s.core c).mx.pass = []) (hfrozen : (s.core c).frozen = false)
  (hserves : ServesStep (s.core c).mx st) (hst : st < 128)
include hpass hfrozen hserves hst

theorem exec_matrixPass_of_starts {t : State} {kept run : List Firing}
    (hx : startAll c st (s.core c).mx.todo [] false [] [] s = (t, kept, run, none)) :
    exec (.matrixPass c) s = .next (t.modMx c (fun m => { m with todo := kept, pass := run })) := by
  rw [exec_matrixPass, execMatrixPass]
  dsimp only
  rw [if_neg (by simp [hpass, hfrozen, hserves.todo_ne_nil]), hserves.step_eq hst, hx]

theorem exec_matrixPass_of_fault {t : State} {kept run : List Firing} {f : Firing}
    (hx : startAll c st (s.core c).mx.todo [] false [] [] s = (t, kept, run, some f)) :
    exec (.matrixPass c) s = .next (((t.modMx c (fun m => { m with
      todo := kept.filter (fun x => x.word < f.word), pass := run
      pc := (((s.core c).mx.words.find? (fun w => w.id == f.word)).map (·.pc)).getD (s.core c).mx.pc })).sit c
        .matrix).matrixStop 16 1 1) := by
  rw [exec_matrixPass, execMatrixPass]
  dsimp only
  rw [if_neg (by simp [hpass, hfrozen, hserves.todo_ne_nil]), hserves.step_eq hst, hx]

theorem matrixPass_takes (hreach : ∀ f ∈ (s.core c).mx.todo, InReach s c f) : Completes (.matrixPass c) s (fun t =>
    (∀ f ∈ (t.core c).mx.pass, f.s = st) ∧ ((t.core c).mx.pass.map (·.i)).Nodup
      ∧ (((t.core c).mx.todo ++ (t.core c).mx.pass).map Firing.unread).Perm ((s.core c).mx.todo.map Firing.unread)
      ∧ (t.core c).mx.todo.Sublist (s.core c).mx.todo
      ∧ (∀ f r data bad, (s.core c).mx.todo = f :: r → f.s = st → s.ready c f = .yes data bad →
          (t.core c).mx.pass.head? = some { f with data := data, bad := bad })
      ∧ (t.core c).ctl = (s.core c).ctl ∧ MemoryKept s t) := by
  obtain ⟨left, started, x⟩ := startAll_starts c st (s.core c).mx.todo [] false [] [] s hreach
  obtain ⟨⟨t, kept, run, fault⟩, hx⟩ : ∃ y, startAll c st (s.core c).mx.todo [] false [] [] s = y := ⟨_, rfl⟩
  have hhead : ∀ f r data bad, (s.core c).mx.todo = f :: r → f.s = st → s.ready c f = .yes data bad →
      run.head? = some { f with data := data, bad := bad } := by
    intro f r data bad htodo hs hready
    rw [htodo] at hreach hx
    obtain ⟨left', started', x'⟩ := startAll_starts c st r [f.i] false [] [{ f with data := data, bad := bad }]
      (s.takeA c f data bad) fun g hg => (takeA_fed s c f data bad).inReach.2 (hreach g (by simp [hg]))
    have hrun := x'.started_eq
    rw [← startAll_head hs hready, hx] at hrun
    rw [show run = _ from hrun]
    rfl
  rw [hx] at x
  obtain rfl : fault = none := x.no_fault
  obtain rfl : kept = left := x.left_eq
  obtain rfl : run = started := x.started_eq
  refine ⟨_, exec_matrixPass_of_starts hpass hfrozen hserves hst hx, ?_⟩
  beta_reduce
  rw [State.modMx_eq, State.core_setCore, if_pos rfl]
  exact ⟨x.step, x.nodup, x.perm, x.sublist, hhead, x.fed.1, fun a => congrArg (·.read a) x.fed.2.1⟩

theorem matrixPass_faults {f : Firing} {r : List Firing} (htodo : (s.core c).mx.todo = f :: r) (hs : f.s = st)
    (hreach : ¬ InReach s c f) : Completes (.matrixPass c) s (fun t => (t.core c).mx.halt = true
      ∧ (t.core c).mx.fcode = 1 ∧ (t.core c).ctl = (s.core c).ctl ∧ MemoryKept s t) := by
  have hx := startAll_faults (r := r) hs hreach
  rw [← htodo] at hx
  exact ⟨_, exec_matrixPass_of_fault hpass hfrozen hserves hst hx, sit_matrixStop s c _⟩

end

/-! ## What a firing adds (R38-R40, R104) -/

theorem sat36_fst (v : Int) : (sat36 v).1 = max (-(2 ^ 35)) (min (2 ^ 35 - 1) v) := by
  unfold sat36
  split
  · norm_num at *
    omega
  · split <;> norm_num at * <;> omega

theorem sat36_snd (v : Int) : (sat36 v).2 = true ↔ v < -(2 ^ 35) ∨ 2 ^ 35 - 1 < v := by
  unfold sat36
  split
  · norm_num at *
    omega
  · split <;> norm_num at * <;> omega

/-- Reading a table after the first n cells of a row have been set. -/
theorem get_foldl_set {α : Type} [DecidableEq α] (d : α) (v : Nat → α) (base : Nat) (t : Tbl α) (n k : Nat) :
    Tbl.get d ((List.range n).foldl (fun t j => Tbl.set d t (base + j) (v j)) t) k
      = if base ≤ k ∧ k < base + n then v (k - base) else Tbl.get d t k := by
  induction n with
  | zero => rw [if_neg (by omega)]; rfl
  | succ n ih =>
    rw [List.range_succ, List.foldl_append, List.foldl_cons, List.foldl_nil, Tbl.get_set, ih]
    by_cases hk : k = base + n
    · rw [if_pos hk, if_pos (by omega), hk, Nat.add_sub_cancel_left]
    · rw [if_neg hk]
      exact if_congr (by omega) rfl rfl

/-- The windowed sum and tag that column j of a step adds to a row. -/
def stepSum (win : Int) (av : List Fl) (col : Nat → List Fl) (j : Nat) : Int × Tag := dot win av (col j)

section
variable (m : Mx) (i : Nat) (win : Int) (av : List Fl) (col : Nat → List Fl) (bad : Bool)

/-- The unit once row i has taken a step. -/
def Mx.fired : Mx := m.fire i win av ((List.range 64).map col) bad

theorem Mx.fired_eq : m.fired i win av col bad = { m with
    inner := (List.range 64).foldl (fun t j => Tbl.set 0 t (64 * i + j)
      (sat36 (m.innerAt i j + (stepSum win av col j).1)).1) m.inner
    tag := (List.range 64).foldl (fun t j => Tbl.set .finite t (64 * i + j)
      ((m.tagAt i j).combine (stepSum win av col j).2)) m.tag
    sat := m.sat || (List.range 64).any (fun j => (sat36 (m.innerAt i j + (stepSum win av col j).1)).2)
    pin := Tbl.set false m.pin i (m.pinAt i || bad)
    dirty := true } := by
  unfold Mx.fired Mx.fire
  simp only [List.map_map, enum_map_range, List.foldl_map, List.any_map, Function.comp_def]
  rfl

theorem Mx.innerAt_fired (k : Nat) {j : Nat} (hj : j < 64) : (m.fired i win av col bad).innerAt k j
    = if k = i then (sat36 (m.innerAt i j + (stepSum win av col j).1)).1 else m.innerAt k j := by
  rw [Mx.fired_eq]
  refine (get_foldl_set 0 _ _ _ _ _).trans ?_
  by_cases hk : k = i
  · rw [if_pos hk, if_pos (by omega), hk, Nat.add_sub_cancel_left]
  · rw [if_neg hk, if_neg (by omega)]
    rfl

theorem Mx.tagAt_fired (k : Nat) {j : Nat} (hj : j < 64) : (m.fired i win av col bad).tagAt k j
    = if k = i then (m.tagAt i j).combine (stepSum win av col j).2 else m.tagAt k j := by
  rw [Mx.fired_eq]
  refine (get_foldl_set Tag.finite _ _ _ _ _).trans ?_
  by_cases hk : k = i
  · rw [if_pos hk, if_pos (by omega), hk, Nat.add_sub_cancel_left]
  · rw [if_neg hk, if_neg (by omega)]
    rfl

theorem Mx.pinAt_fired (k : Nat) : (m.fired i win av col bad).pinAt k = (m.pinAt k || (k == i && bad)) := by
  rw [Mx.fired_eq]
  refine (Tbl.get_set false _ _ _ _).trans ?_
  by_cases hk : k = i
  · simp [hk]
  · simp [hk, Mx.pinAt]

theorem Mx.sat_fired : (m.fired i win av col bad).sat = true ↔ m.sat = true ∨ ∃ j < 64,
    m.innerAt i j + (stepSum win av col j).1 < -(2 ^ 35) ∨ 2 ^ 35 - 1 < m.innerAt i j + (stepSum win av col j).1 := by
  rw [Mx.fired_eq]
  simp only [Bool.or_eq_true, List.any_eq_true, List.mem_range, sat36_snd]

end

/-! ## `ROW_FIRING` (R104) -/

/-- Column j of the step that a firing takes. -/
def stepColumn (s : State) (c : Nat) (f : Firing) (j : Nat) : List Fl :=
  (s.planeCodes c (f.bline + 2 * mPlanes f.fb * f.s) (mPlanes f.fb) j).map (mValue f.fb)

/-- Whether a firing reads poison. -/
def stepBad (s : State) (c : Nat) (f : Firing) : Bool :=
  f.bad || (List.range (2 * mPlanes f.fb)).any (fun x => s.isBad (lineKey c (f.bline + 2 * mPlanes f.fb * f.s + x)))

/-- The unit once a firing has taken effect. -/
def firedUnit (s : State) (c : Nat) (f : Firing) : Mx :=
  (s.core c).mx.fired f.i f.win.toInt (f.data.map (fun b => mValue f.fa b.toNat)) (stepColumn s c f) (stepBad s c f)

theorem exec_rowFiring_of {s : State} {c : Nat} {f : Firing} {r : List Firing} (h : (s.core c).mx.pass = f :: r) :
    exec (.rowFiring c) s = .next (s.setCore c { s.core c with mx := { firedUnit s c f with pass := r } }) := by
  have hbad : stepBad s c f
      = (f.bad || (blockLines c (f.bline + 2 * mPlanes f.fb * f.s) (mPlanes f.fb)).any s.isBad) := by
    unfold stepBad blockLines
    rw [List.any_map]
    rfl
  rw [exec_rowFiring, execRowFiring, h]
  dsimp only
  rw [← hbad]
  rfl

theorem firedUnit_frame (s : State) (c : Nat) (f : Firing) (r : List Firing) :
    { firedUnit s c f with pass := r } = { (s.core c).mx with
      pass := r, inner := (firedUnit s c f).inner, tag := (firedUnit s c f).tag, pin := (firedUnit s c f).pin
      sat := (firedUnit s c f).sat, dirty := true } := rfl

/-- What a firing leaves of the unit: its row's cells with their sums, every other row as it was (R39, R40, R104). -/
theorem firedUnit_cells (s : State) (c : Nat) (f : Firing) :
    (∀ j < 64, ∀ v g, dot f.win.toInt (f.data.map (fun b => mValue f.fa b.toNat)) (stepColumn s c f j) = (v, g) →
        (firedUnit s c f).innerAt f.i j = max (-(2 ^ 35)) (min (2 ^ 35 - 1) ((s.core c).mx.innerAt f.i j + v))
        ∧ (firedUnit s c f).tagAt f.i j = ((s.core c).mx.tagAt f.i j).combine g)
    ∧ (∀ i < 64, i ≠ f.i → ∀ j < 64, (firedUnit s c f).innerAt i j = (s.core c).mx.innerAt i j
        ∧ (firedUnit s c f).tagAt i j = (s.core c).mx.tagAt i j)
    ∧ (∀ i, (firedUnit s c f).pinAt i = ((s.core c).mx.pinAt i || (i == f.i && stepBad s c f)))
    ∧ ((firedUnit s c f).sat = true ↔ (s.core c).mx.sat = true ∨ ∃ j < 64,
        (s.core c).mx.innerAt f.i j + (dot f.win.toInt (f.data.map (fun b => mValue f.fa b.toNat))
          (stepColumn s c f j)).1 < -(2 ^ 35)
        ∨ 2 ^ 35 - 1 < (s.core c).mx.innerAt f.i j + (dot f.win.toInt (f.data.map (fun b => mValue f.fa b.toNat))
          (stepColumn s c f j)).1) := by
  unfold firedUnit
  refine ⟨fun j hj v g hd => ?_, fun i _ hi j hj => ?_, Mx.pinAt_fired _ _ _ _ _ _, Mx.sat_fired _ _ _ _ _ _⟩
  · rw [Mx.innerAt_fired _ _ _ _ _ _ _ hj, Mx.tagAt_fired _ _ _ _ _ _ _ hj, if_pos rfl, if_pos rfl, sat36_fst, stepSum, hd]
    exact ⟨rfl, rfl⟩
  · rw [Mx.innerAt_fired _ _ _ _ _ _ _ hj, Mx.tagAt_fired _ _ _ _ _ _ _ hj, if_neg hi, if_neg hi]
    exact ⟨rfl, rfl⟩

/-- Settles O33: a pass by what starting its firings comes to, a firing by the cells that it sets. -/
theorem matrixPassesAndRowFirings : Obligations.MatrixPassesAndRowFirings := by
  unfold Obligations.MatrixPassesAndRowFirings
  refine ⟨fun s c st hpass hfrozen hserves hst => ⟨matrixPass_takes hpass hfrozen hserves hst,
    fun f r htodo hs hout => matrixPass_faults hpass hfrozen hserves hst htodo hs ?_⟩,
    fun s c f r hpass => ⟨_, exec_rowFiring_of hpass, ?_⟩⟩
  · rintro ⟨hb, ha⟩
    rcases hout with hout | ⟨h1, h2, h3⟩
    · omega
    · simp only [h1, h2, Bool.false_eq_true, false_or] at ha
      omega
  · dsimp only
    rw [State.core_setCore, if_pos rfl]
    have hframe := firedUnit_frame s c f r
    obtain ⟨hrow, hothers, hpin, hsat⟩ := firedUnit_cells s c f
    generalize firedUnit s c f = u at *
    exact ⟨hframe, hrow, hothers, hpin, hsat, rfl, rfl⟩

end Sys2Proof.Machine
end


section
/-!
O42: every meaning answers a next state, and so does every step and every run.
-/

namespace Sys2Proof.Machine

/-- The outcome is a next state: it is no host-level fault and no refusal. -/
def Answers (r : Result) : Prop := ∃ t, r = .next t

theorem answers_next (t : State) : Answers (.next t) := ⟨t, rfl⟩

/-! ## The operations that many words share -/

theorem control_answers (g : Guard) (uses : List Dest) (s : State) (f : State → State) :
    Answers (control g uses s f) := by
  rcases control_cases g uses s f with h | h | h | h | h <;> exact ⟨_, h⟩

theorem alu_answers (g : Guard) (d a b : Reg) (s : State) (op : Word → Word → Word) : Answers (alu g d a b s op) :=
  control_answers _ _ _ _

theorem alu1_answers (g : Guard) (d a : Reg) (s : State) (op : Word → Word) : Answers (alu1 g d a s op) :=
  control_answers _ _ _ _

theorem fieldReg_answers (g : Guard) (d a b : Reg) (s : State) (op : Word → Word → Nat → Nat → Word) :
    Answers (fieldReg g d a b s op) :=
  control_answers _ _ _ _

theorem fset_answers (g : Guard) (a : Reg) (full : Bool) (s : State) : Answers (fset g a full s) :=
  control_answers _ _ _ _

theorem nameStatus_answers (g : Guard) (d a : Reg) (n : Nat) (op : List Byte → NameOp) (s : State) :
    Answers (nameStatus g d a n op s) :=
  control_answers _ _ _ _

theorem controlEnd_answers (g : Guard) (uses : List Dest) (s : State) (f : State → State) :
    Answers (controlEnd g uses s f) := by
  rcases controlEnd_cases g uses s f with h | h | h | h | h <;> exact ⟨_, h⟩

theorem onStream_answers (gp : Word) (s : State) (f : State → Sres) : Answers (onStream gp s f) := by
  unfold onStream
  split
  · exact answers_next _
  · cases f s <;> exact answers_next _

theorem streamWord_answers (g : Guard) (d : Pred) (b : Reg) (uses : List Dest) (held : State → Bool) (s : State)
    (f : State → Sres) : Answers (streamWord g d b uses held s f) := by
  unfold streamWord
  split
  · exact onStream_answers _ _ _
  · exact control_answers _ _ _ _

theorem matrixWord_answers (drain : Bool) (s : State) (f : State → Mres) : Answers (matrixWord drain s f) := by
  unfold matrixWord
  dsimp only
  repeat' split
  all_goals exact answers_next _

theorem productWord_answers (s : State) (sig : List Nat) (f : State → Mres) : Answers (productWord s sig f) := by
  unfold productWord
  dsimp only
  split
  · exact answers_next _
  · exact matrixWord_answers _ _ _

theorem shoot_answers (w : LaneArgs) (f : Core → Nat → Lane → Shot) (s : State) : Answers (shoot w f s) := by
  unfold shoot
  dsimp only
  repeat' split
  all_goals exact answers_next _

theorem elementOp_answers (w : LaneArgs) (useB useC : Bool) (op : Nat → Nat → Nat → Nat × Flags) (s : State) :
    Answers (elementOp w useB useC op s) :=
  shoot_answers _ _ _

theorem intOp_answers (w : LaneArgs) (useC : Bool) (op : Nat → Nat → Nat → Nat → Nat) (s : State) :
    Answers (intOp w useC op s) :=
  elementOp_answers _ _ _ _ _

theorem floatOp_answers (w : LaneArgs) (useC : Bool) (op : Fl → Fl → Fl → Fl × Flags) (s : State) :
    Answers (floatOp w useC op s) :=
  elementOp_answers _ _ _ _ _

theorem memoryNode_answers (op : LaneOp) (w : LaneArgs) (s : State) : Answers (memoryNode op w s) := by
  unfold memoryNode
  dsimp only
  split
  · exact answers_next _
  · split
    · split
      · exact answers_next _
      · exact shoot_answers _ _ _
    · repeat' split
      all_goals exact answers_next _

theorem dispatch_answers (s : State) (kind gr n : Nat) (f : Graph → Job → Node → State → State) :
    Answers (s.dispatch kind gr n f) := by
  unfold State.dispatch
  dsimp only
  repeat' split
  all_goals exact answers_next _

/-! ## The words with branches of their own -/

theorem safe_answers (g : Guard) (live : BitVec 17) (s : State) : Answers (execSafe g live s) := by
  unfold execSafe
  dsimp only
  repeat' split
  all_goals exact answers_next _

theorem sstop_answers (g : Guard) (d b : Reg) (keep : Bool) (s : State) : Answers (execSstop g d b keep s) := by
  unfold execSstop
  split
  · exact onStream_answers _ _ _
  · exact control_answers _ _ _ _

theorem nop_answers (g : Guard) (s : State) : Answers (execNop g s) := by
  unfold execNop
  split
  · split <;> exact answers_next _
  · exact control_answers _ _ _ _

theorem endJoin_answers (s : State) : Answers (execEndJoin s) := by
  unfold execEndJoin
  dsimp only
  split <;> exact answers_next _

theorem illegalInstruction_answers (w : BitVec 32) (s : State) : Answers (execIllegalInstruction w s) := by
  unfold execIllegalInstruction
  dsimp only
  repeat' split
  all_goals exact answers_next _

theorem mgmul_answers (ks : BitVec 7) (list : BitVec 12) (n : BitVec 6) (s : State) :
    Answers (execMgmul ks list n s) := by
  unfold execMgmul
  dsimp only
  split
  · exact productWord_answers _ _ _
  · exact matrixWord_answers _ _ _

/-!
## Every instruction and every event

The arms are grouped by what answers for them: a shared operation, one branch, or the branches that the meaning itself
has, each of which is a next state.
-/

theorem exec_answers (i : Instr) (s : State) : Answers (exec i s) := by
  cases i with
  -- The words of the control sequencer.
  | add | sub | mul | mulh | mulhn | div | divn | rem | remn | and | or | xor | shl | shr | sra | rot | min | max
  | minn | maxn =>
    dsimp -zeta only [exec, execAdd, execSub, execMul, execMulh, execMulhn, execDiv, execDivn, execRem, execRemn,
      execAnd, execOr, execXor, execShl, execShr, execSra, execRot, execMin, execMax, execMinn, execMaxn]
    exact alu_answers _ _ _ _ _ _
  | clz | ctz | popc | addi | andi | ori | xori | shi | bextZ | bextS =>
    dsimp -zeta only [exec, execClz, execCtz, execPopc, execAddi, execAndi, execOri, execXori, execShi, execBextZ,
      execBextS]
    exact alu1_answers _ _ _ _ _
  | bextZReg | binsReg | bextSReg =>
    dsimp -zeta only [exec, execBextZReg, execBinsReg, execBextSReg]
    exact fieldReg_answers _ _ _ _ _ _
  | sel | bins | li | lui | cmp | cmpi | pand | por | pnot | ldZ | ldS | st | ftest | ldg | stg | tlook | tset
  | tclr | amo | amocas | b | call | ret | jt | lpad | recv | send | spawn | waitc | forkMatrix | forkStream | fence
  | bar | bartest | subs | unsubs | sflush | nlook | qpost | cnct | cncl | mfs | mts | trap | brk | eret =>
    dsimp -zeta only [exec, execSel, execBins, execLi, execLui, execCmp, execCmpi, execPand, execPor, execPnot,
      execLdZ, execLdS, execSt, execFtest, execLdg, execStg, execTlook, execTset, execTclr, execAmo, execAmocas,
      execB, execCall, execRet, execJt, execLpad, execRecv, execSend, execSpawn, execWaitc, execForkMatrix,
      execForkStream, execFence, execBar, execBartest, execSubs, execUnsubs, execSflush, execNlook, execQpost,
      execCnct, execCncl, execMfs, execMts, execTrap, execBrk, execEret]
    exact control_answers _ _ _ _
  | fsetFull | fsetEmpty =>
    dsimp -zeta only [exec, execFsetFull, execFsetEmpty]
    exact fset_answers _ _ _ _
  | nins | nevict =>
    dsimp -zeta only [exec, execNins, execNevict]
    exact nameStatus_answers _ _ _ _ _ _
  | endTask | yield | rdv =>
    dsimp -zeta only [exec, execEndTask, execYield, execRdv]
    exact controlEnd_answers _ _ _ _
  | sbind | scopy | sim2c | sgath =>
    dsimp -zeta only [exec, execSbind, execScopy, execSim2c, execSgath]
    exact streamWord_answers _ _ _ _ _ _ _
  | safe => exact safe_answers _ _ _
  | sstop => exact sstop_answers _ _ _ _ _
  | nop => exact nop_answers _ _
  | endJoin => exact endJoin_answers _
  | illegalInstruction => exact illegalInstruction_answers _ _
  -- The words of the matrix unit.
  | mza | mzo | mwin | mfmt | mldaScratchpad | mldaPort | mldb | mscale | mscaleUnit | mrd | mst | mxpose | mtopk
  | mtpld | mbal | mtpstPlan | mtpstPotentials | mtpstRelease | mtdist | mjoin | mcoopOn | mcoopOff =>
    dsimp -zeta only [exec, execMza, execMzo, execMwin, execMfmt, execMldaScratchpad, execMldaPort, execMldb,
      execMscale, execMscaleUnit, execMrd, execMst, execMxpose, execMtopk, execMtpld, execMbal, execMtpstPlan,
      execMtpstPotentials, execMtpstRelease, execMtdist, execMjoin, execMcoopOn, execMcoopOff]
    exact matrixWord_answers _ _ _
  | mmul => exact productWord_answers _ _ _
  | mgmul => exact mgmul_answers _ _ _ _
  -- The words of the lanes.
  | efcmp | esel =>
    dsimp -zeta only [exec, execEfcmp, execEsel]
    exact elementOp_answers _ _ _ _ _
  | eiadd | eisub | eimul | eimac | eimin | eimax | eiand | eior | eixor | eishl | eishr | eisra | eicmp =>
    dsimp -zeta only [exec, execEiadd, execEisub, execEimul, execEimac, execEimin, execEimax, execEiand, execEior,
      execEixor, execEishl, execEishr, execEisra, execEicmp]
    exact intOp_answers _ _ _ _
  | efadd | efsub | efmul | effma | efmin | efmax =>
    dsimp -zeta only [exec, execEfadd, execEfsub, execEfmul, execEffma, execEfmin, execEfmax]
    exact floatOp_answers _ _ _ _
  | ecvt | eexp2 | elog2 | ercp | else2 | esteer | emerge | eexit | erep | emark | estrip | ecount | ered | econst
  | epass | edrop | ebq | ebdq =>
    dsimp -zeta only [exec, execEcvt, execEexp2, execElog2, execErcp, execElse2, execEsteer, execEmerge, execEexit,
      execErep, execEmark, execEstrip, execEcount, execEred, execEconst, execEpass, execEdrop, execEbq, execEbdq]
    exact shoot_answers _ _ _
  | eld | est | ermw =>
    dsimp -zeta only [exec, execEld, execEst, execErmw]
    exact memoryNode_answers _ _ _
  -- The events that issue a node of a graph.
  | launchNodeDispatch | copyNodeDispatch | condNodeDispatch | loopNodeDispatch | barNodeDispatch | doneNodeDispatch =>
    dsimp -zeta only [exec, execLaunchNodeDispatch, execCopyNodeDispatch, execCondNodeDispatch, execLoopNodeDispatch,
      execBarNodeDispatch, execDoneNodeDispatch]
    exact dispatch_answers _ _ _ _ _
  -- The events without a branch.
  | homeRecall | translationInvalidate | memoryNodeReply | snapshotRequest | coalesceWindowClose | unsubsArrival
  | queueNotify | recordCheckpoint | modeRegisterWrite | supervisorRegisterWrite | preemptRequest
  | requestPreemption | setPartitionMode | uncorrectableError | correctedSingleBitError | deviceReset
  | imageLengthWrite | bar2HostAccess | getMeasurements | challenge | getCertificate | readTemperatures
  | readErrorCounters =>
    dsimp -zeta only [exec, execHomeRecall, execTranslationInvalidate, execMemoryNodeReply, execSnapshotRequest,
      execCoalesceWindowClose, execUnsubsArrival, execQueueNotify, execRecordCheckpoint, execModeRegisterWrite,
      execSupervisorRegisterWrite, execPreemptRequest, execRequestPreemption, execSetPartitionMode,
      execUncorrectableError, execCorrectedSingleBitError, execDeviceReset, execImageLengthWrite,
      execBar2HostAccess, execGetMeasurements, execChallenge, execGetCertificate, execReadTemperatures,
      execReadErrorCounters]
    exact answers_next _
  -- The matrix unit.
  | matrixPass | rowFiring | mrdOutputDrain | matrixWordComplete =>
    dsimp only [exec, execMatrixPass, execRowFiring, execMrdOutputDrain, execMatrixWordComplete]
    repeat' split
    all_goals exact answers_next _
  -- Tasks and chains.
  | taskDispatch | instanceAged | continuationWake | preemptForcedStop | taskCommit | registerReplyArrival
  | unitCompletion | cancelArrival =>
    dsimp only [exec, execTaskDispatch, execInstanceAged, execContinuationWake, execPreemptForcedStop,
      execTaskCommit, execRegisterReplyArrival, execUnitCompletion, execCancelArrival]
    repeat' split
    all_goals exact answers_next _
  -- Copies, atomics and translation.
  | ldgLineArrival | stgWriteComplete | detentAtomic | atomicDepositArrival | scratchpadAtomicStep | pageWalk
  | supervisorRetry =>
    dsimp only [exec, execLdgLineArrival, execStgWriteComplete, execDetentAtomic, execAtomicDepositArrival,
      execScratchpadAtomicStep, execPageWalk, execSupervisorRetry]
    repeat' split
    all_goals exact answers_next _
  -- Stream commands.
  | streamCommandStart | streamSourceToken | streamSinkToken | streamCommandComplete | sinkCompletionSweep =>
    dsimp only [exec, execStreamCommandStart, execStreamSourceToken, execStreamSinkToken,
      execStreamCommandComplete, execSinkCompletionSweep]
    repeat' split
    all_goals exact answers_next _
  -- Subscriptions, the rings and the links.
  | snapshotApply | subscriptionUpdateApply | backlogWrite | removalMarkPass | ringPacketEntry | reductionMerge
  | circuitTokenTransfer | rowTagArrival =>
    dsimp only [exec, execSnapshotApply, execSubscriptionUpdateApply, execBacklogWrite, execRemovalMarkPass,
      execRingPacketEntry, execReductionMerge, execCircuitTokenTransfer, execRowTagArrival]
    repeat' split
    all_goals exact answers_next _
  -- Names.
  | nodeNaming | nameLookup | controlNameResolve | shapeWordArrival | demandRequest | anchorServe | retention
  | nlookDeposit | nameEngineStatus | holdRelease =>
    dsimp only [exec, execNodeNaming, execNameLookup, execControlNameResolve, execShapeWordArrival,
      execDemandRequest, execAnchorServe, execRetention, execNlookDeposit, execNameEngineStatus, execHoldRelease]
    repeat' split
    all_goals exact answers_next _
  -- Queues, jobs and graphs.
  | commandRead | commandRetryTimeout | runJob | cancelJob | strideDispatch | copyNodeComplete | loopIterationEnd
  | nodeFinish | launchCompletion | phaseBoundary | replicaCopyComplete | jobCompletion | tokenRefill =>
    dsimp only [exec, execCommandRead, execCommandRetryTimeout, execRunJob, execCancelJob, execStrideDispatch,
      execCopyNodeComplete, execLoopIterationEnd, execNodeFinish, execLaunchCompletion, execPhaseBoundary,
      execReplicaCopyComplete, execJobCompletion, execTokenRefill]
    repeat' split
    all_goals exact answers_next _
  -- The host's registers and preemption.
  | queueDescriptorWrite | faultQueueDescriptorWrite | faultRecordWrite | nameDomainSet | quiescence | clusterSave
  | resume | requestResume | debugHaltRequest | objectLoad | objectUnload =>
    dsimp only [exec, execQueueDescriptorWrite, execFaultQueueDescriptorWrite, execFaultRecordWrite,
      execNameDomainSet, execQuiescence, execClusterSave, execResume, execRequestResume, execDebugHaltRequest,
      execObjectLoad, execObjectUnload]
    repeat' split
    all_goals exact answers_next _
  -- Errors, links, clocks and power.
  | scrub | hbmUncorrectableError | linkRetransmit | keyUpdate | keyExchange | chronographLatch | setPowerLimit
  | setDvfsFloorCeiling | setChronographT | dvfsMonitorWindow | powerLimitStep =>
    dsimp only [exec, execScrub, execHbmUncorrectableError, execLinkRetransmit, execKeyUpdate, execKeyExchange,
      execChronographLatch, execSetPowerLimit, execSetDvfsFloorCeiling, execSetChronographT,
      execDvfsMonitorWindow, execPowerLimitStep]
    repeat' split
    all_goals exact answers_next _

theorem step_answers (s : State) : Answers (step s) := by
  unfold step
  split
  · exact exec_answers _ _
  · exact answers_next _

theorem run_succ_of_step {s t : State} (k : Nat) (h : step s = .next t) :
    Host.Core.run Sys2Proof.core (k + 1) s = Host.Core.run Sys2Proof.core k t := by
  simp only [Host.Core.run]
  rw [show Sys2Proof.core.step s = .next t from h]

theorem run_answers (k : Nat) (s : State) : Answers (Host.Core.run Sys2Proof.core k s) := by
  induction k generalizing s with
  | zero => exact answers_next s
  | succ k ih =>
    obtain ⟨t, h⟩ := step_answers s
    rw [run_succ_of_step k h]
    exact ih t

/-- Settles O42: every meaning answers a next state on each of its branches, so a run answers one, by induction on
its number of steps. -/
theorem everyStepAnswers : Obligations.EveryStepAnswers := by
  unfold Obligations.EveryStepAnswers
  exact ⟨exec_answers, fun s k => run_answers k s⟩

end Sys2Proof.Machine
end


section
/-!
The operations on the state that leave memory as it is, one lemma each. Memory is written by stores to a scratchpad
or to a line, by the write-back of a home, by accesses to physical addresses, by the host and by lost bytes only.
-/

namespace Sys2Proof.Machine

section
variable (s : State)

@[simp] theorem State.foldl_mem {β : Type} {f : State → β → State} {l : List β} {s : State}
    (h : ∀ s x, (f s x).mem = s.mem) : (l.foldl f s).mem = s.mem := by
  induction l generalizing s with
  | nil => rfl
  | cons x r ih => rw [List.foldl_cons, ih, h]

@[simp] theorem State.modCore_mem (c : Nat) (f : Core → Core) : (s.modCore c f).mem = s.mem := rfl

@[simp] theorem State.modHere_mem (f : Core → Core) : (s.modHere f).mem = s.mem := rfl

@[simp] theorem State.modCtl_mem (c : Nat) (f : Ctl → Ctl) : (s.modCtl c f).mem = s.mem := rfl

@[simp] theorem State.modLaunch_mem (n : Nat) (f : Launch → Launch) : (s.modLaunch n f).mem = s.mem := by
  unfold State.modLaunch
  split <;> rfl

@[simp] theorem State.modGraph_mem (n : Nat) (f : Graph → Graph) : (s.modGraph n f).mem = s.mem := by
  unfold State.modGraph
  split <;> rfl

@[simp] theorem State.modJob_mem (n : Nat) (f : Job → Job) : (s.modJob n f).mem = s.mem := by
  unfold State.modJob
  split <;> rfl

@[simp] theorem State.modChain_mem (c n : Nat) (f : Chain → Chain) : (s.modChain c n f).mem = s.mem := rfl

@[simp] theorem State.modPort_mem (c p : Nat) (f : Port → Port) : (s.modPort c p f).mem = s.mem := rfl

@[simp] theorem State.modVc_mem (c n : Nat) (f : Vc → Vc) : (s.modVc c n f).mem = s.mem := rfl

@[simp] theorem State.modMx_mem (c : Nat) (f : Mx → Mx) : (s.modMx c f).mem = s.mem := rfl

@[simp] theorem State.modSlot_mem (c n : Nat) (f : Slot → Slot) : (s.modSlot c n f).mem = s.mem := by
  unfold State.modSlot
  split <;> rfl

@[simp] theorem State.modLane_mem (c n : Nat) (f : Lane → Lane) : (s.modLane c n f).mem = s.mem := rfl

@[simp] theorem State.setReg_mem (r : Reg) (v : Word) : (s.setReg r v).mem = s.mem := rfl

@[simp] theorem State.setPred_mem (p : Pred) (v : Bool) : (s.setPred p v).mem = s.mem := rfl

@[simp] theorem State.stepPc_mem : s.stepPc.mem = s.mem := rfl

@[simp] theorem State.jump_mem (t : Nat) : (s.jump t).mem = s.mem := rfl

@[simp] theorem State.setFull_mem (l : Nat) : (s.setFull l).mem = s.mem := rfl

@[simp] theorem State.consumed_mem (l : Nat) : (s.consumed l).mem = s.mem := by
  unfold State.consumed
  dsimp only
  split <;> simp

@[simp] theorem State.takeTokens_mem (c n : Nat) : (s.takeTokens c n).1.mem = s.mem := by
  unfold State.takeTokens
  dsimp only
  split <;> simp

@[simp] theorem State.trigger_mem (cause : Nat) : (s.trigger cause).mem = s.mem := by
  unfold State.trigger
  split <;> rfl

@[simp] theorem State.report_mem (p src cause flags at_ : Nat) (ev : Word) (task : W32) (launch : Nat) :
    (s.report p src cause flags at_ ev task launch).mem = s.mem := by
  unfold State.report
  split <;> simp

@[simp] theorem State.reportFw_mem (src cause flags at_ : Nat) (ev : Word) :
    (s.reportFw src cause flags at_ ev).mem = s.mem := by
  unfold State.reportFw
  split <;> simp

@[simp] theorem State.reportCore_mem (c o cause : Nat) (stall : Bool) (at_ : Nat) (ev : Word) :
    (s.reportCore c o cause stall at_ ev).mem = s.mem := by
  unfold State.reportCore
  dsimp only
  split <;> simp

@[simp] theorem State.stall_mem (c o at_ : Nat) (cause : Nat) (ev : Word) (w : Waiter) :
    (s.stall c o at_ cause ev w).mem = s.mem := by
  simp [State.stall]

@[simp] theorem State.stallLane_mem (c l seq cause : Nat) (ev : Word) : (s.stallLane c l seq cause ev).mem = s.mem := by
  simp [State.stallLane]

@[simp] theorem State.laneStop_mem (c n : Nat) : (s.laneStop c n).mem = s.mem := by
  simp [State.laneStop]

@[simp] theorem State.faultUnit_mem (c chain : Nat) : (s.faultUnit c chain).mem = s.mem := by
  unfold State.faultUnit
  dsimp only
  split <;> simp

@[simp] theorem State.release_mem (c : Nat) (o : Out) : (s.release c o).mem = s.mem := by
  unfold State.release
  split <;> rfl

@[simp] theorem State.giveBack_mem (c : Nat) (l : List (Nat × VcToken)) : (s.giveBack c l).mem = s.mem := by
  unfold State.giveBack
  exact State.foldl_mem (fun s x => by simp)

@[simp] theorem State.discard_mem (c : Nat) (w : Work) (back : Bool) : (s.discard c w back).mem = s.mem := by
  unfold State.discard
  split <;> simp

@[simp] theorem State.trap_mem (cause : Nat) (ev : Word) : (s.trap cause ev).mem = s.mem := by
  unfold State.trap
  dsimp only
  repeat' split
  all_goals simp

@[simp] theorem State.killTask_mem (c : Nat) : (s.killTask c).mem = s.mem := by
  unfold State.killTask
  dsimp only
  split <;> simp

@[simp] theorem State.unwind_mem (c : Nat) (st : SlotState) : (s.unwind c st).mem = s.mem := by
  unfold State.unwind
  dsimp only
  split <;> simp

@[simp] theorem State.rewind_mem (line : Nat) : (s.rewind line).mem = s.mem := by
  simp [State.rewind]

@[simp] theorem State.debugHalt_mem (c : Nat) : (s.debugHalt c).mem = s.mem := rfl

@[simp] theorem State.eret_mem (c : Nat) : (s.eret c).mem = s.mem := by
  unfold State.eret
  split <;> rfl

@[simp] theorem State.owe_mem (c : Nat) (d : Dest) (val : Option Word) (unb : Bool) :
    (s.owe c d val unb).mem = s.mem := rfl

@[simp] theorem State.answer_mem (c id : Nat) (v : Word) : (s.answer c id v).mem = s.mem := rfl

@[simp] theorem State.settleBy_mem (p : Nat → Bool) (f : Nat → Nat) : (s.settleBy p f).mem = s.mem := rfl

@[simp] theorem State.settle_mem (id n : Nat) : (s.settle id n).mem = s.mem := rfl

@[simp] theorem State.dropSubs_mem (p : Sub → Bool) : (s.dropSubs p).mem = s.mem := rfl

@[simp] theorem State.result_mem (d : Reg) (v : Word) : (s.result d v).mem = s.mem := rfl

@[simp] theorem State.resultQ_mem (d : Pred) (v : Bool) : (s.resultQ d v).mem = s.mem := rfl

@[simp] theorem State.abortSlot_mem (c n : Nat) : (s.abortSlot c n).mem = s.mem := by
  unfold State.abortSlot
  dsimp only
  repeat' split
  all_goals simp

@[simp] theorem State.abortReaders_mem (ln line : Nat) (key : Nat × Nat × Nat) :
    (s.abortReaders ln line key).mem = s.mem := by
  simp [State.abortReaders]

@[simp] theorem State.loaded_mem (d : Reg) (v : Word) (t : Nat) : (s.loaded d v t).mem = s.mem := by
  unfold State.loaded
  split <;> rfl

@[simp] theorem State.buffer_mem (t off : Nat) (bytes : List Byte) : (s.buffer t off bytes).mem = s.mem := rfl

@[simp] theorem State.stallSlice_mem (c : Nat) (va : Word) (w : Waiter) : (s.stallSlice c va w).mem = s.mem := by
  simp [State.stallSlice]

@[simp] theorem State.modLdg_mem (c id : Nat) (f : Ldg → Ldg) : (s.modLdg c id f).mem = s.mem := rfl

@[simp] theorem State.toDetent_mem (a : Atomic) : (s.toDetent a).mem = s.mem := rfl

@[simp] theorem State.detentFault_mem (cl : Nat) (a : Atomic) : (s.detentFault cl a).mem = s.mem := by
  unfold State.detentFault
  split <;> simp

@[simp] theorem State.unstall_mem (w : Waiter) : (s.unstall w).mem = s.mem := by
  unfold State.unstall
  split <;> rfl

@[simp] theorem State.deliver_mem (p : Packet) : (s.deliver p).mem = s.mem := State.setLine_mem _ _

@[simp] theorem State.checkControl_mem (l : Launch) (g : GGraph) (n p : Nat) :
    (s.checkControl l g n p).mem = s.mem := by
  unfold State.checkControl
  refine State.foldl_mem (fun s x => ?_)
  repeat' split
  all_goals simp

@[simp] theorem State.observe_mem (c out : Nat) (t : Token) : (s.observe c out t).mem = s.mem := by
  unfold State.observe
  split <;> simp

@[simp] theorem State.passOver_mem (c out : Nat) (t : Token) : (s.passOver c out t).mem = s.mem := by
  unfold State.passOver
  repeat' split
  all_goals simp

@[simp] theorem State.emit_mem (c out : Nat) (t : Token) : (s.emit c out t).mem = s.mem := by
  simp [State.emit]

@[simp] theorem State.emitLane_mem (c n : Nat) (e : Emit) : (s.emitLane c n e).mem = s.mem := by
  unfold State.emitLane
  dsimp only
  repeat' split
  all_goals simp

@[simp] theorem State.sinkPut_mem (c p : Nat) (t : Token) : (s.sinkPut c p t).mem = s.mem := by
  simp [State.sinkPut]

@[simp] theorem State.countRow_mem (c : Nat) (t : RowTag) : (s.countRow c t).mem = s.mem := rfl

@[simp] theorem State.countDup_mem (c : Nat) : (s.countDup c).mem = s.mem := rfl

@[simp] theorem State.vcPut_mem (c v : Nat) (t : Token) : (s.vcPut c v t).mem = s.mem := rfl

@[simp] theorem State.vcArrive_mem (c v : Nat) (t : Token) : (s.vcArrive c v t).1.mem = s.mem := by
  unfold State.vcArrive
  dsimp only
  repeat' split
  all_goals simp

@[simp] theorem State.modDom_mem (p : Nat) (f : Domain → Domain) : (s.modDom p f).mem = s.mem := rfl

@[simp] theorem State.modCounts_mem (p : Nat) (f : NameCounts → NameCounts) : (s.modCounts p f).mem = s.mem := rfl

@[simp] theorem State.uncache_mem (p : Nat) (n : BitVec 128) : (s.uncache p n).mem = s.mem := rfl

@[simp] theorem State.cache_mem (die p : Nat) (n : BitVec 128) : (s.cache die p n).mem = s.mem := by
  unfold State.cache
  dsimp only
  repeat' split
  all_goals simp

@[simp] theorem State.nameRequest_mem (r : NameReq) : (s.nameRequest r).mem = s.mem := rfl

@[simp] theorem State.dropRequest_mem (p idx : Nat) : (s.dropRequest p idx).mem = s.mem := rfl

@[simp] theorem State.promise_mem (o : Out) : (s.promise o).mem = s.mem := rfl

@[simp] theorem State.suspend_mem (c : Nat) (k : Ctl) : (s.suspend c k).mem = s.mem := by
  unfold State.suspend
  split <;> simp

@[simp] theorem State.setMode_mem (p : Nat) (dbg det : Bool) : (s.setMode p dbg det).mem = s.mem := rfl

theorem State.writeSpecial_mem {num : Nat} {v : Word} : ∀ u ∈ s.writeSpecial num v, u.mem = s.mem := by
  have branch : ∀ (p : Prop) [Decidable p] (a b : Option State), (∀ u ∈ a, u.mem = s.mem) → (∀ u ∈ b, u.mem = s.mem) →
      ∀ u ∈ (if p then a else b), u.mem = s.mem := by
    intro p _ a b ha hb
    split <;> assumption
  unfold State.writeSpecial
  repeat' refine branch _ _ _ ?_ ?_
  all_goals rintro u ⟨⟩
  all_goals simp

@[simp] theorem State.ssNext_mem : s.ssNext.mem = s.mem := rfl

@[simp] theorem State.matrixStop_mem (cause : Nat) (ev : Word) (fcode : BitVec 4) :
    (s.matrixStop cause ev fcode).mem = s.mem := by
  simp [State.matrixStop]

@[simp] theorem State.streamStop_mem (cause : Nat) (ev : Word) (port : Option Nat) :
    (s.streamStop cause ev port).mem = s.mem := by
  simp [State.streamStop]

@[simp] theorem State.startSlot_mem (c n : Nat) (x : Slot) : (s.startSlot c n x).mem = s.mem := by
  unfold State.startSlot
  dsimp only
  repeat' split
  all_goals simp

@[simp] theorem State.reinstall_mem (c n : Nat) (t : Ctl) : (s.reinstall c n t).mem = s.mem := rfl

@[simp] theorem State.modCommit_mem (c id : Nat) (f : Commit → Commit) : (s.modCommit c id f).mem = s.mem := rfl

@[simp] theorem State.commitBegins_mem (c : Nat) (m : Commit) : (s.commitBegins c m).mem = s.mem := by
  unfold State.commitBegins
  split <;> simp

@[simp] theorem State.finishCommit_mem (c : Nat) (m : Commit) : (s.finishCommit c m).mem = s.mem := by
  unfold State.finishCommit
  dsimp only
  repeat' split
  all_goals simp

@[simp] theorem State.deliverOut_mem (c launch : Nat) (o : Out) : (s.deliverOut c launch o).1.mem = s.mem := by
  unfold State.deliverOut
  cases o with
  | sendVc tgt v t =>
    have h := s.vcArrive_mem tgt v t
    dsimp only
    split <;> simp_all
  | sendSink p t =>
    dsimp only
    split <;> simp
  | spawn n e start stamp carry => rfl

@[simp] theorem State.dropCmd_mem (c : Nat) (m : Cmd) (rest : List Item) : (s.dropCmd c m rest).mem = s.mem := by
  unfold State.dropCmd
  split <;> simp

@[simp] theorem State.dropCmds_mem (c p : Nat) (pick : Cmd → Bool) : (s.dropCmds c p pick).mem = s.mem := by
  unfold State.dropCmds
  dsimp only
  repeat' split
  all_goals simp

@[simp] theorem State.stopPort_mem (p : Nat) (keep : Bool) : (s.stopPort p keep).1.mem = s.mem := by
  unfold State.stopPort
  split <;> simp

@[simp] theorem State.srcPut_mem (c p : Nat) (t : Token) : (s.srcPut c p t).mem = s.mem := by
  unfold State.srcPut
  repeat' split
  all_goals simp

theorem State.srcDeliver_mem {c p : Nat} {t : Token} {u : State} (e : s.srcDeliver c p t = some u) : u.mem = s.mem := by
  unfold State.srcDeliver at e
  dsimp only at e
  repeat' split at e
  all_goals cases e <;> simp

@[simp] theorem State.tagStop_mem (c p : Nat) (t : Token) : (s.tagStop c p t).mem = s.mem := by
  simp [State.tagStop]

@[simp] theorem State.srcAdvance_mem (c p : Nat) (t : Token) (r : Running) : (s.srcAdvance c p t r).mem = s.mem := by
  unfold State.srcAdvance
  dsimp only
  split
  · simp
  · rename_i u e
    exact (State.srcDeliver_mem _ e).trans rfl

@[simp] theorem State.setObj_mem (ln : Nat) (o : Obj) : (s.setObj ln o).mem = s.mem := by
  simp [State.setObj]

@[simp] theorem State.modBegin_mem (ln n port : Nat) (f : Circuit → Circuit) :
    (s.modBegin ln n port f).mem = s.mem := rfl

@[simp] theorem State.nameObj_mem (ln : Nat) (g : GGraph) (o : Obj) : (s.nameObj ln g o).mem = s.mem := by
  unfold State.nameObj
  rw [State.foldl_mem (by simp), State.setObj_mem]

@[simp] theorem State.request_mem (ln : Nat) (g : GGraph) (o : Obj) : (s.request ln g o).mem = s.mem := by
  unfold State.request
  dsimp only
  repeat' split
  all_goals simp

@[simp] theorem State.askFor_mem (ln : Nat) (g : GGraph) (rank seg : Nat) (iter : List Nat) (e : GEdge) :
    (s.askFor ln g rank seg iter e).mem = s.mem := by
  simp [State.askFor]

@[simp] theorem State.askCones_mem (ln : Nat) (g : GGraph) (n : Nat) (gn : GNode) (o : Obj) :
    (s.askCones ln g n gn o).mem = s.mem := by
  unfold State.askCones
  dsimp only
  repeat' split
  all_goals simp

@[simp] theorem State.stopBadControl_mem (l : Launch) (gn : GNode) : (s.stopBadControl l gn).mem = s.mem := by
  unfold State.stopBadControl
  repeat' split
  all_goals simp

@[simp] theorem State.outPut_mem (c out : Nat) (t : Token) : (s.outPut c out t).mem = s.mem := by
  unfold State.outPut
  split <;> simp

@[simp] theorem State.modCircuit_mem (i : Nat) (f : Circuit → Circuit) : (s.modCircuit i f).mem = s.mem := by
  unfold State.modCircuit
  split <;> rfl

@[simp] theorem State.flit_mem (l : Nat) : (s.flit l).mem = s.mem := rfl

@[simp] theorem State.crossed_mem (x : Circuit) (hop : Nat) : (s.crossed x hop).mem = s.mem := by
  unfold State.crossed
  split <;> rfl

@[simp] theorem State.circuitTake_mem (idx : Nat) (x : Circuit) : (s.circuitTake idx x).mem = s.mem := by
  unfold State.circuitTake
  dsimp only
  repeat' split
  all_goals simp

@[simp] theorem State.noteArrival_mem (x : Circuit) (t : Token) : (s.noteArrival x t).mem = s.mem := by
  unfold State.noteArrival
  split <;> simp

theorem State.waveArrive_mem {x : Circuit} {w : BitVec 131} {u : State} (e : s.waveArrive x w = some u) :
    u.mem = s.mem := by
  obtain ⟨y, -, e⟩ := Option.bind_eq_some_iff.1 e
  dsimp only at e
  split at e
  · cases e; simp
  · obtain ⟨p, -, rfl⟩ := Option.map_eq_some_iff.1 e
    simp

theorem State.requestArrive_mem {x : Circuit} {w : BitVec 131} {u : State} (e : s.requestArrive x w = some u) :
    u.mem = s.mem := by
  obtain ⟨y, -, rfl⟩ := Option.map_eq_some_iff.1 e
  exact State.foldl_mem (fun s e => State.foldl_mem (fun s o => s.request_mem _ _ _))

theorem State.requestHop_mem {idx i : Nat} {x : Circuit} {u : State} (e : s.requestHop idx i x = some u) :
    u.mem = s.mem := by
  unfold State.requestHop at e
  dsimp only at e
  split at e
  · repeat' split at e
    all_goals cases e <;> simp
  · obtain ⟨w, -, e⟩ := Option.bind_eq_some_iff.1 e
    split_ifs at e
    · cases e; simp
    · obtain ⟨v, hv, rfl⟩ := Option.map_eq_some_iff.1 e
      simp [State.requestArrive_mem s hv]

@[simp] theorem State.regReport_mem (p cause : Nat) (ev : Word) : (s.regReport p cause ev).mem = s.mem := by
  simp [State.regReport]

@[simp] theorem State.modNode_mem (gr n : Nat) (f : Node → Node) : (s.modNode gr n f).mem = s.mem := by
  simp [State.modNode]

@[simp] theorem State.endNode_mem (gr n : Nat) (st : Status) : (s.endNode gr n st).mem = s.mem := by
  simp [State.endNode]

@[simp] theorem State.faultNode_mem (gr n cause : Nat) (ev : Word) : (s.faultNode gr n cause ev).mem = s.mem := by
  unfold State.faultNode
  repeat' split
  all_goals simp

@[simp] theorem State.settleGraph_mem (gr : Nat) : (s.settleGraph gr).mem = s.mem := by
  unfold State.settleGraph
  dsimp only
  repeat' split
  all_goals simp [apply_ite State.mem]

@[simp] theorem State.refresh_mem : s.refresh.mem = s.mem := rfl

@[simp] theorem State.addStride_mem (q : Nat) : (s.addStride q).mem = s.mem := rfl

@[simp] theorem State.loadGraph_mem (gr : Nat) : (s.loadGraph gr).mem = s.mem := by
  unfold State.loadGraph
  dsimp only
  repeat' split
  all_goals simp

@[simp] theorem State.notify_mem (q : Nat) (tail : W32) : (s.notify q tail).mem = s.mem := by
  unfold State.notify
  dsimp only
  split <;> simp

@[simp] theorem State.applyBacklogs_mem (p : Nat) : (s.applyBacklogs p).mem = s.mem := rfl

@[simp] theorem State.recompute_mem : s.recompute.mem = s.mem := rfl

@[simp] theorem State.applyReplicas_mem (p : Nat) : (s.applyReplicas p).mem = s.mem := by
  unfold State.applyReplicas
  refine State.foldl_mem (fun s x => ?_)
  repeat' split
  all_goals simp

@[simp] theorem State.openGraphs_mem (jk : Nat) (j : Job) : (s.openGraphs jk j).mem = s.mem := by
  unfold State.openGraphs
  split
  · rfl
  · exact State.foldl_mem (by intros; rfl)

@[simp] theorem State.killSelf_mem : s.killSelf.mem = s.mem := rfl

@[simp] theorem State.unwait_mem (pick : Waiter → Bool) : (s.unwait pick).mem = s.mem := rfl

@[simp] theorem State.dropSlot_mem (c n : Nat) (x : Slot) : (s.dropSlot c n x).mem = s.mem := by
  unfold State.dropSlot
  dsimp only
  repeat' split
  all_goals simp

@[simp] theorem State.dropLoads_mem (c ch : Nat) : (s.dropLoads c ch).mem = s.mem := by
  simp [State.dropLoads]

@[simp] theorem State.dropMatrix_mem (c ch : Nat) : (s.dropMatrix c ch).mem = s.mem := rfl

@[simp] theorem State.cancelUnit_mem (c ch : Nat) : (s.cancelUnit c ch).mem = s.mem := by
  unfold State.cancelUnit
  dsimp only
  repeat' split
  all_goals simp

@[simp] theorem State.cancelLaunch_mem (ln : Nat) : (s.cancelLaunch ln).mem = s.mem := by
  unfold State.cancelLaunch
  split
  · rfl
  · split
    · rfl
    · refine (State.foldl_mem (by intros; rfl)).trans ?_
      refine (State.foldl_mem (by intros; rfl)).trans ?_
      refine (State.foldl_mem (by simp)).trans ?_
      simp

@[simp] theorem State.cancelGraph_mem (gr : Nat) : (s.cancelGraph gr).mem = s.mem := by
  unfold State.cancelGraph
  dsimp only
  repeat' split
  all_goals simp

@[simp] theorem State.cancelPhase_mem (jk : Nat) : (s.cancelPhase jk).mem = s.mem := by
  simp [State.cancelPhase]

@[simp] theorem State.endPreempt_mem (p : Nat) : (s.endPreempt p).mem = s.mem := by
  unfold State.endPreempt
  dsimp only
  split <;> simp

@[simp] theorem State.cancelLevel_mem (lvl id : Nat) : (s.cancelLevel lvl id).mem = s.mem := by
  unfold State.cancelLevel
  dsimp only
  repeat' split
  all_goals simp

@[simp] theorem State.modSubs_mem (p : Sub → Bool) (f : Sub → Sub) : (s.modSubs p f).mem = s.mem := rfl

@[simp] theorem State.fillCore_mem (c : Nat) : (s.fillCore c).mem = s.mem := State.foldl_mem (by intros; rfl)

@[simp] theorem State.startToken_mem (l : Launch) (g : GGraph) (n : Nat) : (s.startToken l g n).mem = s.mem := by
  unfold State.startToken
  repeat' split
  all_goals simp

@[simp] theorem State.sign_mem (b : List Byte) : (s.sign b).1.mem = s.mem := rfl

@[simp] theorem State.closeLaunch_mem (l : Launch) : (s.closeLaunch l).mem = s.mem := by
  unfold State.closeLaunch
  rw [State.modLaunch_mem]
  exact State.foldl_mem (by intros; rfl)

@[simp] theorem State.requestPreempt_mem (p : Nat) : (s.requestPreempt p).mem = s.mem := by
  unfold State.requestPreempt
  split
  · rfl
  · rw [State.refresh_mem, State.modPart_mem]
    exact State.foldl_mem (by intros; rfl)

@[simp] theorem State.moveGraphs_mem (p : Nat) : (s.moveGraphs p).mem = s.mem := by
  simp [State.moveGraphs]

@[simp] theorem State.faultPart_mem (p : Nat) : (s.faultPart p).mem = s.mem := by
  simp [State.faultPart]

@[simp] theorem State.closeSave_mem (p : Nat) : (s.closeSave p).mem = s.mem := by
  unfold State.closeSave
  dsimp only
  split <;> simp

@[simp] theorem State.setFaultQ_mem (q : FqId) (x : FaultQ) : (s.setFaultQ q x).mem = s.mem := by
  unfold State.setFaultQ
  split <;> rfl

@[simp] theorem State.dropHeld_mem (fq : FqId) : (s.dropHeld fq).mem = s.mem := by
  unfold State.dropHeld
  dsimp only
  split
  · rfl
  · exact (State.foldl_mem (by intros; rfl)).trans (s.setFaultQ_mem _ _)

@[simp] theorem State.setMap_mem (p : Nat) (cls : List Nat) : (s.setMap p cls).mem = s.mem := by
  unfold State.setMap
  exact State.foldl_mem (fun s x => by simp)

@[simp] theorem State.bootCore_mem (c entry : Nat) : (s.bootCore c entry).mem = s.mem := rfl

@[simp] theorem State.addOriginal_mem (r : Replica) : (s.addOriginal r).mem = s.mem := rfl

@[simp] theorem State.failLink_mem (l : Nat) : (s.failLink l).mem = s.mem := by
  simp [State.failLink]

@[simp] theorem State.imageLength_mem (len : W32) : (s.imageLength len).mem = s.mem := by
  unfold State.imageLength
  dsimp only
  repeat' split
  all_goals simp

@[simp] theorem State.attest_mem (nonce : List Byte) : (s.attest nonce).mem = s.mem := rfl

@[simp] theorem State.bar0Read_mem (off n : Nat) : (s.bar0Read off n).mem = s.mem := rfl

@[simp] theorem State.bar0Write_mem (off : Nat) (bytes : List Byte) : (s.bar0Write off bytes).mem = s.mem := by
  unfold State.bar0Write
  repeat' split
  all_goals simp

@[simp] theorem State.cxlPoison_mem (unit : Nat) : (s.cxlPoison unit).mem = s.mem := by
  unfold State.cxlPoison
  split <;> rfl

@[simp] theorem State.flitIn_mem (l : Nat) (t : Token) : (s.flitIn l t).mem = s.mem := by
  unfold State.flitIn
  dsimp only
  split <;> simp

theorem State.nextTurn_mem : s.nextTurn.2.mem = s.mem := by
  unfold State.nextTurn
  split <;> rfl

theorem State.turn_mem (t : Turn) : (s.turn t).2.mem = s.mem := by
  cases t <;> rfl

@[simp] theorem State.takeShot_mem (c n : Nat) (w : LaneArgs) (takes : List Nat) (l : Lane) :
    (s.takeShot c n w takes l).mem = s.mem := rfl

@[simp] theorem State.stallNode_mem (c : Nat) (m : MemReq) (cause : Nat) : (s.stallNode c m cause).mem = s.mem := by
  simp [State.stallNode]

@[simp] theorem State.nodePoison_mem (c : Nat) (m : MemReq) : (s.nodePoison c m).mem = s.mem := by
  simp [State.nodePoison]

@[simp] theorem State.holdWord_mem (drain : Bool) : (s.holdWord drain).mem = s.mem := by
  unfold State.holdWord
  split <;> rfl

@[simp] theorem State.unholdWord_mem : s.unholdWord.mem = s.mem := by
  unfold State.unholdWord
  split <;> rfl

@[simp] theorem State.coopFault_mem (c : Nat) : (s.coopFault c).mem = s.mem := by
  simp [State.coopFault]

@[simp] theorem State.takeA_mem (c : Nat) (f : Firing) (data : List Byte) (bad : Bool) :
    (s.takeA c f data bad).mem = s.mem := by
  unfold State.takeA
  dsimp only
  repeat' split
  all_goals simp

theorem startAll_mem (c st : Nat) (l : List Firing) (rows : List Nat) (hold : Bool) (kept run : List Firing)
    (s : State) :
    (startAll c st l rows hold kept run s).1.mem = s.mem := by
  induction l generalizing rows hold kept run s with
  | nil => rfl
  | cons f r ih =>
    rw [startAll]
    split
    · exact ih ..
    · split
      · rfl
      · exact ih ..
      · rw [ih]; simp

end

end Sys2Proof.Machine
end


section
/-!
The operations on the state that write memory keep its canonical form (R114, R115).
-/

namespace Sys2Proof.Machine

section
variable (s : State)

/-! ## Scratchpad lines (R114, R120, R135) -/

theorem State.wf_spStore (c off : Nat) (bytes : List Byte) (bad publish : Bool) (h : s.mem.wf) :
    (s.spStore c off bytes bad publish).mem.wf := by
  unfold State.spStore
  refine List.foldlRecOn (motive := fun a : State × Nat => a.1.mem.wf) _ _ ?_
    (fun a ha ch _ => State.wf_lineStore _ _ _ _ _ _ ha)
  dsimp only
  split
  · exact h
  · exact State.wf_lineStore s _ _ _ _ _ h

theorem State.wf_lineWrites (publish : Bool) (line : Nat) (l : List (List Byte × Bool)) (h : s.mem.wf) :
    (s.lineWrites publish line l).mem.wf := by
  induction l generalizing line s with
  | nil => exact h
  | cons x r ih => exact ih _ _ (by simpa using State.wf_lineStore s _ _ _ _ _ h)

theorem State.wf_storeHome (t off : Nat) (bytes : List Byte) (h : s.mem.wf) : (s.storeHome t off bytes).mem.wf := by
  unfold State.storeHome
  dsimp only
  split
  · simpa using State.wf_spStore _ _ _ _ _ _ (by simpa using h)
  · exact State.wf_spStore _ _ _ _ _ _ (by simpa using h)

theorem State.wf_applyTo (c tgt : Nat) (m : Commit) (h : s.mem.wf) : (s.applyTo c tgt m).mem.wf := by
  unfold State.applyTo
  refine State.wf_foldl _ _ (fun s l h => ?_) s h
  dsimp only
  split
  · simpa using State.wf_lineStore s _ _ _ _ _ h
  · exact State.wf_lineStore s _ _ _ _ _ h

theorem State.wf_applySnapshot (u : Sub) (data : List Byte) (bad : List Bool) (h : s.mem.wf) :
    (s.applySnapshot u data bad).mem.wf :=
  State.wf_foldl _ _ (fun s x h => by simpa using State.wf_lineStore s _ _ _ _ _ h) s h

theorem State.wf_copyExpert (p n line : Nat) (o : Replica) (vcl core : Nat) (h : s.mem.wf) :
    (s.copyExpert p n line o vcl core).mem.wf := by
  refine State.wf_foldl _ _ (fun s i h => ?_) s h
  split
  · exact State.wf_foldl _ _ (fun s k h => by simpa using State.wf_spStore s _ _ _ _ _ h) s h
  · exact h

theorem State.wf_writeSection (c : Nat) (x : Section) (h : s.mem.wf) : (s.writeSection c x).mem.wf := by
  unfold State.writeSection
  split
  · exact h
  · split
    · refine State.wf_foldl _ _ (fun s l h => ?_) _ (State.wf_spStore s _ _ _ _ _ h)
      split <;> exact h
    · exact h

theorem State.wf_nodeScratch (c t off : Nat) (m : MemReq) (h : s.mem.wf) : (s.nodeScratch c t off m).mem.wf := by
  unfold State.nodeScratch
  dsimp only
  split
  · simpa using h
  · simpa using State.wf_spStore s _ _ _ _ _ h
  · split
    · simpa using h
    · simpa using State.wf_spStore s _ _ _ _ _ h

/-! ## Lines of the Detents (R140, R166) -/

theorem State.wf_walkedLines (die p va n : Nat) (h : s.mem.wf) : (s.walkedLines die p va n).mem.wf :=
  State.wf_foldl _ _ (fun s _ h => State.wf_walked s _ _ _ h) s h

theorem State.wf_ldgLine (c : Nat) (r : Ldg) (pa : Nat) (h : s.mem.wf) : (s.ldgLine c r pa).mem.wf := by
  have hread := State.wf_physRead _ ((List.range 128).map (pa + ·))
    (State.wf_keyed s (s.core c).part ((List.range 128).map (pa + ·)) false h)
  unfold State.ldgLine
  dsimp only
  generalize State.physRead _ _ = y at hread ⊢
  have hline : (if r.named.contains (r.line + r.got) = true then y.1
      else (y.1.spStore c ((r.line + r.got) * 128) y.2.1 y.2.2 false).fillLine
        (lineKey c (r.line + r.got))).mem.wf := by
    split
    · exact hread
    · exact State.wf_spStore _ _ _ _ _ _ hread
  split <;> exact hline

theorem State.wf_takeLine (cl line : Nat) (h : s.mem.wf) : (s.takeLine cl line).mem.wf := by
  unfold State.takeLine
  dsimp only
  have hgive : (s.clusters.foldl (fun s x => if x.1 != cl then s.writeBack x.1 line else s) s).mem.wf := by
    refine State.wf_foldl _ _ (fun s x h => ?_) s h
    split
    · exact State.wf_writeBack s _ _ h
    · exact h
  split
  · exact hgive
  · rw [State.modCluster_mem]
    split
    · split
      · exact State.wf_writeBack _ _ _ hgive
      · exact hgive
    · exact hgive

theorem State.wf_detentAt (cl : Nat) (a : Atomic) (pa : Nat) (h : s.mem.wf) : (s.detentAt cl a pa).mem.wf := by
  have htake := State.wf_takeLine s cl (pa / 128) h
  unfold State.detentAt
  extract_lets u hot off old poison w new put changed written v
  have hchanged : changed.mem.wf := by
    dsimp only [changed]
    split_ifs <;> exact htake
  have hwritten : written.mem.wf := by
    dsimp only [written]
    split_ifs
    · exact State.wf_writeBack _ _ _ hchanged
    · exact hchanged
  split <;> exact hwritten

/-! ## Translated accesses (R117, R233, R234) -/

theorem wf_stgWrites (die p va : Nat) (ls : List (List Byte)) (bads : List Bool) {s t : State}
    (e : stgWrites die p va ls bads s = some t) (h : s.mem.wf) : t.mem.wf := by
  induction ls generalizing va bads s with
  | nil => cases e; exact h
  | cons l ls ih =>
    rw [stgWrites] at e
    split at e
    · cases e
    · rename_i u hu
      exact ih _ _ e (State.wf_gWrite hu h)

theorem State.wf_regRead {s t : State} {p va n : Nat} {x : List Byte × Bool} (e : s.regRead p va n = some (t, x))
    (h : s.mem.wf) : t.mem.wf := by
  unfold State.regRead at e
  split at e
  · exact State.wf_gRead e h
  · cases e

theorem State.wf_regWrite {s t : State} {p va : Nat} {b : List Byte} {bad : Bool}
    (e : s.regWrite p va b bad = some t) (h : s.mem.wf) : t.mem.wf := by
  unfold State.regWrite at e
  split at e
  · exact State.wf_gWrite e h
  · cases e

theorem State.wf_readElem (c n : Nat) (a : Word) (h : s.mem.wf) : (s.readElem c n a).1.mem.wf := by
  unfold State.readElem
  split
  · exact h
  · split
    · rename_i e
      exact State.wf_gRead e h
    · exact h
  · exact h

theorem State.wf_readElems (c n pad : Nat) (l : List (Option Word)) (h : s.mem.wf) :
    (State.readElems c n pad s l).1.mem.wf := by
  induction l generalizing s with
  | nil => exact h
  | cons a r ih =>
    refine ih _ ?_
    cases a with
    | none => exact h
    | some a => exact State.wf_readElem s c n a h

theorem State.wf_writeElem (c n : Nat) (a : Word) (v : Nat) (bad : Bool) (m : Tbl Nat) (h : s.mem.wf) :
    (s.writeElem c n a v bad m).1.mem.wf := by
  unfold State.writeElem
  split
  · dsimp only
    exact State.wf_foldl _ _ (by intros; assumption) _ (State.wf_spStore s _ _ _ _ _ h)
  · dsimp only
    split
    · exact h
    · exact State.wf_physWrite s _ (leBytes v n) bad h
  · exact h

theorem State.wf_writeElems (c n w : Nat) (bad : Bool) (x : State × Tbl Nat) (l : List (Option Word)) (h : x.1.mem.wf) :
    (State.writeElems c n w bad x l).1.mem.wf := by
  induction l generalizing w x with
  | nil => exact h
  | cons a r ih =>
    refine ih _ _ ?_
    cases a with
    | none => exact h
    | some a => exact State.wf_writeElem x.1 c n a _ bad _ h

theorem State.wf_placeSection {s t : State} {p : Nat} {x : Section} (e : s.placeSection p x = some t) (h : s.mem.wf) :
    t.mem.wf := by
  obtain ⟨pas, -, rfl⟩ := Option.map_eq_some_iff.1 e
  exact State.wf_physWrite _ _ _ _ (State.wf_keyed s p pas true h)

theorem State.wf_placeSections (p : Nat) (l : List Section) (h : s.mem.wf) : (s.placeSections p l).1.mem.wf := by
  refine List.foldlRecOn (motive := fun a : State × List Section => a.1.mem.wf) l _ h (fun a ha x _ => ?_)
  split
  · rename_i e
    exact State.wf_placeSection e ha
  · exact ha

theorem State.wf_addObject (p : Nat) (f : List Byte) (h : s.mem.wf) : (s.addObject p f).mem.wf := by
  unfold State.addObject
  exact State.wf_placeSections s p _ h

theorem State.wf_continueLoad (p : Nat) (o : Object) (h : s.mem.wf) : (s.continueLoad p o).mem.wf := by
  unfold State.continueLoad
  exact State.wf_placeSections s p _ h

/-! ## Memory nodes (R89-R91) -/

theorem State.wf_nodeReply (c i : Nat) (h : s.mem.wf) : (s.nodeReply c i).mem.wf := by
  unfold State.nodeReply
  split
  · exact h
  · rename_i m _
    split
    · exact h
    · split
      · simpa using h
      · split
        · simpa using h
        · split
          · exact h
          · exact State.wf_nodeScratch s _ _ _ _ h
      · split
        · simpa using h
        · split
          · split
            · simpa using h
            · exact h
          · dsimp only
            have ht := State.takeTokens_mem s c 4
            split
            · exact h
            · split
              · simpa using h
              · split
                · rename_i u e
                  rw [e] at ht
                  rwa [ht]
                · rename_i u e
                  rw [e] at ht
                  have hu : u.mem.wf := by rwa [ht]
                  split
                  · split
                    · rename_i e
                      simpa using State.wf_gWrite e hu
                    · exact hu
                  · split
                    · rename_i e
                      simpa using State.wf_gRead e hu
                    · exact hu

theorem State.wf_nodeAccess (c n : Nat) (m : MemReq) (h : s.mem.wf) : (s.nodeAccess c n m).mem.wf := by
  unfold State.nodeAccess
  dsimp only
  split
  · split <;> simpa using h
  · split
    · exact State.wf_nodeReply _ _ _ (by simpa using h)
    · simpa using h
  · exact State.wf_nodeReply _ _ _ (by simpa using h)

end

section
variable (s : State)

/-! ## The name engine's tables (R157-R165) -/

theorem State.wf_modEntry (p : Nat) (n : BitVec 128) (f : Entry → Entry) (h : s.mem.wf) :
    (s.modEntry p n f).mem.wf := by
  unfold State.modEntry
  split
  · exact State.wf_tableWrite s _ _ h
  · exact h

theorem State.wf_insertEntry (p : Nat) (e : Entry) (h : s.mem.wf) : (s.insertEntry p e).mem.wf := by
  unfold State.insertEntry
  split
  · exact h
  · split
    · exact h
    · rw [State.uncache_mem]
      refine State.wf_tableWrite _ _ _ ?_
      split
      · exact State.wf_tableWrite s _ _ h
      · exact h

theorem State.wf_removeEntry (p : Nat) (e : Entry) (h : s.mem.wf) : (s.removeEntry p e).mem.wf := by
  unfold State.removeEntry
  split
  · rename_i c i _ _ _
    have hentry : ((s.uncache p e.name).tableWrite (entryAddr c i) (List.replicate 64 0)).mem.wf :=
      State.wf_tableWrite _ _ _ (by simpa using h)
    extract_lets u v
    have hslot : v.mem.wf := by
      dsimp only [v]
      split
      · exact State.wf_tableWrite _ _ _ hentry
      · exact hentry
    split <;> exact hslot
  · exact h

theorem State.wf_dropDangling (p : Nat) (n : BitVec 128) (h : s.mem.wf) : (s.dropDangling p n).mem.wf := by
  unfold State.dropDangling
  split
  · split
    · exact State.wf_removeEntry s _ _ h
    · exact h
  · exact h

theorem State.wf_lookup (die p : Nat) (n : BitVec 128) (h : s.mem.wf) : (s.lookup die p n).1.mem.wf := by
  unfold State.lookup
  split
  · exact State.wf_dropDangling s _ _ h
  · dsimp only
    rw [State.cache_mem]
    refine State.wf_modEntry _ _ _ _ ?_
    split
    · exact h
    · exact State.wf_modEntry s _ _ _ h

theorem State.wf_markPoisoned (p : Nat) (n : BitVec 128) (h : s.mem.wf) : (s.markPoisoned p n).mem.wf := by
  unfold State.markPoisoned
  rw [State.uncache_mem]
  exact State.wf_modEntry s _ _ _ h

theorem State.wf_nins (die p : Nat) (bad : Bool) (block : List Byte) (h : s.mem.wf) :
    (s.nins die p bad block).1.mem.wf := by
  unfold State.nins
  dsimp only
  split
  · exact h
  split
  · exact h
  split
  · exact h
  split
  · split
    · split
      · exact h
      · split
        · exact State.wf_insertEntry s _ _ h
        · exact h
    · exact h
  · split
    · exact h
    · rename_i t bytes poison e
      have ht := State.wf_gRead e h
      split
      · exact ht
      · split
        · exact State.wf_insertEntry t _ _ ht
        · exact ht

theorem State.wf_nevict (p : Nat) (bad : Bool) (n : BitVec 128) (h : s.mem.wf) : (s.nevict p bad n).1.mem.wf := by
  unfold State.nevict
  split
  · exact h
  · split
    · exact h
    · split
      · exact h
      · exact State.wf_removeEntry s _ _ h

theorem State.wf_noteControl (p die : Nat) (o : Option Obj) (h : s.mem.wf) : (s.noteControl p die o).mem.wf := by
  unfold State.noteControl
  split
  · split
    · split
      · exact State.wf_markPoisoned s _ _ h
      · exact h
    · exact h
  · exact h

theorem State.wf_nameAt (l : Launch) (g : GGraph) (n : Nat) (gn : GNode) (port seg : Nat) (iter : List Nat)
    (h : s.mem.wf) : (s.nameAt l g n gn port seg iter).mem.wf := by
  unfold State.nameAt
  extract_lets v old o named u
  split
  · exact h
  · have hu : u.mem.wf := State.wf_noteControl _ _ _ _ (by simpa using h)
    split
    · simpa using hu
    · exact hu

theorem State.wf_resolve (ln n : Nat) (g : GGraph) (gn : GNode) (pick : Nat → Bool) (h : s.mem.wf) :
    (s.resolve ln n g gn pick).mem.wf := by
  refine State.wf_foldl _ _ (fun s o h => ?_) s h
  split
  · split
    · exact State.wf_nameAt s _ _ _ _ _ _ _ h
    · exact h
  · exact h

theorem State.heapWrite_cases {s t : State} {die p va : Nat} {bytes : List Byte}
    (e : s.heapWrite die p bytes = some (t, va)) :
    ∃ pas f, t = (s.physWrite pas bytes false).modDom p f := by
  have key : ∀ (cfg : Option DomainCfg) (place : Nat → Nat → Option Nat) (sz : Nat),
      (match cfg with
        | none => none
        | some c =>
          match place c.heapSize sz with
          | none => none
          | some off => (s.translateAll die p (c.heapBase + off) false bytes.length).map (fun pas =>
              ((s.physWrite pas bytes false).modDom p (fun d => { d with blocks := d.blocks ++ [(off, sz)] }),
                c.heapBase + off))) = some (t, va) →
      ∃ pas f, t = (s.physWrite pas bytes false).modDom p f := by
    intro cfg place sz e
    split at e
    · cases e
    · split at e
      · cases e
      · obtain ⟨pas, -, e⟩ := Option.map_eq_some_iff.1 e
        cases e
        exact ⟨_, _, rfl⟩
  exact key (s.dom p).cfg (allocAt (s.dom p).blocks) (blockSize 15 4096 bytes.length) e

theorem State.wf_heapWrite {s t : State} {die p va : Nat} {bytes : List Byte}
    (e : s.heapWrite die p bytes = some (t, va))
    (h : s.mem.wf) : t.mem.wf := by
  obtain ⟨pas, f, rfl⟩ := State.heapWrite_cases e
  exact State.wf_physWrite s _ bytes false h

theorem State.wf_retain (die p : Nat) (n : BitVec 128) (bytes : List Byte) (shape : W32) (fmt : Byte) (h : s.mem.wf) :
    (s.retain die p n bytes shape fmt).mem.wf := by
  unfold State.retain
  extract_lets s0
  split
  · simpa using h
  · rename_i t va e
    have ht := State.wf_heapWrite e h
    extract_lets drop x twin same plain
    have hdrop : ∀ u : State, (drop u).mem = u.mem := fun u => rfl
    have hplain : ∀ u : State, u.mem.wf → (plain u).mem.wf := by
      intro u hu
      dsimp only [plain]
      split
      · simpa using State.wf_insertEntry u _ _ hu
      · simpa [hdrop] using hu
    split
    · simpa [hdrop] using ht
    · clear_value twin
      cases twin with
      | none => exact hplain t ht
      | some y =>
        dsimp only
        split
        · split
          · simpa [hdrop] using State.wf_insertEntry t _ _ ht
          · simpa [hdrop] using ht
        · exact hplain _ (by simpa using ht)

/-! ## Circuits (R92, R254) -/

theorem State.endPut_mem (x : Circuit) (t : Token) : (s.endPut x t).1.mem = s.mem := by
  unfold State.endPut
  split
  · rfl
  · split <;> simp

theorem State.deliverEnd_mem {x : Circuit} {f : Flit} {y : State × Bool} (e : s.deliverEnd x f = some y) :
    y.1.mem = s.mem := by
  unfold State.deliverEnd at e
  split at e
  · obtain ⟨u, hu, rfl⟩ := Option.map_eq_some_iff.1 e
    exact State.waveArrive_mem s hu
  · split at e
    · cases e
      exact State.endPut_mem s _ _
    · cases e

theorem State.dataHop_mem {idx i : Nat} {x : Circuit} {u : State} (e : s.dataHop idx i x = some u) :
    u.mem = s.mem := by
  unfold State.dataHop at e
  dsimp only at e
  split at e
  · obtain ⟨f, -, e⟩ := Option.bind_eq_some_iff.1 e
    split at e
    · cases e; simp
    · cases e
  · obtain ⟨f, -, e⟩ := Option.bind_eq_some_iff.1 e
    split_ifs at e
    · cases e; simp
    · obtain ⟨y, hy, rfl⟩ := Option.map_eq_some_iff.1 e
      split
      · simp [State.deliverEnd_mem s hy]
      · exact State.deliverEnd_mem s hy

@[simp] theorem State.armCircuit_mem (l : Launch) (g : GGraph) (e : GEdge) : (s.armCircuit l g e).mem = s.mem := by
  unfold State.armCircuit
  split
  · dsimp only
    split <;> rfl
  · rfl

@[simp] theorem State.linkCircuit_mem (c port link : Nat) (out toVc : Bool) :
    (s.linkCircuit c port link out toVc).mem = s.mem := by
  unfold State.linkCircuit
  dsimp only
  split
  · rfl
  · split <;> rfl

theorem State.superWrite_mem (r : SupWrite) : (s.superWrite r).mem = s.mem := by
  unfold State.superWrite
  cases r <;> dsimp only <;> repeat' split
  all_goals simp

/-! ## Commands and completions (R187-R190, R200) -/

theorem State.wf_readRing (q : Queue) (i : BitVec 32) (h : s.mem.wf) : (s.readRing q i).1.mem.wf := by
  unfold State.readRing
  dsimp only
  split
  · cases e : s.regRead q.part.toNat (q.slotAt i) 64 with
    | none => exact h
    | some x => exact State.wf_regRead e h
  · exact h

theorem wf_readTable (p va n : Nat) (s : State) (h : s.mem.wf) : (readTable p va n s).1.mem.wf := by
  induction n generalizing va s with
  | zero => exact h
  | succ n ih =>
    rw [readTable]
    split
    · exact h
    · rename_i t e bad he
      have ht := State.wf_regRead he h
      dsimp only
      split
      · exact ht
      · split
        · exact ht
        · rename_i u l bad2 hl
          have hu := State.wf_regRead hl ht
          split
          · exact hu
          · split
            · exact hu
            · have hr := ih (va + 16) u hu
              split <;> (rename_i er; rw [er] at hr; exact hr)

theorem State.wf_parseCommand (p : Nat) (b : List Byte) (bad : Bool) (h : s.mem.wf) :
    (s.parseCommand p b bad).1.mem.wf := by
  unfold State.parseCommand
  dsimp only
  split
  · exact h
  split
  · exact h
  split
  · exact h
  · have hr := wf_readTable p (field b 16 8) (field b 13 1) s h
    split
    · rename_i er
      rw [er] at hr; exact hr
    · rename_i t ph er
      rw [er] at hr
      split
      · exact hr
      · split
        · exact hr
        · split
          · exact hr
          · split
            · exact hr
            · split
              · exact hr
              · split
                · exact hr
                · rename_i en
                  have hn := State.wf_regRead en hr
                  split <;> exact hn

theorem State.wf_checkCommand (q : Nat) (h : s.mem.wf) : (s.checkCommand q).mem.wf := by
  unfold State.checkCommand
  dsimp only
  have hr := State.wf_readRing s (Tbl.get {} s.queues q) (Tbl.get {} s.queues q).head h
  split
  · exact State.wf_parseCommand _ _ _ _ hr
  · exact hr

theorem State.wf_complete (p : Nat) (cpl : Word) (job st phase : Nat) (h : s.mem.wf) :
    (s.complete p cpl job st phase).mem.wf := by
  unfold State.complete
  dsimp only
  split
  · exact Memory.wf_writes _ _ h
  · split
    · rename_i e
      exact State.wf_regWrite e h
    · simpa using h

theorem State.wf_consume (q : Nat) (c : Command) (ok : Bool) (h : s.mem.wf) : (s.consume q c ok).mem.wf := by
  unfold State.consume
  dsimp only
  split
  · exact h
  · exact State.wf_complete _ _ _ _ _ _ h

theorem State.wf_earlyJob (p q : Nat) (c : Command) (h : s.mem.wf) : (s.earlyJob p q c).mem.wf :=
  State.wf_complete _ _ _ _ _ _ (by simpa using State.wf_consume s q c true h)

theorem State.wf_post (p q : Nat) (b : List Byte) (bad : Bool) (h : s.mem.wf) : (s.post p q b bad).1.mem.wf := by
  unfold State.post
  dsimp only
  split
  · exact h
  split
  · exact h
  · have hc := State.wf_parseCommand s p b bad h
    generalize s.parseCommand p b bad = y at hc ⊢
    split
    · exact hc
    · split
      · split
        · rename_i e
          simpa using State.wf_regWrite e hc
        · exact hc
      · simpa using Memory.wf_writes _ _ hc

theorem State.wf_predicate (p : Nat) (a : Word) (h : s.mem.wf) : (s.predicate p a).1.mem.wf := by
  unfold State.predicate
  split
  · exact h
  · split
    · exact h
    · rename_i e
      exact State.wf_regRead e h

/-! ## Replicas and phases (R13, R199, R215, R216) -/

theorem State.wf_publish (p : Nat) (h : s.mem.wf) : (s.publish p).mem.wf := by
  unfold State.publish
  dsimp only
  split
  · exact h
  · exact State.wf_physWrite s _ _ _ h

theorem wf_repGo (p : Nat) (r : RepRun) (l : List (Nat × Nat)) (s : State) (h : s.mem.wf) : (repGo p r l s).mem.wf := by
  induction l generalizing s with
  | nil =>
    rw [repGo]
    simpa using State.wf_publish _ p (by simpa using h)
  | cons x l ih =>
    rw [repGo]
    split
    · exact ih s h
    · dsimp only
      split
      · exact ih _ (by simpa using h)
      · split
        · exact ih _ (by simpa using h)
        · exact h

theorem State.wf_replicate (p job : Nat) (h : s.mem.wf) : (s.replicate p job).mem.wf := wf_repGo p _ _ s h

theorem State.wf_beginPhase (jk : Nat) (h : s.mem.wf) : (s.beginPhase jk).mem.wf := by
  unfold State.beginPhase
  split
  · exact h
  · exact State.wf_replicate _ _ _ (by simpa using h)

/-! ## Launches and records (R195, R197, R259, R260) -/

theorem State.wf_armCore (l : Launch) (o : Object) (c : Nat) (ns : List (Nat × GNode)) (h : s.mem.wf) :
    (s.armCore l o c ns).1.mem.wf := by
  unfold State.armCore
  dsimp only
  split
  · simpa using h
  · split
    · simpa using h
    · exact State.wf_foldl _ _ (fun s x h => State.wf_writeSection s _ _ h) _ (by simpa using h)

theorem State.wf_arm (l : Launch) (o : Object) (g : GGraph) (h : s.mem.wf) : (s.arm l o g).mem.wf := by
  unfold State.arm
  extract_lets at_ cs r
  have hr : r.1.mem.wf :=
    List.foldlRecOn (motive := fun a : State × Bool => a.1.mem.wf) cs _ h
      (fun a ha c _ => State.wf_armCore a.1 _ _ _ _ ha)
  split
  · rw [State.foldl_mem (by simp), State.foldl_mem (by simp)]
    exact hr
  · simpa using hr

theorem State.wf_toRing (p : Nat) (b : List Byte) (h : s.mem.wf) : (s.toRing p b).mem.wf := by
  unfold State.toRing
  dsimp only
  split
  · exact h
  · simpa using State.wf_physWrite s _ _ _ h

theorem State.wf_checkpoint (p : Nat) (h : s.mem.wf) : (s.checkpoint p).mem.wf :=
  State.wf_toRing _ _ _ (by simpa using h)

theorem State.wf_record (l : Launch) (st : Status) (h : s.mem.wf) : (s.record l st).mem.wf := by
  unfold State.record
  extract_lets x ins outs jid code b u
  have hu : u.mem.wf := by simpa [u] using State.wf_toRing s l.part b h
  split
  · exact State.wf_checkpoint _ _ hu
  · exact hu

/-! ## Pre-emption, fault records and the host (R228, R235, R241, R249) -/

theorem State.wf_restore (p : Nat) (new : List Nat) : (s.restore p new).mem.wf := by
  unfold State.restore
  extract_lets sup f u v w x
  have hv : v.mem.wf := State.wf_foldl _ _ (by intros; assumption) _ (State.wf_renumber s f)
  simpa [x, w] using hv

theorem State.wf_writeRec {s t : State} {fq : FqId} {a : Nat} {b : List Byte} (e : s.writeRec fq a b = some t)
    (h : s.mem.wf) : t.mem.wf := by
  cases fq with
  | part p => exact State.wf_regWrite e h
  | firmware =>
    cases e
    exact State.wf_physWrite s _ _ _ h

theorem State.wf_hostRead (off n : Nat) (h : s.mem.wf) : (s.hostRead off n).mem.wf := by
  unfold State.hostRead
  dsimp only
  split
  · exact h
  · exact State.wf_physRead _ _ (State.wf_barKeyed s _ _ h)

end

end Sys2Proof.Machine
end


section
/-!
O43: every step keeps memory in its canonical form. The outcome of a word is taken through the operations that many
words share, that of an event through the operations on the state that it applies.
-/

namespace Sys2Proof.Machine

/-- The state that the outcome answers, if any, has its memory in the canonical form. -/
def Canonical (r : Result) : Prop := ∀ t, r = .next t → t.mem.wf

@[simp] theorem canonical_next (t : State) : Canonical (.next t) ↔ t.mem.wf :=
  ⟨fun h => h t rfl, fun h u e => by cases e; exact h⟩

/-- As `Canonical`, of a stream word's outcome. -/
def Sres.Canonical : Sres → Prop
  | .yes t => t.mem.wf
  | _ => True

@[simp] theorem Sres.canonical_yes (t : State) : (Sres.yes t).Canonical ↔ t.mem.wf := Iff.rfl
@[simp] theorem Sres.canonical_no : Sres.no.Canonical ↔ True := Iff.rfl
@[simp] theorem Sres.canonical_fault (c : Nat) (v : Word) : (Sres.fault c v).Canonical ↔ True := Iff.rfl

/-- As `Canonical`, of a matrix word's outcome. -/
def Mres.Canonical : Mres → Prop
  | .ok t _ _ => t.mem.wf
  | _ => True

@[simp] theorem Mres.canonical_ok (t : State) (kind : Nat) (fl : Flags) : (Mres.ok t kind fl).Canonical ↔ t.mem.wf :=
  Iff.rfl
@[simp] theorem Mres.canonical_wait : Mres.wait.Canonical ↔ True := Iff.rfl
@[simp] theorem Mres.canonical_fault (c : BitVec 4) : (Mres.fault c).Canonical ↔ True := Iff.rfl

section
variable {s : State}

theorem control_canonical (g : Guard) (uses : List Dest) (f : State → State) (h : s.mem.wf) (hf : (f s).mem.wf) :
    Canonical (control g uses s f) := by
  rcases control_cases g uses s f with e | e | e | e | e <;> simpa [e]

theorem controlEnd_canonical (g : Guard) (uses : List Dest) (f : State → State) (h : s.mem.wf) (hf : (f s).mem.wf) :
    Canonical (controlEnd g uses s f) := by
  rcases controlEnd_cases g uses s f with e | e | e | e | e <;> simpa [e]

theorem State.wf_irrevocable (f : State → State) (h : s.mem.wf) (hf : ∀ u : State, u.mem.wf → (f u).mem.wf) :
    (s.irrevocable f).mem.wf := by
  unfold State.irrevocable
  dsimp only
  split
  · split
    · exact hf _ (by simpa using h)
    · simpa using h
  · exact hf s h

theorem State.wf_settling (f : State → State) (h : s.mem.wf) (hf : ∀ u : State, u.mem.wf → (f u).mem.wf) :
    (s.settling f).mem.wf :=
  State.wf_irrevocable _ h fun u hu => hf _ (by simpa using hu)

theorem State.wf_taskRead (a : Word) (n : Nat) (f : State → Nat → Nat → State) (h : s.mem.wf)
    (hf : ∀ (u : State) (v t : Nat), u.mem.wf → (f u v t).mem.wf) : (s.taskRead a n f).mem.wf := by
  unfold State.taskRead
  dsimp only
  split
  · split
    · simpa using h
    split
    · exact h
    split
    · split <;> simpa using h
    have hgo : ∀ (u : State) (w : Work) (g : Ctl → Ctl) (cnd : Bool) (a : Word) (v t : Nat), u.mem.wf →
        (if cnd then (u.modCtl s.seat.core g).trap 21 a else f (u.modCtl s.seat.core g) v t).mem.wf := by
      intro u w g cnd a v t hu
      split
      · simpa using hu
      · exact hf _ _ _ (by simpa using hu)
    split
    · exact hgo s s.here.ctl.work _ _ _ _ _ h
    · exact State.wf_irrevocable _ h fun u hu => hgo u u.here.ctl.work _ _ _ _ _ hu
  · simpa using h

theorem State.wf_transfer (tgt : Int) (f : State → State) (h : s.mem.wf) (hf : ∀ u : State, u.mem.wf → (f u).mem.wf) :
    (s.transfer tgt f).mem.wf := by
  unfold State.transfer
  split
  · simpa using h
  · simpa using hf s h

theorem alu_canonical (g : Guard) (d a b : Reg) (op : Word → Word → Word) (h : s.mem.wf) :
    Canonical (alu g d a b s op) :=
  control_canonical _ _ _ h (by simpa using h)

theorem alu1_canonical (g : Guard) (d a : Reg) (op : Word → Word) (h : s.mem.wf) : Canonical (alu1 g d a s op) :=
  control_canonical _ _ _ h (by simpa using h)

theorem fieldReg_canonical (g : Guard) (d a b : Reg) (op : Word → Word → Nat → Nat → Word) (h : s.mem.wf) :
    Canonical (fieldReg g d a b s op) :=
  control_canonical _ _ _ h (by dsimp only; split <;> simpa using h)

theorem fset_canonical (g : Guard) (a : Reg) (full : Bool) (h : s.mem.wf) : Canonical (fset g a full s) := by
  refine control_canonical _ _ _ h ?_
  split
  · exact h
  · refine State.wf_settling _ h fun u hu => ?_
    dsimp only
    split
    · split
      · simpa [State.setLine_mem] using hu
      · simpa using hu
    · simpa using hu

theorem nameStatus_canonical (g : Guard) (d a : Reg) (n : Nat) (op : List Byte → NameOp) (h : s.mem.wf) :
    Canonical (nameStatus g d a n op s) := by
  refine control_canonical _ _ _ h ?_
  split
  · exact h
  · refine State.wf_settling _ h fun u hu => ?_
    dsimp only
    split <;> simpa using hu

theorem onStream_canonical (gp : Word) (f : State → Sres) (h : s.mem.wf) (hf : (f s).Canonical) :
    Canonical (onStream gp s f) := by
  unfold onStream
  split
  · simpa using h
  · cases e : f s with
    | fault c v => simpa using h
    | no => simpa using h
    | yes t =>
      rw [e] at hf
      simpa using hf

theorem streamWord_canonical (g : Guard) (d : Pred) (b : Reg) (uses : List Dest) (held : State → Bool)
    (f : State → Sres) (h : s.mem.wf) (hf : ∀ u : State, u.mem.wf → (f u).Canonical) :
    Canonical (streamWord g d b uses held s f) := by
  unfold streamWord
  split
  · refine onStream_canonical _ _ h ?_
    split
    · simp
    · exact hf s h
  · refine control_canonical _ _ _ h ?_
    split
    · exact h
    · refine State.wf_settling _ h fun u hu => ?_
      have := hf u hu
      cases e : f u with
      | fault c v => simpa [e] using hu
      | no => simpa [e] using hu
      | yes t => simpa [e] using this

theorem matrixWord_canonical (drain : Bool) (f : State → Mres) (h : s.mem.wf) (hf : (f s).Canonical) :
    Canonical (matrixWord drain s f) := by
  unfold matrixWord
  dsimp only
  split
  · simpa using h
  split
  · simpa using h
  split
  · simpa using h
  cases e : f s with
  | fault c => simpa using h
  | wait => simpa using h
  | ok t kind fl =>
    rw [e] at hf
    simpa using hf

theorem productWord_canonical (sig : List Nat) (f : State → Mres) (h : s.mem.wf) (hf : (f s).Canonical) :
    Canonical (productWord s sig f) := by
  unfold productWord
  dsimp only
  split
  · simpa using h
  · exact matrixWord_canonical _ _ h hf

theorem shoot_canonical (w : LaneArgs) (f : Core → Nat → Lane → Shot) (h : s.mem.wf) : Canonical (shoot w f s) := by
  unfold shoot
  dsimp only
  repeat' split
  all_goals simpa using h

theorem elementOp_canonical (w : LaneArgs) (useB useC : Bool) (op : Nat → Nat → Nat → Nat × Flags) (h : s.mem.wf) :
    Canonical (elementOp w useB useC op s) :=
  shoot_canonical _ _ h

theorem intOp_canonical (w : LaneArgs) (useC : Bool) (op : Nat → Nat → Nat → Nat → Nat) (h : s.mem.wf) :
    Canonical (intOp w useC op s) :=
  elementOp_canonical _ _ _ _ h

theorem floatOp_canonical (w : LaneArgs) (useC : Bool) (op : Fl → Fl → Fl → Fl × Flags) (h : s.mem.wf) :
    Canonical (floatOp w useC op s) :=
  elementOp_canonical _ _ _ _ h

theorem memoryNode_canonical (op : LaneOp) (w : LaneArgs) (h : s.mem.wf) : Canonical (memoryNode op w s) := by
  unfold memoryNode
  dsimp only
  split
  · simpa using h
  split
  · split
    · simpa using h
    · exact shoot_canonical _ _ h
  split
  · simpa using h
  split
  · simpa using h
  split
  · simpa using h
  split
  · simpa using h
  split
  · simpa using h
  · simpa using State.wf_nodeAccess _ _ _ _ (by simpa using h)

theorem dispatch_canonical (kind gr n : Nat) (f : Graph → Job → Node → State → State) (h : s.mem.wf)
    (hf : ∀ g j x (u : State), u.mem.wf → (f g j x u).mem.wf) : Canonical (s.dispatch kind gr n f) := by
  unfold State.dispatch
  dsimp only
  split
  · split
    · split
      · simpa using h
      split
      · simpa using h
      · simpa using hf _ _ _ _ (by simpa using h)
    · simpa using h
  · simpa using h
end

theorem storeTile_canonical {s : State} {line : BitVec 12} {n : Nat} {f : Unit → Mres} (hf : ∀ x, (f x).Canonical) :
    (storeTile s line n f).Canonical := by
  unfold storeTile
  split
  · trivial
  split
  · trivial
  split
  · trivial
  · exact hf _

section
variable {s : State}

@[simp] theorem setMx_canonical (kind : Nat) (f : Mx → Mx) : (setMx s kind f).Canonical ↔ s.mem.wf := by
  simp [setMx]

@[simp] theorem issueFirings_canonical (ks : Nat) (l : List (Nat × Nat)) (sig : List Nat) :
    (issueFirings s ks l sig).Canonical ↔ s.mem.wf := by
  simp [issueFirings]

theorem queueCmd_canonical (p : Nat) (kind : CmdKind) (d : Desc) (h : s.mem.wf) : (queueCmd s p kind d).Canonical := by
  unfold queueCmd
  dsimp only
  repeat' split
  all_goals simpa using h

theorem bindPort_canonical (a gp : Word) (h : s.mem.wf) : (bindPort s a gp).Canonical := by
  unfold bindPort
  dsimp only
  repeat' split
  all_goals simpa using h

/-! ## The words with branches of their own -/

theorem st_canonical (g : Guard) (sz : Size) (d a : Reg) (off : BitVec 10) (h : s.mem.wf) :
    Canonical (execSt g sz d a off s) := by
  refine control_canonical _ _ _ h ?_
  extract_lets addr n
  split
  · split
    · simpa using h
    · extract_lets home spill
      rename_i bytes _ t o _ _
      have hhome (u : State) (hu : u.mem.wf) : (home u).mem.wf := by
        dsimp only [home]
        split
        · exact hu
        · simpa using State.wf_storeHome u t o bytes hu
      have hspill (u : State) (hu : u.mem.wf) : (spill u).mem.wf := hhome _ (by simpa using hu)
      split
      · exact hhome s h
      · split
        · split
          · exact State.wf_irrevocable _ h hspill
          · exact State.wf_settling _ h hspill
        · simpa using h
  · simpa using h

theorem stg_canonical (g : Guard) (a b : Reg) (lines : BitVec 7) (h : s.mem.wf) :
    Canonical (execStg g a b lines s) := by
  refine control_canonical _ _ _ h ?_
  extract_lets n
  split
  · simpa using h
  · rename_i w put _ _
    have hput (u : State) (hu : u.mem.wf) : (put u).mem.wf := by simpa [put] using hu
    split
    · simpa using h
    · split
      · exact State.wf_irrevocable _ h hput
      · exact hput s h

theorem ldg_canonical (g : Guard) (a b : Reg) (lines : BitVec 7) (h : s.mem.wf) :
    Canonical (execLdg g a b lines s) := by
  refine control_canonical _ _ _ h (State.wf_settling _ h fun u hu => ?_)
  dsimp only
  split
  · simpa using hu
  · split
    · simpa using hu
    · rw [State.stepPc_mem, State.bump_mem, State.next_mem, State.modChain_mem, State.modCore_mem]
      change (State.emptyLines _ _ _ _).mem.wf
      simpa using hu

theorem jt_canonical (g : Guard) (a b : Reg) (h : s.mem.wf) : Canonical (execJt g a b s) := by
  refine control_canonical _ _ _ h (State.wf_taskRead _ _ _ h fun u v _ hu => ?_)
  split
  · simpa using hu
  · split
    · simpa using hu
    · refine State.wf_taskRead _ _ _ hu fun u t _ hu => ?_
      repeat' split
      all_goals simpa using hu

theorem mts_canonical (g : Guard) (a : Reg) (num : BitVec 12) (h : s.mem.wf) : Canonical (execMts g a num s) := by
  refine control_canonical _ _ _ h ?_
  split
  · simpa using h
  · refine State.wf_settling _ h fun u hu => ?_
    cases e : u.writeSpecial num.toNat (u.reg a) with
    | none => simpa [e] using hu
    | some t => simpa [State.writeSpecial_mem u t e] using hu

theorem qpost_canonical (g : Guard) (d a b : Reg) (h : s.mem.wf) : Canonical (execQpost g d a b s) := by
  refine control_canonical _ _ _ h (State.wf_settling _ h fun u hu => ?_)
  dsimp only
  split
  · simpa using hu
  split
  · simpa using hu
  split
  · simpa using hu
  · simpa using State.wf_post _ _ _ _ _ hu

theorem fence_canonical (g : Guard) (before after : BitVec 8) (h : s.mem.wf) :
    Canonical (execFence g before after s) := by
  refine control_canonical _ _ _ h ?_
  dsimp only
  rw [State.stepPc_mem, State.bump_mem, State.modHere_mem]
  split
  · exact State.wf_foldl _ _ (fun t _ ht => State.wf_writeBack t _ _ ht) s h
  · exact h

theorem safe_canonical (g : Guard) (live : BitVec 17) (h : s.mem.wf) : Canonical (execSafe g live s) := by
  unfold execSafe
  dsimp only
  repeat' split
  all_goals simpa using h

theorem sstop_canonical (g : Guard) (d b : Reg) (keep : Bool) (h : s.mem.wf) : Canonical (execSstop g d b keep s) := by
  unfold execSstop
  split
  · refine onStream_canonical _ _ h ?_
    split <;> simpa using h
  · refine control_canonical _ _ _ h (State.wf_settling _ h fun u hu => ?_)
    split <;> simpa using hu

theorem nop_canonical (g : Guard) (h : s.mem.wf) : Canonical (execNop g s) := by
  unfold execNop
  split
  · split <;> simpa using h
  · exact control_canonical _ _ _ h (by simpa using h)

theorem endJoin_canonical (h : s.mem.wf) : Canonical (execEndJoin s) := by
  unfold execEndJoin
  dsimp only
  split <;> simpa using h

theorem illegalInstruction_canonical (w : BitVec 32) (h : s.mem.wf) : Canonical (execIllegalInstruction w s) := by
  unfold execIllegalInstruction
  dsimp only
  repeat' split
  all_goals simpa using h

theorem scopy_canonical (g : Guard) (d : Pred) (a b : Reg) (h : s.mem.wf) : Canonical (execScopy g d a b s) := by
  refine streamWord_canonical _ _ _ _ _ _ h fun u hu => ?_
  split
  · trivial
  · split
    · trivial
    · exact queueCmd_canonical _ _ _ hu

theorem sim2c_canonical (g : Guard) (d : Pred) (a b : Reg) (h : s.mem.wf) : Canonical (execSim2c g d a b s) := by
  refine streamWord_canonical _ _ _ _ _ _ h fun u hu => ?_
  dsimp only
  split
  · trivial
  split
  · trivial
  split
  · trivial
  · exact queueCmd_canonical _ _ _ hu

theorem sgath_canonical (g : Guard) (d : Pred) (a b : Reg) (m : BitVec 7) (h : s.mem.wf) :
    Canonical (execSgath g d a b m s) := by
  refine streamWord_canonical _ _ _ _ _ _ h fun u hu => ?_
  dsimp only
  split
  · trivial
  split
  · trivial
  split
  · trivial
  split
  · trivial
  split
  · trivial
  · exact queueCmd_canonical _ _ _ hu

theorem mmul_canonical (ks : BitVec 7) (rows : BitVec 6) (h : s.mem.wf) : Canonical (execMmul ks rows s) := by
  refine productWord_canonical _ _ h ?_
  split
  · simp
  · simpa using h

theorem mgmul_canonical (ks : BitVec 7) (list : BitVec 12) (n : BitVec 6) (h : s.mem.wf) :
    Canonical (execMgmul ks list n s) := by
  unfold execMgmul
  extract_lets c bytes k idx sca sig l full run
  have hrun : (run s).Canonical := by
    dsimp only [run]
    repeat' split
    all_goals simpa using h
  split
  · exact productWord_canonical _ _ h hrun
  · exact matrixWord_canonical _ _ h hrun

end

section
variable {s : State}

/-! ## The events that write memory, and those with branches of their own -/

theorem State.wf_takeTokens {t : State} {c n : Nat} {b : Bool} (e : s.takeTokens c n = (t, b)) (h : s.mem.wf) :
    t.mem.wf := by
  have := State.takeTokens_mem s c n
  rw [e] at this
  exact this ▸ h

theorem State.wf_fw (f : State → State) (h : s.mem.wf) (hf : (f s).mem.wf) : (s.fw f).mem.wf := by
  unfold State.fw
  split
  · exact hf
  · exact h

theorem matrixPass_canonical (c : Nat) (h : s.mem.wf) : Canonical (execMatrixPass c s) := by
  unfold execMatrixPass
  dsimp only
  split
  · simpa using h
  · generalize (nextFirings (s.core c).mx.todo []).foldl (fun n f => min n f.s) 4096 = st
    have hstart : (startAll c st (s.core c).mx.todo [] false [] [] s).1.mem.wf := by rwa [startAll_mem]
    split <;> rename_i e <;> rw [e] at hstart <;> simpa using hstart

theorem taskCommit_canonical (c idx : Nat) (h : s.mem.wf) : Canonical (execTaskCommit c idx s) := by
  unfold execTaskCommit
  split
  · simpa using h
  · rename_i m _
    split
    · simpa using h
    split
    · split <;> simpa using h
    · split
      · simpa using h
      · dsimp only
        split
        · simpa using h
        · simpa using State.wf_applyTo s c _ m h
    · split
      · simpa using h
      · split <;> simpa using h
    · split
      · simpa using h
      · rename_i o _ _
        have ho : (s.deliverOut c m.launch o).1.mem.wf := by rwa [State.deliverOut_mem]
        split <;> rename_i e <;> rw [e] at ho <;> simpa using ho

theorem ldgLineArrival_canonical (c idx : Nat) (h : s.mem.wf) : Canonical (execLdgLineArrival c idx s) := by
  unfold execLdgLineArrival
  dsimp only
  split
  · simpa using h
  · split
    · simpa using h
    split
    · simpa using h
    · split
      · rename_i e
        simpa using State.wf_takeTokens e h
      · rename_i t e
        have ht := State.wf_takeTokens e h
        split
        · simpa using State.wf_ldgLine _ _ _ _ (by simpa using State.wf_walkedLines t _ _ _ _ ht)
        · simpa using State.wf_ldgLine t _ _ _ ht

theorem stgWriteComplete_canonical (c idx : Nat) (h : s.mem.wf) : Canonical (execStgWriteComplete c idx s) := by
  unfold execStgWriteComplete
  dsimp only
  split
  · simpa using h
  · split
    · simpa using h
    split
    · simpa using h
    · split
      · rename_i e
        simpa using State.wf_takeTokens e h
      · rename_i e
        have ht := State.wf_takeTokens e h
        split
        · simpa using ht
        · rename_i e
          simpa using wf_stgWrites _ _ _ _ _ e ht

theorem detentAtomic_canonical (cl : Nat) (h : s.mem.wf) : Canonical (execDetentAtomic cl s) := by
  unfold execDetentAtomic
  dsimp only
  split
  · simpa using h
  split
  · simpa using h
  split
  · rename_i e
    simpa using State.wf_takeTokens e h
  · rename_i e
    have ht := State.wf_takeTokens e h
    simpa using State.wf_detentAt _ _ _ _ (State.wf_keyed _ _ _ _ (by simpa using State.wf_walked _ _ _ _ ht))

theorem atomicDepositArrival_canonical (c idx : Nat) (h : s.mem.wf) : Canonical (execAtomicDepositArrival c idx s) := by
  unfold execAtomicDepositArrival
  dsimp only
  split
  · simpa using h
  split
  · simpa using h
  split
  · simpa using h
  · rw [canonical_next, State.modChain_mem]
    split
    · simpa using h
    · rw [State.fillLine_mem]
      exact State.wf_spStore _ _ _ _ _ _ (by simpa using h)

theorem scratchpadAtomicStep_canonical (c : Nat) (h : s.mem.wf) : Canonical (execScratchpadAtomicStep c s) := by
  unfold execScratchpadAtomicStep
  dsimp only
  split
  · simpa using h
  split
  · simpa using h
  · rw [canonical_next, State.answer_mem]
    split
    · simpa using h
    · exact State.wf_spStore _ _ _ _ _ _ (by simpa using h)

theorem pageWalk_canonical (p die : Nat) (va : BitVec 64) (h : s.mem.wf) : Canonical (execPageWalk p die va s) := by
  unfold execPageWalk
  dsimp only
  split
  · simpa using h
  split
  · simpa using h
  · simpa using State.wf_walked s die p _ h

/-- As `State.wf_takeTokens`, where an access without a global byte takes none. -/
theorem wf_tokensTaken {t : State} {c g : Nat} {b : Bool}
    (e : (if g = 0 then (s, true) else s.takeTokens c g) = (t, b)) (h : s.mem.wf) : t.mem.wf := by
  split at e
  · cases e
    exact h
  · exact State.wf_takeTokens e h

theorem streamSourceToken_canonical (c port : Nat) (h : s.mem.wf) : Canonical (execStreamSourceToken c port s) := by
  unfold execStreamSourceToken
  dsimp only
  split
  · simpa using h
  · rename_i r _
    split
    · simpa using h
    split
    · simpa using h
    · split <;> simpa using h
    · rename_i l rest _
      split
      · simpa using h
      split
      · simpa using h
      split
      · rename_i e
        simpa using wf_tokensTaken e h
      · rename_i t e
        have ht := State.wf_readElems (s := t) c (Desc.size r.cmd.d) (Desc.pad r.cmd.d) l (wf_tokensTaken e h)
        split
        · simpa [State.foldl_mem (fun s x => State.consumed_mem s x)] using ht
        · simpa using ht

theorem streamSinkToken_canonical (c port : Nat) (h : s.mem.wf) : Canonical (execStreamSinkToken c port s) := by
  unfold execStreamSinkToken
  dsimp only
  split
  · rename_i r t _ _ _
    split
    · simpa using h
    split
    · simpa using h
    split
    · rename_i l rest _
      split
      · simpa using h
      split
      · simpa using h
      split
      · rename_i e
        simpa using wf_tokensTaken e h
      · rename_i u e
        have ht := State.wf_writeElems c (Desc.size r.cmd.d) t.value.toNat t.poison (u, r.mask) l
          (wf_tokensTaken e h)
        rw [canonical_next, State.modPort_mem]
        split
        · exact State.wf_foldl _ _ (fun s x hs => by rwa [State.fillLine_mem]) _ ht
        · exact ht
    · simpa using h
  · simpa using h

theorem sinkCompletionSweep_canonical (launch : Nat) (h : s.mem.wf) : Canonical (execSinkCompletionSweep launch s) := by
  unfold execSinkCompletionSweep
  split
  · simpa using h
  split
  · simpa using h
  split
  · simpa using h
  · rw [canonical_next, State.modLaunch_mem]
    refine State.wf_foldl _ _ (fun s x hs => ?_) _ h
    split
    · split
      · exact hs
      · exact State.wf_foldl _ _ (fun s x hs => by simpa using hs) _ hs
    · exact hs

theorem snapshotApply_canonical (c idx : Nat) (h : s.mem.wf) : Canonical (execSnapshotApply c idx s) := by
  unfold execSnapshotApply
  split
  · simpa using h
  split
  · split
    · simpa using h
    · simpa using State.wf_applySnapshot s _ _ _ h
  · simpa using h

theorem subscriptionUpdateApply_canonical (c idx : Nat) (h : s.mem.wf) :
    Canonical (execSubscriptionUpdateApply c idx s) := by
  unfold execSubscriptionUpdateApply
  split
  · simpa using h
  split
  · split
    · simpa using h
    · simpa [State.fillEntry_mem] using State.wf_lineStore s _ _ _ _ _ h
  · simpa using h

theorem circuitTokenTransfer_canonical (idx hop : Nat) (h : s.mem.wf) :
    Canonical (execCircuitTokenTransfer idx hop s) := by
  unfold execCircuitTokenTransfer
  dsimp only
  split
  · simpa using h
  split
  · simpa using h
  split
  · rename_i e
    rw [canonical_next, State.crossed_mem]
    split at e
    · simpa [State.dataHop_mem _ e] using h
    · simpa [State.requestHop_mem _ e] using h
  · simpa using h

theorem rowTagArrival_canonical (c port : Nat) (h : s.mem.wf) : Canonical (execRowTagArrival c port s) := by
  unfold execRowTagArrival
  dsimp only
  split
  · simpa using h
  split
  · simpa using h
  split
  · split
    · simpa using h
    split
    · simpa using h
    · rename_i e
      simpa [State.srcDeliver_mem _ e] using h
  · simpa using h

theorem nodeNaming_canonical (launch node port : Nat) (h : s.mem.wf) :
    Canonical (execNodeNaming launch node port s) := by
  unfold execNodeNaming
  split
  · simpa using h
  split
  · simpa using h
  split
  · simpa using h
  split
  · simpa using h
  · simpa using State.wf_nameAt s _ _ _ _ _ _ _ h

theorem nameLookup_canonical (launch node port : Nat) (h : s.mem.wf) :
    Canonical (execNameLookup launch node port s) := by
  unfold execNameLookup
  dsimp only
  split
  · simpa using h
  · rename_i l _ gn _
    split
    · simpa using h
    split
    · rename_i n _ _
      have := State.wf_lookup s (dieOf ((s.nodeCore l gn).getD 0)) l.part n h
      split <;> rename_i e <;> rw [e] at this <;> simpa using this
    · simpa using h

theorem demandRequest_canonical (launch node : Nat) (h : s.mem.wf) : Canonical (execDemandRequest launch node s) := by
  unfold execDemandRequest
  split
  · simpa using h
  split
  · split
    · simpa using h
    · rw [canonical_next]
      refine State.wf_foldl _ _ (fun s x hs => ?_) _ h
      split <;> simpa using hs
  · rw [canonical_next]
    refine State.wf_foldl _ _ (fun s x hs => ?_) _ h
    split
    · exact hs
    split
    · simpa using hs
    split
    · exact State.wf_foldl _ _ (fun s x hs => by simpa using hs) _ hs
    · exact hs

theorem anchorServe_canonical (launch node port : Nat) (h : s.mem.wf) :
    Canonical (execAnchorServe launch node port s) := by
  unfold execAnchorServe
  dsimp only
  split
  · simpa using h
  split
  · split
    · simpa using h
    split
    · simpa using h
    split
    · split
      · simpa using h
      · split <;> simpa using h
    · split
      · simpa using h
      split
      · simpa using h
      · rename_i e
        have ht := State.wf_gRead e h
        rw [canonical_next]
        have hmark (p : Nat) (n : BitVec 128) (b : Bool) (u : State) (hu : u.mem.wf) :
            (if b = true then u.markPoisoned p n else u).mem.wf := by
          split
          · exact State.wf_markPoisoned u _ _ hu
          · exact hu
        split
        · simpa using hmark _ _ _ _ ht
        · simpa using hmark _ _ _ _ ht
    · split
      · simpa using h
      · split <;> simpa using h
  · simpa using h

theorem retention_canonical (launch node port : Nat) (h : s.mem.wf) : Canonical (execRetention launch node port s) := by
  unfold execRetention
  dsimp only
  split
  · simpa using h
  split
  · simpa using h
  split
  · split
    · simpa using h
    · simpa using State.wf_retain _ _ _ _ _ _ _ (by simpa using h)
  · simpa using h

theorem nlookDeposit_canonical (p idx : Nat) (h : s.mem.wf) : Canonical (execNlookDeposit p idx s) := by
  unfold execNlookDeposit
  dsimp only
  split
  · simpa using h
  split
  · split
    · simpa using h
    · rw [canonical_next, State.modChain_mem, State.fillLine_mem]
      refine State.wf_spStore _ _ _ _ _ _ ?_
      rw [State.dropRequest_mem]
      split
      · exact h
      · exact State.wf_lookup s _ _ _ h
  · simpa using h

theorem nameEngineStatus_canonical (p idx : Nat) (h : s.mem.wf) : Canonical (execNameEngineStatus p idx s) := by
  unfold execNameEngineStatus
  dsimp only
  split
  · simpa using h
  split
  · simpa using h
  split
  · simpa using h
  · simpa using State.wf_nins s _ _ _ _ h
  · simpa using State.wf_nevict s _ _ _ h

end

section
variable {s : State}

theorem commandRead_canonical (q : Nat) (h : s.mem.wf) : Canonical (execCommandRead q s) := by
  unfold execCommandRead
  split
  · simpa using State.wf_checkCommand s q h
  · simpa using h

theorem commandRetryTimeout_canonical (q : Nat) (h : s.mem.wf) : Canonical (execCommandRetryTimeout q s) := by
  unfold execCommandRetryTimeout
  dsimp only
  split
  · simpa using h
  split
  · simpa using State.wf_checkCommand s q h
  · simpa using h

theorem runJob_canonical (q : Nat) (h : s.mem.wf) : Canonical (execRunJob q s) := by
  unfold execRunJob
  dsimp only
  split
  · simpa using h
  split
  · simpa using h
  split
  · simpa using State.wf_earlyJob s _ _ _ h
  split
  · simpa using State.wf_beginPhase _ _ (by simpa using State.wf_consume s _ _ _ h)
  · simpa using State.wf_consume s _ _ _ h

theorem cancelJob_canonical (q : Nat) (h : s.mem.wf) : Canonical (execCancelJob q s) := by
  unfold execCancelJob
  dsimp only
  split
  · simpa using h
  split
  · simpa using h
  split
  · split <;> simpa using State.wf_consume s _ _ _ h
  · simpa using State.wf_consume s _ _ _ h

theorem strideDispatch_canonical (h : s.mem.wf) : Canonical (execStrideDispatch s) := by
  unfold execStrideDispatch
  repeat' split
  all_goals simpa using h

theorem launchNodeDispatch_canonical (gr node : Nat) (h : s.mem.wf) : Canonical (execLaunchNodeDispatch gr node s) := by
  refine dispatch_canonical _ _ _ _ h fun g j x u hu => ?_
  split
  · split
    · simpa using hu
    · exact State.wf_arm _ _ _ _ (by simpa using hu)
  · simpa using hu

theorem condNodeDispatch_canonical (gr node : Nat) (h : s.mem.wf) : Canonical (execCondNodeDispatch gr node s) := by
  refine dispatch_canonical _ _ _ _ h fun g j x u hu => ?_
  have hp := State.wf_predicate u j.part x.arg0 hu
  split <;> rename_i e <;> rw [e] at hp <;> simpa using hp

theorem copyNodeComplete_canonical (gr node : Nat) (h : s.mem.wf) : Canonical (execCopyNodeComplete gr node s) := by
  unfold execCopyNodeComplete
  dsimp only
  split
  · simpa using h
  split
  · rename_i x j _ _
    split
    · simpa using h
    split
    · simpa using h
    · rw [canonical_next, State.refresh_mem, State.endNode_mem]
      refine State.wf_foldl _ _ (fun t y ht => ?_) _ ?_
      · cases e : t.regWrite j.part (x.arg1.toNat + y.1) y.2.1 y.2.2 with
        | none => exact ht
        | some u => exact State.wf_regWrite e ht
      · refine List.foldlRecOn
          (motive := fun a : State × List (Nat × List Byte × Bool) => a.1.mem.wf) _ _ h fun a ha o _ => ?_
        split
        · rename_i e
          exact State.wf_regRead e ha
        · exact ha
  · simpa using h

theorem loopIterationEnd_canonical (gr node : Nat) (h : s.mem.wf) : Canonical (execLoopIterationEnd gr node s) := by
  unfold execLoopIterationEnd
  dsimp only
  split
  · simpa using h
  split
  · rename_i x j _ _
    split
    · simpa using h
    have hp := State.wf_predicate s j.part x.arg0 h
    split <;> rename_i e <;> rw [e] at hp
    · simpa using hp
    · split <;> simpa using hp
  · simpa using h

theorem nodeFinish_canonical (gr node : Nat) (h : s.mem.wf) : Canonical (execNodeFinish gr node s) := by
  unfold execNodeFinish
  dsimp only
  repeat' split
  all_goals simpa using h

theorem launchCompletion_canonical (launch : Nat) (h : s.mem.wf) : Canonical (execLaunchCompletion launch s) := by
  unfold execLaunchCompletion
  split
  · simpa using h
  split
  · split
    · simpa using h
    split <;> simpa using h
  · split
    · simpa using h
    · simpa using State.wf_record s _ _ h

theorem phaseBoundary_canonical (job : Nat) (h : s.mem.wf) : Canonical (execPhaseBoundary job s) := by
  unfold execPhaseBoundary
  dsimp only
  split
  · simpa using h
  split
  · simpa using h
  · simpa using State.wf_beginPhase _ _ (by simpa using h)

theorem replicaCopyComplete_canonical (p : Nat) (ok : Bool) (h : s.mem.wf) :
    Canonical (execReplicaCopyComplete p ok s) := by
  unfold execReplicaCopyComplete
  split
  · rename_i c r _ _
    extract_lets t fail orig
    have hfail (u : State) (hu : u.mem.wf) : (fail u).mem.wf := wf_repGo _ _ _ _ (by simpa using hu)
    split
    · dsimp only
      split
      · simpa using hfail t h
      · rw [canonical_next, State.refresh_mem]
        exact wf_repGo _ _ _ _ (State.wf_copyExpert t _ _ _ _ _ _ h)
    · simpa using hfail t h
  · simpa using h

theorem jobCompletion_canonical (job : Nat) (h : s.mem.wf) : Canonical (execJobCompletion job s) := by
  unfold execJobCompletion
  dsimp only
  split
  · simpa using h
  split
  · simpa using h
  · simpa using State.wf_complete s _ _ _ _ _ h

theorem tokenRefill_canonical (h : s.mem.wf) : Canonical (execTokenRefill s) := by
  unfold execTokenRefill
  dsimp only
  split
  · simpa using h
  · rw [canonical_next]
    exact State.wf_foldl _ _ (fun t _ ht => by simpa using ht) _ h

theorem faultRecordWrite_canonical (fq : FqId) (h : s.mem.wf) : Canonical (execFaultRecordWrite fq s) := by
  unfold execFaultRecordWrite
  dsimp only
  split
  · simpa using h
  split
  · simpa using h
  split
  · simpa using h
  split
  · simpa using h
  · rename_i e
    have ht := State.wf_writeRec e h
    split <;> simpa using ht

theorem clusterSave_canonical (p vcl : Nat) (h : s.mem.wf) : Canonical (execClusterSave p vcl s) := by
  unfold execClusterSave
  dsimp only
  split
  · simpa using h
  split
  · simpa using h
  · rw [canonical_next, State.modPart_mem]
    exact State.wf_foldl _ _ (fun t _ ht => by simpa using ht) _ (State.wf_renumber _ _)

theorem resume_canonical (p : Nat) (h : s.mem.wf) : Canonical (execResume p s) := by
  unfold execResume
  split
  · simpa using h
  split
  · simpa using h
  split
  · simpa using h
  split
  · simpa using h
  · simpa using State.wf_restore s _ _

theorem uncorrectableError_canonical (w : SramWhere) (h : s.mem.wf) : Canonical (execUncorrectableError w s) := by
  unfold execUncorrectableError
  rw [canonical_next]
  cases w with
  | scratchpadLine c line =>
    dsimp only
    split
    · exact h
    · simpa using State.wf_lose s _ _ h
  | nameCacheEntry die idx =>
    dsimp only
    split <;> exact h
  | instructionWord | taskEntry | configRegion => simpa using h
  | dependenceEntry gr =>
    dsimp only
    split
    · exact h
    · split <;> simpa using h

theorem hbmUncorrectableError_canonical (unit : Nat) (h : s.mem.wf) : Canonical (execHbmUncorrectableError unit s) := by
  unfold execHbmUncorrectableError
  split
  · simpa using h
  · simpa using State.wf_lose s _ _ h

theorem bar2HostAccess_canonical (acc : HostAccess) (h : s.mem.wf) : Canonical (execBar2HostAccess acc s) := by
  unfold execBar2HostAccess
  rw [canonical_next]
  cases acc with
  | read off size => exact State.wf_hostRead s _ _ h
  | write off bytes ep => exact State.wf_hostWrite s _ _ _ h
  | hostMemory addr bytes ep => exact State.wf_hostBytes s _ _ h
  | _ => simpa using h

theorem powerLimitStep_canonical (watts : Nat) (h : s.mem.wf) : Canonical (execPowerLimitStep watts s) := by
  unfold execPowerLimitStep
  dsimp only
  split
  · simpa using h
  split
  · rw [canonical_next]
    exact State.wf_foldl _ _ (fun t _ ht => by simpa using ht) _ h
  · simpa using h

theorem objectLoad_canonical (p : Nat) (file : List (BitVec 8)) (h : s.mem.wf) :
    Canonical (execObjectLoad p file s) := by
  unfold execObjectLoad
  dsimp only
  split
  · simpa using h
  split
  · simpa using State.wf_continueLoad s _ _ h
  split
  · simpa using State.wf_addObject s _ _ h
  · split <;> simpa using h
end

theorem exec_canonical (i : Instr) {s : State} (h : s.mem.wf) : Canonical (exec i s) := by
  cases i with
  -- The words of the control sequencer.
  | add | sub | mul | mulh | mulhn | div | divn | rem | remn | and | or | xor | shl | shr | sra | rot | min | max
  | minn | maxn =>
    dsimp -zeta only [exec, execAdd, execSub, execMul, execMulh, execMulhn, execDiv, execDivn, execRem, execRemn
      , execAnd, execOr, execXor, execShl, execShr, execSra, execRot, execMin, execMax, execMinn, execMaxn]
    exact alu_canonical _ _ _ _ _ h
  | clz | ctz | popc | addi | andi | ori | xori | shi | bextZ | bextS =>
    dsimp -zeta only [exec, execClz, execCtz, execPopc, execAddi, execAndi, execOri, execXori, execShi, execBextZ
      , execBextS]
    exact alu1_canonical _ _ _ _ h
  | bextZReg | binsReg | bextSReg =>
    dsimp -zeta only [exec, execBextZReg, execBinsReg, execBextSReg]
    exact fieldReg_canonical _ _ _ _ _ h
  | sel | bins | li | lui | cmp | cmpi | pand | por | pnot | lpad | trap | tlook | waitc =>
    dsimp -zeta only [exec, execSel, execBins, execLi, execLui, execCmp, execCmpi, execPand, execPor, execPnot
      , execLpad, execTrap, execTlook, execWaitc]
    exact control_canonical _ _ _ h (by simpa using h)
  | mfs | cnct | eret =>
    dsimp -zeta only [exec, execMfs, execCnct, execEret]
    refine control_canonical _ _ _ h ?_
    repeat' split
    all_goals simpa using h
  | brk | recv | send | spawn | bartest | nlook | ftest =>
    dsimp -zeta only [exec, execBrk, execRecv, execSend, execSpawn, execBartest, execNlook, execFtest]
    refine control_canonical _ _ _ h ?_
    dsimp only
    repeat' split
    all_goals simpa using h
  | ldZ | ldS =>
    dsimp -zeta only [exec, execLdZ, execLdS]
    exact control_canonical _ _ _ h (State.wf_taskRead _ _ _ h fun u v t hu => by simpa using hu)
  | b | ret =>
    dsimp -zeta only [exec, execB, execRet]
    exact control_canonical _ _ _ h (State.wf_transfer _ _ h fun u hu => hu)
  | call =>
    dsimp -zeta only [exec, execCall]
    exact control_canonical _ _ _ h (State.wf_transfer _ _ h fun u hu => by simpa using hu)
  | forkMatrix | forkStream | bar | subs | unsubs | amo | amocas =>
    dsimp -zeta only [exec, execForkMatrix, execForkStream, execBar, execSubs, execUnsubs, execAmo, execAmocas]
    refine control_canonical _ _ _ h (State.wf_settling _ h fun u hu => ?_)
    dsimp only [atomicIssue]
    repeat' split
    all_goals simpa using hu
  | tset | tclr | cncl | sflush =>
    dsimp -zeta only [exec, execTset, execTclr, execCncl, execSflush]
    refine control_canonical _ _ _ h (State.wf_settling _ h fun u hu => ?_)
    repeat' split
    all_goals simpa using hu
  | endTask | rdv =>
    dsimp -zeta only [exec, execEndTask, execRdv]
    exact controlEnd_canonical _ _ _ h (by simpa [State.endTask_mem] using h)
  | yield =>
    dsimp -zeta only [exec, execYield]
    refine controlEnd_canonical _ _ _ h ?_
    dsimp only
    repeat' split
    all_goals simpa [State.endTask_mem] using h
  | fsetFull | fsetEmpty =>
    dsimp -zeta only [exec, execFsetFull, execFsetEmpty]
    exact fset_canonical _ _ _ h
  | nins | nevict =>
    dsimp -zeta only [exec, execNins, execNevict]
    exact nameStatus_canonical _ _ _ _ _ h
  | sbind =>
    dsimp -zeta only [exec, execSbind]
    exact streamWord_canonical _ _ _ _ _ _ h fun u hu => bindPort_canonical _ _ hu
  | st => exact st_canonical _ _ _ _ _ h
  | stg => exact stg_canonical _ _ _ _ h
  | ldg => exact ldg_canonical _ _ _ _ h
  | jt => exact jt_canonical _ _ _ h
  | mts => exact mts_canonical _ _ _ h
  | qpost => exact qpost_canonical _ _ _ _ h
  | fence => exact fence_canonical _ _ _ h
  | safe => exact safe_canonical _ _ h
  | sstop => exact sstop_canonical _ _ _ _ h
  | scopy => exact scopy_canonical _ _ _ _ h
  | sim2c => exact sim2c_canonical _ _ _ _ h
  | sgath => exact sgath_canonical _ _ _ _ _ h
  | nop => exact nop_canonical _ h
  | endJoin => exact endJoin_canonical h
  | illegalInstruction => exact illegalInstruction_canonical _ h
  -- The words of the matrix unit.
  | mza | mldaScratchpad | mldaPort | mldb | mjoin | mfmt =>
    dsimp -zeta only [exec, execMza, execMldaScratchpad, execMldaPort, execMldb, execMjoin, execMfmt]
    exact matrixWord_canonical _ _ h (by simpa using h)
  | mzo | mwin | mscaleUnit | mcoopOn | mcoopOff =>
    dsimp -zeta only [exec, execMzo, execMwin, execMscaleUnit, execMcoopOn, execMcoopOff]
    refine matrixWord_canonical _ _ h ?_
    split <;> simpa using h
  | mscale | mrd | mtpld | mbal =>
    dsimp -zeta only [exec, execMscale, execMrd, execMtpld, execMbal]
    refine matrixWord_canonical _ _ h ?_
    dsimp only
    repeat' split
    all_goals simpa using h
  | mst | mxpose | mtopk | mtdist =>
    dsimp -zeta only [exec, execMst, execMxpose, execMtopk, execMtdist]
    refine matrixWord_canonical _ _ h ?_
    dsimp only
    repeat' split
    all_goals simp only [Mres.canonical_ok, Mres.canonical_wait, Mres.canonical_fault]
    all_goals exact State.wf_lineWrites _ _ _ _ h
  | mtpstPlan | mtpstPotentials | mtpstRelease =>
    dsimp -zeta only [exec, execMtpstPlan, execMtpstPotentials, execMtpstRelease]
    refine matrixWord_canonical _ _ h (storeTile_canonical fun x => ?_)
    simpa using State.wf_lineWrites _ _ _ _ h
  | mmul => exact mmul_canonical _ _ h
  | mgmul => exact mgmul_canonical _ _ _ h
  -- The words of the lanes.
  | efcmp | esel =>
    dsimp -zeta only [exec, execEfcmp, execEsel]
    exact elementOp_canonical _ _ _ _ h
  | eiadd | eisub | eimul | eimac | eimin | eimax | eiand | eior | eixor | eishl | eishr | eisra | eicmp =>
    dsimp -zeta only [exec, execEiadd, execEisub, execEimul, execEimac, execEimin, execEimax, execEiand, execEior
      , execEixor, execEishl, execEishr, execEisra, execEicmp]
    exact intOp_canonical _ _ _ h
  | efadd | efsub | efmul | effma | efmin | efmax =>
    dsimp -zeta only [exec, execEfadd, execEfsub, execEfmul, execEffma, execEfmin, execEfmax]
    exact floatOp_canonical _ _ _ h
  | ecvt | eexp2 | elog2 | ercp | else2 | esteer | emerge | eexit | erep | emark | estrip | ecount | ered | econst
  | epass | edrop | ebq | ebdq =>
    dsimp -zeta only [exec, execEcvt, execEexp2, execElog2, execErcp, execElse2, execEsteer, execEmerge, execEexit
      , execErep, execEmark, execEstrip, execEcount, execEred, execEconst, execEpass, execEdrop, execEbq, execEbdq]
    exact shoot_canonical _ _ h
  | eld | est | ermw =>
    dsimp -zeta only [exec, execEld, execEst, execErmw]
    exact memoryNode_canonical _ _ h
  -- The events that issue a node of a graph.
  | copyNodeDispatch | loopNodeDispatch | barNodeDispatch | doneNodeDispatch =>
    dsimp -zeta only [exec, execCopyNodeDispatch, execLoopNodeDispatch, execBarNodeDispatch, execDoneNodeDispatch]
    exact dispatch_canonical _ _ _ _ h fun g j x u hu => by simpa using hu
  -- The events that write memory without a branch.
  | homeRecall =>
    dsimp -zeta only [exec, execHomeRecall]
    simpa using State.wf_writeBack s _ _ h
  | memoryNodeReply =>
    dsimp -zeta only [exec, execMemoryNodeReply]
    simpa using State.wf_nodeReply s _ _ h
  | recordCheckpoint =>
    dsimp -zeta only [exec, execRecordCheckpoint]
    simpa using State.wf_checkpoint s _ h
  | shapeWordArrival =>
    dsimp -zeta only [exec, execShapeWordArrival]
    split
    · simpa using h
    · simpa using State.wf_resolve s _ _ _ _ _ h
  | controlNameResolve =>
    dsimp -zeta only [exec, execControlNameResolve]
    split
    · simpa using State.wf_resolve s _ _ _ _ _ h
    · simpa using h
  | deviceReset =>
    dsimp -zeta only [exec, execDeviceReset]
    simpa using hostPart_wf h
  | modeRegisterWrite | translationInvalidate =>
    dsimp -zeta only [exec, execModeRegisterWrite, execTranslationInvalidate]
    simpa using State.wf_fw _ h (by simpa using h)
  | supervisorRegisterWrite =>
    dsimp -zeta only [exec, execSupervisorRegisterWrite]
    simpa using State.wf_fw _ h (by simpa [State.superWrite_mem] using h)
  | supervisorRetry =>
    dsimp -zeta only [exec, execSupervisorRetry]
    split
    · simpa using h
    · simpa using State.wf_fw _ h (by simpa using h)
  -- The events with branches that leave memory as it is.
  | rowFiring | mrdOutputDrain | matrixWordComplete | taskDispatch | instanceAged | continuationWake
  | preemptForcedStop | registerReplyArrival | unitCompletion | cancelArrival | streamCommandStart
  | streamCommandComplete | snapshotRequest | coalesceWindowClose | backlogWrite | unsubsArrival | removalMarkPass
  | ringPacketEntry | reductionMerge | holdRelease | queueNotify | queueDescriptorWrite | faultQueueDescriptorWrite
  | nameDomainSet | preemptRequest | quiescence | debugHaltRequest | scrub | linkRetransmit | keyUpdate | keyExchange
  | chronographLatch | imageLengthWrite | getMeasurements | challenge | getCertificate | readTemperatures
  | setPowerLimit | setDvfsFloorCeiling | setChronographT | readErrorCounters | requestPreemption | requestResume
  | setPartitionMode | dvfsMonitorWindow | objectUnload | correctedSingleBitError =>
    dsimp only [exec, execRowFiring, execMrdOutputDrain, execMatrixWordComplete, execTaskDispatch, execInstanceAged
      , execContinuationWake, execPreemptForcedStop, execRegisterReplyArrival, execUnitCompletion, execCancelArrival
      , execStreamCommandStart, execStreamCommandComplete, execSnapshotRequest, execCoalesceWindowClose
      , execBacklogWrite, execUnsubsArrival, execRemovalMarkPass, execRingPacketEntry, execReductionMerge
      , execHoldRelease, execQueueNotify, execQueueDescriptorWrite, execFaultQueueDescriptorWrite, execNameDomainSet
      , execPreemptRequest, execQuiescence, execDebugHaltRequest, execScrub, execLinkRetransmit, execKeyUpdate
      , execKeyExchange, execChronographLatch, execImageLengthWrite, execGetMeasurements, execChallenge
      , execGetCertificate, execReadTemperatures, execSetPowerLimit, execSetDvfsFloorCeiling, execSetChronographT
      , execReadErrorCounters, execRequestPreemption, execRequestResume, execSetPartitionMode, execDvfsMonitorWindow
      , execObjectUnload, execCorrectedSingleBitError]
    repeat' split
    all_goals simpa using h
  -- The events that write memory, and those with folds.
  | matrixPass => exact matrixPass_canonical _ h
  | taskCommit => exact taskCommit_canonical _ _ h
  | ldgLineArrival => exact ldgLineArrival_canonical _ _ h
  | stgWriteComplete => exact stgWriteComplete_canonical _ _ h
  | detentAtomic => exact detentAtomic_canonical _ h
  | atomicDepositArrival => exact atomicDepositArrival_canonical _ _ h
  | scratchpadAtomicStep => exact scratchpadAtomicStep_canonical _ h
  | pageWalk => exact pageWalk_canonical _ _ _ h
  | streamSourceToken => exact streamSourceToken_canonical _ _ h
  | streamSinkToken => exact streamSinkToken_canonical _ _ h
  | sinkCompletionSweep => exact sinkCompletionSweep_canonical _ h
  | snapshotApply => exact snapshotApply_canonical _ _ h
  | subscriptionUpdateApply => exact subscriptionUpdateApply_canonical _ _ h
  | circuitTokenTransfer => exact circuitTokenTransfer_canonical _ _ h
  | rowTagArrival => exact rowTagArrival_canonical _ _ h
  | nodeNaming => exact nodeNaming_canonical _ _ _ h
  | nameLookup => exact nameLookup_canonical _ _ _ h
  | demandRequest => exact demandRequest_canonical _ _ h
  | anchorServe => exact anchorServe_canonical _ _ _ h
  | retention => exact retention_canonical _ _ _ h
  | nlookDeposit => exact nlookDeposit_canonical _ _ h
  | nameEngineStatus => exact nameEngineStatus_canonical _ _ h
  | commandRead => exact commandRead_canonical _ h
  | commandRetryTimeout => exact commandRetryTimeout_canonical _ h
  | runJob => exact runJob_canonical _ h
  | cancelJob => exact cancelJob_canonical _ h
  | strideDispatch => exact strideDispatch_canonical h
  | launchNodeDispatch => exact launchNodeDispatch_canonical _ _ h
  | condNodeDispatch => exact condNodeDispatch_canonical _ _ h
  | copyNodeComplete => exact copyNodeComplete_canonical _ _ h
  | loopIterationEnd => exact loopIterationEnd_canonical _ _ h
  | nodeFinish => exact nodeFinish_canonical _ _ h
  | launchCompletion => exact launchCompletion_canonical _ h
  | phaseBoundary => exact phaseBoundary_canonical _ h
  | replicaCopyComplete => exact replicaCopyComplete_canonical _ _ h
  | jobCompletion => exact jobCompletion_canonical _ h
  | tokenRefill => exact tokenRefill_canonical h
  | faultRecordWrite => exact faultRecordWrite_canonical _ h
  | clusterSave => exact clusterSave_canonical _ _ h
  | resume => exact resume_canonical _ h
  | uncorrectableError => exact uncorrectableError_canonical _ h
  | hbmUncorrectableError => exact hbmUncorrectableError_canonical _ h
  | bar2HostAccess => exact bar2HostAccess_canonical _ h
  | powerLimitStep => exact powerLimitStep_canonical _ h
  | objectLoad => exact objectLoad_canonical _ _ h

/-- As `Canonical`, of what a turn comes to. -/
def Issue.Canonical : Issue → Prop
  | .done t => t.mem.wf
  | .run _ => True

@[simp] theorem Issue.canonical_done (t : State) : (Issue.done t).Canonical ↔ t.mem.wf := Iff.rfl
@[simp] theorem Issue.canonical_run (i : Instr) : (Issue.run i).Canonical ↔ True := Iff.rfl

section
variable {s : State}

theorem issue_canonical (h : s.mem.wf) : s.issue.Canonical := by
  unfold State.issue
  split
  · unfold State.issueControl
    dsimp only
    repeat' split
    all_goals simpa using h
  · unfold State.issueMatrix
    dsimp only
    repeat' split
    all_goals simpa using h
  · unfold State.issueStream
    dsimp only
    repeat' split
    all_goals simpa using h

theorem laneIssue_canonical (h : s.mem.wf) : s.laneIssue.Canonical := by
  unfold State.laneIssue
  dsimp only
  repeat' split
  all_goals simpa using h

theorem turn_canonical (t : Turn) (h : s.mem.wf) : (s.turn t).1.Canonical := by
  cases t with
  | issue c q =>
    unfold State.turn
    dsimp only
    split
    · exact issue_canonical h
    · exact h
  | lane c n =>
    unfold State.turn
    dsimp only
    split
    · exact laneIssue_canonical h
    · exact h
  | event i =>
    unfold State.turn
    dsimp only
    split
    · trivial
    · exact h
  | elapse cycles ticks => exact h

theorem step_canonical (h : s.mem.wf) : Canonical (step s) := by
  have hnext : s.nextTurn.2.mem.wf := by rwa [State.nextTurn_mem]
  have hdone := turn_canonical s.nextTurn.1 hnext
  have hrun : (s.nextTurn.2.turn s.nextTurn.1).2.mem.wf := by rwa [State.turn_mem]
  unfold step
  split <;> rename_i e
  · rw [e] at hrun
    exact exec_canonical _ hrun
  · rw [e] at hdone
    exact (canonical_next _).2 hdone

end

/-- Settles O43: the outcome of every instruction and of every event has its memory in the canonical form, because a
byte is listed only by `Memory.write`. -/
theorem stepKeepsMemoryForm : Obligations.StepKeepsMemoryForm := by
  unfold Obligations.StepKeepsMemoryForm
  exact fun s t h e => step_canonical h t e

end Sys2Proof.Machine
end


section
/-!
O8, O11: the windows of an access, and the tag table.
-/

namespace Sys2Proof.Machine

/-- An access lies in one core's window of the cluster space exactly when it starts in one and does not pass its
end. -/
theorem oneWindow_iff {off n : Nat} (hn : 0 < n) :
    (off + n ≤ 96 * 0x80000 ∧ off / 0x80000 = (off + n - 1) / 0x80000)
      ↔ off / 0x80000 < 96 ∧ off % 0x80000 + n ≤ 0x80000 := by
  omega

/-- Settles O8. -/
theorem addressSpacesAndWindows : Obligations.AddressSpacesAndWindows := by
  unfold Obligations.AddressSpacesAndWindows
  intro c a n hn
  have hspace : a.toNat / 2 ^ 60 % 2 ^ 4 = a.toNat / 2 ^ 60 := by
    have := a.isLt
    omega
  unfold placeOf
  dsimp only
  simp only [extract_nat, hspace, Nat.pow_zero, Nat.div_one, oneWindow_iff hn]
  generalize a.toNat / 2 ^ 60 = space
  generalize a.toNat % 2 ^ 60 = off
  by_cases h2 : space = 2
  · simp [h2, clusterOf]
  · simp [h2]

/-! ## Words that settle their task first (R66) -/

section
variable {i : Instr} {s : State} {g : Guard} {uses : List Dest} {f : State → State} {P : State → Prop}

theorem completes_of_issues (h : Issues s g uses) (e : exec i s = control g uses s f) (hp : P (f s)) :
    Completes i s P :=
  ⟨_, e.trans (control_of_issues h _), hp⟩

theorem completes_of_settles (h : Issues s g uses) (hu : Unordered s)
    (e : exec i s = control g uses s (fun u => u.settling f)) (hp : P (f s.settled)) : Completes i s P :=
  completes_of_issues h e (by rwa [State.settling_of_unordered hu])

theorem irrevocableFirst_of_settles (h : Issues s g uses)
    (e : ∀ u, exec i u = control g uses u (fun u => u.settling f)) : IrrevocableFirst i s :=
  irrevocableFirst_of_settling h e rfl rfl

end

/-! ## The tag table (R122, R123) -/

section
variable {s : State} {g : Guard} {d a b : Reg}

theorem tagKey_eq (cfg : BitVec 64) (x : Word) : tagKey cfg x = x >>> (cfg.toNat / 256 % 64) := by
  rw [tagKey, tagShift, extract_nat]; rfl

theorem tagWays_eq (cfg : BitVec 64) : tagWays cfg = 2 ^ (cfg.toNat % 16) := by
  rw [tagWays, extract_nat, Nat.pow_zero, Nat.div_one]; rfl

/-- The first slot of the set of a key. -/
def Core.tagBase (k : Core) (x : Word) : Nat :=
  (tagKey k.tagcfg x).toNat % (256 / tagWays k.tagcfg) * tagWays k.tagcfg

theorem tagLook_of_none {k : Core} {x : Word}
    (h : ∀ j < tagWays k.tagcfg, Tbl.find k.tags (k.tagBase x + j) ≠ some (tagKey k.tagcfg x)) :
    tagLook k x = allOnes64 := by
  have hfind : (List.range (tagWays k.tagcfg)).find? (fun i =>
      Tbl.find k.tags (k.tagBase x + i) == some (tagKey k.tagcfg x)) = none :=
    List.find?_eq_none.2 fun j hj => by simpa using h j (List.mem_range.1 hj)
  unfold Core.tagBase at hfind
  unfold tagLook
  dsimp only
  rw [hfind]

theorem tagLook_of_lowest {k : Core} {x : Word} {j : Nat} (hj : j < tagWays k.tagcfg)
    (h : Tbl.find k.tags (k.tagBase x + j) = some (tagKey k.tagcfg x))
    (hlow : ∀ i < j, Tbl.find k.tags (k.tagBase x + i) ≠ some (tagKey k.tagcfg x)) :
    tagLook k x = BitVec.ofNat 64 (k.tagBase x + j) := by
  have hfind : (List.range (tagWays k.tagcfg)).find? (fun i =>
      Tbl.find k.tags (k.tagBase x + i) == some (tagKey k.tagcfg x)) = some j := by
    rw [List.find?_range_eq_some]
    exact ⟨by simpa using h, List.mem_range.2 hj, fun i hi => by simpa using hlow i hi⟩
  unfold Core.tagBase at hfind ⊢
  unfold tagLook
  dsimp only
  rw [hfind]

/-- What `tset` and `tclr` leave: the task goes on, settled, with the tag table changed. -/
theorem tags_stepPc (hq : s.seat.seq = .control) (f : Core → Tbl Word) (hf : f s.settled.here = f s.here) :
    let t := (s.settled.modHere (fun k => { k with tags := f k })).stepPc
    NextWord s t ∧ MemoryKept s t ∧ OnlyCore s.seat.core s t ∧ t.here.tags = f s.here := by
  obtain ⟨hn, hm, hc, hh⟩ := settled_setCore_stepPc hq { s.settled.here with tags := f s.settled.here } rfl
  rw [State.modHere_eq, State.settled_seat]
  exact ⟨hn, hm, hc, by rw [hh, ← hf]⟩

end

/-- Settles O11. -/
theorem tagTableWords : Obligations.TagTableWords := by
  unfold Obligations.TagTableWords
  intro s g d a b
  dsimp only
  simp only [← tagKey_eq, ← tagWays_eq]
  refine ⟨fun h => ⟨tagLook s.here (s.reg a), ?_, tagLook_of_none,
      fun j hj => tagLook_of_lowest hj⟩,
    fun h => ⟨irrevocableFirst_of_settles h fun _ => rfl, fun hu => ⟨fun hn => ?_, fun hn => ?_⟩⟩,
    fun h => ⟨irrevocableFirst_of_settles h fun _ => rfl, fun hu => ⟨fun hn => ?_, fun hn => ?_⟩⟩⟩
  · exact comp_res h rfl (by rfl)
  · obtain ⟨hnext, hmem, honly, htags⟩ := tags_stepPc h.1
      (fun k => k.tags.put (s.reg a).toNat (tagKey k.tagcfg (s.reg b))) (by simp)
    refine completes_of_settles h hu rfl ?_
    simp only [State.settled_reg, if_neg (Nat.not_lt.2 hn)]
    exact ⟨hnext, hmem, honly, fun j => by rw [htags, Tbl.find_put]⟩
  · refine completes_of_settles h hu rfl ?_
    simp only [State.settled_reg, if_pos hn]
    exact State.trap_settled _ _
  · obtain ⟨hnext, hmem, honly, htags⟩ := tags_stepPc h.1 (fun k => k.tags.drop (s.reg a).toNat) (by simp)
    refine completes_of_settles h hu rfl ?_
    simp only [State.settled_reg, if_neg (Nat.not_lt.2 hn)]
    exact ⟨hnext, hmem, honly, fun j => by rw [htags, Tbl.find_drop]⟩
  · refine completes_of_settles h hu rfl ?_
    simp only [State.settled_reg, if_pos hn]
    exact State.trap_settled _ _

end Sys2Proof.Machine
end


section
/-!
O25: the subscription words.
-/

namespace Sys2Proof.Machine

section
variable {s : State} {g : Guard} {d a b : Reg}

/-! ## `subs` (R134, R429) -/

/-- Where the operand of `subs` leads: the place of the byte at an address of the cluster space. -/
theorem placeOf_cluster {c : Nat} {a : Word} (h : a.toNat / 2 ^ 60 = 2) :
    placeOf c a 1 = if a.toNat % 2 ^ 60 < 96 * 0x80000 then
      .scratch (c / 96 * 96 + a.toNat % 2 ^ 60 / 0x80000) (a.toNat % 0x80000) else .bad := by
  have := addressSpacesAndWindows c a 1 Nat.one_pos
  dsimp only at this
  rw [this, h, if_neg (by decide), if_neg (by decide)]
  by_cases hlt : a.toNat % 2 ^ 60 < 96 * 0x80000
  · rw [if_pos hlt, if_pos ⟨rfl, by omega, by omega⟩]
    congr 1
    omega
  · rw [if_neg hlt, if_neg (by omega)]

theorem subsRegion_malformed {v : Word} (h : 2 ^ 25 ≤ v.toNat ∨ v.toNat / 2 ^ 21 % 8 ≠ 0) : subsRegion v = none := by
  have := v.isLt
  unfold subsRegion
  rw [if_pos]
  rw [extract_ne, extract_ne]
  omega

theorem subsRegion_ok {v : Word} (h : v.toNat < 2 ^ 25) (hz : v.toNat / 2 ^ 21 % 8 = 0) :
    subsRegion v = some (v.toNat % 4096, v.toNat / 4096 % 512 + 1, v.getLsbD 24) := by
  unfold subsRegion
  rw [if_neg (by rw [extract_ne, extract_ne]; omega), extract_nat, extract_nat, Nat.pow_zero, Nat.div_one]
  rfl

/-- A task that has settled reads its counters and registers as before. -/
theorem settled_ctl : s.settled.here.ctl.g = s.here.ctl.g ∧ s.settled.here.ctl.q = s.here.ctl.q
    ∧ s.settled.here.ctl.pc = s.here.ctl.pc ∧ s.settled.here.ctl.safecnt = s.here.ctl.safecnt := by
  simp

theorem space_ne_two {v : Word} : v.extractLsb' 60 4 ≠ 2 ↔ v.toNat / 2 ^ 60 ≠ 2 := by
  have := v.isLt
  rw [ne_eq, ne_eq, not_iff_not, ← BitVec.toNat_inj, extract_nat]
  have : (2 : BitVec 4).toNat = 2 := rfl
  omega

/-- The subscription that `subs` makes. -/
def subsMade (s : State) (tgt pl j line i n : Nat) (fill : Bool) : Sub :=
  { id := s.fresh, pub := tgt, pubLine := pl, pubIdx := j, sub := s.seat.core, subLine := line
    subIdx := i, lines := n, fill := fill, seq := s.opSeq, launch := (s.here.chain s.here.ctl.chain).launch }

/-- The settled machine with one subscription more. -/
def State.subscribed (s : State) (u : Sub) : State := { s.settled with subs := s.subs ++ [u] }.next.bump

theorem subscribed_owes (hq : s.seat.seq = .control) (u : Sub) (d : Reg) (v : Option Word) :
    let t := ((s.subscribed u).owe s.seat.core (.g d) v false).stepPc
    NextWord s t ∧ MemoryKept s t ∧ t.here.owed = s.here.owed ++ [⟨s.fresh + 1, s.here.ctl.run, .g d, v, false⟩]
      ∧ t.subs = s.subs ++ [u] := by
  have hhere : (s.subscribed u).here = s.settled.here := rfl
  obtain ⟨hnext, howed, hmem⟩ := owesReg (u := s.subscribed u) hq rfl (by rw [hhere]; exact settled_ctl)
    (by simp [hhere]) (by simp [hhere]) d v false (s.fresh + 1) rfl
  exact ⟨hnext, fun x => by rw [hmem]; rfl, howed, rfl⟩

theorem placeOf_settled {tgt : Nat} (h2 : (s.reg a).toNat / 2 ^ 60 = 2)
    (hlt : (s.reg a).toNat % 2 ^ 60 < 96 * 0x80000)
    (htgt : tgt = s.seat.core / 96 * 96 + (s.reg a).toNat % 2 ^ 60 / 0x80000) :
    placeOf s.settled.seat.core (s.reg a) 1 = .scratch tgt ((s.reg a).toNat % 0x80000) := by
  rw [State.settled_seat, placeOf_cluster h2, if_pos hlt, htgt]

section
variable (h : Issues s g [.g d, .g a, .g b]) (hu : Unordered s)
include h hu

theorem subs_addressFault (hf : (s.reg a).toNat / 2 ^ 60 ≠ 2 ∨ 96 * 0x80000 ≤ (s.reg a).toNat % 2 ^ 60) :
    Completes (.subs g d a b) s (Traps 4 (s.reg a) s) := by
  refine completes_of_settles h hu rfl ?_
  simp only [State.settled_seat, State.settled_reg, space_ne_two]
  split
  · exact State.trap_settled _ _
  · rename_i h2
    rw [placeOf_cluster (not_not.1 h2), if_neg (by omega)]
    exact State.trap_settled _ _

section
variable (h2 : (s.reg a).toNat / 2 ^ 60 = 2) (hlt : (s.reg a).toNat % 2 ^ 60 < 96 * 0x80000)
include h2 hlt

theorem subs_misaligned (hal : (s.reg a).toNat % 128 ≠ 0) : Completes (.subs g d a b) s (Traps 5 (s.reg a) s) := by
  refine completes_of_settles h hu rfl ?_
  simp only [State.settled_seat, State.settled_reg, space_ne_two, placeOf_cluster h2, if_pos hlt]
  rw [if_neg (not_not.2 h2), if_pos hal]
  exact State.trap_settled _ _

theorem subs_operandFault (hal : (s.reg a).toNat % 128 = 0)
    (hb : 2 ^ 25 ≤ (s.reg b).toNat ∨ (s.reg b).toNat / 2 ^ 21 % 8 ≠ 0) :
    Completes (.subs g d a b) s (Traps 7 (s.reg b) s) := by
  refine completes_of_settles h hu rfl ?_
  simp only [State.settled_seat, State.settled_reg, space_ne_two, placeOf_cluster h2, if_pos hlt]
  rw [if_neg (not_not.2 h2), if_neg (not_not.2 hal), subsRegion_malformed hb]
  exact State.trap_settled _ _

variable (hal : (s.reg a).toNat % 128 = 0) (hb : (s.reg b).toNat < 2 ^ 25) (hz : (s.reg b).toNat / 2 ^ 21 % 8 = 0)
include hal hb hz

theorem subs_refused {tgt pl line n : Nat} (htgt : tgt = s.seat.core / 96 * 96 + (s.reg a).toNat % 2 ^ 60 / 0x80000)
    (hpl : pl = (s.reg a).toNat % 0x80000 / 128) (hline : line = (s.reg b).toNat % 4096)
    (hn : n = (s.reg b).toNat / 4096 % 512 + 1)
    (hno : tgt = s.seat.core ∨ s.freeEntryAt s.seat.core = none ∨ s.freeEntryAt tgt = none
      ∨ s.overlaps s.seat.core line n = true ∨ 4096 < line + n ∨ 4096 < pl + n) :
    Completes (.subs g d a b) s (AnswersReg d (BitVec.allOnes 64) s) := by
  have hanswer : AnswersReg d (BitVec.allOnes 64) s (s.settled.result d (BitVec.allOnes 64)) :=
    answersReg (u := s.settled) h.1 rfl settled_ctl rfl d _
  refine completes_of_settles h hu rfl ?_
  simp only [State.settled_reg, space_ne_two, placeOf_settled h2 hlt htgt]
  rw [if_neg (not_not.2 h2), if_neg (not_not.2 hal), subsRegion_ok hb hz]
  dsimp only
  rw [← hpl, ← hline, ← hn]
  split
  · rename_i hi hj
    change s.freeEntryAt s.seat.core = _ at hi
    change s.freeEntryAt tgt = _ at hj
    simp only [hi, hj, reduceCtorEq, false_or] at hno
    rw [if_pos (show tgt = s.settled.seat.core ∨ s.settled.overlaps s.settled.seat.core line n = true ∨ _ from hno)]
    exact hanswer
  · exact hanswer

theorem subs_makes {tgt pl line n i j : Nat} {P : State → Prop}
    (htgt : tgt = s.seat.core / 96 * 96 + (s.reg a).toNat % 2 ^ 60 / 0x80000)
    (hpl : pl = (s.reg a).toNat % 0x80000 / 128) (hline : line = (s.reg b).toNat % 4096)
    (hn : n = (s.reg b).toNat / 4096 % 512 + 1) (hne : tgt ≠ s.seat.core)
    (hi : s.freeEntryAt s.seat.core = some i) (hj : s.freeEntryAt tgt = some j)
    (hov : s.overlaps s.seat.core line n = false) (hend : line + n ≤ 4096) (hpend : pl + n ≤ 4096)
    (hP : P ((s.subscribed (subsMade s tgt pl j line i n ((s.reg b).getLsbD 24))).owe s.seat.core (.g d)
      (some (BitVec.ofNat 64 i)) false).stepPc) :
    Completes (.subs g d a b) s P := by
  have hno : ¬ (tgt = s.seat.core ∨ s.overlaps s.seat.core line n = true ∨ 4096 < line + n ∨ 4096 < pl + n) := by
    simp only [hov, hne, Bool.false_eq_true, false_or, not_or, Nat.not_lt]
    exact ⟨hend, hpend⟩
  have hchain : s.settled.here.chain s.settled.here.ctl.chain = s.here.chain s.here.ctl.chain := by
    rw [State.settled_here]
    rfl
  refine completes_of_settles h hu rfl ?_
  simp only [State.settled_reg, space_ne_two, placeOf_settled h2 hlt htgt]
  rw [if_neg (not_not.2 h2), if_neg (not_not.2 hal), subsRegion_ok hb hz]
  dsimp only
  rw [← hpl, ← hline, ← hn, show s.settled.freeEntryAt s.settled.seat.core = some i from hi,
    show s.settled.freeEntryAt tgt = some j from hj]
  dsimp only
  rw [if_neg (show ¬ (tgt = s.settled.seat.core ∨ s.settled.overlaps s.settled.seat.core line n = true ∨ _) from hno)]
  rw [hchain]
  exact hP

end
end

/-! ## `unsubs` and `sflush` (R430, R431) -/

/-- The settled task goes on after the subscriptions have changed. -/
theorem subs_stepPc (hq : s.seat.seq = .control) (l : List Sub) :
    let t := State.stepPc { s.settled with subs := l }
    NextWord s t ∧ MemoryKept s t ∧ t.subs = l := by
  have hhere : State.here { s.settled with subs := l } = s.settled.here := rfl
  exact ⟨nextWord_stepPc hq rfl (by rw [hhere]; exact settled_ctl), fun a => rfl, rfl⟩

/-- What `unsubs` makes of a subscription: the entry that it names is on its way out at the subscriber, and removed at
the publisher. -/
def Sub.unsub (c i : Nat) (u : Sub) : Sub :=
  let v := if !u.closed && u.sub == c && u.subIdx == i then { u with leaving := true } else u
  if !v.closed && v.pub == c && v.pubIdx == i then v.remove else v

theorem Sub.unsub_of_other {c i : Nat} {u : Sub}
    (h : u.closed = true ∨ ((u.sub ≠ c ∨ u.subIdx ≠ i) ∧ (u.pub ≠ c ∨ u.pubIdx ≠ i))) : Sub.unsub c i u = u := by
  have hs : (!u.closed && u.sub == c && u.subIdx == i) = false := by grind
  have hp : (!u.closed && u.pub == c && u.pubIdx == i) = false := by grind
  simp [Sub.unsub, hs, hp]

theorem Sub.unsub_published {c i : Nat} {u : Sub} (hc : u.closed = false) (hp : u.pub = c) (hpi : u.pubIdx = i)
    (hs : u.sub ≠ c) : Sub.unsub c i u = u.remove := by
  simp [Sub.unsub, hc, hp, hpi, hs]

theorem Sub.unsub_subscribed {c i : Nat} {u : Sub} (hc : u.closed = false) (hs : u.sub = c) (hsi : u.subIdx = i)
    (hp : u.pub ≠ c) : Sub.unsub c i u = { u with leaving := true } := by
  simp [Sub.unsub, hc, hs, hsi, hp]

section
variable (h : Issues s g [.g a]) (hu : Unordered s)
include h hu

theorem unsubs_operandFault (ha : 16 ≤ (s.reg a).toNat) : Completes (.unsubs g a) s (Traps 7 (s.reg a) s) := by
  have := (s.reg a).isLt
  refine completes_of_settles h hu rfl ?_
  simp only [State.settled_reg, extract_ne]
  rw [if_pos (by omega)]
  exact State.trap_settled _ _

theorem unsubs_removes (ha : (s.reg a).toNat < 16) : Completes (.unsubs g a) s (fun t => NextWord s t
    ∧ MemoryKept s t ∧ t.subs = s.subs.map (Sub.unsub s.seat.core (s.reg a).toNat)) := by
  refine completes_of_settles h hu rfl ?_
  simp only [State.settled_reg, extract_ne]
  rw [if_neg (by omega)]
  exact ⟨(subs_stepPc h.1 _).1, fun _ => rfl, List.map_map⟩

end

theorem sflush_closes (h : Issues s g []) (hu : Unordered s) : Completes (.sflush g) s (fun t => NextWord s t
    ∧ MemoryKept s t
    ∧ t.subs = s.subs.map (fun u => if u.pub = s.seat.core then { u with fifo := closeAll u.fifo } else u)) := by
  refine completes_of_settles h hu rfl ?_
  exact ⟨(subs_stepPc h.1 _).1, fun _ => rfl, by simp [State.modSubs, State.settled_eq]⟩

end

/-- Settles O25. -/
theorem subscriptionWords : Obligations.SubscriptionWords := by
  unfold Obligations.SubscriptionWords
  intro s g d a b
  refine ⟨fun h => ⟨irrevocableFirst_of_settles h fun _ => rfl, fun hu => ⟨subs_addressFault h hu,
      fun h2 hlt => ⟨subs_misaligned h hu h2 hlt, fun hal => ⟨subs_operandFault h hu h2 hlt hal, ?_⟩⟩⟩⟩,
    fun h => ⟨irrevocableFirst_of_settles h fun _ => rfl, fun hu => ⟨unsubs_operandFault h hu, fun ha => ?_⟩⟩,
    fun h => ⟨irrevocableFirst_of_settles h fun _ => rfl, fun hu => sflush_closes h hu⟩⟩
  · intro tgt pl line n hb hz htgt hpl hline hn
    exact ⟨subs_refused h hu h2 hlt hal hb hz htgt hpl hline hn, fun i j hne hi hj hov hend hpend =>
      subs_makes h hu h2 hlt hal hb hz htgt hpl hline hn hne hi hj hov hend hpend (subscribed_owes h.1 _ _ _)⟩
  · obtain ⟨t, ht, hnext, hmem, hsubs⟩ := unsubs_removes h hu ha
    have hin (u v : Sub) (hv : Sub.unsub s.seat.core (s.reg a).toNat u = v) (hmem : u ∈ s.subs) : v ∈ t.subs := by
      rw [hsubs, ← hv]
      exact List.mem_map_of_mem hmem
    refine ⟨t, ht, hnext, hmem, fun u hmem hu => hin u _ ?_ hmem, fun u hmem hc hp hpi hs => hin u _ ?_ hmem,
      fun u hmem hc hs hsi hp => hin u _ ?_ hmem⟩
    · exact Sub.unsub_of_other hu
    · exact Sub.unsub_published hc hp hpi hs
    · exact Sub.unsub_subscribed hc hs hsi hp

end Sys2Proof.Machine
end


section
/-!
O13: the issue of an atomic word, its faults in their order and then its request (R138-R140, R317-R319).
-/

namespace Sys2Proof.Machine

section
variable {s : State} {g : Guard} {op : BitVec 4} {cas dep : Bool} {n : Nat} {d : Reg} {addr b cmp : Word}

/-! ## What the requests come to -/

/-- A request at a port: the register is owed, and the port's queue has it at its end. -/
theorem portAtomic (hq : s.seat.seq = .control) (d : Reg) (t : Nat) (r : PortReq) :
    PortAtomic s (((s.settled.owe s.settled.seat.core (.g d) none false).modCore t
      (fun k => { k with portq := k.portq ++ [r] })).bump.stepPc) d t r := by
  generalize ho : s.settled.owe s.settled.seat.core (.g d) none false = o
  have hseat : o.seat = s.seat := by simp [← ho, State.owe]
  have hmem : (o.modCore t (fun k => { k with portq := k.portq ++ [r] })).bump.mem = s.mem := by simp [← ho, State.owe]
  have howe (c : Nat) : o.core c = if c = s.seat.core then { s.settled.here with
      owed := s.here.owed ++ [⟨s.fresh, s.here.ctl.run, .g d, none, false⟩] } else s.core c := by
    subst ho
    by_cases hc : c = s.seat.core <;> simp [State.owe, State.settled_eq, hc]
  have hhere : (o.modCore t (fun k => { k with portq := k.portq ++ [r] })).bump.here =
      { s.settled.here with
        owed := s.here.owed ++ [⟨s.fresh, s.here.ctl.run, .g d, none, false⟩]
        portq := if s.seat.core = t then s.here.portq ++ [r] else s.here.portq } := by
    rw [State.here, State.core_bump, State.modCore_eq, State.core_setCore, State.bump_seat, State.setCore_seat, hseat,
      howe, howe, if_pos rfl]
    by_cases ht : s.seat.core = t
    · simp [ht]
    · simp [ht]
  have hother (ht : t ≠ s.seat.core) : (o.modCore t (fun k => { k with portq := k.portq ++ [r] })).bump.core t =
      { s.core t with portq := (s.core t).portq ++ [r] } := by
    simp [howe, ht]
  have hseat : (o.modCore t (fun k => { k with portq := k.portq ++ [r] })).bump.seat = s.seat := hseat
  generalize (o.modCore t (fun k => { k with portq := k.portq ++ [r] })).bump = u at hhere hother hseat hmem
  refine ⟨nextWord_stepPc hq hseat (by rw [hhere]; simp), fun a => ?_, ?_, ?_⟩
  · rw [State.stepPc_mem, hmem]
  · simp only [State.stepPc_eq, State.here_setCore, if_true, hhere]
  · rw [State.stepPc_eq, State.core_setCore, hseat]
    by_cases ht : t = s.seat.core
    · rw [if_pos ht, hhere, if_pos ht.symm, ht]
      rfl
    · rw [if_neg ht, hother ht]

/-- A request in the Detent's queue. -/
theorem detentQueued {u : State} (hq : s.seat.seq = .control) (r : Atomic) (hseat : u.seat = s.seat)
    (hcore : r.core = s.seat.core) (hmem : u.mem = s.mem)
    (hcl : u.cluster (s.seat.core / 96) = s.cluster (s.seat.core / 96))
    (hc : u.here.ctl.g = s.here.ctl.g ∧ u.here.ctl.q = s.here.ctl.q ∧ u.here.ctl.pc = s.here.ctl.pc
      ∧ u.here.ctl.safecnt = s.here.ctl.safecnt) : DetentQueued s (u.toDetent r).next.bump.stepPc r := by
  refine ⟨nextWord_stepPc hq hseat hc, fun a => by rw [← hmem]; rfl, ?_⟩
  simp [State.toDetent, clusterOf, hcore, hcl]

/-- The settled machine with an empty deposit line. -/
def State.opensDeposit (s : State) (off : Nat) : State :=
  ((s.settled.setEmpty (lineKey s.settled.seat.core (off / 128))).modCore s.settled.seat.core
    (fun k => { k with deposits := k.deposits ++ [⟨s.fresh, k.ctl.chain, off, none, false⟩] })).modChain
    s.settled.seat.core s.settled.here.ctl.chain (fun x => { x with ld := x.ld + 1 })

theorem State.opensDeposit_keeps (s : State) (off : Nat) :
    (s.opensDeposit off).seat = s.seat ∧ (s.opensDeposit off).mem = s.mem
    ∧ (s.opensDeposit off).here = { s.settled.here with
        deposits := s.here.deposits ++ [⟨s.fresh, s.here.ctl.chain, off, none, false⟩]
        chains := s.here.chains.put s.here.ctl.chain
          { s.here.chain s.here.ctl.chain with ld := (s.here.chain s.here.ctl.chain).ld + 1 } }
    ∧ ∀ l, (s.opensDeposit off).isEmpty l = (s.isEmpty l || l == lineKey s.seat.core (off / 128)) := by
  refine ⟨by simp [State.opensDeposit], by simp [State.opensDeposit], ?_, fun l => ?_⟩
  · simp [State.opensDeposit, Core.chain]
  · have e : (s.opensDeposit off).isEmpty l = (s.settled.setEmpty (lineKey s.seat.core (off / 128))).isEmpty l := rfl
    rw [e, State.isEmpty_setEmpty, State.settled_isEmpty]
    by_cases hl : l = lineKey s.seat.core (off / 128) <;> simp [hl]

theorem depositOpened (off : Nat) (r : Atomic) :
    DepositOpened s ((s.opensDeposit off).toDetent r).next.bump.stepPc off := by
  obtain ⟨-, -, hhere, hempty⟩ := s.opensDeposit_keeps off
  refine ⟨hempty, ?_, ?_⟩
  · simp [State.toDetent, hhere, Core.chain]
  · simp [State.toDetent, hhere]

theorem State.detentQueued_opensDeposit (hq : s.seat.seq = .control) {off : Nat} (r : Atomic)
    (hcore : r.core = s.seat.core) : DetentQueued s ((s.opensDeposit off).toDetent r).next.bump.stepPc r := by
  obtain ⟨hseat, hmem, hhere, -⟩ := s.opensDeposit_keeps off
  exact detentQueued hq _ hseat hcore hmem rfl (by rw [hhere]; simp)

/-! ## The faults -/

theorem atomicIssue_bad (hp : placeOf s.seat.core addr n = .bad) :
    Traps 4 addr s (atomicIssue op cas n dep d addr b cmp s.settled) := by
  have hp : placeOf s.settled.seat.core addr n = .bad := hp
  unfold atomicIssue
  simp only [hp]
  exact State.trap_settled _ _

theorem atomicIssue_misaligned (hp : placeOf s.seat.core addr n ≠ .bad) (hal : addr.toNat % n ≠ 0) :
    Traps 5 addr s (atomicIssue op cas n dep d addr b cmp s.settled) := by
  have hp : placeOf s.settled.seat.core addr n ≠ .bad := hp
  unfold atomicIssue
  dsimp only
  cases e : placeOf s.settled.seat.core addr n with
  | bad => exact absurd e hp
  | scratch t off =>
    dsimp only
    rw [if_pos hal]
    exact State.trap_settled _ _
  | global =>
    dsimp only
    rw [if_pos hal]
    exact State.trap_settled _ _

section
variable {t off : Nat} (hp : placeOf s.seat.core addr n = .scratch t off) (hal : addr.toNat % n = 0)
include hp hal

theorem atomicIssue_depositFault : Traps 7 addr s (atomicIssue op cas n true d addr b cmp s.settled) := by
  have hp : placeOf s.settled.seat.core addr n = .scratch t off := hp
  unfold atomicIssue
  simp only [hp]
  rw [if_neg (not_not.2 hal), if_pos trivial]
  exact State.trap_settled _ _

theorem atomicIssue_poisonFault (hbad : s.isBad (lineKey t (off / 128)) = true) :
    Traps 21 addr s (atomicIssue op cas n false d addr b cmp s.settled) := by
  have hp : placeOf s.settled.seat.core addr n = .scratch t off := hp
  have hbad : s.settled.isBad (lineKey t (off / 128)) = true := hbad
  unfold atomicIssue
  simp only [hp]
  rw [if_neg (not_not.2 hal), if_neg Bool.false_ne_true, if_pos hbad]
  exact State.trap_settled _ _

/-! ## The requests -/

theorem atomicIssue_port (hq : s.seat.seq = .control) (hbad : s.isBad (lineKey t (off / 128)) = false) :
    PortAtomic s (atomicIssue op cas n false d addr b cmp s.settled) d t
      { core := s.seat.core, run := s.here.ctl.run, owed := s.fresh, op := op, cas := cas
        size := n, off := off, b := b, cmp := cmp, seq := s.opSeq } := by
  have hp : placeOf s.settled.seat.core addr n = .scratch t off := hp
  have hbad : ¬ s.settled.isBad (lineKey t (off / 128)) = true := by simpa using hbad
  have hrun : s.settled.here.ctl.run = s.here.ctl.run := by simp
  unfold atomicIssue
  simp only [hp]
  rw [if_neg (not_not.2 hal), if_neg Bool.false_ne_true, if_neg hbad, hrun]
  exact portAtomic hq d t _

end

section
variable (hp : placeOf s.seat.core addr n = .global) (hal : addr.toNat % n = 0)
include hp hal

theorem atomicIssue_global (hq : s.seat.seq = .control) :
    DetentQueued s (atomicIssue op cas n false d addr b cmp s.settled)
      { id := s.fresh, at_ := s.cycle, core := s.seat.core, part := s.here.part, op := op, cas := cas, size := n
        va := addr, b := b, cmp := cmp, task := s.here.ctl.task.setWidth 32, seq := s.opSeq } := by
  have hp : placeOf s.settled.seat.core addr n = .global := hp
  unfold atomicIssue
  simp only [hp]
  rw [if_neg (not_not.2 hal), if_neg Bool.false_ne_true, State.settled_here]
  exact detentQueued hq _ rfl rfl rfl rfl settled_ctl

theorem atomicIssue_depositAddress (hd : (s.reg d).toNat / 2 ^ 60 ≠ 1 ∨ 0x80000 < (s.reg d).toNat % 2 ^ 60 + 8) :
    Traps 4 (s.reg d) s (atomicIssue op cas n true d addr b cmp s.settled) := by
  have hp : placeOf s.settled.seat.core addr n = .global := hp
  unfold atomicIssue
  simp only [hp, State.settled_reg, (spaceNat _).1, (spaceNat _).2]
  rw [if_neg (not_not.2 hal), if_pos trivial, if_pos hd]
  exact State.trap_settled _ _

section
variable (hsp : (s.reg d).toNat / 2 ^ 60 = 1) (hend : (s.reg d).toNat % 2 ^ 60 + 8 ≤ 0x80000)
include hsp hend

theorem atomicIssue_depositMisaligned (hda : (s.reg d).toNat % 8 ≠ 0) :
    Traps 5 (s.reg d) s (atomicIssue op cas n true d addr b cmp s.settled) := by
  have hp : placeOf s.settled.seat.core addr n = .global := hp
  unfold atomicIssue
  simp only [hp, State.settled_reg, (spaceNat _).1, (spaceNat _).2]
  rw [if_neg (not_not.2 hal), if_pos trivial, if_neg (by omega), if_pos hda]
  exact State.trap_settled _ _

variable (hda : (s.reg d).toNat % 8 = 0)
include hda

theorem atomicIssue_depositFull (hc : (s.here.chain s.here.ctl.chain).ld = 65535) :
    Traps 11 0 s (atomicIssue op cas n true d addr b cmp s.settled) := by
  have hp : placeOf s.settled.seat.core addr n = .global := hp
  have hc : (s.settled.here.chain s.settled.here.ctl.chain).ld = 65535 := by rw [State.settled_here]; exact hc
  unfold atomicIssue
  simp only [hp, State.settled_reg, (spaceNat _).1, (spaceNat _).2]
  rw [if_neg (not_not.2 hal), if_pos trivial, if_neg (by omega), if_neg (not_not.2 hda), if_pos hc]
  exact State.trap_settled _ _

theorem atomicIssue_deposit (hq : s.seat.seq = .control) (hc : (s.here.chain s.here.ctl.chain).ld ≠ 65535) :
    DepositOpened s (atomicIssue op cas n true d addr b cmp s.settled) ((s.reg d).toNat % 2 ^ 60)
      ∧ DetentQueued s (atomicIssue op cas n true d addr b cmp s.settled)
      { id := s.fresh, at_ := s.cycle, core := s.seat.core, deposit := some s.fresh, part := s.here.part
        op := op, cas := cas, size := n, va := addr, b := b, cmp := cmp
        task := s.here.ctl.task.setWidth 32, seq := s.opSeq } := by
  have hp : placeOf s.settled.seat.core addr n = .global := hp
  have hc : ¬ (s.settled.here.chain s.settled.here.ctl.chain).ld = 65535 := by rw [State.settled_here]; exact hc
  have hr : s.settled.here.ctl.task = s.here.ctl.task := by simp
  have hpart : s.settled.here.part = s.here.part := by simp
  have e : atomicIssue op cas n true d addr b cmp s.settled = ((s.opensDeposit ((s.reg d).toNat % 2 ^ 60)).toDetent
      { id := s.fresh, at_ := s.cycle, core := s.seat.core, deposit := some s.fresh, part := s.here.part
        op := op, cas := cas, size := n, va := addr, b := b, cmp := cmp
        task := s.here.ctl.task.setWidth 32, seq := s.opSeq }).next.bump.stepPc := by
    unfold atomicIssue
    simp only [hp, State.settled_reg, (spaceNat _).1, (spaceNat _).2]
    rw [if_neg (not_not.2 hal), if_pos trivial, if_neg (by omega), if_neg (not_not.2 hda), if_neg hc, hr, hpart]
    rfl
  rw [e]
  exact ⟨depositOpened _ _, s.detentQueued_opensDeposit hq _ rfl⟩

end
end
end

/-- The issue of an atomic word that settles its task and then goes through `atomicIssue`. -/
theorem atomicIssue_of {i : Instr} {s : State} {g : Guard} {uses : List Dest} {op : BitVec 4} {cas dep : Bool}
    {n : Nat} {d : Reg} {addr b cmp : Word} (h : Issues s g uses)
    (e : ∀ P : State → Prop, P (atomicIssue op cas n dep d addr b cmp s.settled) → Completes i s P) :
    AtomicIssue i s op cas n dep d addr b cmp := by
  refine ⟨fun hp => e _ (atomicIssue_bad hp), fun hp hal => e _ (atomicIssue_misaligned hp hal),
    fun t off hp hal => ⟨?_, ?_, ?_⟩, ?_, ?_⟩
  · rintro rfl
    exact e _ (atomicIssue_depositFault hp hal)
  · rintro rfl hbad
    exact e _ (atomicIssue_poisonFault hp hal hbad)
  · rintro rfl hbad
    exact e _ (atomicIssue_port hp hal h.1 hbad)
  · rintro hp hal rfl
    exact e _ (atomicIssue_global hp hal h.1)
  · rintro hp hal rfl
    exact ⟨fun hd => e _ (atomicIssue_depositAddress hp hal hd),
      fun hsp hend => ⟨fun hda => e _ (atomicIssue_depositMisaligned hp hal hsp hend hda),
        fun hda => ⟨fun hc => e _ (atomicIssue_depositFull hp hal hsp hend hda hc),
          fun hc => e _ (atomicIssue_deposit hp hal hsp hend hda h.1 hc)⟩⟩⟩

/-- Settles O13. -/
theorem atomicsIssue : Obligations.AtomicsIssue := by
  unfold Obligations.AtomicsIssue
  intro s g o sz dep d a b
  refine ⟨fun h => ⟨irrevocableFirst_of_settles h fun _ => rfl, fun hu => atomicIssue_of h fun P hP => ?_⟩,
    fun h => ⟨irrevocableFirst_of_settles h fun _ => rfl, fun hu => atomicIssue_of h fun P hP => ?_⟩⟩
  · exact completes_of_settles h hu rfl (by simpa only [State.settled_reg, amoCode] using hP)
  · exact completes_of_settles h hu rfl (by simpa only [State.settled_reg] using hP)

end Sys2Proof.Machine
end


section
/-!
O24: the stream commands and `sstop`, on the control sequencer and on the stream sequencer.
-/

namespace Sys2Proof.Machine

/-! ## The state on which a stream word acts -/

/-- On the control sequencer a stream word acts once its task has settled (R66); on the stream sequencer at once. -/
def State.acting (s : State) : State :=
  match s.seat.seq with
  | .control => s.settled
  | _ => s

section
variable {s : State}

theorem acting_control (hq : s.seat.seq = .control) : s.acting = s.settled := by
  simp [State.acting, hq]

theorem acting_stream (hq : s.seat.seq = .stream) : s.acting = s := by
  simp [State.acting, hq]

/-- What holds of the settled machine and of the machine itself holds of the one on which the word acts. -/
theorem State.acting_cases {P : State → Prop} (hc : P s.settled) (hs : P s) : P s.acting := by
  unfold State.acting
  split
  · exact hc
  · exact hs

@[simp] theorem State.acting_seat : s.acting.seat = s.seat := State.acting_cases (P := fun u => u.seat = s.seat) rfl rfl
@[simp] theorem State.acting_mem : s.acting.mem = s.mem := State.acting_cases (P := fun u => u.mem = s.mem) rfl rfl
@[simp] theorem State.acting_opSeq : s.acting.opSeq = s.opSeq :=
  State.acting_cases (P := fun u => u.opSeq = s.opSeq) rfl rfl
@[simp] theorem State.acting_readers : s.acting.readers = s.readers :=
  State.acting_cases (P := fun u => u.readers = s.readers) rfl rfl
@[simp] theorem State.acting_isEmpty (l : Nat) : s.acting.isEmpty l = s.isEmpty l :=
  State.acting_cases (P := fun u => u.isEmpty l = s.isEmpty l) rfl rfl
@[simp] theorem State.acting_isBad (l : Nat) : s.acting.isBad l = s.isBad l :=
  State.acting_cases (P := fun u => u.isBad l = s.isBad l) rfl rfl
@[simp] theorem State.acting_spBytes (c o n : Nat) : s.acting.spBytes c o n = s.spBytes c o n :=
  State.acting_cases (P := fun u => u.spBytes c o n = s.spBytes c o n) rfl rfl
@[simp] theorem State.acting_reg (r : Reg) : s.acting.reg r = s.reg r :=
  State.acting_cases (P := fun u => u.reg r = s.reg r) (State.settled_reg r) rfl

/-- Of its core's record only the control registers differ. -/
theorem State.acting_here : s.acting.here = { s.here with ctl := s.acting.here.ctl } :=
  State.acting_cases (P := fun u => u.here = { s.here with ctl := u.here.ctl }) (by simp) rfl

theorem State.acting_task : s.acting.here.ctl.g = s.here.ctl.g ∧ s.acting.here.ctl.q = s.here.ctl.q
    ∧ s.acting.here.ctl.pc = s.here.ctl.pc ∧ s.acting.here.ctl.safecnt = s.here.ctl.safecnt :=
  State.acting_cases (P := fun u => u.here.ctl.g = s.here.ctl.g ∧ u.here.ctl.q = s.here.ctl.q
    ∧ u.here.ctl.pc = s.here.ctl.pc ∧ u.here.ctl.safecnt = s.here.ctl.safecnt) settled_ctl ⟨rfl, rfl, rfl, rfl⟩

@[simp] theorem State.acting_port (p : Nat) : s.acting.here.port p = s.here.port p := by
  rw [State.acting_here]
  rfl

@[simp] theorem State.acting_chain (n : Nat) : s.acting.here.chain n = s.here.chain n := by
  rw [State.acting_here]
  rfl

@[simp] theorem State.acting_readersOf (l : Nat) : s.acting.readersOf l = s.readersOf l := by
  unfold State.readersOf
  rw [State.acting_readers]

/-! ## What a stream word comes to (R132, R299, R414) -/

theorem faults_of_trap {i : Instr} {c : Nat} {v : Word} (hq : s.seat.seq = .control)
    (e : exec i s = .next (s.settled.trap c v)) : StreamFaults i s c v := by
  refine ⟨_, e, fun _ => State.trap_settled c v, fun hs => ?_⟩
  rw [hq] at hs
  cases hs

theorem faults_of_streamStop {i : Instr} {c : Nat} {v : Word} {port : Option Nat} (hq : s.seat.seq = .stream)
    (e : exec i s = .next (s.streamStop c v port)) : StreamFaults i s c v := by
  obtain ⟨hhere, hmem⟩ := State.streamStop_here s c v port
  refine ⟨_, e, fun hc => ?_, fun _ => ⟨?_, ?_, ?_, fun a => ?_⟩⟩
  · rw [hq] at hc
    cases hc
  · rw [hhere]
  · rw [hhere]
  · rw [hhere]
    simp [Core.chain]
  · rw [hmem]

section
variable {i : Instr} {g : Guard} {d : Pred} {b : Reg} {uses : List Dest} {held : State → Bool} {f : State → Sres}
  (h : StreamIssues s g (.q d :: .g b :: uses)) (e : exec i s = streamWord g d b uses held s f)
include h e

theorem streamWord_held (hheld : held s = true) : exec i s = .next s := by
  rw [e]
  obtain ⟨h, -⟩ | ⟨hq, ha, hhalt, hfrozen⟩ := h
  · simp [streamWord, h.1, control_of_issues h, hheld]
  · simp [streamWord, onStream, hq, ha, hhalt, hfrozen, hheld]

variable (hheld : held s = false)
include hheld

theorem streamWord_faults {c : Nat} {v : Word} (hf : f s.acting = .fault c v) : StreamFaults i s c v := by
  obtain ⟨h, hu⟩ | ⟨hq, ha, hhalt, hfrozen⟩ := h
  · rw [acting_control h.1] at hf
    refine faults_of_trap h.1 ?_
    rw [e]
    simp [streamWord, h.1, control_of_issues h, hheld, State.settling_of_unordered hu, hf]
  · rw [acting_stream hq] at hf
    refine faults_of_streamStop hq (port := (portCode (s.reg b)).map (· % 16)) ?_
    rw [e]
    simp only [streamWord, onStream, hq, ha, hhalt, hfrozen, hheld, hf, if_true, Bool.not_true, Bool.or_self,
      Bool.false_eq_true, if_false]

theorem streamWord_refuses (hf : f s.acting = .no) : StreamRefuses i s d := by
  obtain ⟨h, hu⟩ | ⟨hq, ha, hhalt, hfrozen⟩ := h
  · rw [acting_control h.1] at hf
    refine ⟨s.settled.resultQ d false, ?_, ?_, ?_, rfl, fun _ => ?_, fun hq => ?_⟩
    · rw [e]
      simp [streamWord, h.1, control_of_issues h, hheld, State.settling_of_unordered hu, hf]
    · simp [State.resultQ_eq]
    · simp [State.resultQ_eq]
    · exact answers (u := s.settled) h.1 rfl settled_ctl rfl d false
    · rw [h.1] at hq
      cases hq
  · rw [acting_stream hq] at hf
    refine ⟨s, ?_, rfl, rfl, rfl, fun hc => ?_, fun _ => rfl⟩
    · rw [e]
      simp only [streamWord, onStream, hq, ha, hhalt, hfrozen, hheld, hf, if_true, Bool.not_true, Bool.or_self,
        Bool.false_eq_true, if_false]
    · rw [hq] at hc
      cases hc

/-- A word that acts on its core's ports, chains and readers only. -/
theorem streamWord_acts {t : State} {P : State → Prop} (hf : f s.acting = .yes t) (hseat : t.seat = s.seat)
    (hmem : t.mem = s.mem) (hctl : t.here.ctl = s.acting.here.ctl) (hss : t.here.ss = s.here.ss)
    (hP : ∀ u : State, u.here.ports = t.here.ports → u.here.chains = t.here.chains → u.readers = t.readers → P u) :
    StreamActs i s d P := by
  obtain ⟨h, hu⟩ | ⟨hq, ha, hhalt, hfrozen⟩ := h
  · rw [acting_control h.1] at hf
    refine ⟨t.resultQ d true, ?_, hP _ ?_ ?_ rfl, fun _ => ?_, fun hq => ?_⟩
    · rw [e]
      simp [streamWord, h.1, control_of_issues h, hheld, State.settling_of_unordered hu, hf]
    · simp [State.resultQ_eq]
    · simp [State.resultQ_eq]
    · refine answers h.1 hseat ?_ hmem d true
      rw [hctl]
      exact State.acting_task
    · rw [h.1] at hq
      cases hq
  · rw [acting_stream hq] at hf hctl
    refine ⟨t.ssNext, ?_, hP _ ?_ ?_ rfl, fun hc => ?_, fun _ => ⟨?_, ?_, fun a => ?_⟩⟩
    · rw [e]
      simp only [streamWord, onStream, hq, ha, hhalt, hfrozen, hheld, hf, if_true, Bool.not_true, Bool.or_self,
        Bool.false_eq_true, if_false]
    · simp [State.ssNext]
    · simp [State.ssNext]
    · rw [hq] at hc
      cases hc
    · simp [State.ssNext, hss]
    · simp [State.ssNext, hctl]
    · rw [State.ssNext_mem, hmem]

end
/-! ## The ordered-domain check (R174) -/

/-- As `irrevocableFirst_of_settling`, of a word that is a control word at the seat at hand only. -/
theorem irrevocableFirst_of_control {i : Instr} {g : Guard} {uses : List Dest} {F f : State → State}
    (h : Issues s g uses) (e : ∀ u, u.seat.seq = .control → exec i u = control g uses u F)
    (hs : F s = s.settling f) (hu : F (irrevocably s) = (irrevocably s).settling f) : IrrevocableFirst i s := by
  have hi : Issues (irrevocably s) g uses := h.irrevocably
  intro ht hirr
  refine ⟨fun ho => ?_, fun ho n x hn hx hw => ?_⟩
  · rw [e s h.1, e _ hi.1, control_of_issues h, control_of_issues hi, hs, hu,
      State.settling_of_unordered (irrevocably_unordered s)]
    unfold State.settling
    rw [State.irrevocable_of_oldest ht hirr ho]
    rfl
  · obtain ⟨hc, hm, hseat, hf⟩ := State.unwind_undone s s.seat.core n x .waitOldest hn hx hw
    refine ⟨_, by rw [e s h.1, control_of_issues h, hs, State.settling, State.irrevocable_of_later ht hirr ho], ?_,
      fun a => by rw [hm], ?_⟩
    · rw [State.here, hseat, hc]
      rfl
    · rw [State.here, hseat]
      exact ⟨_, hf, rfl, rfl, rfl⟩

theorem streamWord_irrevocableFirst {i : Instr} {g : Guard} {d : Pred} {b : Reg} {uses : List Dest}
    {held : State → Bool} {f : State → Sres} (h : Issues s g (.q d :: .g b :: uses))
    (e : ∀ u, exec i u = streamWord g d b uses held u f) (hs : held s = false) (hu : held (irrevocably s) = false) :
    IrrevocableFirst i s := by
  have hcontrol (u : State) (hq : u.seat.seq = .control) : ¬ u.seat.seq = .stream := by simp [hq]
  exact irrevocableFirst_of_control h (fun u hq => (e u).trans (if_neg (hcontrol u hq)))
    (by exact if_neg (Bool.eq_false_iff.1 hs)) (by exact if_neg (Bool.eq_false_iff.1 hu))

/-! ## Queueing a command (R133, R416) -/

/-- The lines that a command counts as a reader of, each once. -/
def Cmd.counted (c : Nat) (m : Cmd) : List Nat := if Desc.drain m.d then itemsLines c (Desc.size m.d) m.items else []

theorem Cmd.nodup_counted (c : Nat) (m : Cmd) : (m.counted c).Nodup := by
  unfold Cmd.counted
  split
  · exact nodup_eraseDups _
  · exact List.nodup_nil

theorem Cmd.mem_counted {c : Nat} {m : Cmd} {l : Nat} :
    l ∈ m.counted c ↔ Desc.drain m.d = true ∧ l ∈ itemsLines c (Desc.size m.d) m.items := by
  unfold Cmd.counted
  split <;> simp_all

/-- The readers of lines once each line of a list has one more. -/
def countReaders (t : Tbl Nat) (l : List Nat) : Tbl Nat := l.foldl (fun t l => Tbl.set 0 t l (Tbl.get 0 t l + 1)) t

theorem get_countReaders (t : Tbl Nat) {l : List Nat} (hl : l.Nodup) (j : Nat) :
    Tbl.get 0 (countReaders t l) j = Tbl.get 0 t j + if j ∈ l then 1 else 0 := by
  induction l generalizing t with
  | nil => simp [countReaders]
  | cons a r ih =>
    rw [List.nodup_cons] at hl
    have e : countReaders t (a :: r) = countReaders (Tbl.set 0 t a (Tbl.get 0 t a + 1)) r := rfl
    rw [e, ih _ hl.2, Tbl.get_set]
    by_cases hj : j = a
    · subst hj
      simp [hl.1]
    · simp [hj]

/-- The machine once a command has joined its port's queue. -/
def State.queued (s : State) (p : Nat) (m : Cmd) : State :=
  ((({ s with readers := countReaders s.readers (m.counted s.seat.core) } : State).modPort s.seat.core p
    (fun x => { x with q := x.q ++ [m] })).modChain s.seat.core m.chain (fun x => { x with cp := x.cp + 1 })).bump

section
variable {p : Nat} {kind : CmdKind} {D : BitVec 512}

theorem queueCmd_full (h : 8 ≤ (s.here.port p).q.length
    ∨ ∃ l ∈ (Cmd.mk kind D s.streamChain s.opSeq).counted s.seat.core, 15 ≤ s.readersOf l) :
    queueCmd s p kind D = .no := by
  unfold queueCmd
  refine if_pos ?_
  rw [Bool.or_eq_true, decide_eq_true_iff, List.any_eq_true]
  simpa [Cmd.counted] using h

theorem queueCmd_of_room (hq : (s.here.port p).q.length < 8)
    (hr : ∀ l ∈ (Cmd.mk kind D s.streamChain s.opSeq).counted s.seat.core, s.readersOf l < 15) :
    queueCmd s p kind D = if (s.here.chain s.streamChain).cp = 65535 then .fault 11 2
      else .yes (s.queued p ⟨kind, D, s.streamChain, s.opSeq⟩) := by
  unfold queueCmd
  refine if_neg ?_
  rw [Bool.or_eq_true, decide_eq_true_iff, List.any_eq_true]
  rintro (h | ⟨l, hl, h⟩)
  · omega
  · have := hr l hl
    rw [decide_eq_true_iff] at h
    omega

theorem State.queued_frame (t : State) (p : Nat) (m : Cmd) : (t.queued p m).seat = t.seat
    ∧ (t.queued p m).mem = t.mem ∧ (t.queued p m).readers = countReaders t.readers (m.counted t.seat.core)
    ∧ (t.queued p m).here = { t.here with
        ports := t.here.ports.put p { t.here.port p with q := (t.here.port p).q ++ [m] }
        chains := t.here.chains.put m.chain { t.here.chain m.chain with cp := (t.here.chain m.chain).cp + 1 } } := by
  refine ⟨rfl, rfl, rfl, ?_⟩
  have hhere : State.here { t with readers := countReaders t.readers (m.counted t.seat.core) } = t.here := rfl
  unfold State.queued
  rw [State.here_bump, State.modPort_eq, State.modChain_setCore, State.here_setCore, if_pos rfl]
  rfl

/-- Whatever has the ports, the chains and the readers of the machine with the command queued. -/
theorem queued_acting {u : State} {m : Cmd} (hports : u.here.ports = (s.acting.queued p m).here.ports)
    (hchains : u.here.chains = (s.acting.queued p m).here.chains)
    (hread : u.readers = (s.acting.queued p m).readers) : Queued s u p m := by
  obtain ⟨-, -, hr, hhere⟩ := s.acting.queued_frame p m
  rw [hhere] at hports hchains
  rw [hr] at hread
  refine ⟨?_, fun j hj => ?_, ?_, fun l => ?_⟩
  · rw [Core.port, hports, Tbl.get_put, if_pos rfl, State.acting_port]
  · rw [Core.port, hports, Tbl.get_put, if_neg hj]
    exact State.acting_port j
  · rw [Core.chain, hchains, Tbl.get_put, if_pos rfl, State.acting_chain]
  · rw [State.readersOf, hread, get_countReaders _ (m.nodup_counted _), State.acting_seat, State.acting_readers]
    simp only [Cmd.mem_counted]
    rfl

end

/-- The chain to which a stream word's command belongs. -/
def StreamChain (s : State) (ch : Nat) : Prop :=
  (s.seat.seq = .control → ch = s.here.ctl.chain) ∧ (s.seat.seq = .stream → ch = s.here.ss.chain)

theorem streamChain_acting {g : Guard} {uses : List Dest} {ch : Nat} (h : StreamIssues s g uses)
    (hch : StreamChain s ch) :
    s.acting.streamChain = ch := by
  unfold State.streamChain
  rw [State.acting_seat]
  obtain ⟨h, -⟩ | ⟨hq, -⟩ := h
  · rw [hch.1 h.1, h.1, acting_control h.1, State.settled_here]
  · rw [hch.2 hq, hq, acting_stream hq]

theorem queues_of {i : Instr} {g : Guard} {d : Pred} {b : Reg} {uses : List Dest} {held : State → Bool}
    {f : State → Sres} {p ch : Nat} {kind : CmdKind} {D : BitVec 512}
    (h : StreamIssues s g (.q d :: .g b :: uses)) (e : exec i s = streamWord g d b uses held s f)
    (hheld : held s = false)
    (hch : StreamChain s ch)
    (hf : f s.acting = queueCmd s.acting p kind D) : Queues i s d p ⟨kind, D, ch, s.opSeq⟩ := by
  have hchain := streamChain_acting h hch
  have hm : Cmd.mk kind D s.acting.streamChain s.acting.opSeq = ⟨kind, D, ch, s.opSeq⟩ := by
    rw [hchain, State.acting_opSeq]
  refine ⟨fun hfull => streamWord_refuses h e hheld ?_, fun hq hr => ?_⟩
  · rw [hf, queueCmd_full]
    rw [hm, State.acting_port, State.acting_seat]
    simpa only [Cmd.mem_counted, State.acting_readersOf, and_assoc, exists_and_left] using hfull
  · have hroom : queueCmd s.acting p kind D = if (s.here.chain ch).cp = 65535 then .fault 11 2
        else .yes (s.acting.queued p ⟨kind, D, ch, s.opSeq⟩) := by
      rw [queueCmd_of_room (by rwa [State.acting_port]), hm, hchain, State.acting_chain]
      rw [hm, State.acting_seat]
      intro l hl
      rw [Cmd.mem_counted] at hl
      rw [State.acting_readersOf]
      exact hr hl.1 l hl.2
    refine ⟨fun hc => streamWord_faults h e hheld (by rw [hf, hroom, if_pos hc]), fun hc => ?_⟩
    obtain ⟨hseat, hmem, -, hhere⟩ := s.acting.queued_frame p ⟨kind, D, ch, s.opSeq⟩
    refine streamWord_acts h e hheld (by rw [hf, hroom, if_neg hc]) (hseat.trans State.acting_seat)
      (hmem.trans State.acting_mem) ?_ ?_ fun u => queued_acting
    · rw [hhere]
    · rw [hhere, State.acting_here]

/-! ## The operands (R414) -/

theorem portCode_none {v : Word} (h : 32 ≤ v.toNat) : portCode v = none := by
  have := v.isLt
  rw [portCode, if_pos]
  rw [extract_ne]
  omega

theorem portCode_some {v : Word} {p : Nat} (h : v.toNat = p) (hp : p < 32) : portCode v = some p := by
  rw [portCode, if_neg, h]
  rw [extract_ne]
  omega

theorem sourceCode_none {v : Word} (h : 16 ≤ v.toNat) : sourceCode v = none := by
  by_cases hp : v.toNat < 32
  · rw [sourceCode, portCode_some rfl hp, Option.bind_some, if_neg (by omega)]
  · rw [sourceCode, portCode_none (by omega), Option.bind_none]

theorem sourceCode_some {v : Word} {p : Nat} (h : v.toNat = p) (hp : p < 16) : sourceCode v = some p := by
  rw [sourceCode, portCode_some h (by omega), Option.bind_some, if_pos hp]

theorem localBlock_eq (a : Word) (n align : Nat) : localBlock a n align =
    if a.toNat / 2 ^ 60 ≠ 1 ∨ 0x80000 < a.toNat % 2 ^ 60 + n then some (4, a)
    else if a.toNat % align ≠ 0 then some (5, a) else none := by
  simp only [localBlock, (spaceNat a).1, (spaceNat a).2]

theorem localBlock_address {a : Word} {n align : Nat} (h : a.toNat / 2 ^ 60 ≠ 1 ∨ 0x80000 < a.toNat % 2 ^ 60 + n) :
    localBlock a n align = some (4, a) := by
  rw [localBlock_eq, if_pos h]

theorem localBlock_misaligned {a : Word} {n align : Nat} (h1 : a.toNat / 2 ^ 60 = 1)
    (h2 : a.toNat % 2 ^ 60 + n ≤ 0x80000) (h : a.toNat % align ≠ 0) : localBlock a n align = some (5, a) := by
  rw [localBlock_eq, if_neg (by omega), if_pos h]

theorem localBlock_ok {a : Word} {n align : Nat} (h1 : a.toNat / 2 ^ 60 = 1)
    (h2 : a.toNat % 2 ^ 60 + n ≤ 0x80000) (h : a.toNat % align = 0) : localBlock a n align = none := by
  rw [localBlock_eq, if_neg (by omega), if_neg (not_not.2 h)]

/-! ## `scopy`, `sim2c` and `sgath` (R416-R418) -/

section
variable {g : Guard} {d : Pred} {a b : Reg} {n : BitVec 7} {p ch : Nat} {D : BitVec 512}
  (h : StreamIssues s g [.q d, .g b, .g a])
include h

theorem scopy_portFault (hb : 32 ≤ (s.reg b).toNat) : StreamFaults (.scopy g d a b) s 7 (s.reg b) :=
  streamWord_faults h rfl rfl (by simp only [State.acting_reg, portCode_none hb])

theorem sim2c_portFault (hb : 16 ≤ (s.reg b).toNat) : StreamFaults (.sim2c g d a b) s 7 (s.reg b) :=
  streamWord_faults h rfl rfl (by simp only [State.acting_reg, sourceCode_none hb])

theorem sgath_held (hheld : s.fenced s.seat.core 3 s.opSeq = true) : exec (.sgath g d a b n) s = .next s :=
  streamWord_held h rfl hheld

theorem sgath_portFault (hheld : s.fenced s.seat.core 3 s.opSeq = false) (hb : 16 ≤ (s.reg b).toNat) :
    StreamFaults (.sgath g d a b n) s 7 (s.reg b) :=
  streamWord_faults h rfl hheld (by simp only [State.acting_reg, sourceCode_none hb])

section
variable (hb : (s.reg b).toNat = p)
include hb

theorem scopy_refuses (hp : p < 32) (hD : (s.here.port p).desc = none) : StreamRefuses (.scopy g d a b) s d :=
  streamWord_refuses h rfl rfl (by simp only [State.acting_reg, portCode_some hb hp, State.acting_port, hD])

theorem scopy_queues (hch : StreamChain s ch) (hp : p < 32) (hD : (s.here.port p).desc = some D) :
    Queues (.scopy g d a b) s d p ⟨.copy, Desc.shift D (s.reg a), ch, s.opSeq⟩ :=
  queues_of h rfl rfl hch (by simp only [State.acting_reg, portCode_some hb hp, State.acting_port, hD])

variable (hp : p < 16)
include hp

theorem sim2c_operandFault (ha : 2 ^ 32 ≤ (s.reg a).toNat) : StreamFaults (.sim2c g d a b) s 7 (s.reg a) := by
  have := (s.reg a).isLt
  refine streamWord_faults h rfl rfl ?_
  simp only [State.acting_reg, sourceCode_some hb hp, extract_ne]
  rw [if_pos (by omega)]

theorem sim2c_refuses (ha : (s.reg a).toNat < 2 ^ 32) (hD : (s.here.port p).desc = none) :
    StreamRefuses (.sim2c g d a b) s d := by
  refine streamWord_refuses h rfl rfl ?_
  simp only [State.acting_reg, sourceCode_some hb hp, extract_ne, State.acting_port, hD]
  rw [if_neg (by omega)]

theorem sim2c_queues (hch : StreamChain s ch) (ha : (s.reg a).toNat < 2 ^ 32) (hD : (s.here.port p).desc = some D) :
    Queues (.sim2c g d a b) s d p
      ⟨.sim2c ((s.reg a).toNat % 2 ^ 16 + 1) ((s.reg a).extractLsb' 16 16), D, ch, s.opSeq⟩ := by
  refine queues_of h rfl rfl hch ?_
  simp only [State.acting_reg, sourceCode_some hb hp, extract_ne, State.acting_port, hD]
  rw [if_neg (by omega), extract_nat, Nat.pow_zero, Nat.div_one]

section
variable (hheld : s.fenced s.seat.core 3 s.opSeq = false)
include hheld

theorem sgath_blockFault {cause : Nat} {v : Word}
    (hblock : localBlock (s.reg a) (4 * (n.toNat + 1)) 4 = some (cause, v)) :
    StreamFaults (.sgath g d a b n) s cause v :=
  streamWord_faults h rfl hheld (by simp only [State.acting_reg, sourceCode_some hb hp, hblock])

variable (hblock : localBlock (s.reg a) (4 * (n.toNat + 1)) 4 = none)
include hblock

theorem sgath_unbound (hD : (s.here.port p).desc = none) : StreamRefuses (.sgath g d a b n) s d :=
  streamWord_refuses h rfl hheld (by
    simp only [State.acting_reg, sourceCode_some hb hp, hblock, State.acting_port, hD])

section
variable (hD : (s.here.port p).desc = some D) {lines : List Nat}
  (hlines : lines = spLines s.seat.core ((s.reg a).toNat % 2 ^ 60) (4 * (n.toNat + 1)))
include hD hlines

theorem sgath_empty (hl : ∃ l ∈ lines, s.isEmpty l = true) : StreamRefuses (.sgath g d a b n) s d := by
  have hany : lines.any s.acting.isEmpty = true := by simpa using hl
  refine streamWord_refuses h rfl hheld ?_
  simp only [State.acting_reg, sourceCode_some hb hp, hblock, State.acting_port, hD, State.acting_seat,
    (spaceNat (s.reg a)).2, ← hlines]
  rw [if_pos hany]

variable (hfull : ∀ l ∈ lines, s.isEmpty l = false)
include hfull

theorem sgath_poisonFault (hl : ∃ l ∈ lines, s.isBad l = true) : StreamFaults (.sgath g d a b n) s 7 (s.reg a) := by
  have hempty : ¬ lines.any s.acting.isEmpty = true := by simpa using hfull
  have hbad : lines.any s.acting.isBad = true := by simpa using hl
  refine streamWord_faults h rfl hheld ?_
  simp only [State.acting_reg, sourceCode_some hb hp, hblock, State.acting_port, hD, State.acting_seat,
    (spaceNat (s.reg a)).2, ← hlines]
  rw [if_neg hempty, if_pos hbad]

theorem sgath_queues (hch : StreamChain s ch)
    (hclean : ∀ l ∈ lines, s.isBad l = false) : Queues (.sgath g d a b n) s d p
      ⟨.gath ((chunks 4 (n.toNat + 1) (s.spBytes s.seat.core ((s.reg a).toNat % 2 ^ 60)
        (4 * (n.toNat + 1)))).map (fun l => BitVec.ofNat 32 (leNat l))), D, ch, s.opSeq⟩ := by
  have hempty : ¬ lines.any s.acting.isEmpty = true := by simpa using hfull
  have hbad : ¬ lines.any s.acting.isBad = true := by simpa using hclean
  refine queues_of h rfl hheld hch ?_
  simp only [State.acting_reg, sourceCode_some hb hp, hblock, State.acting_port, hD, State.acting_seat,
    (spaceNat (s.reg a)).2, ← hlines]
  rw [if_neg hempty, if_neg hbad, State.acting_spBytes]
  rfl

end
end
end
end

/-! ## `sstop` (R419) -/

/-- A command has left its port: of the core's record its chain's `cnt.cp` differs. -/
theorem State.dropCmd_here (u : State) (m : Cmd) (l : List Item) : (u.dropCmd u.seat.core m l).seat = u.seat
    ∧ (u.dropCmd u.seat.core m l).here = { u.here with
        chains := u.here.chains.put m.chain { u.here.chain m.chain with cp := (u.here.chain m.chain).cp - 1 } } := by
  have hconsumed (l : List Nat) (u : State) : (l.foldl State.consumed u).seat = u.seat
      ∧ (l.foldl State.consumed u).here = u.here := by
    induction l generalizing u with
    | nil => exact ⟨rfl, rfl⟩
    | cons a r ih =>
      have ha : (u.consumed a).seat = u.seat ∧ (u.consumed a).here = u.here := by
        unfold State.consumed
        dsimp only
        split <;> exact ⟨rfl, rfl⟩
      rw [List.foldl_cons, (ih _).1, (ih _).2]
      exact ha
  unfold State.dropCmd
  generalize hv : (if Desc.drain m.d then (itemsLines u.seat.core (Desc.size m.d) l).foldl State.consumed u else u) = v
  have hseat : v.seat = u.seat ∧ v.here = u.here := by
    subst hv
    split
    · exact hconsumed _ u
    · exact ⟨rfl, rfl⟩
  obtain ⟨hseat, hhere⟩ := hseat
  have hcore : v.core u.seat.core = u.here := by rw [← hseat, ← hhere]; rfl
  dsimp only
  rw [State.modChain_eq, State.here_setCore, hcore, hseat, if_pos rfl]
  exact ⟨hseat, rfl⟩

/-- Commands have left their port: of the core's record the counters `cnt.cp` differ, each by its chain's commands. -/
theorem State.dropAll_here (u : State) (l : List Cmd) :
    let w := l.foldl (fun s m => s.dropCmd u.seat.core m m.items) u
    w.seat = u.seat ∧ w.here = { u.here with chains := w.here.chains }
      ∧ ∀ ch, (w.here.chain ch).cp = (u.here.chain ch).cp - l.countP (fun m => m.chain == ch) := by
  induction l generalizing u with
  | nil => exact ⟨rfl, rfl, fun _ => rfl⟩
  | cons m r ih =>
    obtain ⟨hseat, hhere⟩ := u.dropCmd_here m m.items
    obtain ⟨iseat, ihere, icp⟩ := ih (u.dropCmd u.seat.core m m.items)
    rw [hseat] at iseat ihere icp
    dsimp only [List.foldl_cons]
    refine ⟨iseat, ?_, fun ch => ?_⟩
    · rw [ihere, hhere]
    · rw [icp, hhere, List.countP_cons, Core.chain, Tbl.get_put]
      by_cases hm : m.chain = ch
      · subst hm
        simp
        omega
      · rw [if_neg (Ne.symm hm), if_neg (by simpa using hm)]
        rfl

/-- The command that a port carries out has left it. -/
def State.dropRun (u : State) (p : Nat) : State :=
  match (u.here.port p).run with
  | some r => (u.dropCmd u.seat.core r.cmd r.items).modPort u.seat.core p
      (fun x => { x with run := none, stalled := false })
  | none => u

theorem State.dropRun_here (u : State) (p : Nat) :
    (u.dropRun p).seat = u.seat
      ∧ (u.dropRun p).here = { u.here with ports := (u.dropRun p).here.ports, chains := (u.dropRun p).here.chains }
      ∧ (u.dropRun p).here.port p = { u.here.port p with run := none, stalled := ((u.dropRun p).here.port p).stalled }
      ∧ ∀ ch, ((u.dropRun p).here.chain ch).cp = (u.here.chain ch).cp
        - if (u.here.port p).run.any (fun r => r.cmd.chain == ch) then 1 else 0 := by
  unfold State.dropRun
  cases hrun : (u.here.port p).run with
  | none =>
    refine ⟨rfl, rfl, ?_, fun ch => rfl⟩
    dsimp only
    generalize u.here.port p = x at hrun
    cases x
    cases hrun
    rfl
  | some r =>
    obtain ⟨hseat, hhere⟩ := u.dropCmd_here r.cmd r.items
    have hcore : (u.dropCmd u.seat.core r.cmd r.items).core u.seat.core = (u.dropCmd u.seat.core r.cmd r.items).here := by
      rw [State.here, hseat]
    dsimp only
    rw [State.modPort_eq, State.here_setCore, hcore, hseat, if_pos rfl, hhere]
    refine ⟨hseat, rfl, ?_, fun ch => ?_⟩
    · simp only [Core.port, Tbl.get_put, if_true]
    · rw [Core.chain, Tbl.get_put]
      by_cases hch : ch = r.cmd.chain
      · subst hch
        simp
      · rw [if_neg hch]
        simp [Ne.symm hch, Core.chain]

/-- A port has no command left (R419). -/
theorem State.dropCmds_here (u : State) (p : Nat) :
    let w := u.dropCmds u.seat.core p (fun _ => true)
    w.seat = u.seat ∧ w.here = { u.here with ports := w.here.ports, chains := w.here.chains }
      ∧ w.here.port p = { u.here.port p with q := [], run := none, stalled := (w.here.port p).stalled }
      ∧ ∀ ch, (w.here.chain ch).cp = (u.here.chain ch).cp - ((u.here.port p).q.countP (fun m => m.chain == ch)
        + if (u.here.port p).run.any (fun r => r.cmd.chain == ch) then 1 else 0) := by
  have e : u.dropCmds u.seat.core p (fun _ => true) = (((u.here.port p).q.foldl
      (fun s m => s.dropCmd u.seat.core m m.items) (u.dropRun p)).modPort u.seat.core p (fun x => { x with q := [] })) := by
    unfold State.dropCmds State.dropRun
    rw [State.core_seat]
    cases hrun : (u.here.port p).run <;> simp [hrun]
  obtain ⟨rseat, rhere, rport, rcp⟩ := u.dropRun_here p
  obtain ⟨aseat, ahere, acp⟩ := (u.dropRun p).dropAll_here (u.here.port p).q
  dsimp only at aseat ahere acp ⊢
  rw [rseat] at aseat ahere acp
  rw [e]
  generalize (u.here.port p).q.foldl (fun s m => s.dropCmd u.seat.core m m.items) (u.dropRun p) = v at aseat ahere acp
  have hcore : v.core u.seat.core = v.here := by rw [State.here, aseat]
  rw [State.modPort_eq, State.here_setCore, aseat, if_pos rfl, hcore]
  refine ⟨aseat, ?_, ?_, fun ch => ?_⟩
  · rw [ahere, rhere]
  · have hport : v.here.port p = (u.dropRun p).here.port p := by
      rw [ahere]
      rfl
    simp only [Core.port, Tbl.get_put, if_true]
    rw [show Tbl.get {} v.here.ports p = v.here.port p from rfl, hport, rport]
    rfl
  · have hcp := acp ch
    rw [rcp, Nat.sub_sub, Nat.add_comm] at hcp
    exact hcp

section
variable {g : Guard} {d b : Reg} {keep : Bool} {p : Nat}

theorem sstop_irrevocableFirst (h : Issues s g [.g d, .g b]) : IrrevocableFirst (.sstop g d b keep) s := by
  have hcontrol (u : State) (hq : u.seat.seq = .control) : ¬ u.seat.seq = .stream := by simp [hq]
  exact irrevocableFirst_of_control h (fun u hq => if_neg (hcontrol u hq)) rfl rfl

theorem sstop_portFault (h : StreamIssues s g [.g d, .g b]) (hb : 32 ≤ (s.reg b).toNat) :
    StreamFaults (.sstop g d b keep) s 7 (s.reg b) := by
  obtain ⟨h, hu⟩ | ⟨hq, ha, hhalt, hfrozen⟩ := h
  · refine faults_of_trap h.1 ?_
    simp [execSstop, h.1, control_of_issues h, State.settling_of_unordered hu, portCode_none hb]
  · refine faults_of_streamStop hq (port := none) ?_
    simp [execSstop, onStream, hq, ha, hhalt, hfrozen, portCode_none hb]

theorem State.stopPort_frame (u : State) (p : Nat) (keep : Bool) : (u.stopPort p keep).1.seat = u.seat
    ∧ (u.stopPort p keep).1.mem = u.mem ∧ (u.stopPort p keep).1.here = { u.here with
      ports := (u.stopPort p keep).1.here.ports, chains := (u.stopPort p keep).1.here.chains } := by
  cases keep with
  | true => exact ⟨rfl, rfl, rfl⟩
  | false =>
    obtain ⟨hseat, hhere, -, -⟩ := u.dropCmds_here p
    exact ⟨hseat, u.dropCmds_mem u.seat.core p (fun _ => true), hhere⟩

/-- What `sstop` leaves of its port (R419). -/
def Stopped (s t : State) (p : Nat) (keep : Bool) : Prop :=
  (keep = true → t.here.ports = s.here.ports ∧ t.here.chains = s.here.chains ∧ t.readers = s.readers)
    ∧ (keep = false → (t.here.port p).q = [] ∧ (t.here.port p).run = none
      ∧ (t.here.port p).buf = (s.here.port p).buf
      ∧ ∀ ch, (t.here.chain ch).cp = (s.here.chain ch).cp
        - ((s.here.port p).q.countP (fun m => m.chain == ch)
          + if (s.here.port p).run.any (fun r => r.cmd.chain == ch) then 1 else 0))

/-- Whatever has the ports, the chains and the readers of the machine once the port has stopped. -/
theorem stopped_acting {t : State} (hports : t.here.ports = (s.acting.stopPort p keep).1.here.ports)
    (hchains : t.here.chains = (s.acting.stopPort p keep).1.here.chains)
    (hread : t.readers = (s.acting.stopPort p keep).1.readers) : Stopped s t p keep := by
  refine ⟨?_, ?_⟩
  · rintro rfl
    refine ⟨?_, ?_, ?_⟩
    · rw [hports, State.stopPort, if_pos rfl, State.acting_here]
    · rw [hchains, State.stopPort, if_pos rfl, State.acting_here]
    · rw [hread]
      exact State.acting_readers
  · rintro rfl
    obtain ⟨-, -, hport, hcp⟩ := s.acting.dropCmds_here p
    have hp : t.here.port p = (s.acting.dropCmds s.acting.seat.core p (fun _ => true)).here.port p := by
      rw [Core.port, hports]
      rfl
    have hc (ch : Nat) : t.here.chain ch = (s.acting.dropCmds s.acting.seat.core p (fun _ => true)).here.chain ch := by
      rw [Core.chain, hchains]
      rfl
    rw [hp, hport, State.acting_port]
    refine ⟨rfl, rfl, rfl, fun ch => ?_⟩
    rw [hc, hcp, State.acting_chain, State.acting_port]

theorem sstop_stops (h : StreamIssues s g [.g d, .g b]) (hb : (s.reg b).toNat = p) (hp : p < 32) :
    Completes (.sstop g d b keep) s (fun t => MemoryKept s t ∧ Stopped s t p keep
      ∧ (s.seat.seq = .control → (∀ p, t.pred p = s.pred p) ∧ StepsPc s t
        ∧ ∀ r, t.reg r = if r = d ∧ r ≠ 0 then ((s.here.port p).read ++ (s.here.port p).posted).setWidth 64
          else s.reg r)
      ∧ (s.seat.seq = .stream → t.here.ss = { s.here.ss with pc := s.here.ss.pc + 1 } ∧ t.here.ctl = s.here.ctl)) := by
  obtain ⟨fseat, fmem, fhere⟩ := s.acting.stopPort_frame p keep
  have hstop (t : State) := stopped_acting (s := s) (p := p) (keep := keep) (t := t)
  obtain ⟨h, hu⟩ | ⟨hq, ha, hhalt, hfrozen⟩ := h
  · rw [acting_control h.1] at fseat fmem fhere hstop
    have hanswer := answersReg (u := (s.settled.stopPort p keep).1) h.1 fseat (by rw [fhere]; exact settled_ctl) fmem d
      (s.settled.stopPort p keep).2
    have hvalue : (s.settled.stopPort p keep).2 = ((s.here.port p).read ++ (s.here.port p).posted).setWidth 64 := by
      rw [State.stopPort, State.settled_here]
      rfl
    obtain ⟨hreg, hpred, hpc, hmem⟩ := hanswer
    refine ⟨_, ?_, hmem, hstop _ ?_ ?_ rfl, fun _ => ⟨hpred, hpc, fun r => ?_⟩, fun hq => ?_⟩
    · simp [execSstop, h.1, control_of_issues h, State.settling_of_unordered hu, portCode_some hb hp]
    · simp [State.result_eq]
    · simp [State.result_eq]
    · rw [hreg r, hvalue]
    · rw [h.1] at hq
      cases hq
  · rw [acting_stream hq] at fseat fmem fhere hstop
    have hss : (s.stopPort p keep).1.here.ss = s.here.ss := by rw [fhere]
    have hctl : (s.stopPort p keep).1.here.ctl = s.here.ctl := by rw [fhere]
    refine ⟨(s.stopPort p keep).1.ssNext, ?_, fun a => ?_, hstop _ ?_ ?_ rfl, fun hc => ?_, fun _ => ⟨?_, ?_⟩⟩
    · simp [execSstop, onStream, hq, ha, hhalt, hfrozen, portCode_some hb hp]
    · rw [State.ssNext_mem, fmem]
    · simp [State.ssNext]
    · simp [State.ssNext]
    · rw [hq] at hc
      cases hc
    · simp [State.ssNext, hss]
    · simp [State.ssNext, hctl]

end
end

/-- Settles O24. -/
theorem streamCommandsAndStop : Obligations.StreamCommandsAndStop := by
  unfold Obligations.StreamCommandsAndStop
  refine ⟨fun s g d a b n p D ch h hch => ⟨fun u hu => ⟨?_, ?_, fun hheld => ?_⟩, scopy_portFault h, sim2c_portFault h,
    sgath_held h, fun hb hheld => sgath_portFault h hheld hb, fun hb hp => ⟨scopy_refuses h hb hp,
      scopy_queues h hb hch hp⟩, fun hb hp => ⟨sim2c_operandFault h hb hp, sim2c_refuses h hb hp, sim2c_queues h hb hp hch,
      fun hheld => ⟨fun haddr => ?_, fun h1 h2 => ⟨fun hal => ?_, fun hal => ?_⟩⟩⟩⟩, ?_⟩
  · exact streamWord_irrevocableFirst hu (fun _ => rfl) rfl rfl
  · exact streamWord_irrevocableFirst hu (fun _ => rfl) rfl rfl
  · exact streamWord_irrevocableFirst hu (fun _ => rfl) hheld ((irrevocably_fenced ..).trans hheld)
  · exact sgath_blockFault h hb hp hheld (localBlock_address haddr)
  · exact sgath_blockFault h hb hp hheld (localBlock_misaligned h1 h2 hal)
  · have hblock := localBlock_ok h1 h2 hal
    exact ⟨sgath_unbound h hb hp hheld hblock, fun hD lines hlines =>
      ⟨sgath_empty h hb hp hheld hblock hD hlines, fun hfull =>
        ⟨sgath_poisonFault h hb hp hheld hblock hD hlines hfull,
          sgath_queues h hb hp hheld hblock hD hlines hfull hch⟩⟩⟩
  · refine fun s g d b keep p h => ⟨fun u hu => sstop_irrevocableFirst hu, sstop_portFault h, fun hb hp => ?_⟩
    obtain ⟨t, ht, hmem, ⟨hkeep, hstop⟩, hcontrol, hstream⟩ := sstop_stops h hb hp
    exact ⟨t, ht, hmem, hkeep, hstop, hcontrol, hstream⟩

end Sys2Proof.Machine
end

section
/-!
O10. A store that goes to its home at issue aborts the later readers of its line (R174): `State.abortReaders` goes
through the table of cores entry by entry, but `State.abortSlot` finds a core by its number. Where the table lists a
number twice the two speak of different records, and an entry that no lookup sees brings the abort down on the storing
task itself, irrevocable though it is. The obligation asks nothing of the table of cores, so such a state refutes
it; the counterexample needs the number listed twice.
-/

namespace Sys2Proof.Machine

/-- A task table whose entry 0 is of an ordered domain. -/
def orderedTasks : Tbl TaskEntry := [(0, { ord := true })]

/-- Core 0 as lookups see it: slot 0 runs an irrevocable ordered task whose write buffer has overflowed, and g1 holds
the base of the local space. -/
def storingCore : Core where
  tasks := orderedTasks
  slots := [(0, { st := .running })]
  ctl := { slot := some 0, g := [(1, 0x1000000000000000)], work := { ovfl := true, irrev := true } }

/-- A second record under number 0, in which slot 0 runs a later task that has read line 0. -/
def hiddenReader : Core where
  tasks := orderedTasks
  slots := [(0, { st := .running, stamp := 1 })]
  ctl := { slot := some 0, stamp := 1, work := { reads := [0] } }

/-- The state that lists core 0 twice. -/
def coreListedTwice : State where
  cores := [(0, storingCore), (0, hiddenReader)]

/-- `st.b [g1], g0`. -/
def storeByteAtBase : Instr := .st ⟨0, 0⟩ .b 0 1 0

theorem coreListedTwice_issues : Issues coreListedTwice ⟨0, 0⟩ [.g 0, .g 1] := by
  unfold Issues
  decide

theorem coreListedTwice_unordered : Unordered coreListedTwice := .inr rfl

/-- The line of the store is its core's line 0, which the hidden record has read. -/
theorem coreListedTwice_place :
    placeOf coreListedTwice.seat.core (memAddr (coreListedTwice.reg 1) .b 0) (sizeBytes .b) = .scratch 0 0 := by
  decide

/-- The buffer has overflowed already and the port holds no atomic, so the byte goes to its home. -/
theorem exec_storeByteAtBase :
    exec storeByteAtBase coreListedTwice = .next (coreListedTwice.storeHome 0 0 [0]).stepPc := by
  rw [storeByteAtBase, exec_st, execSt, control_of_issues coreListedTwice_issues]
  rfl

/-- The abort that the hidden record brings on unwinds the storing task, and its work with it. -/
theorem storeByteAtBase_drops_work :
    (coreListedTwice.storeHome 0 0 [0]).stepPc.here.ctl.work.ovfl = false := by
  decide

/-- Refutes O10: in `coreListedTwice` the irrevocable task's own store to its home aborts it, by the record of core 0
that no lookup sees, so its write buffer does not stay overflowed. -/
theorem not_storeWaitsInWriteBuffer : ¬ Obligations.StoreWaitsInWriteBuffer := by
  unfold Obligations.StoreWaitsInWriteBuffer
  intro h
  obtain ⟨-, hscratch⟩ := h coreListedTwice ⟨0, 0⟩ .b 0 1 0 coreListedTwice_issues
  obtain ⟨-, -, -, hhome⟩ := hscratch 0 0 coreListedTwice_place
  obtain ⟨-, hfree⟩ := hhome (by decide) coreListedTwice_unordered (.inl rfl)
  obtain ⟨t, ht, -, hovfl, -⟩ := hfree rfl
  obtain rfl := Host.Outcome.next.inj (exec_storeByteAtBase.symm.trans ht)
  exact absurd (storeByteAtBase_drops_work.symm.trans hovfl) (by decide)

end Sys2Proof.Machine
end

section
/-!
O56: the fault queues, the mode of a partition, and the supervisor's registers.
-/

namespace Sys2Proof.Machine

/-! ## What the firmware does (R256) -/

section
variable {s : State}

theorem State.booted_of (h : s.bstate = 3) : s.booted = true := by
  rw [State.booted, h]
  rfl

theorem State.not_booted_of (h : s.bstate ≠ 3) : s.booted = false := by
  rw [State.booted]
  exact beq_false_of_ne h

theorem State.fw_of_booted (h : s.bstate = 3) (f : State → State) : s.fw f = f s := by
  rw [State.fw, if_pos (State.booted_of h)]

theorem State.fw_of_not_booted (h : s.bstate ≠ 3) (f : State → State) : s.fw f = s := by
  rw [State.fw, if_neg (by simp [State.not_booted_of h])]

/-! ## The first held report (R230) -/

/-- The least element of a list precedes every other, where the order is that of a total preorder. -/
theorem not_lt_leastBy {α : Type} {lt : α → α → Bool} (hirr : ∀ a, lt a a = false)
    (htrans : ∀ a b c, lt a b = true → lt b c = true → lt a c = true)
    (hneg : ∀ a b c, lt a b = false → lt b c = false → lt a c = false) {l : List α} {m : α}
    (h : leastBy lt l = some m) : ∀ x ∈ l, lt x m = false := by
  induction l generalizing m with
  | nil => cases h
  | cons a r ih =>
    rw [leastBy] at h
    cases hr : leastBy lt r with
    | none =>
      cases leastBy_none _ hr
      obtain rfl : a = m := by simpa [hr] using h
      simp [hirr]
    | some b =>
      simp only [hr] at h
      have hb := ih hr
      split at h
      · rename_i hba
        cases h
        refine fun x hx => (List.mem_cons.1 hx).elim (fun e => ?_) (hb x)
        subst e
        exact Bool.eq_false_iff.2 fun hab => absurd ((htrans _ _ _ hba hab).symm.trans (hirr _)) (by decide)
      · rename_i hba
        cases h
        refine fun x hx => (List.mem_cons.1 hx).elim (fun e => by rw [e, hirr]) fun hx => ?_
        exact hneg _ _ _ (hb x hx) (Bool.eq_false_iff.2 hba)

/-- A queue that holds a report has a first one. -/
theorem FaultQ.first_held {q : FaultQ} (h : q.held ≠ []) : ∃ r, FirstHeld q r := by
  cases hr : q.first with
  | none => exact absurd (leastBy_none _ hr) h
  | some r =>
    refine ⟨r, hr, leastBy_mem _ hr, fun x hx => ?_⟩
    have := not_lt_leastBy (by simp) (by grind) (by grind) hr x hx
    simp only [Bool.or_eq_false_iff, decide_eq_false_iff_not, Bool.and_eq_false_iff, beq_eq_false_iff_ne] at this
    omega


/-! ## A descriptor write (R228, R230) -/

theorem State.faultQ_setFaultQ (fq : FqId) (x : FaultQ) : (s.setFaultQ fq x).faultQ fq = x := by
  cases fq <;> simp [State.faultQ, State.setFaultQ]

@[simp] theorem State.setFaultQ_setFaultQ (fq : FqId) (x y : FaultQ) :
    (s.setFaultQ fq x).setFaultQ fq y = s.setFaultQ fq y := by
  cases fq <;> simp [State.setFaultQ, State.modPart, State.part]

/-- Some fields that no descriptor has: the size is above 10, or a reserved bit is set. -/
theorem descriptor_refused_iff (v : BitVec 128) :
    (10 < (v.extractLsb' 8 4).toNat || v.extractLsb' 12 4 != 0 || v.extractLsb' 1 7 != 0) = true ↔
      10 < v.toNat / 256 % 16 ∨ v.toNat / 4096 % 16 ≠ 0 ∨ v.toNat / 2 % 128 ≠ 0 := by
  simp [← BitVec.toNat_inj, Nat.shiftRight_eq_div_pow, or_assoc]

theorem extract_ofNat (v : BitVec 128) (a w : Nat) : v.extractLsb' a w = BitVec.ofNat w (v.toNat / 2 ^ a) := by
  rw [BitVec.extractLsb', Nat.shiftRight_eq_div_pow]

/-- The queue that a descriptor describes. -/
def FaultQ.described (q : FaultQ) (v : BitVec 128) : FaultQ :=
  { q with base := v.extractLsb' 64 64, tail := v.extractLsb' 32 32, msix := v.extractLsb' 16 16
           lsize := v.extractLsb' 8 4, en := v.getLsbD 0 }

theorem FaultQ.described_eq (q : FaultQ) (v : BitVec 128) : q.described v =
    { q with base := BitVec.ofNat 64 (v.toNat / 2 ^ 64), tail := BitVec.ofNat 32 (v.toNat / 2 ^ 32)
             msix := BitVec.ofNat 16 (v.toNat / 2 ^ 16), lsize := BitVec.ofNat 4 (v.toNat / 256)
             en := v.toNat % 2 == 1 } := by
  have hen : v.getLsbD 0 = (v.toNat % 2 == 1) := by
    rw [BitVec.getLsbD, Nat.testBit_zero]
    rfl
  unfold FaultQ.described
  simp only [extract_ofNat, hen]
  rfl

theorem descriptorWrite_refused {fq : FqId} {v : BitVec 128} (h : s.bstate = 3)
    (hv : 10 < v.toNat / 256 % 16 ∨ v.toNat / 4096 % 16 ≠ 0 ∨ v.toNat / 2 % 128 ≠ 0) :
    exec (.faultQueueDescriptorWrite fq v) s = .next (s.reportFw regSrc 14 6 0
      (match fq with | .part p => BitVec.ofNat 64 p | .firmware => 0xFFFF)) := by
  rw [exec_faultQueueDescriptorWrite]
  unfold execFaultQueueDescriptorWrite
  rw [State.booted_of h]
  exact if_pos ((descriptor_refused_iff v).2 hv)

theorem descriptorWrite_taken {fq : FqId} {v : BitVec 128} (h : s.bstate = 3)
    (hv : ¬ (10 < v.toNat / 256 % 16 ∨ v.toNat / 4096 % 16 ≠ 0 ∨ v.toNat / 2 % 128 ≠ 0)) :
    exec (.faultQueueDescriptorWrite fq v) s =
      .next ((s.setFaultQ fq ((s.faultQ fq).described v)).dropHeld fq) := by
  rw [exec_faultQueueDescriptorWrite]
  unfold execFaultQueueDescriptorWrite
  rw [State.booted_of h]
  exact if_neg (fun hx => hv ((descriptor_refused_iff v).1 hx))

/-- Records that are dropped are counted at their dies, and nothing else differs. -/
theorem foldl_countDropped (l : List FRec) (s : State) :
    let t := l.foldl (fun s r => s.countErr (srcDie r.src) (fun e => { e with dropped := e.dropped + 1 })) s
    t = { s with errors := t.errors } ∧ ∀ die, Tbl.get {} t.errors die = { Tbl.get {} s.errors die with
      dropped := (Tbl.get {} s.errors die).dropped + l.countP (fun r => r.src / 8192 == die) } := by
  induction l generalizing s with
  | nil => exact ⟨rfl, fun die => rfl⟩
  | cons r l ih =>
    obtain ⟨hsame, hcount⟩ := ih (s.countErr (srcDie r.src) (fun e => { e with dropped := e.dropped + 1 }))
    refine ⟨hsame, fun die => ?_⟩
    rw [List.foldl_cons, hcount die, List.countP_cons]
    by_cases hd : r.src / 8192 = die
    · simp [State.countErr, srcDie, hd, Nat.add_assoc, Nat.add_comm 1]
    · simp [State.countErr, srcDie, hd, Tbl.get_put_of_ne _ _ _ (Ne.symm hd)]

theorem dropHeld_of_kept {fq : FqId} (h : (s.faultQ fq).en = true ∨ (s.faultQ fq).held = []) : s.dropHeld fq = s := by
  refine if_pos ?_
  obtain h | h := h <;> simp [h]

/-- A queue that is turned off drops what it holds. -/
theorem dropHeld_drops {fq : FqId} (hen : (s.faultQ fq).en = false) (hheld : (s.faultQ fq).held ≠ []) :
    let t := s.dropHeld fq
    t = { s.setFaultQ fq { s.faultQ fq with held := [], lost := true } with errors := t.errors }
    ∧ ∀ die, Tbl.get {} t.errors die = { Tbl.get {} s.errors die with
      dropped := (Tbl.get {} s.errors die).dropped + (s.faultQ fq).held.countP (fun r => r.src / 8192 == die) } := by
  have he : (s.setFaultQ fq { s.faultQ fq with held := [], lost := true }).errors = s.errors := by
    cases fq <;> rfl
  have hdrop : s.dropHeld fq = _ := if_neg (by simp [hen, hheld])
  rw [hdrop, ← he]
  exact foldl_countDropped _ _

/-! ## A record's write (R230) -/

section
variable {fq : FqId} {r : FRec} (hr : (s.faultQ fq).first = some r)

theorem recordWrite_none (h : (s.faultQ fq).held = []) : exec (.faultRecordWrite fq) s = .next s := by
  have hnone : (s.faultQ fq).first = none := by rw [FaultQ.first, h]; rfl
  simp only [exec_faultRecordWrite, execFaultRecordWrite, hnone]

include hr

theorem recordWrite_early (h : s.dial < r.dial + 256) : exec (.faultRecordWrite fq) s = .next s := by
  simp only [exec_faultRecordWrite, execFaultRecordWrite, hr, if_pos h]

variable (h : r.dial + 256 ≤ s.dial)
include h

theorem recordWrite_full
    (hq : (s.faultQ fq).en = false ∨ 2 ^ ((s.faultQ fq).lsize.toNat + 6) ≤ ((s.faultQ fq).tail - (s.faultQ fq).head).toNat) :
    exec (.faultRecordWrite fq) s = .next (dropRecord s fq r) := by
  have hq : (!(s.faultQ fq).en || decide (2 ^ ((s.faultQ fq).lsize.toNat + 6)
      ≤ ((s.faultQ fq).tail - (s.faultQ fq).head).toNat)) = true := by simpa using hq
  simp only [exec_faultRecordWrite, execFaultRecordWrite, hr, if_neg (Nat.not_lt.2 h)]
  exact if_pos hq

variable (hen : (s.faultQ fq).en = true)
  (hroom : ((s.faultQ fq).tail - (s.faultQ fq).head).toNat < 2 ^ ((s.faultQ fq).lsize.toNat + 6))
include hen hroom

theorem recordWrite_unmapped (hw : s.writeRec fq ((s.faultQ fq).base.toNat
      + 32 * ((s.faultQ fq).tail.toNat % 2 ^ ((s.faultQ fq).lsize.toNat + 6))) (r.bytes (s.faultQ fq).lost) = none) :
    exec (.faultRecordWrite fq) s = .next (dropRecord s fq r) := by
  have hq : ¬ (!(s.faultQ fq).en || decide (2 ^ ((s.faultQ fq).lsize.toNat + 6)
      ≤ ((s.faultQ fq).tail - (s.faultQ fq).head).toNat)) = true := by
    rw [hen, Bool.not_true, Bool.false_or, decide_eq_true_eq]
    exact Nat.not_le.2 hroom
  simp only [exec_faultRecordWrite, execFaultRecordWrite, hr, if_neg (Nat.not_lt.2 h), if_neg hq, hw]
  rfl

theorem recordWrite_written {u : State} (hw : s.writeRec fq ((s.faultQ fq).base.toNat
      + 32 * ((s.faultQ fq).tail.toNat % 2 ^ ((s.faultQ fq).lsize.toNat + 6))) (r.bytes (s.faultQ fq).lost) = some u) :
    let w := u.setFaultQ fq
      { s.faultQ fq with held := (s.faultQ fq).held.erase r, tail := (s.faultQ fq).tail + 1, lost := false }
    exec (.faultRecordWrite fq) s = .next (if (s.faultQ fq).tail = (s.faultQ fq).head then
      { w with hostOut := w.hostOut ++ [.msix (s.faultQ fq).msix.toNat] } else w) := by
  have hq : ¬ (!(s.faultQ fq).en || decide (2 ^ ((s.faultQ fq).lsize.toNat + 6)
      ≤ ((s.faultQ fq).tail - (s.faultQ fq).head).toNat)) = true := by
    rw [hen, Bool.not_true, Bool.false_or, decide_eq_true_eq]
    exact Nat.not_le.2 hroom
  simp only [exec_faultRecordWrite, execFaultRecordWrite, hr, if_neg (Nat.not_lt.2 h), if_neg hq, hw]

end

/-! ## The mode of a partition (R13) -/

theorem State.setMode_live {p : Nat} (h : s.jobs.any (fun j => j.2.part == p && j.2.status.isNone) = true) (a b : Bool) :
    s.setMode p a b = s.modPart p (fun x => { x with dbg := a, detNext := some b }) := by
  simp only [State.setMode, h, if_true]

theorem State.setMode_idle {p : Nat} (h : s.jobs.any (fun j => j.2.part == p && j.2.status.isNone) = false)
    (a b : Bool) : s.setMode p a b = s.modPart p (fun x => { x with dbg := a, det := b, detNext := none }) := by
  simp only [State.setMode, h, Bool.false_eq_true, if_false]

/-! ## A name domain (R159, R160) -/

/-- The domain with new settings: its heap's blocks stand where the heap does. -/
def Domain.reset (d : Domain) (cfg : DomainCfg) : Domain :=
  { d with
    cfg := some cfg
    blocks := if d.cfg.any (fun c => c.heapBase == cfg.heapBase && c.heapSize == cfg.heapSize) then d.blocks else [] }

theorem nameDomainSet_refused {p : Nat} {cfg : DomainCfg} (h : s.bstate = 3) (ht : cfg.t < 3 ∨ 26 < cfg.t) :
    exec (.nameDomainSet p cfg) s = .next (tells s (.refused 4) 0) := by
  have ht : (decide (cfg.t < 3) || decide (26 < cfg.t)) = true := by simpa using ht
  rw [exec_nameDomainSet]
  unfold execNameDomainSet
  rw [State.booted_of h]
  exact if_pos ht

/-- The machine with a partition's name domain set: no die's cache holds a name of it. -/
def State.setDomain (s : State) (p : Nat) (cfg : DomainCfg) : State :=
  { s.modDom p (fun d => d.reset cfg) with caches := s.caches.filter (fun x => x.2.1 != p) }

theorem State.part_setDomain (p : Nat) (cfg : DomainCfg) (q : Nat) : (s.setDomain p cfg).part q =
    if q = p then { s.part p with dom := (s.part p).dom.reset cfg } else s.part q :=
  State.part_modPart s p q (fun x => { x with dom := x.dom.reset cfg })

theorem nameDomainSet_taken {p : Nat} {cfg : DomainCfg} (h : s.bstate = 3) (h3 : 3 ≤ cfg.t) (h26 : cfg.t ≤ 26) :
    exec (.nameDomainSet p cfg) s = .next (s.setDomain p cfg) := by
  have ht : ¬ (decide (cfg.t < 3) || decide (26 < cfg.t)) = true := by simp; omega
  rw [exec_nameDomainSet]
  unfold execNameDomainSet
  rw [State.booted_of h]
  exact if_neg ht

theorem Domain.reset_blocks (d : Domain) (cfg : DomainCfg) :
    ((∃ c, d.cfg = some c ∧ c.heapBase = cfg.heapBase ∧ c.heapSize = cfg.heapSize) → (d.reset cfg).blocks = d.blocks)
    ∧ (¬ (∃ c, d.cfg = some c ∧ c.heapBase = cfg.heapBase ∧ c.heapSize = cfg.heapSize) → (d.reset cfg).blocks = []) := by
  have hiff : d.cfg.any (fun c => c.heapBase == cfg.heapBase && c.heapSize == cfg.heapSize) = true ↔
      ∃ c, d.cfg = some c ∧ c.heapBase = cfg.heapBase ∧ c.heapSize = cfg.heapSize := by
    simp [Option.any_eq_true]
  exact ⟨fun h => if_pos (hiff.2 h), fun h => if_neg (fun hx => h (hiff.1 hx))⟩

/-! ## Circuits between devices (R92, R253, R254) -/

theorem State.linkCircuit_off {c port link : Nat} {out toVc : Bool}
    (h : 18 ≤ link ∨ (Tbl.get {} s.links link).session = 0 ∨ (Tbl.get {} s.links link).failed = true) :
    s.linkCircuit c port link out toVc = s := by
  unfold State.linkCircuit
  exact if_pos (by simpa [or_assoc] using h)

/-- The circuit that the firmware arms at a link. -/
def State.circuitAt (s : State) (c port link : Nat) (out toVc : Bool) : Circuit :=
  { launch := (s.core c).launch, core := c, sink := port, core2 := c, src := port, toVc := !out && toVc
    comes := if out then none else some link, goes := if out then some link else none
    stages := List.replicate (ringStages (c % 96) 0 + closSwitches) []
    links := [(if out then ringStages (c % 96) 0 + closSwitches else 0, link)] }

theorem State.linkCircuit_armed {c port link : Nat} {out toVc : Bool} (hl : link < 18)
    (hs : (Tbl.get {} s.links link).session ≠ 0) (hf : (Tbl.get {} s.links link).failed = false) :
    (s.linkCircuit c port link out toVc).mem = s.mem
    ∧ (s.linkCircuit c port link out toVc).circuits = s.circuits ++ [s.circuitAt c port link out toVc] := by
  unfold State.linkCircuit
  dsimp only
  rw [if_neg (by simp [hs, hf, hl])]
  split <;> exact ⟨rfl, rfl⟩

end

/-- Settles O56: each access of the firmware by its own rule, and the first held report as the least of a total order. -/
theorem supervisorRegisters : Obligations.SupervisorRegisters := by
  unfold Obligations.SupervisorRegisters
  intro s p fq v m r
  refine ⟨fun h => ⟨?_, ?_, fun cfg => ?_, fun w => ?_⟩, descriptorWrite_refused, fun x h hl hz hr hx => ?_,
    FaultQ.first_held, recordWrite_none, fun ⟨hfirst, _, _⟩ => ⟨recordWrite_early hfirst, recordWrite_full hfirst,
      fun hd hen hroom => ⟨recordWrite_unmapped hfirst hd hen hroom, fun u => recordWrite_written hfirst hd hen hroom⟩⟩,
    fun h => ⟨fun hb => ?_, fun a b => ?_⟩, fun h => ⟨fun hb => ?_, fun a b => ?_⟩,
    fun h cfg => ⟨nameDomainSet_refused h, fun h3 h26 => ?_⟩, fun h => ?_, fun c port link out toVc h hl hs hf => ?_⟩
  · rw [exec_faultQueueDescriptorWrite]
    unfold execFaultQueueDescriptorWrite
    rw [State.not_booted_of h]
    rfl
  · rw [exec_modeRegisterWrite, execModeRegisterWrite, State.fw_of_not_booted h]
  · rw [exec_nameDomainSet]
    unfold execNameDomainSet
    rw [State.not_booted_of h]
    rfl
  · rw [exec_supervisorRegisterWrite, execSupervisorRegisterWrite, State.fw_of_not_booted h]
  · have htaken := descriptorWrite_taken (fq := fq) (v := v) h (by omega)
    rw [FaultQ.described_eq, ← hx] at htaken
    have hq : (s.setFaultQ fq x).faultQ fq = x := State.faultQ_setFaultQ fq x
    have hheld : x.held = (s.faultQ fq).held := by rw [hx]
    refine ⟨fun hk => ?_, fun hen hne => ⟨_, htaken, ?_⟩⟩
    · rw [htaken, dropHeld_of_kept]
      rwa [hq, hheld]
    · have hdrop := dropHeld_drops (s := s.setFaultQ fq x) (fq := fq) (by rw [hq, hen]) (by rwa [hq, hheld])
      rw [hq, State.setFaultQ_setFaultQ, hheld] at hdrop
      have herr : (s.setFaultQ fq x).errors = s.errors := by cases fq <;> rfl
      rw [herr] at hdrop
      exact hdrop
  · rw [exec_modeRegisterWrite, execModeRegisterWrite, State.fw_of_booted hb, State.setMode_live h]
  · rw [exec_setPartitionMode, execSetPartitionMode, State.setMode_live h]
  · rw [exec_modeRegisterWrite, execModeRegisterWrite, State.fw_of_booted hb, State.setMode_idle h]
  · rw [exec_setPartitionMode, execSetPartitionMode, State.setMode_idle h]
  · refine ⟨_, nameDomainSet_taken h h3 h26, ?_⟩
    obtain ⟨hsame, hother⟩ := (s.part p).dom.reset_blocks cfg
    have hp : ((s.setDomain p cfg).part p).dom = (s.part p).dom.reset cfg := by rw [State.part_setDomain, if_pos rfl]
    refine ⟨rfl, ?_, fun hc => ?_, fun hc => ?_, fun q hq => ?_, fun x => ?_⟩
    · rw [hp]
      rfl
    · rw [hp, hsame hc]
    · rw [hp, hother hc]
    · rw [State.part_setDomain, if_neg hq]
    · simp [State.setDomain]
  · have sets (w : SupWrite) {t : State} (e : s.superWrite w = t) : exec (.supervisorRegisterWrite w) s = .next t := by
      rw [exec_supervisorRegisterWrite, execSupervisorRegisterWrite, State.fw_of_booted h, e]
    refine ⟨fun c w => sets _ rfl, fun c num w h1 h2 => sets _ (if_pos ⟨h1, h2⟩), fun c w => sets _ rfl,
      fun cls => sets _ rfl, fun a => sets _ rfl, fun k => sets _ rfl, fun a => sets _ ?_, fun a b => sets _ rfl,
      fun die a b c d => sets _ rfl, fun x a b c line => sets _ rfl, fun a => sets _ rfl, fun a b => sets _ rfl,
      fun k => sets _ rfl, fun k => sets _ rfl, fun a b c => sets _ rfl, fun hd => sets _ rfl, fun a => sets _ rfl,
      fun a => sets _ rfl, sets _ rfl, fun l => sets _ rfl, sets _ rfl, sets _ rfl, fun n => sets _ rfl,
      fun n => ⟨fun hn => sets _ (if_pos hn), fun hn => sets _ (if_neg (Nat.not_lt.2 hn))⟩,
      fun c port link out toVc hoff => sets _ (State.linkCircuit_off hoff), fun c e => ⟨_, sets _ rfl, rfl, ?_⟩⟩
    · simp [State.superWrite]
    · simp [State.superWrite, State.bootCore]
  · have hcircuit := s.linkCircuit_armed (c := c) (port := port) (out := out) (toVc := toVc) hl hs hf
    refine ⟨s.linkCircuit c port link out toVc, ?_, hcircuit.1, _, hcircuit.2, rfl, rfl, rfl, rfl, rfl, rfl, rfl, ?_, ?_⟩
    · rw [exec_supervisorRegisterWrite, execSupervisorRegisterWrite, State.fw_of_booted h, State.superWrite]
    · simp [Circuit.over, State.circuitAt]
    · simp [State.circuitAt, closSwitches]

end Sys2Proof.Machine
end

section
/-!
The names that the wave of a launch gives (R143-R156): what a node's inputs, its control and its shape word make of an
output's name. A part of the obligation O51.
-/

namespace Sys2Proof.Machine

/-! ## What input names come to (R150, R154) -/

theorem inputsGive_unknown {l : List Naming} (h : ∃ x ∈ l, x = .unknown ∨ x = .open_) (next : Naming) :
    inputsGive l next = .unknown := by
  unfold inputsGive
  rw [if_pos (by simpa using h)]

theorem inputsGive_poison {l : List Naming} (h : ∀ x ∈ l, x ≠ .unknown ∧ x ≠ .open_) (hp : .poison ∈ l)
    (next : Naming) : inputsGive l next = .poison := by
  unfold inputsGive
  rw [if_neg (by simpa using h), if_pos (by simpa using hp)]

/-- Inputs that are all named or void decide nothing. -/
theorem inputsGive_of_settled {l : List Naming} (h : ∀ x ∈ l, x ≠ .unknown ∧ x ≠ .open_ ∧ x ≠ .poison) (next : Naming) :
    inputsGive l next = next := by
  unfold inputsGive
  rw [if_neg (by simpa using fun x hx => ⟨(h x hx).1, (h x hx).2.1⟩),
    if_neg (by simpa using fun hx => (h _ hx).2.2 rfl)]

theorem AllNamed.settled {l : List Naming} (h : AllNamed l) : ∀ x ∈ l, x ≠ .unknown ∧ x ≠ .open_ ∧ x ≠ .poison := by
  intro x hx
  obtain ⟨b, rfl⟩ := h x hx
  simp

theorem inputsGive_named {l : List Naming} (h : AllNamed l) (next : Naming) : inputsGive l next = next :=
  inputsGive_of_settled h.settled next

/-- Some inputs are there, and each of them is void. -/
def AllVoid (l : List Naming) : Prop := l ≠ [] ∧ ∀ x ∈ l, x = .void

theorem allVoid_iff (l : List Naming) : (!l.isEmpty && l.all (· == .void)) = true ↔ AllVoid l := by
  simp [AllVoid]

theorem AllNamed.not_allVoid {l : List Naming} (h : AllNamed l) : ¬ AllVoid l := by
  rintro ⟨hne, hv⟩
  obtain ⟨x, hx⟩ := List.exists_mem_of_ne_nil l hne
  obtain ⟨b, rfl⟩ := h x hx
  cases hv _ hx

/-- The control of a steer, a merge or an exit alone opens names (R153). -/
theorem isSteer_of_control {g : GGraph} {n : Nat} {gn : GNode} (hgn : g.nodes[n]? = some gn) (h : g.control n ≠ none) :
    isSteer gn = true := by
  unfold GGraph.control at h
  simp only [hgn] at h
  by_contra hst
  simp [hst] at h

/-! ## The name of an output, by its control (R143, R153) -/

section
variable {s : State} {l : Launch} {g : GGraph} {n : Nat} {gn : GNode} {port seg : Nat} {iter : List Nat}
  {prev : BitVec 128}

theorem nameOf_of_unsettled (h : prevName l.objs n port seg = none) : s.nameOf l g n gn port seg iter = .unknown := by
  simp only [State.nameOf, h]

theorem nameOf_source (h : prevName l.objs n port seg = some prev) (hk : gn.kind = 3)
    (hx : g.crossing n = none) : s.nameOf l g n gn port seg iter =
      if gn.vol = true then .named (of128 (hmac (s.domKey l.part) (volatileMsg gn port l))) else s.sourceName l n port seg := by
  simp only [State.nameOf, h, hk, if_true, State.sourceNaming, hx, State.hashName]

/-- The single edge on which a node's control comes. -/
abbrev ctlEdge (g : GGraph) (n : Nat) : Option GEdge := g.edges.find? (fun e => e.dst == n && e.ctl)

/-- A merge takes one of its inputs (R153). -/
abbrev isMerge (gn : GNode) : Bool := isSteer gn && laneEop gn == 0x42

/-- What the token of a single control makes of an output (R153). -/
def State.byControl (s : State) (l : Launch) (g : GGraph) (n : Nat) (gn : GNode) (port seg : Nat) (iter : List Nat)
    (prev : BitVec 128) : Option Token → Naming
  | none => .open_
  | some t => if t.poison then .poison
    else s.steered l g n gn port seg iter prev
      ((g.dataInputs n).map (fun e => (e, ((inputObj g l.objs e seg iter).map (·.name)).getD .unknown))) t.value

section
variable (hp : prevName l.objs n port seg = some prev) (hk : gn.kind ≠ 3)
include hp hk

theorem nameOf_uncontrolled (hc : ctlEdge g n = none) : s.nameOf l g n gn port seg iter =
    if !(inNames g l n seg iter).isEmpty && (inNames g l n seg iter).all (· == .void) then .void
    else inputsGive (inNames g l n seg iter) (s.madeName l g n gn port seg iter prev (inNames g l n seg iter) []) := by
  simp only [State.nameOf, hp, if_neg hk, hc, Option.map_none, List.map_map, Function.comp_def]

theorem nameOf_allVoid (hv : AllVoid (inNames g l n seg iter)) (hm : isMerge gn = false) :
    s.nameOf l g n gn port seg iter = .void := by
  have hv := (allVoid_iff _).2 hv
  cases hc : ctlEdge g n with
  | none => rw [nameOf_uncontrolled hp hk hc, if_pos hv]
  | some e =>
    simp only [State.nameOf, hp, if_neg hk, hc, Option.map_some, List.map_map, Function.comp_def, hm, Bool.not_false,
      Bool.true_and, hv, if_true]

section
variable (hn : AllNamed (inNames g l n seg iter)) {e : GEdge} (hc : ctlEdge g n = some e)
include hn hc

theorem nameOf_multiple (hs : g.control n = none) : s.nameOf l g n gn port seg iter =
    inputsGive (inNames g l n seg iter ++ [((inputObj g l.objs e seg iter).map (·.name)).getD .unknown])
      (if ((inputObj g l.objs e seg iter).map (·.name)).getD .unknown = .void then .void
        else s.madeName l g n gn port seg iter prev
          (inNames g l n seg iter ++ [((inputObj g l.objs e seg iter).map (·.name)).getD .unknown]) []) := by
  have hv : ¬ (!isMerge gn && !(inNames g l n seg iter).isEmpty && (inNames g l n seg iter).all (· == .void)) = true := by
    rw [Bool.and_assoc, Bool.and_eq_true, allVoid_iff]
    exact fun h => hn.not_allVoid h.2
  simp only [State.nameOf, hp, if_neg hk, hc, Option.map_some, List.map_map, Function.comp_def, if_neg hv, hs, if_true]

theorem nameOf_single (hs : g.control n ≠ none) {c : Obj} {pn : GNode} (ho : inputObj g l.objs e seg iter = some c)
    (hpn : g.nodes[e.src]? = some pn) : s.nameOf l g n gn port seg iter =
      if c.settled pn = false then .unknown else if c.name = .void then .void else if c.name = .poison then .poison
      else s.byControl l g n gn port seg iter prev
        (s.ctlToken l.part (dieAt s l gn) (g.turnOf l.objs e port iter) c) := by
  have hv : ¬ (!isMerge gn && !(inNames g l n seg iter).isEmpty && (inNames g l n seg iter).all (· == .void)) = true := by
    rw [Bool.and_assoc, Bool.and_eq_true, allVoid_iff]
    exact fun h => hn.not_allVoid h.2
  have hu : ¬ (!isMerge gn && (inNames g l n seg iter).contains .unknown) = true := by
    rw [Bool.and_eq_true, List.contains_iff_mem]
    exact fun h => (hn.settled _ h.2).1 rfl
  simp only [State.nameOf, hp, if_neg hk, hc, Option.map_some, List.map_map, Function.comp_def, if_neg hv, if_neg hs,
    if_neg hu, ho, hpn, Option.getD_some, Bool.not_eq_true']
  rfl

end

end

/-! ## What the single control's value makes (R153) -/

theorem byControl_none : s.byControl l g n gn port seg iter prev none = .open_ := rfl

theorem byControl_poison {t : Token} (ht : t.poison = true) :
    s.byControl l g n gn port seg iter prev (some t) = .poison := if_pos ht

section
variable {t : Token} (ht : t.poison = false) (hn : AllNamed (inNames g l n seg iter)) (hst : isSteer gn = true)
include ht hn hst

/-- A steer or an exit names the arm that its control takes, and the other is void. -/
theorem byControl_steers (hm : isMerge gn = false) : s.byControl l g n gn port seg iter prev (some t) =
    if (t.value = 0 ↔ port = 0) then s.madeName l g n gn port seg iter prev (inNames g l n seg iter) [t.value]
    else .void := by
  have hm : (laneEop gn == 0x42) = false := by rwa [isMerge, hst, Bool.true_and] at hm
  unfold State.byControl State.steered
  simp only [ht, hm, Bool.false_eq_true, if_false, List.map_map, Function.comp_def, Bool.not_false, Bool.true_and]
  rw [inputsGive_named hn]
  by_cases hv : t.value = 0 <;> by_cases hport : port = 0 <;> simp [hv, hport]

/-- A merge takes the name of the input that its control picks. -/
theorem byControl_merges (hm : isMerge gn = true) : s.byControl l g n gn port seg iter prev (some t) =
    s.madeName l g n gn port seg iter prev (((g.dataInputs n).filter (fun e => e.dport ==
      if t.value = 0 then (gn.word.extractLsb' 19 2).toNat else (gn.word.extractLsb' 17 2).toNat)).map
        (fun e => ((inputObj g l.objs e seg iter).map (·.name)).getD .unknown)) [t.value] := by
  have hm : (laneEop gn == 0x42) = true := by rwa [isMerge, hst, Bool.true_and] at hm
  unfold State.byControl State.steered
  simp only [ht, hm, Bool.false_eq_true, if_false, if_true, List.filter_map, List.map_map, Function.comp_def,
    Bool.not_true, Bool.false_and]
  exact inputsGive_named (fun x hx => hn x (List.map_subset _ (List.filter_subset_self _) hx)) _

end

/-! ## The name that is made (R143, R146, R156) -/

/-- The name of an output under its shape word, if it has one. -/
def State.hashed (s : State) (l : Launch) (gn : GNode) (port seg : Nat) (iter : List Nat) (prev : BitVec 128)
    (names : List Naming) (ctl shp : List W32) : Naming :=
  .named (of128 (hmac (s.domKey l.part) (if gn.vol = true then volatileMsg gn port l
    else nameMsg gn port seg (iter.getLast?.getD 0) l.liter prev (names.map nameBits) ctl shp)))

section
variable {names : List Naming} {ctl : List W32}

theorem madeName_unshaped (h : s.shapeTok l g n gn port seg iter = none) :
    s.madeName l g n gn port seg iter prev names ctl = s.hashed l gn port seg iter prev names ctl [] := by
  simp only [State.madeName, h]
  rfl

theorem madeName_open (h : s.shapeTok l g n gn port seg iter = some none) :
    s.madeName l g n gn port seg iter prev names ctl = .open_ := by
  simp only [State.madeName, h]

theorem madeName_shaped {t : Token} (h : s.shapeTok l g n gn port seg iter = some (some t)) :
    s.madeName l g n gn port seg iter prev names ctl =
      if t.poison then .poison else s.hashed l gn port seg iter prev names ctl [t.value] := by
  simp only [State.madeName, h]
  rfl

end

end

end Sys2Proof.Machine
end

section
/-!
The naming events of a launch's wave and the requests against its edges (R148-R156). A part of the obligation O51.
-/

namespace Sys2Proof.Machine

variable {s : State} {ln n port : Nat}

/-! ## A launch that the wave does not move -/

theorem waveless (h : s.waveAt ln n = none) :
    exec (.nodeNaming ln n port) s = .next s ∧ exec (.nameLookup ln n port) s = .next s
    ∧ exec (.controlNameResolve ln n) s = .next s ∧ exec (.shapeWordArrival ln n port) s = .next s
    ∧ exec (.demandRequest ln n) s = .next s ∧ exec (.anchorServe ln n port) s = .next s
    ∧ exec (.retention ln n port) s = .next s := by
  simp only [exec_nodeNaming, execNodeNaming, exec_nameLookup, execNameLookup, exec_controlNameResolve,
    execControlNameResolve, exec_shapeWordArrival, execShapeWordArrival, exec_demandRequest, execDemandRequest,
    exec_anchorServe, execAnchorServe, exec_retention, execRetention, h, and_self]

theorem State.node_of_waveAt {l : Launch} {g : GGraph} {gn : GNode} (h : s.waveAt ln n = some (l, g, gn)) :
    g.nodes[n]? = some gn := by
  obtain ⟨m, -, h⟩ := Option.bind_eq_some_iff.1 h
  split at h
  · cases h
  · obtain ⟨g', -, h⟩ := Option.bind_eq_some_iff.1 h
    obtain ⟨gn', hn, h⟩ := Option.map_eq_some_iff.1 h
    cases h
    exact hn

/-! ## Naming one object (R148-R150) -/

section
variable (l : Launch) (g : GGraph) (gn : GNode) (seg : Nat) (iter : List Nat)

/-- The object of a place as it stands. -/
def objAt (l : Launch) (n port seg : Nat) (iter : List Nat) : Obj :=
  ((objsOf l.objs n port).find? (fun o => o.seg == seg && o.iter == iter)).getD
    { node := n, port := port, seg := seg, iter := iter }

variable {l g gn seg iter}

/-- A place of which nothing more is known stays as it is. -/
theorem nameAt_stands (h : s.nameOf l g n gn port seg iter = .unknown
      ∨ s.nameOf l g n gn port seg iter = (objAt l n port seg iter).name) :
    s.nameAt l g n gn port seg iter = s := by
  unfold State.nameAt
  exact if_pos h

theorem nameAt_names (hu : s.nameOf l g n gn port seg iter ≠ .unknown)
    (ho : s.nameOf l g n gn port seg iter ≠ (objAt l n port seg iter).name) :
    let new : Obj := { objAt l n port seg iter with
      name := s.nameOf l g n gn port seg iter, shape := ((s.shapeTok l g n gn port seg iter).bind id).map (·.value) }
    let u := (s.nameObj l.serial g new).noteControl l.part (dieAt s l gn) (controlObj g l n seg iter)
    s.nameAt l g n gn port seg iter =
      if s.nameOf l g n gn port seg iter = .open_ then u.askCones l.serial g n gn new else u := by
  unfold State.nameAt
  exact if_neg (not_or.2 ⟨hu, ho⟩)

end

/-! ## The naming events (R143-R156) -/

section
variable {l : Launch} {g : GGraph} {gn : GNode} (hw : s.waveAt ln n = some (l, g, gn))

theorem output_iff : gn.ports.any (fun p => p.out && p.num == port) = true ↔
    ∃ p ∈ gn.ports, p.out = true ∧ p.num = port := by
  simp

theorem badControl_iff (o : Option Obj) :
    o.any badControl = true ↔ ∃ c e, o = some c ∧ c.anchor = some e ∧ e.length ≠ 4 := by
  cases o with
  | none => simp
  | some c => cases ha : c.anchor <;> simp [badControl, ha]

theorem wanted_iff (o : Obj) : o.wanted gn = true ↔
    o.asked = true ∧ o.anchor = none ∧ o.name ≠ .void ∧ o.settled gn = true := by
  simp [Obj.wanted, and_assoc]

include hw

theorem nodeNaming_stands (h : g.kind n = 4 ∨ ¬ (∃ p ∈ gn.ports, p.out = true ∧ p.num = port)
      ∨ nextPlace g n gn port l.objs = none) : exec (.nodeNaming ln n port) s = .next s := by
  rw [← output_iff] at h
  simp only [exec_nodeNaming, execNodeNaming, hw]
  by_cases hk : g.kind n = 4 ∨ (!gn.ports.any (fun p => p.out && p.num == port)) = true
  · rw [if_pos hk]
  · rw [if_neg hk]
    have hnone : nextPlace g n gn port l.objs = none := by
      simp only [Bool.not_eq_true', ← Bool.not_eq_true] at hk
      tauto
    simp only [hnone]

section
variable {seg : Nat} {iter : List Nat} (hk : g.kind n ≠ 4) (hp : ∃ p ∈ gn.ports, p.out = true ∧ p.num = port)
  (hnext : nextPlace g n gn port l.objs = some (seg, iter))
include hk hp hnext

theorem nodeNaming_at : exec (.nodeNaming ln n port) s =
    if (controlObj g l n seg iter).any badControl then .next (s.stopBadControl l gn)
    else .next (s.nameAt l g n gn port seg iter) := by
  rw [← output_iff] at hp
  simp only [exec_nodeNaming, execNodeNaming, hw, hk, hp, hnext, Bool.not_true, Bool.false_eq_true, or_self, if_false]

theorem nodeNaming_stops (h : ∃ c e, controlObj g l n seg iter = some c ∧ c.anchor = some e ∧ e.length ≠ 4) :
    exec (.nodeNaming ln n port) s = .next (s.stopBadControl l gn) := by
  rw [nodeNaming_at hw hk hp hnext, if_pos ((badControl_iff _).2 h)]

theorem nodeNaming_names (h : ∀ c e, controlObj g l n seg iter = some c → c.anchor = some e → e.length = 4) :
    exec (.nodeNaming ln n port) s = .next (s.nameAt l g n gn port seg iter) := by
  rw [nodeNaming_at hw hk hp hnext, if_neg]
  rw [badControl_iff]
  rintro ⟨c, e, hc, ha, hlen⟩
  exact hlen (h c e hc ha)

end

/-! ## Open names (R153, R156) -/

/-- Naming an object again, by what its launch has come to. -/
def State.nameAgain (s : State) (ln n : Nat) (g : GGraph) (gn : GNode) (o : Obj) : State :=
  match s.launches.find ln with
  | some m => s.nameAt m g n gn o.port o.seg o.iter
  | none => s

theorem controlNameResolve_of : exec (.controlNameResolve ln n) s = .next ((s.objs ln).foldl (fun u o =>
    if o.node = n ∧ o.name = .open_ then u.nameAgain ln n g gn o else u) s) := by
  simp only [exec_controlNameResolve, execControlNameResolve, hw, State.resolve, true_and]
  rfl

theorem shapeWordArrival_of : exec (.shapeWordArrival ln n port) s = .next ((s.objs ln).foldl (fun u o =>
    if o.node = n ∧ o.port = port ∧ o.name = .open_ then u.nameAgain ln n g gn o else u) s) := by
  simp only [exec_shapeWordArrival, execShapeWordArrival, hw, State.resolve, beq_iff_eq]
  rfl

/-! ## Lookups (R150, R160) -/

theorem nameLookup_none (h : ∀ o ∈ objsOf l.objs n port, o.looked = true ∨ o.known = false) :
    exec (.nameLookup ln n port) s = .next s := by
  have hnone : (objsOf l.objs n port).find? (fun o => !o.looked && o.known) = none := by
    rw [List.find?_eq_none]
    intro o ho
    obtain h | h := h o ho <;> simp [h]
  simp only [exec_nameLookup, execNameLookup, hw, hnone]

section
variable {o : Obj} (ho : (objsOf l.objs n port).find? (fun o => !o.looked && o.known) = some o)
include ho

theorem nameLookup_passes (h : memoisable gn port = false ∨ ∀ nm, o.name ≠ .named nm) :
    exec (.nameLookup ln n port) s = .next (s.setObj ln { o with looked := true }) := by
  simp only [exec_nameLookup, execNameLookup, hw, ho]
  split
  · rename_i nm hm hname
    obtain h | h := h
    · rw [hm] at h
      cases h
    · exact absurd hname (h nm)
  · rfl

variable {nm : BitVec 128} {u : State} (hm : memoisable gn port = true) (hname : o.name = .named nm)
include hm hname

theorem nameLookup_misses (h : s.lookup (dieAt s l gn) l.part nm = (u, none)) : exec (.nameLookup ln n port) s =
    .next ((u.modCounts l.part (fun k => { k with misses := k.misses + 1 })).setObj ln { o with looked := true }) := by
  simp only [exec_nameLookup, execNameLookup, hw, ho, hm, hname, h]

theorem nameLookup_hits {e : Entry} (h : s.lookup (dieAt s l gn) l.part nm = (u, some e)) :
    let v := holding (u.modCounts l.part (fun k => { k with hits := k.hits + 1 })) (ln, l.part, nm)
    exec (.nameLookup ln n port) s = .next (State.setObj
      (if (s.entry l.part nm).any (fun x => x.kind == 2) = true then holding v (ln, l.part, e.name) else v) ln
        { o with looked := true, anchor := some e }) := by
  simp only [exec_nameLookup, execNameLookup, hw, ho, hm, hname, h]
  split <;> simp only [holding, List.append_assoc, List.cons_append, List.nil_append]

end

/-! ## Demand (R151-R154) -/

theorem demandRequest_crossing (hk : gn.kind = 4) (hf : g.fromEnd n = true) : exec (.demandRequest ln n) s = .next s := by
  simp only [exec_demandRequest, execDemandRequest, hw, hk, hf, if_true]

theorem demandRequest_sink (hk : gn.kind = 4) (hf : g.fromEnd n = false) :
    exec (.demandRequest ln n) s = .next (l.objs.foldl (fun u o =>
      if (∃ e ∈ g.into n, e.src = o.node ∧ e.sport = o.port) ∧ (g.nodes[o.node]?).any (fun pn => o.settled pn) = true
      then u.request ln g o else u) s) := by
  simp only [exec_demandRequest, execDemandRequest, hw, hk, hf, if_true, Bool.false_eq_true, if_false, Bool.and_eq_true,
    List.any_eq_true, beq_iff_eq]

theorem demandRequest_node (hk : gn.kind ≠ 4) : exec (.demandRequest ln n) s = .next (l.objs.foldl (fun u o =>
    if o.node ≠ n then u
    else if o.name = .open_ then u.askCones ln g n gn o
    else if o.asked = true ∧ o.anchor = none ∧ o.name ≠ .void ∧ o.settled gn = true then
      (g.into n).foldl (fun u e => u.askFor ln g (rankOf gn o.port) o.seg o.iter e) u
    else u) s) := by
  simp only [exec_demandRequest, execDemandRequest, hw, if_neg hk, wanted_iff]

end

/-! ## What a name and a request do (R148-R151) -/

theorem State.objs_setObj (o : Obj) : (s.setObj ln o).objs ln =
    match s.launches.find ln with | some l => putObj l.objs o | none => [] := by
  unfold State.objs State.setObj
  rw [State.find_modLaunch, if_pos rfl]
  cases s.launches.find ln <;> rfl

/-- Tokens put onto circuits change the circuits alone. -/
theorem foldl_modBegin (s : State) (ln : Nat) (f : GEdge → Circuit → Circuit) (l : List GEdge) :
    l.foldl (fun s e => s.modBegin ln e.dst e.dport (f e)) s =
      { s with circuits := (l.foldl (fun s e => s.modBegin ln e.dst e.dport (f e)) s).circuits } := by
  induction l generalizing s with
  | nil => rfl
  | cons e l ih =>
    rw [List.foldl_cons, ih]
    rfl

theorem State.setObj_circuits (o : Obj) : (s.setObj ln o).circuits = s.circuits := State.modLaunch_circuits s ln _

/-- The edges over which an output's names leave its core. -/
abbrev fedBy (g : GGraph) (o : Obj) : List GEdge :=
  g.edges.filter (fun e => e.src == o.node && e.sport == o.port && g.fromEnd e.dst)

theorem State.nameObj_fold (g : GGraph) (o : Obj) : s.nameObj ln g o = (fedBy g o).foldl (fun s e =>
    s.modBegin ln e.dst e.dport (fun x => { x with names := x.names ++ [o.name.word] })) (s.setObj ln o) := rfl

/-- A name stands at its object, and goes onto the circuits that its output feeds. -/
theorem State.nameObj_eq (g : GGraph) (o : Obj) : s.nameObj ln g o =
    { s.setObj ln o with circuits := (s.nameObj ln g o).circuits } :=
  foldl_modBegin (s.setObj ln o) ln (fun _ x => { x with names := x.names ++ [o.name.word] }) (fedBy g o)

theorem State.nameObj_objs (g : GGraph) (o : Obj) : (s.nameObj ln g o).objs ln =
    match s.launches.find ln with | some l => putObj l.objs o | none => [] := by
  rw [State.nameObj_eq]
  exact State.objs_setObj o

theorem State.nameObj_local {g : GGraph} {o : Obj}
    (h : ∀ e ∈ g.edges, e.src = o.node → e.sport = o.port → g.fromEnd e.dst = false) :
    (s.nameObj ln g o).circuits = s.circuits := by
  have hfed : fedBy g o = [] := by
    rw [List.filter_eq_nil_iff]
    intro e he hf
    simp only [Bool.and_eq_true, beq_iff_eq] at hf
    rw [h e he hf.1.1 hf.1.2] at hf
    cases hf.2
  rw [State.nameObj_fold, hfed]
  exact State.setObj_circuits o

theorem State.nameObj_feeds {g : GGraph} {o : Obj} {e : GEdge} (h : fedBy g o = [e]) :
    (s.nameObj ln g o).circuits = s.circuits.map (fun (x : Circuit) =>
      if x.launch = ln ∧ x.comes = none ∧ x.node = e.dst ∧ x.sink = e.dport
      then { x with names := x.names ++ [o.name.word] } else x) := by
  rw [State.nameObj_fold, h, ← State.setObj_circuits (s := s) (ln := ln) o]
  rfl

theorem request_stands {g : GGraph} {o : Obj} (h : o.asked = true ∨ o.name = .unknown ∨ o.name = .void) :
    s.request ln g o = s := by
  unfold State.request
  refine if_pos ?_
  simpa [or_assoc] using h

section
variable {g : GGraph} {o : Obj} (ha : o.asked = false) (hu : o.name ≠ .unknown) (hv : o.name ≠ .void)
include ha hu hv

theorem request_notes (hk : g.kind o.node ≠ 4) : s.request ln g o = s.setObj ln { o with asked := true } := by
  unfold State.request
  rw [if_neg (by simp [ha, hu, hv])]
  exact if_neg hk

/-- A request goes back over the circuit that has brought its object. -/
theorem request_goes_back (hk : g.kind o.node = 4) :
    let k := ((objsOf (s.objs ln) o.node o.port).takeWhile (fun x => !x.same o)).length
    s.request ln g o = { s.setObj ln { o with asked := true } with circuits := s.circuits.map (fun (x : Circuit) =>
      if x.launch = ln ∧ x.comes = none ∧ x.node = o.node ∧ x.sink = o.port
      then { x with asks := x.asks ++ [requestWord k k] } else x) } := by
  unfold State.request
  rw [if_neg (by simp [ha, hu, hv]), ← State.setObj_circuits (s := s) (ln := ln) { o with asked := true }]
  exact if_pos hk

end

end Sys2Proof.Machine
end

section
/-!
Serving a stored object token by token, and the retention of one that missed (R151, R156, R157). A part of the
obligation O51.
-/

namespace Sys2Proof.Machine

variable {s : State} {ln n port : Nat} {l : Launch} {g : GGraph} {gn : GNode}

/-! ## Serving (R151, R156) -/

/-- The machine with an object served to its end. -/
def State.closeServed (s : State) (ln : Nat) (o : Obj) : State :=
  s.modLaunch ln (fun m => { m with objs := m.objs.map (fun x => if x.same o then { x with served := true } else x) })

/-- The machine after a token of a stored object: an object of rank 0 ends with its last. -/
def State.servedOn (s : State) (ln : Nat) (o : Obj) (len rank : Nat) : State :=
  if o.toks.length + 1 = len ∧ rank = 0 then s.closeServed ln o else s

/-- Does a request fire the node for the place of an object? -/
abbrev firedAt (l : Launch) (gn : GNode) (o : Obj) : Prop := ∃ x ∈ l.objs, o.beside gn x = true ∧ x.wanted gn = true

/-- The marker of a rank. -/
abbrev rankMark (r : Nat) : Token := { kind := BitVec.ofNat 3 r }

theorem serves {o : Obj} (ha : o.asked = true) (hf : ¬ firedAt l gn o) :
    ¬ (!o.asked || l.objs.any (fun x => o.beside gn x && x.wanted gn)) = true := by
  simpa [ha] using hf

section
variable (hw : s.waveAt ln n = some (l, g, gn)) {o : Obj} {c : Nat} {e : Entry}
  (ho : openObj (rankOf gn port) (g.inLoop n) ((objsOf l.objs n port).filter (fun o => !o.served)) = some o)
  (hc : s.nodeCore l gn = some c) (he : o.anchor = some e)
include hw ho hc he

theorem anchorServe_unasked (h : o.asked = false ∨ firedAt l gn o) : exec (.anchorServe ln n port) s = .next s := by
  have h : (!o.asked || l.objs.any (fun x => o.beside gn x && x.wanted gn)) = true := by simpa using h
  simp only [exec_anchorServe, execAnchorServe, hw, ho, hc, he, h, if_true]

section
variable (ha : o.asked = true) (hf : ¬ firedAt l gn o)
include ha hf

theorem anchorServe_marker {r : Nat} (hk : (shapeKinds e.shape (e.length.toNat / 4))[o.toks.length]? = some (some r)) :
    exec (.anchorServe ln n port) s = .next (if (s.core c).outRoom (outOf gn port) (rankMark r) then
      (s.outPut c (outOf gn port) (rankMark r)).servedOn ln o (shapeKinds e.shape (e.length.toNat / 4)).length
        (rankOf gn port) else s) := by
  simp only [exec_anchorServe, execAnchorServe, hw, ho, hc, he, if_neg (serves ha hf), hk]
  cases (s.core c).outRoom (outOf gn port) (rankMark r) <;> rfl

theorem anchorServe_data {u : State} {bytes : List Byte} {bad : Bool}
    (hk : (shapeKinds e.shape (e.length.toNat / 4))[o.toks.length]? = some none)
    (hr : s.gRead (dieOf c) l.part (e.va.toNat + 4 * (((shapeKinds e.shape (e.length.toNat / 4)).take
      o.toks.length).filter Option.isNone).length) 4 = some (u, bytes, bad)) :
    exec (.anchorServe ln n port) s = .next (if (s.core c).outRoom (outOf gn port) {} then
      ((if bad then u.markPoisoned l.part e.name else u).outPut c (outOf gn port)
        { poison := bad, value := BitVec.ofNat 32 (leNat bytes) }).servedOn ln o
          (shapeKinds e.shape (e.length.toNat / 4)).length (rankOf gn port) else s) := by
  simp only [exec_anchorServe, execAnchorServe, hw, ho, hc, he, if_neg (serves ha hf), hk, hr]
  cases (s.core c).outRoom (outOf gn port) {} <;> rfl

section
variable (hk : (shapeKinds e.shape (e.length.toNat / 4))[o.toks.length]? = none)
include hk

theorem anchorServe_ends (hrank : rankOf gn port = 0) : exec (.anchorServe ln n port) s = .next (s.closeServed ln o) := by
  simp only [exec_anchorServe, execAnchorServe, hw, ho, hc, he, if_neg (serves ha hf), hk, if_pos hrank]
  rfl

theorem anchorServe_closes (hrank : rankOf gn port ≠ 0) : exec (.anchorServe ln n port) s =
    .next (if (s.core c).outRoom (outOf gn port) (rankMark (rankOf gn port)) then
      (s.outPut c (outOf gn port) (rankMark (rankOf gn port))).closeServed ln o else s) := by
  simp only [exec_anchorServe, execAnchorServe, hw, ho, hc, he, if_neg (serves ha hf), hk, if_neg hrank]
  cases (s.core c).outRoom (outOf gn port) (rankMark (rankOf gn port)) <;> rfl

end
end
end

/-! ## Retention (R157) -/

/-- The words of an object. -/
abbrev objBytes (o : Obj) : List Byte := (o.toks.filter (fun t => t.kind == 0)).flatMap (fun t => leBytes t.value.toNat 4)

/-- A whole object that is not kept (R157 step 1). -/
abbrev Skipped (l : Launch) (gp : GPort) (o : Obj) : Prop :=
  (∃ t ∈ o.toks, t.kind = 0 ∧ t.poison = true) ∨ l.cancel = true ∨ l.fault = true ∨ 2 ^ 26 < (objBytes o).length
    ∨ followsShape gp.rank (o.shape.getD 0) o.toks = false

theorem skipped_iff (l : Launch) (gp : GPort) (o : Obj) : (o.toks.any (fun t => t.kind == 0 && t.poison) || l.cancel
      || l.fault || 2 ^ 26 < (objBytes o).length || !followsShape gp.rank (o.shape.getD 0) o.toks) = true ↔
    Skipped l gp o := by
  simp [Skipped, or_assoc]

section
variable (hw : s.waveAt ln n = some (l, g, gn))
include hw

theorem retention_none (h : (objsOf l.objs n port).find? (s.due l g gn) = none) :
    exec (.retention ln n port) s = .next s := by
  simp only [exec_retention, execRetention, hw, h]

section
variable {o : Obj} (ho : (objsOf l.objs n port).find? (s.due l g gn) = some o)
include ho

theorem retention_unnamed (h : ∀ nm, o.name ≠ .named nm) :
    exec (.retention ln n port) s = .next (s.setObj ln { o with retained := true }) := by
  simp only [exec_retention, execRetention, hw, ho]
  split
  · rename_i hname _
    exact absurd hname (h _)
  · rfl

variable {gp : GPort} (hp : gn.ports.find? (fun p => p.out && p.num == port) = some gp) {nm : BitVec 128}
  (hn : o.name = .named nm)
include hp hn

theorem retention_named : exec (.retention ln n port) s =
    if o.toks.any (fun t => t.kind == 0 && t.poison) || l.cancel || l.fault || 2 ^ 26 < (objBytes o).length
        || !followsShape gp.rank (o.shape.getD 0) o.toks then
      .next ((s.setObj ln { o with retained := true }).modCounts l.part (fun k => { k with skips := k.skips + 1 }))
    else .next ((s.setObj ln { o with retained := true }).retain (dieAt (s.setObj ln { o with retained := true }) l gn)
      l.part nm (objBytes o) (o.shape.getD 0) (gp.b8 ++ gp.fmt)) := by
  simp only [exec_retention, execRetention, hw, ho, hn, hp]

end
end

end Sys2Proof.Machine
end

section
/-!
The name engine (R162-R165, R401): what it answers to `nlook`, `nins` and `nevict`, and what it lets go of. A part of
the obligation O51.
-/

namespace Sys2Proof.Machine

variable {s : State} {p i : Nat}

/-! ## Statuses (R165) -/

section
variable {r : NameReq} (hr : (s.part p).nreqs[i]? = some r)
include hr

theorem nameEngineStatus_held (hf : s.fenced r.core 1 r.seq = true) : exec (.nameEngineStatus p i) s = .next s := by
  simp only [exec_nameEngineStatus, execNameEngineStatus, hr, hf, if_true]

theorem nameEngineStatus_ins {block : List Byte} (ho : r.op = .ins block) (hf : s.fenced r.core 1 r.seq = false) :
    exec (.nameEngineStatus p i) s = .next (answeredBy (s.nins (dieOf r.core) p r.bad block).1 p i r
      (s.nins (dieOf r.core) p r.bad block).2) := by
  simp only [exec_nameEngineStatus, execNameEngineStatus, hr, ho, hf, Bool.false_eq_true, if_false]

theorem nameEngineStatus_evict (ho : r.op = .evict) (hf : s.fenced r.core 1 r.seq = false) :
    exec (.nameEngineStatus p i) s = .next (answeredBy (s.nevict p r.bad r.name).1 p i r (s.nevict p r.bad r.name).2) := by
  simp only [exec_nameEngineStatus, execNameEngineStatus, hr, ho, hf, Bool.false_eq_true, if_false]

end

/-! ### `nins`, test after test -/

section
variable {die : Nat} {block : List Byte} {e : Entry} (he : (Entry.ofBytes block).1 = e)

theorem nins_poisoned : s.nins die p true block = (s, 5) := by
  simp only [State.nins, if_true]

theorem nins_malformed (hm : Entry.malformed (Entry.ofBytes block) = true) : s.nins die p false block = (s, 7) := by
  simp only [State.nins, hm, Bool.false_eq_true, if_false, if_true]

variable (hm : Entry.malformed (Entry.ofBytes block) = false)
include he hm

theorem nins_present (hp : (s.entry p e.name).isSome = true) : s.nins die p false block = (s, 1) := by
  simp only [State.nins, he, hm, hp, Bool.false_eq_true, if_false, if_true]

variable (hp : s.entry p e.name = none)
include hp

theorem nins_untargeted (hk : e.kind = 2) (ht : ∀ c, s.entry p e.fp = some c → c.kind ≠ 1) :
    s.nins die p false block = (s, 3) := by
  simp only [State.nins, he, hm, hp, Bool.false_eq_true, if_false, Option.isSome_none, hk, if_true]
  split
  · rename_i c hc
    rw [if_pos (ht c hc)]
  · rfl

theorem nins_targeted {c : Entry} (hk : e.kind = 2) (hc : s.entry p e.fp = some c) (h1 : c.kind = 1) :
    s.nins die p false block = if s.room p e = true then (s.insertEntry p e, 0) else (s, 2) := by
  simp only [State.nins, he, hm, hp, Bool.false_eq_true, if_false, Option.isSome_none, hk, if_true, hc, h1,
    ne_eq, not_true_eq_false]

theorem nins_unmapped (hk : e.kind ≠ 2) (hc : s.content die p e = none) : s.nins die p false block = (s, 4) := by
  simp only [State.nins, he, hm, hp, Bool.false_eq_true, if_false, Option.isSome_none, hk, hc]

theorem nins_content {u : State} {bytes : List Byte} {bad : Bool} (hk : e.kind ≠ 2)
    (hc : s.content die p e = some (u, bytes, bad)) :
    let e' : Entry := { e with fp := fingerprint (((u.dom p).cfg.map (·.hashKey)).getD 0) bytes }
    s.nins die p false block =
      if bad then (u, 5) else if u.room p e' = true then (u.insertEntry p e', 0) else (u, 2) := by
  simp only [State.nins, he, hm, hp, Bool.false_eq_true, if_false, Option.isSome_none, hk, hc]

end

/-! ### `nevict` (R162) -/

theorem nevict_poisoned {nm : BitVec 128} : s.nevict p true nm = (s, 5) := by
  simp only [State.nevict, if_true]

theorem nevict_absent {nm : BitVec 128} (h : s.entry p nm = none) : s.nevict p false nm = (s, 1) := by
  simp only [State.nevict, h, Bool.false_eq_true, if_false]

theorem nevict_present {nm : BitVec 128} {e : Entry} (h : s.entry p nm = some e) :
    s.nevict p false nm = if s.held p nm = true then (s, 6) else (s.removeEntry p e, 0) := by
  simp only [State.nevict, h, Bool.false_eq_true, if_false]

/-! ## The line that `nlook` fills (R164, R401) -/

theorem Entry.length_bytes (e : Entry) : e.bytes.length = 64 := by
  simp [Entry.bytes, length_leBytes, bytes128]

/-- The 64 bytes that a lookup deposits: the entry that it found, or zeros. -/
def lookBytes (e : Option Entry) : List Byte :=
  match e with
  | some e => e.bytes
  | none => List.replicate 64 0

theorem length_lookBytes (e : Option Entry) : (lookBytes e).length = 64 := by
  cases e with
  | none => exact List.length_replicate
  | some e => exact e.length_bytes

section
variable {r : NameReq} {off : Nat} (hr : (s.part p).nreqs[i]? = some r)
include hr

theorem nlookDeposit_fenced (hf : s.fenced r.core 1 r.seq = true) : exec (.nlookDeposit p i) s = .next s := by
  simp only [exec_nlookDeposit, execNlookDeposit, hr]
  split
  · rw [if_pos (by rw [hf, Bool.true_or])]
  · rfl

variable (ho : r.op = .look off)
include ho

theorem nlookDeposit_held (hh : (s.core r.core).wordHeld off 64 = true) : exec (.nlookDeposit p i) s = .next s := by
  simp only [exec_nlookDeposit, execNlookDeposit, hr, ho, hh, Bool.or_true, if_true]

variable (hf : s.fenced r.core 1 r.seq = false) (hh : (s.core r.core).wordHeld off 64 = false) {u : State} {e : Option Entry}
  (hx : (u, e) = (if r.bad = true then (s, none) else s.lookup (dieOf r.core) p r.name))
include hf hh hx

theorem nlookDeposit_of : exec (.nlookDeposit p i) s = .next ((((u.dropRequest p i).spStore r.core off (lookBytes e)
    r.bad false).fillLine (lineKey r.core (off / 128))).modChain r.core r.chain (fun x => { x with ld := x.ld - 1 })) := by
  simp only [exec_nlookDeposit, execNlookDeposit, hr, ho, hf, hh, Bool.or_self, Bool.false_eq_true, if_false, ← hx]
  rfl

/-- An answered `nlook`: its line is full and holds the bytes, its request is gone and no longer counted. -/
theorem nlookDeposit_fills (hal : off % 64 = 0) : Completes (.nlookDeposit p i) s (fun t =>
    t.mem = u.mem.writes (spKey r.core off) (lookBytes e)
    ∧ t.isEmpty (lineKey r.core (off / 128)) = false
    ∧ (r.bad = true → t.isBad (lineKey r.core (off / 128)) = true)
    ∧ (t.core r.core).chain r.chain = { (u.core r.core).chain r.chain with ld := ((u.core r.core).chain r.chain).ld - 1 }
    ∧ (t.part p).nreqs = (u.part p).nreqs.take i ++ (u.part p).nreqs.drop (i + 1)) := by
  have hlen := length_lookBytes e
  have hne : lookBytes e ≠ [] := List.ne_nil_of_length_pos (by omega)
  have hfits : off % 128 + (lookBytes e).length ≤ 128 := by omega
  refine ⟨_, nlookDeposit_of hr ho hf hh hx, ?_, ?_, fun hb => ?_, ?_, ?_⟩
  · rw [State.modChain_eq, State.setCore_mem, State.fillLine_mem, store_one_mem _ _ _ _ _ _ hne hfits,
      State.dropRequest, State.modPart_mem]
  · rw [State.modChain_eq, State.isEmpty_setCore, State.isEmpty_fillLine, if_pos rfl]
  · rw [State.modChain_eq, State.isBad_setCore, State.isBad_fillLine, store_one_isBad _ _ _ _ _ _ hne hfits, hb,
      Bool.true_or]
  · have hcore : ((u.dropRequest p i).spStore r.core off (lookBytes e) r.bad false).core r.core = u.core r.core := by
      rw [State.core, State.spStore_cores]
      rfl
    rw [State.modChain_eq, State.core_setCore, if_pos rfl, State.core_fillLine, hcore]
    simp [Core.chain]
  · have hpart : ((u.dropRequest p i).spStore r.core off (lookBytes e) r.bad false).part p =
        (u.dropRequest p i).part p := by
      rw [store_one _ _ _ _ _ _ hne hfits]
      rfl
    rw [State.modChain_eq, State.part_setCore]
    have hfill (v : State) (k : Nat) : (v.fillLine k).part p = v.part p := rfl
    rw [hfill, hpart, State.dropRequest, State.part_modPart, if_pos rfl]
    rfl

end

/-! ## What a launch holds (R162) -/

/-- A hold is over: its launch has completed, or has read the entry for the last time. -/
def HoldOver (s : State) (h : Nat × Nat × BitVec 128) : Prop :=
  match s.launches.find h.1 with
  | some m => m.status ≠ none ∨ ∀ o ∈ m.objs, ∀ e nm, o.anchor = some e → o.name = .named nm →
    (e.name = h.2.2 ∨ nm = h.2.2) → o.served = true
  | none => True

/-- An object is done with a name: it is not served from its entry, or has been served. -/
def Obj.doneWith (o : Obj) (n : BitVec 128) : Bool :=
  match o.anchor, o.name with
  | some e, .named nm => (e.name != n && nm != n) || o.served
  | _, _ => true

theorem Obj.doneWith_iff (o : Obj) (n : BitVec 128) : o.doneWith n = true ↔
    ∀ e nm, o.anchor = some e → o.name = .named nm → (e.name = n ∨ nm = n) → o.served = true := by
  unfold Obj.doneWith
  split
  · rename_i e nm ha hn
    simp only [ha, hn, Option.some.injEq, Naming.named.injEq, Bool.or_eq_true, Bool.and_eq_true, bne_iff_ne]
    refine ⟨?_, fun h => ?_⟩
    · rintro (⟨he, hm⟩ | hs) _ _ rfl rfl hname
      · exact absurd hname (not_or.2 ⟨he, hm⟩)
      · exact hs
    · by_cases hname : e.name = n ∨ nm = n
      · exact .inr (h e nm rfl rfl hname)
      · exact .inl (not_or.1 hname)
  · rename_i hno
    exact ⟨fun _ e nm ha hn => absurd hn (hno e nm ha), fun _ => rfl⟩

theorem holdRelease_of {h : Nat × Nat × BitVec 128} (hh : (s.holds.filter (fun h => h.2.1 == p))[i]? = some h) :
    (HoldOver s h → exec (.holdRelease p i) s = .next { s with holds := s.holds.erase h })
    ∧ (¬ HoldOver s h → exec (.holdRelease p i) s = .next s) := by
  unfold HoldOver
  simp only [exec_holdRelease, execHoldRelease, hh]
  cases hl : s.launches.find h.1 with
  | none => simp
  | some m =>
    have hdone : m.objs.all (fun o => o.doneWith h.2.2) = true ↔ ∀ o ∈ m.objs, ∀ e nm, o.anchor = some e →
        o.name = .named nm → (e.name = h.2.2 ∨ nm = h.2.2) → o.served = true := by
      simp only [List.all_eq_true, Obj.doneWith_iff]
    have hiff : (m.status.isSome || m.objs.all (fun o => o.doneWith h.2.2)) = true ↔ m.status ≠ none ∨
        ∀ o ∈ m.objs, ∀ e nm, o.anchor = some e → o.name = .named nm → (e.name = h.2.2 ∨ nm = h.2.2) → o.served = true := by
      rw [Bool.or_eq_true, hdone, Option.isSome_iff_ne_none]
    exact ⟨fun hover => congrArg Host.Outcome.next (if_pos (hiff.2 hover)),
      fun hover => congrArg Host.Outcome.next (if_neg (fun hx => hover (hiff.1 hx)))⟩

end Sys2Proof.Machine
end

section
/-!
The name wave of a launch and the name engine (R141-R165): the obligation O51, clause after clause.
-/

namespace Sys2Proof.Machine

/-- Settles O51: each event of the wave and of the name engine by the equation of its case; an output's name by what its
inputs and its control come to. -/
theorem namesAndWave : Obligations.NamesAndWave := by
  unfold Obligations.NamesAndWave
  intro s ln n port
  refine ⟨waveless, fun l g gn hw => ?_, fun g o => ?_, fun g o => ?_, fun p i r hr => ?_, fun p i h hh => holdRelease_of hh⟩
  · refine ⟨nodeNaming_stands hw, fun seg iter hk hp hnext => ⟨nodeNaming_stops hw hk hp hnext,
      nodeNaming_names hw hk hp hnext⟩, fun seg iter => ⟨nameAt_stands, nameAt_names⟩, fun seg iter prev hp hk => ?_,
      fun seg iter hp => nameOf_of_unsettled hp, fun seg iter prev hp hk hx => nameOf_source hp hk hx,
      fun seg iter prev names ctl => ⟨madeName_unshaped, madeName_open, fun t ht => madeName_shaped ht⟩,
      nameLookup_none hw, fun o ho => ⟨nameLookup_passes hw ho, fun nm u hm hn hl => nameLookup_misses hw ho hm hn hl,
        fun nm u e hm hn hl => nameLookup_hits hw ho hm hn hl⟩, ⟨controlNameResolve_of hw, shapeWordArrival_of hw⟩,
      demandRequest_crossing hw, demandRequest_sink hw, demandRequest_node hw, fun o c e ho hc he => ?_,
      retention_none hw, fun o nm gp ho hp => ?_⟩
    · -- what the inputs and the control make of a name
      refine ⟨fun hne hv hm => nameOf_allVoid hp hk ⟨hne, hv⟩ hm, fun hc hv hu => ?_, fun hc hv hu hpo => ?_,
        fun hc hn => ?_, fun e c hc hs hn ho => ?_, fun e c pn hc hs hn ho hpn => ?_⟩
      · rw [nameOf_uncontrolled hp hk hc, if_neg, inputsGive_unknown hu]
        rw [allVoid_iff]
        obtain ⟨x, hx, hxv⟩ := hv
        exact fun h => hxv (h.2 x hx)
      · rw [nameOf_uncontrolled hp hk hc, if_neg, inputsGive_poison hu hpo]
        rw [allVoid_iff]
        obtain ⟨x, hx, hxv⟩ := hv
        exact fun h => hxv (h.2 x hx)
      · rw [nameOf_uncontrolled hp hk hc, if_neg (fun h => hn.not_allVoid ((allVoid_iff _).1 h)), inputsGive_named hn]
      · rw [nameOf_multiple hp hk hn hc hs, ho, Option.map_some, Option.getD_some]
        refine ⟨fun hv => ?_, fun nm hnm => ?_⟩
        · rw [hv, if_pos rfl]
          refine inputsGive_of_settled (fun x hx => ?_) _
          obtain hx | hx := List.mem_append.1 hx
          · exact hn.settled x hx
          · simp [List.mem_singleton.1 hx]
        · rw [hnm, if_neg (by simp)]
          refine inputsGive_named (fun x hx => ?_) _
          obtain hx | hx := List.mem_append.1 hx
          · exact hn x hx
          · exact ⟨nm, List.mem_singleton.1 hx⟩
      · rw [nameOf_single hp hk hn hc hs ho hpn]
        have hst := isSteer_of_control (State.node_of_waveAt hw) hs
        refine ⟨fun h => if_pos h, fun h hv => ?_, fun h hpo => ?_, fun h hv hpo => ?_⟩
        · rw [if_neg (by simp [h]), if_pos hv]
        · rw [if_neg (by simp [h]), if_neg (by simp [hpo]), if_pos hpo]
        · rw [if_neg (by simp [h]), if_neg hv, if_neg hpo]
          refine ⟨fun ht => ?_, fun t ht htp => ?_, fun t ht htp hm => ?_, fun t ht htp hm => ?_⟩
          · rw [ht, byControl_none]
          · rw [ht, byControl_poison htp]
          · rw [ht, byControl_steers htp hn hst hm]
          · rw [ht, byControl_merges htp hn hst hm]
    · -- a stored object's next token
      refine ⟨anchorServe_unasked hw ho hc he, fun ha hf => ⟨fun r hk => ?_, fun u bytes bad hk hr => ?_,
        anchorServe_ends hw ho hc he ha hf, fun hk hrank => ?_⟩⟩
      · rw [anchorServe_marker hw ho hc he ha hf hk]
        exact ⟨fun h => congrArg _ (if_neg h), fun h => congrArg _ (if_pos h)⟩
      · rw [anchorServe_data hw ho hc he ha hf hk hr]
        exact ⟨fun h => congrArg _ (if_neg h), fun h => congrArg _ (if_pos h)⟩
      · rw [anchorServe_closes hw ho hc he ha hf hk hrank]
        exact ⟨fun h => congrArg _ (if_neg h), fun h => congrArg _ (if_pos h)⟩
    · refine ⟨retention_unnamed hw ho, fun hskip hn => ?_, fun hskip hn => ?_⟩
      · rw [retention_named hw ho hp hn, if_pos ((skipped_iff l gp o).2 hskip)]
      · rw [retention_named hw ho hp hn, if_neg (fun h => hskip ((skipped_iff l gp o).1 h))]
  · exact ⟨State.nameObj_objs g o, State.nameObj_mem s ln g o, State.nameObj_local, fun e h => State.nameObj_feeds h⟩
  · exact ⟨request_stands, fun ha hu hv => ⟨request_notes ha hu hv, request_goes_back ha hu hv⟩⟩
  · refine ⟨fun hf => ⟨nameEngineStatus_held hr hf, nlookDeposit_fenced hr hf⟩,
      fun off ho hf => ⟨nlookDeposit_held hr ho, fun u e hh hal hx => nlookDeposit_fills hr ho hf hh hx hal⟩,
      fun block ho hf => ?_, fun ho hf => ?_⟩
    · rw [nameEngineStatus_ins hr ho hf]
      refine ⟨fun hb => ?_, fun hb hm => ?_, fun hb hm => ⟨fun hp => ?_, fun hp hk => ⟨fun ht => ?_, fun c hc h1 => ?_⟩,
        fun hp hk => ⟨fun hc => ?_, fun u bytes bad hc => ?_⟩⟩⟩
      · rw [hb, nins_poisoned]
      · rw [hb, nins_malformed hm]
      · rw [hb, nins_present rfl hm hp]
      · rw [hb, nins_untargeted rfl hm hp hk ht]
      · rw [hb, nins_targeted rfl hm hp hk hc h1]
        split <;> rfl
      · rw [hb, nins_unmapped rfl hm hp hk hc]
      · rw [hb, nins_content rfl hm hp hk hc]
        cases bad with
        | true => rfl
        | false =>
          simp only [Bool.false_eq_true, if_false]
          split_ifs <;> rfl
    · rw [nameEngineStatus_evict hr ho hf]
      refine ⟨fun hb => ?_, fun hb he => ?_, fun e hb he => ?_⟩
      · rw [hb, nevict_poisoned]
      · rw [hb, nevict_absent he]
      · rw [hb, nevict_present he]
        split <;> rfl

end Sys2Proof.Machine
end

section
/-!
Accesses to physical memory and the check of a command do not depend on the cores' records (R115, R166, R188, R189).
A part of the obligation O26.
-/

namespace Sys2Proof.Machine

/-- The machine with other records of its cores. -/
def State.withCores (k : Tbl Core) (s : State) : State := { s with cores := k }

variable {k : Tbl Core} {s : State}

@[simp] theorem State.withCores_mem : (s.withCores k).mem = s.mem := rfl

/-! ## Translation (R117) -/

theorem walkFrom_withCores (va f lvl table : Nat) : walkFrom (s.withCores k) va f lvl table = walkFrom s va f lvl table := by
  induction f generalizing lvl table with
  | zero => rfl
  | succ f ih =>
    have he (pa : Nat) : walkEntry (s.withCores k) pa lvl = walkEntry s pa lvl := rfl
    simp only [walkFrom, he, ih]

theorem walkReads_withCores (va f lvl table : Nat) :
    walkReads (s.withCores k) va f lvl table = walkReads s va f lvl table := by
  induction f generalizing lvl table with
  | zero => rfl
  | succ f ih =>
    have he (pa : Nat) : walkEntry (s.withCores k) pa lvl = walkEntry s pa lvl := rfl
    simp only [walkReads, he, ih]

theorem translate_withCores (die p va : Nat) (write : Bool) :
    (s.withCores k).translate die p va write = s.translate die p va write := by
  have hc : (s.withCores k).cached die p va = s.cached die p va := rfl
  simp only [State.translate, hc, walkFrom_withCores]
  rfl

theorem translateAll_withCores (die p va : Nat) (write : Bool) (n : Nat) :
    (s.withCores k).translateAll die p va write n = s.translateAll die p va write n := by
  induction n generalizing va with
  | zero => rfl
  | succ n ih => simp only [State.translateAll, translate_withCores, ih]

/-! ## Recalls, keys and the bytes (R166, R255) -/

theorem recall_withCores (line : Nat) : (s.withCores k).recall line = (s.recall line).withCores k := by
  refine List.foldl_hom (State.withCores k) (fun u x => ?_)
  unfold State.writeBack
  split
  · have hc : (u.withCores k).cluster x.1 = u.cluster x.1 := rfl
    dsimp only
    rw [hc]
    split <;> rfl
  · rfl

theorem recalls_withCores (l : List Nat) : l.foldl (fun s a => s.recall (a / 128)) (s.withCores k) =
    (l.foldl (fun s a => s.recall (a / 128)) s).withCores k :=
  List.foldl_hom (State.withCores k) (fun _ _ => recall_withCores _)

theorem walked_withCores (die p va : Nat) : (s.withCores k).walked die p va = (s.walked die p va).withCores k := by
  have hc : (s.withCores k).cached die p va = s.cached die p va := rfl
  simp only [State.walked, hc, walkReads_withCores]
  split
  · rfl
  · exact recalls_withCores _

theorem rekeyUnit_withCores (old key : List Byte) (x : Nat) :
    (s.withCores k).rekeyUnit old key x = (s.rekeyUnit old key x).withCores k := by
  have hput (u : State) (m : Memory) (t : Tbl (List Byte)) :
      { u.withCores k with mem := m, unitKey := t } = State.withCores k { u with mem := m, unitKey := t } := rfl
  have hkey (u : State) : (u.withCores k).unitKey = u.unitKey := rfl
  simp only [State.rekeyUnit, recall_withCores, hput, hkey, State.withCores_mem]

theorem keyed_withCores (p : Nat) (l : List Nat) (write : Bool) :
    (s.withCores k).keyed p l write = (s.keyed p l write).withCores k := by
  refine List.foldl_hom (State.withCores k) (fun u x => ?_)
  have hf : (u.withCores k).unitKey.find x = u.unitKey.find x := rfl
  have hp : ((s.withCores k).part p).key = (s.part p).key := rfl
  simp only [hf, rekeyUnit_withCores, hp]
  split
  · split <;> rfl
  · split <;> rfl

theorem physRead_withCores (l : List Nat) :
    (s.withCores k).physRead l = ((s.physRead l).1.withCores k, (s.physRead l).2) := by
  simp only [State.physRead, recalls_withCores]
  rfl

theorem physWrite_withCores (l : List Nat) (b : List Byte) (bad : Bool) :
    (s.withCores k).physWrite l b bad = (s.physWrite l b bad).withCores k := by
  simp only [State.physWrite, recalls_withCores]
  rfl

/-! ## The Regulator's accesses (R115) -/

theorem regRead_withCores (p va n : Nat) :
    (s.withCores k).regRead p va n = (s.regRead p va n).map (fun x => (x.1.withCores k, x.2)) := by
  unfold State.regRead State.gRead
  split
  · simp only [translateAll_withCores, State.walkedRange, walked_withCores, keyed_withCores, physRead_withCores,
      Option.map_map, Function.comp_def]
  · rfl

theorem regWrite_withCores (p va : Nat) (b : List Byte) (bad : Bool) :
    (s.withCores k).regWrite p va b bad = (s.regWrite p va b bad).map (State.withCores k) := by
  unfold State.regWrite State.gWrite
  split
  · simp only [translateAll_withCores, State.walkedRange, walked_withCores, keyed_withCores, physWrite_withCores,
      Option.map_map, Function.comp_def]
  · rfl

/-! ## A command is checked (R188, R189) -/

theorem readTable_withCores (p va n : Nat) :
    readTable p va n (s.withCores k) = ((readTable p va n s).1.withCores k, (readTable p va n s).2) := by
  induction n generalizing va s with
  | zero => rfl
  | succ n ih =>
    have hg (u : State) (x : List Byte) : (u.withCores k).graphRefs p x = u.graphRefs p x := rfl
    simp only [readTable, regRead_withCores]
    cases s.regRead p va 16 with
    | none => rfl
    | some e =>
      obtain ⟨u, e, bad⟩ := e
      simp only [Option.map_some, regRead_withCores]
      split
      · rfl
      · cases u.regRead p (field e 0 8) (8 * field e 8 2) with
        | none => rfl
        | some l =>
          obtain ⟨w, l, bad⟩ := l
          simp only [Option.map_some, hg, ih]
          split
          · rfl
          · split
            · rfl
            · rcases readTable p (va + 16) n w with ⟨v, _ | r⟩ <;> rfl

theorem parseCommand_withCores (p : Nat) (b : List Byte) (bad : Bool) :
    (s.withCores k).parseCommand p b bad = ((s.parseCommand p b bad).1.withCores k, (s.parseCommand p b bad).2) := by
  have hl (id : Nat) : (s.withCores k).liveJob p id = s.liveJob p id := rfl
  unfold State.parseCommand
  dsimp only
  simp only [hl, readTable_withCores]
  split
  · rfl
  split
  · rfl
  split
  · rfl
  rcases readTable p (field b 16 8) (field b 13 1) s with ⟨u, _ | ph⟩
  · rfl
  dsimp only
  cases ph.flatten.map (·.1) with
  | nil => rfl
  | cons o r =>
    have ho : (u.withCores k).object o = u.object o := rfl
    dsimp only
    rw [ho]
    cases u.object o with
    | none => rfl
    | some ob =>
      dsimp only
      split
      · rfl
      split
      · rfl
      split
      · rfl
      rw [regRead_withCores]
      cases u.regRead p (field b 32 8) (16 * field b 40 4) with
      | none => rfl
      | some t =>
        dsimp only [Option.map_some]
        split <;> rfl

end Sys2Proof.Machine
end

section
/-!
`nlook`, `nins` and `nevict` at issue (R163-R165, R401). A part of the obligation O26.
-/

namespace Sys2Proof.Machine

/-! ## The address tests -/

/-- The test of an address of `n` bytes in the local space, as the machine makes it. -/
def outsideLocal (a : Word) (n : Nat) : Bool := a.extractLsb' 60 4 != 1 || 0x80000 < localOff a + n

theorem localOff_eq (a : Word) : localOff a = a.toNat % 2 ^ 60 := (spaceNat a).2

theorem outsideLocal_iff {a : Word} {n : Nat} : outsideLocal a n = true ↔ ¬ LocalIn a n := by
  simp only [outsideLocal, Bool.or_eq_true, bne_iff_ne, decide_eq_true_eq, (spaceNat a).1, localOff_eq]
  omega

theorem nameAddrs_outside {l : List (Word × Nat × Nat)} {x : Word × Nat × Nat}
    (h : l.find? (fun x => outsideLocal x.1 x.2.1) = some x) : nameAddrs l = .inl (4, x.1) := by
  unfold outsideLocal at h
  simp only [nameAddrs, h]

theorem nameAddrs_unaligned {l : List (Word × Nat × Nat)} {x : Word × Nat × Nat} (hin : ∀ x ∈ l, LocalIn x.1 x.2.1)
    (h : l.find? (fun x => x.1.toNat % x.2.2 != 0) = some x) : nameAddrs l = .inl (5, x.1) := by
  have hnone : l.find? (fun x => outsideLocal x.1 x.2.1) = none := by
    rw [List.find?_eq_none]
    intro y hy
    exact fun hx => outsideLocal_iff.1 hx (hin y hy)
  unfold outsideLocal at hnone
  simp only [nameAddrs, hnone, h]

theorem nameAddrs_offsets {l : List (Word × Nat × Nat)} (hin : ∀ x ∈ l, LocalIn x.1 x.2.1)
    (hal : ∀ x ∈ l, x.1.toNat % x.2.2 = 0) : nameAddrs l = .inr (l.map (fun x => localOff x.1)) := by
  have hnone : l.find? (fun x => outsideLocal x.1 x.2.1) = none := by
    rw [List.find?_eq_none]
    intro y hy
    exact fun hx => outsideLocal_iff.1 hx (hin y hy)
  have hnone' : l.find? (fun x => x.1.toNat % x.2.2 != 0) = none := by
    rw [List.find?_eq_none]
    intro y hy
    simp [hal y hy]
  unfold outsideLocal at hnone
  simp only [nameAddrs, hnone, hnone']

/-! ## A request is sent -/

section
variable {s : State} {r : NameReq}

@[simp] theorem State.nameRequest_seat : (s.nameRequest r).seat = s.seat := rfl
@[simp] theorem State.nameRequest_core (c : Nat) : (s.nameRequest r).core c = s.core c := rfl
@[simp] theorem State.nameRequest_here : (s.nameRequest r).here = s.here := rfl
@[simp] theorem State.nameRequest_isEmpty (l : Nat) : (s.nameRequest r).isEmpty l = s.isEmpty l := rfl

/-- A request stands last at the engine of its core's partition. -/
theorem State.nameRequest_part (p : Nat) (h : (s.core r.core).part = p) :
    ((s.nameRequest r).part p).nreqs = (s.part p).nreqs ++ [r] := by
  have hp : (s.nameRequest r).part p = (s.modPart p (fun x => { x with nreqs := x.nreqs ++ [r] })).part p := by
    rw [← h]
    rfl
  rw [hp, State.part_modPart, if_pos rfl]

end

/-! ## `nlook` (R164) -/

section
variable {s : State} {g : Guard} {d a b : Reg}

theorem nlook_fenced (h : Issues s g [.g a, .g b]) (hf : s.fenced s.seat.core 1 s.opSeq = true) :
    exec (.nlook g a b) s = .next s := by
  rw [exec_nlook, execNlook, control_of_issues h, if_pos hf]

section
variable (h : Issues s g [.g a, .g b]) (hf : s.fenced s.seat.core 1 s.opSeq = false)
include h hf

theorem nlook_traps {cause : Nat} {v : Word} (hx : nameAddrs [(s.reg a, 16, 16), (s.reg b, 64, 64)] = .inl (cause, v)) :
    Completes (.nlook g a b) s (Traps cause v s) := by
  refine completes_of_issues h (by rw [exec_nlook, execNlook]) ?_
  simp only [hf, Bool.false_eq_true, if_false, hx]
  exact State.trap_traps s cause v

variable (ha : LocalIn (s.reg a) 16) (hb : LocalIn (s.reg b) 64)
include ha hb

omit h hf in
theorem nlook_addrs : ∀ x ∈ [(s.reg a, 16, 16), (s.reg b, 64, 64)], LocalIn x.1 x.2.1 := by
  simp only [List.forall_mem_cons]
  exact ⟨ha, hb, by simp⟩

variable (hal : (s.reg a).toNat % 16 = 0) (hbl : (s.reg b).toNat % 64 = 0)
include hal hbl

omit h hf in
theorem nlook_offsets : nameAddrs [(s.reg a, 16, 16), (s.reg b, 64, 64)] =
    .inr [(s.reg a).toNat % 2 ^ 60, (s.reg b).toNat % 2 ^ 60] := by
  rw [nameAddrs_offsets (nlook_addrs ha hb)]
  · simp only [List.map_cons, List.map_nil, localOff_eq]
  · simp only [List.forall_mem_cons]
    exact ⟨hal, hbl, by simp⟩

theorem nlook_full (hld : (s.here.chain s.here.ctl.chain).ld = 65535) : Completes (.nlook g a b) s (Traps 11 0 s) := by
  refine completes_of_issues h (by rw [exec_nlook, execNlook]) ?_
  simp only [hf, Bool.false_eq_true, if_false, nlook_offsets ha hb hal hbl, hld, if_true]
  exact State.trap_traps s 11 0

theorem nlook_requests (hld : (s.here.chain s.here.ctl.chain).ld ≠ 65535) : Completes (.nlook g a b) s (fun t =>
    NextWord s t ∧ MemoryKept s t
    ∧ (∀ l, t.isEmpty l = (s.isEmpty l || l == lineKey s.seat.core ((s.reg b).toNat % 2 ^ 60 / 128)))
    ∧ (t.here.chain s.here.ctl.chain).ld = (s.here.chain s.here.ctl.chain).ld + 1
    ∧ (t.part s.here.part).nreqs = (s.part s.here.part).nreqs ++ [
      { core := s.seat.core, op := .look ((s.reg b).toNat % 2 ^ 60)
        name := of128 (s.spBytes s.seat.core ((s.reg a).toNat % 2 ^ 60) 16)
        bad := s.isBad (lineKey s.seat.core ((s.reg a).toNat % 2 ^ 60 / 128))
        chain := s.here.ctl.chain, seq := s.opSeq }]) := by
  have hhere : s.core s.seat.core = s.here := rfl
  refine completes_of_issues h (by rw [exec_nlook, execNlook]) ?_
  simp only [hf, Bool.false_eq_true, if_false, nlook_offsets ha hb hal hbl, hld, List.getElem?_cons_zero,
    List.getElem?_cons_succ, Option.getD_some]
  refine ⟨nextWord_stepPc h.1 (by simp) ?_, fun x => by simp, fun l => ?_, ?_, ?_⟩
  · simp [hhere]
  · rw [State.stepPc_eq, State.isEmpty_setCore, State.nameRequest_isEmpty, State.modChain_eq, State.isEmpty_setCore,
      State.isEmpty_setEmpty]
    generalize lineKey s.seat.core ((s.reg b).toNat % 2 ^ 60 / 128) = key
    by_cases hl : l = key <;> simp [hl]
  · simp [hhere, Core.chain]
  · rw [State.stepPc_eq, State.part_setCore, State.nameRequest_part _ (by simp [hhere])]
    simp

end

/-! ## `nins` and `nevict` (R165) -/

/-- A request whose status a register is owed. -/
theorem State.owed_request (hq : s.seat.seq = .control) (d : Reg) {r : NameReq} (hr : r.core = s.seat.core) :
    let t := ((s.settled.owe s.seat.core (.g d) none true).nameRequest r).stepPc
    OwesReg d none true s t ∧ MemoryKept s t ∧ (t.part s.here.part).nreqs = (s.part s.here.part).nreqs ++ [r] := by
  refine ⟨⟨nextWord_stepPc hq ?_ ?_, ?_⟩, fun x => ?_, ?_⟩
  · simp [State.owe]
  · simp [State.owe]
  · simp [State.owe]
  · rw [State.stepPc_mem, State.nameRequest_mem, State.owe_mem, State.settled_mem]
  · rw [State.stepPc_eq, State.part_setCore, State.nameRequest_part _ (by simp [State.owe, hr])]
    rfl

section
variable {n : Nat} {op : List Byte → NameOp} {i : Instr} (h : Issues s g [.g d, .g a])
  (e : ∀ u, exec i u = nameStatus g d a n op u)
include h e

theorem nameStatus_issues : NameStatusIssues i s d (s.reg a) n (op (s.spBytes s.seat.core ((s.reg a).toNat % 2 ^ 60) n)) := by
  refine ⟨fun hf => ?_, fun hf => ⟨?_, fun hu => ?_⟩⟩
  · rw [e, nameStatus, control_of_issues h, if_pos hf]
  · exact irrevocableFirst_of_settling h e (if_neg (by rw [hf]; exact Bool.false_ne_true)) 
      (if_neg (by rw [irrevocably_seat, irrevocably_opSeq, irrevocably_fenced, hf]; exact Bool.false_ne_true))
  · have hhere : s.core s.seat.core = s.here := rfl
    refine ⟨fun hout => ?_, fun hin hal => ?_, fun hin hal => ?_⟩
    · refine completes_of_issues h (by rw [e, nameStatus]) ?_
      rw [if_neg (by rw [hf]; exact Bool.false_ne_true), State.settling_of_unordered hu, State.settled_reg,
        nameAddrs_outside (x := (s.reg a, n, n)) (List.find?_cons_of_pos (outsideLocal_iff.2 hout))]
      exact State.trap_settled 4 _
    · refine completes_of_issues h (by rw [e, nameStatus]) ?_
      rw [if_neg (by rw [hf]; exact Bool.false_ne_true), State.settling_of_unordered hu, State.settled_reg,
        nameAddrs_unaligned (x := (s.reg a, n, n)) (List.forall_mem_singleton.2 hin)
          (List.find?_cons_of_pos (bne_iff_ne.2 hal))]
      exact State.trap_settled 5 _
    · refine completes_of_issues h (by rw [e, nameStatus]) ?_
      rw [if_neg (by rw [hf]; exact Bool.false_ne_true), State.settling_of_unordered hu, State.settled_reg,
        nameAddrs_offsets (List.forall_mem_singleton.2 hin) (List.forall_mem_singleton.2 hal)]
      have hbytes (off : Nat) : s.settled.spBytes s.seat.core off n = s.spBytes s.seat.core off n := rfl
      simp only [List.map_cons, List.map_nil, List.headD_cons, localOff_eq, State.settled_seat, State.settled_isBad,
        State.settled_here, State.settled_fresh, State.settled_opSeq, hbytes]
      exact State.owed_request h.1 d rfl

end
end

end Sys2Proof.Machine
end

section
/-!
`cnct` and `cncl` at issue (R200, R327-R329). A part of the obligation O26.
-/

namespace Sys2Proof.Machine

/-! ## Handles (R200) -/

/-- The level that a handle names. -/
def handleNames (v : Word) : Level :=
  match handleLevel v with
  | 0 => .unit
  | 1 => .launch
  | 2 => .graph
  | 3 => .phase
  | _ => .job (v.toNat % 2 ^ 32)

theorem levelHandle_fits {v : Word} (h : HandleFits v) : levelHandle v = some (handleNames v) := by
  obtain ⟨hz, hle, hlow⟩ := h
  have hv := v.isLt
  have hlvl : v.toNat / 2 ^ 61 % 2 ^ 3 = handleLevel v := Nat.mod_eq_of_lt (by omega)
  unfold levelHandle handleNames
  rw [if_neg (by rw [extract_ne]; omega), extract_nat, extract_nat, hlvl, Nat.pow_zero, Nat.div_one]
  obtain h0 | h1 | h2 | h3 | h4 : handleLevel v = 0 ∨ handleLevel v = 1 ∨ handleLevel v = 2 ∨ handleLevel v = 3
      ∨ handleLevel v = 4 := by omega
  · simp only [h0, hlow (by omega), if_true]
  · simp only [h1, hlow (by omega), if_true]
  · simp only [h2, hlow (by omega), if_true]
  · simp only [h3, hlow (by omega), if_true]
  · simp only [h4]

theorem levelHandle_unfit {v : Word} (h : ¬ HandleFits v) : levelHandle v = none := by
  unfold levelHandle
  rw [extract_nat, extract_nat, Nat.pow_zero, Nat.div_one]
  split
  · rfl
  · rename_i hz
    rw [extract_ne, not_not] at hz
    unfold HandleFits at h
    have hv := v.isLt
    split
    · rw [if_neg (by omega)]
    · rw [if_neg (by omega)]
    · rw [if_neg (by omega)]
    · rw [if_neg (by omega)]
    · omega
    · rfl

/-- A task without a launch is in no launch, graph or phase. -/
theorem counter_unenclosed {s : State} {v : Word} (h1 : 1 ≤ handleLevel v) (h3 : handleLevel v ≤ 3)
    (h : s.ownLaunch = none) : s.counter (handleNames v) = 0 := by
  obtain hl | hl | hl : handleLevel v = 1 ∨ handleLevel v = 2 ∨ handleLevel v = 3 := by omega
  · simp only [handleNames, hl, State.counter, h]
  · simp only [handleNames, hl, State.counter, h, Option.bind_none]
  · simp only [handleNames, hl, State.counter, h, Option.bind_none]

theorem cancelTarget_unenclosed {s : State} {v : Word} (h1 : 1 ≤ handleLevel v) (h3 : handleLevel v ≤ 3)
    (h : s.ownLaunch = none) : s.cancelTarget (handleNames v) = none := by
  obtain hl | hl | hl : handleLevel v = 1 ∨ handleLevel v = 2 ∨ handleLevel v = 3 := by omega
  · simp only [handleNames, hl, State.cancelTarget, h, Option.map_none]
  · simp only [handleNames, hl, State.cancelTarget, h, Option.bind_none, Option.map_none]
  · simp only [handleNames, hl, State.cancelTarget, h, Option.bind_none]

/-! ## `cnct` (R328) -/

section
variable {s : State} {g : Guard} {d a : Reg}

theorem onlyCore_setCore (c : Nat) (k : Core) : OnlyCore c s (s.setCore c k) := by
  rw [OnlyCore, State.core_setCore, if_pos rfl]

/-- A word that owes a reply changes its core's record alone, the identifiers apart. -/
theorem State.owe_onlyCore (x : Dest) (v : Option Word) (unb : Bool) :
    OnlyCore s.seat.core s { (s.owe s.seat.core x v unb).stepPc with fresh := s.fresh } := by
  have hfresh (k k' : Core) : { ((s.setCore s.seat.core k).next.setCore s.seat.core k') with fresh := s.fresh } =
      (s.setCore s.seat.core k).setCore s.seat.core k' := rfl
  rw [State.owe, State.modCore_eq, State.stepPc_eq, State.next_seat, State.setCore_seat, hfresh, State.setCore_setCore]
  exact onlyCore_setCore _ _

/-- A register is owed the word of a level; of the machine only the core's record differs. -/
theorem cnct_answers (h : Issues s g [.g d, .g a]) (hf : HandleFits (s.reg a)) {v : Word}
    (hv : s.counter (handleNames (s.reg a)) = v) : Completes (.cnct g d a) s (fun t => OwesReg d (some v) false s t
      ∧ OnlyCore s.seat.core s { t with fresh := s.fresh }) := by
  obtain ⟨hnext, -, howed⟩ := State.owe_stepPc h.1 (.g d) (some v) false
  have he : exec (.cnct g d a) s = .next (s.owe s.seat.core (.g d) (some v) false).stepPc := by
    rw [exec_cnct, execCnct, control_of_issues h, levelHandle_fits hf, ← hv]
  exact ⟨_, he, ⟨hnext, howed⟩, State.owe_onlyCore _ _ _⟩

theorem cnct_unfit (h : Issues s g [.g d, .g a]) (hf : ¬ HandleFits (s.reg a)) :
    Completes (.cnct g d a) s (Traps 7 (s.reg a) s) := by
  refine completes_of_issues h (by rw [exec_cnct, execCnct]) ?_
  rw [levelHandle_unfit hf]
  exact State.trap_traps s 7 _

end

/-! ## `cncl` (R329) -/

section
variable {s : State} {g : Guard} {a : Reg} (h : Issues s g [.g a]) (hu : Unordered s)

/-- A task that has settled names the same levels. -/
theorem State.settled_cancelTarget (lv : Level) : s.settled.cancelTarget lv = s.cancelTarget lv := by
  unfold State.cancelTarget State.ownLaunch
  rw [State.settled_here]
  rfl

@[simp] theorem State.settled_cancels : s.settled.cancels = s.cancels := rfl

include h hu

theorem cncl_unfit (hf : ¬ HandleFits (s.reg a)) : Completes (.cncl g a) s (Traps 7 (s.reg a) s) := by
  refine completes_of_settles h hu (by rw [exec_cncl, execCncl]) ?_
  rw [State.settled_reg, levelHandle_unfit hf]
  exact State.trap_settled 7 _

theorem cncl_cancels (hf : HandleFits (s.reg a)) {lvl id : Nat} {mine : Bool}
    (ht : s.cancelTarget (handleNames (s.reg a)) = some (lvl, id, mine)) : Cancels (.cncl g a) s lvl id mine := by
  have hkilled := h.2.2.1
  refine completes_of_settles h hu (by rw [exec_cncl, execCncl]) ?_
  simp only [State.settled_reg, levelHandle_fits hf, State.settled_cancelTarget, ht]
  refine ⟨nextWord_stepPc h.1 ?_ ?_, fun x => ?_, ?_, ?_⟩
  · cases mine <;> rfl
  · cases mine <;> simp [State.killSelf]
  · cases mine <;> simp [State.killSelf]
  · cases mine <;> simp [State.killSelf, Ctl.stepPc, hkilled]
  · cases mine <;> simp [State.killSelf]

theorem cncl_nothing (hf : HandleFits (s.reg a)) (ht : s.cancelTarget (handleNames (s.reg a)) = none) :
    CancelsNothing (.cncl g a) s := by
  have hkilled := h.2.2.1
  refine completes_of_settles h hu (by rw [exec_cncl, execCncl]) ?_
  simp only [State.settled_reg, levelHandle_fits hf, State.settled_cancelTarget, ht]
  refine ⟨nextWord_stepPc h.1 rfl (by simp), fun x => by simp, ?_, ?_⟩
  · simp [Ctl.stepPc, hkilled]
  · simp

end

end Sys2Proof.Machine
end

section
/-!
`qpost` at issue (R200, R407, R408). A part of the obligation O26.
-/

namespace Sys2Proof.Machine

/-! ## The Regulator takes a posted command (R200) -/

/-- The machine with a posted command in a queue's ring. -/
def State.putPost (s : State) (q : Nat) (x : Queue) : State :=
  State.refresh { s with queues := s.queues.put q (x.advance s.dial) }

section
variable {s : State} {p q : Nat} {b : List Byte} {bad : Bool} {x : Queue} (hx : x = Tbl.get {} s.queues q)
include hx

theorem post_refused (h : x.en = false ∨ x.part.toNat ≠ p) : s.post p q b bad = (s, 2) := by
  have h : (!x.en || x.part.toNat != p) = true := by simpa using h
  subst hx
  unfold State.post
  exact if_pos h

section
variable (hen : x.en = true) (hp : x.part.toNat = p)
include hen hp

theorem post_full (h : x.capacity ≤ (x.postTail s.dial - x.head).toNat) : s.post p q b bad = (s, 1) := by
  have hmine : ¬ (!x.en || x.part.toNat != p) = true := by simp [hen, hp]
  subst hx
  unfold State.post
  refine (if_neg hmine).trans ?_
  exact if_pos h

section
variable (hroom : (x.postTail s.dial - x.head).toNat < x.capacity)
include hroom

/-- A command that finds room is checked, and then put into the ring. -/
theorem post_checked : s.post p q b bad =
    ((if !(s.parseCommand p b bad).2.ok then ((s.parseCommand p b bad).1, 3)
    else if x.loc then
      match (s.parseCommand p b bad).1.regWrite p (x.slotAt (x.postTail s.dial))
          (leBytes (x.seq + (x.postTail s.dial - x.head)).toNat 4 ++ b.drop 4) false with
      | some w => (w.putPost q x, 0)
      | none => ((s.parseCommand p b bad).1, 2)
    else (State.putPost { (s.parseCommand p b bad).1 with
      mem := (s.parseCommand p b bad).1.mem.writes (hostKey (x.slotAt (x.postTail s.dial)))
        (leBytes (x.seq + (x.postTail s.dial - x.head)).toNat 4 ++ b.drop 4) } q x, 0)) : State × Word) := by
  have hmine : ¬ (!x.en || x.part.toNat != p) = true := by simp [hen, hp]
  subst hx
  unfold State.post
  refine (if_neg hmine).trans ?_
  refine (if_neg (not_le.2 hroom)).trans ?_
  rfl

end
end
end

/-! ## The queue after a command has been put into its ring (R204) -/

section
variable {s : State} {q : Nat} {x : Queue}

theorem State.requeued_tail (s : State) (q : Nat) (x : Queue) : (s.requeued q x).tail = x.tail := by
  unfold State.requeued State.idled
  split_ifs <;> rfl

theorem State.requeued_noted (s : State) (q : Nat) (x : Queue) : (s.requeued q x).noted = x.noted := by
  unfold State.requeued State.idled
  split_ifs <;> rfl

theorem State.putPost_queue : ∃ u : State, Tbl.get {} (s.putPost q x).queues q = u.requeued q (x.advance s.dial) := by
  refine ⟨{ s with queues := s.queues.put q (x.advance s.dial) }, ?_⟩
  rw [State.putPost, State.refresh_eq, Tbl.get_eq_find, Tbl.find_mappedAt, Tbl.find_put_self]
  rfl

/-- The queue's tail goes on by one; a notify of the same tick comes after it. -/
theorem State.putPost_posted {t u : State} (hd : s.dial = t.dial) (hu : u.queues = (s.putPost q x).queues) :
    PostedAt t u q x := by
  obtain ⟨w, hw⟩ := State.putPost_queue (s := s) (q := q) (x := x)
  rw [PostedAt, hu, hw, State.requeued_tail, State.requeued_noted, hd]
  exact ⟨rfl, rfl⟩

@[simp] theorem State.putPost_mem : (s.putPost q x).mem = s.mem := rfl
@[simp] theorem State.putPost_cores : (s.putPost q x).cores = s.cores := rfl
@[simp] theorem State.putPost_seat : (s.putPost q x).seat = s.seat := rfl
@[simp] theorem State.putPost_fresh : (s.putPost q x).fresh = s.fresh := rfl

end

/-! ## The word (R407, R408) -/

section
variable {s : State} {g : Guard} {d a b : Reg} (h : Issues s g [.g d, .g a, .g b])
include h

theorem qpost_irrevocable : IrrevocableFirst (.qpost g d a b) s :=
  irrevocableFirst_of_settles h (fun u => by rw [exec_qpost, execQpost])

variable (hu : Unordered s)
include hu

theorem qpost_outside (hin : ¬ LocalIn (s.reg a) 64) : Completes (.qpost g d a b) s (Traps 4 (s.reg a) s) := by
  refine completes_of_settles h hu (by rw [exec_qpost, execQpost]) ?_
  dsimp only
  rw [State.settled_reg, if_pos (by rw [(spaceNat _).1, (spaceNat _).2]; omega)]
  exact State.trap_settled 4 _

section
variable (hin : LocalIn (s.reg a) 64)
include hin

theorem qpost_unaligned (hal : (s.reg a).toNat % 64 ≠ 0) : Completes (.qpost g d a b) s (Traps 5 (s.reg a) s) := by
  refine completes_of_settles h hu (by rw [exec_qpost, execQpost]) ?_
  dsimp only
  rw [State.settled_reg, if_neg (by rw [(spaceNat _).1, (spaceNat _).2]; omega), if_pos hal]
  exact State.trap_settled 5 _

section
variable (hal : (s.reg a).toNat % 64 = 0)
include hal

theorem qpost_unnumbered (hb : 1024 ≤ (s.reg b).toNat) : Completes (.qpost g d a b) s (Traps 7 (s.reg b) s) := by
  have hlt := (s.reg b).isLt
  refine completes_of_settles h hu (by rw [exec_qpost, execQpost]) ?_
  dsimp only
  rw [State.settled_reg, State.settled_reg, if_neg (by rw [(spaceNat _).1, (spaceNat _).2]; omega),
    if_neg (not_not.2 hal), if_pos (by rw [extract_ne]; omega)]
  exact State.trap_settled 7 _

/-- A command that is posted to a queue owes its status. -/
theorem qpost_posts (hb : (s.reg b).toNat < 1024) {u : State} {v : Word}
    (hp : s.settled.post s.here.part (s.reg b).toNat (s.spBytes s.seat.core ((s.reg a).toNat % 2 ^ 60) 64)
      (s.isBad (lineKey s.seat.core ((s.reg a).toNat % 2 ^ 60 / 128))) = (u, v)) :
    exec (.qpost g d a b) s = .next (u.owe s.seat.core (.g d) (some v) true).stepPc := by
  have hbytes (off : Nat) : s.settled.spBytes s.seat.core off 64 = s.spBytes s.seat.core off 64 := rfl
  have hpart : s.settled.here.part = s.here.part := by rw [State.settled_here]
  rw [exec_qpost, execQpost, control_of_issues h, State.settling_of_unordered hu]
  dsimp only
  rw [State.settled_reg, State.settled_reg, if_neg (by rw [(spaceNat _).1, (spaceNat _).2]; omega),
    if_neg (not_not.2 hal), if_neg (by rw [extract_ne]; omega), State.settled_seat, hbytes, hpart, State.settled_isBad,
    (spaceNat _).2, hp]

end
end
end

/-! ## The statuses (R200) -/

section
variable {s u : State} {d : Reg}

theorem Glob.dial (h : Glob s u) : u.dial = s.dial := by rw [h]

/-- What taking a command leaves of the machine: the seat, the cores of the settled task and the identifiers. -/
abbrev TookPost (s u : State) : Prop := u.seat = s.seat ∧ u.cores = s.settled.cores ∧ u.fresh = s.fresh

/-- A status is owed to the register; memory and queues are what taking the command has left. -/
theorem TookPost.owes (hq : s.seat.seq = .control) (h : TookPost s u) (v : Word) :
    let t := (u.owe s.seat.core (.g d) (some v) true).stepPc
    OwesReg d (some v) true s t ∧ t.mem = u.mem ∧ t.queues = u.queues := by
  obtain ⟨hs, hc, hf⟩ := h
  have hhere : u.here = s.settled.here := by
    unfold State.here State.core
    rw [hs, hc]
    rfl
  obtain ⟨hnext, howed, hmem⟩ := owesReg hq hs (by rw [hhere]; exact settled_ctl) (by rw [hhere, State.settled_here])
    (by rw [hhere, State.settled_here]) d (some v) true s.fresh hf
  exact ⟨⟨hnext, howed⟩, hmem, rfl⟩

end

/-- The block that a `qpost` posts, and its poison. -/
abbrev State.postBlock (s : State) (a : Reg) : List Byte := s.spBytes s.seat.core ((s.reg a).toNat % 2 ^ 60) 64
abbrev State.postBad (s : State) (a : Reg) : Bool := s.isBad (lineKey s.seat.core ((s.reg a).toNat % 2 ^ 60 / 128))

/-- The command as it is checked. -/
abbrev State.posted (s : State) (a : Reg) : State × Command := s.parseCommand s.here.part (s.postBlock a) (s.postBad a)

/-- The command as it stands in the ring, behind its sequence word. -/
abbrev State.postedBytes (s : State) (a : Reg) (x : Queue) : List Byte :=
  leBytes (x.seq + (x.postTail s.dial - x.head)).toNat 4 ++ (s.postBlock a).drop 4

/-- A settled task's command is checked as it was before. -/
theorem State.settled_posted (s : State) (a : Reg) : s.settled.parseCommand s.here.part (s.postBlock a) (s.postBad a) =
    ((s.posted a).1.withCores s.settled.cores, (s.posted a).2) :=
  parseCommand_withCores s.here.part (s.postBlock a) (s.postBad a)

theorem State.posted_tookPost (s : State) (a : Reg) : TookPost s ((s.posted a).1.withCores s.settled.cores) := by
  have hg := State.parseCommand_glob s s.here.part (s.postBlock a) (s.postBad a)
  exact ⟨hg.seat, rfl, hg.fresh⟩

section
variable {s : State} {g : Guard} {d a b : Reg} {x : Queue} (h : Issues s g [.g d, .g a, .g b]) (hu : Unordered s)
  (hin : LocalIn (s.reg a) 64) (hal : (s.reg a).toNat % 64 = 0) (hb : (s.reg b).toNat < 1024)
include h hu hin hal hb

/-- A command that has been taken stands in the ring, and its status is 0. -/
theorem qpost_taken {u : State} (hk : TookPost s u) (hd : u.dial = s.dial)
    (hp : s.settled.post s.here.part (s.reg b).toNat (s.postBlock a) (s.postBad a) =
      (u.putPost (s.reg b).toNat x, 0)) : Completes (.qpost g d a b) s (fun t => OwesReg d (some 0) true s t
        ∧ t.mem = u.mem ∧ PostedAt s t (s.reg b).toNat x) := by
  obtain ⟨howes, hmem, hqueues⟩ := TookPost.owes (u := u.putPost (s.reg b).toNat x) (d := d) h.1 hk 0
  exact ⟨_, qpost_posts h hu hin hal hb hp, howes, hmem, State.putPost_posted hd hqueues⟩

variable (hx : x = Tbl.get {} s.queues (s.reg b).toNat)
include hx

theorem qpost_refused (hq : x.en = false ∨ x.part.toNat ≠ s.here.part) : PostAnswers (.qpost g d a b) s d 2 := by
  have hp := post_refused (s := s.settled) (b := s.postBlock a) (bad := s.postBad a) hx hq
  obtain ⟨howes, -, hqueues⟩ := TookPost.owes (u := s.settled) (d := d) h.1 ⟨rfl, rfl, rfl⟩ 2
  exact ⟨_, qpost_posts h hu hin hal hb hp, howes, hqueues⟩

section
variable (hen : x.en = true) (hpart : x.part.toNat = s.here.part)
include hen hpart

theorem qpost_full (hfull : x.capacity ≤ (x.postTail s.dial - x.head).toNat) : PostAnswers (.qpost g d a b) s d 1 := by
  have hp := post_full (s := s.settled) (b := s.postBlock a) (bad := s.postBad a) hx hen hpart hfull
  obtain ⟨howes, -, hqueues⟩ := TookPost.owes (u := s.settled) (d := d) h.1 ⟨rfl, rfl, rfl⟩ 1
  exact ⟨_, qpost_posts h hu hin hal hb hp, howes, hqueues⟩

section
variable (hroom : (x.postTail s.dial - x.head).toNat < x.capacity)
include hroom

theorem qpost_malformed (hok : (s.posted a).2.ok = false) : PostAnswers (.qpost g d a b) s d 3 := by
  have hp := post_checked (s := s.settled) (b := s.postBlock a) (bad := s.postBad a) hx hen hpart hroom
  rw [State.settled_posted, if_pos (by rw [hok]; rfl)] at hp
  obtain ⟨howes, -, hqueues⟩ := TookPost.owes (d := d) h.1 (s.posted_tookPost a) 3
  exact ⟨_, qpost_posts h hu hin hal hb hp, howes,
    hqueues.trans (State.parseCommand_glob s s.here.part (s.postBlock a) (s.postBad a)).queues⟩

variable (hok : (s.posted a).2.ok = true)
include hok

theorem qpost_host (hloc : x.loc = false) : Completes (.qpost g d a b) s (fun t => OwesReg d (some 0) true s t
    ∧ t.mem = (s.posted a).1.mem.writes (hostKey (x.slotAt (x.postTail s.dial))) (s.postedBytes a x)
    ∧ PostedAt s t (s.reg b).toNat x) := by
  have hp := post_checked (s := s.settled) (b := s.postBlock a) (bad := s.postBad a) hx hen hpart hroom
  rw [State.settled_posted, if_neg (by simp [hok]), if_neg (by simp [hloc])] at hp
  obtain ⟨hseat, hcores, hfresh⟩ := s.posted_tookPost a
  exact qpost_taken h hu hin hal hb (u := { (s.posted a).1.withCores s.settled.cores with
    mem := (s.posted a).1.mem.writes (hostKey (x.slotAt (x.postTail s.dial))) (s.postedBytes a x) })
    ⟨hseat, hcores, hfresh⟩ (State.parseCommand_glob s _ _ _).dial hp

theorem qpost_unmapped (hloc : x.loc = true) (hw : (s.posted a).1.regWrite s.here.part (x.slotAt (x.postTail s.dial))
    (s.postedBytes a x) false = none) : PostAnswers (.qpost g d a b) s d 2 := by
  have hp := post_checked (s := s.settled) (b := s.postBlock a) (bad := s.postBad a) hx hen hpart hroom
  have hd : s.settled.dial = s.dial := rfl
  rw [State.settled_posted, if_neg (by simp [hok]), if_pos hloc, regWrite_withCores, hd, hw] at hp
  obtain ⟨howes, -, hqueues⟩ := TookPost.owes (d := d) h.1 (s.posted_tookPost a) 2
  exact ⟨_, qpost_posts h hu hin hal hb hp, howes,
    hqueues.trans (State.parseCommand_glob s s.here.part (s.postBlock a) (s.postBad a)).queues⟩

theorem qpost_ring (hloc : x.loc = true) {w : State} (hw : (s.posted a).1.regWrite s.here.part
    (x.slotAt (x.postTail s.dial)) (s.postedBytes a x) false = some w) : Completes (.qpost g d a b) s (fun t =>
      OwesReg d (some 0) true s t ∧ t.mem = w.mem ∧ PostedAt s t (s.reg b).toNat x) := by
  have hp := post_checked (s := s.settled) (b := s.postBlock a) (bad := s.postBad a) hx hen hpart hroom
  have hd : s.settled.dial = s.dial := rfl
  rw [State.settled_posted, if_neg (by simp [hok]), if_pos hloc, regWrite_withCores, hd, hw] at hp
  have hg := (State.parseCommand_glob s s.here.part (s.postBlock a) (s.postBad a)).trans (State.regWrite_glob hw)
  exact qpost_taken h hu hin hal hb (u := w.withCores s.settled.cores) ⟨hg.seat, rfl, hg.fresh⟩ hg.dial hp

end
end
end

end Sys2Proof.Machine
end

section
/-!
`nlook`, `nins`, `nevict`, `qpost`, `cnct` and `cncl` at issue: the obligation O26, clause after clause.
-/

namespace Sys2Proof.Machine

/-- Settles O26: each word by the tests of its operands in their order; a posted command is checked the same before and
after its task has settled. -/
theorem nameAndLevelWords : Obligations.NameAndLevelWords := by
  unfold Obligations.NameAndLevelWords
  refine ⟨fun s g d a b => ⟨fun h => ⟨nlook_fenced h, fun hf => ⟨fun hout => ?_, fun ha hout => ?_, fun ha hb => ⟨fun hal => ?_,
    fun hal hbl => ?_, fun hal hbl => ⟨nlook_full h hf ha hb hal hbl, nlook_requests h hf ha hb hal hbl⟩⟩⟩⟩,
    fun h => ⟨nameStatus_issues h fun _ => rfl, nameStatus_issues (op := fun _ => .evict) h fun _ => rfl⟩⟩,
    fun s g d a b => ⟨fun h => ?_, fun h => ⟨cnct_unfit h, fun hf => ?_⟩, fun h => ⟨?_, fun hu => ⟨cncl_unfit h hu, fun hf => ?_⟩⟩⟩⟩
  · exact nlook_traps h hf (nameAddrs_outside (List.find?_cons_of_pos (outsideLocal_iff.2 hout)))
  · refine nlook_traps h hf (nameAddrs_outside (x := (s.reg b, 64, 64)) ?_)
    have hin : outsideLocal (s.reg a) 16 = false := Bool.eq_false_iff.2 (fun hx => outsideLocal_iff.1 hx ha)
    simp only [List.find?_cons, hin, outsideLocal_iff.2 hout]
  · exact nlook_traps h hf (nameAddrs_unaligned (nlook_addrs ha hb) (List.find?_cons_of_pos (bne_iff_ne.2 hal)))
  · refine nlook_traps h hf (nameAddrs_unaligned (x := (s.reg b, 64, 64)) (nlook_addrs ha hb) ?_)
    simp only [List.find?_cons, hal, bne_self_eq_false, bne_iff_ne.2 hbl]
  · -- `qpost`
    refine ⟨qpost_irrevocable h, fun hu => ⟨qpost_outside h hu, qpost_unaligned h hu, fun hin hal =>
      ⟨qpost_unnumbered h hu hin hal, fun x hb hx => ⟨qpost_refused h hu hin hal hb hx, fun hen hpart =>
        ⟨qpost_full h hu hin hal hb hx hen hpart, qpost_malformed h hu hin hal hb hx hen hpart, fun hroom hok =>
          ⟨qpost_host h hu hin hal hb hx hen hpart hroom hok, fun hloc =>
            ⟨qpost_unmapped h hu hin hal hb hx hen hpart hroom hok hloc, fun w hw =>
              qpost_ring h hu hin hal hb hx hen hpart hroom hok hloc hw⟩⟩⟩⟩⟩⟩⟩
  · -- `cnct`
    refine ⟨fun h0 x hx => cnct_answers h hf ?_, fun l h1 hl => cnct_answers h hf ?_,
      fun l gr h2 hl hgr => cnct_answers h hf ?_, fun l gr j h3 hl hgr hj => cnct_answers h hf ?_,
      fun h1 h3 hl => cnct_answers h hf ?_, fun k j h4 hj => cnct_answers h hf ?_, fun h4 hj => cnct_answers h hf ?_⟩
    · simp only [handleNames, h0, State.counter, hx]
    · simp only [handleNames, h1, State.counter, hl]
    · simp only [handleNames, h2, State.counter, hl, Option.bind_some, hgr]
    · simp only [handleNames, h3, State.counter, hl, Option.bind_some, hgr, hj]
    · exact counter_unenclosed h1 h3 hl
    · simp only [handleNames, h4, State.counter, hj]
    · simp only [handleNames, h4, State.counter, hj]
  · exact irrevocableFirst_of_settles h (fun _ => rfl)
  · -- `cncl`
    refine ⟨fun h0 => cncl_cancels h hu hf ?_, fun l h1 hl => cncl_cancels h hu hf ?_,
      fun l gr h2 hl hgr => cncl_cancels h hu hf ?_, fun l gr j h3 hl hgr hj => cncl_cancels h hu hf ?_,
      fun k j h4 hj => ⟨fun l gr hl hgr => cncl_cancels h hu hf ?_, fun hl => cncl_cancels h hu hf ?_⟩,
      fun h1 h3 hl => cncl_nothing h hu hf ?_, fun h4 hj => cncl_nothing h hu hf ?_⟩
    · simp only [handleNames, h0, State.cancelTarget, unitId]
    · simp only [handleNames, h1, State.cancelTarget, hl, Option.map_some]
    · simp only [handleNames, h2, State.cancelTarget, hl, hgr, Option.map_some, Option.bind_some]
    · simp only [handleNames, h3, State.cancelTarget, hl, hgr, hj, Option.map_some, Option.bind_some]
    · simp only [handleNames, h4, State.cancelTarget, hl, hgr, hj, Option.map_some, Option.bind_some, Option.getD_some]
    · simp only [handleNames, h4, State.cancelTarget, hl, hj, Option.map_some, Option.bind_none, Option.map_none,
        Option.getD_none, Bool.false_and]
    · exact cancelTarget_unenclosed h1 h3 hl
    · simp only [handleNames, h4, State.cancelTarget, hj, Option.map_none]

end Sys2Proof.Machine
end
